-- ==== Sys2Proof/Word.lean ====
section
/-! DEFINITION. The word types of the Veger (R3, R26, R134, R370). -/

namespace Sys2Proof

/-- One byte of memory, of a shed, of a manger slot or of a loft. -/
abbrev Byte := BitVec 8
/-- A 16-bit half of a packed register (R137). -/
abbrev Half16 := BitVec 16
/-- A 32-bit register, and a Creven word (R375). -/
abbrev Word := BitVec 32
/-- A 64-bit value: an address, a Quatin word (R26), a Creven g register (R370). -/
abbrev Dword := BitVec 64
/-- A 512-bit Creven h register (R370). -/
abbrev Vword := BitVec 512
/-- One 128-byte line of a cache (R267). -/
abbrev Line := BitVec 1024

end Sys2Proof
end

