-- ==== Sys2Proof/Machine/Bits.lean ====
section
/-! DEFINITION. Bit fields, sign extension and byte order (R3), and finite maps keyed by a number. -/

namespace Sys2Proof

/-- Bits hi down to lo of a number (R3, R10). -/
def fld (x hi lo : Nat) : Nat := x / 2 ^ lo % 2 ^ (hi + 1 - lo)

/-- Bit i of a number. -/
def bitAt (x i : Nat) : Bool := x / 2 ^ i % 2 == 1

/-- The number a Bool stands for as a bit. -/
def b2n (b : Bool) : Nat := if b then 1 else 0

/-- A number of `n` bits read as two's complement (R134). -/
def sintOf (n x : Nat) : Int :=
  let y := x % 2 ^ n
  if 2 * y < 2 ^ n then (y : Int) else (y : Int) - (2 : Int) ^ n

/-- The `n` low bits of an integer, as a number. -/
def wrapInt (n : Nat) (x : Int) : Nat := (x % (2 : Int) ^ n).toNat

/-- An integer clamped to lo, hi. -/
def clampInt (lo hi x : Int) : Int := if x < lo then lo else if hi < x then hi else x

/-- The low `n` bytes of a number, the lowest address first (R3). -/
def bytesOf : Nat → Nat → List Byte
  | 0, _ => []
  | n + 1, x => BitVec.ofNat 8 x :: bytesOf n (x / 256)

/-- The number whose bytes are listed, the lowest address first (R3). -/
def numOf : List Byte → Nat
  | [] => 0
  | b :: bs => b.toNat + 256 * numOf bs

/-- Division rounding up. -/
def ceilDiv (a b : Nat) : Nat := (a + b - 1) / b

/-- Look a key up in a finite map (a list of pairs). -/
def mget? {α : Type} : List (Nat × α) → Nat → Option α
  | [], _ => none
  | (k, x) :: m, i => if k = i then some x else mget? m i

/-- Look a key up, with a value for the keys not listed. -/
def mget {α : Type} (m : List (Nat × α)) (i : Nat) (dflt : α) : α := (mget? m i).getD dflt

/-- Write one key, keeping the keys strictly rising. -/
def mset {α : Type} : List (Nat × α) → Nat → α → List (Nat × α)
  | [], i, x => [(i, x)]
  | (k, y) :: m, i, x =>
    if i < k then (i, x) :: (k, y) :: m
    else if i = k then (i, x) :: m
    else (k, y) :: mset m i x

/-- Drop one key. -/
def mdel {α : Type} : List (Nat × α) → Nat → List (Nat × α)
  | [], _ => []
  | (k, y) :: m, i => if i = k then mdel m i else (k, y) :: mdel m i

/-- Change the value of one key that is listed. -/
def mmod {α : Type} (m : List (Nat × α)) (i : Nat) (f : α → α) : List (Nat × α) :=
  match mget? m i with
  | some x => mset m i (f x)
  | none => m

/-- The canonical form of a finite map: keys strictly rising. -/
def risingFrom {α : Type} : Nat → List (Nat × α) → Bool
  | _, [] => true
  | lo, (k, _) :: m => decide (lo ≤ k) && risingFrom (k + 1) m

/-- Write one key of a map in which the keys not listed read as `dflt`: writing `dflt` removes the entry. -/
def msetD {α : Type} [DecidableEq α] (dflt : α) (m : List (Nat × α)) (i : Nat) (x : α) : List (Nat × α) :=
  if x = dflt then mdel m i else mset m i x

/-- Change element `i` of a list. -/
def lmod {α : Type} : List α → Nat → (α → α) → List α
  | [], _, _ => []
  | x :: xs, 0, f => f x :: xs
  | x :: xs, i + 1, f => x :: lmod xs i f

/-- Element `i` of a list, or a default. -/
def lget {α : Type} (xs : List α) (i : Nat) (dflt : α) : α := (xs[i]?).getD dflt

/-- The numbers lo, lo + 1, …, n of them. -/
def upFrom : Nat → Nat → List Nat
  | _, 0 => []
  | lo, n + 1 => lo :: upFrom (lo + 1) n

/-- Insert into a list sorted by a key; an equal key goes behind (a stable sort by insertion). -/
def insertBy {α : Type} (key : α → Nat) (x : α) : List α → List α
  | [] => [x]
  | y :: ys => if key x < key y then x :: y :: ys else y :: insertBy key x ys

/-- Stable sort by a number, ascending. -/
def sortBy {α : Type} (key : α → Nat) (xs : List α) : List α := xs.foldl (fun acc x => insertBy key x acc) []

/-- The element with the least key, the first of those tied. -/
def leastBy {α : Type} (key : α → Nat) : List α → Option α
  | [] => none
  | x :: xs =>
    match leastBy key xs with
    | none => some x
    | some y => if key y < key x then some y else some x

end Sys2Proof
end

