-- ==== Sys2Proof/Syntax.lean ====
section
/-! DEFINITION. The syntax of the Veger's steps: Quatin words, Creven words, and the events of the hardware, one
constructor of `Instr` for each row of the table of operations and events. -/

namespace Sys2Proof

/-! ### Operands of Quatin words -/

/-- The sixteen constants (R48). -/
inductive Konst where
  | zero | ione | ineg1 | imax | imin | fone | fneg1 | fhalf | ftwo | finf | fnan | fmax | hone2 | bone2 | laneid | fln2
  deriving DecidableEq, Repr

/-- A source register field (R47). -/
inductive Src where
  | v (n : Fin 640)
  | w (n : Fin 64)
  | k (c : Konst)
  deriving DecidableEq, Repr

/-- A destination register field; code 1008 discards the result (R49). -/
inductive Dst where
  | v (n : Fin 640)
  | w (n : Fin 64)
  | discard
  deriving DecidableEq, Repr

/-- A predicate p0 to p7 (R36). -/
abbrev Pred := Fin 8

/-- The issue fields shared by F3, FI and FE words: B, stall, guard (R28, R31, R36). -/
structure Hdr where
  last : Bool
  stall : Fin 16
  neg : Bool
  pred : Pred
  deriving DecidableEq, Repr

/-- The issue fields of an FP word: B and the 3-bit stall count (R35). -/
structure PHdr where
  last : Bool
  stall : Fin 8
  deriving DecidableEq, Repr

/-- The 4-bit format tags that a register can hold (R146). -/
inductive Tag where
  | raw | i32 | fp32 | fp16x2 | bf16x2 | e4m3x4 | e5m2x4 | e2m1x8 | e8m0x4 | fp64l | fp64h | i8x4 | i16x2 | poison
  deriving DecidableEq, Repr

/-- Integer element modes (R119). -/
inductive Elem where | i32 | i16x2 | i8x4
  deriving DecidableEq, Repr

/-- Integer compare conditions (R119). -/
inductive ICond where | eq | ne | lt | le | gt | ge
  deriving DecidableEq, Repr

/-- Floating-point compare conditions (R155, R159). -/
inductive FCond where | eq | ne | lt | le | gt | ge | num | nan
  deriving DecidableEq, Repr

/-- Rounding modes (R75); stochastic rounding is CVTS's own. -/
inductive Rnd where | rn | rz | ru | rd
  deriving DecidableEq, Repr

/-- Element formats of FMIN, FMAX and SCALE (R155). -/
inductive VFmt where | f32 | f16x2 | bf16x2 | f64
  deriving DecidableEq, Repr

/-- Formats of CVT and CVTS (R164). -/
inductive CFmt where
  | i32 | f32 | f16x2 | bf16x2 | e4m3x4 | e5m2x4 | e2m1x8 | e8m0x4 | f64 | i8x4 | i16x2
  deriving DecidableEq, Repr

/-- PACK modes (R155). -/
inductive PackMode where | lo | hi | lohi
  deriving DecidableEq, Repr

/-- UNPACK modes (R155). -/
inductive UnpackMode where | lo | hi | swap
  deriving DecidableEq, Repr

/-- SCALE modes (R155). -/
inductive ScaleMode where | i | mul | div
  deriving DecidableEq, Repr

/-- BLKSCALE targets (R155). -/
inductive BlkTarget where | e4m3 | e5m2 | e2m1
  deriving DecidableEq, Repr

/-- PHASE advice (R194). -/
inductive PhaseSel where | c | m | w
  deriving DecidableEq, Repr

/-- VOTE modes (R119). -/
inductive VoteMode where | ballot | any | all | eq
  deriving DecidableEq, Repr

/-- SHFL modes (R119). -/
inductive ShflMode where | idx | up | down | xor
  deriving DecidableEq, Repr

/-- MOV widths (R119). -/
inductive MovW where | b32 | b64 | b128
  deriving DecidableEq, Repr

/-- Access widths (R75). -/
inductive Width where | b8 | b16 | b32 | b64 | b128
  deriving DecidableEq, Repr

/-- Access classes (R75, R302). -/
inductive Cls where | rlx | ord | acq | rel | ar
  deriving DecidableEq, Repr

/-- Cache hints (R75, R279). -/
inductive Hint where | none | hold | stream
  deriving DecidableEq, Repr

/-- Levels of PREF (R273). -/
inductive PrefLvl where | l1 | die | stack
  deriving DecidableEq, Repr

/-- Classes of engine commands (R288). -/
inductive EngCls where | copy | matrix | coll
  deriving DecidableEq, Repr

/-- Operand formats of MMA (R234). -/
inductive MFmt where | e2m1 | e4m3 | e5m2 | int8 | bf16 | fp16 | fp32
  deriving DecidableEq, Repr

/-- Atomic operations (R347). -/
inductive AtomOp where | add | min | max | and | or | xor | exch
  deriving DecidableEq, Repr

/-- Element types of CPYS.add (R290). -/
inductive AddTy where | u32 | u64 | f32 | f16x2 | bf16x2
  deriving DecidableEq, Repr

/-- Collective operations (R400). -/
inductive CollOp where | allreduce | redscat | allgather | gather | scatadd
  deriving DecidableEq, Repr

/-- Group classes (R324). -/
inductive GrpCls where | core | die | wide
  deriving DecidableEq, Repr

/-- A set of roles (R327). -/
structure Roles where
  copy : Bool
  matrix : Bool
  vector : Bool
  deriving DecidableEq, Repr

/-- Residue modes (R240). -/
inductive ResMode where | off | count | rerun
  deriving DecidableEq, Repr

/-- Special registers of a thread (R114). -/
inductive SpecReg where
  | tid | ntid | lane | warp | width | core | die | stack | cycles | ticks | rack | seed | fault | rerr | sbcheck
  | asid | gen | part
  deriving DecidableEq, Repr

/-- The halves of an FP word (R72). -/
inductive Half where
  | nop
  | mov (d s : Fin 256)
  | movi (d : Fin 256) (k : BitVec 6)
  | iadd (d s : Fin 256) | isub (d s : Fin 256) | imin (d s : Fin 256) | imax (d s : Fin 256)
  | and (d s : Fin 256) | or (d s : Fin 256) | xor (d s : Fin 256)
  | not (d s : Fin 256) | ineg (d s : Fin 256)
  | shl (d s : Fin 256) (n : Fin 32) | shr (d s : Fin 256) (n : Fin 32) | sar (d s : Fin 256) (n : Fin 32)
  | fadd (d s : Fin 256) (r : Rnd) (ftz : Bool) | fmul (d s : Fin 256) (r : Rnd) (ftz : Bool)
  | fmin (d s : Fin 256) | fmax (d s : Fin 256)
  | retag (d s : Fin 256) (t : Tag)
  deriving DecidableEq, Repr

/-! ### Operands of Creven words -/

/-- A scalar register g0 to g31, or a vector register h0 to h31 (R370). -/
abbrev CReg := Fin 32
/-- A mask register k0 to k7 (R370). -/
abbrev KReg := Fin 8

/-- Creven element types (R372). -/
inductive CTy where | i32 | i64 | f32 | f64 | f16 | bf16 | i16 | i8
  deriving DecidableEq, Repr

/-- Creven access widths (R381). -/
inductive CWidth where | b8 | b16 | b32 | b64
  deriving DecidableEq, Repr

/-- AMO operations (R384). -/
inductive AmoOp where | add | min | max | and | or | xor | exch | cas
  deriving DecidableEq, Repr

/-! ### What the outside supplies to an event -/

/-- A thread of the package: global core, warp of the core, lane of the warp (R6, R80). -/
structure TRef where
  core : Nat
  warp : Nat
  lane : Nat
  deriving DecidableEq, Repr

/-- Statuses of a remote access (R114). -/
inductive RStat where | ok | peerLost | timeout | remoteFault
  deriving DecidableEq, Repr

/-- What an access to another device, or to host memory, brings back: bytes and whether a poisoned sector supplied them, or a
status (R323). -/
inductive Reply where
  | data (bytes : List Byte) (poisoned : Bool)
  | status (st : RStat)
  deriving DecidableEq, Repr

/-- How a launch ends (R368). -/
inductive LStat where | ok | poisoned | dieLost | stackLost | fault
  deriving DecidableEq, Repr

/-- Where a sync word lies, for an add made at it (R216). -/
inductive SyncLoc where
  | shed (die shed off : Nat)
  | home (byte : Nat)
  deriving DecidableEq, Repr

/-- Who appends a packet (R359). -/
inductive Appender where
  | grooms
  | host
  | peer (dev part : Nat)
  deriving DecidableEq, Repr

/-- The source of an Ezkotum message (R466). -/
inductive MsgFrom where
  | mailbox
  | peer (dev : Nat)
  deriving DecidableEq, Repr

/-- A path of a base die: stack index, and p of R426. -/
structure PathId where
  stack : Nat
  p : Nat
  deriving DecidableEq, Repr

/-- What a flit carries of its packet (R412): the channel, whether it is the last flit, the marks of its payload's sectors, the hop, the
world of the source agent, the target and the source device, and the source partition. `tag` stands for the payload. -/
structure FlitBody where
  vc : Nat
  last : Bool
  psn : Nat
  leg : Bool
  ns : Bool
  dst : Nat
  src : Nat
  spart : Nat
  tag : Nat
  deriving DecidableEq, Repr

/-- A flit as a receiver finds it: the fields that the link itself writes, with bits [3:0] of the header; the counter under which it was
sealed, and whether its tag verifies; and what it carries (R412, R423). -/
structure Flit where
  phase : Bool
  seq : Nat
  ack : Nat
  nak : Bool
  idle : Bool
  counter : Nat
  intact : Bool
  zero : Nat
  body : FlitBody
  deriving DecidableEq, Repr

/-- A chunk on its way to a receive channel (R394). -/
structure Chunk where
  srcDev : Nat
  srcPart : Nat
  srcCore : Nat
  channel : Nat
  supervisor : Bool
  len : Nat
  bytes : List Byte
  marks : List Nat
  deriving DecidableEq, Repr

/-- An inbound access of another device (R322, R428): what the threads and the stack cores of a device send. An operand may be POISON
(R354). -/
inductive Inbound where
  | read (size : Nat)
  | write (bytes : List Byte) (poisoned : Bool)
  | atomic (op : AtomOp) (cas u : Bool) (ty : AddTy) (value expected : Nat) (poisoned : Bool)
  | vadd (ty : CTy) (value : Nat) (poisoned : Bool)
  | discard (lines : Nat)
  | syncInit (target : Nat) (poisoned : Bool)
  | syncAdd (units : Nat) (poisoned : Bool)
  /-- a response, on its way to its issuer -/
  | response (flits : Nat)
  deriving DecidableEq, Repr

/-- A packet at the target stack (R412, R428). -/
structure Packet where
  dst : Nat
  src : Nat
  srcPart : Nat
  leg : Bool
  nonSecure : Bool
  pa : Nat
  key : Nat
  op : Inbound
  deriving DecidableEq, Repr

/-- An event record as its four words (R454). -/
structure EvRec where
  w0 : Dword
  ticks : Dword
  addr : Dword
  detail : Dword
  deriving DecidableEq, Repr

/-- A register block of R20. -/
inductive Block where
  | base (s : Nat)
  | die (k : Nat)
  | control
  deriving DecidableEq, Repr

/-- The place that an error of R452 strikes. -/
inductive ErrPlace where
  | vreg (t : TRef) (n : Nat)
  | ureg (core warp n : Nat)
  | tileRow (core : Nat) (launch tile row : Nat)
  | manger (core : Nat) (launch slot sector : Nat)
  | shedWord (die shed word : Nat)
  | l1 (core line : Nat)
  | dieCache (die line : Nat)
  | memory (sector : Nat)
  deriving DecidableEq, Repr

/-- A failure found by the self-test (R462, R464). -/
structure BootFail where
  stage : Fin 8
  code : BitVec 8
  detail : BitVec 16
  ukind : BitVec 3
  unit : BitVec 11
  deriving DecidableEq, Repr

/-- A configuration image as the grooms read it (R463): the enabled units, the heater starting codes by stack and fibre, the key-wrapping
key. Its analogue trims, lane maps, programs and identity key are not seen. -/
structure Image where
  valid : Bool
  version : Nat
  devnum : BitVec 8
  bridge : Bool
  cores : Dword
  dies : BitVec 8
  stackCores : Dword
  heaters : List (BitVec 12)
  kwKey : BitVec 256
  deriving DecidableEq, Repr

/-- One step of the Veger: a row of the table of operations and events. -/
inductive Instr where
  /- F3 words (R68) -/
  | brx (h : Hdr) (a : Src)
  | callx (h : Hdr) (d : Dst) (a : Src)
  | ret (h : Hdr) (a : Src)
  | exit (h : Hdr)
  | yield (h : Hdr)
  | reorder (h : Hdr) (a b c : Src) (desc : Bool)
  | mov (h : Hdr) (d : Dst) (a : Src) (w : MovW)
  | sel (h : Hdr) (d : Dst) (a b : Src) (p : Pred) (neg : Bool)
  | imin (h : Hdr) (d : Dst) (a b : Src) (e : Elem) (u : Bool)
  | imax (h : Hdr) (d : Dst) (a b : Src) (e : Elem) (u : Bool)
  | iabs (h : Hdr) (d : Dst) (a : Src) (e : Elem)
  | ineg (h : Hdr) (d : Dst) (a : Src) (e : Elem)
  | iadd (h : Hdr) (d : Dst) (a b : Src) (e : Elem) (u sat : Bool)
  | isub (h : Hdr) (d : Dst) (a b : Src) (e : Elem) (u sat : Bool)
  | imul (h : Hdr) (d : Dst) (a b : Src)
  | imulh (h : Hdr) (d : Dst) (a b : Src) (u : Bool)
  | imad (h : Hdr) (d : Dst) (a b c : Src)
  | imadw (h : Hdr) (d : Dst) (a b c : Src) (u : Bool)
  | iadd64 (h : Hdr) (d : Dst) (a b : Src) (u sat : Bool)
  | and (h : Hdr) (d : Dst) (a b : Src)
  | or (h : Hdr) (d : Dst) (a b : Src)
  | xor (h : Hdr) (d : Dst) (a b : Src)
  | andn (h : Hdr) (d : Dst) (a b : Src)
  | not (h : Hdr) (d : Dst) (a : Src)
  | shl (h : Hdr) (d : Dst) (a b : Src)
  | shr (h : Hdr) (d : Dst) (a b : Src)
  | sar (h : Hdr) (d : Dst) (a b : Src)
  | rotl (h : Hdr) (d : Dst) (a b : Src)
  | bfx (h : Hdr) (d : Dst) (a b : Src) (signed : Bool)
  | bfi (h : Hdr) (d : Dst) (a b c : Src)
  | popc (h : Hdr) (d : Dst) (a : Src)
  | clz (h : Hdr) (d : Dst) (a : Src)
  | brev (h : Hdr) (d : Dst) (a : Src)
  | icmp (h : Hdr) (pd : Pred) (a b : Src) (u : Bool) (c : ICond)
  | pand (h : Hdr) (pd p q : Pred)
  | por (h : Hdr) (pd p q : Pred)
  | pxor (h : Hdr) (pd p q : Pred)
  | pnot (h : Hdr) (pd p : Pred)
  | vote (h : Hdr) (d : Dst) (p : Pred) (m : VoteMode)
  | shfl (h : Hdr) (d : Dst) (a b : Src) (seg : Fin 8) (m : ShflMode)
  | bcast (h : Hdr) (d : Dst) (a b : Src)
  | lea (h : Hdr) (d : Dst) (a b : Src) (u : Bool) (sh : Fin 8)
  | rdspec (h : Hdr) (d : Dst) (r : SpecReg)
  | wrspec (h : Hdr) (r : SpecReg) (a : Src)
  | fadd (h : Hdr) (d : Dst) (a b : Src) (r : Rnd) (ftz sat : Bool)
  | fsub (h : Hdr) (d : Dst) (a b : Src) (r : Rnd) (ftz sat : Bool)
  | fmul (h : Hdr) (d : Dst) (a b : Src) (r : Rnd) (ftz sat : Bool)
  | ffma (h : Hdr) (d : Dst) (a b c : Src) (r : Rnd) (ftz : Bool)
  | fmin (h : Hdr) (d : Dst) (a b : Src) (f : VFmt) (ftz : Bool)
  | fmax (h : Hdr) (d : Dst) (a b : Src) (f : VFmt) (ftz : Bool)
  | fcmp (h : Hdr) (pd : Pred) (a b : Src) (f64 : Bool) (c : FCond) (ftz : Bool)
  | frcp (h : Hdr) (d : Dst) (a : Src) (r : Rnd) (ftz : Bool)
  | frsq (h : Hdr) (d : Dst) (a : Src) (ftz : Bool)
  | fsqrt (h : Hdr) (d : Dst) (a : Src) (r : Rnd) (ftz : Bool)
  | fexp2 (h : Hdr) (d : Dst) (a : Src) (ftz : Bool)
  | flog2 (h : Hdr) (d : Dst) (a : Src) (ftz : Bool)
  | fsin (h : Hdr) (d : Dst) (a : Src) (ftz : Bool)
  | fcos (h : Hdr) (d : Dst) (a : Src) (ftz : Bool)
  | hadd2 (h : Hdr) (d : Dst) (a b : Src) (r : Rnd) (ftz sat : Bool)
  | hmul2 (h : Hdr) (d : Dst) (a b : Src) (r : Rnd) (ftz sat : Bool)
  | hfma2 (h : Hdr) (d : Dst) (a b c : Src) (r : Rnd) (ftz : Bool)
  | dadd (h : Hdr) (d : Dst) (a b : Src) (r : Rnd) (ftz : Bool)
  | dmul (h : Hdr) (d : Dst) (a b : Src) (r : Rnd) (ftz : Bool)
  | dfma (h : Hdr) (d : Dst) (a b c : Src) (r : Rnd) (ftz : Bool)
  | cvt (h : Hdr) (d : Dst) (a : Src) (df sf : CFmt) (u : Bool) (r : Rnd) (ftz sat : Bool)
  | cvts (h : Hdr) (d : Dst) (a : Src) (df sf : CFmt) (u : Bool) (ftz sat : Bool)
  | pack (h : Hdr) (d : Dst) (a b : Src) (m : PackMode)
  | unpack (h : Hdr) (d : Dst) (a : Src) (m : UnpackMode)
  | retag (h : Hdr) (d : Dst) (a : Src) (t : Tag)
  | scale (h : Hdr) (d : Dst) (a b : Src) (m : ScaleMode) (f : VFmt) (r : Rnd) (ftz : Bool)
  | blkscale (h : Hdr) (d : Dst) (a : Src) (t : BlkTarget)
  | quant (h : Hdr) (d : Dst) (a b : Src) (isMeta : Bool)
  | phase (h : Hdr) (p : PhaseSel)
  | rdrack (h : Hdr) (d : Dst)
  | shmap (h : Hdr) (d : Dst) (a : Src)
  | syncwInit (h : Hdr) (a b : Src) (scratch : Bool) (off : BitVec 8)
  | syncwAdd (h : Hdr) (a b : Src) (scratch : Bool) (off : BitVec 8)
  | syncwWait (h : Hdr) (a b : Src) (scratch : Bool) (off : BitVec 8)
  | mclaim (h : Hdr) (d : Dst) (slot : Option (Fin 64))
  | mrel (h : Hdr) (a : Src)
  | tclaim (h : Hdr) (d : Dst) (tile : Option (Fin 16))
  | trel (h : Hdr) (a : Src)
  | mzero (h : Hdr) (t : Fin 16) (mask : BitVec 4) (int : Bool)
  | trd (h : Hdr) (d : Dst) (t : Fin 16) (a : Src)
  | twr (h : Hdr) (t : Fin 16) (a b : Src)
  | mstat (h : Hdr) (d : Dst)
  | resmode (h : Hdr) (m : ResMode)
  | probe (h : Hdr) (d : Dst) (a : Src) (walk : Bool)
  | raisegen (h : Hdr) (a : Src)
  | fence (h : Hdr)
  | fenceSys (h : Hdr) (pd : Pred)
  | leave (h : Hdr) (a : Src)
  | gsync (h : Hdr) (a : Src)
  | pinit (h : Hdr) (a b : Src)
  | pclaim (h : Hdr) (d : Dst) (a : Src)
  | pfill (h : Hdr) (a b : Src)
  | ptake (h : Hdr) (d : Dst) (a : Src)
  | pfree (h : Hdr) (a b : Src)
  | pquery (h : Hdr) (d : Dst) (a : Src)
  | waitc (h : Hdr) (n : Fin 64) (c : EngCls) (pr : Pred)
  | trap (h : Hdr) (imm : BitVec 14)
  | brkpt (h : Hdr)
  | eret (h : Hdr) (next : Bool)
  /- FI words (R69) -/
  | bra (h : Hdr) (imm : BitVec 24)
  | call (h : Hdr) (d : Dst) (imm : BitVec 24)
  | nap (h : Hdr) (imm : BitVec 24)
  | movi (h : Hdr) (d : Dst) (imm : BitVec 24)
  | movhi (h : Hdr) (d : Dst) (a : Src) (imm : BitVec 24)
  | iminImm (h : Hdr) (d : Dst) (a : Src) (imm : BitVec 24)
  | imaxImm (h : Hdr) (d : Dst) (a : Src) (imm : BitVec 24)
  | iaddImm (h : Hdr) (d : Dst) (a : Src) (imm : BitVec 24)
  | imulImm (h : Hdr) (d : Dst) (a : Src) (imm : BitVec 24)
  | andImm (h : Hdr) (d : Dst) (a : Src) (imm : BitVec 24)
  | orImm (h : Hdr) (d : Dst) (a : Src) (imm : BitVec 24)
  | xorImm (h : Hdr) (d : Dst) (a : Src) (imm : BitVec 24)
  | shlImm (h : Hdr) (d : Dst) (a : Src) (imm : BitVec 24)
  | shrImm (h : Hdr) (d : Dst) (a : Src) (imm : BitVec 24)
  | sarImm (h : Hdr) (d : Dst) (a : Src) (imm : BitVec 24)
  | rotlImm (h : Hdr) (d : Dst) (a : Src) (imm : BitVec 24)
  | bfxImm (h : Hdr) (d : Dst) (a : Src) (imm : BitVec 24)
  | faddImm (h : Hdr) (d : Dst) (a : Src) (imm : BitVec 24)
  | fmulImm (h : Hdr) (d : Dst) (a : Src) (imm : BitVec 24)
  /- FP words (R35, R55) -/
  | pairedWord (h : PHdr) (x y : Half)
  /- FE words (R71) -/
  | ld (h : Hdr) (d : Dst) (a : Src) (hint : Hint) (c : Cls) (w : Width) (t : Tag) (pr : Pred) (off : BitVec 4)
  | st (h : Hdr) (d : Src) (a : Src) (hint : Hint) (c : Cls) (w : Width) (off : BitVec 11)
  | ldw (h : Hdr) (d : Dst) (a : Src) (hint : Hint) (c : Cls) (w : Width) (t : Tag) (pr : Pred) (off : BitVec 4)
  | pref (h : Hdr) (a : Src) (hint : Hint) (lvl : PrefLvl) (off : BitVec 7)
  | discard (h : Hdr) (b a : Src)
  | pin (h : Hdr) (b a : Src) (pd : Pred)
  | unpin (h : Hdr) (b a : Src)
  | lds (h : Hdr) (d : Dst) (a : Src) (w : Width) (t : Tag) (off : BitVec 7)
  | sts (h : Hdr) (d a : Src) (w : Width) (off : BitVec 7)
  | ldst (h : Hdr) (d : Dst) (a : Src) (t : Tag) (off : BitVec 7)
  | give (h : Hdr) (a b c : Src) (pd : Pred)
  | atom (h : Hdr) (v a : Src) (c : Cls) (w : Width) (ra : Bool) (op : AtomOp) (u : Bool)
  | atomcas (h : Hdr) (v a n : Src) (c : Cls) (w : Width)
  | red (h : Hdr) (v a : Src) (c : Cls) (w : Width) (ra : Bool) (op : AtomOp) (u : Bool)
  | join (h : Hdr) (d : Dst) (a : Src) (c : GrpCls) (r : Roles)
  | pagein (h : Hdr) (a b : Src) (off : BitVec 20)
  | cpy (h : Hdr) (g : Fin 16) (a : Src) (sd : Bool)
  | cpyg (h : Hdr) (g : Fin 16) (a b : Src) (si sd : Bool)
  | cpys (h : Hdr) (g : Fin 16) (a b : Src) (si sd ra add : Bool) (ty : AddTy)
  | coll (h : Hdr) (g : Fin 16) (a b : Src) (op : CollOp)
  | mma (h : Hdr) (g : Fin 3) (t : Fin 16) (ma mb : Fin 64) (fa fb : MFmt) (sp : Bool) (mask : BitVec 4) (pf : Bool)
      (pen : Fin 32)
  | launch (h : Hdr) (a : Src) (pd : Pred)
  /- Creven words (R376) -/
  | add (d a b : CReg) | sub (d a b : CReg) | mul (d a b : CReg)
  | crevenAnd (d a b : CReg) | crevenOr (d a b : CReg) | crevenXor (d a b : CReg)
  | crevenShl (d a b : CReg) | crevenShr (d a b : CReg) | crevenSar (d a b : CReg)
  | slt (d a b : CReg) | sltu (d a b : CReg)
  | addi (d a : CReg) (imm : BitVec 16)
  | shli (d a : CReg) (n : Fin 64) | shri (d a : CReg) (n : Fin 64) | sari (d a : CReg) (n : Fin 64)
  | ori (d a : CReg) (imm : BitVec 16)
  | lui (d : CReg) (imm : BitVec 16)
  | ldg (d a : CReg) (w : CWidth) (c : Cls) (off : BitVec 12)
  | stg (d a : CReg) (w : CWidth) (c : Cls) (off : BitVec 12)
  | ldl (d a : CReg) (w : CWidth) (off : BitVec 12)
  | stl (d a : CReg) (w : CWidth) (off : BitVec 12)
  | amo (d a b : CReg) (op : AmoOp) (wide : Bool) (c : Cls) (u : Bool)
  | swadd (a b : CReg)
  | swwait (a b : CReg)
  | crevenFence
  | crevenFenceSys (d : CReg)
  | beq (a b : CReg) (off : BitVec 16) | bne (a b : CReg) (off : BitVec 16)
  | blt (a b : CReg) (off : BitVec 16) | bge (a b : CReg) (off : BitVec 16)
  | jal (d : CReg) (off : BitVec 21)
  | jalr (d a : CReg)
  | halt
  | rds (d : CReg) (code : BitVec 8)
  | wrs (a : CReg) (code : BitVec 8)
  | svr (d : CReg) (code : BitVec 12)
  | svw (a : CReg) (code : BitVec 12)
  | psend (d a b c : CReg)
  | precv (d a b : CReg)
  | vld (d a : CReg) (loft ord : Bool) (ty : CTy) (k : KReg) (off : BitVec 8)
  | vst (d a : CReg) (loft ord : Bool) (ty : CTy) (k : KReg) (off : BitVec 8)
  | vgath (d a b : CReg) (k : KReg) (ty : CTy) (loft : Bool)
  | vscat (d a b : CReg) (k : KReg) (ty : CTy) (loft add : Bool)
  | vadd (d a b : CReg) (k : KReg) (ty : CTy) | vsub (d a b : CReg) (k : KReg) (ty : CTy)
  | vmul (d a b : CReg) (k : KReg) (ty : CTy) | vmin (d a b : CReg) (k : KReg) (ty : CTy)
  | vmax (d a b : CReg) (k : KReg) (ty : CTy) | vfma (d a b : CReg) (k : KReg) (ty : CTy)
  | vand (d a b : CReg) (k : KReg) (ty : CTy) | vor (d a b : CReg) (k : KReg) (ty : CTy)
  | vxor (d a b : CReg) (k : KReg) (ty : CTy)
  | vcmp (d : KReg) (a b : CReg) (k : KReg) (ty : CTy) (c : ICond)
  | vcvt (d a : CReg) (k : KReg) (dt st : CTy) (hi : Bool)
  | vsplat (d a : CReg) (k : KReg) (ty : CTy)
  | vextr (d a : CReg) (idx : Fin 32) (ty : CTy)
  | kset (d : KReg) (a : CReg)
  | kget (d : CReg) (a : KReg)
  /- Events that the package posts to itself: issue, waits, engines, memory, bale rings, scheduler -/
  | slotArbitration (core quad : Nat)
  | escapeIssue (core warp : Nat)
  | variableLatencyWrite (core warp id : Nat)
  | napExpiry (t : TRef)
  | warpRetire (core warp : Nat)
  | watchdogExpiry (t : TRef)
  | reservedEncoding (word : Dword)
  | giveDrainEnd (core warp : Nat)
  | wideBarrierCompletion (launch index die : Nat)
  | massReleaseAdmit (die : Nat)
  | penBoxReleaseComplete (launch place pen box : Nat)
  | copyChunk (core : Nat)
  | copyComplete (core id : Nat)
  | collComplete (core warp id : Nat) (peers : List (List (Byte × Bool))) (fail : Option RStat)
  | matrixEngineServe (core : Nat)
  | mmaBlockEnd (core : Nat) (mismatches : Nat)
  | mmaPenFree (core : Nat)
  | mmaComplete (core : Nat)
  | loadReturn (id : Nat) (r : Reply)
  | storeLeaveQueue (core warp : Nat)
  | accessAcknowledged (id : Nat) (r : Reply)
  | accessTimeout (id : Nat)
  | psendStatus (score id : Nat) (st : RStat)
  | predictorDecay (die : Nat)
  | generationRaise (asid : Nat)
  | baleTurn (die : Nat)
  | ringVisit (die j : Nat)
  | rowRingTurn (row : Nat)
  | rowRingVisit (row j : Nat)
  | reservationGrant (core : Nat)
  | halfColumnExit (core : Nat)
  | dependencePoll (part queue : Nat)
  | priorityRise (part queue : Nat)
  | passoverExpiry (part queue : Nat)
  | warpAdmission (die : Nat)
  | powerUp (fail : Option BootFail)
  | launchEnd (launch : Nat) (st : LStat)
  /- Events of sync words, sheds, pens and groups -/
  | syncWordAdd (loc : SyncLoc) (units : Nat)
  /- Events of memory -/
  | atomicPerform (id : Nat) (r : Reply)
  | pageinRequest (id : Nat)
  | lineRecall (die line : Nat)
  | pageWalk (asid : Nat) (va : Dword) (store : Bool) (die core : Nat)
  | pageinCompletion (id : Nat) (ok : Bool)
  /- Events of the bale rings -/
  | regulatorAlarm (reg : Nat)
  | regulatorAlarmClear (reg : Nat)
  | droopStretch (core : Nat)
  /- Events of the scheduler -/
  | schedulerStart
  | launchAppend (src : Appender) (part queue : Nat) (packet : List Byte)
  /- Events of contexts -/
  | stackInstanceStart (score : Nat)
  | twinDrainEnd (core : Nat)
  | stackCoreResume (score : Nat)
  | preemptRequest (core : Nat)
  | contextSwap (core part : Nat)
  | contextRestore (core part : Nat)
  | stackCorePark (score : Nat)
  /- Failures and errors -/
  | dieLost (die : Nat) (code : Nat)
  | stackLost (stack : Nat)
  | attachPortFailure (die col : Nat)
  | yardLinkFailure (a b : Nat)
  | heartbeatTimeout
  | controlDieFailure
  | correctedError (p : ErrPlace)
  | uncorrectableError (p : ErrPlace)
  /- Snapshots -/
  | snapshotOpen (stack : Nat)
  | snapshotUnitCopy (stack : Nat) (ok : Bool)
  /- Peer chunks -/
  | psendChunkAccept (score : Nat) (c : Chunk)
  /- Links -/
  | flitSend (p : PathId)
  | flitReceive (p : PathId) (f : Flit)
  | pathDown (p : PathId)
  | pathUp (p : PathId)
  | lossOfLight (p : PathId) (lanes : List Nat) (slot : Nat)
  | laserModuleFailure (stack : Nat) (hi : Bool)
  | restripe (p : PathId) (ingress : Bool) (lanes : List Nat) (slot : Nat)
  | restripeSwitch (p : PathId)
  | laneReturn (p : PathId) (lane : Nat)
  | keyFlip (p : PathId)
  | oldKeyDiscard (p : PathId)
  | keyExhaustion (p : PathId)
  | laneenWrite (stack fibre : Nat) (value : Word)
  | laserctlWrite (stack : Nat) (value : Dword)
  | inboundPacket (stack : Nat) (p : Packet)
  | safeStateReport (dev : Nat)
  /- The host -/
  | bar0Access (off : Nat) (write : Option (List Byte))
  | bar2Access (off size : Nat) (write : Option (List Byte)) (r : Reply)
  | msixUnmask (vector : Nat)
  | mailboxGo
  | mailboxDoneClear
  /- Ezkotum messages (R467) -/
  | getStatus (src : MsgFrom)
  | partSet (src : MsgFrom) (part : Nat) (mask : Dword) (reg : Nat)
  | allowSet (src : MsgFrom) (die allow rowpart step : Nat) (massen : Bool)
  | asidSet (src : MsgFrom) (asid : Nat) (root : BitVec 28) (sec v : Bool)
  | handlerSet (src : MsgFrom) (asid : Nat) (entry frame : Dword)
  | queueSet (src : MsgFrom) (part queue : Nat) (en : Bool) (asid : Nat)
  | aclSet (src : MsgFrom) (index : Nat) (value : Dword)
  | pinqSet (src : MsgFrom) (part quota : Nat)
  | pinClear (src : MsgFrom) (part : Nat)
  | saveSet (src : MsgFrom) (part : Nat) (value : Dword)
  | keyLoad (src : MsgFrom) (slot : Nat) (sec : Bool) (wrapped : List Byte)
  | keyClear (src : MsgFrom) (slot : Nat)
  | eventRead (src : MsgFrom)
  | counterRead (src : MsgFrom) (b : Block) (off : Nat) (clear : Bool)
  | hostXfer (src : MsgFrom) (toHost : Bool) (dev pa len : Nat) (r : Reply)
  | linkKey (src : MsgFrom) (p : PathId) (signed : Bool)
  | dieReset (src : MsgFrom) (die action : Nat)
  | imageWrite (src : MsgFrom) (block : Nat) (bytes : List Byte) (img : Option Image)
  | eventFwd (src : MsgFrom) (r : EvRec)
  | regRead (src : MsgFrom) (b : Block) (off : Nat)
  | registerWrite (b : Block) (off : Nat) (value : Dword)
  deriving DecidableEq, Repr

end Sys2Proof
end

