-- ==== Sys2Proof/WellFormed.lean ====
section
/-! DEFINITION. The word checks on operands that R57 lists: which operands an instruction accepts beyond what its
constructor's types already say. `Instr.wf` is false exactly for a form whose word raises E_ILLEGAL by R49, R50, R54, R95,
R115, R119, R155, R164, R165, R167, R205, R209, R228, R235, R259, R274, R290, R330, R347, R361, R376 or R400. The checks
that need the warp (R51, the width part of R128) are made at issue. -/

namespace Sys2Proof

/-- A constant that differs from laneid (R228, R330): it is the same in every lane. -/
def Konst.uniform (c : Konst) : Bool := c != .laneid

/-- A group of `n` registers whose first is a multiple of `al`, all inside the vector or the uniform range (R50, R165).
A constant is in no group. -/
def Src.group (n al : Nat) : Src → Bool
  | .v i => i.val % al == 0 && decide (i.val + n ≤ 640)
  | .w i => i.val % al == 0 && decide (i.val + n ≤ 64)
  | .k _ => false

/-- A destination group of `n` registers; the discarding code is accepted (R49, R50). -/
def Dst.group (n al : Nat) : Dst → Bool
  | .v i => i.val % al == 0 && decide (i.val + n ≤ 640)
  | .w i => i.val % al == 0 && decide (i.val + n ≤ 64)
  | .discard => true

/-- A register pair, no constant (R50, R95, R259, R274). -/
def Src.regPair (a : Src) : Bool := a.group 2 2

/-- A 64-bit integer source: a pair or any constant (R50). -/
def Src.pair : Src → Bool
  | .k _ => true
  | a => a.group 2 2

/-- A binary64 source: a pair, or the constant zero (R50). -/
def Src.pair64 : Src → Bool
  | .k c => c == .zero
  | a => a.group 2 2

/-- A 128-bit source: a quad; no constant (R50). -/
def Src.quad (a : Src) : Bool := a.group 4 4

/-- A destination pair (R50). -/
def Dst.pair (d : Dst) : Bool := d.group 2 2

/-- An operand that is the same in every lane: a uniform register, or a constant other than laneid (R228, R330). -/
def Src.isUniform : Src → Bool
  | .v _ => false
  | .w _ => true
  | .k c => c.uniform

/-- A uniform register or any constant (R155, the b of QUANT). -/
def Src.isUniformOrKonst : Src → Bool
  | .v _ => false
  | .w _ => true
  | .k _ => true

/-- A vector register. -/
def Src.isV : Src → Bool
  | .v _ => true
  | .w _ => false
  | .k _ => false

/-- A uniform register. -/
def Src.isW : Src → Bool
  | .v _ => false
  | .w _ => true
  | .k _ => false

/-- No constant. -/
def Src.isReg : Src → Bool
  | .v _ => true
  | .w _ => true
  | .k _ => false

/-- A vector register. -/
def Dst.isV : Dst → Bool
  | .v _ => true
  | .w _ => false
  | .discard => false

/-- A uniform register. -/
def Dst.isW : Dst → Bool
  | .v _ => false
  | .w _ => true
  | .discard => false

/-- Not the discarding code (R274). -/
def Dst.isReg : Dst → Bool
  | .v _ => true
  | .w _ => true
  | .discard => false

/-- A source of an access of this width (R50). -/
def Src.forWidth (a : Src) : Width → Bool
  | .b64 => a.pair
  | .b128 => a.quad
  | _ => true

/-- A destination of an access of this width (R50). -/
def Dst.forWidth (d : Dst) : Width → Bool
  | .b64 => d.pair
  | .b128 => d.group 4 4
  | _ => true

/-- Number of elements in one unit of a conversion format (R164). -/
def CFmt.n : CFmt → Nat
  | .i32 => 1 | .f32 => 1 | .f16x2 => 2 | .bf16x2 => 2 | .e4m3x4 => 4 | .e5m2x4 => 4 | .e2m1x8 => 8 | .e8m0x4 => 4
  | .f64 => 1 | .i8x4 => 4 | .i16x2 => 2

/-- Registers in one unit (R164). -/
def CFmt.regs : CFmt → Nat
  | .f64 => 2
  | _ => 1

/-- Elements converted by one CVT (R165). -/
def cvtCount (df sf : CFmt) : Nat := max df.n sf.n

/-- Units of format `f` in a conversion of these formats (R165). -/
def cvtUnits (df sf f : CFmt) : Nat := cvtCount df sf / f.n

/-- The destination group of a conversion (R165). -/
def cvtDstOk (d : Dst) (df sf : CFmt) : Bool := d.group (cvtUnits df sf df * df.regs) df.regs

/-- The source group of a conversion: a constant only when it is one unit, and only zero for binary64 (R165, R50). -/
def cvtSrcOk (a : Src) (df sf : CFmt) : Bool :=
  match a with
  | .k c => cvtUnits df sf sf == 1 && (sf != .f64 || c == .zero)
  | a => a.group (cvtUnits df sf sf * sf.regs) sf.regs

/-- The format pairs of CVTS (R167). -/
def cvtsPair (df sf : CFmt) : Bool :=
  match sf with
  | .f64 => [CFmt.f32, .f16x2, .bf16x2, .e4m3x4, .e5m2x4, .e2m1x8].contains df
  | .f32 => [CFmt.f16x2, .bf16x2, .e4m3x4, .e5m2x4, .e2m1x8].contains df
  | .i32 => [CFmt.f32, .f16x2, .bf16x2, .e4m3x4, .e5m2x4, .e2m1x8].contains df
  | .f16x2 => [CFmt.bf16x2, .e4m3x4, .e5m2x4, .e2m1x8].contains df
  | .bf16x2 => [CFmt.f16x2, .e4m3x4, .e5m2x4, .e2m1x8].contains df
  | .i16x2 => [CFmt.bf16x2, .f16x2, .e4m3x4, .e5m2x4, .e2m1x8].contains df
  | .e4m3x4 => [CFmt.e5m2x4, .e2m1x8].contains df
  | .e5m2x4 => [CFmt.e4m3x4, .e2m1x8].contains df
  | .e8m0x4 => [CFmt.f16x2, .e4m3x4, .e5m2x4, .e2m1x8].contains df
  | .i8x4 => [CFmt.e4m3x4, .e5m2x4, .e2m1x8].contains df
  | .e2m1x8 => false

/-- The tags a load may name (R205): 0x9 only with .b64; 0xA and 0xF are reserved. -/
def loadTagOk (t : Tag) (w : Width) : Bool :=
  match t with
  | .fp64h => false
  | .poison => false
  | .fp64l => w == .b64
  | _ => true

/-- The tags of LDST (R205). -/
def ldstTagOk (t : Tag) : Bool := t == .raw || t == .fp16x2 || t == .bf16x2 || t == .i16x2

/-- The special registers with a field that software writes (R114). -/
def SpecReg.writable : SpecReg → Bool
  | .seed => true
  | .rerr => true
  | .sbcheck => true
  | _ => false

/-- The special registers that read as a pair (R114). -/
def SpecReg.wide : SpecReg → Bool
  | .tid => true
  | .ntid => true
  | .cycles => true
  | .ticks => true
  | .fault => true
  | _ => false

/-- Load classes (R75). -/
def Cls.forLoad (c : Cls) : Bool := c == .rlx || c == .ord || c == .acq
/-- Store classes (R75). -/
def Cls.forStore (c : Cls) : Bool := c == .rlx || c == .ord || c == .rel
/-- Atomic classes (R75, R347). -/
def Cls.forAtomic (c : Cls) : Bool := c == .rlx || c == .acq || c == .rel || c == .ar

/-- Atomic widths (R347). -/
def Width.forAtomic (w : Width) : Bool := w == .b32 || w == .b64

/-- The format pairs of MMA (R235). -/
def mmaPair (fa fb : MFmt) (sp : Bool) : Bool :=
  let small (f : MFmt) : Bool := f == .e2m1 || f == .e4m3 || f == .e5m2
  if sp then fa == .e2m1 && fb == .e2m1
  else (small fa && small fb) || (fa == fb && (fa == .int8 || fa == .bf16 || fa == .fp16 || fa == .fp32))

/-! ### Paired words (R53, R54) -/

/-- The register a half writes. -/
def Half.dst : Half → Option Nat
  | .nop => none
  | .mov d _ => some d | .movi d _ => some d | .iadd d _ => some d | .isub d _ => some d | .imin d _ => some d
  | .imax d _ => some d | .and d _ => some d | .or d _ => some d | .xor d _ => some d | .not d _ => some d
  | .ineg d _ => some d | .shl d _ _ => some d | .shr d _ _ => some d | .sar d _ _ => some d
  | .fadd d _ _ _ => some d | .fmul d _ _ _ => some d | .fmin d _ => some d | .fmax d _ => some d
  | .retag d _ _ => some d

/-- The registers a half reads: s8, and d8 of an acc half (R53, R72). -/
def Half.reads : Half → List Nat
  | .nop => []
  | .mov _ s => [s.val] | .movi _ _ => [] | .iadd d s => [s.val, d.val] | .isub d s => [s.val, d.val]
  | .imin d s => [s.val, d.val] | .imax d s => [s.val, d.val] | .and d s => [s.val, d.val]
  | .or d s => [s.val, d.val] | .xor d s => [s.val, d.val] | .not _ s => [s.val] | .ineg _ s => [s.val]
  | .shl _ s _ => [s.val] | .shr _ s _ => [s.val] | .sar _ s _ => [s.val]
  | .fadd d s _ _ => [s.val, d.val] | .fmul d s _ _ => [s.val, d.val] | .fmin d s => [s.val, d.val]
  | .fmax d s => [s.val, d.val] | .retag _ s _ => [s.val]

/-- The pairing rules (R54): destinations in different banks, no bank read more than twice, Y reads no register that X
writes. -/
def pairOk (x y : Half) : Bool :=
  let rs := x.reads ++ y.reads
  let banks := [0, 1, 2, 3].all fun b => decide ((rs.filter fun r => r % 4 == b).length ≤ 2)
  let dests := match x.dst, y.dst with
    | some i, some j => i % 4 != j % 4
    | _, _ => true
  let raw := match x.dst with
    | some i => !y.reads.contains i
    | none => true
  dests && banks && raw

/-- Creven types that VGATH and VSCAT accept (R388). -/
def CTy.forGather (t : CTy) : Bool := t == .i32 || t == .i64 || t == .f32 || t == .f64

/-- Element bits (R372). -/
def CTy.bits : CTy → Nat
  | .i32 => 32 | .i64 => 64 | .f32 => 32 | .f64 => 64 | .f16 => 16 | .bf16 => 16 | .i16 => 16 | .i8 => 8

/-- Elements of a 512-bit register (R372). -/
def CTy.count (t : CTy) : Nat := 512 / t.bits

/-- The width pairs of VCVT (R391). -/
def vcvtPair (dt st : CTy) : Bool := dt.bits == st.bits || 2 * dt.bits == st.bits || dt.bits == 2 * st.bits

/-- The operand checks of every form. -/
def Instr.wf : Instr → Bool
  | .brx _ a => a.regPair
  | .callx _ d a => d.pair && !d.isW && a.regPair
  | .ret _ a => a.regPair
  | .reorder _ _ b c _ => b.isV && c.isW && c.regPair
  | .mov _ d a w =>
    match w with
    | .b32 => true
    | .b64 => d.pair && a.pair
    | .b128 => d.group 4 4 && a.quad
  | .imadw _ d _ _ c _ => d.pair && c.pair
  | .iadd64 _ d a b _ _ => d.pair && a.pair && b.pair
  | .bcast _ _ _ b => b.isUniform
  | .lea _ d a _ _ _ => d.pair && a.pair
  | .rdspec _ d r => if r.wide then d.pair else true
  | .wrspec _ r _ => r.writable
  | .fmin _ d a b f _ => if f == .f64 then d.pair && a.pair64 && b.pair64 else true
  | .fmax _ d a b f _ => if f == .f64 then d.pair && a.pair64 && b.pair64 else true
  | .fcmp _ _ a b f _ _ => if f then a.pair64 && b.pair64 else true
  | .dadd _ d a b _ _ => d.pair && a.pair64 && b.pair64
  | .dmul _ d a b _ _ => d.pair && a.pair64 && b.pair64
  | .dfma _ d a b c _ _ => d.pair && a.pair64 && b.pair64 && c.pair64
  | .cvt _ d a df sf _ _ _ _ => df != .e8m0x4 && cvtDstOk d df sf && cvtSrcOk a df sf
  | .cvts _ d a df sf _ _ _ => cvtsPair df sf && cvtDstOk d df sf && cvtSrcOk a df sf
  | .scale _ d a _ _ f _ _ => if f == .f64 then d.pair && a.pair64 else true
  | .quant _ _ _ b _ => b.isUniformOrKonst
  | .syncwInit _ a _ sc _ => if sc then a.isReg else a.regPair
  | .syncwAdd _ a _ sc _ => if sc then a.isReg else a.regPair
  | .syncwWait _ a _ sc _ => if sc then a.isReg else a.regPair
  | .mrel _ a => a.isUniform
  | .trel _ a => a.isUniform
  | .mzero _ _ mask _ => mask != 0
  | .trd _ d _ a => d.isV && d.group 8 8 && a.isUniform
  | .twr _ _ a b => a.isV && a.group 8 8 && b.isUniform
  | .probe _ d a _ => d.pair && d.isReg && a.regPair
  | .raisegen _ a => a.isUniform
  | .leave _ a => a.isUniform
  | .gsync _ a => a.isUniform
  | .pinit _ a b => a.isUniform && b.isUniform
  | .pclaim _ _ a => a.isUniform
  | .pfill _ a b => a.isUniform && b.isUniform
  | .ptake _ _ a => a.isUniform
  | .pfree _ a b => a.isUniform && b.isUniform
  | .pquery _ _ a => a.isUniform
  | .call _ d _ => d.pair && !d.isW
  | .bfxImm _ _ _ imm => fld imm.toNat 23 14 == 0 && fld imm.toNat 7 6 == 0
  | .pairedWord _ x y => pairOk x y
  | .ld _ d a _ c w t _ _ => d.isV && d.forWidth w && a.regPair && c.forLoad && loadTagOk t w
  | .st _ d a _ c w _ => d.forWidth w && a.regPair && c.forStore
  | .ldw _ d a _ c w t _ _ => d.isReg && d.forWidth w && a.isW && a.regPair && c.forLoad && loadTagOk t w
  | .pref _ a _ _ _ => a.regPair
  | .discard _ _ a => a.regPair
  | .pin _ _ a _ => a.regPair
  | .unpin _ _ a => a.regPair
  | .lds _ d a w t _ => d.forWidth w && a.isReg && loadTagOk t w
  | .sts _ d a w _ => d.forWidth w && a.isReg
  | .ldst _ d a t _ => d.group 4 4 && a.isReg && ldstTagOk t
  | .give _ a b c _ => a.isUniform && b.isUniform && c.isUniform
  | .atom _ v a c w ra op u =>
    v.isReg && v.forWidth w && a.regPair && c.forAtomic && w.forAtomic && (!ra || (op == .add && w == .b32))
      && (!u || op == .min || op == .max)
  | .atomcas _ v a n c w => v.isReg && v.forWidth w && a.regPair && n.forWidth w && c.forAtomic && w.forAtomic
  | .red _ v a c w ra op u =>
    v.forWidth w && a.regPair && c.forAtomic && w.forAtomic && (!ra || (op == .add && w == .b32))
      && (!u || op == .min || op == .max) && op != .exch
  | .join _ d a _ r => d.isW && a.isUniform && (r.copy || r.matrix || r.vector)
  | .pagein _ a b _ => a.regPair && (b.regPair || b == .k .zero)
  | .cpy _ _ a _ => a.isW && a.regPair
  | .cpyg _ _ a b _ _ => a.isW && a.regPair && b.isW && b.regPair
  | .cpys _ _ a b _ _ ra ad ty => a.isW && a.regPair && b.isW && b.regPair && (!ra || ad) && (ad || ty == .u32)
  | .coll _ _ a b _ => a.isW && a.regPair && b.isUniform
  | .mma _ _ _ _ mb fa fb sp mask pf pen => mb.val % 2 == 0 && mmaPair fa fb sp && mask != 0 && (pf || pen == 0)
  | .launch _ a _ => a.isW && a.quad
  | .ldg _ _ _ c _ => c.forLoad
  | .stg _ _ _ c _ => c.forStore
  | .amo _ _ _ op _ c u => c.forAtomic && (!u || op == .min || op == .max)
  | .vld _ _ loft ord _ _ _ => !(loft && ord)
  | .vst _ _ loft ord _ _ _ => !(loft && ord)
  | .vgath _ _ _ _ ty _ => ty.forGather
  | .vscat _ _ _ _ ty loft ad => ty.forGather && !(loft && ad)
  | .vcvt _ _ _ dt sty _ => vcvtPair dt sty
  | .vextr _ _ idx ty => decide (idx.val < ty.count)
  | _ => true

end Sys2Proof
end

