-- ==== Sys2Proof/Decode.lean ====
section
/-! DEFINITION. The decoders of Quatin words (R26 to R35, R47 to R57, R66 to R77) and of Creven words (R375, R376): total,
refusing by name every encoding that R57 or R376 refuses; and after them the encoders, written from the same tables. -/

namespace Sys2Proof

/-- Why a word is no instruction (R57). -/
inductive DecErr where
  /-- opcode or op7 unassigned in its space (R67) -/
  | unassigned
  /-- register field 704 to 1007 (R47) -/
  | reservedRegister
  /-- constant 1009 to 1023 as destination (R49) -/
  | constantDest
  /-- reserved modifier value -/
  | modifier
  /-- an unused bit or field that is not zero -/
  | unusedBits
  /-- a split granule that the instruction does not accept (R56) -/
  | granule
  /-- an operand that the instruction does not accept (R50, R54, R95 and the owning chapters) -/
  | operand
  deriving DecidableEq, Repr

/-- What a decoder answers. -/
abbrev Dec (α : Type) := Except DecErr α

/-! ### Field codes -/

/-- The constants by code minus 1008 (R48). -/
def konstOf (n : Nat) : Konst :=
  match n with
  | 0 => .zero | 1 => .ione | 2 => .ineg1 | 3 => .imax | 4 => .imin | 5 => .fone | 6 => .fneg1 | 7 => .fhalf
  | 8 => .ftwo | 9 => .finf | 10 => .fnan | 11 => .fmax | 12 => .hone2 | 13 => .bone2 | 14 => .laneid | _ => .fln2

/-- The code of a constant minus 1008 (R48). -/
def konstCode : Konst → Nat
  | .zero => 0 | .ione => 1 | .ineg1 => 2 | .imax => 3 | .imin => 4 | .fone => 5 | .fneg1 => 6 | .fhalf => 7
  | .ftwo => 8 | .finf => 9 | .fnan => 10 | .fmax => 11 | .hone2 => 12 | .bone2 => 13 | .laneid => 14 | .fln2 => 15

/-- A source register field (R47). -/
def decSrc (n : Nat) : Dec Src :=
  if n < 640 then .ok (.v (Fin.ofNat 640 n))
  else if n < 704 then .ok (.w (Fin.ofNat 64 (n - 640)))
  else if n < 1008 then .error .reservedRegister
  else .ok (.k (konstOf (n - 1008)))

/-- A destination register field (R47, R49). -/
def decDst (n : Nat) : Dec Dst :=
  if n < 640 then .ok (.v (Fin.ofNat 640 n))
  else if n < 704 then .ok (.w (Fin.ofNat 64 (n - 640)))
  else if n < 1008 then .error .reservedRegister
  else if n = 1008 then .ok .discard
  else .error .constantDest

/-- The issue fields of F3, FI and FE words (R31). -/
def decHdr (x : Nat) : Hdr := ⟨bitAt x 63, Fin.ofNat 16 (fld x 60 57), bitAt x 56, Fin.ofNat 8 (fld x 55 53)⟩

/-- Bits that an instruction leaves unused must be zero (R57). -/
def unused (x : Nat) (l : List (Nat × Nat)) : Dec Unit :=
  if l.all fun p => fld x p.1 p.2 == 0 then .ok () else .error .unusedBits

/-- The granule of an instruction that drives no engine (R56). -/
def noGranule (x : Nat) : Dec Unit := if fld x 43 40 = 0 then .ok () else .error .granule

def decPred (n : Nat) : Pred := Fin.ofNat 8 n

def decElem (n : Nat) : Dec Elem :=
  match n with
  | 0 => .ok .i32 | 1 => .ok .i16x2 | 2 => .ok .i8x4 | _ => .error .modifier

def decICond (n : Nat) : Dec ICond :=
  match n with
  | 0 => .ok .eq | 1 => .ok .ne | 2 => .ok .lt | 3 => .ok .le | 4 => .ok .gt | 5 => .ok .ge | _ => .error .modifier

def decFCond (n : Nat) : Dec FCond :=
  match n with
  | 0 => .ok .eq | 1 => .ok .ne | 2 => .ok .lt | 3 => .ok .le | 4 => .ok .gt | 5 => .ok .ge | 6 => .ok .num
  | 7 => .ok .nan | _ => .error .modifier

def decRnd (n : Nat) : Dec Rnd :=
  match n with
  | 0 => .ok .rn | 1 => .ok .rz | 2 => .ok .ru | 3 => .ok .rd | _ => .error .modifier

/-- The rounding field of an instruction that accepts .rn only. -/
def onlyRn (n : Nat) : Dec Unit := if n = 0 then .ok () else .error .modifier

def decVFmt (n : Nat) : Dec VFmt :=
  match n with
  | 0 => .ok .f32 | 1 => .ok .f16x2 | 2 => .ok .bf16x2 | 3 => .ok .f64 | _ => .error .modifier

def decCFmt (n : Nat) : Dec CFmt :=
  match n with
  | 1 => .ok .i32 | 2 => .ok .f32 | 3 => .ok .f16x2 | 4 => .ok .bf16x2 | 5 => .ok .e4m3x4 | 6 => .ok .e5m2x4
  | 7 => .ok .e2m1x8 | 8 => .ok .e8m0x4 | 9 => .ok .f64 | 11 => .ok .i8x4 | 12 => .ok .i16x2 | _ => .error .modifier

def decTag (n : Nat) : Dec Tag :=
  match n with
  | 0 => .ok .raw | 1 => .ok .i32 | 2 => .ok .fp32 | 3 => .ok .fp16x2 | 4 => .ok .bf16x2 | 5 => .ok .e4m3x4
  | 6 => .ok .e5m2x4 | 7 => .ok .e2m1x8 | 8 => .ok .e8m0x4 | 9 => .ok .fp64l | 10 => .ok .fp64h | 11 => .ok .i8x4
  | 12 => .ok .i16x2 | 15 => .ok .poison | _ => .error .modifier

/-- The code of a tag (R146). -/
def Tag.code : Tag → Nat
  | .raw => 0 | .i32 => 1 | .fp32 => 2 | .fp16x2 => 3 | .bf16x2 => 4 | .e4m3x4 => 5 | .e5m2x4 => 6 | .e2m1x8 => 7
  | .e8m0x4 => 8 | .fp64l => 9 | .fp64h => 10 | .i8x4 => 11 | .i16x2 => 12 | .poison => 15

def decWidth (n : Nat) : Dec Width :=
  match n with
  | 0 => .ok .b8 | 1 => .ok .b16 | 2 => .ok .b32 | 3 => .ok .b64 | 4 => .ok .b128 | _ => .error .modifier

def decCls (n : Nat) : Dec Cls :=
  match n with
  | 0 => .ok .rlx | 1 => .ok .ord | 2 => .ok .acq | 3 => .ok .rel | 4 => .ok .ar | _ => .error .modifier

def decHint (n : Nat) : Dec Hint :=
  match n with
  | 0 => .ok .none | 1 => .ok .hold | 2 => .ok .stream | _ => .error .modifier

def decMFmt (n : Nat) : Dec MFmt :=
  match n with
  | 0 => .ok .e2m1 | 1 => .ok .e4m3 | 2 => .ok .e5m2 | 3 => .ok .int8 | 4 => .ok .bf16 | 5 => .ok .fp16 | 6 => .ok .fp32
  | _ => .error .modifier

def decAtom (n : Nat) : Dec AtomOp :=
  match n with
  | 0 => .ok .add | 1 => .ok .min | 2 => .ok .max | 3 => .ok .and | 4 => .ok .or | 5 => .ok .xor | 6 => .ok .exch
  | _ => .error .modifier

def decAddTy (n : Nat) : Dec AddTy :=
  match n with
  | 0 => .ok .u32 | 1 => .ok .u64 | 2 => .ok .f32 | 3 => .ok .f16x2 | 4 => .ok .bf16x2 | _ => .error .modifier

def decColl (n : Nat) : Dec CollOp :=
  match n with
  | 0 => .ok .allreduce | 1 => .ok .redscat | 2 => .ok .allgather | 3 => .ok .gather | 4 => .ok .scatadd
  | _ => .error .modifier

def decGrp (n : Nat) : Dec GrpCls :=
  match n with
  | 0 => .ok .core | 1 => .ok .die | 2 => .ok .wide | _ => .error .modifier

def decEng (n : Nat) : Dec EngCls :=
  match n with
  | 0 => .ok .copy | 1 => .ok .matrix | 2 => .ok .coll | _ => .error .modifier

def decSpec (n : Nat) : Dec SpecReg :=
  match n with
  | 0 => .ok .tid | 1 => .ok .ntid | 2 => .ok .lane | 3 => .ok .warp | 4 => .ok .width | 5 => .ok .core | 6 => .ok .die
  | 7 => .ok .stack | 8 => .ok .cycles | 9 => .ok .ticks | 10 => .ok .rack | 11 => .ok .seed | 12 => .ok .fault
  | 13 => .ok .rerr | 14 => .ok .sbcheck | 15 => .ok .asid | 16 => .ok .gen | 17 => .ok .part | _ => .error .modifier

def decVote (n : Nat) : VoteMode :=
  match n with
  | 0 => .ballot | 1 => .any | 2 => .all | _ => .eq

def decShfl (n : Nat) : ShflMode :=
  match n with
  | 0 => .idx | 1 => .up | 2 => .down | _ => .xor

def decMovW (n : Nat) : Dec MovW :=
  match n with
  | 0 => .ok .b32 | 1 => .ok .b64 | 2 => .ok .b128 | _ => .error .modifier

def decPack (n : Nat) : Dec PackMode :=
  match n with
  | 0 => .ok .lo | 1 => .ok .hi | 2 => .ok .lohi | _ => .error .modifier

def decUnpack (n : Nat) : Dec UnpackMode :=
  match n with
  | 0 => .ok .lo | 1 => .ok .hi | 2 => .ok .swap | _ => .error .modifier

def decScale (n : Nat) : Dec ScaleMode :=
  match n with
  | 0 => .ok .i | 1 => .ok .mul | 2 => .ok .div | _ => .error .modifier

def decBlk (n : Nat) : Dec BlkTarget :=
  match n with
  | 0 => .ok .e4m3 | 1 => .ok .e5m2 | 2 => .ok .e2m1 | _ => .error .modifier

def decPhase (n : Nat) : Dec PhaseSel :=
  match n with
  | 0 => .ok .c | 1 => .ok .m | 2 => .ok .w | _ => .error .modifier

def decRes (n : Nat) : Dec ResMode :=
  match n with
  | 0 => .ok .off | 1 => .ok .count | 2 => .ok .rerun | _ => .error .modifier

def decLvl (n : Nat) : Dec PrefLvl :=
  match n with
  | 0 => .ok .l1 | 1 => .ok .die | 2 => .ok .stack | _ => .error .modifier

/-! ### F3 words -/

/-- Shapes of F3 operand fields; `x` is the word. -/
def f3d (x : Nat) : Dec Dst := decDst (fld x 43 34)
def f3a (x : Nat) : Dec Src := decSrc (fld x 33 24)
def f3b (x : Nat) : Dec Src := decSrc (fld x 23 14)
def f3c (x : Nat) : Dec Src := decSrc (fld x 13 4)

/-- d, a, b with every modifier bit zero. -/
def f3dab (x : Nat) (k : Dst → Src → Src → Instr) : Dec Instr := do
  unused x [(13, 0)]
  return k (← f3d x) (← f3a x) (← f3b x)

/-- d, a with b and every modifier bit zero. -/
def f3da (x : Nat) (k : Dst → Src → Instr) : Dec Instr := do
  unused x [(23, 0)]
  return k (← f3d x) (← f3a x)

/-- d, a, b with rounding, ftz and sat (R76, R155). -/
def f3fp (x : Nat) (k : Dst → Src → Src → Rnd → Bool → Bool → Instr) : Dec Instr := do
  unused x [(13, 5)]
  return k (← f3d x) (← f3a x) (← f3b x) (← decRnd (fld x 2 0)) (bitAt x 3) (bitAt x 4)

/-- d, a, b, c with rounding and ftz (R76). -/
def f3fma (x : Nat) (k : Dst → Src → Src → Src → Rnd → Bool → Instr) : Dec Instr :=
  return k (← f3d x) (← f3a x) (← f3b x) (← f3c x) (← decRnd (fld x 2 0)) (bitAt x 3)

/-- d, a with rounding and ftz. -/
def f3un (x : Nat) (k : Dst → Src → Rnd → Bool → Instr) : Dec Instr := do
  unused x [(23, 4)]
  return k (← f3d x) (← f3a x) (← decRnd (fld x 2 0)) (bitAt x 3)

/-- d, a with ftz, .rn only. -/
def f3fn (x : Nat) (k : Dst → Src → Bool → Instr) : Dec Instr := do
  unused x [(23, 4)]
  onlyRn (fld x 2 0)
  return k (← f3d x) (← f3a x) (bitAt x 3)

/-- The F3 space (R68). -/
def decF3 (x : Nat) : Dec Instr :=
  let h := decHdr x
  match fld x 52 44 with
  | 0x001 => do unused x [(43, 34), (23, 0)]; return .brx h (← f3a x)
  | 0x002 => f3da x (.callx h)
  | 0x003 => do unused x [(43, 34), (23, 0)]; return .ret h (← f3a x)
  | 0x004 => do unused x [(43, 0)]; return .exit h
  | 0x005 => do unused x [(43, 0)]; return .yield h
  | 0x006 => do unused x [(43, 34), (3, 1)]; return .reorder h (← f3a x) (← f3b x) (← f3c x) (bitAt x 0)
  | 0x010 => do
    unused x [(23, 7), (4, 0)]
    return .mov h (← f3d x) (← f3a x) (← decMovW (fld x 6 5))
  | 0x011 => do
    unused x [(9, 0)]
    return .sel h (← f3d x) (← f3a x) (← f3b x) (decPred (fld x 13 11)) (bitAt x 10)
  | 0x012 => do
    unused x [(13, 8), (4, 0)]
    return .imin h (← f3d x) (← f3a x) (← f3b x) (← decElem (fld x 7 6)) (bitAt x 5)
  | 0x013 => do
    unused x [(13, 8), (4, 0)]
    return .imax h (← f3d x) (← f3a x) (← f3b x) (← decElem (fld x 7 6)) (bitAt x 5)
  | 0x014 => do unused x [(23, 8), (5, 0)]; return .iabs h (← f3d x) (← f3a x) (← decElem (fld x 7 6))
  | 0x015 => do unused x [(23, 8), (5, 0)]; return .ineg h (← f3d x) (← f3a x) (← decElem (fld x 7 6))
  | 0x020 => do
    unused x [(13, 8), (3, 0)]
    return .iadd h (← f3d x) (← f3a x) (← f3b x) (← decElem (fld x 7 6)) (bitAt x 5) (bitAt x 4)
  | 0x021 => do
    unused x [(13, 8), (3, 0)]
    return .isub h (← f3d x) (← f3a x) (← f3b x) (← decElem (fld x 7 6)) (bitAt x 5) (bitAt x 4)
  | 0x022 => f3dab x (.imul h)
  | 0x023 => do
    unused x [(13, 6), (4, 0)]
    return .imulh h (← f3d x) (← f3a x) (← f3b x) (bitAt x 5)
  | 0x024 => do unused x [(3, 0)]; return .imad h (← f3d x) (← f3a x) (← f3b x) (← f3c x)
  | 0x025 => do unused x [(3, 1)]; return .imadw h (← f3d x) (← f3a x) (← f3b x) (← f3c x) (bitAt x 0)
  | 0x026 => do
    unused x [(13, 6), (3, 0)]
    return .iadd64 h (← f3d x) (← f3a x) (← f3b x) (bitAt x 5) (bitAt x 4)
  | 0x028 => f3dab x (.and h)
  | 0x029 => f3dab x (.or h)
  | 0x02A => f3dab x (.xor h)
  | 0x02B => f3dab x (.andn h)
  | 0x02C => f3da x (.not h)
  | 0x030 => f3dab x (.shl h)
  | 0x031 => f3dab x (.shr h)
  | 0x032 => f3dab x (.sar h)
  | 0x033 => f3dab x (.rotl h)
  | 0x034 => do
    unused x [(13, 6), (4, 0)]
    return .bfx h (← f3d x) (← f3a x) (← f3b x) (bitAt x 5)
  | 0x035 => do unused x [(3, 0)]; return .bfi h (← f3d x) (← f3a x) (← f3b x) (← f3c x)
  | 0x036 => f3da x (.popc h)
  | 0x037 => f3da x (.clz h)
  | 0x038 => f3da x (.brev h)
  | 0x040 => do
    unused x [(43, 34), (13, 12), (4, 0)]
    return .icmp h (decPred (fld x 11 9)) (← f3a x) (← f3b x) (bitAt x 8) (← decICond (fld x 7 5))
  | 0x041 => do
    unused x [(43, 14), (4, 0)]
    return .pand h (decPred (fld x 13 11)) (decPred (fld x 10 8)) (decPred (fld x 7 5))
  | 0x042 => do
    unused x [(43, 14), (4, 0)]
    return .por h (decPred (fld x 13 11)) (decPred (fld x 10 8)) (decPred (fld x 7 5))
  | 0x043 => do
    unused x [(43, 14), (4, 0)]
    return .pxor h (decPred (fld x 13 11)) (decPred (fld x 10 8)) (decPred (fld x 7 5))
  | 0x044 => do
    unused x [(43, 14), (7, 0)]
    return .pnot h (decPred (fld x 13 11)) (decPred (fld x 10 8))
  | 0x048 => do
    unused x [(33, 14), (10, 7), (4, 0)]
    return .vote h (← f3d x) (decPred (fld x 13 11)) (decVote (fld x 6 5))
  | 0x049 => do
    unused x [(13, 10), (4, 0)]
    return .shfl h (← f3d x) (← f3a x) (← f3b x) (Fin.ofNat 8 (fld x 9 7)) (decShfl (fld x 6 5))
  | 0x04A => f3dab x (.bcast h)
  | 0x04B => do
    unused x [(13, 9), (4, 0)]
    return .lea h (← f3d x) (← f3a x) (← f3b x) (bitAt x 8) (Fin.ofNat 8 (fld x 7 5))
  | 0x050 => do
    unused x [(33, 14), (7, 0)]
    return .rdspec h (← f3d x) (← decSpec (fld x 13 8))
  | 0x051 => do
    unused x [(43, 34), (23, 14), (7, 0)]
    return .wrspec h (← decSpec (fld x 13 8)) (← f3a x)
  | 0x080 => f3fp x (.fadd h)
  | 0x081 => f3fp x (.fsub h)
  | 0x082 => f3fp x (.fmul h)
  | 0x083 => f3fma x (.ffma h)
  | 0x084 => do
    unused x [(13, 7), (4, 4)]
    onlyRn (fld x 2 0)
    return .fmin h (← f3d x) (← f3a x) (← f3b x) (← decVFmt (fld x 6 5)) (bitAt x 3)
  | 0x085 => do
    unused x [(13, 7), (4, 4)]
    onlyRn (fld x 2 0)
    return .fmax h (← f3d x) (← f3a x) (← f3b x) (← decVFmt (fld x 6 5)) (bitAt x 3)
  | 0x086 => do
    unused x [(43, 34), (13, 13), (4, 4)]
    onlyRn (fld x 2 0)
    return .fcmp h (decPred (fld x 11 9)) (← f3a x) (← f3b x) (bitAt x 12) (← decFCond (fld x 8 5)) (bitAt x 3)
  | 0x088 => f3un x (.frcp h)
  | 0x089 => f3fn x (.frsq h)
  | 0x08A => f3un x (.fsqrt h)
  | 0x08B => f3fn x (.fexp2 h)
  | 0x08C => f3fn x (.flog2 h)
  | 0x08D => f3fn x (.fsin h)
  | 0x08E => f3fn x (.fcos h)
  | 0x090 => f3fp x (.hadd2 h)
  | 0x091 => f3fp x (.hmul2 h)
  | 0x092 => f3fma x (.hfma2 h)
  | 0x098 => do
    unused x [(13, 4)]
    return .dadd h (← f3d x) (← f3a x) (← f3b x) (← decRnd (fld x 2 0)) (bitAt x 3)
  | 0x099 => do
    unused x [(13, 4)]
    return .dmul h (← f3d x) (← f3a x) (← f3b x) (← decRnd (fld x 2 0)) (bitAt x 3)
  | 0x09A => f3fma x (.dfma h)
  | 0x0A0 => do
    unused x [(23, 14)]
    return .cvt h (← f3d x) (← f3a x) (← decCFmt (fld x 12 9)) (← decCFmt (fld x 8 5)) (bitAt x 13)
      (← decRnd (fld x 2 0)) (bitAt x 3) (bitAt x 4)
  | 0x0A1 => do
    unused x [(23, 14)]
    if fld x 2 0 = 4 then
      return .cvts h (← f3d x) (← f3a x) (← decCFmt (fld x 12 9)) (← decCFmt (fld x 8 5)) (bitAt x 13)
        (bitAt x 3) (bitAt x 4)
    else .error .modifier
  | 0x0A2 => do
    unused x [(13, 7), (4, 0)]
    return .pack h (← f3d x) (← f3a x) (← f3b x) (← decPack (fld x 6 5))
  | 0x0A3 => do
    unused x [(23, 7), (4, 0)]
    return .unpack h (← f3d x) (← f3a x) (← decUnpack (fld x 6 5))
  | 0x0A4 => do
    unused x [(23, 9), (4, 0)]
    return .retag h (← f3d x) (← f3a x) (← decTag (fld x 8 5))
  | 0x0A5 => do
    unused x [(13, 9), (4, 4)]
    return .scale h (← f3d x) (← f3a x) (← f3b x) (← decScale (fld x 8 7)) (← decVFmt (fld x 6 5))
      (← decRnd (fld x 2 0)) (bitAt x 3)
  | 0x0A6 => do
    unused x [(23, 7), (4, 0)]
    return .blkscale h (← f3d x) (← f3a x) (← decBlk (fld x 6 5))
  | 0x0A7 => do
    unused x [(13, 6), (4, 0)]
    return .quant h (← f3d x) (← f3a x) (← f3b x) (bitAt x 5)
  | 0x0C0 => do unused x [(43, 7), (4, 0)]; return .phase h (← decPhase (fld x 6 5))
  | 0x0C1 => do unused x [(33, 0)]; return .rdrack h (← f3d x)
  | 0x0D0 => f3da x (.shmap h)
  | 0x0D1 => do
    unused x [(43, 34), (4, 0)]
    return .syncwInit h (← f3a x) (← f3b x) (bitAt x 13) (BitVec.ofNat 8 (fld x 12 5))
  | 0x0D2 => do
    unused x [(43, 34), (4, 0)]
    return .syncwAdd h (← f3a x) (← f3b x) (bitAt x 13) (BitVec.ofNat 8 (fld x 12 5))
  | 0x0D3 => do
    unused x [(43, 34), (4, 0)]
    return .syncwWait h (← f3a x) (← f3b x) (bitAt x 13) (BitVec.ofNat 8 (fld x 12 5))
  | 0x0E0 =>
    if bitAt x 13 then do
      unused x [(33, 14), (12, 12), (5, 0)]
      return .mclaim h (← f3d x) (some (Fin.ofNat 64 (fld x 11 6)))
    else do
      unused x [(33, 0)]
      return .mclaim h (← f3d x) none
  | 0x0E1 => do unused x [(43, 34), (23, 0)]; return .mrel h (← f3a x)
  | 0x0E2 =>
    if bitAt x 13 then do
      unused x [(33, 14), (12, 10), (5, 0)]
      return .tclaim h (← f3d x) (some (Fin.ofNat 16 (fld x 9 6)))
    else do
      unused x [(33, 0)]
      return .tclaim h (← f3d x) none
  | 0x0E3 => do unused x [(43, 34), (23, 0)]; return .trel h (← f3a x)
  | 0x0E4 => do
    unused x [(43, 14), (4, 0)]
    return .mzero h (Fin.ofNat 16 (fld x 13 10)) (BitVec.ofNat 4 (fld x 9 6)) (bitAt x 5)
  | 0x0E5 => do
    unused x [(23, 14), (9, 0)]
    return .trd h (← f3d x) (Fin.ofNat 16 (fld x 13 10)) (← f3a x)
  | 0x0E6 => do
    unused x [(43, 34), (9, 0)]
    return .twr h (Fin.ofNat 16 (fld x 13 10)) (← f3a x) (← f3b x)
  | 0x0E7 => do unused x [(33, 0)]; return .mstat h (← f3d x)
  | 0x0E8 => do unused x [(43, 7), (4, 0)]; return .resmode h (← decRes (fld x 6 5))
  | 0x0F0 => do
    unused x [(23, 6), (4, 0)]
    return .probe h (← f3d x) (← f3a x) (bitAt x 5)
  | 0x0F1 => do unused x [(43, 34), (23, 0)]; return .raisegen h (← f3a x)
  | 0x100 => do unused x [(43, 0)]; return .fence h
  | 0x101 => do unused x [(43, 12), (8, 0)]; return .fenceSys h (decPred (fld x 11 9))
  | 0x110 => do unused x [(43, 34), (23, 0)]; return .leave h (← f3a x)
  | 0x111 => do unused x [(43, 34), (23, 0)]; return .gsync h (← f3a x)
  | 0x112 => do unused x [(43, 34), (13, 0)]; return .pinit h (← f3a x) (← f3b x)
  | 0x113 => f3da x (.pclaim h)
  | 0x114 => do unused x [(43, 34), (13, 0)]; return .pfill h (← f3a x) (← f3b x)
  | 0x115 => f3da x (.ptake h)
  | 0x116 => do unused x [(43, 34), (13, 0)]; return .pfree h (← f3a x) (← f3b x)
  | 0x117 => f3da x (.pquery h)
  | 0x120 => do
    unused x [(43, 14), (7, 7), (1, 0)]
    return .waitc h (Fin.ofNat 64 (fld x 13 8)) (← decEng (fld x 6 5)) (decPred (fld x 4 2))
  | 0x1F0 => do unused x [(43, 14)]; return .trap h (BitVec.ofNat 14 (fld x 13 0))
  | 0x1F1 => do unused x [(43, 0)]; return .brkpt h
  | 0x1F2 => do unused x [(43, 6), (4, 0)]; return .eret h (bitAt x 5)
  | _ => .error .unassigned

/-! ### FI words -/

/-- imm24 (R33). -/
def imm24 (x : Nat) : BitVec 24 := BitVec.ofNat 24 (fld x 23 0)

/-- d, a and imm24. -/
def fidai (x : Nat) (k : Dst → Src → BitVec 24 → Instr) : Dec Instr :=
  return k (← f3d x) (← f3a x) (imm24 x)

/-- The FI space (R69). -/
def decFI (x : Nat) : Dec Instr :=
  let h := decHdr x
  match fld x 52 44 with
  | 0x001 => do unused x [(43, 24)]; return .bra h (imm24 x)
  | 0x002 => do unused x [(33, 24)]; return .call h (← f3d x) (imm24 x)
  | 0x003 => do unused x [(43, 24)]; return .nap h (imm24 x)
  | 0x010 => do unused x [(33, 24)]; return .movi h (← f3d x) (imm24 x)
  | 0x011 => fidai x (.movhi h)
  | 0x012 => fidai x (.iminImm h)
  | 0x013 => fidai x (.imaxImm h)
  | 0x020 => fidai x (.iaddImm h)
  | 0x022 => fidai x (.imulImm h)
  | 0x028 => fidai x (.andImm h)
  | 0x029 => fidai x (.orImm h)
  | 0x02A => fidai x (.xorImm h)
  | 0x030 => fidai x (.shlImm h)
  | 0x031 => fidai x (.shrImm h)
  | 0x032 => fidai x (.sarImm h)
  | 0x033 => fidai x (.rotlImm h)
  | 0x034 => fidai x (.bfxImm h)
  | 0x080 => fidai x (.faddImm h)
  | 0x082 => fidai x (.fmulImm h)
  | _ => .error .unassigned

/-! ### FE words -/

/-- The field [39:30] and the field [29:20] of an engine field (R34). -/
def fe1d (x : Nat) : Dec Dst := decDst (fld x 39 30)
def fe1 (x : Nat) : Dec Src := decSrc (fld x 39 30)
def fe2 (x : Nat) : Dec Src := decSrc (fld x 29 20)
def fe3 (x : Nat) : Dec Src := decSrc (fld x 19 10)
def feHint (x : Nat) : Dec Hint := decHint (fld x 19 18)
def feCls (x : Nat) : Dec Cls := decCls (fld x 17 15)
def feWidth (x : Nat) : Dec Width := decWidth (fld x 14 12)

/-- The FE space (R71). -/
def decFE (x : Nat) : Dec Instr :=
  let h := decHdr x
  match fld x 52 44 with
  | 0x100 => do
    noGranule x; unused x [(11, 11)]
    return .ld h (← fe1d x) (← fe2 x) (← feHint x) (← feCls x) (← feWidth x) (← decTag (fld x 10 7))
      (decPred (fld x 6 4)) (BitVec.ofNat 4 (fld x 3 0))
  | 0x101 => do
    noGranule x; unused x [(11, 11)]
    return .st h (← fe1 x) (← fe2 x) (← feHint x) (← feCls x) (← feWidth x) (BitVec.ofNat 11 (fld x 10 0))
  | 0x102 => do
    noGranule x; unused x [(11, 11)]
    return .ldw h (← fe1d x) (← fe2 x) (← feHint x) (← feCls x) (← feWidth x) (← decTag (fld x 10 7))
      (decPred (fld x 6 4)) (BitVec.ofNat 4 (fld x 3 0))
  | 0x103 => do
    noGranule x; unused x [(39, 30), (17, 11), (8, 7)]
    return .pref h (← fe2 x) (← feHint x) (← decLvl (fld x 10 9)) (BitVec.ofNat 7 (fld x 6 0))
  | 0x104 => do noGranule x; unused x [(19, 0)]; return .discard h (← fe1 x) (← fe2 x)
  | 0x105 => do
    noGranule x; unused x [(19, 7), (3, 0)]
    return .pin h (← fe1 x) (← fe2 x) (decPred (fld x 6 4))
  | 0x106 => do noGranule x; unused x [(19, 0)]; return .unpin h (← fe1 x) (← fe2 x)
  | 0x108 => do
    noGranule x; unused x [(19, 15), (11, 11)]
    return .lds h (← fe1d x) (← fe2 x) (← feWidth x) (← decTag (fld x 10 7)) (BitVec.ofNat 7 (fld x 6 0))
  | 0x109 => do
    noGranule x; unused x [(19, 15), (11, 7)]
    return .sts h (← fe1 x) (← fe2 x) (← feWidth x) (BitVec.ofNat 7 (fld x 6 0))
  | 0x10A => do
    noGranule x; unused x [(19, 15), (11, 11)]
    if fld x 14 12 = 3 then
      return .ldst h (← fe1d x) (← fe2 x) (← decTag (fld x 10 7)) (BitVec.ofNat 7 (fld x 6 0))
    else .error .modifier
  | 0x10B => do
    noGranule x; unused x [(6, 0)]
    return .give h (← fe1 x) (← fe2 x) (← fe3 x) (decPred (fld x 9 7))
  | 0x110 => do
    noGranule x; unused x [(19, 18), (6, 0)]
    return .atom h (← fe1 x) (← fe2 x) (← feCls x) (← feWidth x) (bitAt x 11) (← decAtom (fld x 10 8)) (bitAt x 7)
  | 0x111 => do
    noGranule x; unused x [(19, 18), (11, 11), (0, 0)]
    return .atomcas h (← fe1 x) (← fe2 x) (← decSrc (fld x 10 1)) (← feCls x) (← feWidth x)
  | 0x112 => do
    noGranule x; unused x [(19, 18), (6, 0)]
    return .red h (← fe1 x) (← fe2 x) (← feCls x) (← feWidth x) (bitAt x 11) (← decAtom (fld x 10 8)) (bitAt x 7)
  | 0x113 => do
    noGranule x; unused x [(19, 11), (5, 0)]
    return .join h (← fe1d x) (← fe2 x) (← decGrp (fld x 10 9)) ⟨bitAt x 8, bitAt x 7, bitAt x 6⟩
  | 0x118 => do
    noGranule x
    return .pagein h (← fe1 x) (← fe2 x) (BitVec.ofNat 20 (fld x 19 0))
  | 0x120 => do
    unused x [(29, 13), (11, 0)]
    return .cpy h (Fin.ofNat 16 (fld x 43 40)) (← fe1 x) (bitAt x 12)
  | 0x121 => do
    unused x [(19, 14), (11, 0)]
    return .cpyg h (Fin.ofNat 16 (fld x 43 40)) (← fe1 x) (← fe2 x) (bitAt x 13) (bitAt x 12)
  | 0x122 => do
    unused x [(19, 14), (6, 0)]
    return .cpys h (Fin.ofNat 16 (fld x 43 40)) (← fe1 x) (← fe2 x) (bitAt x 13) (bitAt x 12) (bitAt x 11) (bitAt x 10)
      (← decAddTy (fld x 9 7))
  | 0x123 => do
    unused x [(15, 0)]
    return .coll h (Fin.ofNat 16 (fld x 43 40)) (← fe1 x) (← fe2 x) (← decColl (fld x 19 16))
  | 0x130 =>
    if fld x 43 40 ≤ 2 then do
      unused x [(6, 0)]
      return .mma h (Fin.ofNat 3 (fld x 43 40)) (Fin.ofNat 16 (fld x 39 36)) (Fin.ofNat 64 (fld x 35 30))
        (Fin.ofNat 64 (fld x 29 24)) (← decMFmt (fld x 23 21)) (← decMFmt (fld x 20 18)) (bitAt x 17)
        (BitVec.ofNat 4 (fld x 16 13)) (bitAt x 12) (Fin.ofNat 32 (fld x 11 7))
    else .error .granule
  | 0x140 => do
    noGranule x; unused x [(29, 10), (6, 0)]
    return .launch h (← fe1 x) (decPred (fld x 9 7))
  | _ => .error .unassigned

/-! ### FP words -/

/-- One half of an FP word (R35, R72), as a number of 29 bits. -/
def decHalf (y : Nat) : Dec Half :=
  let d : Fin 256 := Fin.ofNat 256 (fld y 21 14)
  let s : Fin 256 := Fin.ofNat 256 (fld y 13 6)
  match fld y 28 22 with
  | 0x00 => do unused y [(21, 0)]; return .nop
  | 0x01 => do unused y [(5, 0)]; return .mov d s
  | 0x02 => do unused y [(13, 6)]; return .movi d (BitVec.ofNat 6 (fld y 5 0))
  | 0x03 => do unused y [(5, 0)]; return .iadd d s
  | 0x04 => do unused y [(5, 0)]; return .isub d s
  | 0x05 => do unused y [(5, 0)]; return .imin d s
  | 0x06 => do unused y [(5, 0)]; return .imax d s
  | 0x07 => do unused y [(5, 0)]; return .and d s
  | 0x08 => do unused y [(5, 0)]; return .or d s
  | 0x09 => do unused y [(5, 0)]; return .xor d s
  | 0x0A => do unused y [(5, 0)]; return .not d s
  | 0x0B => do unused y [(5, 0)]; return .ineg d s
  | 0x0C => do unused y [(5, 5)]; return .shl d s (Fin.ofNat 32 (fld y 4 0))
  | 0x0D => do unused y [(5, 5)]; return .shr d s (Fin.ofNat 32 (fld y 4 0))
  | 0x0E => do unused y [(5, 5)]; return .sar d s (Fin.ofNat 32 (fld y 4 0))
  | 0x0F => do unused y [(5, 3)]; return .fadd d s (← decRnd (fld y 1 0)) (bitAt y 2)
  | 0x10 => do unused y [(5, 3)]; return .fmul d s (← decRnd (fld y 1 0)) (bitAt y 2)
  | 0x11 => do unused y [(5, 0)]; return .fmin d s
  | 0x12 => do unused y [(5, 0)]; return .fmax d s
  | 0x13 => do unused y [(5, 4)]; return .retag d s (← decTag (fld y 3 0))
  | _ => .error .unassigned

/-- An FP word (R35). -/
def decFP (x : Nat) : Dec Instr :=
  return .pairedWord ⟨bitAt x 63, Fin.ofNat 8 (fld x 60 58)⟩ (← decHalf (fld x 57 29)) (← decHalf (fld x 28 0))

/-- A form that its operand checks refuse is no instruction (R57). -/
def checked (r : Dec Instr) : Dec Instr :=
  match r with
  | .ok i => if i.wf then .ok i else .error .operand
  | .error e => .error e

/-- The decoder of Quatin words (R28, R57). -/
def decodeQuatin (w : Dword) : Dec Instr :=
  let x := w.toNat
  checked <|
    match fld x 62 61 with
    | 0 => decF3 x
    | 1 => decFI x
    | 2 => decFP x
    | _ => decFE x

/-! ### Creven words (R375 to R397) -/

def decCTy (n : Nat) : CTy :=
  match n with
  | 0 => .i32 | 1 => .i64 | 2 => .f32 | 3 => .f64 | 4 => .f16 | 5 => .bf16 | 6 => .i16 | _ => .i8

def CTy.code : CTy → Nat
  | .i32 => 0 | .i64 => 1 | .f32 => 2 | .f64 => 3 | .f16 => 4 | .bf16 => 5 | .i16 => 6 | .i8 => 7

def decCWidth (n : Nat) : CWidth :=
  match n with
  | 0 => .b8 | 1 => .b16 | 2 => .b32 | _ => .b64

def CWidth.code : CWidth → Nat
  | .b8 => 0 | .b16 => 1 | .b32 => 2 | .b64 => 3

/-- The class of LDG (R381). -/
def decLdCls (n : Nat) : Dec Cls :=
  match n with
  | 0 => .ok .rlx | 1 => .ok .ord | 2 => .ok .acq | _ => .error .modifier

/-- The class of STG (R381). -/
def decStCls (n : Nat) : Dec Cls :=
  match n with
  | 0 => .ok .rlx | 1 => .ok .ord | 2 => .ok .rel | _ => .error .modifier

/-- The class of AMO (R384). -/
def decAmoCls (n : Nat) : Cls :=
  match n with
  | 0 => .rlx | 1 => .acq | 2 => .rel | _ => .ar

def decAmoOp (n : Nat) : AmoOp :=
  match n with
  | 0 => .add | 1 => .min | 2 => .max | 3 => .and | 4 => .or | 5 => .xor | 6 => .exch | _ => .cas

def AmoOp.code : AmoOp → Nat
  | .add => 0 | .min => 1 | .max => 2 | .and => 3 | .or => 4 | .xor => 5 | .exch => 6 | .cas => 7

def cd (x : Nat) : CReg := Fin.ofNat 32 (fld x 25 21)
def ca (x : Nat) : CReg := Fin.ofNat 32 (fld x 20 16)
def cb (x : Nat) : CReg := Fin.ofNat 32 (fld x 15 11)
def ck (x : Nat) : KReg := Fin.ofNat 8 (fld x 10 8)
def cty (x : Nat) : CTy := decCTy (fld x 7 5)

/-- The Creven opcodes (R376). -/
def decC (x : Nat) : Dec Instr :=
  match fld x 31 26 with
  | 0x01 => do
    unused x [(10, 4)]
    match fld x 3 0 with
    | 0 => return .add (cd x) (ca x) (cb x)
    | 1 => return .sub (cd x) (ca x) (cb x)
    | 2 => return .mul (cd x) (ca x) (cb x)
    | 3 => return .crevenAnd (cd x) (ca x) (cb x)
    | 4 => return .crevenOr (cd x) (ca x) (cb x)
    | 5 => return .crevenXor (cd x) (ca x) (cb x)
    | 6 => return .crevenShl (cd x) (ca x) (cb x)
    | 7 => return .crevenShr (cd x) (ca x) (cb x)
    | 8 => return .crevenSar (cd x) (ca x) (cb x)
    | 9 => return .slt (cd x) (ca x) (cb x)
    | 10 => return .sltu (cd x) (ca x) (cb x)
    | _ => .error .modifier
  | 0x02 => return .addi (cd x) (ca x) (BitVec.ofNat 16 (fld x 15 0))
  | 0x03 => do
    unused x [(15, 8)]
    match fld x 7 6 with
    | 0 => return .shli (cd x) (ca x) (Fin.ofNat 64 (fld x 5 0))
    | 1 => return .shri (cd x) (ca x) (Fin.ofNat 64 (fld x 5 0))
    | 2 => return .sari (cd x) (ca x) (Fin.ofNat 64 (fld x 5 0))
    | _ => .error .modifier
  | 0x04 => return .ori (cd x) (ca x) (BitVec.ofNat 16 (fld x 15 0))
  | 0x05 => do unused x [(20, 16)]; return .lui (cd x) (BitVec.ofNat 16 (fld x 15 0))
  | 0x06 =>
    return .ldg (cd x) (ca x) (decCWidth (fld x 15 14)) (← decLdCls (fld x 13 12)) (BitVec.ofNat 12 (fld x 11 0))
  | 0x07 =>
    return .stg (cd x) (ca x) (decCWidth (fld x 15 14)) (← decStCls (fld x 13 12)) (BitVec.ofNat 12 (fld x 11 0))
  | 0x08 => do
    unused x [(13, 12)]
    return .ldl (cd x) (ca x) (decCWidth (fld x 15 14)) (BitVec.ofNat 12 (fld x 11 0))
  | 0x09 => do
    unused x [(13, 12)]
    return .stl (cd x) (ca x) (decCWidth (fld x 15 14)) (BitVec.ofNat 12 (fld x 11 0))
  | 0x0A => do
    unused x [(10, 7)]
    return .amo (cd x) (ca x) (cb x) (decAmoOp (fld x 2 0)) (bitAt x 3) (decAmoCls (fld x 5 4)) (bitAt x 6)
  | 0x0B => do unused x [(25, 21), (10, 0)]; return .swadd (ca x) (cb x)
  | 0x0C => do unused x [(25, 21), (10, 0)]; return .swwait (ca x) (cb x)
  | 0x0D =>
    if bitAt x 0 then do unused x [(20, 1)]; return .crevenFenceSys (cd x)
    else do unused x [(25, 1)]; return .crevenFence
  | 0x0E => return .beq (cd x) (ca x) (BitVec.ofNat 16 (fld x 15 0))
  | 0x0F => return .bne (cd x) (ca x) (BitVec.ofNat 16 (fld x 15 0))
  | 0x10 => return .blt (cd x) (ca x) (BitVec.ofNat 16 (fld x 15 0))
  | 0x11 => return .bge (cd x) (ca x) (BitVec.ofNat 16 (fld x 15 0))
  | 0x12 => return .jal (cd x) (BitVec.ofNat 21 (fld x 20 0))
  | 0x13 => do unused x [(15, 0)]; return .jalr (cd x) (ca x)
  | 0x14 => do unused x [(25, 0)]; return .halt
  | 0x15 => do unused x [(20, 8)]; return .rds (cd x) (BitVec.ofNat 8 (fld x 7 0))
  | 0x16 => do unused x [(25, 21), (15, 8)]; return .wrs (ca x) (BitVec.ofNat 8 (fld x 7 0))
  | 0x17 => do unused x [(20, 12)]; return .svr (cd x) (BitVec.ofNat 12 (fld x 11 0))
  | 0x18 => do unused x [(25, 21), (15, 12)]; return .svw (ca x) (BitVec.ofNat 12 (fld x 11 0))
  | 0x19 => do unused x [(5, 0)]; return .psend (cd x) (ca x) (cb x) (Fin.ofNat 32 (fld x 10 6))
  | 0x1A => do unused x [(10, 0)]; return .precv (cd x) (ca x) (cb x)
  | 0x20 =>
    return .vld (cd x) (ca x) (bitAt x 15) (bitAt x 14) (decCTy (fld x 13 11)) (ck x) (BitVec.ofNat 8 (fld x 7 0))
  | 0x21 =>
    return .vst (cd x) (ca x) (bitAt x 15) (bitAt x 14) (decCTy (fld x 13 11)) (ck x) (BitVec.ofNat 8 (fld x 7 0))
  | 0x22 => do unused x [(3, 0)]; return .vgath (cd x) (ca x) (cb x) (ck x) (cty x) (bitAt x 4)
  | 0x23 => do
    unused x [(3, 3), (1, 0)]
    return .vscat (cd x) (ca x) (cb x) (ck x) (cty x) (bitAt x 4) (bitAt x 2)
  | 0x24 =>
    match fld x 4 0 with
    | 0 => return .vadd (cd x) (ca x) (cb x) (ck x) (cty x)
    | 1 => return .vsub (cd x) (ca x) (cb x) (ck x) (cty x)
    | 2 => return .vmul (cd x) (ca x) (cb x) (ck x) (cty x)
    | 3 => return .vmin (cd x) (ca x) (cb x) (ck x) (cty x)
    | 4 => return .vmax (cd x) (ca x) (cb x) (ck x) (cty x)
    | 5 => return .vfma (cd x) (ca x) (cb x) (ck x) (cty x)
    | 6 => return .vand (cd x) (ca x) (cb x) (ck x) (cty x)
    | 7 => return .vor (cd x) (ca x) (cb x) (ck x) (cty x)
    | 8 => return .vxor (cd x) (ca x) (cb x) (ck x) (cty x)
    | _ => .error .modifier
  | 0x25 => do
    unused x [(25, 24), (4, 4)]
    return .vcmp (Fin.ofNat 8 (fld x 23 21)) (ca x) (cb x) (ck x) (cty x) (← decICond (fld x 3 0))
  | 0x26 => do
    unused x [(15, 15), (4, 0)]
    return .vcvt (cd x) (ca x) (ck x) (cty x) (decCTy (fld x 13 11)) (bitAt x 14)
  | 0x27 => do unused x [(15, 11), (4, 0)]; return .vsplat (cd x) (ca x) (ck x) (cty x)
  | 0x28 => do unused x [(10, 8), (4, 0)]; return .vextr (cd x) (ca x) (cb x) (cty x)
  | 0x29 =>
    if bitAt x 0 then do unused x [(20, 19), (15, 1)]; return .kget (cd x) (Fin.ofNat 8 (fld x 18 16))
    else do unused x [(25, 24), (15, 1)]; return .kset (Fin.ofNat 8 (fld x 23 21)) (ca x)
  | _ => .error .unassigned

/-- The decoder of Creven words (R375, R376). -/
def decodeCreven (w : Word) : Dec Instr := checked (decC w.toNat)

/-! ### The encoders -/

def Src.code : Src → Nat
  | .v n => n.val
  | .w n => 640 + n.val
  | .k c => 1008 + konstCode c

def Dst.code : Dst → Nat
  | .v n => n.val
  | .w n => 640 + n.val
  | .discard => 1008

def Elem.code : Elem → Nat
  | .i32 => 0 | .i16x2 => 1 | .i8x4 => 2
def ICond.code : ICond → Nat
  | .eq => 0 | .ne => 1 | .lt => 2 | .le => 3 | .gt => 4 | .ge => 5
def FCond.code : FCond → Nat
  | .eq => 0 | .ne => 1 | .lt => 2 | .le => 3 | .gt => 4 | .ge => 5 | .num => 6 | .nan => 7
def Rnd.code : Rnd → Nat
  | .rn => 0 | .rz => 1 | .ru => 2 | .rd => 3
def VFmt.code : VFmt → Nat
  | .f32 => 0 | .f16x2 => 1 | .bf16x2 => 2 | .f64 => 3
def CFmt.code : CFmt → Nat
  | .i32 => 1 | .f32 => 2 | .f16x2 => 3 | .bf16x2 => 4 | .e4m3x4 => 5 | .e5m2x4 => 6 | .e2m1x8 => 7 | .e8m0x4 => 8
  | .f64 => 9 | .i8x4 => 11 | .i16x2 => 12
def Width.code : Width → Nat
  | .b8 => 0 | .b16 => 1 | .b32 => 2 | .b64 => 3 | .b128 => 4
def Cls.code : Cls → Nat
  | .rlx => 0 | .ord => 1 | .acq => 2 | .rel => 3 | .ar => 4
def Hint.code : Hint → Nat
  | .none => 0 | .hold => 1 | .stream => 2
def MFmt.code : MFmt → Nat
  | .e2m1 => 0 | .e4m3 => 1 | .e5m2 => 2 | .int8 => 3 | .bf16 => 4 | .fp16 => 5 | .fp32 => 6
def AtomOp.code : AtomOp → Nat
  | .add => 0 | .min => 1 | .max => 2 | .and => 3 | .or => 4 | .xor => 5 | .exch => 6
def AddTy.code : AddTy → Nat
  | .u32 => 0 | .u64 => 1 | .f32 => 2 | .f16x2 => 3 | .bf16x2 => 4
def CollOp.code : CollOp → Nat
  | .allreduce => 0 | .redscat => 1 | .allgather => 2 | .gather => 3 | .scatadd => 4
def GrpCls.code : GrpCls → Nat
  | .core => 0 | .die => 1 | .wide => 2
def EngCls.code : EngCls → Nat
  | .copy => 0 | .matrix => 1 | .coll => 2
def SpecReg.code : SpecReg → Nat
  | .tid => 0 | .ntid => 1 | .lane => 2 | .warp => 3 | .width => 4 | .core => 5 | .die => 6 | .stack => 7 | .cycles => 8
  | .ticks => 9 | .rack => 10 | .seed => 11 | .fault => 12 | .rerr => 13 | .sbcheck => 14 | .asid => 15 | .gen => 16
  | .part => 17
def VoteMode.code : VoteMode → Nat
  | .ballot => 0 | .any => 1 | .all => 2 | .eq => 3
def ShflMode.code : ShflMode → Nat
  | .idx => 0 | .up => 1 | .down => 2 | .xor => 3
def MovW.code : MovW → Nat
  | .b32 => 0 | .b64 => 1 | .b128 => 2
def PackMode.code : PackMode → Nat
  | .lo => 0 | .hi => 1 | .lohi => 2
def UnpackMode.code : UnpackMode → Nat
  | .lo => 0 | .hi => 1 | .swap => 2
def ScaleMode.code : ScaleMode → Nat
  | .i => 0 | .mul => 1 | .div => 2
def BlkTarget.code : BlkTarget → Nat
  | .e4m3 => 0 | .e5m2 => 1 | .e2m1 => 2
def PhaseSel.code : PhaseSel → Nat
  | .c => 0 | .m => 1 | .w => 2
def ResMode.code : ResMode → Nat
  | .off => 0 | .count => 1 | .rerun => 2
def PrefLvl.code : PrefLvl → Nat
  | .l1 => 0 | .die => 1 | .stack => 2

/-- The issue fields of F3, FI and FE words (R31). -/
def encHdr (h : Hdr) : Nat := b2n h.last * 2 ^ 63 + h.stall.val * 2 ^ 57 + b2n h.neg * 2 ^ 56 + h.pred.val * 2 ^ 53

/-- An F3 word (R31). -/
def encF3 (h : Hdr) (op d a b m : Nat) : Nat := encHdr h + op * 2 ^ 44 + d * 2 ^ 34 + a * 2 ^ 24 + b * 2 ^ 14 + m

/-- A four-operand F3 word (R32). -/
def encF3c (h : Hdr) (op d a b c m : Nat) : Nat := encF3 h op d a b (c * 2 ^ 4 + m)

/-- An FI word (R33). -/
def encFI (h : Hdr) (op d a imm : Nat) : Nat := encHdr h + 2 ^ 61 + op * 2 ^ 44 + d * 2 ^ 34 + a * 2 ^ 24 + imm

/-- An FE word: granule, the fields [39:30] and [29:20], and the rest (R34). -/
def encFE (h : Hdr) (op g r1 r2 rest : Nat) : Nat :=
  encHdr h + 3 * 2 ^ 61 + op * 2 ^ 44 + g * 2 ^ 40 + r1 * 2 ^ 30 + r2 * 2 ^ 20 + rest

/-- Rounding, ftz and sat (R76). -/
def encFp (r : Rnd) (ftz sat : Bool) : Nat := r.code + b2n ftz * 2 ^ 3 + b2n sat * 2 ^ 4

/-- Hint, class and width of an FE word (R77). -/
def encAcc (hint : Hint) (c : Cls) (w : Width) : Nat := hint.code * 2 ^ 18 + c.code * 2 ^ 15 + w.code * 2 ^ 12

/-- A half of an FP word (R35, R72). -/
def encHalfF (op d s k : Nat) : Nat := op * 2 ^ 22 + d * 2 ^ 14 + s * 2 ^ 6 + k

/-- A half (R72). -/
def encHalf : Half → Nat
  | .nop => 0
  | .mov d s => encHalfF 0x01 d s 0
  | .movi d k => encHalfF 0x02 d 0 k.toNat
  | .iadd d s => encHalfF 0x03 d s 0
  | .isub d s => encHalfF 0x04 d s 0
  | .imin d s => encHalfF 0x05 d s 0
  | .imax d s => encHalfF 0x06 d s 0
  | .and d s => encHalfF 0x07 d s 0
  | .or d s => encHalfF 0x08 d s 0
  | .xor d s => encHalfF 0x09 d s 0
  | .not d s => encHalfF 0x0A d s 0
  | .ineg d s => encHalfF 0x0B d s 0
  | .shl d s n => encHalfF 0x0C d s n
  | .shr d s n => encHalfF 0x0D d s n
  | .sar d s n => encHalfF 0x0E d s n
  | .fadd d s r z => encHalfF 0x0F d s (r.code + b2n z * 2 ^ 2)
  | .fmul d s r z => encHalfF 0x10 d s (r.code + b2n z * 2 ^ 2)
  | .fmin d s => encHalfF 0x11 d s 0
  | .fmax d s => encHalfF 0x12 d s 0
  | .retag d s t => encHalfF 0x13 d s t.code

/-- A Creven R word (R375). -/
def encR (op d a b k f : Nat) : Nat := op * 2 ^ 26 + d * 2 ^ 21 + a * 2 ^ 16 + b * 2 ^ 11 + k * 2 ^ 8 + f
/-- A Creven I or B word (R375). -/
def encI (op d a imm : Nat) : Nat := op * 2 ^ 26 + d * 2 ^ 21 + a * 2 ^ 16 + imm

/-- The code of a class in LDG (R381), and in STG and AMO. -/
def ldClsCode : Cls → Nat
  | .rlx => 0 | .ord => 1 | .acq => 2 | .rel => 0 | .ar => 0
def stClsCode : Cls → Nat
  | .rlx => 0 | .ord => 1 | .rel => 2 | .acq => 0 | .ar => 0
def amoClsCode : Cls → Nat
  | .rlx => 0 | .acq => 1 | .rel => 2 | .ar => 3 | .ord => 0

/-- The word of an instruction as a number: 64 bits of a Quatin word, 32 of a Creven word; nothing for an event. -/
def encode : Instr → Option Nat
  | .brx h a => some (encF3 h 0x001 0 a.code 0 0)
  | .callx h d a => some (encF3 h 0x002 d.code a.code 0 0)
  | .ret h a => some (encF3 h 0x003 0 a.code 0 0)
  | .exit h => some (encF3 h 0x004 0 0 0 0)
  | .yield h => some (encF3 h 0x005 0 0 0 0)
  | .reorder h a b c desc => some (encF3c h 0x006 0 a.code b.code c.code (b2n desc))
  | .mov h d a w => some (encF3 h 0x010 d.code a.code 0 (w.code * 2 ^ 5))
  | .sel h d a b p neg => some (encF3 h 0x011 d.code a.code b.code (p.val * 2 ^ 11 + b2n neg * 2 ^ 10))
  | .imin h d a b e u => some (encF3 h 0x012 d.code a.code b.code (e.code * 2 ^ 6 + b2n u * 2 ^ 5))
  | .imax h d a b e u => some (encF3 h 0x013 d.code a.code b.code (e.code * 2 ^ 6 + b2n u * 2 ^ 5))
  | .iabs h d a e => some (encF3 h 0x014 d.code a.code 0 (e.code * 2 ^ 6))
  | .ineg h d a e => some (encF3 h 0x015 d.code a.code 0 (e.code * 2 ^ 6))
  | .iadd h d a b e u s => some (encF3 h 0x020 d.code a.code b.code (e.code * 2 ^ 6 + b2n u * 2 ^ 5 + b2n s * 2 ^ 4))
  | .isub h d a b e u s => some (encF3 h 0x021 d.code a.code b.code (e.code * 2 ^ 6 + b2n u * 2 ^ 5 + b2n s * 2 ^ 4))
  | .imul h d a b => some (encF3 h 0x022 d.code a.code b.code 0)
  | .imulh h d a b u => some (encF3 h 0x023 d.code a.code b.code (b2n u * 2 ^ 5))
  | .imad h d a b c => some (encF3c h 0x024 d.code a.code b.code c.code 0)
  | .imadw h d a b c u => some (encF3c h 0x025 d.code a.code b.code c.code (b2n u))
  | .iadd64 h d a b u s => some (encF3 h 0x026 d.code a.code b.code (b2n u * 2 ^ 5 + b2n s * 2 ^ 4))
  | .and h d a b => some (encF3 h 0x028 d.code a.code b.code 0)
  | .or h d a b => some (encF3 h 0x029 d.code a.code b.code 0)
  | .xor h d a b => some (encF3 h 0x02A d.code a.code b.code 0)
  | .andn h d a b => some (encF3 h 0x02B d.code a.code b.code 0)
  | .not h d a => some (encF3 h 0x02C d.code a.code 0 0)
  | .shl h d a b => some (encF3 h 0x030 d.code a.code b.code 0)
  | .shr h d a b => some (encF3 h 0x031 d.code a.code b.code 0)
  | .sar h d a b => some (encF3 h 0x032 d.code a.code b.code 0)
  | .rotl h d a b => some (encF3 h 0x033 d.code a.code b.code 0)
  | .bfx h d a b s => some (encF3 h 0x034 d.code a.code b.code (b2n s * 2 ^ 5))
  | .bfi h d a b c => some (encF3c h 0x035 d.code a.code b.code c.code 0)
  | .popc h d a => some (encF3 h 0x036 d.code a.code 0 0)
  | .clz h d a => some (encF3 h 0x037 d.code a.code 0 0)
  | .brev h d a => some (encF3 h 0x038 d.code a.code 0 0)
  | .icmp h pd a b u c => some (encF3 h 0x040 0 a.code b.code (pd.val * 2 ^ 9 + b2n u * 2 ^ 8 + c.code * 2 ^ 5))
  | .pand h pd p q => some (encF3 h 0x041 0 0 0 (pd.val * 2 ^ 11 + p.val * 2 ^ 8 + q.val * 2 ^ 5))
  | .por h pd p q => some (encF3 h 0x042 0 0 0 (pd.val * 2 ^ 11 + p.val * 2 ^ 8 + q.val * 2 ^ 5))
  | .pxor h pd p q => some (encF3 h 0x043 0 0 0 (pd.val * 2 ^ 11 + p.val * 2 ^ 8 + q.val * 2 ^ 5))
  | .pnot h pd p => some (encF3 h 0x044 0 0 0 (pd.val * 2 ^ 11 + p.val * 2 ^ 8))
  | .vote h d p m => some (encF3 h 0x048 d.code 0 0 (p.val * 2 ^ 11 + m.code * 2 ^ 5))
  | .shfl h d a b seg m => some (encF3 h 0x049 d.code a.code b.code (seg.val * 2 ^ 7 + m.code * 2 ^ 5))
  | .bcast h d a b => some (encF3 h 0x04A d.code a.code b.code 0)
  | .lea h d a b u sh => some (encF3 h 0x04B d.code a.code b.code (b2n u * 2 ^ 8 + sh.val * 2 ^ 5))
  | .rdspec h d r => some (encF3 h 0x050 d.code 0 0 (r.code * 2 ^ 8))
  | .wrspec h r a => some (encF3 h 0x051 0 a.code 0 (r.code * 2 ^ 8))
  | .fadd h d a b r z s => some (encF3 h 0x080 d.code a.code b.code (encFp r z s))
  | .fsub h d a b r z s => some (encF3 h 0x081 d.code a.code b.code (encFp r z s))
  | .fmul h d a b r z s => some (encF3 h 0x082 d.code a.code b.code (encFp r z s))
  | .ffma h d a b c r z => some (encF3c h 0x083 d.code a.code b.code c.code (r.code + b2n z * 2 ^ 3))
  | .fmin h d a b f z => some (encF3 h 0x084 d.code a.code b.code (f.code * 2 ^ 5 + b2n z * 2 ^ 3))
  | .fmax h d a b f z => some (encF3 h 0x085 d.code a.code b.code (f.code * 2 ^ 5 + b2n z * 2 ^ 3))
  | .fcmp h pd a b f c z =>
    some (encF3 h 0x086 0 a.code b.code (b2n f * 2 ^ 12 + pd.val * 2 ^ 9 + c.code * 2 ^ 5 + b2n z * 2 ^ 3))
  | .frcp h d a r z => some (encF3 h 0x088 d.code a.code 0 (r.code + b2n z * 2 ^ 3))
  | .frsq h d a z => some (encF3 h 0x089 d.code a.code 0 (b2n z * 2 ^ 3))
  | .fsqrt h d a r z => some (encF3 h 0x08A d.code a.code 0 (r.code + b2n z * 2 ^ 3))
  | .fexp2 h d a z => some (encF3 h 0x08B d.code a.code 0 (b2n z * 2 ^ 3))
  | .flog2 h d a z => some (encF3 h 0x08C d.code a.code 0 (b2n z * 2 ^ 3))
  | .fsin h d a z => some (encF3 h 0x08D d.code a.code 0 (b2n z * 2 ^ 3))
  | .fcos h d a z => some (encF3 h 0x08E d.code a.code 0 (b2n z * 2 ^ 3))
  | .hadd2 h d a b r z s => some (encF3 h 0x090 d.code a.code b.code (encFp r z s))
  | .hmul2 h d a b r z s => some (encF3 h 0x091 d.code a.code b.code (encFp r z s))
  | .hfma2 h d a b c r z => some (encF3c h 0x092 d.code a.code b.code c.code (r.code + b2n z * 2 ^ 3))
  | .dadd h d a b r z => some (encF3 h 0x098 d.code a.code b.code (r.code + b2n z * 2 ^ 3))
  | .dmul h d a b r z => some (encF3 h 0x099 d.code a.code b.code (r.code + b2n z * 2 ^ 3))
  | .dfma h d a b c r z => some (encF3c h 0x09A d.code a.code b.code c.code (r.code + b2n z * 2 ^ 3))
  | .cvt h d a df sf u r z s =>
    some (encF3 h 0x0A0 d.code a.code 0 (b2n u * 2 ^ 13 + df.code * 2 ^ 9 + sf.code * 2 ^ 5 + encFp r z s))
  | .cvts h d a df sf u z s =>
    some (encF3 h 0x0A1 d.code a.code 0
      (b2n u * 2 ^ 13 + df.code * 2 ^ 9 + sf.code * 2 ^ 5 + 4 + b2n z * 2 ^ 3 + b2n s * 2 ^ 4))
  | .pack h d a b m => some (encF3 h 0x0A2 d.code a.code b.code (m.code * 2 ^ 5))
  | .unpack h d a m => some (encF3 h 0x0A3 d.code a.code 0 (m.code * 2 ^ 5))
  | .retag h d a t => some (encF3 h 0x0A4 d.code a.code 0 (t.code * 2 ^ 5))
  | .scale h d a b m f r z =>
    some (encF3 h 0x0A5 d.code a.code b.code (m.code * 2 ^ 7 + f.code * 2 ^ 5 + r.code + b2n z * 2 ^ 3))
  | .blkscale h d a t => some (encF3 h 0x0A6 d.code a.code 0 (t.code * 2 ^ 5))
  | .quant h d a b m => some (encF3 h 0x0A7 d.code a.code b.code (b2n m * 2 ^ 5))
  | .phase h p => some (encF3 h 0x0C0 0 0 0 (p.code * 2 ^ 5))
  | .rdrack h d => some (encF3 h 0x0C1 d.code 0 0 0)
  | .shmap h d a => some (encF3 h 0x0D0 d.code a.code 0 0)
  | .syncwInit h a b s off => some (encF3 h 0x0D1 0 a.code b.code (b2n s * 2 ^ 13 + off.toNat * 2 ^ 5))
  | .syncwAdd h a b s off => some (encF3 h 0x0D2 0 a.code b.code (b2n s * 2 ^ 13 + off.toNat * 2 ^ 5))
  | .syncwWait h a b s off => some (encF3 h 0x0D3 0 a.code b.code (b2n s * 2 ^ 13 + off.toNat * 2 ^ 5))
  | .mclaim h d slot =>
    match slot with
    | some n => some (encF3 h 0x0E0 d.code 0 0 (2 ^ 13 + n.val * 2 ^ 6))
    | none => some (encF3 h 0x0E0 d.code 0 0 0)
  | .mrel h a => some (encF3 h 0x0E1 0 a.code 0 0)
  | .tclaim h d tile =>
    match tile with
    | some n => some (encF3 h 0x0E2 d.code 0 0 (2 ^ 13 + n.val * 2 ^ 6))
    | none => some (encF3 h 0x0E2 d.code 0 0 0)
  | .trel h a => some (encF3 h 0x0E3 0 a.code 0 0)
  | .mzero h t mask int => some (encF3 h 0x0E4 0 0 0 (t.val * 2 ^ 10 + mask.toNat * 2 ^ 6 + b2n int * 2 ^ 5))
  | .trd h d t a => some (encF3 h 0x0E5 d.code a.code 0 (t.val * 2 ^ 10))
  | .twr h t a b => some (encF3 h 0x0E6 0 a.code b.code (t.val * 2 ^ 10))
  | .mstat h d => some (encF3 h 0x0E7 d.code 0 0 0)
  | .resmode h m => some (encF3 h 0x0E8 0 0 0 (m.code * 2 ^ 5))
  | .probe h d a walk => some (encF3 h 0x0F0 d.code a.code 0 (b2n walk * 2 ^ 5))
  | .raisegen h a => some (encF3 h 0x0F1 0 a.code 0 0)
  | .fence h => some (encF3 h 0x100 0 0 0 0)
  | .fenceSys h pd => some (encF3 h 0x101 0 0 0 (pd.val * 2 ^ 9))
  | .leave h a => some (encF3 h 0x110 0 a.code 0 0)
  | .gsync h a => some (encF3 h 0x111 0 a.code 0 0)
  | .pinit h a b => some (encF3 h 0x112 0 a.code b.code 0)
  | .pclaim h d a => some (encF3 h 0x113 d.code a.code 0 0)
  | .pfill h a b => some (encF3 h 0x114 0 a.code b.code 0)
  | .ptake h d a => some (encF3 h 0x115 d.code a.code 0 0)
  | .pfree h a b => some (encF3 h 0x116 0 a.code b.code 0)
  | .pquery h d a => some (encF3 h 0x117 d.code a.code 0 0)
  | .waitc h n c pr => some (encF3 h 0x120 0 0 0 (n.val * 2 ^ 8 + c.code * 2 ^ 5 + pr.val * 2 ^ 2))
  | .trap h imm => some (encF3 h 0x1F0 0 0 0 imm.toNat)
  | .brkpt h => some (encF3 h 0x1F1 0 0 0 0)
  | .eret h nx => some (encF3 h 0x1F2 0 0 0 (b2n nx * 2 ^ 5))
  | .bra h imm => some (encFI h 0x001 0 0 imm.toNat)
  | .call h d imm => some (encFI h 0x002 d.code 0 imm.toNat)
  | .nap h imm => some (encFI h 0x003 0 0 imm.toNat)
  | .movi h d imm => some (encFI h 0x010 d.code 0 imm.toNat)
  | .movhi h d a imm => some (encFI h 0x011 d.code a.code imm.toNat)
  | .iminImm h d a imm => some (encFI h 0x012 d.code a.code imm.toNat)
  | .imaxImm h d a imm => some (encFI h 0x013 d.code a.code imm.toNat)
  | .iaddImm h d a imm => some (encFI h 0x020 d.code a.code imm.toNat)
  | .imulImm h d a imm => some (encFI h 0x022 d.code a.code imm.toNat)
  | .andImm h d a imm => some (encFI h 0x028 d.code a.code imm.toNat)
  | .orImm h d a imm => some (encFI h 0x029 d.code a.code imm.toNat)
  | .xorImm h d a imm => some (encFI h 0x02A d.code a.code imm.toNat)
  | .shlImm h d a imm => some (encFI h 0x030 d.code a.code imm.toNat)
  | .shrImm h d a imm => some (encFI h 0x031 d.code a.code imm.toNat)
  | .sarImm h d a imm => some (encFI h 0x032 d.code a.code imm.toNat)
  | .rotlImm h d a imm => some (encFI h 0x033 d.code a.code imm.toNat)
  | .bfxImm h d a imm => some (encFI h 0x034 d.code a.code imm.toNat)
  | .faddImm h d a imm => some (encFI h 0x080 d.code a.code imm.toNat)
  | .fmulImm h d a imm => some (encFI h 0x082 d.code a.code imm.toNat)
  | .pairedWord h x y => some (b2n h.last * 2 ^ 63 + 2 ^ 62 + h.stall.val * 2 ^ 58 + encHalf x * 2 ^ 29 + encHalf y)
  | .ld h d a hint c w t pr off =>
    some (encFE h 0x100 0 d.code a.code (encAcc hint c w + t.code * 2 ^ 7 + pr.val * 2 ^ 4 + off.toNat))
  | .st h d a hint c w off => some (encFE h 0x101 0 d.code a.code (encAcc hint c w + off.toNat))
  | .ldw h d a hint c w t pr off =>
    some (encFE h 0x102 0 d.code a.code (encAcc hint c w + t.code * 2 ^ 7 + pr.val * 2 ^ 4 + off.toNat))
  | .pref h a hint lvl off => some (encFE h 0x103 0 0 a.code (hint.code * 2 ^ 18 + lvl.code * 2 ^ 9 + off.toNat))
  | .discard h b a => some (encFE h 0x104 0 b.code a.code 0)
  | .pin h b a pd => some (encFE h 0x105 0 b.code a.code (pd.val * 2 ^ 4))
  | .unpin h b a => some (encFE h 0x106 0 b.code a.code 0)
  | .lds h d a w t off => some (encFE h 0x108 0 d.code a.code (w.code * 2 ^ 12 + t.code * 2 ^ 7 + off.toNat))
  | .sts h d a w off => some (encFE h 0x109 0 d.code a.code (w.code * 2 ^ 12 + off.toNat))
  | .ldst h d a t off => some (encFE h 0x10A 0 d.code a.code (3 * 2 ^ 12 + t.code * 2 ^ 7 + off.toNat))
  | .give h a b c pd => some (encFE h 0x10B 0 a.code b.code (c.code * 2 ^ 10 + pd.val * 2 ^ 7))
  | .atom h v a c w ra op u =>
    some (encFE h 0x110 0 v.code a.code (encAcc .none c w + b2n ra * 2 ^ 11 + op.code * 2 ^ 8 + b2n u * 2 ^ 7))
  | .atomcas h v a n c w => some (encFE h 0x111 0 v.code a.code (encAcc .none c w + n.code * 2))
  | .red h v a c w ra op u =>
    some (encFE h 0x112 0 v.code a.code (encAcc .none c w + b2n ra * 2 ^ 11 + op.code * 2 ^ 8 + b2n u * 2 ^ 7))
  | .join h d a c r =>
    some (encFE h 0x113 0 d.code a.code
      (c.code * 2 ^ 9 + b2n r.copy * 2 ^ 8 + b2n r.matrix * 2 ^ 7 + b2n r.vector * 2 ^ 6))
  | .pagein h a b off => some (encFE h 0x118 0 a.code b.code off.toNat)
  | .cpy h g a sd => some (encFE h 0x120 g.val a.code 0 (b2n sd * 2 ^ 12))
  | .cpyg h g a b si sd => some (encFE h 0x121 g.val a.code b.code (b2n si * 2 ^ 13 + b2n sd * 2 ^ 12))
  | .cpys h g a b si sd ra ad ty =>
    some (encFE h 0x122 g.val a.code b.code
      (b2n si * 2 ^ 13 + b2n sd * 2 ^ 12 + b2n ra * 2 ^ 11 + b2n ad * 2 ^ 10 + ty.code * 2 ^ 7))
  | .coll h g a b op => some (encFE h 0x123 g.val a.code b.code (op.code * 2 ^ 16))
  | .mma h g t ma mb fa fb sp mask pf pen =>
    some (encHdr h + 3 * 2 ^ 61 + 0x130 * 2 ^ 44 + g.val * 2 ^ 40 + t.val * 2 ^ 36 + ma.val * 2 ^ 30 + mb.val * 2 ^ 24
      + fa.code * 2 ^ 21 + fb.code * 2 ^ 18 + b2n sp * 2 ^ 17 + mask.toNat * 2 ^ 13 + b2n pf * 2 ^ 12 + pen.val * 2 ^ 7)
  | .launch h a pd => some (encFE h 0x140 0 a.code 0 (pd.val * 2 ^ 7))
  | .add d a b => some (encR 0x01 d a b 0 0)
  | .sub d a b => some (encR 0x01 d a b 0 1)
  | .mul d a b => some (encR 0x01 d a b 0 2)
  | .crevenAnd d a b => some (encR 0x01 d a b 0 3)
  | .crevenOr d a b => some (encR 0x01 d a b 0 4)
  | .crevenXor d a b => some (encR 0x01 d a b 0 5)
  | .crevenShl d a b => some (encR 0x01 d a b 0 6)
  | .crevenShr d a b => some (encR 0x01 d a b 0 7)
  | .crevenSar d a b => some (encR 0x01 d a b 0 8)
  | .slt d a b => some (encR 0x01 d a b 0 9)
  | .sltu d a b => some (encR 0x01 d a b 0 10)
  | .addi d a imm => some (encI 0x02 d a imm.toNat)
  | .shli d a n => some (encI 0x03 d a n)
  | .shri d a n => some (encI 0x03 d a (1 * 2 ^ 6 + n))
  | .sari d a n => some (encI 0x03 d a (2 * 2 ^ 6 + n))
  | .ori d a imm => some (encI 0x04 d a imm.toNat)
  | .lui d imm => some (encI 0x05 d 0 imm.toNat)
  | .ldg d a w c off => some (encI 0x06 d a (w.code * 2 ^ 14 + ldClsCode c * 2 ^ 12 + off.toNat))
  | .stg d a w c off => some (encI 0x07 d a (w.code * 2 ^ 14 + stClsCode c * 2 ^ 12 + off.toNat))
  | .ldl d a w off => some (encI 0x08 d a (w.code * 2 ^ 14 + off.toNat))
  | .stl d a w off => some (encI 0x09 d a (w.code * 2 ^ 14 + off.toNat))
  | .amo d a b op wide c u =>
    some (encR 0x0A d a b 0 (op.code + b2n wide * 2 ^ 3 + amoClsCode c * 2 ^ 4 + b2n u * 2 ^ 6))
  | .swadd a b => some (encR 0x0B 0 a b 0 0)
  | .swwait a b => some (encR 0x0C 0 a b 0 0)
  | .crevenFence => some (encR 0x0D 0 0 0 0 0)
  | .crevenFenceSys d => some (encR 0x0D d 0 0 0 1)
  | .beq a b off => some (encI 0x0E a b off.toNat)
  | .bne a b off => some (encI 0x0F a b off.toNat)
  | .blt a b off => some (encI 0x10 a b off.toNat)
  | .bge a b off => some (encI 0x11 a b off.toNat)
  | .jal d off => some (0x12 * 2 ^ 26 + d.val * 2 ^ 21 + off.toNat)
  | .jalr d a => some (encI 0x13 d a 0)
  | .halt => some (encI 0x14 0 0 0)
  | .rds d code => some (encI 0x15 d 0 code.toNat)
  | .wrs a code => some (encI 0x16 0 a code.toNat)
  | .svr d code => some (encI 0x17 d 0 code.toNat)
  | .svw a code => some (encI 0x18 0 a code.toNat)
  | .psend d a b c => some (encI 0x19 d a (b.val * 2 ^ 11 + c.val * 2 ^ 6))
  | .precv d a b => some (encR 0x1A d a b 0 0)
  | .vld d a loft ord ty k off =>
    some (encI 0x20 d a (b2n loft * 2 ^ 15 + b2n ord * 2 ^ 14 + ty.code * 2 ^ 11 + k.val * 2 ^ 8 + off.toNat))
  | .vst d a loft ord ty k off =>
    some (encI 0x21 d a (b2n loft * 2 ^ 15 + b2n ord * 2 ^ 14 + ty.code * 2 ^ 11 + k.val * 2 ^ 8 + off.toNat))
  | .vgath d a b k ty loft => some (encR 0x22 d a b k (ty.code * 2 ^ 5 + b2n loft * 2 ^ 4))
  | .vscat d a b k ty loft ad => some (encR 0x23 d a b k (ty.code * 2 ^ 5 + b2n loft * 2 ^ 4 + b2n ad * 2 ^ 2))
  | .vadd d a b k ty => some (encR 0x24 d a b k (ty.code * 2 ^ 5 + 0))
  | .vsub d a b k ty => some (encR 0x24 d a b k (ty.code * 2 ^ 5 + 1))
  | .vmul d a b k ty => some (encR 0x24 d a b k (ty.code * 2 ^ 5 + 2))
  | .vmin d a b k ty => some (encR 0x24 d a b k (ty.code * 2 ^ 5 + 3))
  | .vmax d a b k ty => some (encR 0x24 d a b k (ty.code * 2 ^ 5 + 4))
  | .vfma d a b k ty => some (encR 0x24 d a b k (ty.code * 2 ^ 5 + 5))
  | .vand d a b k ty => some (encR 0x24 d a b k (ty.code * 2 ^ 5 + 6))
  | .vor d a b k ty => some (encR 0x24 d a b k (ty.code * 2 ^ 5 + 7))
  | .vxor d a b k ty => some (encR 0x24 d a b k (ty.code * 2 ^ 5 + 8))
  | .vcmp d a b k ty c => some (encR 0x25 d.val a b k (ty.code * 2 ^ 5 + c.code))
  | .vcvt d a k dt sty hi => some (encR 0x26 d a (sty.code + b2n hi * 2 ^ 3) k (dt.code * 2 ^ 5))
  | .vsplat d a k ty => some (encR 0x27 d a 0 k (ty.code * 2 ^ 5))
  | .vextr d a idx ty => some (encR 0x28 d a idx 0 (ty.code * 2 ^ 5))
  | .kset d a => some (encR 0x29 d.val a 0 0 0)
  | .kget d a => some (encR 0x29 d a.val 0 0 1)
  | _ => none

/-- The instruction that the decoder reads from a word of the opcode table: its 32-bit rows are Creven words (R375), and
its 64-bit words Quatin words (R26). No Veger instruction is longer than its word. -/
def decodeTableWord (nbits w : Nat) : Option Instr :=
  if nbits ≤ 32 then (decodeCreven (BitVec.ofNat 32 w)).toOption
  else (decodeQuatin (BitVec.ofNat 64 w)).toOption

end Sys2Proof
end

