-- ==== Sys2Proof/Config.lean ====
section
/-! DEFINITION. What the specification leaves free, as constants without a body: nothing can be proved about their values. The
first argument is the ticket of the step (`State.ticket`), the second says which of the step's free values is meant. -/

namespace Sys2Proof.Config

/-- Which of several allowed steps or values a step takes (R45, R80, R255, R267, R282, R304, R351). -/
opaque choice : Nat → Nat → Nat

/-- The undefined bits of a register that is written POISON, or made undefined (R9, R104, R113, R148). -/
opaque undef : Nat → Nat → Word

/-- Whether an early reader sees the old value (R45), lane by lane. -/
opaque early : Nat → Nat → Bool

/-- Whether a cache no longer holds a line when an access looks for it (R255, R267: replacement is not architectural). -/
opaque evicted : Nat → Nat → Bool

/-- Whether a byte dropped by DISCARD reads as zero (R282). -/
opaque dropped : Nat → Nat → Bool

/-- Where, within the bound of R162, an approximate result lies: a number of steps from the rounded value, for the code of
the instruction, the source bits and its .ftz. -/
opaque nudge : Nat → Nat → Bool → Nat

/-- The integer that the Veger's association gives for additions under .ra (R153): an index among the allowed results. -/
opaque assoc : Nat → Nat → Nat

/-- The value of a field of a message's payload (R467 names the fields in their order and gives no places): the payload's
bytes and the number of the field. -/
opaque payload : List (BitVec 8) → Nat → Nat

/-- The payload of an answer: the message type and the values answered (R467). -/
opaque answer : Nat → List Nat → List (BitVec 8)

/-- Beats that a buffer of the yard holds, by buffer (R407 gives no size); one more than the value. -/
opaque yardDepth : Nat → Nat

/-- Responses for which an agent has space, by agent (R407 gives no size); one more than the value. -/
opaque yardSpace : Nat → Nat

end Sys2Proof.Config
end

