-- ==== Sys2Proof/Machine/Float.lean ====
section
/-! DEFINITION. The floating-point formats and their exact arithmetic (R134 to R145): decoding, Round, stochastic rounding, sums
and products computed exactly, quotients, roots and transcendental functions. A real number is sign × m × 2^e; an inexact one
carries an odd last bit below every place that rounding looks at. -/

namespace Sys2Proof.Machine

/-- The formats with a sign (R135). -/
inductive FFmt where | f64 | f32 | f16 | bf16 | e5m2 | e4m3 | e2m1
  deriving DecidableEq, Repr

/-- Mantissa bits. -/
def FFmt.mb : FFmt → Nat
  | .f64 => 52 | .f32 => 23 | .f16 => 10 | .bf16 => 7 | .e5m2 => 2 | .e4m3 => 3 | .e2m1 => 1

/-- Exponent bits. -/
def FFmt.eb : FFmt → Nat
  | .f64 => 11 | .f32 => 8 | .f16 => 5 | .bf16 => 8 | .e5m2 => 5 | .e4m3 => 4 | .e2m1 => 2

def FFmt.bias : FFmt → Nat
  | .f64 => 1023 | .f32 => 127 | .f16 => 15 | .bf16 => 127 | .e5m2 => 15 | .e4m3 => 7 | .e2m1 => 1

def FFmt.bits (f : FFmt) : Nat := 1 + f.eb + f.mb

/-- The formats with infinities. -/
def FFmt.hasInf : FFmt → Bool
  | .e4m3 => false
  | .e2m1 => false
  | _ => true

/-- The exponent of the smallest normal. -/
def FFmt.emin (f : FFmt) : Int := 1 - (f.bias : Int)

/-- The exponent of one unit of the subnormals. -/
def FFmt.qmin (f : FFmt) : Int := f.emin - f.mb

/-- The code, without sign, of the largest finite value. -/
def FFmt.maxCode : FFmt → Nat
  | .e4m3 => 0x7E
  | .e2m1 => 7
  | f => (2 ^ f.eb - 1) * 2 ^ f.mb - 1

/-- The canonical NaN; E2M1 has none and takes +0 (R143). -/
def FFmt.nan : FFmt → Nat
  | .f64 => 0x7FF8000000000000 | .f32 => 0x7FC00000 | .f16 => 0x7E00 | .bf16 => 0x7FC0 | .e5m2 => 0x7E | .e4m3 => 0x7F
  | .e2m1 => 0

/-- A value: NaN, an infinity, or (−1)^neg × m × 2^e. -/
inductive FVal where
  | nan
  | inf (neg : Bool)
  | fin (neg : Bool) (m : Nat) (e : Int)
  deriving DecidableEq, Repr

def FVal.zero (neg : Bool) : FVal := .fin neg 0 0

def FVal.isNan : FVal → Bool
  | .nan => true
  | _ => false

/-- The value of a code (R135). -/
def FFmt.decode (f : FFmt) (code : Nat) : FVal :=
  let neg := bitAt code (f.bits - 1)
  let e := fld code (f.bits - 2) f.mb
  let m := code % 2 ^ f.mb
  let top := 2 ^ f.eb - 1
  if f.hasInf && e == top then (if m = 0 then .inf neg else .nan)
  else if f == .e4m3 && e == top && m == 7 then .nan
  else if e = 0 then .fin neg m f.qmin
  else .fin neg (2 ^ f.mb + m) (f.qmin + (e : Int) - 1)

/-- The value of a code as an instruction with or without .ftz reads it (R142). -/
def FFmt.decodeZ (f : FFmt) (ftz : Bool) (code : Nat) : FVal :=
  let e := fld code (f.bits - 2) f.mb
  if ftz && e == 0 then .zero (bitAt code (f.bits - 1)) else f.decode code

/-- An E8M0 code (R136). -/
def decodeE8M0 (c : Nat) : FVal := if c % 256 = 255 then .nan else .fin false 1 ((c % 256 : Nat) - 127 : Int)

/-! ### Rounding (R141, R142) -/

/-- m × 2^e in units of 2^u, rounded; `neg` is the sign of the value. -/
def roundTo (r : Rnd) (neg : Bool) (m : Nat) (e u : Int) : Nat :=
  if u ≤ e then m * 2 ^ (e - u).toNat
  else
    let s := (u - e).toNat
    let q := m / 2 ^ s
    let rem := m % 2 ^ s
    let half := 2 ^ s / 2
    let up := match r with
      | .rn => decide (half < rem) || (rem == half && q % 2 == 1)
      | .rz => false
      | .ru => !neg && rem != 0
      | .rd => neg && rem != 0
    if up then q + 1 else q

/-- The sign bit of a format. -/
def FFmt.signBit (f : FFmt) (neg : Bool) : Nat := if neg then 2 ^ (f.bits - 1) else 0

/-- The code of n × 2^u, n at most 2^(mb+1), u at least qmin; for magnitudes past the top exponent the code runs on. -/
def FFmt.magCode (f : FFmt) (n : Nat) (u : Int) : Nat :=
  if n < 2 ^ f.mb then n
  else ((u - f.qmin).toNat + 1) * 2 ^ f.mb + (n - 2 ^ f.mb)

/-- The unit in which m × 2^e, m > 0, is rounded: its binade's, or the subnormals' (R141). -/
def FFmt.unitOf (f : FFmt) (m : Nat) (e : Int) : Int := max (e + (Nat.log2 m : Int) - f.mb) f.qmin

/-- The result of an overflow (R141). -/
def FFmt.overflow (f : FFmt) (r : Rnd) (neg : Bool) : Nat :=
  match f with
  | .e4m3 => 0x7F
  | .e2m1 => f.signBit neg + f.maxCode
  | _ =>
    let inf := f.maxCode + 1
    f.signBit neg + (match r, neg with
      | .rn, _ => inf
      | .rz, _ => f.maxCode
      | .ru, false => inf
      | .ru, true => f.maxCode
      | .rd, false => f.maxCode
      | .rd, true => inf)

/-- A zero of a sign; E2M1 has only 0b0000 as a result (R139). -/
def FFmt.zeroCode (f : FFmt) (neg : Bool) : Nat := if f = .e2m1 then 0 else f.signBit neg

/-- Whether a magnitude, rounded with an unbounded exponent range, lies below the smallest normal (R142). -/
def FFmt.tiny (f : FFmt) (r : Rnd) (neg : Bool) (m : Nat) (e : Int) : Bool :=
  let u := e + (Nat.log2 m : Int) - f.mb
  let n := roundTo r neg m e u
  -- n × 2^u < 2^emin
  if f.emin ≤ u then false else decide (n < 2 ^ (f.emin - u).toNat)

/-- Round to a format (R141 to R143). -/
def FFmt.round (f : FFmt) (r : Rnd) (ftz : Bool) (v : FVal) : Nat :=
  match v with
  | .nan => f.nan
  | .inf neg => if f.hasInf then f.signBit neg + f.maxCode + 1 else if f = .e4m3 then 0x7F else f.signBit neg + f.maxCode
  | .fin neg m e =>
    if m = 0 then f.zeroCode neg
    else if ftz && f.tiny r neg m e then f.zeroCode neg
    else
      let u := f.unitOf m e
      let n := roundTo r neg m e u
      let code := if n = 2 ^ (f.mb + 1) then f.magCode (2 ^ f.mb) (u + 1) else f.magCode n u
      if f.maxCode < code then f.overflow r neg
      else if code = 0 then f.zeroCode neg
      else f.signBit neg + code

/-! ### The stochastic step (R145) -/

/-- The next state of the generator. -/
def seedStep (x : Nat) : Nat :=
  let a := x ^^^ (x * 2 ^ 13 % 2 ^ 32)
  let b := a ^^^ (a / 2 ^ 17)
  b ^^^ (b * 2 ^ 5 % 2 ^ 32)

/-- One element of a stochastic conversion, with `rnd` the upper half of the new state. -/
def FFmt.roundSr (f : FFmt) (rnd : Nat) (ftz : Bool) (v : FVal) : Nat :=
  match v with
  | .fin neg m e =>
    if m = 0 then f.zeroCode neg
    else
      let u := f.unitOf m e
      let q := roundTo .rz neg m e u
      let d16 := roundTo .rz neg m e (u - 16) % 2 ^ 16
      let n := if 2 ^ 16 ≤ d16 + rnd then q + 1 else q
      let code := if n = 2 ^ (f.mb + 1) then f.magCode (2 ^ f.mb) (u + 1) else f.magCode n u
      let code := min code f.maxCode
      if code = 0 || (ftz && decide (code < 2 ^ f.mb)) then f.zeroCode neg else f.signBit neg + code
  | v => f.round .rn ftz v

/-! ### Exact arithmetic -/

def FVal.neg : FVal → FVal
  | .nan => .nan
  | .inf s => .inf !s
  | .fin s m e => .fin (!s) m e

/-- The exact sum; a zero sum of unlike signs is +0, or −0 toward minus infinity (R157). -/
def FVal.add (rd : Bool) : FVal → FVal → FVal
  | .nan, _ => .nan
  | _, .nan => .nan
  | .inf s, .inf t => if s = t then .inf s else .nan
  | .inf s, _ => .inf s
  | _, .inf t => .inf t
  | .fin s m e, .fin t n d =>
    let u := min e d
    let a : Int := (m * 2 ^ (e - u).toNat : Nat)
    let b : Int := (n * 2 ^ (d - u).toNat : Nat)
    let x := (if s then -a else a) + (if t then -b else b)
    if x = 0 then (if m = 0 ∧ n = 0 ∧ s = t then .zero s else .zero rd)
    else .fin (decide (x < 0)) x.natAbs u

/-- The exact product. -/
def FVal.mul : FVal → FVal → FVal
  | .nan, _ => .nan
  | _, .nan => .nan
  | .inf s, .inf t => .inf (s != t)
  | .inf s, .fin t n _ => if n = 0 then .nan else .inf (s != t)
  | .fin s m _, .inf t => if m = 0 then .nan else .inf (s != t)
  | .fin s m e, .fin t n d => .fin (s != t) (m * n) (e + d)

/-- The clamp of .sat to [+0, 1] (R157). -/
def FVal.sat : FVal → FVal
  | .nan => .zero false
  | .inf s => if s then .zero false else .fin false 1 0
  | .fin s m e =>
    if s || m == 0 then .zero false
    else if 0 ≤ e + (Nat.log2 m : Int) then .fin false 1 0 else .fin false m e

/-- Compare two finite values: the sign of a − b. -/
def finCmp (s : Bool) (m : Nat) (e : Int) (t : Bool) (n : Nat) (d : Int) : Int :=
  let u := min e d
  let a : Int := (m * 2 ^ (e - u).toNat : Nat)
  let b : Int := (n * 2 ^ (d - u).toNat : Nat)
  ((if s then -a else a) - (if t then -b else b)).sign

/-- Compare two values that are not NaN. -/
def FVal.cmp : FVal → FVal → Int
  | .inf s, .inf t => if s = t then 0 else if s then -1 else 1
  | .inf s, _ => if s then -1 else 1
  | _, .inf t => if t then 1 else -1
  | .fin s m e, .fin t n d => finCmp s m e t n d
  | _, _ => 0

/-- minimumNumber and maximumNumber choose a source (R144): true for the first; −0 lies below +0. -/
def FVal.firstOf (mx : Bool) (a b : FVal) : Bool :=
  match a, b with
  | .nan, _ => false
  | _, .nan => true
  | _, _ =>
    let c := a.cmp b
    let negz : FVal → Bool := fun v => match v with
      | .fin s m _ => s && m == 0
      | _ => false
    if c < 0 then !mx else if 0 < c then mx
    else if mx then !negz a else negz a

/-- 1/m with a sticky last bit. -/
def FVal.recip : FVal → FVal
  | .nan => .nan
  | .inf s => .zero s
  | .fin s m e =>
    if m = 0 then .inf s
    else
      let k := 2 * Nat.log2 m + 80
      let q := 2 ^ k / m
      .fin s (2 * q + (if 2 ^ k % m = 0 then 0 else 1)) (-e - (k : Int) - 1)

/-- The integer square root, bit by bit. -/
def isqrtN : Nat → Nat → Nat → Nat
  | 0, _, r => r
  | k + 1, n, r =>
    let t := r + 2 ^ k
    isqrtN k n (if t * t ≤ n then t else r)

def isqrt (n : Nat) : Nat := isqrtN (Nat.log2 n / 2 + 1) n 0

/-- √ with a sticky last bit (R162, R163). -/
def FVal.sqrt : FVal → FVal
  | .nan => .nan
  | .inf s => if s then .nan else .inf false
  | .fin s m e =>
    if m = 0 then .zero s
    else if s then .nan
    else
      let m2 := if e % 2 = 0 then m * 2 ^ 120 else m * 2 ^ 121
      let e2 := if e % 2 = 0 then e - 120 else e - 121
      let q := isqrt m2
      .fin false (2 * q + (if q * q = m2 then 0 else 1)) (e2 / 2 - 1)

/-! ### Functions within a bound (R162) -/

/-- The order of FP32 codes: a code and its successor bound no other value. -/
def ordOf (code : Nat) : Int := if 2 ^ 31 ≤ code then -((code - 2 ^ 31 : Nat) : Int) - 1 else (code : Int)
def ofOrd (o : Int) : Nat := if o < 0 then 2 ^ 31 + (-o - 1).toNat else o.toNat

/-- The FP32 code of a dyadic rounded down or up; magnitudes past the largest finite value go to the infinity's code. -/
def f32Code (r : Rnd) (x : Int) (e : Int) : Nat :=
  if x = 0 then 0
  else
    let neg := decide (x < 0)
    let m := x.natAbs
    let u := FFmt.unitOf .f32 m e
    let n := roundTo r neg m e u
    let code := if n = 2 ^ 24 then FFmt.magCode .f32 (2 ^ 23) (u + 1) else FFmt.magCode .f32 n u
    FFmt.signBit .f32 neg + min code (FFmt.maxCode .f32 + 1)

/-- Some FP32 code within [lo, hi] × 2^e, the one that the implementation fixed for this instruction, source and .ftz. -/
def pickWithin (op src : Nat) (ftz : Bool) (lo hi : Int) (e : Int) : Nat :=
  let a := ordOf (f32Code .ru lo e)
  let b := ordOf (f32Code .rd hi e)
  if b ≤ a then f32Code .rn ((lo + hi) / 2) e
  else ofOrd (a + (Config.nudge op src ftz % ((b - a).toNat + 1) : Nat))

/-- Flush a subnormal result (R142, R162). -/
def flushCode (ftz : Bool) (code : Nat) : Nat :=
  if ftz && fld code 30 23 == 0 then code / 2 ^ 31 * 2 ^ 31 else code

/-- One unit of the binade of x × 2^e in FP32, in units of 2^e rounded up. -/
def ulp32 (x : Int) (e : Int) : Int :=
  let u := FFmt.unitOf .f32 (max 1 x.natAbs) e
  if e ≤ u then (2 : Int) ^ (u - e).toNat else 1

/-- π/2 × 2^320 and ln 2 × 2^160. -/
def halfPi320 : Nat := 0x1921fb54442d18469898cc51701b839a252049c1114cf98e804177d4c76273644a29410f31c6809bc
def ln2at160 : Nat := 0xb17217f7d1cf79abc9e3b39803f2f6af40f34316

/-- The Taylor sum of exp of y × 2^-160, y below 2^160: n more terms, the next with index k and value t. -/
def expSum : Nat → Nat → Nat → Nat → Nat
  | 0, _, _, _ => 0
  | n + 1, k, t, y => t + expSum n (k + 1) (t * y / 2 ^ 160 / k) y

/-- 2^x for a finite x: an integer times 2^e, exact to about 2^-150 of itself. -/
def exp2Val (neg : Bool) (m : Nat) (e : Int) : Nat × Int :=
  -- x as a fixed-point number with 160 fraction bits
  let f : Nat := if 0 ≤ e + 160 then m * 2 ^ (e + 160).toNat else m / 2 ^ (-(e + 160)).toNat
  let x : Int := if neg then -(f : Int) else f
  let n := x / 2 ^ 160
  let frac := (x % 2 ^ 160).toNat
  (expSum 60 1 (2 ^ 160) (frac * ln2at160 / 2 ^ 160), n - 160)

/-- The fraction bits of log2 of z × 2^-200, z in [2^200, 2^201): one bit for each squaring. -/
def log2Bits : Nat → Nat → Nat → Nat
  | 0, _, acc => acc
  | n + 1, z, acc =>
    let z2 := z * z / 2 ^ 200
    if 2 ^ 201 ≤ z2 then log2Bits n (z2 / 2) (2 * acc + 1) else log2Bits n z2 (2 * acc)

/-- log2 of m × 2^e, m > 0, with 100 fraction bits. -/
def log2Val (m : Nat) (e : Int) : Int :=
  let l := Nat.log2 m
  let z := m * 2 ^ 200 / 2 ^ l
  (e + l) * 2 ^ 100 + (log2Bits 100 z 0 : Nat)

/-- The alternating Taylor sum of sin (k = 2, t = r) or cos (k = 1, t = 1) of r × 2^-160: n more terms. -/
def trigSum : Nat → Nat → Int → Int → Int
  | 0, _, _, _ => 0
  | n + 1, k, t, r2 => t + trigSum n (k + 2) (-(t * r2 / 2 ^ 160 / ((k * (k + 1) : Nat) : Int))) r2

/-- sin (or cos) of a finite value in radians, with 160 fraction bits. -/
def trigVal (cos neg : Bool) (m : Nat) (e : Int) : Int :=
  let f : Nat := if 0 ≤ e + 320 then m * 2 ^ (e + 320).toNat else m / 2 ^ (-(e + 320)).toNat
  let x : Int := if neg then -(f : Int) else f
  let h : Int := halfPi320
  let q := (2 * x + h) / (2 * h)
  let r := (x - q * h) / 2 ^ 160
  let r2 := r * r / 2 ^ 160
  let s := trigSum 32 2 r r2
  let c := trigSum 32 1 (2 ^ 160) r2
  match (q + (if cos then 1 else 0)) % 4 with
  | 0 => s
  | 1 => c
  | 2 => -s
  | _ => -c

/-- FRSQ: within 1 ulp of 1/√x (R162, R163). -/
def frsqCode (src : Nat) (ftz : Bool) : Nat :=
  match FFmt.decodeZ .f32 ftz src with
  | .nan => FFmt.nan .f32
  | .inf s => if s then FFmt.nan .f32 else 0
  | .fin s m e =>
    if m = 0 then FFmt.signBit .f32 s + 0x7F800000
    else if s then FFmt.nan .f32
    else
      -- 1/√(m 2^e) in units of 2^d
      let k : Nat := if e % 2 = 0 then 240 else 241
      let q := isqrt (2 ^ k / m)
      let d : Int := -((e + k) / 2)
      let u := ulp32 q d
      flushCode ftz (pickWithin 1 src ftz ((q : Int) - u) ((q : Int) + u) d)

/-- FEXP2 (R162, R163). Far below the least subnormal, the values within 2 ulp are -1 to 2 times it. -/
def fexp2Code (src : Nat) (ftz : Bool) : Nat :=
  match FFmt.decodeZ .f32 ftz src with
  | .nan => FFmt.nan .f32
  | .inf s => if s then 0 else 0x7F800000
  | .fin s m e =>
    if m = 0 then 0x3F800000
    else
      let big := decide (10 ≤ e + (Nat.log2 m : Int))
      let isInt := decide (0 ≤ e) || m % 2 ^ (-e).toNat == 0
      let n : Int := if 0 ≤ e then m * 2 ^ e.toNat else (m / 2 ^ (-e).toNat : Nat)
      let x := if s then -n else n
      if big then flushCode ftz (if s then pickWithin 2 src ftz (-1) 2 (-149) else 0x7F800000)
      else if isInt && decide (-149 ≤ x) && decide (x ≤ 127) then flushCode ftz (FFmt.round .f32 .rn false (.fin false 1 x))
      else
        let r := exp2Val s m e
        let u := 2 * ulp32 r.1 r.2
        flushCode ftz (pickWithin 2 src ftz ((r.1 : Int) - u) ((r.1 : Int) + u) r.2)

/-- FLOG2 (R162, R163). -/
def flog2Code (src : Nat) (ftz : Bool) : Nat :=
  match FFmt.decodeZ .f32 ftz src with
  | .nan => FFmt.nan .f32
  | .inf s => if s then FFmt.nan .f32 else 0x7F800000
  | .fin s m e =>
    if m = 0 then 0xFF800000
    else if s then FFmt.nan .f32
    else
      let l := Nat.log2 m
      if m = 2 ^ l then FFmt.round .f32 .rn false (.fin (decide (e + l < 0)) (e + l).natAbs 0)
      else
        let y := log2Val m e
        -- 0.5 ≤ x ≤ 2
        let near := e + l == -1 || e + l == 0
        let u : Int := if near then 2 ^ 78 else 2 * ulp32 y (-100)
        flushCode ftz (pickWithin 3 src ftz (y - u) (y + u) (-100))

/-- FSIN and FCOS (R162, R163). A cosine of x ≠ 0 lies below 1, by less than the precision of `trigVal` where x is small. -/
def ftrigCode (cos : Bool) (src : Nat) (ftz : Bool) : Nat :=
  match FFmt.decodeZ .f32 ftz src with
  | .nan => FFmt.nan .f32
  | .inf _ => FFmt.nan .f32
  | .fin s m e =>
    if m = 0 then (if cos then 0x3F800000 else FFmt.signBit .f32 s)
    else
      let y := trigVal cos s m e
      let u : Int := 2 ^ 138
      flushCode ftz (pickWithin (if cos then 5 else 4) src ftz (y - u) (y + u - b2n cos) (-160))

end Sys2Proof.Machine
end

