-- ==== Sys2Proof/Machine/Aes.lean ====
section
/-! DEFINITION. AES-256, XTS-AES-256 (IEEE Std 1619) and AES key wrap (NIST SP 800-38F), which R265, R266 and R467 name. The
spec names the standards and does not repeat them. Bytes are numbers below 256. -/

namespace Sys2Proof.Machine

/-- Multiply by x in GF(2^8). -/
def gfX (a : Nat) : Nat := if 128 ≤ a then (2 * a) % 256 ^^^ 0x1B else 2 * a

/-- Multiply in GF(2^8), bit by bit over the low `n` bits of b. -/
def gfMulN : Nat → Nat → Nat → Nat
  | 0, _, _ => 0
  | n + 1, a, b => (if b % 2 = 1 then a else 0) ^^^ gfMulN n (gfX a) (b / 2)

def gfMul (a b : Nat) : Nat := gfMulN 8 a b

/-- The inverse in GF(2^8), as a^254; 0 for 0. -/
def gfInv (a : Nat) : Nat :=
  let a2 := gfMul a a
  let a4 := gfMul a2 a2
  let a8 := gfMul a4 a4
  let a16 := gfMul a8 a8
  let a32 := gfMul a16 a16
  let a64 := gfMul a32 a32
  let a128 := gfMul a64 a64
  gfMul a2 (gfMul a4 (gfMul a8 (gfMul a16 (gfMul a32 (gfMul a64 a128)))))

/-- Rotate a byte left. -/
def rol8 (x n : Nat) : Nat := (x * 2 ^ n) % 256 + x / 2 ^ (8 - n)

def sbox (x : Nat) : Nat :=
  let b := gfInv x
  b ^^^ rol8 b 1 ^^^ rol8 b 2 ^^^ rol8 b 3 ^^^ rol8 b 4 ^^^ 0x63

def invSbox (y : Nat) : Nat := gfInv (rol8 y 1 ^^^ rol8 y 3 ^^^ rol8 y 6 ^^^ 0x05)

def xorBytes (a b : List Nat) : List Nat := (a.zip b).map fun p => p.1 ^^^ p.2

/-- The words of the key schedule, newest first: `n` more words after the 8 of the key. -/
def keySched : Nat → Nat → List (List Nat) → List (List Nat)
  | 0, _, ws => ws
  | n + 1, i, ws =>
    let prev := ws.headD []
    let old := lget ws 7 []
    let t :=
      if i % 8 = 0 then
        let r := (prev.drop 1 ++ prev.take 1).map sbox
        xorBytes r [(upFrom 1 (i / 8 - 1)).foldl (fun a _ => gfX a) 1, 0, 0, 0]
      else if i % 8 = 4 then prev.map sbox
      else prev
    keySched n (i + 1) (xorBytes old t :: ws)

/-- Cut a list into pieces of n. -/
def chunks {α : Type} (n : Nat) : Nat → List α → List (List α)
  | 0, _ => []
  | k + 1, xs => xs.take n :: chunks n k (xs.drop n)

/-- The 15 round keys of AES-256. -/
def roundKeys (key : List Nat) : List (List Nat) :=
  let ws := (keySched 52 8 (chunks 4 8 key).reverse).reverse
  (chunks 4 15 ws).map fun q => q.foldr (fun a b => a ++ b) []

/-- Byte i of the state is row i mod 4, column i div 4. -/
def shiftRows (b : List Nat) : List Nat := (upFrom 0 16).map fun i => lget b ((i + 4 * (i % 4)) % 16) 0
def invShiftRows (b : List Nat) : List Nat := (upFrom 0 16).map fun i => lget b ((i + 12 * (i % 4)) % 16) 0

def mixCol (m : List Nat) (b : List Nat) : List Nat :=
  (upFrom 0 16).map fun i =>
    (upFrom 0 4).foldl (fun acc j => acc ^^^ gfMul (lget m ((j + 4 - i % 4) % 4) 0) (lget b (i / 4 * 4 + j) 0)) 0

/-- AES-256 encryption of one block. -/
def aesEnc (rks : List (List Nat)) (b : List Nat) : List Nat :=
  let mid := (rks.drop 1).take 13
  let b := mid.foldl (fun b rk => xorBytes (mixCol [2, 3, 1, 1] (shiftRows (b.map sbox))) rk) (xorBytes b (lget rks 0 []))
  xorBytes (shiftRows (b.map sbox)) (lget rks 14 [])

/-- AES-256 decryption of one block. -/
def aesDec (rks : List (List Nat)) (b : List Nat) : List Nat :=
  let mid := ((rks.drop 1).take 13).reverse
  let b := (invShiftRows (xorBytes b (lget rks 14 []))).map invSbox
  let b := mid.foldl (fun b rk => (invShiftRows (mixCol [14, 11, 13, 9] (xorBytes b rk))).map invSbox) b
  xorBytes b (lget rks 0 [])

/-- Multiply a 128-bit tweak by x (IEEE Std 1619), little-endian. -/
def tweakX (t : Nat) : Nat := if 2 ^ 127 ≤ t then (2 * t) % 2 ^ 128 ^^^ 0x87 else 2 * t

def natBytes (n x : Nat) : List Nat := (bytesOf n x).map BitVec.toNat
def bytesNat (l : List Nat) : Nat := l.foldr (fun b acc => b + 256 * acc) 0

/-- XTS over the blocks of one data unit. -/
def xtsBlocks (f : List Nat → List Nat) : Nat → List (List Nat) → List (List Nat)
  | _, [] => []
  | t, b :: bs =>
    let tb := natBytes 16 t
    xorBytes (f (xorBytes b tb)) tb :: xtsBlocks f (tweakX t) bs

/-- XTS-AES-256 of one 128-byte line; `key` holds the data key and then the tweak key (R265, R266). -/
def xts (enc : Bool) (key : List Byte) (tweak : Nat) (line : List Byte) : List Byte :=
  let k := key.map BitVec.toNat
  let k1 := roundKeys (k.take 32)
  let k2 := roundKeys (k.drop 32)
  let t := bytesNat (aesEnc k2 (natBytes 16 tweak))
  let f := if enc then aesEnc k1 else aesDec k1
  ((xtsBlocks f t (chunks 16 8 (line.map BitVec.toNat))).foldr (fun a b => a ++ b) []).map (BitVec.ofNat 8)

/-- One step of key unwrapping: index t, A and the registers R1 … Rn. -/
def kwStep (rks : List (List Nat)) (n : Nat) (st : List Nat × List (List Nat)) (t : Nat) : List Nat × List (List Nat) :=
  let i := (t - 1) % n
  let a := xorBytes st.1 (natBytes 8 t).reverse
  let b := aesDec rks (a ++ lget st.2 i [])
  (b.take 8, lmod st.2 i (fun _ => b.drop 8))

/-- Unwrap a 72-byte wrapping of a 64-byte key; none when the check value is wrong. -/
def kwUnwrap (kek : BitVec 256) (w : List Byte) : Option (List Byte) :=
  let rks := roundKeys (natBytes 32 kek.toNat)
  let wb := w.map BitVec.toNat
  let r := (upFrom 1 48).reverse.foldl (kwStep rks 8) (wb.take 8, chunks 8 8 (wb.drop 8))
  if r.1 = List.replicate 8 0xA6 then some ((r.2.foldr (fun a b => a ++ b) []).map (BitVec.ofNat 8)) else none

end Sys2Proof.Machine
end

