-- ==== Sys2Proof/Machine/State.lean ====
section
/-! DEFINITION. The state of the package GV-160 as plain data, its reset, and the reasons a step can stop. One structure for
each part that the spec names: thread, warp, core, compute die, stack, stack core, control die, launch. -/

namespace Sys2Proof.Machine

/-- Why a step stops with a fault of the MODEL (the faults of the Veger itself, R435, are next states that enter a handler
or end a launch). -/
inductive Fault where
  /-- Raised by the meaning of an instruction word when the agent named by `State.turn` is not one that runs such words, or
  is not there (a Creven word on a warp, a Quatin word on a stack core, an absent warp). Safe: `step` never asks for it. -/
  | noIssuer
  deriving DecidableEq, Repr

/-- Why an instruction has no meaning in the model. -/
inductive Refusal where
  /-- Raised by an arm of `exec` whose instruction has no meaning yet. Safe. -/
  | notModelled (mnemonic : String)
  deriving DecidableEq, Repr

/-! ### Registers, threads and warps -/

/-- A register with its format tag (R109, R146). -/
structure Reg where
  val : Word
  tag : Tag
  deriving DecidableEq, Repr

/-- A register, or a predicate, by name. -/
inductive RName where
  | v (n : Nat)
  | w (n : Nat)
  | p (n : Nat)
  /-- $seed, which CVTS writes with its latency class (R66) -/
  | seed
  deriving DecidableEq, Repr

/-- What a value derives from: for each thread (its launch and $tid in one number), the stamp of the newest datum that a load of
that thread returned (R309). -/
abbrev Taint := List (Nat × Nat)

/-- A value on its way to a register: lane `lane` of `name` (lane 0 for a uniform register); a predicate holds bit 0. -/
structure Wb where
  name : RName
  lane : Nat
  reg : Reg
  deriving DecidableEq, Repr

/-- An old value of a register written with fixed latency: readable as the new one from cycle `ready` (R43, R45). -/
structure Fresh where
  name : RName
  lane : Nat
  old : Reg
  ready : Nat
  deriving DecidableEq, Repr

/-- What a variable-latency result (R44) still waits for. -/
inductive PSrc where
  /-- values are known; VARIABLE_LATENCY_WRITE lands them -/
  | ready
  /-- the memory accesses numbered above the entry, up to `last`, land them -/
  | acc (last : Nat)
  /-- TRD: tile register, uniform selector number, lanes (R243) -/
  | trd (launch tile sel : Nat) (lanes : List Nat) (dst : Nat) (upto : Nat)
  /-- GIVE, until its drain ends (R210) -/
  | give
  /-- MCLAIM or TCLAIM, until its effect is settled (R227) -/
  | claim
  /-- a pen's grant (R339) -/
  | pen
  /-- RDSPEC of $gen (R263) -/
  | gen (uniform : Bool) (reg : Nat) (lanes : List Nat)
  /-- LAUNCH: the packet, the target word, the place of the status, lanes, and the access number it follows (R362) -/
  | launch (pkt : List Byte) (target : Nat) (dst : Nat) (lanes : List Nat) (id : Nat)
  deriving DecidableEq, Repr

/-- A pending variable-latency write of one instruction (R44). -/
structure Pend where
  id : Nat
  names : List RName
  src : PSrc
  vals : List Wb
  deriving DecidableEq, Repr

/-- Page sizes of a translation (R255). -/
inductive PSize where | page | run | big
  deriving DecidableEq, Repr

/-- One cached translation (R255): the leaf with the frame of its first 64 KiB page. -/
structure Xl where
  asid : Nat
  gen : Nat
  vpn : Nat
  size : PSize
  leaf : Nat
  deriving DecidableEq, Repr

/-- The causes for which a thread waits, and the states of a thread (R81). -/
inductive TSt where
  | ready
  | pen (die : Bool) (num : Nat) (take : Bool)
  | group (handle : Nat)
  /-- the access that waits -/
  | sync (id : Nat)
  | engine (c : EngCls) (n : Nat) (pr : Nat)
  /-- NAP: the core cycle in which the wait ends; in a parked context, the cycles that remain (R101) -/
  | nap (left : Nat)
  | reorder
  | exited
  deriving DecidableEq, Repr

/-- A thread in its slot (R78, R110, R114, R436, R439). -/
structure Thread where
  pc : Nat
  sLevel : Bool
  st : TSt
  epc : Nat
  fault : Dword
  tid : Nat
  seed : Word
  rerrCount : Nat
  rerrStat : Nat
  groups : List Nat
  lastIssue : Nat
  acqDie : Nat
  acqPkg : Nat
  fails : List RStat
  /-- failures of stores and atomics not yet recorded in $rerr (R317, R323) -/
  late : List RStat
  /-- accesses of its core numbered below this happen before its later accesses (R314) -/
  hbUpto : Nat
  lastPage : Option Xl
  waitSince : Nat
  deriving DecidableEq, Repr

/-- A fault that WAITC will raise (R298, R404, R444). -/
structure Deferred where
  cls : EngCls
  code : Nat
  status : RStat
  addr : Nat
  cmdPc : Nat
  /-- age of the command among its class -/
  cmd : Nat
  deriving DecidableEq, Repr

/-- An outstanding engine command of a warp: its number, and whether it has completed (R286, R287). -/
structure Outst where
  cmd : Nat
  done : Bool
  nonRes : Bool
  deriving DecidableEq, Repr

/-- The wait of a run head for bales: since when, and the head, its address, its word and its price (R186). -/
structure BWait where
  start : Nat
  pc : Nat
  word : Instr
  price : Nat
  deriving DecidableEq, Repr

/-- A resident warp (R79, R84, R89, R110, R114, R195, R210, R286). -/
structure Warp where
  width : Nat
  launch : Nat
  vregs : Nat
  uregs : Nat
  v : List (Nat × Reg)
  w : List (Nat × Reg)
  p : List (Nat × Bool)
  fresh : List Fresh
  /-- registers whose value derives from loads (R309) -/
  taint : List (Nat × Taint)
  pend : List Pend
  threads : List Thread
  esc : Nat
  readyAt : Nat
  nextIssue : Nat
  /-- the run in progress: the next word's address and the words issued (R39) -/
  run : Option (Nat × Nat)
  ties : List Nat
  sq : List Nat
  copyOut : List Outst
  matOut : List Outst
  collOut : List Outst
  deferred : List Deferred
  nonRes : Bool
  gstat : Nat
  phase : Nat
  sbcheck : Bool
  held : Bool
  bwait : Option BWait
  deriving DecidableEq, Repr

/-! ### Memory accesses in flight (R300 to R323) -/

/-- Who makes an access. -/
inductive Who where
  | thread (t : TRef)
  | score (n : Nat)
  deriving DecidableEq, Repr

/-- The type of an atomic, from its operand's tag (R348). -/
inductive AType where | int | f32 | f16x2 | bf16x2 | bits
  deriving DecidableEq, Repr

/-- One lane of an atomic: address and operands, the type, the tags of what it returns, and what its page's leaf says (R348,
R350). -/
structure ALane where
  lane : Nat
  pa : Nat
  val : Nat
  cmp : Nat
  pois : Bool
  ty : AType
  tag : Tag × Tag
  reach : Nat
  key : Nat
  stable : Bool
  deriving DecidableEq, Repr

/-- What an access does. -/
inductive AKind where
  /-- destinations, one register for each 4 bytes, written in each lane of the access, and the residency predicate -/
  | load (dst : List RName) (tag : Tag) (pr : Nat)
  /-- LDST of one lane, held behind an earlier access to its sheds: the column, and the places of the rows; none for a row of zeros,
  `some none` for a POISON row (R207) -/
  | rows (dst : List RName) (tag : Tag) (col : Nat) (places : List (Option (Option Nat)))
  | store (bytes : List Byte) (pois : List Bool)
  /-- the enabled bytes of a Creven vector store: offset, byte, poisoned -/
  | cStore (parts : List (Nat × Byte × Bool))
  /-- DISCARD of the lines at these memory places (R281) -/
  | discard (lines : List Nat)
  | swInit (target : Nat) (pois : Bool)
  | swAdd (units : Nat) (pois : Bool)
  /-- a wait for a generation of a sync word -/
  | swWait (gen : Nat)
  | atomic (op : AtomOp) (cas : Bool) (ra : Bool) (u : Bool) (wide : Bool) (ret : Option RName) (lanes : List ALane)
  /-- a Creven load into g register `d`, or into elements of h register `d` (element, offset of its bytes); `grp` is the first
  access of its instruction -/
  | cLoad (d : Nat) (vec : Bool) (elems : List (Nat × Nat)) (ebytes : Nat) (grp : Nat)
  | cAmo (d : Nat) (op : AmoOp) (u : Bool) (val cmp : Nat) (pois : Bool)
  | cVadd (ty : CTy) (val : Nat) (pois : Bool)
  | pagein
  /-- FENCE, or FENCE.SYS with its predicate -/
  | fence (sys : Bool) (pd : Nat)
  deriving DecidableEq, Repr

/-- An access that has issued and is not complete. Accesses are numbered in issue order. -/
structure Acc where
  id : Nat
  who : Who
  /-- the other lanes of a warp access (LDW, atomics) -/
  lanes : List Nat
  kind : AKind
  cls : Cls
  hint : Hint
  reach : Nat
  dev : Option Nat
  pa : Nat
  size : Nat
  key : Nat
  stable : Bool
  secAgent : Bool
  asid : Nat
  launch : Nat
  va : Nat
  /-- still in the warp's store queue (R308) -/
  queued : Bool
  /-- performed at its visibility point -/
  performed : Bool
  /-- the tick in which it was sent; none while it is queued or held by the order gate (R310, R319) -/
  sent : Option Nat
  /-- the timeout of its die at its issue (R319) -/
  limit : Nat
  /-- the fabric held its target unreachable when it was sent (R323) -/
  lost : Bool
  /-- a load may not read a copy older than this: its address or guard derives from a datum that new (R309) -/
  need : Nat
  /-- the path of its route's first hop (R416, R417) -/
  hop : Option Nat
  /-- its request has entered the yard (R407) -/
  out : Bool
  deriving DecidableEq, Repr

/-! ### The yard (R407, R408) -/

/-- A beat of a packet in the yard: the access it belongs to (none for a heartbeat), its source and its target, the nodes that it has
still to enter, each with whether it enters a buffer reserved for detours (R25), whether it is its packet's last, the beats of the
response that a request asks for, and the yard cycles that it has waited at the head of its buffer. -/
structure YBeat where
  acc : Option Nat
  src : Nat
  dst : Nat
  rest : List (Nat × Bool)
  last : Bool
  back : Nat
  waited : Nat
  deriving DecidableEq, Repr

/-- The buffers of the yard that hold something, and the buffer that each output served last of each channel. -/
structure Yard where
  bufs : List (Nat × List YBeat)
  turns : List (Nat × Nat)
  deriving DecidableEq, Repr

/-! ### Caches, sheds, tiles, groups, pens -/

/-- One line held by L1 or a die cache (R267, R270, R271, R460): every byte is at least as new as `stamp`, none is newer than
`upd`. -/
structure Copy where
  stamp : Nat
  upd : Nat
  bytes : List Byte
  marks : Nat
  dirty : Nat
  key : Nat
  sec : Bool
  stable : Bool
  borrowed : Bool
  launches : List Nat
  deriving DecidableEq, Repr

/-- States of a shed map entry (R200). -/
inductive ShSt where | empty | attached | draining
  deriving DecidableEq, Repr

/-- The latest acquires of a thread: at DIE reach or wider, and at PACKAGE reach or wider (R270). -/
abbrev Acqs := Nat × Nat

/-- A shed map entry (R200). -/
structure ShEntry where
  lid : Nat
  st : ShSt
  inc : Bool
  sec : Bool
  shed : Nat
  /-- the clock at which its drain began; accesses of that cycle are before it (R211) -/
  since : Nat
  /-- what its giver had acquired (R314, R315) -/
  pub : Acqs
  deriving DecidableEq, Repr

/-- The contents of a shed (R198, R149): bytes not listed are zero; poisoned bank words; what words derive from (R309). -/
structure Shed where
  bytes : List (Nat × Byte)
  marks : List Nat
  taint : List (Nat × Taint)
  deriving DecidableEq, Repr

/-- A GIVE whose drain is open (R210, R211). -/
structure Give where
  core : Nat
  warp : Nat
  launch : Nat
  src : Nat
  dstCore : Nat
  dstEntry : Nat
  pd : Nat
  lanes : List Nat
  pendId : Nat
  upto : Nat
  deriving DecidableEq, Repr

/-- States of a manger slot, and of a tile register (R220, R224). -/
inductive HoldSt where
  | free
  | claimed (who : Nat)
  | releasing (upto : Nat)
  deriving DecidableEq, Repr

/-- A manger slot of a launch's view (R219 to R222): data area and side area, bytes not listed zero; marked sectors. -/
structure MSlot where
  phys : Nat
  st : HoldSt
  bytes : List (Nat × Byte)
  side : List (Nat × Byte)
  marks : List Nat
  deriving DecidableEq, Repr

/-- A tile register of a launch's view (R223, R224): elements not listed zero, rows not listed FP32; what rows derive from (R309). -/
structure Tile where
  phys : Nat
  st : HoldSt
  elems : List (Nat × Word)
  tags : List (Nat × Tag)
  taint : List (Nat × Taint)
  deriving DecidableEq, Repr

/-- States of a pen's box (R337); `pend` while a release is incomplete (R339). -/
inductive BoxSt where | empty | claimed | full | taken
  deriving DecidableEq, Repr

/-- A box: its state, its bound mark and the pending mark (R337, R339). -/
structure Box where
  st : BoxSt
  bound : Bool
  pend : Bool
  deriving DecidableEq, Repr

/-- A waiter of a pen (R339, R342): threads of a warp with their pending destination, or a copy command (R344). -/
inductive Waiter where
  | threads (core warp : Nat) (lanes : List Nat) (pendId : Nat) (uniform : Bool) (reg : Nat)
  | copy (core cmd : Nat)
  deriving DecidableEq, Repr

/-- A pen (R337). `order` lists the TAKEN boxes in the order they were taken (R345). -/
structure Pen where
  phys : Nat
  boxes : List Box
  cp : Nat
  tp : Nat
  claimQ : List Waiter
  takeQ : List Waiter
  order : List Nat
  claims : List Nat
  /-- box by box, what those that last filled or freed it had acquired (R314, R315) -/
  pub : List (Nat × Acqs)
  deriving DecidableEq, Repr

/-- A PFILL or PFREE whose release is not complete (R339). -/
structure PenRel where
  die : Bool
  core : Nat
  launch : Nat
  pen : Nat
  box : Nat
  fill : Bool
  ths : List TRef
  upto : Nat
  /-- what its threads had acquired at its issue (R314) -/
  acqs : Acqs
  deriving DecidableEq, Repr

/-- A group record (R324, R325, R327, R240). -/
structure Group where
  launch : Nat
  ident : Nat
  roles : Roles
  res : ResMode
  penErr : Bool
  deriving DecidableEq, Repr

/-- A table of groups: the records in use, and the sequence number of every record used so far (R325). -/
structure GTable where
  recs : List (Nat × Group)
  seqs : List (Nat × Nat)
  deriving DecidableEq, Repr

/-- What a launch holds on a core (R200, R219, R223, R241, R336). Sheds are named by physical entries. -/
structure View where
  sheds : List Nat
  slots : List MSlot
  tiles : List Tile
  pens : List Pen
  allRes : ResMode
  allPenErr : Bool
  deriving DecidableEq, Repr

/-- A sync word that a unit of the package adds to (R216): a word of a shed, or a word at a memory place under a key slot, for an
agent of a world. A word of another device is reached by a packet, and nothing of it is here. -/
inductive SyncTo where
  | none
  | shed (die shed off : Nat)
  | home (lin key : Nat) (sec : Bool)
  | away
  deriving DecidableEq, Repr

/-- A resolved copy command (R290 to R297). -/
structure CopyCmd where
  id : Nat
  warp : Nat
  launch : Nat
  lanes : List Nat
  pc : Nat
  /-- 0 CPY, 1 CPYG, 2 CPYS -/
  form : Nat
  gran : Nat
  desc : List Byte
  idxAddr : Nat
  idxShed : Bool
  add : Option AddTy
  ra : Bool
  /-- slots of the shed view that it names, with the sheds resolved at issue (R211, R292) -/
  sheds : List (Nat × Nat)
  /-- manger slots that it writes -/
  slots : List Nat
  /-- flat index of the next element -/
  pos : Nat
  marked : Bool
  nonRes : Bool
  penBox : Option Nat
  /-- its box was filled when its claim was served (R344) -/
  filled : Bool
  /-- the issuing thread's acquires as of its issue (R270) -/
  acqDie : Nat
  acqPkg : Nat
  asid : Nat
  sec : Bool
  sLevel : Bool
  sync : SyncTo
  /-- destination bytes written -/
  bytes : Nat
  /-- no part of it is under way: it has not started, or it stopped at a granule (R296) -/
  stopped : Bool
  waitPen : Bool
  /-- the core cycle in which its draw first fell short, and the price (R184) -/
  wait : Option (Nat × Nat)
  /-- bales drawn for its next chunk (R184, R296) -/
  drawn : Nat
  /-- the bytes that it has written of sectors, bank words and manger sectors that it has written in part (R297) -/
  cover : List (Nat × Nat)
  fault : Option (Nat × RStat × Nat)
  deriving DecidableEq, Repr

/-- A collective command that is not complete (R402 to R404). -/
structure CollCmd where
  id : Nat
  core : Nat
  warp : Nat
  launch : Nat
  lanes : List Nat
  pc : Nat
  op : CollOp
  gran : Nat
  key : Nat
  desc : List Byte
  asid : Nat
  sec : Bool
  penBox : Option Nat
  /-- its results are written, and its sync word has its unit -/
  done : Bool
  waitPen : Bool
  filled : Bool
  fault : Option (Nat × RStat × Nat)
  deriving DecidableEq, Repr

/-- A command of the matrix engine (R231, R236, R242, R243). -/
inductive MKind where
  | mma (ma mb : Nat) (fa fb : MFmt) (sp : Bool) (rows : List Nat) (pf : Bool) (pen gran : Nat) (mode : ResMode)
  | mzero (rows : List Nat) (int : Bool)
  | twr (cb : Nat) (rows : List (Nat × List Reg × Taint))
  deriving DecidableEq, Repr

/-- A queued matrix command. -/
structure MCmd where
  id : Nat
  warp : Nat
  launch : Nat
  tile : Nat
  kind : MKind
  block : Nat
  poisoned : List Nat
  deriving DecidableEq, Repr

/-- An effect on slots, tile registers and groups that is not settled yet (R227). -/
inductive SetAct where
  | claimSlot (num : Option Nat)
  | claimTile (num : Option Nat) (group : Nat)
  | freeSlot (num : Nat)
  | freeTile (num group : Nat)
  | queue (group : Nat) (cmd : MCmd)
  | mode (group : Nat) (m : ResMode)
  deriving DecidableEq, Repr

/-- When it settles, whose it is, and the number of its issue; a claim writes its result to the pending registers of that number. -/
structure Settle where
  due : Nat
  warp : Nat
  launch : Nat
  id : Nat
  lanes : List Nat
  act : SetAct
  deriving DecidableEq, Repr

/-- A stopped engine position and the queues of the matrix engine, one for each group of each launch: ascending handle, then launch
(R231, R232). -/
structure MEngine where
  queues : List (Nat × List MCmd)
  last : Nat
  cur : Option (Nat × MCmd)
  freed : Bool
  deriving DecidableEq, Repr

/-- One participant of an open REORDER (R102). -/
structure RPart where
  warp : Nat
  lane : Nat
  arrived : Bool
  guard : Bool
  key : Reg
  deriving DecidableEq, Repr

/-- An open REORDER (R102, R103). -/
structure Reorder where
  launch : Nat
  pc : Nat
  base : Nat
  mask : Nat
  desc : Bool
  parts : List RPart
  deriving DecidableEq, Repr

/-- What a pre-emption exchanges (R447). -/
structure Ctx where
  part : Option Nat
  sec : Bool
  warps : List (Nat × Warp)
  views : List (Nat × View)
  groups : GTable
  copyQ : List CopyCmd
  mat : MEngine
  settles : List Settle
  reorder : List Reorder
  deriving DecidableEq, Repr

/-- The other twin (R448). -/
inductive Twin where
  | free
  | staged (c : Ctx)
  | parked (c : Ctx)
  deriving DecidableEq, Repr

/-- Who holds a reservation (R184, R186). -/
inductive Payer where
  | warp (n : Nat)
  | copy
  deriving DecidableEq, Repr

/-- A reservation (R186, R187). -/
structure Resv where
  who : Payer
  amount : Nat
  held : Nat
  deriving DecidableEq, Repr

/-- A quadrant's issue slot: the warp whose run holds it (R86, R88). -/
structure Slot where
  cur : Option Nat
  freeAt : Nat
  deriving DecidableEq, Repr

/-- The passes still to come of a word on sheds: its threads, their issue's cycle, the guard-true lanes of these passes, and whether its
uniform result is still to be written (R111, R204). -/
structure PassRest where
  warp : Nat
  launch : Nat
  word : Instr
  pc : Nat
  set : List Nat
  act : List Nat
  issued : Nat
  uni : Bool
  deriving DecidableEq, Repr

/-- A core (R11, R181, R183, R192, R255, R267, R445 to R453). -/
structure Core where
  enabled : Bool
  cycles : Nat
  stretch : Nat
  rack : Nat
  resv : List Resv
  satisfied : List Resv
  /-- the requester that came first in the last cycle with two requests or more (R183): quadrants 0 to 3, copy engine 4 -/
  lastFirst : Nat
  /-- the requesters of this cycle so far, in the order of their service -/
  reqs : List Nat
  /-- bales deducted in this cycle for a warp whose word has its place later in the cycle: the warp and the price (R183) -/
  grants : List (Nat × Nat)
  l1 : List (Nat × Copy)
  tlb : List Xl
  poisonCnt : Word
  mismatch : Word
  uncorr : Word
  corr : Word
  half : Bool
  regulator : Nat
  slots : List Slot
  passes : List PassRest
  ctx : Ctx
  twin : Twin
  saved : List (Nat × Ctx)
  preempt : Option (Option Nat)
  deriving DecidableEq, Repr

/-- Whether a die works, and why not (R451). -/
inductive DieSt where | up | lost | reset | down
  deriving DecidableEq, Repr

/-- The registers of a die's bale ring (R178) and its slew limiter (R189, R190). -/
structure Ring where
  allow : Nat
  rowpart : Nat
  step : Nat
  massen : Bool
  nextAllow : Nat
  nextRowpart : Nat
  nextStep : Nat
  nextMassen : Bool
  turn : Nat
  pool : Nat
  visit : Nat
  spent : Nat
  prevSpent : Nat
  limit : Nat
  nextCore : Nat
  heldCores : List Nat
  /-- the clock at the die's power-up, from which its turns are numbered (R177) -/
  base : Nat
  /-- the ring cycle of the last admission (R190) -/
  admitted : Option Nat
  deriving DecidableEq, Repr

/-- A warp range that waits for admission on a die (R365, R366). -/
structure Range where
  launch : Nat
  lo : Nat
  hi : Nat
  deriving DecidableEq, Repr

/-- A compute die. -/
structure Die where
  st : DieSt
  ticks : Nat
  ring : Ring
  sheds : List (Nat × Shed)
  shedMap : List (Nat × ShEntry)
  gives : List Give
  dc : List (Nat × Copy)
  tlb : List Xl
  pens : List (Nat × List Pen)
  groups : GTable
  watchdog : Nat
  borrow : Bool
  ftimeout : Nat
  predictor : List (Nat × Nat)
  /-- by location of a CORE or DIE page, or shed word: what the agents of its release sequence had acquired (R312, R314) -/
  pubs : List (Nat × Acqs)
  dispatchCore : Nat
  ranges : List Range
  lids : List (Nat × Nat)
  lastLid : Nat
  deriving DecidableEq, Repr

/-! ### Stacks and stack cores -/

/-- States of a snapshot (R456). -/
inductive SnapSt where | idle | copying | failed
  deriving DecidableEq, Repr

/-- A laser module (R397). -/
inductive Laser where | off | on | failed
  deriving DecidableEq, Repr

/-- States of a path (R426). -/
inductive PathSt where | down | up | restriping
  deriving DecidableEq, Repr

/-- One buffered flit of a replay buffer (R419): its SEQ, its contents, and how often it was resent. -/
structure Buffered where
  seq : Nat
  body : FlitBody
  resent : Nat
  deriving DecidableEq, Repr

/-- A path of a port, both directions at this end (R411, R419 to R426, R476). -/
structure Path where
  st : PathSt
  outLanes : Nat
  inLanes : Nat
  replays : Nat
  corrupt : Nat
  /-- flits not yet sent, each with the slots it has waited -/
  queue : List (FlitBody × Nat)
  /-- the channel of a packet of which flits are still to be sent -/
  mid : Option Nat
  buffer : List Buffered
  /-- the SEQ numbers to be sent again -/
  resend : List Nat
  /-- while held to idle flits: the lowest SEQ that a NAK asked for -/
  heldNak : Option Nat
  nextSeq : Nat
  /-- the SEQ expected next -/
  rxNext : Nat
  /-- slots since the first NAK for the expected flit, counted from 1; 0 when it is not awaited -/
  nakSlots : Nat
  txCounter : Nat
  rxCounter : Nat
  txPhase : Bool
  rxPhase : Bool
  /-- slots since the first verified flit of a new phase, while both phases are accepted -/
  both : Option Nat
  /-- slots sent under the present key -/
  sinceFlip : Nat
  flipped : Bool
  /-- the next key to send under is installed -/
  keyReady : Bool
  /-- the key of the ingress phase that is not current is held -/
  rxKey : Bool
  /-- a pending switch of the egress lanes: the new set and its slot -/
  pendOut : Option (Nat × Nat)
  pendIn : Option (Nat × Nat)
  /-- held to idle flits -/
  idleOnly : Bool
  /-- ingress lanes found dark, and egress lanes that the peer found dark, that have not returned -/
  darkIn : Nat
  darkOut : Nat
  /-- flits accepted of packets that are not whole, and flits of packets delivered -/
  partIn : List FlitBody
  delivered : List FlitBody
  /-- the flit last sent -/
  wire : Option Flit
  deriving DecidableEq, Repr

/-- A stack with its base die (R11, R283, R319, R397, R399, R453, R456). -/
structure Stack where
  alive : Bool
  ticks : Nat
  scCycles : Nat
  ftimeout : Nat
  pins : List (Nat × Nat)
  scBase : Nat
  scEn : Bool
  poisonCnt : Word
  uncorr : Word
  corr : Word
  clean : List Nat
  frozen : List Nat
  snapSeq : Word
  snapDev : Nat
  snapSt : SnapSt
  snapFirst : Nat
  snapLast : Nat
  snapDst : Dword
  snapCopied : Nat
  laserLo : Laser
  laserHi : Laser
  lol : Nat
  opevt : Nat
  live : List Word
  laneen : List Word
  heat : List (BitVec 12)
  mpd : List Half16
  loEn : Bool
  hiEn : Bool
  paths : List Path
  /-- the next position and group of the alternative routes (R415) -/
  viaX : Nat
  viaY : Nat
  deriving DecidableEq, Repr

/-- A row ring (R180). -/
structure RowRing where
  pool : Nat
  bank : Nat
  turn : Nat
  visit : Nat
  deriving DecidableEq, Repr

/-- What the Maelyon program of an S-level instance serves (R373, R402, R405): a collective, with the bales that the instance has
still to draw for it (R185), a snapshot of its stack, or optical housekeeping. -/
inductive Serve where
  | coll (id bales : Nat)
  | snapshot
  | housekeeping
  deriving DecidableEq, Repr

/-- A Creven instance (R370, R371, R373, R380). Registers not listed are zero, words not listed unmarked. -/
structure Inst where
  /-- what an instance of a Maelyon program serves; none for one that runs the words at its PC -/
  serve : Option Serve
  launch : Nat
  idx : Nat
  ninst : Nat
  arg : Dword
  asid : Nat
  part : Nat
  sec : Bool
  sLevel : Bool
  pc : Nat
  g : List (Nat × Dword)
  gm : List Nat
  h : List (Nat × Vword)
  hm : List (Nat × Nat)
  k : List (Nat × Dword)
  loft : List (Nat × Byte)
  loftm : List Nat
  rerrCount : Nat
  rerrStat : Nat
  fails : List RStat
  /-- failures of stores not yet recorded in $rerr (R383) -/
  late : List RStat
  /-- registers that wait for an access or a send: the register and its number -/
  pendG : List (Nat × Nat)
  pendH : List (Nat × Nat)
  /-- loads under way that have already counted a mark -/
  marking : List Nat
  started : Nat
  halting : Bool
  /-- while it is parked: its slot of the save area (R399) -/
  slot : Nat
  deriving DecidableEq, Repr

/-- A slot of a receive channel (R393, R396). -/
structure RSlot where
  chunk : Chunk
  owner : Nat
  order : Nat
  deriving DecidableEq, Repr

/-- A PSEND in flight (R394). -/
structure PSend where
  id : Nat
  dst : CReg
  inst : Nat
  chunk : Chunk
  dev : Nat
  target : Nat
  sent : Nat
  /-- the timeout as it stood when the chunk was sent (R319) -/
  limit : Nat
  /-- the path of its route's first hop (R417) -/
  hop : Option Nat
  deriving DecidableEq, Repr

/-- A stack core (R370, R393, R398, R399). -/
structure SCore where
  enabled : Bool
  rack : Nat
  resv : Option Resv
  satisfied : Option Resv
  bwait : Option BWait
  run : Option Inst
  parked : List Inst
  queue : List Inst
  tlb : List Xl
  channels : List (Nat × List RSlot)
  psends : List PSend
  deriving DecidableEq, Repr

/-! ### The control die -/

/-- An ASID record (R254) with the handler registers of the ASID (R438). -/
structure AsidRec where
  root : Nat
  gen : Nat
  sec : Bool
  v : Bool
  entry : Nat
  en : Bool
  frame : Nat
  deriving DecidableEq, Repr

/-- A waiting packet (R357, R363, R364). -/
structure Waiting where
  pkt : List Byte
  seq : Nat
  host : Bool
  /-- the control die's tick of its append -/
  tick : Nat
  order : Nat
  /-- whole 2^20 ticks since its append, as last noted -/
  rise : Nat
  /-- ticks in which it was passed over -/
  passed : Nat
  overdue : Bool
  /-- the last reading of its dependences found them reached, and the control die's tick of that reading -/
  ready : Bool
  polled : Nat
  deriving DecidableEq, Repr

/-- A launch queue (R357, R360, R368). -/
structure Queue where
  en : Bool
  asid : Nat
  lastst : Nat
  refused : Nat
  nextSeq : Nat
  waiting : List Waiting
  compSeq : Nat
  compFcode : Nat
  compStatus : Nat
  deriving DecidableEq, Repr

/-- A save region (R449). -/
structure SaveReg where
  base : Nat
  key : Nat
  sec : Bool
  v : Bool
  deriving DecidableEq, Repr

/-- A memory key (R265). -/
structure KeySlot where
  sec : Bool
  key : List Byte
  deriving DecidableEq, Repr

/-- A PAGEIN request (R261): queued for system software, its thread's access number, its sync word. -/
structure PageIn where
  id : Nat
  asid : Nat
  va : Nat
  sync : SyncTo
  secAgent : Bool
  walked : Bool
  ths : TRef
  deriving DecidableEq, Repr

/-- States of the package (R464). -/
inductive BootSt where | running | ready | safe
  deriving DecidableEq, Repr

/-- The mailbox (R465). -/
structure Mailbox where
  req : List Byte
  ans : List Byte
  done : Bool
  busy : Bool
  deriving DecidableEq, Repr

/-- A RAISEGEN, or a raise of the grooms, that waits (R263). -/
structure Raise where
  id : Nat
  asid : Nat
  ths : List TRef
  upto : Nat
  core : Nat
  warp : Nat
  deriving DecidableEq, Repr

/-- The control die (R20, R254, R283, R357 to R359, R427, R432, R433, R438, R449, R453, R454, R463 to R465). -/
structure Control where
  alive : Bool
  heartbeat : Bool
  ticks : Nat
  boot : BootSt
  stage : Nat
  bootCode : Nat
  bootUkind : Nat
  bootUnit : Nat
  bootDetail : Nat
  devnum : Nat
  bridge : Bool
  imageVersion : Nat
  /-- the copy of the image that was accepted -/
  accepted : Option Nat
  /-- the last report of each die: how many of its warps hold the advice .c, .m and .w (R195) -/
  advice : List (Nat × List Nat)
  images : List Image
  kwKey : BitVec 256
  asids : List (Nat × AsidRec)
  queues : List (Nat × Queue)
  order : Nat
  acl : List (Nat × Dword)
  pinq : List (Nat × Nat)
  /-- by core: V and PART (R358) -/
  cpart : List (Nat × Bool × Nat)
  regmap : List (Nat × Nat)
  saves : List (Nat × SaveReg)
  keys : List (Nat × KeySlot)
  wide : GTable
  pageins : List PageIn
  raises : List Raise
  alarms : List (Nat × Word)
  alarmOn : List Nat
  alarmClear : List (Nat × Nat)
  events : List EvRec
  drops : Word
  hostwin : List (Nat × Dword)
  mbox : Mailbox
  msixEn : List Nat
  msixMask : List Nat
  msixPend : List Nat
  msixSent : List Nat
  toHost : List (Nat × List Byte)
  toPeer : List (Nat × List Byte)
  /-- MGMT messages that wait for a route, each with the stack that sends it (R416) -/
  mgmtWait : List (Nat × List FlitBody)
  badLinks : List (Nat × Nat)
  badPorts : List (Nat × Nat)
  safeDevs : List Nat
  deriving DecidableEq, Repr

/-- A launch that has started (R356, R365 to R368). -/
structure Launch where
  id : Nat
  part : Nat
  queue : Nat
  seq : Nat
  asid : Nat
  sec : Bool
  stackLevel : Bool
  entry : Nat
  arg : Dword
  width : Nat
  vregs : Nat
  uregs : Nat
  sheds : Nat
  esheds : Nat
  manger : Nat
  tiles : Nat
  cpens : Nat
  dpens : Nat
  grid : Nat
  prio : Nat
  order : Nat
  done : Nat
  host : Bool
  /-- threads admitted, or instances started -/
  admitted : Nat
  /-- warps not retired, or instances not ended -/
  live : Nat
  /-- one of its threads exited by a poisoned transfer -/
  poisoned : Bool
  /-- parts of the grid of a lost die that no die can take yet -/
  waitingPart : List (Nat × Nat)
  ended : Option (LStat × Nat)
  deriving DecidableEq, Repr

/-! ### The package -/

/-- One thing to do: an event of the hardware or an input, the next word of a warp or of a stack core, or a core's issues of a
cycle. -/
inductive Todo where
  | ev (i : Instr)
  | word (core warp : Nat)
  | sword (n : Nat)
  /-- the quadrants of a core and its copy engine ask for bales, and the quadrants issue (R88, R183) -/
  | quads (core : Nat)
  /-- a later pass of a quadrant's word on sheds (R204) -/
  | pass (core quad : Nat)
  deriving DecidableEq, Repr

/-- The agent that issues now. -/
inductive Turn where
  | idle
  | warp (core warp : Nat)
  | score (n : Nat)
  deriving DecidableEq, Repr

/-- An interval of stack-direct addresses dropped by DISCARD and not stored to since (R282). -/
structure Gap where
  lo : Nat
  hi : Nat
  deriving DecidableEq, Repr

/-- What a walk made in this step found: invalid, non-resident, or a translation with the memory place of its leaf. Misses of one
step for one page share it (R257). -/
structure WalkMemo where
  ticket : Nat
  asid : Nat
  page : Nat
  found : Option (Option (Xl × Nat))
  deriving DecidableEq, Repr

/-- The whole package. Memory is keyed by stack index × 2^36 + byte offset, so that the two names of a byte (R19) are one
place. `ticket` counts the free values used so far; `nextId` numbers accesses and commands; `stamp` orders cache fills and
acquires. -/
structure State where
  mem : List Host.Cell
  marks : List Nat
  gaps : List Gap
  cores : List Core
  dies : List Die
  stks : List Stack
  rows : List RowRing
  scores : List SCore
  ctl : Control
  launches : List (Nat × Launch)
  nextLaunch : Nat
  accs : List Acc
  colls : List CollCmd
  penRels : List PenRel
  agenda : List Todo
  turn : Turn
  clock : Nat
  nextId : Nat
  stamp : Nat
  ticket : Nat
  /-- a walk was asked for while the control die works no more: what asked for it waits (R25) -/
  walkLost : Bool
  /-- the walks of this step (R257) -/
  walks : List WalkMemo
  /-- dies whose engines have used a pen in this cycle: how far the order of R342 has come -/
  penPhase : List (Nat × Nat)
  yard : Yard
  deriving DecidableEq, Repr

/-! ### Reset -/

/-- A register at admission (R110). -/
def Reg.zero : Reg := ⟨0, .raw⟩

/-- An empty group table. -/
def GTable.reset : GTable := ⟨[], []⟩

/-- A context that holds nothing. -/
def Ctx.empty : Ctx :=
  { part := none, sec := false, warps := [], views := [], groups := .reset, copyQ := [],
    mat := ⟨[], 0, none, false⟩, settles := [], reorder := [] }

/-- Core `n` after reset: rack 0 (R181), counters 0 (R114, R453), regulator n div 16 (R193). DESIGN CHOICE (log 113): R183 does not
say where the rotating service starts before a cycle has had two requests; it starts at quadrant 0, as if the copy engine had come
first. -/
def Core.reset (n : Nat) : Core :=
  { enabled := true, cycles := 0, stretch := 0, rack := 0, resv := [], satisfied := [], lastFirst := 4,
    reqs := [], grants := [], l1 := [], tlb := [],
    poisonCnt := 0, mismatch := 0, uncorr := 0, corr := 0, half := false, regulator := n / 16,
    slots := List.replicate 4 ⟨none, 0⟩, passes := [], ctx := .empty, twin := .free, saved := [], preempt := none }

/-- The ring registers after reset (R178); turn 0 starts at power-up (R177, R179). -/
def Ring.reset : Ring :=
  { allow := 33350, rowpart := 2048, step := 4168, massen := true, nextAllow := 33350, nextRowpart := 2048,
    nextStep := 4168, nextMassen := true, turn := 0, pool := 31302, visit := 0, spent := 0, prevSpent := 0,
    limit := 4168, nextCore := 0, heldCores := [], base := 0, admitted := none }

/-- A compute die after reset (R178, R200, R319, R346, R353). -/
def Die.reset : Die :=
  { st := .up, ticks := 0, ring := .reset, sheds := [], shedMap := [], gives := [], dc := [], tlb := [], pens := [],
    groups := .reset, watchdog := 0x01000000, borrow := true, ftimeout := 6400, predictor := [], pubs := [], dispatchCore := 0,
    ranges := [], lids := [], lastLid := 0 }

/-- A path after reset: down (R426). -/
def Path.reset : Path :=
  { st := .down, outLanes := 0, inLanes := 0, replays := 0, corrupt := 0, queue := [], mid := none, buffer := [], resend := [],
    heldNak := none, nextSeq := 0, rxNext := 0, nakSlots := 0, txCounter := 0, rxCounter := 0, txPhase := false,
    rxPhase := false, both := none, sinceFlip := 0, flipped := false, keyReady := false, rxKey := false, pendOut := none,
    pendIn := none, idleOnly := false, darkIn := 0, darkOut := 0, partIn := [], delivered := [], wire := none }

/-- A stack after reset (R283, R319, R397, R399, R453, R456). -/
def Stack.reset : Stack :=
  { alive := true, ticks := 0, scCycles := 0, ftimeout := 6400, pins := [], scBase := 0, scEn := false, poisonCnt := 0,
    uncorr := 0, corr := 0, clean := [], frozen := [], snapSeq := 0, snapDev := 0, snapSt := .idle, snapFirst := 0,
    snapLast := 0, snapDst := 0, snapCopied := 0, laserLo := .on, laserHi := .on, lol := 0, opevt := 0,
    live := List.replicate 6 0xFFFFFFFF, laneen := List.replicate 6 0xFFFFFFFF, heat := List.replicate 6 0x800,
    mpd := List.replicate 6 0x8000, loEn := true, hiEn := true, paths := List.replicate 32 .reset, viaX := 0, viaY := 0 }

/-- A stack core after reset. -/
def SCore.reset : SCore :=
  { enabled := true, rack := 0, resv := none, satisfied := none, bwait := none, run := none, parked := [], queue := [],
    tlb := [], channels := [], psends := [] }

/-- The image that the model's flash holds at reset. -/
def imageReset : Image :=
  { valid := true, version := 1, devnum := 0, bridge := true, cores := BitVec.allOnes 64, dies := BitVec.allOnes 8,
    stackCores := BitVec.allOnes 64, heaters := List.replicate 96 0x800, kwKey := 0 }

/-- The control die after reset. -/
def Control.reset : Control :=
  { alive := true, heartbeat := true, ticks := 0, boot := .running, stage := 0, bootCode := 0, bootUkind := 0,
    bootUnit := 0, bootDetail := 0, devnum := 0, bridge := false, imageVersion := 0, accepted := none, advice := [],
    images := [imageReset, imageReset],
    kwKey := 0, asids := [], queues := [], order := 0, acl := [], pinq := [], cpart := [], regmap := [], saves := [],
    keys := [], wide := .reset, pageins := [], raises := [], alarms := [], alarmOn := [], alarmClear := [], events := [],
    drops := 0, hostwin := [], mbox := ⟨[], [], false, false⟩, msixEn := [], msixMask := [], msixPend := [],
    msixSent := [], toHost := [], toPeer := [], mgmtWait := [], badLinks := [], badPorts := [], safeDevs := [] }

/-- The first visits of the rings, in the cycle of power-up (R179, R180). -/
def firstVisits : List Todo :=
  ((upFrom 0 8).map fun k => .ev (.ringVisit k 0)) ++ (upFrom 0 4).map fun r => .ev (.rowRingVisit r 0)

/-- The package right after reset: nothing admitted, nothing in flight, the self-test not yet run (R462). -/
def State.reset : State :=
  { mem := [], marks := [], gaps := [], cores := (upFrom 0 64).map Core.reset, dies := List.replicate 8 .reset,
    stks := List.replicate 16 .reset, rows := List.replicate 4 ⟨4096, 0, 0, 0⟩, scores := List.replicate 64 .reset,
    ctl := .reset, launches := [], nextLaunch := 1, accs := [], colls := [], penRels := [],
    agenda := .ev (.powerUp none) :: firstVisits,
    turn := .idle, clock := 0, nextId := 0, stamp := 0, ticket := 0, walkLost := false,
    walks := [], penPhase := [], yard := ⟨[], []⟩ }

end Sys2Proof.Machine
end

