-- ==== Sys2Proof/Machine/Mem.lean ====
section
/-! DEFINITION. Physical addresses (R17 to R21) and the memory of the stacks as the home slice reads and writes it: bytes, poison
marks (R149), encryption (R266), bytes dropped by DISCARD (R282), dirty bits (R456). -/

namespace Sys2Proof.Machine

/-! ### The parts of the state -/

def State.core (s : State) (c : Nat) : Core := lget s.cores c (Core.reset c)
def State.setCore (s : State) (c : Nat) (f : Core → Core) : State := { s with cores := lmod s.cores c f }
def State.die (s : State) (k : Nat) : Die := lget s.dies k Die.reset
def State.setDie (s : State) (k : Nat) (f : Die → Die) : State := { s with dies := lmod s.dies k f }
def State.stack (s : State) (k : Nat) : Stack := lget s.stks k Stack.reset
def State.setStack (s : State) (k : Nat) (f : Stack → Stack) : State := { s with stks := lmod s.stks k f }
/-- The partition that a core's CPART entry names (R358). -/
def Control.cpart? (k : Control) (c : Nat) : Option Nat := (mget? k.cpart c).bind fun e => if e.1 then some e.2 else none

def State.score (s : State) (n : Nat) : SCore := lget s.scores n SCore.reset
def State.setScore (s : State) (n : Nat) (f : SCore → SCore) : State := { s with scores := lmod s.scores n f }
def State.setCtl (s : State) (f : Control → Control) : State := { s with ctl := f s.ctl }

/-- The compute die of a core (R11). -/
def dieOf (c : Nat) : Nat := c / 8

/-- The ASID record of an ASID (R254). -/
def State.asidRec (s : State) (a : Nat) : AsidRec := mget s.ctl.asids a ⟨0, 0, false, false, 0, false, 0⟩
def State.setAsid (s : State) (a : Nat) (f : AsidRec → AsidRec) : State :=
  s.setCtl fun k => { k with asids := mset k.asids a (f (s.asidRec a)) }

/-! ### Physical addresses -/

/-- The region of a physical address (R17); an address above 44 bits is reserved. -/
def regionOf (pa : Nat) : Nat := if 2 ^ 44 ≤ pa then 3 else fld pa 43 42

/-- Where a memory address lies: stack index × 2^36 + offset within the stack (R18, R19); none outside memory. -/
def linOf (pa : Nat) : Option Nat :=
  if regionOf pa = 0 ∧ fld pa 41 40 = 0 then
    let st := fld pa 15 12 ^^^ fld pa 19 16 ^^^ fld pa 23 20 ^^^ fld pa 27 24
    some (st * 2 ^ 36 + fld pa 39 16 * 2 ^ 12 + fld pa 11 0)
  else if regionOf pa = 1 ∧ fld pa 41 40 = 0 then some (fld pa 39 0)
  else none

/-- The home stack of a memory place (R18). -/
def homeOf (lin : Nat) : Nat := lin / 2 ^ 36

/-- The block that a register address selects (R20). -/
def blockOf (pa : Nat) : Option Block :=
  let b := fld pa 41 36
  if b < 0x10 then some (.base b) else if b < 0x18 then some (.die (b - 0x10)) else if b = 0x18 then some .control else none

/-! ### Bytes -/

/-- The canonical form of memory: addresses strictly rising and below 2^40, no entry equal to an unlisted byte (zero). -/
def memWf (m : List Host.Cell) : Bool := risingFrom 0 m && m.all fun c => c.2 != 0 && decide (c.1 < 2 ^ 40)

/-- A byte of stack memory; a byte that nothing has written reads as zero. -/
def memGet (m : List Host.Cell) (a : Nat) : Byte := mget m a 0

/-- Write one byte; an address past the last stack changes nothing. -/
def memSet (m : List Host.Cell) (a : Nat) (b : Byte) : List Host.Cell := if a < 2 ^ 40 then msetD 0 m a b else m

/-- `n` bytes from address `a`. -/
def memRead (m : List Host.Cell) (a n : Nat) : List Byte := (upFrom a n).map (memGet m)

/-- Write bytes from address `a`. -/
def memWrite (m : List Host.Cell) : Nat → List Byte → List Host.Cell
  | _, [] => m
  | a, b :: bs => memWrite (memSet m a b) (a + 1) bs

/-! ### Poison marks -/

/-- Insert into a strictly rising list of numbers. -/
def markIn : List Nat → Nat → List Nat
  | [], x => [x]
  | y :: ys, x => if x < y then x :: y :: ys else if x = y then y :: ys else y :: markIn ys x

/-- Remove from a strictly rising list of numbers. -/
def markOut (l : List Nat) (x : Nat) : List Nat := l.filter fun y => y != x

/-- The 32-byte sectors that [a, a + n) touches. -/
def sectorsOf (a n : Nat) : List Nat := if n = 0 then [] else upFrom (a / 32) ((a + n - 1) / 32 + 1 - a / 32)

/-- Marks after a store of [a, a + n) whose byte i comes from a poisoned source when `bad i` (R149): a touched sector that
receives a poisoned byte is marked; one wholly written by clean bytes is cleared. -/
def marksStore (gran : Nat) (marks : List Nat) (a : Nat) (pois : List Bool) : List Nat :=
  let n := pois.length
  let secs := if n = 0 then [] else upFrom (a / gran) ((a + n - 1) / gran + 1 - a / gran)
  secs.foldl (fun ms sec =>
    let lo := max a (sec * gran)
    let hi := min (a + n) (sec * gran + gran)
    let part := (pois.drop (lo - a)).take (hi - lo)
    if part.any id then markIn ms sec
    else if hi - lo = gran then markOut ms sec
    else ms) marks

/-! ### Bytes dropped by DISCARD -/

/-- Cut [lo, hi) out of the dropped intervals: the bytes are stored to (R282). -/
def gapsCut (gs : List Gap) (lo hi : Nat) : List Gap :=
  gs.foldr (fun g acc =>
    if hi ≤ g.lo ∨ g.hi ≤ lo then g :: acc
    else (if g.lo < lo then [⟨g.lo, lo⟩] else []) ++ (if hi < g.hi then [⟨hi, g.hi⟩] else []) ++ acc) []

def inGap (gs : List Gap) (a : Nat) : Bool := gs.any fun g => decide (g.lo ≤ a) && decide (a < g.hi)

/-! ### Encryption -/

/-- The key bytes of a slot that is LOADED (R265). -/
def State.keyOf (s : State) (slot : Nat) : Option KeySlot := mget? s.ctl.keys slot

/-- The tweak of the line at a memory place (R266). -/
def tweakOf (lin : Nat) : Nat := 2 ^ 42 + lin / 128 * 128

/-- Whether the stacks refuse this key slot to an agent of this world (R266). -/
def State.keyRefused (s : State) (slot : Nat) (secAgent : Bool) : Bool :=
  if slot = 0 then false
  else match s.keyOf slot with
    | none => true
    | some k => k.sec && !secAgent

/-- The 128 plain bytes of the line that holds place `lin`, under a key slot. -/
def State.lineRead (s : State) (lin slot : Nat) : List Byte :=
  let raw := memRead s.mem (lin / 128 * 128) 128
  if slot = 0 then raw
  else match s.keyOf slot with
    | none => raw
    | some k => xts false k.key (tweakOf lin) raw

/-! ### The home slice -/

/-- Replace bytes of a list from position i. -/
def patch (l : List Byte) (i : Nat) (bs : List Byte) : List Byte := l.take i ++ bs ++ l.drop (i + bs.length)

/-- Read [lin, lin + n), inside one line, at the home slice: the bytes, and whether a poisoned sector supplied one
(R149, R266, R282). A byte dropped by DISCARD reads as it was or as zero. -/
def State.homeRead (s : State) (lin n slot : Nat) : List Byte × List Bool :=
  let line := if slot = 0 then memRead s.mem lin n else ((s.lineRead lin slot).drop (lin % 128)).take n
  let gap (i : Nat) : Bool := inGap s.gaps (lin + i) && Config.dropped s.ticket (lin + i)
  let bad (i : Nat) : Bool := s.marks.contains ((lin + i) / 32)
  if s.gaps.isEmpty && s.marks.isEmpty then (line, List.replicate n false)
  else ((line.zip (upFrom 0 n)).map (fun p => if gap p.2 then 0 else p.1),
        (upFrom 0 n).map fun i => bad i && !gap i)

/-- Put bytes inside one line into the stack's memory; `pois` says byte by byte whether a poisoned source supplied it. Under an EMPTY
key slot the stack refuses the write (R266). -/
def State.homePut (s : State) (lin slot : Nat) (bs : List Byte) (pois : List Bool) : State :=
  let n := bs.length
  let mem' :=
    if slot = 0 then memWrite s.mem lin bs
    else match s.keyOf slot with
      | none => s.mem
      | some k =>
        let line := patch (s.lineRead lin slot) (lin % 128) bs
        memWrite s.mem (lin / 128 * 128) (xts true k.key (tweakOf lin) line)
  let u := fld lin 35 16
  if slot ≠ 0 ∧ (s.keyOf slot).isNone then s
  else
    { s with mem := mem', marks := marksStore 32 s.marks lin pois, gaps := gapsCut s.gaps lin (lin + n),
             stks := lmod s.stks (homeOf lin) fun k => { k with clean := markOut k.clean u } }

/-- Whether the 64 KiB unit of a place is frozen by a snapshot, so that writes to it are held (R457). -/
def State.frozenAt (s : State) (lin : Nat) : Bool := (s.stack (homeOf lin)).frozen.contains (fld lin 35 16)

/-- Read an aligned 8-byte word of local memory by physical address, unencrypted; none outside memory or poisoned. -/
def State.readWord? (s : State) (pa : Nat) : Option Nat :=
  match linOf pa with
  | none => none
  | some lin =>
    let r := s.homeRead lin 8 0
    if r.2.any id then none else some (numOf r.1)

/-! ### Event records (R454, R455, R432, R477) -/

/-- The destination of messages for the group's bridge device, in `Control.toPeer`. -/
def bridgeDev : Nat := 0xFFE

/-- An event record as its 32 bytes. -/
def evBytes (r : EvRec) : List Byte :=
  bytesOf 8 r.w0.toNat ++ bytesOf 8 r.ticks.toNat ++ bytesOf 8 r.addr.toNat ++ bytesOf 8 r.detail.toNat

/-- Raise an MSI-X vector: sent when its entry is enabled and unmasked, held pending when masked (R432). -/
def Control.msix (k : Control) (v : Nat) : Control :=
  if !k.bridge || !k.msixEn.contains v then k
  else if k.msixMask.contains v then { k with msixPend := markIn k.msixPend v }
  else { k with msixSent := k.msixSent ++ [v] }

/-- Append a record to the ring of 4,096, or drop and count it (R454, R432). -/
def Control.appendRec (k : Control) (r : EvRec) : Control :=
  if 4096 ≤ k.events.length then Control.msix { k with drops := k.drops + 1 } 1
  else
    let k' := { k with events := k.events ++ [r] }
    if k.events.isEmpty then k'.msix 1 else k'

/-- A record of this device, with its copy for the bridge device (R454, R477). -/
def State.event (s : State) (typ code part ukind unit ticks addr detail : Nat) : State :=
  let w0 := typ * 2 ^ 56 + code % 256 * 2 ^ 48 + s.ctl.devnum % 4096 * 2 ^ 36 + part % 64 * 2 ^ 30 + ukind % 8 * 2 ^ 27
    + unit % 2048 * 2 ^ 16
  let r : EvRec := ⟨BitVec.ofNat 64 w0, BitVec.ofNat 64 ticks, BitVec.ofNat 64 addr, BitVec.ofNat 64 detail⟩
  s.setCtl fun k =>
    let k' := k.appendRec r
    if k.bridge then k' else { k' with toPeer := k'.toPeer ++ [(bridgeDev, evBytes r)] }

/-! ### Snapshots (R456 to R458) -/

/-- Count an uncorrectable error at a stack (R453). -/
def State.stackUncorr (s : State) (k : Nat) : State := s.setStack k fun t => { t with uncorr := t.uncorr + 1 }

/-- An atomic finds its sector marked: it writes nothing, the stack counts the error, and the whole line is marked (R354). -/
def State.atomFail (s : State) (lin : Nat) : State :=
  let s1 := s.stackUncorr (homeOf lin)
  { s1 with marks := (upFrom (lin / 128 * 4) 4).foldl markIn s1.marks }

/-- A stream write of a snapshot failed: the units not yet copied become dirty and unfrozen, and STATE becomes FAILED
(R458). -/
def State.snapFail (s : State) (k : Nat) : State :=
  let st := s.stack k
  (s.setStack k fun t =>
    { t with snapSt := .failed, clean := t.clean.filter (fun u => !t.frozen.contains u), frozen := [] }).event
    9 1 0 2 k st.ticks 0 st.snapSeq.toNat

/-- The places of a physical range, cut at lines; none when a byte lies outside memory. -/
def linPieces (pa : Nat) (bs : List Byte) (ms : List Bool) : Nat → Option (List (Nat × List Byte × List Bool))
  | 0 => some []
  | fuel + 1 =>
    if bs.isEmpty then some []
    else match linOf pa with
      | none => none
      | some lin =>
        let n := min bs.length (128 - lin % 128)
        match linPieces (pa + n) (bs.drop n) (ms.drop n) fuel with
        | none => none
        | some ps => some ((lin, bs.take n, ms.take n) :: ps)

/-- The header and the bytes of a frozen unit, with their marks (R458). -/
def State.snapImage (s : State) (k u : Nat) : List Byte × List Bool :=
  let base := k * 2 ^ 36 + u * 2 ^ 16
  (bytesOf 4 (s.stack k).snapSeq.toNat ++ [BitVec.ofNat 8 k] ++ bytesOf 3 0 ++ bytesOf 4 u ++ bytesOf 52 0 ++ memRead s.mem base 65536,
   List.replicate 64 false ++ (upFrom 0 65536).map fun i => s.marks.contains ((base + i) / 32))

/-- A frozen unit has been copied; after the last one the snapshot is over (R457). -/
def State.snapDone (s : State) (k u : Nat) : State :=
  let st := s.stack k
  let last := (markOut st.frozen u).isEmpty
  let s' := s.setStack k fun t =>
    { t with frozen := markOut t.frozen u, snapCopied := t.snapCopied + 1, snapSt := if last then .idle else t.snapSt }
  if last then s'.event 9 0 0 2 k st.ticks 0 st.snapSeq.toNat else s'

/-- Copy a frozen unit to the stream (R458), `put` writing each piece of it. A stream outside the memory of this package that
works fails; one on another device is out of the model's sight. -/
def State.snapOne (put : State → Nat → List Byte → List Bool → State) (s : State) (k u : Nat) : State :=
  let st := s.stack k
  if st.snapDev = 0xFFF ∨ st.snapDev = s.ctl.devnum then
    let img := s.snapImage k u
    match linPieces (st.snapDst.toNat + 65600 * st.snapCopied) img.1 img.2 1100 with
    | none => s.snapFail k
    | some ps =>
      if ps.all fun p => (s.stack (homeOf p.1)).alive then (ps.foldl (fun s p => put s p.1 p.2.1 p.2.2) s).snapDone k u
      else s.snapFail k
  else if 2 ^ 44 ≤ st.snapDst.toNat + 65600 * st.snapCopied then s.snapFail k
  else s.snapDone k u

/-- Write at a home slice. A write to a frozen unit is held until the unit has been copied, so the copy comes first
(R457); `fuel` bounds the chain of stacks whose copies land in one another's frozen units. -/
def State.homeWriteF : Nat → State → Nat → Nat → List Byte → List Bool → State
  | 0, s, lin, slot, bs, pois => s.homePut lin slot bs pois
  | fuel + 1, s, lin, slot, bs, pois =>
    let u := fld lin 35 16
    if !(s.stack (homeOf lin)).frozen.contains u then s.homePut lin slot bs pois
    else
      (State.snapOne (fun s p bs ms => State.homeWriteF fuel s p 0 bs ms) s (homeOf lin) u).homePut lin slot bs pois

def State.homeWrite (s : State) (lin slot : Nat) (bs : List Byte) (pois : List Bool) : State :=
  State.homeWriteF 17 s lin slot bs pois

/-! ### Caches -/

/-- The copy of a line in an L1 or a die cache, unless replacement has taken it (R267). -/
def cacheGet (cache : List (Nat × Copy)) (ticket line : Nat) (secAgent : Bool) (key : Nat) : Option Copy :=
  match mget? cache line with
  | none => none
  | some c => if Config.evicted ticket line && c.dirty == 0 then none
      else if c.sec && !secAgent then none
      else if c.key != key then none
      else some c

/-- Bytes i … i + n of a held line, with their poison marks by sector. -/
def Copy.read (c : Copy) (i n : Nat) : List Byte × List Bool :=
  ((c.bytes.drop i).take n, (upFrom i n).map fun j => bitAt c.marks (j / 32))

/-- Update a held line (R267). -/
def Copy.write (c : Copy) (i : Nat) (bs : List Byte) (pois : List Bool) (dirty : Bool) : Copy :=
  let ms := marksStore 32 ((upFrom 0 4).filter fun j => bitAt c.marks j) i pois
  { c with bytes := patch c.bytes i bs, marks := (ms.map fun j => 2 ^ j).sum,
           dirty := if dirty then c.dirty ||| ((2 ^ bs.length - 1) * 2 ^ i) else c.dirty }

/-- Write the dirty bytes of a held line back to its home, byte by byte (R267, R271). -/
def State.writeBack (s : State) (line : Nat) (c : Copy) : State :=
  match linOf (line * 128) with
  | none => s
  | some lin =>
    if c.dirty == 0 then s
    else if c.dirty == 2 ^ 128 - 1 then s.homeWrite lin c.key c.bytes ((upFrom 0 128).map fun i => bitAt c.marks (i / 32))
    else (upFrom 0 128).foldl (fun s i =>
      if bitAt c.dirty i then s.homeWrite (lin + i) c.key [lget c.bytes i 0] [bitAt c.marks (i / 32)] else s) s

/-- The bytes of a line at home, sector by sector, and the marks of its sectors. A dropped sector that was marked reads as zeros
without its mark or as it was with it (R282). -/
def State.lineHome (s : State) (lin key : Nat) : List Byte × List Bool :=
  let base := lin / 128 * 128
  let r := s.homeRead base 128 key
  let sec (j : Nat) : List Byte × Bool :=
    let marked := s.marks.contains (base / 32 + j)
    if !marked then ((r.1.drop (32 * j)).take 32, false)
    else if Config.dropped s.ticket (base + 32 * j) && (upFrom (base + 32 * j) 32).all (inGap s.gaps) then (List.replicate 32 0, false)
    else (((if key = 0 then memRead s.mem base 128 else s.lineRead base key).drop (32 * j)).take 32, true)
  let secs := (upFrom 0 4).map sec
  (secs.flatMap fun q => q.1, secs.map fun q => q.2)

/-- Bring a line into a die cache from its home slice. -/
def State.fetchCopy (s : State) (lin key : Nat) (sec stable : Bool) (launch : Nat) : Copy :=
  let r := s.lineHome lin key
  { stamp := s.stamp, upd := s.stamp, bytes := r.1, marks := ((upFrom 0 4).map fun j => if lget r.2 j false then 2 ^ j else 0).sum,
    dirty := 0, key := key, sec := sec, stable := stable, borrowed := false, launches := [launch] }

/-- Recall a line borrowed by a die cache before an access elsewhere is performed (R353). -/
def State.recallLine (s : State) (k line : Nat) : State :=
  match mget? (s.die k).dc line with
  | none => s
  | some c =>
    if c.borrowed then
      let e := fld (line * 128) 14 7 ^^^ fld (line * 128) 22 15
      (s.writeBack line c).setDie k fun d =>
        { d with dc := mset d.dc line { c with borrowed := false, dirty := 0 },
                 predictor := mset d.predictor e (min 3 (mget d.predictor e 0 + 1)) }
    else s

/-- Recall a line from every die but `but` that has borrowed it. -/
def State.recallAll (s : State) (line : Nat) (but : Option Nat) : State :=
  (upFrom 0 8).foldl (fun s k => if but = some k then s else s.recallLine k line) s

/-- The interleaved address of a memory place (R18, R19). -/
def intOf (lin : Nat) : Nat :=
  let o := lin % 2 ^ 36
  let hi := fld o 35 12 * 2 ^ 16
  hi + (homeOf lin ^^^ fld hi 19 16 ^^^ fld hi 23 20 ^^^ fld hi 27 24) * 2 ^ 12 + fld o 11 0

/-- Recall the line of a memory place from every die that has borrowed it (R353). -/
def State.recallLin (s : State) (lin : Nat) (but : Option Nat) : State := s.recallAll (intOf lin / 128) but

/-- An access at the home slice by an agent other than die `but`: a borrowed line is recalled first (R353). -/
def State.readHome (s : State) (lin n slot : Nat) (but : Option Nat) : State × List Byte × List Bool :=
  let s' := s.recallLin lin but
  let r := s'.homeRead lin n slot
  (s', r.1, r.2)

def State.writeHome (s : State) (lin slot : Nat) (bs : List Byte) (pois : List Bool) (but : Option Nat) : State :=
  (s.recallLin lin but).homeWrite lin slot bs pois

end Sys2Proof.Machine
end

