-- ==== Sys2Proof/Machine/Xlate.lean ====
section
/-! DEFINITION. Translation: page-table entries, walks, caches of translations and the table that decides an access
(R245 to R258). -/

namespace Sys2Proof.Machine

/-! ### Fault classes (R435) -/

def eIllegal : Nat := 0x01
def ePriv : Nat := 0x02
def eTag : Nat := 0x03
def eAlign : Nat := 0x04
def eInvalid : Nat := 0x05
def eAbsent : Nat := 0x06
def ePerm : Nat := 0x07
def eDetached : Nat := 0x08
def eManger : Nat := 0x09
def eRole : Nat := 0x0A
def eStall : Nat := 0x0B
def eWatchdog : Nat := 0x0C
def eRemote : Nat := 0x0D
def eTrap : Nat := 0x0E
def eBrkpt : Nat := 0x0F
def eFrame : Nat := 0x10

/-! ### Entries (R246, R247) -/

def pteV (e : Nat) : Bool := bitAt e 0
def pteA (e : Nat) : Bool := bitAt e 1
def pteR (e : Nat) : Bool := bitAt e 2
def pteW (e : Nat) : Bool := bitAt e 3
def pteX (e : Nat) : Bool := bitAt e 4
def pteReach (e : Nat) : Nat := fld e 6 5
def pteS (e : Nat) : Bool := bitAt e 7
def pteD (e : Nat) : Bool := bitAt e 8
def pteAC (e : Nat) : Bool := bitAt e 9
def pteSec (e : Nat) : Bool := bitAt e 10
def pteRun (e : Nat) : Bool := bitAt e 11
def pteKey (e : Nat) : Nat := fld e 23 12
def pteDev (e : Nat) : Nat := fld e 35 24
def pteFrame (e : Nat) : Nat := fld e 63 36

/-- V = 1 and at least one of R, W, X. -/
def pteLeaf (e : Nat) : Bool := pteV e && (pteR e || pteW e || pteX e)

/-- Whether a device number means the local package (R22). -/
def State.localDev (s : State) (dev : Nat) : Bool := dev == 0xFFF || dev == s.ctl.devnum

/-- The checks that R248 makes on a leaf of level 3, or of level 2 when `big`. The key slot is looked up in this
package's table, so it is judged for local frames only. -/
def State.leafOk (s : State) (big : Bool) (e : Nat) : Bool :=
  let dev := pteDev e
  let here := s.localDev dev
  !(pteW e && !pteR e) && !pteA e
    && !(big && (pteRun e || pteFrame e % 2 ^ 13 != 0))
    && (here || fld dev 11 8 == 0) && (here || pteReach e == 3)
    && (!here || pteKey e == 0 || match s.keyOf (pteKey e) with
        | none => false
        | some k => !(k.sec && !pteSec e))

/-- A table pointer that R246 allows: bits [35:1] zero, frame in memory. -/
def pointerOk (e : Nat) : Bool := fld e 35 1 == 0 && (linOf (pteFrame e * 2 ^ 16)).isSome

/-! ### Walks -/

/-- What a walk finds: a fault of R248 or an invalid entry, a non-resident entry, or a translation with the memory place
of its leaf. -/
inductive WRes where
  | invalid
  | absent
  | leaf (x : Xl) (place : Nat)
  deriving DecidableEq, Repr

/-- Read entry `i` of the table at a frame, at its home slice; none outside memory or from a poisoned sector, which the
home stack counts (R248, R257). The memory of a lost base die gives no entry, and the walk faults E_INVALID: the spec does not say what
it gives (DESIGN CHOICE, log 127). -/
def State.readPte (s : State) (frame i : Nat) : State × Option (Nat × Nat) :=
  match linOf (frame * 2 ^ 16 + 8 * i) with
  | none => (s, none)
  | some lin =>
    if !(s.stack (homeOf lin)).alive then (s, none)
    else
      let r := s.readHome lin 8 0 none
      if r.2.2.any id then (r.1.stackUncorr (homeOf lin), none) else (r.1, some (numOf r.2.1, lin))

/-- An entry with V = 0. -/
def wNotValid (e : Nat) : WRes := if pteA e then .absent else .invalid

/-- The third level of a walk (R248, R249). -/
def State.walk3 (s : State) (asid gen frame va : Nat) : State × WRes :=
  let i := fld va 28 16
  match s.readPte frame i with
  | (s, none) => (s, .invalid)
  | (s, some (e, lin)) =>
    if !pteV e then (s, wNotValid e)
    else if !pteLeaf e then (s, .invalid)
    else if !pteRun e then
      if s.leafOk false e then (s, .leaf ⟨asid, gen, va / 2 ^ 16, .page, e⟩ lin) else (s, .invalid)
    else
      match s.readPte frame (i / 32 * 32) with
      | (s, none) => (s, .invalid)
      | (s, some (e, lin)) =>
        if pteLeaf e && pteRun e && pteFrame e % 32 == 0 && s.leafOk false e then
          (s, .leaf ⟨asid, gen, va / 2 ^ 21, .run, e⟩ lin)
        else (s, .invalid)

/-- A walk of the tables of an ASID for an address below 2^55 (R245 to R250). It changes the state only by recalling
borrowed lines and by counting poisoned entries. -/
def State.walk (s : State) (asid va : Nat) : State × WRes :=
  let rec0 := s.asidRec asid
  match s.readPte rec0.root (fld va 54 42) with
  | (s, none) => (s, .invalid)
  | (s, some (e, _)) =>
    if !pteV e then (s, wNotValid e)
    else if pteLeaf e || !pointerOk e then (s, .invalid)
    else
      match s.readPte (pteFrame e) (fld va 41 29) with
      | (s, none) => (s, .invalid)
      | (s, some (e, lin)) =>
        if !pteV e then (s, wNotValid e)
        else if pteLeaf e then
          if s.leafOk true e then (s, .leaf ⟨asid, rec0.gen, va / 2 ^ 29, .big, e⟩ lin) else (s, .invalid)
        else if !pointerOk e then (s, .invalid)
        else s.walk3 asid rec0.gen (pteFrame e) va

/-- The leaf of the 64 KiB page that holds an address, under a translation (R249, R250). -/
def Xl.leafFor (x : Xl) (va : Nat) : Nat :=
  let add := match x.size with
    | .page => 0
    | .run => fld va 20 16
    | .big => fld va 28 16
  x.leaf + add * 2 ^ 36

/-- The physical address of an access through a leaf (R250). -/
def leafPa (leaf va : Nat) : Nat := pteFrame leaf * 2 ^ 16 + va % 2 ^ 16

/-! ### Caches of translations (R255) -/

/-- Whose caches a translation consults. -/
inductive Via where
  | thread (t : TRef)
  | engine (core : Nat)
  | score (n : Nat)
  | ctl
  deriving DecidableEq, Repr

/-- Whether a cached translation answers for an address. -/
def Xl.covers (x : Xl) (asid gen va : Nat) : Bool :=
  x.asid == asid && x.gen == gen &&
    (match x.size with
     | .page => x.vpn == va / 2 ^ 16
     | .run => x.vpn == va / 2 ^ 21
     | .big => x.vpn == va / 2 ^ 29)

/-- Look in one cache; replacement may have taken the entry (R255). -/
def tlbGet (tlb : List Xl) (ticket level asid gen va : Nat) : Option Xl :=
  match tlb.find? (fun x => x.covers asid gen va) with
  | none => none
  | some x => if Config.evicted ticket (level * 2 ^ 64 + va / 2 ^ 16) then none else some x

def tlbPut (tlb : List Xl) (cap : Nat) (x : Xl) : List Xl :=
  (x :: tlb.filter fun y => !(y.asid == x.asid && y.vpn == x.vpn && y.size == x.size)).take cap

/-- The thread of a reference. -/
def State.thread? (s : State) (t : TRef) : Option Thread :=
  match mget? (s.core t.core).ctx.warps t.warp with
  | none => none
  | some w => w.threads[t.lane]?

/-- Change a thread that is resident. -/
def State.setThread (s : State) (t : TRef) (f : Thread → Thread) : State :=
  s.setCore t.core fun c =>
    { c with ctx := { c.ctx with warps := mmod c.ctx.warps t.warp fun w => { w with threads := lmod w.threads t.lane f } } }

/-- The cached translation that an access finds first. -/
def State.xlFind (s : State) (v : Via) (asid va : Nat) : Option Xl :=
  let gen := (s.asidRec asid).gen
  let viaCore (c : Nat) : Option Xl :=
    match tlbGet (s.core c).tlb s.ticket 1 asid gen va with
    | some x => some x
    | none => tlbGet (s.die (dieOf c)).tlb s.ticket 2 asid gen va
  match v with
  | .thread t =>
    match (s.thread? t).bind (fun th => th.lastPage) with
    | some x => if x.covers asid gen va then some x else viaCore t.core
    | none => viaCore t.core
  | .engine c => viaCore c
  | .score n => tlbGet (s.score n).tlb s.ticket 3 asid gen va
  | .ctl => none

/-- A walk's result goes into each cache that the walk passed (R255). -/
def State.xlInstall (s : State) (v : Via) (x : Xl) : State :=
  let viaCore (c : Nat) : State :=
    (s.setCore c fun k => { k with tlb := tlbPut k.tlb 4096 x }).setDie (dieOf c) fun d =>
      { d with tlb := tlbPut d.tlb 65536 x }
  match v with
  | .thread t => viaCore t.core
  | .engine c => viaCore c
  | .score n => s.setScore n fun k => { k with tlb := tlbPut k.tlb 1024 x }
  | .ctl => s

/-- Each access that is performed installs its translation in its slot's last-page register (R255). -/
def State.xlTouch (s : State) (v : Via) (x : Xl) : State :=
  match v with
  | .thread t => s.setThread t fun th => { th with lastPage := some x }
  | _ => s

/-! ### The decision of an access (R251, R256, R257) -/

/-- What an access needs of a leaf. -/
inductive XKind where | load | store | atomic | fetch
  deriving DecidableEq, Repr

def XKind.writes : XKind → Bool
  | .store => true
  | .atomic => true
  | _ => false

/-- Step 5 of R251. -/
def XKind.permitted (k : XKind) (leaf : Nat) : Bool :=
  match k with
  | .load => pteR leaf
  | .store => pteW leaf && !pteS leaf
  | .atomic => pteR leaf && pteW leaf && !pteS leaf
  | .fetch => pteX leaf

/-- The outcome of translation: a fault class, a load on a non-resident page, or the page's leaf with the physical
address. -/
inductive XRes where
  | fault (cls : Nat)
  | absent
  | ok (leaf pa : Nat)
  deriving DecidableEq, Repr

def WRes.memo : WRes → Option (Option (Xl × Nat))
  | .invalid => none
  | .absent => some none
  | .leaf x place => some (some (x, place))

def WRes.ofMemo : Option (Option (Xl × Nat)) → WRes
  | none => .invalid
  | some none => .absent
  | some (some (x, place)) => .leaf x place

/-- The walk that serves a miss: the misses of one step for one page of an address space are merged into one walk (R257). -/
def State.walkOnce (s : State) (asid va : Nat) : State × WRes :=
  match s.walks.find? fun m => m.ticket == s.ticket && m.asid == asid && m.page == va / 2 ^ 16 with
  | some m => (s, .ofMemo m.found)
  | none =>
    let r := s.walk asid va
    ({ r.1 with walks := ⟨s.ticket, asid, va / 2 ^ 16, r.2.memo⟩ :: r.1.walks.filter fun m => m.ticket == s.ticket }, r.2)

/-- Decide an access on a walk; the walk's result is installed only when the access passes, after AC and D are set in
memory where they are clear (R257). Without the control die there is no walk, and what needs it does not happen (R25). -/
def State.xlWalk (s : State) (v : Via) (asid va : Nat) (k : XKind) (sec : Bool) : State × XRes :=
  if !s.ctl.alive then ({ s with walkLost := true }, .absent)
  else match s.walkOnce asid va with
  | (s, .invalid) => (s, .fault eInvalid)
  | (s, .absent) => (s, if k = .load then .absent else .fault eAbsent)
  | (s, .leaf x place) =>
    if pteSec x.leaf && !sec then (s, .fault ePerm)
    else if !k.permitted x.leaf then (s, .fault ePerm)
    else
      let l1 := if pteAC x.leaf then x.leaf else x.leaf + 2 ^ 9
      let l2 := if k.writes && !pteD l1 then l1 + 2 ^ 8 else l1
      let s1 := if l2 = x.leaf then s else s.writeHome place 0 (bytesOf 8 l2) (List.replicate 8 false) none
      let x2 := { x with leaf := l2 }
      let leaf := x2.leafFor va
      ((s1.xlInstall v x2).xlTouch v x2, .ok leaf (leafPa leaf va))

/-- Decide an access (R251): a cached translation answers unless step 5 would fault on it, or it is to be written and has
D = 0, when one fresh walk decides (R256). -/
def State.translate (s : State) (v : Via) (asid va : Nat) (k : XKind) (sec : Bool) : State × XRes :=
  if 2 ^ 55 ≤ va then (s, .fault eInvalid)
  else match s.xlFind v asid va with
    | none => s.xlWalk v asid va k sec
    | some x =>
      if k.writes && !pteD x.leaf then s.xlWalk v asid va k sec
      else if pteSec x.leaf && !sec then (s, .fault ePerm)
      else if k.permitted x.leaf then
        let leaf := x.leafFor va
        (s.xlTouch v x, .ok leaf (leafPa leaf va))
      else s.xlWalk v asid va k sec

/-! ### Regions (R17 to R21) -/

/-- The fault of an access whose target lies in this package, after translation: memory outside the stacks, the register
region at the wrong size, level or block, the reserved region (R18 to R21). -/
def regionFault (pa size : Nat) (sLevel atomic : Bool) : Option Nat :=
  match regionOf pa with
  | 0 => if (linOf pa).isSome then none else some eInvalid
  | 1 => if (linOf pa).isSome then none else some eInvalid
  | 2 =>
    if atomic then some eInvalid
    else if size != 8 then some eAlign
    else if !sLevel then some ePriv
    else if (blockOf pa).isNone then some eInvalid
    else none
  | _ => some eInvalid

end Sys2Proof.Machine
end

