-- ==== Sys2Proof/Machine/Regs.lean ====
section
/-! DEFINITION. The system registers of region 10 (R20): what each offset of each block reads as, which are confined to M level
(R74), and what a write of the control die or of a stack core does. -/

namespace Sys2Proof.Machine

/-- Whether [lo, lo + 8n) holds an offset. -/
def inRange (off lo n : Nat) : Bool := decide (lo ≤ off) && decide (off < lo + 8 * n)

/-- Offsets confined to M level: shed maps and FREE (R200), PINUSE and PINQ (R283), PATHSTAT (R426), ASID records (R254),
queue and completion registers (R357, R368), handler registers (R438), HOSTWIN (R433), CPART (R358). -/
def regConfined (b : Block) (off : Nat) : Bool :=
  match b with
  | .base _ => inRange off 0x5000 64 || inRange off 0x9000 32
  | .die _ => inRange off 0x4000 513
  | .control => inRange off 0x100000 65536 || inRange off 0x200000 64 || inRange off 0x300000 8192
      || inRange off 0x500000 131072 || inRange off 0x600100 4 || inRange off 0x610400 64

/-- A laser module's code (R397). -/
def laserCode : Laser → Nat
  | .off => 0
  | .on => 1
  | .failed => 2

/-- PATHSTAT (R426); `loop` for the loopback entry. -/
def pathStat (p : Path) (loop : Bool) : Nat :=
  let st := if loop then 3 else match p.st with
    | .down => 0
    | .up => 1
    | .restriping => 2
  p.replays * 2 ^ 48 + p.corrupt * 2 ^ 32 + p.inLanes * 2 ^ 16 + p.outLanes * 2 ^ 8 + b2n p.txPhase * 2 ^ 5
    + b2n p.both.isSome * 2 ^ 4 + st

/-- Lines pinned for a partition on a stack (R283). -/
def pinUse (k : Stack) (part : Nat) : Nat := (k.pins.filter fun p => p.2 == part).length

/-- The registers of a base die (R283, R319, R399, R426, R453, R456). -/
def State.baseReg (s : State) (k off : Nat) : Nat :=
  let t := s.stack k
  if inRange off 0x5000 64 then pinUse t ((off - 0x5000) / 8)
  else if off = 0x6000 then t.ftimeout
  else if off = 0x8000 then t.scBase * 2 ^ 22 + b2n t.scEn
  else if inRange off 0x8008 4 then
    let c := s.score (4 * k + (off - 0x8008) / 8)
    let parked := min 3 c.parked.length * 2 ^ 4
    match c.run with
    | none => parked
    | some i => i.launch % 2 ^ 16 * 2 ^ 48 + parked + (if i.sLevel then 2 else 1)
  else if inRange off 0x9000 32 then
    let p := (off - 0x9000) / 8
    let dn := s.ctl.devnum
    pathStat (lget t.paths p .reset) (p == dn % 16 || p == 16 + fld dn 7 4)
  else if off = 0xA000 then t.poisonCnt.toNat
  else if off = 0xA008 then t.uncorr.toNat * 2 ^ 32 + t.corr.toNat
  else if off = 0xB000 then
    t.snapSeq.toNat * 2 ^ 32 + t.snapDev * 2 ^ 20 + (match t.snapSt with | .idle => 0 | .copying => 1 | .failed => 2)
  else if off = 0xB008 then t.snapLast * 2 ^ 32 + t.snapFirst
  else if off = 0xB010 then t.snapDst.toNat
  else if off = 0xB018 then t.frozen.length
  else 0

/-- A shed map entry as a register (R200). -/
def shEntryVal (e : ShEntry) : Nat :=
  e.lid % 2 ^ 16 * 2 ^ 32 + 2 ^ 31 + (match e.st with | .empty => 0 | .attached => 1 | .draining => 2) * 2 ^ 29
    + b2n e.inc * 2 ^ 28 + b2n e.sec * 2 ^ 27 + (if e.st = .empty then 0 else e.shed % 512) * 2 ^ 16

/-- Sheds in the pool of a die (R198, R200). -/
def shedsFree (d : Die) : Nat := 512 - (d.shedMap.filter fun e => e.2.st != .empty).length

/-- The registers of a compute die (R178, R200, R319, R346, R453). -/
def State.dieReg (s : State) (k off : Nat) : Nat :=
  let d := s.die k
  let r := d.ring
  if off = 0x2000 then r.nextRowpart * 2 ^ 32 + r.nextAllow
  else if off = 0x2008 then b2n r.nextMassen * 2 ^ 32 + r.nextStep
  else if off = 0x2010 then r.nextCore * 2 ^ 40 + min r.limit (2 ^ 18 - 1) * 2 ^ 20 + min r.prevSpent (2 ^ 18 - 1)
  else if inRange off 0x4000 512 then
    match mget? d.shedMap ((off - 0x4000) / 8) with
    | none => 0
    | some e => shEntryVal e
  else if off = 0x5000 then shedsFree d
  else if off = 0x6000 then d.ftimeout
  else if off = 0x7000 then d.watchdog
  else if off = 0x7008 then b2n d.borrow
  else if inRange off 0xA000 32 then
    let c := s.core (8 * k + (off - 0xA000) / 32)
    match (off - 0xA000) % 32 / 8 with
    | 0 => c.poisonCnt.toNat
    | 1 => c.mismatch.toNat
    | 2 => c.uncorr.toNat * 2 ^ 32 + c.corr.toNat
    | _ => 0
  else 0

/-- The regulator that REGMAPLO and REGMAPHI give a core (R193). -/
def Control.regOf (k : Control) (core : Nat) : Nat := mget k.regmap core (core / 16)

/-- 32 regulator fields from core `lo` (R193). -/
def Control.regWord (k : Control) (lo : Nat) : Nat :=
  ((upFrom 0 32).map fun i => k.regOf (lo + i) % 4 * 2 ^ (2 * i)).sum

/-- A launch queue's registers; the queue of a partition has number 64 × partition + queue. -/
def Control.queueOf (k : Control) (n : Nat) : Queue := mget k.queues n ⟨false, 0, 0, 0, 0, [], 0, 0, 0⟩

def queueVal (q : Queue) : Nat :=
  b2n q.en * 2 ^ 48 + q.asid * 2 ^ 32 + q.lastst * 2 ^ 25 + q.waiting.length * 2 ^ 16 + q.refused

def asidVal (a : AsidRec) : Nat := a.root * 2 ^ 36 + a.gen * 2 ^ 20 + b2n a.sec * 2 + b2n a.v

def saveVal (r : SaveReg) : Nat := r.base * 2 ^ 36 + r.key * 2 ^ 24 + b2n r.sec * 2 + b2n r.v

/-- BOOTSTAT (R464). -/
def Control.bootStat (k : Control) : Nat :=
  k.bootDetail * 2 ^ 48 + k.bootUkind * 2 ^ 45 + k.bootUnit * 2 ^ 34 + k.bootCode * 2 ^ 16 + k.stage * 2 ^ 12
    + (match k.boot with | .running => 0 | .ready => 1 | .safe => 2)

/-- FABCFG (R427). -/
def Control.fabCfg (k : Control) : Nat := b2n k.bridge * 2 ^ 12 + k.devnum

/-- The registers of the control die (R193, R254, R283, R357 to R359, R368, R427, R433, R438, R449, R453, R464, R465). -/
def State.ctlReg (s : State) (off : Nat) : Nat :=
  let k := s.ctl
  if off = 0x3000 then k.regWord 0
  else if off = 0x3008 then k.regWord 32
  else if inRange off 0x100000 65536 then asidVal (s.asidRec ((off - 0x100000) / 8))
  else if inRange off 0x200000 64 then mget k.pinq ((off - 0x200000) / 8) 0
  else if inRange off 0x300000 4096 then queueVal (k.queueOf ((off - 0x300000) / 8))
  else if inRange off 0x308000 4096 then
    let q := k.queueOf ((off - 0x308000) / 8)
    q.compSeq * 2 ^ 32 + q.compFcode * 2 ^ 16 + q.compStatus
  else if inRange off 0x310000 1024 then (mget k.acl ((off - 0x310000) / 8) (0 : Dword)).toNat
  else if inRange off 0x500000 131072 then
    let a := s.asidRec ((off - 0x500000) / 16)
    if off % 16 = 0 then a.entry + b2n a.en else a.frame
  else if off = 0x600000 then k.fabCfg
  else if inRange off 0x600100 4 then (mget k.hostwin ((off - 0x600100) / 8) (0 : Dword)).toNat
  else if inRange off 0x610000 4 then (mget k.alarms ((off - 0x610000) / 8) (0 : Word)).toNat
  else if inRange off 0x610100 64 then saveVal (mget k.saves ((off - 0x610100) / 8) ⟨0, 0, false, false⟩)
  else if inRange off 0x610400 64 then
    let e := mget k.cpart ((off - 0x610400) / 8) (false, 0)
    b2n e.1 * 64 + e.2
  else if off = 0x620000 then k.bootStat
  else if inRange off 0x621000 32 then numOf ((k.mbox.req.drop (off - 0x621000)).take 8)
  else if inRange off 0x621100 32 then numOf ((k.mbox.ans.drop (off - 0x621100)).take 8)
  else if off = 0x621200 then b2n k.mbox.done * 4 + b2n k.mbox.busy * 2
  else 0

/-- What a register reads as (R20: an offset that no chapter assigns reads zero). -/
def State.regValue (s : State) (b : Block) (off : Nat) : Nat :=
  match b with
  | .base k => s.baseReg k off
  | .die k => s.dieReg k off
  | .control => s.ctlReg off

/-! ### Writes -/

/-- Whether a core belongs to a partition, or holds a context of it. -/
def State.partLives (s : State) (p : Nat) : Bool :=
  (upFrom 0 s.cores.length).any fun c =>
    s.ctl.cpart? c == some p || (s.core c).saved.any (fun x => x.1 == p) || (match (s.core c).twin with
      | .staged x => x.part == some p
      | .parked x => x.part == some p
      | .free => false)

/-- Pins end with their partition (R285): a partition ends when its last core goes to another and no context of it is left. The spec does
not say when a partition ends (DESIGN CHOICE, log 129). -/
def State.endParts (s old : State) : State :=
  let gone := ((upFrom 0 64).filterMap fun c => old.ctl.cpart? c).filter fun p => !s.partLives p
  if gone.isEmpty then s
  else { s with stks := s.stks.map fun t => { t with pins := t.pins.filter fun p => !gone.contains p.2 } }

/-- A core's regulator takes the value of REGMAP when the core has no resident warp (R193); under an alarm the core is in
half-column mode (R192). -/
def State.applyRegulator (s : State) (c : Nat) : State :=
  let r := s.ctl.regOf c
  if (s.core c).ctx.warps.isEmpty then
    s.setCore c fun k => { k with regulator := r, half := k.half || s.ctl.alarmOn.contains r }
  else s

/-- Post a generation raise of the control die itself (R254, R258). -/
def State.postRaise (s : State) (asid : Nat) : State :=
  { s.setCtl (fun k => { k with raises := k.raises ++ [⟨s.nextId, asid, [], 0, 0, 0⟩] }) with
    nextId := s.nextId + 1, agenda := s.agenda ++ [.ev (.generationRaise asid)] }

/-- Write an ASID record; a changed ROOT, or V from 0 to 1, raises GEN once after the write lands (R254). -/
def State.writeAsid (s : State) (a root : Nat) (sec v : Bool) : State :=
  let old := s.asidRec a
  let s' := s.setAsid a fun r => { r with root := root, sec := sec, v := v }
  if root ≠ old.root ∨ (v ∧ !old.v) then s'.postRaise a else s'

/-- The grooms set EN and ASID of a queue; sequence numbers start at 0 when EN is set (R357, R360). -/
def State.writeQueue (s : State) (n : Nat) (en : Bool) (asid : Nat) : State :=
  s.setCtl fun k =>
    let q := k.queueOf n
    let q' := { q with en := en, asid := asid, nextSeq := if en && !q.en then 0 else q.nextSeq }
    { k with queues := mset k.queues n q' }

/-- A write of the control die (R7, R178, R319, R346, R399, R453 …): reserved and RO fields ignore it. -/
def State.regWriteCtl (s : State) (b : Block) (off : Nat) (v : Nat) : State :=
  match b with
  | .base k =>
    if off = 0x6000 then s.setStack k fun t => { t with ftimeout := max 100 (fld v 23 0) }
    else if off = 0x8000 then s.setStack k fun t => { t with scBase := fld v 35 22, scEn := bitAt v 0 }
    else if off = 0xA000 then s.setStack k fun t => { t with poisonCnt := BitVec.ofNat 32 v }
    else if off = 0xA008 then
      s.setStack k fun t => { t with uncorr := BitVec.ofNat 32 (fld v 63 32), corr := BitVec.ofNat 32 v }
    else s
  | .die k =>
    let ring (f : Ring → Ring) : State := s.setDie k fun d => { d with ring := f d.ring }
    if off = 0x2000 then ring fun r => { r with nextAllow := fld v 17 0, nextRowpart := fld v 49 32 }
    else if off = 0x2008 then ring fun r => { r with nextStep := fld v 17 0, nextMassen := bitAt v 32 }
    else if off = 0x6000 then s.setDie k fun d => { d with ftimeout := max 100 (fld v 23 0) }
    else if off = 0x7000 then s.setDie k fun d => { d with watchdog := fld v 31 0 }
    else if off = 0x7008 then s.setDie k fun d => { d with borrow := bitAt v 0 }
    else if inRange off 0xA000 32 then
      let c := 8 * k + (off - 0xA000) / 32
      match (off - 0xA000) % 32 / 8 with
      | 0 => s.setCore c fun x => { x with poisonCnt := BitVec.ofNat 32 v }
      | 1 => s.setCore c fun x => { x with mismatch := BitVec.ofNat 32 v }
      | 2 => s.setCore c fun x => { x with uncorr := BitVec.ofNat 32 (fld v 63 32), corr := BitVec.ofNat 32 v }
      | _ => s
    else s
  | .control =>
    let regmap (lo : Nat) : State :=
      let s' := s.setCtl fun k =>
        { k with regmap := (upFrom 0 32).foldl (fun m i => mset m (lo + i) (fld v (2 * i + 1) (2 * i))) k.regmap }
      (upFrom lo 32).foldl (fun s c => s.applyRegulator c) s'
    if off = 0x3000 then regmap 0
    else if off = 0x3008 then regmap 32
    else if inRange off 0x100000 65536 then s.writeAsid ((off - 0x100000) / 8) (fld v 63 36) (bitAt v 1) (bitAt v 0)
    else if inRange off 0x200000 64 then
      s.setCtl fun k => { k with pinq := mset k.pinq ((off - 0x200000) / 8) (min 98304 (fld v 16 0)) }
    else if inRange off 0x300000 4096 then s.writeQueue ((off - 0x300000) / 8) (bitAt v 48) (fld v 47 32)
    else if inRange off 0x310000 1024 then
      -- [63] V, [59:40], [13:8], [6:0]; the other bits are reserved (R359)
      let w := fld v 63 63 * 2 ^ 63 + fld v 59 40 * 2 ^ 40 + fld v 13 8 * 2 ^ 8 + fld v 6 0
      s.setCtl fun k => { k with acl := mset k.acl ((off - 0x310000) / 8) (BitVec.ofNat 64 w) }
    else if inRange off 0x500000 131072 then
      s.setAsid ((off - 0x500000) / 16) fun a =>
        if off % 16 = 0 then { a with entry := fld v 54 3 * 8, en := bitAt v 0 } else { a with frame := fld v 54 24 * 2 ^ 24 }
    else if inRange off 0x600100 4 then
      let w := fld v 63 63 * 2 ^ 63 + fld v 55 36 * 2 ^ 36
      s.setCtl fun k => { k with hostwin := mset k.hostwin ((off - 0x600100) / 8) (BitVec.ofNat 64 w) }
    else if inRange off 0x610000 4 then
      s.setCtl fun k => { k with alarms := mset k.alarms ((off - 0x610000) / 8) (BitVec.ofNat 32 v) }
    else if inRange off 0x610100 64 then
      let r : SaveReg := ⟨fld v 63 36, fld v 35 24, bitAt v 1, bitAt v 0⟩
      s.setCtl fun k => { k with saves := mset k.saves ((off - 0x610100) / 8) r }
    else if inRange off 0x610400 64 then
      -- an entry changes only while its core holds no resident warp (R358)
      let c := (off - 0x610400) / 8
      if !(s.core c).ctx.warps.isEmpty then s
      else
        let s1 := s.setCtl fun k => { k with cpart := mset k.cpart c (bitAt v 6, fld v 5 0) }
        (s1.setCore c fun x => { x with ctx := { x.ctx with part := s1.ctl.cpart? c } }).endParts s
    else s

/-- An S-level instance of a Maelyon program (R373), as it starts on a stack core. The words of the program stand in the
configuration image, and its PC with them: nothing reads the PC of such an instance. -/
def Inst.maelyon (sv : Serve) (launch asid part : Nat) (sec : Bool) (started : Nat) : Inst :=
  { serve := some sv, launch := launch, idx := 0, ninst := 1, arg := 0, asid := asid, part := part, sec := sec, sLevel := true, pc := 0,
    g := [], gm := [], h := [], hm := [], k := [], loft := [], loftm := [], rerrCount := 0, rerrStat := 0, fails := [], late := [],
    pendG := [], pendH := [], marking := [], started := started, halting := false, slot := 0 }

/-- The stack core of a stack on which the control die starts an S-level instance: an enabled one of its choice (R402, R405). -/
def State.serveCore? (s : State) (k : Nat) : Option Nat :=
  let on := (upFrom (4 * k) 4).filter fun n => (s.stack k).alive && (s.score n).enabled
  on[Config.choice s.ticket (2 ^ 36 + k) % max 1 on.length]?

/-- The control die starts an S-level instance on a stack: it waits for its stack core no longer than a park takes (R374). -/
def State.startServe (s : State) (k : Nat) (i : Nat → Inst) : State :=
  match s.serveCore? k with
  | some n => { s.setScore n (fun c => { c with queue := c.queue ++ [i s.nextId] }) with nextId := s.nextId + 1 }
  | none => s

/-- Open a snapshot (R457): freeze every dirty unit of the range and clear its dirty bit; ignored while COPYING. An open
that freezes nothing is done at once; else the program's instance that copies them starts on the stack (R405). -/
def State.snapOpen (s : State) (k : Nat) : State :=
  let t := s.stack k
  if t.snapSt = .copying then s
  else
    let n := t.snapLast + 1 - t.snapFirst
    let units := (upFrom t.snapFirst n).filter fun u => !t.clean.contains u
    let s' := s.setStack k fun t =>
      { t with snapSeq := t.snapSeq + 1, frozen := units, clean := units.foldl markIn t.clean, snapCopied := 0,
               snapSt := if units.isEmpty then .idle else .copying }
    if units.isEmpty then s'.event 9 0 0 2 k t.ticks 0 (t.snapSeq + 1).toNat
    else s'.startServe k (Inst.maelyon .snapshot 0 0 0 true)

/-- A write of the mailbox's registers by an agent at S level (R465): the request, GO, and DONE, which a 1 clears. GO is ignored
while BUSY or DONE. -/
def State.mboxWrite (s : State) (off v : Nat) : State :=
  let m := s.ctl.mbox
  if inRange off 0x621000 32 then
    let req := m.req ++ List.replicate (256 - m.req.length) 0
    s.setCtl fun k => { k with mbox := { k.mbox with req := patch req (off - 0x621000) (bytesOf 8 v) } }
  else if off = 0x621200 then
    let s1 := if bitAt v 2 then s.setCtl fun k => { k with mbox := { k.mbox with done := false } } else s
    if bitAt v 0 && !m.busy && !m.done then { s1 with agenda := s1.agenda ++ [.ev .mailboxGo] } else s1
  else s

/-- A write of a thread at S level: of the registers open to it, the mailbox alone takes one. -/
def State.regWriteThread (s : State) (b : Block) (off v : Nat) : State :=
  match b with
  | .control => s.mboxWrite off v
  | _ => s

/-- A write of a stack core at S level: the snapshot registers take it (R456), and the mailbox. -/
def State.regWriteScore (s : State) (b : Block) (off : Nat) (v : Nat) : State :=
  match b with
  | .base k =>
    if off = 0xB000 then
      let s' := s.setStack k fun t => { t with snapDev := fld v 31 20 }
      if bitAt v 2 then s'.snapOpen k else s'
    else if off = 0xB008 then s.setStack k fun t => { t with snapLast := fld v 51 32, snapFirst := fld v 19 0 }
    else if off = 0xB010 then s.setStack k fun t => { t with snapDst := BitVec.ofNat 64 v }
    else s
  | .control => s.mboxWrite off v
  | .die _ => s

/-! ### Reachability (R414, R415, R429) -/

/-- The stack through which an address of another device is reached (R414). -/
def targetStack (pa : Nat) : Nat :=
  match regionOf pa with
  | 0 => fld pa 15 12 ^^^ fld pa 19 16 ^^^ fld pa 23 20 ^^^ fld pa 27 24
  | 1 => fld pa 39 36
  | _ => 0

/-- The first hops of the routes to a device (R415). -/
def firstHops (me dev : Nat) : List Nat :=
  let ga := fld me 7 4
  let pa := me % 16
  let gb := fld dev 7 4
  let pb := dev % 16
  if ga = gb then (upFrom 0 16).filter fun p => p != pa
  else if pa = pb then ((upFrom 0 16).filter fun g => g != ga).map fun g => 16 + g
  else [pb, 16 + gb]

/-- Whether a stack's own paths hold a device unreachable, or it has reported its safe state (R429). -/
def State.unreachable (s : State) (dev stack : Nat) : Bool :=
  s.ctl.safeDevs.contains dev
    || (firstHops s.ctl.devnum dev).all fun p => (lget (s.stack stack).paths p .reset).st == .down

/-! ### Routes (R412, R413, R415 to R417) -/

def State.path (s : State) (k p : Nat) : Path := lget (s.stack k).paths p .reset

def State.setPath (s : State) (k p : Nat) (f : Path → Path) : State :=
  s.setStack k fun t => { t with paths := lmod t.paths p f }

/-- The next value of an alternative route's intermediate position, or group: those that are one's own, the target's, down or
unreachable are skipped. -/
def State.nextVia (s : State) (k off start own target : Nat) (dev : Nat → Nat) : Option Nat :=
  ((upFrom 0 16).map fun i => (start + i) % 16).find? fun x =>
    x != own && x != target && (s.path k (off + x)).st != .down && !s.ctl.safeDevs.contains (dev x)

/-- The two routes to a device, each as its first path and its number of hops; the alternative with the value that its use
leaves for the next. -/
def State.routes (s : State) (k dev : Nat) : (Nat × Nat) × Option (Nat × Nat × Stack) :=
  let me := s.ctl.devnum
  let t := s.stack k
  let ga := fld me 7 4
  let pa := me % 16
  let gb := fld dev 7 4
  let pb := dev % 16
  if ga = gb then
    ((pb, 1), (s.nextVia k 0 t.viaX pa pb fun x => 16 * ga + x).map fun x => (x, 2, { t with viaX := (x + 1) % 16 }))
  else if pa = pb then
    ((16 + gb, 1), (s.nextVia k 16 t.viaY ga gb fun y => 16 * y + pa).map fun y => (16 + y, 2, { t with viaY := (y + 1) % 16 }))
  else ((pb, 2), some (16 + gb, 2, t))

/-- A packet's route, chosen when it is queued: the first path, and the stack with its rotation moved on. -/
def State.chooseRoute (s : State) (k dev : Nat) : Option (Nat × Stack) :=
  let t := s.stack k
  let up (p : Nat) : Bool := (s.path k p).st != .down
  let load (p hops : Nat) : Nat := (s.path k p).queue.length * hops
  match s.routes k dev with
  | ((p, _), none) => if up p then some (p, t) else none
  | ((p, n), some (q, m, t')) =>
    if up p && (!up q || decide (load p n ≤ load q m)) then some (p, t)
    else if up q then some (q, t')
    else none

/-- The marks of the sectors of a payload, one bit each (R412). -/
def psnOf (pois : List Bool) : Nat :=
  (upFrom 0 (ceilDiv pois.length 32)).foldl (fun m i => m + b2n (((pois.drop (32 * i)).take 32).any id) * 2 ^ i) 0

/-- The flits of a packet of `n` (R413): the first carries the request, each later one 64 bytes of data with their marks. -/
def packetOf (b : FlitBody) (n : Nat) (pois : List Bool) : List FlitBody :=
  (upFrom 0 n).map fun i =>
    { b with last := i + 1 == n, psn := if i = 0 then 0 else psnOf ((pois.drop (64 * (i - 1))).take 64), tag := 64 * b.tag + i }

/-- What the flits of a packet of this device share: the channel, the target, the source's partition and world, a tag. -/
def State.flitFor (s : State) (vc dst spart : Nat) (ns : Bool) (tag : Nat) : FlitBody := ⟨vc, false, 0, false, ns, dst, s.ctl.devnum, spart, tag⟩

/-- Queue a packet on a path. -/
def State.enqueue (s : State) (k p : Nat) (fs : List FlitBody) : State :=
  s.setPath k p fun x => { x with queue := x.queue ++ fs.map fun f => (f, 0) }

/-- Queue a packet for a device: on the path of an unacknowledged request that it must follow, while that path is up, or else on the
route that it takes; none while no route is up (R416, R417, R420). -/
def State.sendTo (s : State) (k dev : Nat) (fs : List FlitBody) (fixed : Option Nat) : State × Option Nat :=
  match fixed.filter fun p => (s.path k p).st != .down with
  | some p => (s.enqueue k p fs, some p)
  | none => match s.chooseRoute k dev with
    | none => (s, none)
    | some (p, t) => ((s.setStack k fun _ => t).enqueue k p fs, some p)

/-- Queue an MGMT message: on the minimal route while it is up, else on the alternative; it waits while neither is (R416). -/
def State.sendMgmt (s : State) (k dev : Nat) (fs : List FlitBody) : State :=
  let r := s.routes k dev
  if (s.path k r.1.1).st != .down then s.enqueue k r.1.1 fs
  else match r.2.filter fun q => (s.path k q.1).st != .down with
    | some q => (s.setStack k fun _ => q.2.2).enqueue k q.1 fs
    | none => s.setCtl fun c => { c with mgmtWait := c.mgmtWait ++ [(k, fs)] }

/-- The messages that waited for a route are sent, those that have none wait on. -/
def State.retryMgmt (s : State) : State :=
  s.ctl.mgmtWait.foldl (fun (s : State) q => match q.2 with
    | [] => s
    | f :: _ => s.sendMgmt q.1 f.dst q.2) (s.setCtl fun c => { c with mgmtWait := [] })

end Sys2Proof.Machine
end

