-- ==== Sys2Proof/Machine/Ops.lean ====
section
/-! DEFINITION. The named operations over warps, threads and registers: reading and writing registers with their tags and latencies
(R42 to R46, R109, R111), taking a fault and returning from one (R439 to R441, R443), paying a price (R182, R183, R187,
R189), the frontier of a warp (R82, R84) and the frame of an issue (R83, R87, R89). -/

namespace Sys2Proof

/-! ### Operand fields -/

/-- The 10-bit field of a source (R47). -/
def Src.field : Src → Nat
  | .v n => n.val
  | .w n => 640 + n.val
  | .k c => 1008 + (match c with
      | .zero => 0 | .ione => 1 | .ineg1 => 2 | .imax => 3 | .imin => 4 | .fone => 5 | .fneg1 => 6 | .fhalf => 7
      | .ftwo => 8 | .finf => 9 | .fnan => 10 | .fmax => 11 | .hone2 => 12 | .bone2 => 13 | .laneid => 14 | .fln2 => 15)

/-- A status code (R114). -/
def RStat.code : RStat → Nat
  | .ok => 0
  | .peerLost => 1
  | .timeout => 2
  | .remoteFault => 3

end Sys2Proof

namespace Sys2Proof.Machine

/-- The registers of a destination group. -/
def dstNames (d : Dst) (n : Nat) : List RName :=
  match d with
  | .v i => (upFrom i.val n).map .v
  | .w i => (upFrom i.val n).map .w
  | .discard => []

/-- The registers of a source group; none for a constant. -/
def srcNames (a : Src) (n : Nat) : List RName :=
  match a with
  | .v i => (upFrom i.val n).map .v
  | .w i => (upFrom i.val n).map .w
  | .k _ => []

/-- Predicate p as a register name; p7 is never written nor waited for (R36, R52). -/
def predName (p : Pred) : List RName := if p.val = 7 then [] else [.p p.val]

/-! ### Warps, threads, launches -/

def State.warp? (s : State) (c w : Nat) : Option Warp := mget? (s.core c).ctx.warps w

def State.setWarp (s : State) (c w : Nat) (f : Warp → Warp) : State :=
  s.setCore c fun k => { k with ctx := { k.ctx with warps := mmod k.ctx.warps w f } }

def State.setCtx (s : State) (c : Nat) (f : Ctx → Ctx) : State := s.setCore c fun k => { k with ctx := f k.ctx }

/-- Core cycles for each $ticks of 100 MHz, at 3 GHz. -/
def cyclesPerTick : Nat := 30

/-- The core's clock: $cycles (R114). -/
def State.now (s : State) (c : Nat) : Nat := (s.core c).cycles

/-- Poison events of a core (R113, R453). -/
def State.poison (s : State) (c n : Nat) : State :=
  if n = 0 then s else s.setCore c fun k => { k with poisonCnt := k.poisonCnt + BitVec.ofNat 32 n }

def State.launch? (s : State) (l : Nat) : Option Launch := mget? s.launches l
def State.setLaunch (s : State) (l : Nat) (f : Launch → Launch) : State := { s with launches := mmod s.launches l f }

/-- Post an event. -/
def State.post (s : State) (e : Instr) : State := { s with agenda := s.agenda ++ [.ev e] }

/-- A cause that ends a launch arises (R368): the first one stays. The control die then halts the launch. -/
def State.endLaunch (s : State) (l : Nat) (st : LStat) (fcode : Nat) : State :=
  match s.launch? l with
  | none => s
  | some x =>
    if x.ended.isSome then s
    else (s.setLaunch l fun x => { x with ended := some (st, fcode) }).post (.launchEnd l st)

/-- What a launch holds on a core. -/
def State.view? (s : State) (c l : Nat) : Option View := mget? (s.core c).ctx.views l
def State.setView (s : State) (c l : Nat) (f : View → View) : State :=
  s.setCtx c fun x => { x with views := mmod x.views l f }

/-- A fresh number for an access, a command or a pending write. -/
def State.fresh (s : State) : State := { s with nextId := s.nextId + 1 }

/-- A fresh stamp, for a cache fill or an acquire (R270). -/
def State.tickStamp (s : State) : State := { s with stamp := s.stamp + 1 }

/-- Lanes of a warp. -/
def Warp.lanes (w : Warp) : List Nat := upFrom 0 w.threads.length

def Warp.thread? (w : Warp) (l : Nat) : Option Thread := w.threads[l]?

def Thread.isReady (t : Thread) : Bool := t.st == .ready
def Thread.isExited (t : Thread) : Bool := t.st == .exited

/-- A thread becomes READY; a warp that had none takes the cycle as its ready time (R89). -/
def State.wake (s : State) (t : TRef) : State :=
  let now := s.now t.core
  s.setWarp t.core t.warp fun w =>
    let any := w.threads.any Thread.isReady
    let ths := lmod w.threads t.lane fun th => if th.isExited then th else { th with st := .ready }
    if any then { w with threads := ths } else { w with threads := ths, readyAt := now, ties := [] }

/-! ### Registers -/

/-- A source operand as read: value, tag, whether it is a constant, and its register field (R47, R48). -/
structure Opd where
  val : Word
  tag : Tag
  konst : Bool
  field : Nat
  deriving DecidableEq, Repr

/-- The value and the tag of a constant (R48). -/
def konstReg (c : Konst) (lane : Nat) : Reg :=
  match c with
  | .zero => ⟨0, .i32⟩ | .ione => ⟨1, .i32⟩ | .ineg1 => ⟨0xFFFFFFFF, .i32⟩ | .imax => ⟨0x7FFFFFFF, .i32⟩
  | .imin => ⟨0x80000000, .i32⟩ | .fone => ⟨0x3F800000, .fp32⟩ | .fneg1 => ⟨0xBF800000, .fp32⟩
  | .fhalf => ⟨0x3F000000, .fp32⟩ | .ftwo => ⟨0x40000000, .fp32⟩ | .finf => ⟨0x7F800000, .fp32⟩
  | .fnan => ⟨0x7FC00000, .fp32⟩ | .fmax => ⟨0x7F7FFFFF, .fp32⟩ | .hone2 => ⟨0x3C003C00, .fp16x2⟩
  | .bone2 => ⟨0x3F803F80, .bf16x2⟩ | .laneid => ⟨BitVec.ofNat 32 lane, .i32⟩ | .fln2 => ⟨0x3F317218, .fp32⟩

/-- The key under which a free value of a register of a lane is asked for. -/
def rkey (n : RName) (lane : Nat) : Nat :=
  match n with
  | .v i => i * 128 + lane
  | .w i => 2 ^ 20 + i
  | .p i => 2 ^ 21 + i * 128 + lane
  | .seed => 2 ^ 22 + lane

/-- A register as the register file holds it. -/
def Warp.hold (w : Warp) (n : RName) (lane : Nat) : Reg :=
  match n with
  | .v i => mget w.v (i * 128 + lane) .zero
  | .w i => mget w.w i .zero
  | .p i => if i = 7 then ⟨1, .raw⟩ else ⟨if mget w.p (lane * 8 + i) false then 1 else 0, .raw⟩
  | .seed => ⟨((w.threads[lane]?).map fun t => t.seed).getD 1, .raw⟩

/-- An old value of this register of this lane is of no more use once the register is written again (R42, R43). -/
def Fresh.covers (f : Fresh) (n : RName) (lane : Nat) : Bool :=
  f.name == n && (f.lane == lane || (match n with | .w _ => true | _ => false))

/-- A register as an instruction issued in cycle `now` reads it: a result not yet readable gives, lane by lane, the old
value or the new one (R43, R45). -/
def Warp.read (w : Warp) (ticket now : Nat) (n : RName) (lane : Nat) : Reg :=
  match w.fresh.find? fun f => f.covers n lane && decide (now < f.ready) with
  | some f => if Config.early ticket (rkey n lane) then f.old else w.hold n lane
  | none => w.hold n lane

/-- What an issue gives its body: the issuer, the issue set, the guard-true lanes, the issue PC, the warp as it was, the
cycle and the ticket. -/
structure Iss where
  core : Nat
  warp : Nat
  set : List Nat
  act : List Nat
  pc : Nat
  w : Warp
  now : Nat
  ticket : Nat
  deriving DecidableEq, Repr

/-- Register `i` of a source operand in a lane; a constant gives zero above its 32 bits (R50). DESIGN CHOICE (log 114): R48 gives a
tag for the constant's own 32 bits only; the zero above them is tagged I32. -/
def Iss.src (x : Iss) (a : Src) (i lane : Nat) : Opd :=
  match a with
  | .v n => let r := x.w.read x.ticket x.now (.v (n.val + i)) lane; ⟨r.val, r.tag, false, n.val⟩
  | .w n => let r := x.w.read x.ticket x.now (.w (n.val + i)) lane; ⟨r.val, r.tag, false, 640 + n.val⟩
  | .k c => if i = 0 then let r := konstReg c lane; ⟨r.val, r.tag, true, a.field⟩ else ⟨0, .i32, true, a.field⟩

/-- A predicate of a lane; p7 is true (R36). -/
def Iss.pred (x : Iss) (p : Pred) (lane : Nat) : Bool := (x.w.read x.ticket x.now (.p p.val) lane).val != 0

/-- The 64-bit value of a pair, low half in the even register. -/
def Iss.pair (x : Iss) (a : Src) (lane : Nat) : Nat :=
  (x.src a 0 lane).val.toNat + 2 ^ 32 * (x.src a 1 lane).val.toNat

def Iss.ref (x : Iss) (lane : Nat) : TRef := ⟨x.core, x.warp, lane⟩

/-- Derived from either of two values. -/
def Taint.join (a b : Taint) : Taint := b.foldl (fun m p => mset m p.1 (max p.2 (mget m p.1 0))) a

/-- The thread of a lane, as one number: its launch and its $tid. -/
def Warp.origin (w : Warp) (lane : Nat) : Nat := w.launch * 2 ^ 40 + ((w.threads[lane]?).map fun t => t.tid).getD 0

/-- The key of a register of a lane in `Warp.taint`. -/
def taintKey (n : RName) (lane : Nat) : Nat := rkey n (match n with | .w _ => 0 | _ => lane)

/-- What any of these registers derives from (R309). -/
def Warp.taintOf (w : Warp) (names : List RName) (lane : Nat) : Taint :=
  if w.taint.isEmpty then [] else names.foldl (fun t n => t.join (mget w.taint (taintKey n lane) [])) []

def Warp.setTaint (w : Warp) (n : RName) (lane : Nat) (t : Taint) : Warp :=
  if t.isEmpty ∧ w.taint.isEmpty then w else { w with taint := msetD [] w.taint (taintKey n lane) t }

/-- What a datum derives from that a load of this lane's thread returned. -/
def Warp.loaded (w : Warp) (lane stamp : Nat) : Taint := [(w.origin lane, stamp)]

/-- The newest datum of the lane's own thread among what something derives from. -/
def Warp.newest (w : Warp) (lane : Nat) (t : Taint) : Nat := mget t (w.origin lane) 0

/-- Write one register of the register file; the last write is the one that a later reader finds (R42). -/
def Warp.write (w : Warp) (n : RName) (lane : Nat) (r : Reg) : Warp :=
  let fresh := w.fresh.filter fun f => !f.covers n lane
  match n with
  | .v i => { w with fresh := fresh, v := mset w.v (i * 128 + lane) r }
  | .w i => { w with fresh := fresh, w := mset w.w i r }
  | .p i => if i = 7 then w else { w with fresh := fresh, p := mset w.p (lane * 8 + i) (r.val != 0) }
  | .seed => { w with fresh := fresh, threads := lmod w.threads lane fun t => { t with seed := r.val } }

/-- Write with fixed latency: the value is readable from cycle `ready` (R43). -/
def Warp.writeFixed (w : Warp) (n : RName) (lane : Nat) (r : Reg) (ready : Nat) : Warp :=
  let w' := w.write n lane r
  { w' with fresh := ⟨n, lane, w.hold n lane, ready⟩ :: w'.fresh }

/-- Drop the old values that no later reader can see. -/
def Warp.prune (w : Warp) (now : Nat) : Warp := { w with fresh := w.fresh.filter fun f => decide (now < f.ready) }

/-- The latency of a result. -/
inductive Lat where
  | fixed (l : Nat)
  | var
  deriving DecidableEq, Repr

/-- Land values, or leave them pending (R43, R44). -/
def State.putRegs (s : State) (x : Iss) (lat : Lat) (vals : List Wb) : State :=
  match lat with
  | .fixed l =>
    let n := (x.w.width / 32) - 1
    s.setWarp x.core x.warp fun w => vals.foldl (fun w v =>
      w.writeFixed v.name v.lane v.reg (x.now + l + (match v.name with | .w _ => n | _ => 0))) w
  | .var =>
    if vals.isEmpty then s
    else
      let p : Pend := ⟨s.nextId, (vals.map fun v => v.name).eraseDups, .ready, vals⟩
      (s.setWarp x.core x.warp fun w => { w with pend := w.pend ++ [p] }).fresh

/-! ### Faults -/

/-- What a fault puts into the record and the frame (R436, R440). -/
structure Flt where
  cls : Nat
  kind : Nat
  status : Nat
  info : Nat
  addr : Nat
  cmdPc : Nat
  deriving DecidableEq, Repr

/-- A fault of the instruction itself. -/
def Flt.of (cls info : Nat) : Flt := ⟨cls, 0, 0, info, 0, 0⟩
/-- A fault with an effective address. -/
def Flt.at (cls addr : Nat) : Flt := ⟨cls, 0, 0, 0, addr, 0⟩

/-- The fault record (R436). -/
def Flt.record (f : Flt) : Nat := f.cls % 64 * 2 ^ 58 + f.kind % 4 * 2 ^ 56 + f.status % 16 * 2 ^ 48 + f.info % 2 ^ 16 * 2 ^ 32

/-- Append an access in flight. -/
def State.pushAcc (s : State) (a : Acc) : State := { s with accs := s.accs ++ [{ a with id := s.nextId }], nextId := s.nextId + 1 }

/-- An access of a thread to the leaf and the physical address that translation gave. -/
def State.threadAcc (s : State) (t : TRef) (kind : AKind) (cls : Cls) (hint : Hint) (asid va leaf pa size : Nat) : Acc :=
  { id := 0, who := .thread t, lanes := [t.lane], kind := kind, cls := cls, hint := hint, reach := pteReach leaf,
    dev := if s.localDev (pteDev leaf) then none else some (pteDev leaf), pa := pa, size := size, key := pteKey leaf,
    stable := pteS leaf, secAgent := (s.core t.core).ctx.sec, asid := asid,
    launch := ((s.warp? t.core t.warp).map fun w => w.launch).getD 0, va := va, queued := false, performed := false,
    sent := none, limit := (s.die (dieOf t.core)).ftimeout, lost := false, need := 0, hop := none, out := false }

/-- A store enters its warp's store queue (R308). -/
def State.pushStore (s : State) (t : TRef) (a : Acc) : State :=
  let id := s.nextId
  (s.pushAcc { a with queued := true }).setWarp t.core t.warp fun w => { w with sq := w.sq ++ [id] }

/-- The address space of a warp. -/
def State.asidOf (s : State) (w : Warp) : Nat := ((s.launch? w.launch).map fun l => l.asid).getD 0

/-- End the run of a warp because of a trap (R40, R437): its ready time is the cycle of the break (R89). -/
def State.breakRun (s : State) (c w : Nat) : State :=
  let now := s.now c
  (s.setWarp c w fun x => { x with run := none, readyAt := now, ties := [] }).setCore c fun k =>
    { k with slots := lmod k.slots (w / 16) fun sl => { sl with cur := if sl.cur = some w then none else sl.cur } }

/-- TAKING A FAULT (R439 to R441), one operation for every instruction. A thread at S level, or one whose address space has
EN = 0, ends its launch. Otherwise EPC and $fault are written, then the frame by four RLX stores, and the thread goes to
S level at ENTRY. -/
def State.takeFault (s : State) (t : TRef) (pc : Nat) (f : Flt) : State :=
  match s.warp? t.core t.warp with
  | none => s
  | some w =>
    match w.thread? t.lane with
    | none => s
    | some th =>
      let a := s.asidRec (s.asidOf w)
      if th.sLevel then (s.setThread t fun th => { th with pc := pc }).endLaunch w.launch .fault (0x80 + f.cls)
      else if !a.en then (s.setThread t fun th => { th with pc := pc }).endLaunch w.launch .fault f.cls
      else
        let s1 := s.setThread t fun th => { th with epc := pc, fault := BitVec.ofNat 64 f.record, pc := pc }
        let enter (s : State) : State := s.setThread t fun th => { th with sLevel := true, pc := a.entry, st := .ready }
        if a.frame = 0 then enter s1
        else
          let va := a.frame + 32 * (t.core * 2 ^ 13 + t.warp * 2 ^ 7 + t.lane)
          let asid := s.asidOf w
          match s1.translate (.thread t) asid va .store (s.core t.core).ctx.sec with
          | (s2, .ok leaf pa) =>
            if s2.localDev (pteDev leaf) && (regionFault pa 8 false false).isSome then
              s2.endLaunch w.launch .fault eFrame
            else
              let put (s : State) (i v : Nat) : State :=
                s.pushStore t (s.threadAcc t (.store (bytesOf 8 v) (List.replicate 8 false)) .rlx .none asid (va + i) leaf
                  (pa + i) 8)
              enter (put (put (put (put s2 0 f.record) 8 pc) 16 f.addr) 24 f.cmdPc)
          | (s2, _) => s2.endLaunch w.launch .fault eFrame

/-- RETURN FROM A FAULT (R443): the level becomes U and the thread goes to EPC, or to the word after it. -/
def State.returnFault (s : State) (t : TRef) (next : Bool) : State :=
  s.setThread t fun th => { th with sLevel := false, pc := if next then (th.epc + 8) % 2 ^ 64 else th.epc }

/-- Every lane of a list takes the same fault. -/
def State.takeFaults (s : State) (x : Iss) (lanes : List Nat) (f : Flt) : State :=
  lanes.foldl (fun s l => s.takeFault (x.ref l) x.pc f) s

/-! ### Bales (R181 to R190) -/

/-- The cap of a rack (R181). -/
def rackCap : Nat := 16384

/-- The reservation of a payer leaves: its held bales go to the rack up to the cap (R187). -/
def Core.cancelResv (k : Core) (p : Payer) : Core :=
  let mine := (k.resv ++ k.satisfied).filter fun r => r.who == p
  if mine.isEmpty then k
  else { k with resv := k.resv.filter (fun r => r.who != p), satisfied := k.satisfied.filter (fun r => r.who != p),
                rack := min rackCap (k.rack + (mine.map fun r => r.held).sum) }

/-- The same at a stack core (R197). -/
def SCore.cancelResv (k : SCore) : SCore :=
  { k with resv := none, satisfied := none,
           rack := min rackCap (k.rack + ((k.resv.toList ++ k.satisfied.toList).map fun r => r.held).sum) }

/-- The slots of instances that are no longer on a stack core are cleared and freed (R396). -/
def SCore.freeSlots (k : SCore) : SCore :=
  let here := k.run.toList ++ k.parked
  { k with channels := k.channels.map fun c => (c.1, c.2.filter fun r => here.any fun i => i.started == r.owner) }

/-- Whether the slew limiter lets a deduction pass (R189). -/
def Ring.slewOk (r : Ring) (price : Nat) : Bool := r.step == 0 || r.spent == 0 || decide (r.spent + price ≤ r.limit)

/-- Whether the rack has paid this price in this cycle for a warp whose word is about to issue (R183). -/
def Core.granted (k : Core) (p : Payer) (price : Nat) : Bool :=
  match p with
  | .warp w => k.grants.any fun g => g.1 == w && g.2 == price
  | .copy => false

/-- Whether a payer can pay now (R182, R189). -/
def State.canPay (s : State) (c : Nat) (p : Payer) (price : Nat) : Bool :=
  let k := s.core c
  price == 0 || k.satisfied.any (fun r => r.who == p && decide (price ≤ r.amount))
    || k.granted p price || (decide (price ≤ k.rack) && (s.die (dieOf c)).ring.slewOk price)

/-- Whether a payer would draw on the rack for a price: it holds no satisfied reservation of that much (R183). -/
def Core.draws (k : Core) (p : Payer) (price : Nat) : Bool :=
  price != 0 && !(k.satisfied.any fun r => r.who == p && decide (price ≤ r.amount))

/-- Note a request against a rack in this cycle, one for each requester (R183). -/
def Core.request (k : Core) (r : Nat) : Core := if k.reqs.contains r then k else { k with reqs := k.reqs ++ [r] }

/-- The die's spending of the turn (R189). -/
def State.spend (s : State) (c : Nat) (f : Nat → Nat) : State :=
  s.setDie (dieOf c) fun d => { d with ring := { d.ring with spent := f d.ring.spent } }

/-- Pay: a satisfied reservation is consumed, its excess going to the rack; otherwise the rack pays, or has paid in this cycle, and
an unsatisfied reservation of the payer is cancelled (R182, R187). The die's spending of the turn rises by the price (R189).
DESIGN CHOICE (log 117): R182 names both ways to pay and no order between them; a satisfied reservation of at least the price goes
first. -/
def State.pay (s : State) (c : Nat) (p : Payer) (price : Nat) : State :=
  let k := s.core c
  match k.satisfied.find? fun r => r.who == p && decide (price ≤ r.amount) with
  | some r => (s.spend c fun x => x + price).setCore c fun k =>
      { k with satisfied := k.satisfied.filter (fun r => r.who != p), rack := min rackCap (k.rack + (r.held - price)) }
  | none =>
    if k.granted p price then
      s.setCore c fun k => Core.cancelResv { k with grants := k.grants.filter fun g => p != .warp g.1 } p
    else (s.spend c fun x => x + price).setCore c fun k => ({ k with rack := k.rack - price }).cancelResv p

/-- The rack pays for a word that issues later in this cycle (R183). -/
def State.grant (s : State) (c w price : Nat) : State :=
  (s.spend c fun x => x + price).setCore c fun k => { k with rack := k.rack - price, grants := k.grants ++ [(w, price)] }

/-- What was paid for words that did not issue goes back. -/
def State.ungrant (s : State) (c : Nat) : State :=
  let back := ((s.core c).grants.map fun g => g.2).sum
  if (s.core c).grants.isEmpty then s
  else (s.spend c fun x => x - back).setCore c fun k => { k with rack := min rackCap (k.rack + back), grants := [] }

/-! ### The frontier (R82, R84) -/

/-- The lanes of a warp that are READY; a warp has at most 128 lanes (R78). -/
def Warp.readyLanes (w : Warp) : List (Nat × Thread) := ((upFrom 0 128).zip w.threads).filter fun p => p.2.isReady

/-- The lowest PC of the READY threads (R82). -/
def Warp.lowPc (w : Warp) : Option Nat := (leastBy (fun p => p.2.pc) w.readyLanes).map fun p => p.2.pc

/-- The PC of the next issue: the lowest, or, once the escape counter is full, that of the READY thread above it whose last
issue is oldest, and of those tied the lowest (R84). DESIGN CHOICE (log 116): R84 does not say what an escape issue does when
no READY thread is above the lowest PC any more; it issues there. -/
def Warp.issuePc (w : Warp) : Option Nat :=
  match w.lowPc with
  | none => none
  | some lo =>
    if w.esc < 65536 then some lo
    else match leastBy (fun p => p.2.lastIssue * 2 ^ 64 + p.2.pc) (w.readyLanes.filter fun p => decide (lo < p.2.pc)) with
      | none => some lo
      | some p => some p.2.pc

/-- The issue set at a PC. -/
def Warp.issueSet (w : Warp) (pc : Nat) : List Nat := (w.readyLanes.filter fun p => p.2.pc == pc).map fun p => p.1

/-! ### The frame of an issue -/

/-- How an instruction leaves the run: it goes on, it ends, or a trap breaks it. -/
inductive RunStop where | go | stop | trap
  deriving DecidableEq, Repr

/-- The effect of an instruction's body. -/
structure Eff where
  s : State
  stop : RunStop
  deriving DecidableEq, Repr

def Eff.go (s : State) : Eff := ⟨s, .go⟩

/-- Advance the program counters of the issue set (R83), note the cycle of their issue (R84) and count the word (R39). -/
def State.advance (s : State) (x : Iss) : State :=
  s.setWarp x.core x.warp fun w =>
    { w with threads := x.set.foldl (fun ths l => lmod ths l fun t => { t with pc := (x.pc + 8) % 2 ^ 64, lastIssue := x.now }) w.threads,
             ties := [],
             run := some ((x.pc + 8) % 2 ^ 64, (match w.run with | some r => r.2 | none => 0) + 1) }

/-- After an issue: the escape counter (R84), the next cycle in which the warp may issue (R41), and whether the run goes on
(R39, R87), with the slot and the ready time (R88, R89). -/
def State.finish (s : State) (x : Iss) (h : Hdr) (e : RunStop) : State :=
  let n := x.w.width / 32
  let escaped := decide (65536 ≤ x.w.esc)
  match s.warp? x.core x.warp with
  | none => s
  | some w =>
    let next := x.now + max (max n h.stall.val) 1
    let behind := w.readyLanes.any fun p => !x.set.contains p.1 && decide (x.pc < p.2.pc)
    let esc := if escaped then 0 else if behind then w.esc + 1 else 0
    let words := match w.run with | some r => r.2 | none => 24
    let goes := e == .go && !h.last && decide (words < 24) && !escaped && decide (esc < 65536)
      && w.lowPc == some ((x.pc + 8) % 2 ^ 64)
    let w' := { w with esc := esc, nextIssue := next, bwait := none, run := if goes then w.run else none,
                       readyAt := if goes then w.readyAt else if e = .trap then x.now else max next w.readyAt }
    let slot (_ : Slot) : Slot := { cur := if goes then some x.warp else none, freeAt := x.now + n }
    (s.setWarp x.core x.warp fun _ => w').setCore x.core fun k =>
      Core.cancelResv { k with slots := lmod k.slots (x.warp / 16) slot } (.warp x.warp)

end Sys2Proof.Machine
end

