-- ==== Sys2Proof/Machine/Operands.lean ====
section
/-! DEFINITION. Which registers and predicates each Quatin word reads and writes, for the checks that an issue makes before the
instruction's own: the allotment (R51, R128), the scoreboard (R44) and checking (R46); its price (R185). -/

namespace Sys2Proof.Machine

/-- The operands of a word. `srcs` pairs each source's register field with the registers it names, in operand order. -/
structure Use where
  srcs : List (Nat × List RName)
  dsts : List RName
  preds : List Pred
  pdst : List Pred
  eng : Option EngCls
  deriving DecidableEq, Repr

/-- A source group. -/
def so (a : Src) (n : Nat) : Nat × List RName := (a.field, srcNames a n)

/-- Sources and a destination group. -/
def useD (d : Dst) (n : Nat) (srcs : List (Nat × List RName)) : Use := ⟨srcs, dstNames d n, [], [], none⟩
/-- Sources only. -/
def useS (srcs : List (Nat × List RName)) : Use := ⟨srcs, [], [], [], none⟩
/-- Sources and a predicate. -/
def useP (p : Pred) (srcs : List (Nat × List RName)) : Use := ⟨srcs, [], [], [p], none⟩

def useNone : Use := useS []
/-- $seed as a source: it has no register field, and INFO is 0 (R66, R436). -/
def seedUse : Nat × List RName := (0, [.seed])

/-- Registers of an access width (R50). -/
def Width.regs : Sys2Proof.Width → Nat
  | .b64 => 2
  | .b128 => 4
  | _ => 1

/-- Bytes of an access width (R75). -/
def Width.bytes : Sys2Proof.Width → Nat
  | .b8 => 1 | .b16 => 2 | .b32 => 4 | .b64 => 8 | .b128 => 16

def movRegs : MovW → Nat
  | .b32 => 1
  | .b64 => 2
  | .b128 => 4

def vfmtRegs : VFmt → Nat
  | .f64 => 2
  | _ => 1

/-- The issue fields of a Quatin word; a paired word acts under p7 (R38). -/
def hdrOf : Instr → Option Hdr
  | .brx h _ | .callx h _ _ | .ret h _ | .exit h | .yield h | .reorder h _ _ _ _ | .mov h _ _ _ | .sel h _ _ _ _ _
  | .imin h _ _ _ _ _ | .imax h _ _ _ _ _ | .iabs h _ _ _ | .ineg h _ _ _ | .iadd h _ _ _ _ _ _ | .isub h _ _ _ _ _ _
  | .imul h _ _ _ | .imulh h _ _ _ _ | .imad h _ _ _ _ | .imadw h _ _ _ _ _ | .iadd64 h _ _ _ _ _ | .and h _ _ _
  | .or h _ _ _ | .xor h _ _ _ | .andn h _ _ _ | .not h _ _ | .shl h _ _ _ | .shr h _ _ _ | .sar h _ _ _
  | .rotl h _ _ _ | .bfx h _ _ _ _ | .bfi h _ _ _ _ | .popc h _ _ | .clz h _ _ | .brev h _ _ | .icmp h _ _ _ _ _
  | .pand h _ _ _ | .por h _ _ _ | .pxor h _ _ _ | .pnot h _ _ | .vote h _ _ _ | .shfl h _ _ _ _ _ | .bcast h _ _ _
  | .lea h _ _ _ _ _ | .rdspec h _ _ | .wrspec h _ _ | .fadd h _ _ _ _ _ _ | .fsub h _ _ _ _ _ _ | .fmul h _ _ _ _ _ _
  | .ffma h _ _ _ _ _ _ | .fmin h _ _ _ _ _ | .fmax h _ _ _ _ _ | .fcmp h _ _ _ _ _ _ | .frcp h _ _ _ _ | .frsq h _ _ _
  | .fsqrt h _ _ _ _ | .fexp2 h _ _ _ | .flog2 h _ _ _ | .fsin h _ _ _ | .fcos h _ _ _ | .hadd2 h _ _ _ _ _ _
  | .hmul2 h _ _ _ _ _ _ | .hfma2 h _ _ _ _ _ _ | .dadd h _ _ _ _ _ | .dmul h _ _ _ _ _ | .dfma h _ _ _ _ _ _
  | .cvt h _ _ _ _ _ _ _ _ | .cvts h _ _ _ _ _ _ _ | .pack h _ _ _ _ | .unpack h _ _ _ | .retag h _ _ _
  | .scale h _ _ _ _ _ _ _ | .blkscale h _ _ _ | .quant h _ _ _ _ | .phase h _ | .rdrack h _ | .shmap h _ _
  | .syncwInit h _ _ _ _ | .syncwAdd h _ _ _ _ | .syncwWait h _ _ _ _ | .mclaim h _ _ | .mrel h _ | .tclaim h _ _
  | .trel h _ | .mzero h _ _ _ | .trd h _ _ _ | .twr h _ _ _ | .mstat h _ | .resmode h _ | .probe h _ _ _ | .raisegen h _
  | .fence h | .fenceSys h _ | .leave h _ | .gsync h _ | .pinit h _ _ | .pclaim h _ _ | .pfill h _ _ | .ptake h _ _
  | .pfree h _ _ | .pquery h _ _ | .waitc h _ _ _ | .trap h _ | .brkpt h | .eret h _ | .bra h _ | .call h _ _ | .nap h _
  | .movi h _ _ | .movhi h _ _ _ | .iminImm h _ _ _ | .imaxImm h _ _ _ | .iaddImm h _ _ _ | .imulImm h _ _ _
  | .andImm h _ _ _ | .orImm h _ _ _ | .xorImm h _ _ _ | .shlImm h _ _ _ | .shrImm h _ _ _ | .sarImm h _ _ _
  | .rotlImm h _ _ _ | .bfxImm h _ _ _ | .faddImm h _ _ _ | .fmulImm h _ _ _ | .ld h _ _ _ _ _ _ _ _
  | .st h _ _ _ _ _ _ | .ldw h _ _ _ _ _ _ _ _ | .pref h _ _ _ _ | .discard h _ _ | .pin h _ _ _ | .unpin h _ _
  | .lds h _ _ _ _ _ | .sts h _ _ _ _ | .ldst h _ _ _ _ | .give h _ _ _ _ | .atom h _ _ _ _ _ _ _ | .atomcas h _ _ _ _ _
  | .red h _ _ _ _ _ _ _ | .join h _ _ _ _ | .pagein h _ _ _ | .cpy h _ _ _ | .cpyg h _ _ _ _ _ | .cpys h _ _ _ _ _ _ _ _
  | .coll h _ _ _ _ | .mma h _ _ _ _ _ _ _ _ _ _ | .launch h _ _ => some h
  | .pairedWord p _ _ => some ⟨p.last, Fin.ofNat 16 p.stall.val, false, 7⟩
  | _ => none

/-- The destination of an operand that is read and written (ATOM, ATOMCAS). -/
def srcAsDst : Src → Dst
  | .v n => .v n
  | .w n => .w n
  | .k _ => .discard

/-- The operands of each Quatin word; `n` is W/32 (R128). -/
def useOf (n : Nat) : Instr → Use
  | .brx _ a => useS [so a 2]
  | .callx _ d a => useD d 2 [so a 2]
  | .ret _ a => useS [so a 2]
  | .reorder _ a _ c _ => useS [so a 1, so c 2]
  | .mov _ d a w => useD d (movRegs w) [so a (movRegs w)]
  | .sel _ d a b p _ => { useD d 1 [so a 1, so b 1] with preds := [p] }
  | .imin _ d a b _ _ | .imax _ d a b _ _ => useD d 1 [so a 1, so b 1]
  | .iabs _ d a _ | .ineg _ d a _ => useD d 1 [so a 1]
  | .iadd _ d a b _ _ _ | .isub _ d a b _ _ _ => useD d 1 [so a 1, so b 1]
  | .imul _ d a b | .imulh _ d a b _ => useD d 1 [so a 1, so b 1]
  | .imad _ d a b c => useD d 1 [so a 1, so b 1, so c 1]
  | .imadw _ d a b c _ => useD d 2 [so a 1, so b 1, so c 2]
  | .iadd64 _ d a b _ _ => useD d 2 [so a 2, so b 2]
  | .and _ d a b | .or _ d a b | .xor _ d a b | .andn _ d a b => useD d 1 [so a 1, so b 1]
  | .not _ d a => useD d 1 [so a 1]
  | .shl _ d a b | .shr _ d a b | .sar _ d a b | .rotl _ d a b => useD d 1 [so a 1, so b 1]
  | .bfx _ d a b _ => useD d 1 [so a 1, so b 1]
  | .bfi _ d a b c => useD d 1 [so a 1, so b 1, so c 1]
  | .popc _ d a | .clz _ d a | .brev _ d a => useD d 1 [so a 1]
  | .icmp _ pd a b _ _ => useP pd [so a 1, so b 1]
  | .pand _ pd p q | .por _ pd p q | .pxor _ pd p q => { useP pd [] with preds := [p, q] }
  | .pnot _ pd p => { useP pd [] with preds := [p] }
  | .vote _ d p m => { useD d (if m = .ballot then n else 1) [] with preds := [p] }
  | .shfl _ d a b _ _ => useD d 1 [so a 1, so b 1]
  | .bcast _ d a b => useD d 1 [so a 1, so b 1]
  | .lea _ d a b _ _ => useD d 2 [so a 2, so b 1]
  | .rdspec _ d r => useD d (if r.wide then 2 else 1) (if r = .seed then [seedUse] else [])
  | .wrspec _ _ a => useS [so a 1]
  | .fadd _ d a b _ _ _ | .fsub _ d a b _ _ _ | .fmul _ d a b _ _ _ => useD d 1 [so a 1, so b 1]
  | .ffma _ d a b c _ _ => useD d 1 [so a 1, so b 1, so c 1]
  | .fmin _ d a b f _ | .fmax _ d a b f _ => useD d (vfmtRegs f) [so a (vfmtRegs f), so b (vfmtRegs f)]
  | .fcmp _ pd a b f _ _ => useP pd [so a (if f then 2 else 1), so b (if f then 2 else 1)]
  | .frcp _ d a _ _ | .fsqrt _ d a _ _ => useD d 1 [so a 1]
  | .frsq _ d a _ | .fexp2 _ d a _ | .flog2 _ d a _ | .fsin _ d a _ | .fcos _ d a _ => useD d 1 [so a 1]
  | .hadd2 _ d a b _ _ _ | .hmul2 _ d a b _ _ _ => useD d 1 [so a 1, so b 1]
  | .hfma2 _ d a b c _ _ => useD d 1 [so a 1, so b 1, so c 1]
  | .dadd _ d a b _ _ | .dmul _ d a b _ _ => useD d 2 [so a 2, so b 2]
  | .dfma _ d a b c _ _ => useD d 2 [so a 2, so b 2, so c 2]
  | .cvt _ d a df sf _ _ _ _ => useD d (cvtUnits df sf df * df.regs) [so a (cvtUnits df sf sf * sf.regs)]
  | .cvts _ d a df sf _ _ _ => useD d (cvtUnits df sf df * df.regs) [so a (cvtUnits df sf sf * sf.regs), seedUse]
  | .pack _ d a b _ => useD d 1 [so a 1, so b 1]
  | .unpack _ d a _ | .retag _ d a _ => useD d 1 [so a 1]
  | .scale _ d a b _ f _ _ => useD d (vfmtRegs f) [so a (vfmtRegs f), so b 1]
  | .blkscale _ d a _ => useD d 1 [so a 1]
  | .quant _ d a b _ => useD d 1 [so a 1, so b 1]
  | .rdrack _ d => useD d 1 []
  | .shmap _ d a => useD d 1 [so a 1]
  | .syncwInit _ a b sc _ | .syncwAdd _ a b sc _ | .syncwWait _ a b sc _ => useS [so a (if sc then 1 else 2), so b 1]
  | .mclaim _ d _ | .tclaim _ d _ => useD d 1 []
  | .mrel _ a | .trel _ a => useS [so a 1]
  | .mzero .. => { useNone with eng := some .matrix }
  | .trd _ d _ a => useD d 8 [so a 1]
  | .twr _ _ a b => { useS [so a 8, so b 1] with eng := some .matrix }
  | .mstat _ d => useD d 1 []
  | .probe _ d a _ => useD d 2 [so a 2]
  | .raisegen _ a => useS [so a 1]
  | .fenceSys _ pd => useP pd []
  | .leave _ a | .gsync _ a => useS [so a 1]
  | .pinit _ a b | .pfill _ a b | .pfree _ a b => useS [so a 1, so b 1]
  | .pclaim _ d a | .ptake _ d a | .pquery _ d a => useD d 1 [so a 1]
  | .waitc _ _ _ pr => useP pr []
  | .call _ d _ => useD d 2 []
  | .movi _ d _ => useD d 1 []
  | .movhi _ d a _ | .iminImm _ d a _ | .imaxImm _ d a _ | .iaddImm _ d a _ | .imulImm _ d a _ | .andImm _ d a _
  | .orImm _ d a _ | .xorImm _ d a _ | .shlImm _ d a _ | .shrImm _ d a _ | .sarImm _ d a _ | .rotlImm _ d a _
  | .bfxImm _ d a _ | .faddImm _ d a _ | .fmulImm _ d a _ => useD d 1 [so a 1]
  | .pairedWord _ x y =>
    let rd (h : Half) : List (Nat × List RName) := h.reads.map fun r => (r, [.v r])
    let wr (h : Half) : List RName := match h.dst with | some r => [.v r] | none => []
    ⟨rd x ++ rd y, wr x ++ wr y, [], [], none⟩
  | .ld _ d a _ _ w _ pr _ => { useD d (Width.regs w) [so a 2] with pdst := [pr] }
  | .st _ d a _ _ w _ => useS [so d (Width.regs w), so a 2]
  | .ldw _ d a _ _ w _ pr _ => { useD d (Width.regs w) [so a 2] with pdst := [pr] }
  | .pref _ a _ _ _ => useS [so a 2]
  | .discard _ b a | .unpin _ b a => useS [so a 2, so b 1]
  | .pin _ b a pd => { useS [so a 2, so b 1] with pdst := [pd] }
  | .lds _ d a w _ _ => useD d (Width.regs w) [so a 1]
  | .sts _ d a w _ => useS [so d (Width.regs w), so a 1]
  | .ldst _ d a _ _ => useD d 4 [so a 1]
  | .give _ a b c pd => { useS [so a 1, so b 1, so c 1] with pdst := [pd] }
  | .atom _ v a _ w _ _ _ => useD (srcAsDst v) (Width.regs w) [so v (Width.regs w), so a 2]
  | .atomcas _ v a n' _ w => useD (srcAsDst v) (Width.regs w) [so v (Width.regs w), so a 2, so n' (Width.regs w)]
  | .red _ v a _ w _ _ _ => useS [so v (Width.regs w), so a 2]
  | .join _ d a _ _ => useD d 1 [so a 1]
  | .pagein _ a b _ => useS [so a 2, so b 2]
  | .cpy _ _ a _ => { useS [so a 2] with eng := some .copy }
  | .cpyg _ _ a b _ _ | .cpys _ _ a b _ _ _ _ _ => { useS [so a 2, so b 2] with eng := some .copy }
  | .coll _ _ a b _ => { useS [so a 2, so b 1] with eng := some .coll }
  | .mma .. => { useNone with eng := some .matrix }
  | .launch _ a pd =>
    match a with
    | .w i => ⟨[(640 + i.val, srcNames a 3)], [.w (i.val + 3)], [], [pd], none⟩
    | _ => { useS [so a 3] with pdst := [pd] }
  | _ => useNone

/-- Whether every register that the word names lies in the warp's allotment (R51); the live base of REORDER counts too. -/
def allotted (w : Warp) (u : Use) : Bool :=
  let ok (n : RName) : Bool := match n with
    | .v i => decide (i < w.vregs)
    | .w i => decide (i < w.uregs)
    | .p _ => true
    | .seed => true
  (u.srcs.all fun s => s.2.all ok) && u.dsts.all ok

/-- The word checks that need the warp: R51, the live base of REORDER, and the destination of VOTE.ballot (R128). DESIGN CHOICE
(log 22): R57 admits the discard field as a destination where R128 asks for W/32 registers; the field is taken, and nothing is
written. -/
def wordOk (w : Warp) (i : Instr) : Bool :=
  let n := w.width / 32
  allotted w (useOf n i) &&
    match i with
    | .vote _ d _ .ballot =>
      (match d with
       | .v r => decide (r.val % n = 0) && decide (r.val + n ≤ 640)
       | .w r => decide (r.val % n = 0) && decide (r.val + n ≤ 64)
       | .discard => true)
    | .reorder _ _ (.v b) _ _ => decide (b.val < w.vregs)
    | _ => true

/-- The registers and predicates whose pending writes hold the word back (R44). -/
def Use.names (u : Use) (h : Hdr) : List RName :=
  (u.srcs.flatMap fun s => s.2) ++ u.dsts ++ (u.preds ++ u.pdst ++ [h.pred]).flatMap predName

/-- Whether an engine counter holds back a word with a true guard (R286). -/
def Warp.engFull (w : Warp) : Option EngCls → Bool
  | none => false
  | some .copy => decide (63 ≤ w.copyOut.length)
  | some .matrix => decide (63 ≤ w.matOut.length)
  | some .coll => decide (63 ≤ w.collOut.length)

/-- Whether the scoreboard holds the word back (R44). What a thread waiting at a pen will receive holds no other thread back
(R81). -/
def blocked (w : Warp) (u : Use) (h : Hdr) : Bool :=
  w.pend.any fun p => p.src != .pen && p.names.any fun n => (u.names h).contains n

/-- Whether a register was written with fixed latency and is not yet readable (R43). -/
def Warp.earlyName (w : Warp) (now : Nat) (n : RName) : Bool := w.fresh.any fun f => f.name == n && decide (now < f.ready)

/-- The first source read early, as the INFO of E_STALL (R46). -/
def earlySrc (w : Warp) (now : Nat) (u : Use) : Option Nat :=
  match u.srcs.find? fun s => s.2.any (w.earlyName now) with
  | some s => some s.1
  | none => (u.preds.find? fun p => (predName p).any (w.earlyName now)).map fun p => 0x400 + p.val

/-! ### Prices (R185) -/

/-- Groups of 32 rows that hold a selected row. -/
def rowGroups (rows : List Nat) : Nat := ((upFrom 0 4).filter fun g => rows.any fun r => r / 32 == g).length

/-- The rows that an MMA updates: rows r with r in a group of the mask and lane r of the issue set guard-true (R236). -/
def mmaRows (mask : BitVec 4) (act : List Nat) (width : Nat) : List Nat :=
  (upFrom 0 128).filter fun r => bitAt mask.toNat (r / 32) && act.contains (r % width)

/-- The price of a word with these guard-true lanes (R182, R185). -/
def priceOf (width : Nat) (act : List Nat) : Instr → Nat
  | .frcp .. | .frsq .. | .fsqrt .. | .fexp2 .. | .flog2 .. | .fsin .. | .fcos .. => 2 * (width / 32)
  | .dadd .. | .dmul .. | .dfma .. => 4 * (width / 32)
  | .fmin _ _ _ _ f _ | .fmax _ _ _ _ f _ => if f = .f64 then 4 * (width / 32) else 0
  | .fcmp _ _ _ _ f _ _ => if f then 4 * (width / 32) else 0
  | .scale _ _ _ _ _ f _ _ => if f = .f64 then 4 * (width / 32) else 0
  | .cvt _ _ _ df sf _ _ _ _ => if df = .f64 ∨ sf = .f64 then 4 * (width / 32) else 0
  | .cvts _ _ _ df sf _ _ _ => if df = .f64 ∨ sf = .f64 then 4 * (width / 32) else 0
  | .blkscale .. => width / 32
  | .quant .. => 2 * (width / 32)
  | .mma _ _ _ _ _ fa _ _ mask _ _ => (if fa = .fp32 then 1600 else 400) * rowGroups (mmaRows mask act width)
  | _ => 0

end Sys2Proof.Machine
end

