-- ==== Sys2Proof/Machine/Flags.lean ====
section
/-! DEFINITION. The flag computations of the Veger: format tags and POISON (R112, R113, R146 to R148), the results that compares
write into predicates (R119, R126), and the results of one thread of an issue set with the rule for uniform destinations
(R111). -/

namespace Sys2Proof.Machine

/-- The outcome of the source-tag checks of a thread (R113, R148). -/
inductive Chk where
  | good
  | bad (field : Nat)
  | pois
  deriving DecidableEq, Repr

/-- Whether an operand satisfies a tag check; a constant always does (R48). -/
def Opd.ok (o : Opd) (tags : List Tag) : Bool := o.konst || tags.contains o.tag

/-- Whether an operand is POISON. -/
def Opd.pois (o : Opd) : Bool := !o.konst && o.tag == .poison

/-- The checks of R113 and R148, sources in operand order: POISON first, then the first tag not accepted. -/
def checkTags (l : List (Opd × List Tag)) : Chk :=
  if l.any fun p => p.1.pois then .pois
  else match l.find? fun p => !p.1.ok p.2 with
    | some p => .bad p.1.field
    | none => .good

/-- RAW and I32, the tags of an integer source (R112). -/
def intTags : List Tag := [.raw, .i32]

/-- The two halves of a binary64 source (R137, R148). -/
def tags64 : List (List Tag) := [[.fp64l], [.fp64h]]

/-- The result of one thread: the destination registers in order, predicates, whether a poison event is counted, a fault,
and the new $seed. -/
structure LaneRes where
  regs : List Reg
  preds : List (Pred × Bool)
  pois : Bool
  fault : Option Flt
  seed : Option Word
  deriving DecidableEq, Repr

def LaneRes.nothing : LaneRes := ⟨[], [], false, none, none⟩
def LaneRes.of (rs : List Reg) : LaneRes := ⟨rs, [], false, none, none⟩
def LaneRes.trap (f : Flt) : LaneRes := ⟨[], [], false, some f, none⟩
/-- A predicate result. -/
def LaneRes.flag (p : Pred) (b : Bool) : LaneRes := ⟨[], [(p, b)], false, none, none⟩

/-- POISON with undefined bits for each destination register of a lane (R113). -/
def poisRegs (ticket : Nat) (names : List RName) (lane : Nat) : List Reg :=
  names.map fun n => ⟨Config.undef ticket (rkey n lane), .poison⟩

/-- The result of a thread with POISON in a source: POISON in every destination, one poison event (R113, R148). -/
def LaneRes.poison (ticket : Nat) (names : List RName) (lane : Nat) : LaneRes :=
  ⟨poisRegs ticket names lane, [], true, none, none⟩

/-- A computing instruction in one thread: the checks, then the result. -/
def computed (x : Iss) (names : List RName) (lane : Nat) (srcs : List (Opd × List Tag)) (f : Unit → List Reg) : LaneRes :=
  match checkTags srcs with
  | .pois => .poison x.ticket names lane
  | .bad field => .trap (.of eTag field)
  | .good => .of (f ())

/-- A compare in one thread: POISON gives false and one poison event. -/
def compared (pd : Pred) (srcs : List (Opd × List Tag)) (f : Unit → Bool) : LaneRes :=
  match checkTags srcs with
  | .pois => { LaneRes.flag pd false with pois := true }
  | .bad field => .trap (.of eTag field)
  | .good => .flag pd (f ())

/-- Integer conditions (R119, R126). -/
def ICond.holds (c : ICond) (a b : Int) : Bool :=
  match c with
  | .eq => a == b
  | .ne => a != b
  | .lt => decide (a < b)
  | .le => decide (a ≤ b)
  | .gt => decide (b < a)
  | .ge => decide (b ≤ a)

/-- The values that the results of an issue write: a vector destination in each thread that does not fault; a uniform one
once, from the lowest such thread (R111); predicates and $seed in each thread. -/
def writesOf (names : List RName) (rs : List (Nat × LaneRes)) : List Wb :=
  let ok := rs.filter fun r => r.2.fault.isNone && !r.2.regs.isEmpty
  let isW := match names with
    | .w _ :: _ => true
    | _ => false
  let regs := (if isW then ok.take 1 else ok).flatMap fun r =>
    (names.zip r.2.regs).map fun p => ⟨p.1, if isW then 0 else r.1, p.2⟩
  let preds := (rs.filter fun r => r.2.fault.isNone).flatMap fun r =>
    (r.2.preds.filter fun p => p.1.val != 7).map fun p => ⟨.p p.1.val, r.1, ⟨if p.2 then 1 else 0, .raw⟩⟩
  let seeds := (rs.filter fun r => r.2.fault.isNone).flatMap fun r => r.2.seed.toList.map fun v => ⟨.seed, r.1, ⟨v, .raw⟩⟩
  regs ++ preds ++ seeds

/-- Commit the results of the threads of an issue: registers, predicates and $seed with the word's latency (R66), poison events,
faults. -/
def State.commit (s : State) (x : Iss) (lat : Lat) (names : List RName) (rs : List (Nat × LaneRes)) : Eff :=
  let s1 := s.putRegs x lat (writesOf names rs)
  let s2 := s1.poison x.core (rs.filter fun r => r.2.fault.isNone && r.2.pois).length
  let s3 := rs.foldl (fun s r => match r.2.fault with
    | some f => s.takeFault (x.ref r.1) x.pc f
    | none => s) s2
  ⟨s3, if rs.any (fun r => r.2.fault.isSome) then .trap else .go⟩

/-- The body of an instruction that computes in each guard-true thread on its own. -/
def perLane (lat : Lat) (names : List RName) (f : Iss → Nat → LaneRes) (x : Iss) (s : State) : Eff :=
  s.commit x lat names (x.act.map fun l => (l, f x l))

/-- One fault on every guard-true thread. -/
def faultAll (f : Flt) (x : Iss) (s : State) : Eff := ⟨s.takeFaults x x.act f, .trap⟩

end Sys2Proof.Machine
end

