-- ==== Sys2Proof/Machine/Issue.lean ====
section
/-! DEFINITION. The current group of an issue (R226, R324 to R327), the checks of MMA that come before its price (R236), and the
issue of a Quatin word: issue set, word checks, scoreboard, checking, guards, price, then the instruction's own body
(R36, R39 to R46, R51, R57, R82 to R84, R87, R90, R91, R182). -/

namespace Sys2Proof.Machine

/-! ### Groups and handles (R324, R325) -/

/-- The handle of ALL. -/
def allHandle : Nat := 0x800003FF

def handleClass (h : Nat) : Nat := fld h 31 30
def handleScope (h : Nat) : Nat := fld h 29 24
def handleSeq (h : Nat) : Nat := fld h 23 16
def handleIndex (h : Nat) : Nat := fld h 9 0

/-- The table that a handle's class and scope name. -/
def State.gtable (s : State) (h : Nat) : GTable :=
  match handleClass h with
  | 0 => (s.core (handleScope h)).ctx.groups
  | 1 => (s.die (handleScope h)).groups
  | _ => s.ctl.wide

def State.setGtable (s : State) (h : Nat) (f : GTable → GTable) : State :=
  match handleClass h with
  | 0 => s.setCtx (handleScope h) fun c => { c with groups := f c.groups }
  | 1 => s.setDie (handleScope h) fun d => { d with groups := f d.groups }
  | _ => s.setCtl fun k => { k with wide := f k.wide }

/-- The record that a handle of a launch names (R325). -/
def State.group? (s : State) (launch h : Nat) : Option Group :=
  let t := s.gtable h
  match mget? t.recs (handleIndex h) with
  | none => none
  | some g => if g.launch == launch && mget t.seqs (handleIndex h) 0 == handleSeq h then some g else none

/-- The current group of a thread: the most recent entry of its list (R326). -/
def Thread.current (t : Thread) : Option Nat := t.groups.head?

/-- The current groups of lanes. -/
def Warp.currents (w : Warp) (lanes : List Nat) : List (Option Nat) :=
  (lanes.map fun l => (w.thread? l).bind Thread.current).eraseDups

/-- The one current group that the guard-true threads share; none when they differ or have none (R226). -/
def Iss.shared (x : Iss) : Option Nat :=
  match x.w.currents x.act with
  | [some h] => some h
  | _ => none

/-- The roles of a group (R327): ALL holds all three. -/
def State.rolesOf (s : State) (launch h : Nat) : Roles :=
  if h = allHandle then ⟨true, true, true⟩
  else ((s.group? launch h).map fun g => g.roles).getD ⟨false, false, false⟩

/-! ### The checks of MMA before its price (R236) -/

/-- The view of the issuing warp's launch on its core. -/
def State.viewOf (s : State) (x : Iss) : View := (s.view? x.core x.w.launch).getD ⟨[], [], [], [], .count, false⟩

def slotClaimed (v : View) (n : Nat) : Bool :=
  match v.slots[n]? with
  | some m => (match m.st with | .claimed _ => true | _ => false)
  | none => false

/-- Whether a tile register is HELD by a group. -/
def tileHeld (v : View) (n h : Nat) : Bool :=
  match v.tiles[n]? with
  | some t => t.st == .claimed h
  | none => false

/-- The group of a MATRIX command, or the fault of R226. -/
def State.matrixGroup (s : State) (x : Iss) : Except Nat Nat :=
  match x.shared with
  | none => .error eRole
  | some h => if (s.rolesOf x.w.launch h).matrix then .ok h else .error eRole

/-- The group of an MMA whose operands pass, or its fault. -/
def State.mmaCheck (s : State) (x : Iss) (t ma mb : Nat) : Except Nat Nat :=
  match s.matrixGroup x with
  | .error e => .error e
  | .ok h =>
    let v := s.viewOf x
    if tileHeld v t h && slotClaimed v ma && slotClaimed v mb && slotClaimed v (mb + 1) then .ok h else .error eManger

/-- The price of a word at its issue (R182, R185): none when no guard is true, and none for an MMA that faults first. -/
def State.price (s : State) (x : Iss) (i : Instr) : Nat :=
  if x.act.isEmpty then 0
  else match i with
    | .mma _ _ t ma mb _ _ _ _ _ _ =>
      (match s.mmaCheck x t.val ma.val mb.val with
       | .ok _ => priceOf x.w.width x.act i
       | .error _ => 0)
    | _ => priceOf x.w.width x.act i

/-! ### The issue -/

/-- Whether a wait for bales is for this head: the same word at the same price (R186). -/
def BWait.isFor (b : BWait) (pc : Nat) (i : Instr) (price : Nat) : Bool := b.pc == pc && b.word == i && b.price == price

/-- A warp's wait for bales ends without the issue of its head; any reservation is cancelled (R186, R187). -/
def State.endBWait (s : State) (c w : Nat) : State :=
  (s.setWarp c w fun wp => { wp with bwait := none }).setCore c fun k => k.cancelResv (.warp w)

/-- A warp's head fails only for want of bales: its wait goes on if it is for this head; otherwise one begins (R186). -/
def State.noteWait (s : State) (c w pc : Nat) (i : Instr) (price : Nat) : State :=
  match (s.warp? c w).bind fun wp => wp.bwait with
  | some b => if b.isFor pc i price then s
    else (s.endBWait c w).setWarp c w fun wp => { wp with bwait := some ⟨s.now c, pc, i, price⟩ }
  | none => s.setWarp c w fun wp => { wp with bwait := some ⟨s.now c, pc, i, price⟩ }

/-- The special registers that a program writes, as a key of `Warp.taint` (R114). -/
def specTaintKey (r : SpecReg) (lane : Nat) : Option Nat :=
  match r with
  | .rerr => some (2 ^ 23 + lane)
  | .sbcheck => some (2 ^ 23 + 128)
  | _ => none

/-- What the sources and the guard of a word derive from in a lane (R309). -/
def Iss.derived (x : Iss) (i : Instr) (h : Hdr) (lane : Nat) : Taint :=
  if x.w.taint.isEmpty then []
  else
    let u := useOf (x.w.width / 32) i
    let t := x.w.taintOf ((u.srcs.flatMap fun s => s.2) ++ (h.pred :: u.preds).flatMap predName) lane
    match i with
    | .rdspec _ _ r => (match specTaintKey r lane with
        | some k => t.join (mget x.w.taint k [])
        | none => t)
    | _ => t

/-- The newest datum of the thread itself that a word's sources and guard derive from (R309). -/
def Iss.need (x : Iss) (i : Instr) (h : Hdr) (lane : Nat) : Nat := x.w.newest lane (x.derived i h lane)

/-- Instructions whose result in a lane derives from other lanes. -/
def crossLane : Instr → Bool
  | .vote .. => true
  | .shfl .. => true
  | .bcast .. => true
  | .blkscale .. => true
  | .quant .. => true
  | _ => false

/-- Instructions whose own meaning says what their results derive from: from a shed, from a tile register. -/
def ownTaint : Instr → Bool
  | .lds .. => true
  | .ldst .. => true
  | .trd .. => true
  | _ => false

/-- A result derives from what the sources and the guard derive from; a uniform one from those of every lane. -/
def State.taintStep (s : State) (x : Iss) (i : Instr) (h : Hdr) : State :=
  if x.w.taint.isEmpty || ownTaint i then s
  else
    let u := useOf (x.w.width / 32) i
    let ts := x.act.map fun l => (l, x.derived i h l)
    let all := ts.foldl (fun m t => Taint.join m t.2) []
    let own := match i with
      | .cvts .. => [RName.seed]
      | .wrspec _ .seed _ => [RName.seed]
      | _ => []
    s.setWarp x.core x.warp fun w =>
      let w1 := (u.dsts ++ u.pdst.flatMap predName ++ own).foldl (fun w n => match n with
        | .w _ => w.setTaint n 0 all
        | _ => ts.foldl (fun w t => w.setTaint n t.1 (if crossLane i then all else t.2)) w) w
      match i with
      | .wrspec _ r _ => ts.foldl (fun w t => match specTaintKey r t.1 with
          | some k => { w with taint := msetD [] w.taint k t.2 }
          | none => w) w1
      | _ => w1

/-- The lanes' results of a word whose own meaning says what they derive from. -/
def State.taintDst (s : State) (x : Iss) (names : List RName) (ts : List (Nat × Taint)) : State :=
  if ts.all fun t => t.2.isEmpty && x.w.taint.isEmpty then s
  else s.setWarp x.core x.warp fun w => names.foldl (fun w n => match n with
    | .w _ => w.setTaint n 0 (ts.foldl (fun m t => Taint.join m t.2) [])
    | _ => ts.foldl (fun w t => w.setTaint n t.1 t.2) w) w

/-- The vector registers of a live set (R103). -/
def liveRegs (base mask : Nat) : List Nat := ((upFrom 0 64).filter fun i => bitAt mask i).map fun i => base + i

/-- Whether an access is one of a thread of the issue set. -/
def Iss.owns (x : Iss) (a : Acc) : Bool :=
  match a.who with
  | .thread t => t.core == x.core && t.warp == x.warp && a.lanes.any fun l => x.set.contains l
  | .score _ => false

/-- Whether an access of the word's core to a shed is held, so that a read of a descriptor there comes after it (R204). -/
def Iss.held (x : Iss) (a : Acc) : Bool :=
  a.dev.isNone && decide (2 ^ 60 ≤ a.pa) && (match a.kind with
    | .swWait _ => false
    | _ => true) && (match a.who with
    | .thread t => t.core == x.core
    | .score _ => false)

/-- Whether a word waits for more than the scoreboard's registers. LAUNCH issues once every earlier access of its issue set has been
performed: its packet is read as an ACQ load, and what it sends is behind the release of those accesses (R362). An engine command's
descriptor is read as a load, which an ACQ or AR access or a fence of the issue set holds until it is done (R292, R310, R317). REORDER
writes its live set and p0 to p6 with variable latency (R44, R104). -/
def State.wordWaits (s : State) (i : Instr) (x : Iss) : Bool :=
  match i with
  | .cpy .. | .cpyg .. | .cpys .. | .coll .. => s.accs.any fun a => !a.performed && ((a.launch == x.w.launch
      && (a.cls == .acq || a.cls == .ar || (match a.kind with
        | .fence .. => true
        | _ => false)) && x.owns a) || x.held a)
  | .launch .. => s.accs.any fun a => !a.performed && a.launch == x.w.launch && (match a.kind with
      | .pagein => false
      | _ => true) && x.owns a
  | .reorder _ _ b c _ =>
    let live := liveRegs b.field (x.pair c 0)
    x.w.pend.any fun p => p.src != .pen && p.names.any fun n => match n with
      | .v r => live.contains r
      | .p _ => true
      | _ => false
  | _ => false

/-- The issue of a word by warp `w` of core `c` at its issue PC. -/
def State.issueAt (s : State) (i : Instr) (h : Hdr) (c w : Nat) (wp0 : Warp) (pc : Nat) (body : Iss → State → Eff) : State :=
  let now := s.now c
  let wp := wp0.prune now
  let set := wp.issueSet pc
  let u := useOf (wp.width / 32) i
  let x0 : Iss := ⟨c, w, set, [], pc, wp, now, s.ticket⟩
  let s0 := s.setWarp c w fun _ => wp
  let trapOn (s : State) (x : Iss) (lanes : List Nat) (f : Flt) : State :=
    ((s.advance x).takeFaults x lanes f).finish x h .trap
  if !wordOk wp i then trapOn s0 x0 set (.of eIllegal 0)
  else if blocked wp u h || s0.wordWaits i x0 then s0.breakRun c w
  else if wp.sbcheck && (predName h.pred).any (wp.earlyName now) then trapOn s0 x0 set (.of eStall (0x400 + h.pred.val))
  else
    let x : Iss := { x0 with act := set.filter fun l => x0.pred h.pred l != h.neg }
    if wp.engFull u.eng && !x.act.isEmpty then s0.breakRun c w
    else match (if wp.sbcheck && !x.act.isEmpty then earlySrc wp now u else none) with
      | some info => trapOn s0 x x.act (.of eStall info)
      | none =>
        let price := s0.price x i
        if price = 0 then
          let e := body x (s0.advance x)
          (e.s.taintStep x i h).finish x h e.stop
        else if !s0.canPay c (.warp w) price then (s0.breakRun c w).noteWait c w pc i price
        else
          let e := body x ((s0.pay c (.warp w) price).advance x)
          (e.s.taintStep x i h).finish x h e.stop

/-- The frame of every Quatin word's meaning: the warp named by `turn` issues it. A warp with no READY thread cannot issue
(R82), and nothing happens. -/
def issue (i : Instr) (s : State) (body : Iss → State → Eff) : Host.Outcome State Fault Refusal :=
  match s.turn, hdrOf i with
  | .warp c w, some h =>
    match s.warp? c w with
    | none => .fault .noIssuer
    | some wp =>
      match wp.issuePc with
      | none => .next s
      | some pc => .next (s.issueAt i h c w wp pc body)
  | _, _ => .fault .noIssuer

end Sys2Proof.Machine
end

