-- ==== Sys2Proof/Machine/Int.lean ====
section
/-! DEFINITION. The integer, logic, compare, predicate, cross-lane, address and special-register instructions (R106 to R133). -/

namespace Sys2Proof.Machine

/-! ### Shared forms -/

/-- An immediate as an operand: it satisfies every tag check. -/
def immOpd (v : Word) : Opd := ⟨v, .i32, true, 0⟩
/-- imm24 sign-extended, and zero-extended (R33). -/
def immS (imm : BitVec 24) : Opd := immOpd (imm.signExtend 32)
def immZ (imm : BitVec 24) : Opd := immOpd (imm.zeroExtend 32)

def Elem.bits : Sys2Proof.Elem → Nat
  | .i32 => 32
  | .i16x2 => 16
  | .i8x4 => 8

/-- The tag of a result of an element mode (R112). -/
def Elem.tag : Sys2Proof.Elem → Tag
  | .i32 => .i32
  | .i16x2 => .i16x2
  | .i8x4 => .i8x4

/-- The tags an element mode accepts (R112). -/
def Elem.tags : Sys2Proof.Elem → List Tag
  | .i32 => [.raw, .i32]
  | .i16x2 => [.raw, .i32, .i16x2]
  | .i8x4 => [.raw, .i32, .i8x4]

/-- An element read signed, or unsigned (R121). -/
def readInt (u : Bool) (n x : Nat) : Int := if u then ((x % 2 ^ n : Nat) : Int) else sintOf n x

/-- The reduction of an exact result to n bits: clamped under .sat, else wrapped (R121). -/
def reduceInt (u sat : Bool) (n : Nat) (x : Int) : Nat :=
  if sat then wrapInt n (if u then clampInt 0 ((2 : Int) ^ n - 1) x else clampInt (-(2 : Int) ^ (n - 1)) ((2 : Int) ^ (n - 1) - 1) x)
  else wrapInt n x

/-- Element by element over 32 bits (R121). -/
def mapElems (e : Sys2Proof.Elem) (f : Nat → Nat → Nat) (a b : Word) : Word :=
  let n := Elem.bits e
  BitVec.ofNat 32 (((upFrom 0 (32 / n)).map fun i =>
    f (a.toNat / 2 ^ (n * i) % 2 ^ n) (b.toNat / 2 ^ (n * i) % 2 ^ n) % 2 ^ n * 2 ^ (n * i)).sum)

/-- An arithmetic instruction of two sources in element modes (R121). -/
def elemOp (e : Sys2Proof.Elem) (u sat : Bool) (f : Int → Int → Int) (a b : Word) : Word :=
  let n := Elem.bits e
  mapElems e (fun p q => reduceInt u sat n (f (readInt u n p) (readInt u n q))) a b

/-- One result register. -/
def one32 (v : Word) (t : Tag) : List Reg := [⟨v, t⟩]
/-- A 64-bit integer result (R122). -/
def pair64 (v : Nat) : List Reg := [⟨BitVec.ofNat 32 v, .i32⟩, ⟨BitVec.ofNat 32 (v / 2 ^ 32), .i32⟩]

/-- An instruction of two 32-bit sources. -/
def op2 (lat : Nat) (d : Dst) (tags : List Tag) (tag : Tag) (oa ob : Iss → Nat → Opd) (f : Word → Word → Word) :
    Iss → State → Eff :=
  perLane (.fixed lat) (dstNames d 1) fun x l =>
    computed x (dstNames d 1) l [(oa x l, tags), (ob x l, tags)] fun _ => one32 (f (oa x l).val (ob x l).val) tag

/-- An instruction of one 32-bit source. -/
def op1 (lat : Nat) (d : Dst) (tags : List Tag) (tag : Tag) (oa : Iss → Nat → Opd) (f : Word → Word) : Iss → State → Eff :=
  perLane (.fixed lat) (dstNames d 1) fun x l =>
    computed x (dstNames d 1) l [(oa x l, tags)] fun _ => one32 (f (oa x l).val) tag

/-- A source register, lane by lane. -/
def rd1 (a : Src) : Iss → Nat → Opd := fun x l => x.src a 0 l

/-- Every tag: bitwise and movement instructions accept any (R112), but POISON is caught first. -/
def anyTag : List Tag := [.raw, .i32, .fp32, .fp16x2, .bf16x2, .e4m3x4, .e5m2x4, .e2m1x8, .e8m0x4, .fp64l, .fp64h, .i8x4, .i16x2]

def elemArith (d : Dst) (oa ob : Iss → Nat → Opd) (e : Sys2Proof.Elem) (u sat : Bool) (f : Int → Int → Int) : Iss → State → Eff :=
  op2 2 d (Elem.tags e) (Elem.tag e) oa ob (elemOp e u sat f)

def bitwise (d : Dst) (oa ob : Iss → Nat → Opd) (f : Word → Word → Word) : Iss → State → Eff := op2 2 d anyTag .raw oa ob f

/-! ### Bit operations (R123, R124) -/

def shlWord (a b : Word) : Word := if 32 ≤ b.toNat then 0 else a <<< b.toNat
def shrWord (a b : Word) : Word := if 32 ≤ b.toNat then 0 else a >>> b.toNat
def sarWord (a b : Word) : Word := a.sshiftRight (min b.toNat 32)
def rotlWord (a b : Word) : Word := a.rotateLeft (b.toNat % 32)

def popCount (a : Word) : Word := BitVec.ofNat 32 ((upFrom 0 32).filter fun i => bitAt a.toNat i).length
def leadZeros (a : Word) : Word := BitVec.ofNat 32 (if a = 0 then 32 else 31 - Nat.log2 a.toNat)
def bitReverse (a : Word) : Word := BitVec.ofNat 32 ((upFrom 0 32).map fun i => if bitAt a.toNat i then 2 ^ (31 - i) else 0).sum

/-- Bit-field extract (R124). -/
def bfxWord (signed : Bool) (a b : Word) : Word :=
  let p := fld b.toNat 5 0
  let n := min (fld b.toNat 13 8) 32
  let f := a.toNat / 2 ^ p % 2 ^ n
  if n = 0 then 0 else if signed then BitVec.ofNat 32 (wrapInt 32 (sintOf n f)) else BitVec.ofNat 32 f

/-- Bit-field insert (R124). -/
def bfiWord (a b c : Word) : Word :=
  let p := fld b.toNat 5 0
  let n := min (fld b.toNat 13 8) 32
  let mask := (2 ^ n - 1) * 2 ^ p
  BitVec.ofNat 32 (((upFrom 0 32).map fun i =>
    if bitAt mask i then (if bitAt a.toNat (i - p) then 2 ^ i else 0) else if bitAt c.toNat i then 2 ^ i else 0).sum)

/-! ### Arithmetic (R121, R122) -/

def execIadd (h : Hdr) (d : Dst) (a b : Src) (e : Sys2Proof.Elem) (u sat : Bool) (s : State) : Host.Outcome State Fault Refusal :=
  issue (.iadd h d a b e u sat) s (elemArith d (rd1 a) (rd1 b) e u sat fun p q => p + q)

def execIsub (h : Hdr) (d : Dst) (a b : Src) (e : Sys2Proof.Elem) (u sat : Bool) (s : State) : Host.Outcome State Fault Refusal :=
  issue (.isub h d a b e u sat) s (elemArith d (rd1 a) (rd1 b) e u sat fun p q => p - q)

def execImin (h : Hdr) (d : Dst) (a b : Src) (e : Sys2Proof.Elem) (u : Bool) (s : State) : Host.Outcome State Fault Refusal :=
  issue (.imin h d a b e u) s (elemArith d (rd1 a) (rd1 b) e u false fun p q => if q < p then q else p)

def execImax (h : Hdr) (d : Dst) (a b : Src) (e : Sys2Proof.Elem) (u : Bool) (s : State) : Host.Outcome State Fault Refusal :=
  issue (.imax h d a b e u) s (elemArith d (rd1 a) (rd1 b) e u false fun p q => if p < q then q else p)

def execIabs (h : Hdr) (d : Dst) (a : Src) (e : Sys2Proof.Elem) (s : State) : Host.Outcome State Fault Refusal :=
  issue (.iabs h d a e) s (op1 2 d (Elem.tags e) (Elem.tag e) (rd1 a) fun v => elemOp e false false (fun p _ => (p.natAbs : Int)) v 0)

def execIneg (h : Hdr) (d : Dst) (a : Src) (e : Sys2Proof.Elem) (s : State) : Host.Outcome State Fault Refusal :=
  issue (.ineg h d a e) s (op1 2 d (Elem.tags e) (Elem.tag e) (rd1 a) fun v => elemOp e false false (fun p _ => -p) v 0)

def execImul (h : Hdr) (d : Dst) (a b : Src) (s : State) : Host.Outcome State Fault Refusal :=
  issue (.imul h d a b) s (op2 4 d intTags .i32 (rd1 a) (rd1 b) fun p q => p * q)

/-- Bits [63:32] of the product (R121). -/
def mulHigh (u : Bool) (p q : Word) : Word :=
  BitVec.ofNat 32 (wrapInt 64 (readInt u 32 p.toNat * readInt u 32 q.toNat) / 2 ^ 32)

def execImulh (h : Hdr) (d : Dst) (a b : Src) (u : Bool) (s : State) : Host.Outcome State Fault Refusal :=
  issue (.imulh h d a b u) s (op2 4 d intTags .i32 (rd1 a) (rd1 b) (mulHigh u))

def execImad (h : Hdr) (d : Dst) (a b c : Src) (s : State) : Host.Outcome State Fault Refusal :=
  issue (.imad h d a b c) s (perLane (.fixed 4) (dstNames d 1) fun x l =>
    let p := x.src a 0 l
    let q := x.src b 0 l
    let r := x.src c 0 l
    computed x (dstNames d 1) l [(p, intTags), (q, intTags), (r, intTags)] fun _ => one32 (p.val * q.val + r.val) .i32)

def execImadw (h : Hdr) (d : Dst) (a b c : Src) (u : Bool) (s : State) : Host.Outcome State Fault Refusal :=
  issue (.imadw h d a b c u) s (perLane (.fixed 4) (dstNames d 2) fun x l =>
    let p := x.src a 0 l
    let q := x.src b 0 l
    computed x (dstNames d 2) l [(p, intTags), (q, intTags), (x.src c 0 l, intTags), (x.src c 1 l, intTags)] fun _ =>
      pair64 (wrapInt 64 (readInt u 32 p.val.toNat * readInt u 32 q.val.toNat + (x.pair c l : Int))))

def execIadd64 (h : Hdr) (d : Dst) (a b : Src) (u sat : Bool) (s : State) : Host.Outcome State Fault Refusal :=
  issue (.iadd64 h d a b u sat) s (perLane (.fixed 3) (dstNames d 2) fun x l =>
    computed x (dstNames d 2) l
      [(x.src a 0 l, intTags), (x.src a 1 l, intTags), (x.src b 0 l, intTags), (x.src b 1 l, intTags)] fun _ =>
      pair64 (reduceInt u sat 64 (readInt u 64 (x.pair a l) + readInt u 64 (x.pair b l))))

/-! ### Bitwise, count (R123, R124) -/

def execAnd (h : Hdr) (d : Dst) (a b : Src) (s : State) : Host.Outcome State Fault Refusal :=
  issue (.and h d a b) s (bitwise d (rd1 a) (rd1 b) fun p q => p &&& q)

def execOr (h : Hdr) (d : Dst) (a b : Src) (s : State) : Host.Outcome State Fault Refusal :=
  issue (.or h d a b) s (bitwise d (rd1 a) (rd1 b) fun p q => p ||| q)

def execXor (h : Hdr) (d : Dst) (a b : Src) (s : State) : Host.Outcome State Fault Refusal :=
  issue (.xor h d a b) s (bitwise d (rd1 a) (rd1 b) fun p q => p ^^^ q)

def execAndn (h : Hdr) (d : Dst) (a b : Src) (s : State) : Host.Outcome State Fault Refusal :=
  issue (.andn h d a b) s (bitwise d (rd1 a) (rd1 b) fun p q => p &&& ~~~q)

def execNot (h : Hdr) (d : Dst) (a : Src) (s : State) : Host.Outcome State Fault Refusal :=
  issue (.not h d a) s (op1 2 d anyTag .raw (rd1 a) fun p => ~~~p)

def execShl (h : Hdr) (d : Dst) (a b : Src) (s : State) : Host.Outcome State Fault Refusal :=
  issue (.shl h d a b) s (bitwise d (rd1 a) (rd1 b) shlWord)

def execShr (h : Hdr) (d : Dst) (a b : Src) (s : State) : Host.Outcome State Fault Refusal :=
  issue (.shr h d a b) s (bitwise d (rd1 a) (rd1 b) shrWord)

def execSar (h : Hdr) (d : Dst) (a b : Src) (s : State) : Host.Outcome State Fault Refusal :=
  issue (.sar h d a b) s (bitwise d (rd1 a) (rd1 b) sarWord)

def execRotl (h : Hdr) (d : Dst) (a b : Src) (s : State) : Host.Outcome State Fault Refusal :=
  issue (.rotl h d a b) s (bitwise d (rd1 a) (rd1 b) rotlWord)

def execBfx (h : Hdr) (d : Dst) (a b : Src) (signed : Bool) (s : State) : Host.Outcome State Fault Refusal :=
  issue (.bfx h d a b signed) s (bitwise d (rd1 a) (rd1 b) (bfxWord signed))

def execBfi (h : Hdr) (d : Dst) (a b c : Src) (s : State) : Host.Outcome State Fault Refusal :=
  issue (.bfi h d a b c) s (perLane (.fixed 2) (dstNames d 1) fun x l =>
    let p := x.src a 0 l
    let q := x.src b 0 l
    let r := x.src c 0 l
    computed x (dstNames d 1) l [(p, anyTag), (q, anyTag), (r, anyTag)] fun _ => one32 (bfiWord p.val q.val r.val) .raw)

def execPopc (h : Hdr) (d : Dst) (a : Src) (s : State) : Host.Outcome State Fault Refusal :=
  issue (.popc h d a) s (op1 2 d anyTag .i32 (rd1 a) popCount)

def execClz (h : Hdr) (d : Dst) (a : Src) (s : State) : Host.Outcome State Fault Refusal :=
  issue (.clz h d a) s (op1 2 d anyTag .i32 (rd1 a) leadZeros)

def execBrev (h : Hdr) (d : Dst) (a : Src) (s : State) : Host.Outcome State Fault Refusal :=
  issue (.brev h d a) s (op1 2 d anyTag .raw (rd1 a) bitReverse)

/-! ### Movement (R125) -/

/-- Copy a group of registers with their tags. -/
def copyRegs (x : Iss) (a : Src) (n l : Nat) : List Reg := (upFrom 0 n).map fun i => let o := x.src a i l; ⟨o.val, o.tag⟩

def execMov (h : Hdr) (d : Dst) (a : Src) (w : MovW) (s : State) : Host.Outcome State Fault Refusal :=
  issue (.mov h d a w) s (perLane (.fixed 2) (dstNames d (movRegs w)) fun x l => .of (copyRegs x a (movRegs w) l))

def execSel (h : Hdr) (d : Dst) (a b : Src) (p : Pred) (neg : Bool) (s : State) : Host.Outcome State Fault Refusal :=
  issue (.sel h d a b p neg) s (perLane (.fixed 2) (dstNames d 1) fun x l =>
    .of (copyRegs x (if x.pred p l != neg then a else b) 1 l))

def execMovi (h : Hdr) (d : Dst) (imm : BitVec 24) (s : State) : Host.Outcome State Fault Refusal :=
  issue (.movi h d imm) s (perLane (.fixed 2) (dstNames d 1) fun _ _ => .of (one32 (imm.signExtend 32) .i32))

def execMovhi (h : Hdr) (d : Dst) (a : Src) (imm : BitVec 24) (s : State) : Host.Outcome State Fault Refusal :=
  issue (.movhi h d a imm) s (op1 2 d intTags .i32 (rd1 a) fun v => (imm.zeroExtend 32 <<< 8) ||| (v &&& 0xFF))

/-! ### Forms with an immediate (R69, R120) -/

def execIminImm (h : Hdr) (d : Dst) (a : Src) (imm : BitVec 24) (s : State) : Host.Outcome State Fault Refusal :=
  issue (.iminImm h d a imm) s (elemArith d (rd1 a) (fun _ _ => immS imm) .i32 false false fun p q => if q < p then q else p)

def execImaxImm (h : Hdr) (d : Dst) (a : Src) (imm : BitVec 24) (s : State) : Host.Outcome State Fault Refusal :=
  issue (.imaxImm h d a imm) s (elemArith d (rd1 a) (fun _ _ => immS imm) .i32 false false fun p q => if p < q then q else p)

def execIaddImm (h : Hdr) (d : Dst) (a : Src) (imm : BitVec 24) (s : State) : Host.Outcome State Fault Refusal :=
  issue (.iaddImm h d a imm) s (elemArith d (rd1 a) (fun _ _ => immS imm) .i32 false false fun p q => p + q)

def execImulImm (h : Hdr) (d : Dst) (a : Src) (imm : BitVec 24) (s : State) : Host.Outcome State Fault Refusal :=
  issue (.imulImm h d a imm) s (op2 4 d intTags .i32 (rd1 a) (fun _ _ => immS imm) fun p q => p * q)

def execAndImm (h : Hdr) (d : Dst) (a : Src) (imm : BitVec 24) (s : State) : Host.Outcome State Fault Refusal :=
  issue (.andImm h d a imm) s (bitwise d (rd1 a) (fun _ _ => immZ imm) fun p q => p &&& q)

def execOrImm (h : Hdr) (d : Dst) (a : Src) (imm : BitVec 24) (s : State) : Host.Outcome State Fault Refusal :=
  issue (.orImm h d a imm) s (bitwise d (rd1 a) (fun _ _ => immZ imm) fun p q => p ||| q)

def execXorImm (h : Hdr) (d : Dst) (a : Src) (imm : BitVec 24) (s : State) : Host.Outcome State Fault Refusal :=
  issue (.xorImm h d a imm) s (bitwise d (rd1 a) (fun _ _ => immZ imm) fun p q => p ^^^ q)

def execShlImm (h : Hdr) (d : Dst) (a : Src) (imm : BitVec 24) (s : State) : Host.Outcome State Fault Refusal :=
  issue (.shlImm h d a imm) s (bitwise d (rd1 a) (fun _ _ => immZ imm) shlWord)

def execShrImm (h : Hdr) (d : Dst) (a : Src) (imm : BitVec 24) (s : State) : Host.Outcome State Fault Refusal :=
  issue (.shrImm h d a imm) s (bitwise d (rd1 a) (fun _ _ => immZ imm) shrWord)

def execSarImm (h : Hdr) (d : Dst) (a : Src) (imm : BitVec 24) (s : State) : Host.Outcome State Fault Refusal :=
  issue (.sarImm h d a imm) s (bitwise d (rd1 a) (fun _ _ => immZ imm) sarWord)

def execRotlImm (h : Hdr) (d : Dst) (a : Src) (imm : BitVec 24) (s : State) : Host.Outcome State Fault Refusal :=
  issue (.rotlImm h d a imm) s (bitwise d (rd1 a) (fun _ _ => immZ imm) rotlWord)

def execBfxImm (h : Hdr) (d : Dst) (a : Src) (imm : BitVec 24) (s : State) : Host.Outcome State Fault Refusal :=
  issue (.bfxImm h d a imm) s (bitwise d (rd1 a) (fun _ _ => immZ imm) (bfxWord false))

/-! ### Compares and predicates (R126) -/

def execIcmp (h : Hdr) (pd : Pred) (a b : Src) (u : Bool) (c : Sys2Proof.ICond) (s : State) : Host.Outcome State Fault Refusal :=
  issue (.icmp h pd a b u c) s (perLane (.fixed 2) [] fun x l =>
    let p := x.src a 0 l
    let q := x.src b 0 l
    compared pd [(p, intTags), (q, intTags)] fun _ => ICond.holds c (readInt u 32 p.val.toNat) (readInt u 32 q.val.toNat))

def execPand (h : Hdr) (pd p q : Pred) (s : State) : Host.Outcome State Fault Refusal :=
  issue (.pand h pd p q) s (perLane (.fixed 2) [] fun x l => .flag pd (x.pred p l && x.pred q l))

def execPor (h : Hdr) (pd p q : Pred) (s : State) : Host.Outcome State Fault Refusal :=
  issue (.por h pd p q) s (perLane (.fixed 2) [] fun x l => .flag pd (x.pred p l || x.pred q l))

def execPxor (h : Hdr) (pd p q : Pred) (s : State) : Host.Outcome State Fault Refusal :=
  issue (.pxor h pd p q) s (perLane (.fixed 2) [] fun x l => .flag pd (x.pred p l != x.pred q l))

def execPnot (h : Hdr) (pd p : Pred) (s : State) : Host.Outcome State Fault Refusal :=
  issue (.pnot h pd p) s (perLane (.fixed 2) [] fun x l => .flag pd (!x.pred p l))

/-! ### Cross-lane (R127 to R130) -/

/-- The words that VOTE writes, over the guard-true threads (R128). -/
def voteRegs (x : Iss) (p : Pred) (m : VoteMode) : List Reg :=
  let bit (b : Bool) : List Reg := one32 (if b then 1 else 0) .i32
  match m with
  | .ballot => (upFrom 0 (x.w.width / 32)).map fun k =>
      ⟨BitVec.ofNat 32 ((upFrom 0 32).map fun i => if x.act.contains (32 * k + i) && x.pred p (32 * k + i) then 2 ^ i else 0).sum, .i32⟩
  | .any => bit (x.act.any fun l => x.pred p l)
  | .all => bit (x.act.all fun l => x.pred p l)
  | .eq => bit ((x.act.all fun l => x.pred p l) || (x.act.all fun l => !x.pred p l))

def execVote (h : Hdr) (d : Dst) (p : Pred) (m : VoteMode) (s : State) : Host.Outcome State Fault Refusal :=
  issue (.vote h d p m) s fun x s =>
    perLane (.fixed 3) (dstNames d (if m = .ballot then x.w.width / 32 else 1)) (fun x _ => .of (voteRegs x p m)) x s

/-- The source lane of SHFL (R129). -/
def shflLane (w seg : Nat) (m : ShflMode) (l b : Nat) : Nat :=
  let sz := if seg = 0 then w else min w (2 ^ seg)
  let sb := l - l % sz
  match m with
  | .idx => sb + b % sz
  | .up => if b ≤ l - sb then l - b else l
  | .down => if l + b < sb + sz then l + b else l
  | .xor => sb + ((l - sb) ^^^ (b % sz))

def execShfl (h : Hdr) (d : Dst) (a b : Src) (seg : Fin 8) (m : ShflMode) (s : State) : Host.Outcome State Fault Refusal :=
  issue (.shfl h d a b seg m) s (perLane (.fixed 6) (dstNames d 1) fun x l =>
    .of (copyRegs x a 1 (shflLane x.w.width seg.val m l (x.src b 0 l).val.toNat)))

def execBcast (h : Hdr) (d : Dst) (a b : Src) (s : State) : Host.Outcome State Fault Refusal :=
  issue (.bcast h d a b) s (perLane (.fixed 4) (dstNames d 1) fun x l =>
    .of (copyRegs x a 1 ((x.src b 0 l).val.toNat % x.w.width)))

/-! ### Address arithmetic (R131) -/

def execLea (h : Hdr) (d : Dst) (a b : Src) (u : Bool) (sh : Fin 8) (s : State) : Host.Outcome State Fault Refusal :=
  issue (.lea h d a b u sh) s (perLane (.fixed 2) (dstNames d 2) fun x l =>
    let q := x.src b 0 l
    computed x (dstNames d 2) l [(x.src a 0 l, intTags), (x.src a 1 l, intTags), (q, intTags)] fun _ =>
      pair64 (wrapInt 64 ((x.pair a l : Int) + readInt u 32 q.val.toNat * 2 ^ sh.val)))

/-! ### Special registers (R114 to R118) -/

/-- The stack that a core's $stack names (R114). -/
def stackOf (core : Nat) : Nat := 4 * (core / 8 % 4) + core % 8 % 4

/-- $rerr (R114). -/
def Thread.rerr (t : Thread) : Nat := t.rerrCount * 2 ^ 8 + t.rerrStat

/-- The value of a special register for a lane (R114, R116). -/
def State.special (s : State) (x : Iss) (r : SpecReg) (l : Nat) : Nat :=
  let t := x.w.thread? l
  let la := s.launch? x.w.launch
  let th (f : Thread → Nat) : Nat := (t.map f).getD 0
  match r with
  | .tid => th fun t => t.tid
  | .ntid => (la.map fun l => l.grid).getD 0
  | .lane => l
  | .warp => x.warp
  | .width => x.w.width
  | .core => x.core
  | .die => dieOf x.core
  | .stack => stackOf x.core
  | .cycles => x.now + l / 32
  | .ticks => (s.die (dieOf x.core)).ticks + ((s.clock + l / 32) / cyclesPerTick - s.clock / cyclesPerTick)
  | .rack => (s.core x.core).rack
  | .seed => (x.w.read x.ticket x.now .seed l).val.toNat
  | .fault => th fun t => t.fault.toNat
  | .rerr => th Thread.rerr
  | .sbcheck => b2n x.w.sbcheck
  | .asid => (la.map fun l => l.asid).getD 0
  | .gen => (s.asidRec ((la.map fun l => l.asid).getD 0)).gen
  | .part => (la.map fun l => l.part).getD 0

def specRegs (r : SpecReg) (v : Nat) : List Reg := if r.wide then pair64 v else one32 (BitVec.ofNat 32 v) .i32

/-- RDSPEC: $fault is for S level only (R115); $gen waits for the raises that the warp has asked for (R263). -/
def execRdspec (h : Hdr) (d : Dst) (r : SpecReg) (s : State) : Host.Outcome State Fault Refusal :=
  issue (.rdspec h d r) s fun x s =>
    if r = .gen then
      match dstNames d 1 with
      | [] => .go s
      | n :: _ =>
        if x.act.isEmpty then .go s
        else
          let p : Pend := ⟨s.nextId, [n], .gen (match n with | .w _ => true | _ => false)
            (match n with | .v i => i | .w i => i | .p i => i | .seed => 0) x.act, []⟩
          .go (s.setWarp x.core x.warp fun w => { w with pend := w.pend ++ [p] }).fresh
    else
      perLane .var (dstNames d (if r.wide then 2 else 1)) (fun x l =>
        let sl := ((x.w.thread? l).map fun t => t.sLevel).getD false
        if r = .fault && !sl then .trap (.of ePriv 0) else .of (specRegs r (s.special x r l))) x s

/-- What WRSPEC does in a guard-true thread with an accepted source (R117). -/
def Thread.wrspec (t : Thread) (r : SpecReg) (v : Word) : Thread :=
  match r with
  | .seed => { t with seed := if v = 0 then 1 else v }
  | .rerr => { t with rerrCount := fld v.toNat 15 8, rerrStat := fld v.toNat 3 0 }
  | _ => t

def execWrspec (h : Hdr) (r : SpecReg) (a : Src) (s : State) : Host.Outcome State Fault Refusal :=
  issue (.wrspec h r a) s fun x s =>
    let chk (l : Nat) : Chk := checkTags [(x.src a 0 l, intTags)]
    let good := x.act.filter fun l => chk l == .good
    let s0 := if r = .seed then s.setWarp x.core x.warp fun w =>
        { w with fresh := w.fresh.filter fun f => !(good.any fun l => f.covers .seed l) } else s
    let s1 := good.foldl (fun s l => s.setThread (x.ref l) fun t => t.wrspec r (x.src a 0 l).val) s0
    let s2 := match r, good with
      | .sbcheck, l :: _ => s1.setWarp x.core x.warp fun w => { w with sbcheck := bitAt (x.src a 0 l).val.toNat 0 }
      | _, _ => s1
    s2.commit x .var [] (x.act.map fun l => (l, match chk l with
      | .good => .nothing
      | .pois => { LaneRes.nothing with pois := true }
      | .bad f => .trap (.of eTag f)))

end Sys2Proof.Machine
end

