-- ==== Sys2Proof/Machine/Vec.lean ====
section
/-! DEFINITION. Floating-point vector arithmetic and conversion (R154 to R176), and paired words (R53 to R55, R72). -/

namespace Sys2Proof.Machine

/-! ### Shared forms -/

def tagF32 : List Tag := [.fp32]

/-- The two checks of a binary64 pair. -/
def src64 (x : Iss) (a : Src) (l : Nat) : List (Opd × List Tag) := [(x.src a 0 l, [.fp64l]), (x.src a 1 l, [.fp64h])]

/-- A binary64 result. -/
def regs64 (v : Nat) : List Reg := [⟨BitVec.ofNat 32 v, .fp64l⟩, ⟨BitVec.ofNat 32 (v / 2 ^ 32), .fp64h⟩]

def satIf (sat : Bool) (v : FVal) : FVal := if sat then v.sat else v

/-- An FP32 instruction of two sources whose exact result is `f` (R156). -/
def f32op2 (d : Dst) (oa ob : Iss → Nat → Opd) (r : Rnd) (ftz sat : Bool) (f : FVal → FVal → FVal) : Iss → State → Eff :=
  op2 4 d tagF32 .fp32 oa ob fun p q =>
    BitVec.ofNat 32 (FFmt.round .f32 r ftz (satIf sat (f (FFmt.decodeZ .f32 ftz p.toNat) (FFmt.decodeZ .f32 ftz q.toNat))))

def isRd (r : Rnd) : Bool := r == .rd

/-! ### FP32 arithmetic (R157) -/

def execFadd (h : Hdr) (d : Dst) (a b : Src) (r : Rnd) (ftz sat : Bool) (s : State) : Host.Outcome State Fault Refusal :=
  issue (.fadd h d a b r ftz sat) s (f32op2 d (rd1 a) (rd1 b) r ftz sat fun p q => p.add (isRd r) q)

def execFsub (h : Hdr) (d : Dst) (a b : Src) (r : Rnd) (ftz sat : Bool) (s : State) : Host.Outcome State Fault Refusal :=
  issue (.fsub h d a b r ftz sat) s (f32op2 d (rd1 a) (rd1 b) r ftz sat fun p q => p.add (isRd r) q.neg)

def execFmul (h : Hdr) (d : Dst) (a b : Src) (r : Rnd) (ftz sat : Bool) (s : State) : Host.Outcome State Fault Refusal :=
  issue (.fmul h d a b r ftz sat) s (f32op2 d (rd1 a) (rd1 b) r ftz sat FVal.mul)

/-- The immediate of FI FADD and FMUL: imm24 << 8 as FP32 bits (R69). -/
def immF (imm : BitVec 24) : Opd := immOpd (imm.zeroExtend 32 <<< 8)

def execFaddImm (h : Hdr) (d : Dst) (a : Src) (imm : BitVec 24) (s : State) : Host.Outcome State Fault Refusal :=
  issue (.faddImm h d a imm) s (f32op2 d (rd1 a) (fun _ _ => immF imm) .rn false false fun p q => p.add false q)

def execFmulImm (h : Hdr) (d : Dst) (a : Src) (imm : BitVec 24) (s : State) : Host.Outcome State Fault Refusal :=
  issue (.fmulImm h d a imm) s (f32op2 d (rd1 a) (fun _ _ => immF imm) .rn false false FVal.mul)

def execFfma (h : Hdr) (d : Dst) (a b c : Src) (r : Rnd) (ftz : Bool) (s : State) : Host.Outcome State Fault Refusal :=
  issue (.ffma h d a b c r ftz) s (perLane (.fixed 4) (dstNames d 1) fun x l =>
    let p := x.src a 0 l
    let q := x.src b 0 l
    let t := x.src c 0 l
    let v (o : Opd) : FVal := FFmt.decodeZ .f32 ftz o.val.toNat
    computed x (dstNames d 1) l [(p, tagF32), (q, tagF32), (t, tagF32)] fun _ =>
      one32 (BitVec.ofNat 32 (FFmt.round .f32 r ftz (((v p).mul (v q)).add (isRd r) (v t)))) .fp32)

/-! ### Minimum, maximum, compare (R158, R159) -/

/-- The element format of a VFmt, its tag, and its elements in 32 bits. -/
def vfmt : VFmt → FFmt
  | .f32 => .f32 | .f16x2 => .f16 | .bf16x2 => .bf16 | .f64 => .f64

def vfmtTag : VFmt → Tag
  | .f32 => .fp32 | .f16x2 => .fp16x2 | .bf16x2 => .bf16x2 | .f64 => .fp64l

/-- A code with its subnormal flushed. -/
def FFmt.flush (f : FFmt) (ftz : Bool) (c : Nat) : Nat :=
  if ftz && fld c (f.bits - 2) f.mb == 0 then f.signBit (bitAt c (f.bits - 1)) else c

/-- minimumNumber or maximumNumber of two codes (R144, R158). -/
def minMaxCode (f : FFmt) (mx ftz : Bool) (p q : Nat) : Nat :=
  let a := f.flush ftz p
  let b := f.flush ftz q
  let x := f.decode a
  let y := f.decode b
  if x.isNan && y.isNan then f.nan else if x.firstOf mx y then a else b

/-- Element by element in a packed or plain 32-bit register. -/
def mapFp (f : FFmt) (g : Nat → Nat → Nat) (a b : Word) : Word :=
  let n := f.bits
  BitVec.ofNat 32 (((upFrom 0 (32 / n)).map fun i =>
    g (a.toNat / 2 ^ (n * i) % 2 ^ n) (b.toNat / 2 ^ (n * i) % 2 ^ n) % 2 ^ n * 2 ^ (n * i)).sum)

def minMax (d : Dst) (a b : Src) (f : VFmt) (mx ftz : Bool) : Iss → State → Eff :=
  if f = .f64 then
    perLane (.fixed 4) (dstNames d 2) fun x l =>
      computed x (dstNames d 2) l (src64 x a l ++ src64 x b l) fun _ =>
        regs64 (minMaxCode .f64 mx ftz (x.pair a l) (x.pair b l))
  else op2 4 d [vfmtTag f] (vfmtTag f) (rd1 a) (rd1 b) (mapFp (vfmt f) (minMaxCode (vfmt f) mx ftz))

def execFmin (h : Hdr) (d : Dst) (a b : Src) (f : VFmt) (ftz : Bool) (s : State) : Host.Outcome State Fault Refusal :=
  issue (.fmin h d a b f ftz) s (minMax d a b f false ftz)

def execFmax (h : Hdr) (d : Dst) (a b : Src) (f : VFmt) (ftz : Bool) (s : State) : Host.Outcome State Fault Refusal :=
  issue (.fmax h d a b f ftz) s (minMax d a b f true ftz)

/-- The conditions of FCMP (R159). -/
def fcondHolds (c : FCond) (a b : FVal) : Bool :=
  let nan := a.isNan || b.isNan
  let k := a.cmp b
  match c with
  | .eq => !nan && k == 0
  | .ne => nan || k != 0
  | .lt => !nan && decide (k < 0)
  | .le => !nan && decide (k ≤ 0)
  | .gt => !nan && decide (0 < k)
  | .ge => !nan && decide (0 ≤ k)
  | .num => !nan
  | .nan => nan

def execFcmp (h : Hdr) (pd : Pred) (a b : Src) (f64 : Bool) (c : FCond) (ftz : Bool) (s : State) :
    Host.Outcome State Fault Refusal :=
  issue (.fcmp h pd a b f64 c ftz) s (perLane (.fixed 4) [] fun x l =>
    if f64 then
      compared pd (src64 x a l ++ src64 x b l) fun _ =>
        fcondHolds c (FFmt.decodeZ .f64 ftz (x.pair a l)) (FFmt.decodeZ .f64 ftz (x.pair b l))
    else
      compared pd [(x.src a 0 l, tagF32), (x.src b 0 l, tagF32)] fun _ =>
        fcondHolds c (FFmt.decodeZ .f32 ftz (x.src a 0 l).val.toNat) (FFmt.decodeZ .f32 ftz (x.src b 0 l).val.toNat))

/-! ### Functions (R162, R163) -/

def f32un (lat : Nat) (d : Dst) (a : Src) (f : Nat → Nat) : Iss → State → Eff :=
  op1 lat d tagF32 .fp32 (rd1 a) fun v => BitVec.ofNat 32 (f v.toNat)

def execFrcp (h : Hdr) (d : Dst) (a : Src) (r : Rnd) (ftz : Bool) (s : State) : Host.Outcome State Fault Refusal :=
  issue (.frcp h d a r ftz) s (f32un 10 d a fun v => FFmt.round .f32 r ftz (FFmt.decodeZ .f32 ftz v).recip)

def execFsqrt (h : Hdr) (d : Dst) (a : Src) (r : Rnd) (ftz : Bool) (s : State) : Host.Outcome State Fault Refusal :=
  issue (.fsqrt h d a r ftz) s (f32un 10 d a fun v => FFmt.round .f32 r ftz (FFmt.decodeZ .f32 ftz v).sqrt)

def execFrsq (h : Hdr) (d : Dst) (a : Src) (ftz : Bool) (s : State) : Host.Outcome State Fault Refusal :=
  issue (.frsq h d a ftz) s (f32un 10 d a fun v => frsqCode v ftz)

def execFexp2 (h : Hdr) (d : Dst) (a : Src) (ftz : Bool) (s : State) : Host.Outcome State Fault Refusal :=
  issue (.fexp2 h d a ftz) s (f32un 10 d a fun v => fexp2Code v ftz)

def execFlog2 (h : Hdr) (d : Dst) (a : Src) (ftz : Bool) (s : State) : Host.Outcome State Fault Refusal :=
  issue (.flog2 h d a ftz) s (f32un 10 d a fun v => flog2Code v ftz)

def execFsin (h : Hdr) (d : Dst) (a : Src) (ftz : Bool) (s : State) : Host.Outcome State Fault Refusal :=
  issue (.fsin h d a ftz) s (f32un 12 d a fun v => ftrigCode false v ftz)

def execFcos (h : Hdr) (d : Dst) (a : Src) (ftz : Bool) (s : State) : Host.Outcome State Fault Refusal :=
  issue (.fcos h d a ftz) s (f32un 12 d a fun v => ftrigCode true v ftz)

/-! ### Packed 16-bit arithmetic (R154, R160) -/

/-- The element format of a packed instruction, from its sources in order, or the field of the source that faults (R154). -/
def halfFmt (os : List Opd) : Except Nat FFmt :=
  let isHalf (t : Tag) : Bool := t == .fp16x2 || t == .bf16x2
  let fmt (t : Tag) : FFmt := if t = .bf16x2 then .bf16 else .f16
  match os.find? fun o => !o.konst with
  | some o =>
    if !isHalf o.tag then .error o.field
    else match os.find? fun p => !p.konst && p.tag != o.tag with
      | some p => .error p.field
      | none => .ok (fmt o.tag)
  | none =>
    match os.find? fun o => isHalf o.tag with
    | some o => .ok (fmt o.tag)
    | none => .ok .f16

def halfTag (f : FFmt) : Tag := if f = .bf16 then .bf16x2 else .fp16x2

/-- A packed instruction over its sources' elements. -/
def packed (d : Dst) (srcs : List Src) (r : Rnd) (ftz sat : Bool) (f : List FVal → FVal) : Iss → State → Eff :=
  perLane (.fixed 4) (dstNames d 1) fun x l =>
    let os := srcs.map fun a => x.src a 0 l
    if os.any Opd.pois then .poison x.ticket (dstNames d 1) l
    else match halfFmt os with
      | .error field => .trap (.of eTag field)
      | .ok fm =>
        let el (i : Nat) : Nat :=
          fm.round r ftz (satIf sat (f (os.map fun o => fm.decodeZ ftz (o.val.toNat / 2 ^ (16 * i) % 2 ^ 16))))
        .of (one32 (BitVec.ofNat 32 (el 0 + 2 ^ 16 * el 1)) (halfTag fm))

/-- Sum and product over argument lists. -/
def fsum (rd : Bool) : List FVal → FVal
  | [a, b] => a.add rd b
  | _ => .nan
def fprod : List FVal → FVal
  | [a, b] => a.mul b
  | _ => .nan
def fmadd (rd : Bool) : List FVal → FVal
  | [a, b, c] => (a.mul b).add rd c
  | _ => .nan

def execHadd2 (h : Hdr) (d : Dst) (a b : Src) (r : Rnd) (ftz sat : Bool) (s : State) : Host.Outcome State Fault Refusal :=
  issue (.hadd2 h d a b r ftz sat) s (packed d [a, b] r ftz sat (fsum (isRd r)))

def execHmul2 (h : Hdr) (d : Dst) (a b : Src) (r : Rnd) (ftz sat : Bool) (s : State) : Host.Outcome State Fault Refusal :=
  issue (.hmul2 h d a b r ftz sat) s (packed d [a, b] r ftz sat fprod)

def execHfma2 (h : Hdr) (d : Dst) (a b c : Src) (r : Rnd) (ftz : Bool) (s : State) : Host.Outcome State Fault Refusal :=
  issue (.hfma2 h d a b c r ftz) s (packed d [a, b, c] r ftz false (fmadd (isRd r)))

/-! ### binary64 (R161) -/

def f64op (d : Dst) (srcs : List Src) (r : Rnd) (ftz : Bool) (f : List FVal → FVal) : Iss → State → Eff :=
  perLane (.fixed 8) (dstNames d 2) fun x l =>
    computed x (dstNames d 2) l (srcs.flatMap fun a => src64 x a l) fun _ =>
      regs64 (FFmt.round .f64 r ftz (f (srcs.map fun a => FFmt.decodeZ .f64 ftz (x.pair a l))))

def execDadd (h : Hdr) (d : Dst) (a b : Src) (r : Rnd) (ftz : Bool) (s : State) : Host.Outcome State Fault Refusal :=
  issue (.dadd h d a b r ftz) s (f64op d [a, b] r ftz (fsum (isRd r)))

def execDmul (h : Hdr) (d : Dst) (a b : Src) (r : Rnd) (ftz : Bool) (s : State) : Host.Outcome State Fault Refusal :=
  issue (.dmul h d a b r ftz) s (f64op d [a, b] r ftz fprod)

def execDfma (h : Hdr) (d : Dst) (a b c : Src) (r : Rnd) (ftz : Bool) (s : State) : Host.Outcome State Fault Refusal :=
  issue (.dfma h d a b c r ftz) s (f64op d [a, b, c] r ftz (fmadd (isRd r)))

/-! ### Conversions (R164 to R167) -/

/-- Element bits of a conversion format. -/
def cfmtBits : CFmt → Nat
  | .i32 => 32 | .f32 => 32 | .f16x2 => 16 | .bf16x2 => 16 | .e4m3x4 => 8 | .e5m2x4 => 8 | .e2m1x8 => 4 | .e8m0x4 => 8
  | .f64 => 64 | .i8x4 => 8 | .i16x2 => 16

/-- The floating-point format with a sign, for those that have one. -/
def cfmtF : CFmt → Option FFmt
  | .f32 => some .f32 | .f16x2 => some .f16 | .bf16x2 => some .bf16 | .e4m3x4 => some .e4m3 | .e5m2x4 => some .e5m2
  | .e2m1x8 => some .e2m1 | .f64 => some .f64
  | _ => none

def cfmtInt : CFmt → Bool
  | .i32 => true
  | .i8x4 => true
  | .i16x2 => true
  | _ => false

/-- The tags of the registers of one unit. -/
def cfmtTags : CFmt → List Tag
  | .i32 => [.i32] | .f32 => [.fp32] | .f16x2 => [.fp16x2] | .bf16x2 => [.bf16x2] | .e4m3x4 => [.e4m3x4] | .e5m2x4 => [.e5m2x4]
  | .e2m1x8 => [.e2m1x8] | .e8m0x4 => [.e8m0x4] | .f64 => [.fp64l, .fp64h] | .i8x4 => [.i8x4] | .i16x2 => [.i16x2]

/-- The value of an element of a source (R166): integers exactly; E2M1 with scale 0x7F and the spare off (R139). -/
def cfmtRead (f : CFmt) (u ftz : Bool) (c : Nat) : FVal :=
  match cfmtF f with
  | some g => g.decodeZ ftz c
  | none =>
    if cfmtInt f then
      let v := readInt u (cfmtBits f) c
      .fin (decide (v < 0)) v.natAbs 0
    else decodeE8M0 c

/-- The largest finite value of a destination. -/
def FFmt.largest (f : FFmt) : FVal := f.decode f.maxCode

/-- The clamp of .sat in a conversion (R166). -/
def clampTo (f : FFmt) (v : FVal) : FVal :=
  match v with
  | .nan => .nan
  | .inf s => if s then f.largest.neg else f.largest
  | v => if 0 < v.cmp f.largest then f.largest else if v.cmp f.largest.neg < 0 then f.largest.neg else v

/-- A value rounded to an integer format, always saturating (R166). -/
def toIntFmt (n : Nat) (u : Bool) (r : Rnd) (v : FVal) : Nat :=
  let lo : Int := if u then 0 else -(2 : Int) ^ (n - 1)
  let hi : Int := if u then (2 : Int) ^ n - 1 else (2 : Int) ^ (n - 1) - 1
  match v with
  | .nan => 0
  | .inf s => wrapInt n (if s then lo else hi)
  | .fin s m e =>
    let q : Int := (roundTo r s m e 0 : Nat)
    wrapInt n (clampInt lo hi (if s then -q else q))

/-- One element of a conversion: `sr` holds the upper half of the generator's state for CVTS. -/
def cvtElem (df : CFmt) (u : Bool) (r : Rnd) (ftz sat : Bool) (sr : Option Nat) (v : FVal) : Nat :=
  match cfmtF df with
  | some g =>
    let w := if sat then clampTo g v else v
    (match sr with
     | some rnd => g.roundSr rnd ftz w
     | none => g.round r ftz w)
  | none => toIntFmt (cfmtBits df) u r v

/-- The source elements of a conversion, in order. -/
def cvtSource (x : Iss) (a : Src) (df sf : CFmt) (u ftz : Bool) (l : Nat) : List FVal :=
  (upFrom 0 (cvtCount df sf)).map fun j =>
    let unit := j / sf.n
    let word := if sf.regs = 2 then (x.src a (2 * unit) l).val.toNat + 2 ^ 32 * (x.src a (2 * unit + 1) l).val.toNat
      else (x.src a unit l).val.toNat
    cfmtRead sf u ftz (word / 2 ^ (cfmtBits sf * (j % sf.n)) % 2 ^ cfmtBits sf)

/-- The destination registers that hold the elements. -/
def cvtPack (df sf : CFmt) (els : List Nat) : List Reg :=
  (upFrom 0 (cvtUnits df sf df)).flatMap fun k =>
    let v := ((upFrom 0 df.n).map fun j => lget els (k * df.n + j) 0 * 2 ^ (cfmtBits df * j)).sum
    (upFrom 0 df.regs).map fun i => ⟨BitVec.ofNat 32 (v / 2 ^ (32 * i)), lget (cfmtTags df) i .raw⟩

/-- The source checks of a conversion: the format's tags, RAW too for an integer source. -/
def cvtChecks (x : Iss) (a : Src) (df sf : CFmt) (l : Nat) : List (Opd × List Tag) :=
  (upFrom 0 (cvtUnits df sf sf * sf.regs)).map fun i =>
    (x.src a i l, lget (cfmtTags sf) (i % sf.regs) .raw :: (if cfmtInt sf then [.raw] else []))

def cvtNames (d : Dst) (df sf : CFmt) : List RName := dstNames d (cvtUnits df sf df * df.regs)

def execCvt (h : Hdr) (d : Dst) (a : Src) (df sf : CFmt) (u : Bool) (r : Rnd) (ftz sat : Bool) (s : State) :
    Host.Outcome State Fault Refusal :=
  issue (.cvt h d a df sf u r ftz sat) s (perLane (.fixed 4) (cvtNames d df sf) fun x l =>
    computed x (cvtNames d df sf) l (cvtChecks x a df sf l) fun _ =>
      cvtPack df sf ((cvtSource x a df sf u ftz l).map (cvtElem df u r ftz sat none)))

/-- The states of the generator after each of n steps. -/
def seedRun : Nat → Nat → List Nat
  | 0, _ => []
  | n + 1, x => let y := seedStep x; y :: seedRun n y

def execCvts (h : Hdr) (d : Dst) (a : Src) (df sf : CFmt) (u : Bool) (ftz sat : Bool) (s : State) :
    Host.Outcome State Fault Refusal :=
  issue (.cvts h d a df sf u ftz sat) s (perLane (.fixed 4) (cvtNames d df sf) fun x l =>
    let seed := (x.w.read x.ticket x.now .seed l).val.toNat
    let run := seedRun (cvtCount df sf) seed
    let res := computed x (cvtNames d df sf) l (cvtChecks x a df sf l) fun _ =>
      cvtPack df sf (((cvtSource x a df sf u ftz l).zip run).map fun p => cvtElem df u .rn ftz sat (some (p.2 / 2 ^ 16)) p.1)
    if res.fault.isSome then res else { res with seed := some (BitVec.ofNat 32 (run.getLast?.getD seed)) })

/-! ### PACK, UNPACK, RETAG, SCALE (R168 to R171) -/

def execPack (h : Hdr) (d : Dst) (a b : Src) (m : PackMode) (s : State) : Host.Outcome State Fault Refusal :=
  issue (.pack h d a b m) s (perLane (.fixed 3) (dstNames d 1) fun x l =>
    let p := x.src a 0 l
    let q := x.src b 0 l
    let v : Word := match m with
      | .lo => (q.val <<< 16) ||| (p.val &&& 0xFFFF)
      | .hi => (q.val &&& 0xFFFF0000) ||| (p.val >>> 16)
      | .lohi => (q.val &&& 0xFFFF0000) ||| (p.val &&& 0xFFFF)
    let keep : List Tag := [.fp16x2, .bf16x2, .i16x2, .e4m3x4, .e5m2x4, .e8m0x4, .i8x4, .e2m1x8]
    let t : Tag := if p.tag = .poison ∨ q.tag = .poison then .poison
      else if p.tag = q.tag ∧ keep.contains p.tag then p.tag else .raw
    .of (if t = .poison then poisRegs x.ticket (dstNames d 1) l else one32 v t))

def execUnpack (h : Hdr) (d : Dst) (a : Src) (m : UnpackMode) (s : State) : Host.Outcome State Fault Refusal :=
  issue (.unpack h d a m) s (perLane (.fixed 3) (dstNames d 1) fun x l =>
    let p := x.src a 0 l
    let v : Word := match m with
      | .lo => p.val &&& 0xFFFF
      | .hi => p.val >>> 16
      | .swap => (p.val <<< 16) ||| (p.val >>> 16)
    .of (one32 v p.tag))

/-- RETAG never removes POISON (R170). -/
def retagReg (o : Opd) (t : Tag) : Reg := ⟨o.val, if o.tag = .poison then .poison else t⟩

def execRetag (h : Hdr) (d : Dst) (a : Src) (t : Tag) (s : State) : Host.Outcome State Fault Refusal :=
  issue (.retag h d a t) s (perLane (.fixed 2) (dstNames d 1) fun x l => .of [retagReg (x.src a 0 l) t])

/-- The exponent of SCALE, or none for the E8M0 NaN (R171). -/
def scaleExp (m : ScaleMode) (b : Word) : Option Int :=
  let c := b.toNat % 256
  match m with
  | .i => some (sintOf 32 b.toNat)
  | .mul => if c = 255 then none else some ((c : Int) - 127)
  | .div => if c = 255 then none else some (127 - (c : Int))

/-- The exponent as far as it can matter: any magnitude past these bounds rounds as the bound does. -/
def boundExp (k : Int) : Int := clampInt (-8192) 8192 k

def scaleCode (f : FFmt) (r : Rnd) (ftz : Bool) (k : Option Int) (c : Nat) : Nat :=
  match k with
  | none => f.nan
  | some k =>
    match f.decodeZ ftz c with
    | .fin s m e => f.round r ftz (if m = 0 then .zero s else .fin s m (e + boundExp k))
    | v => f.round r ftz v

def execScale (h : Hdr) (d : Dst) (a b : Src) (m : ScaleMode) (f : VFmt) (r : Rnd) (ftz : Bool) (s : State) :
    Host.Outcome State Fault Refusal :=
  let bt : List Tag := if m = .i then intTags else [.e8m0x4]
  issue (.scale h d a b m f r ftz) s (perLane (.fixed 4) (dstNames d (vfmtRegs f)) fun x l =>
    let q := x.src b 0 l
    if f = .f64 then
      computed x (dstNames d 2) l (src64 x a l ++ [(q, bt)]) fun _ =>
        regs64 (scaleCode .f64 r ftz (scaleExp m q.val) (x.pair a l))
    else
      let p := x.src a 0 l
      computed x (dstNames d 1) l [(p, [vfmtTag f]), (q, bt)] fun _ =>
        one32 (mapFp (vfmt f) (fun c _ => scaleCode (vfmt f) r ftz (scaleExp m q.val) c) p.val 0) (vfmtTag f))

/-! ### Blocks of 32 (R172 to R176) -/

/-- A block: whether a contributing lane is POISON, and the 32 element codes, +0 where a lane contributes nothing. -/
structure Blk where
  pois : Bool
  codes : List Nat
  deriving DecidableEq, Repr

/-- The block of pass k, over the lanes that do not fault. -/
def blockOfPass (x : Iss) (a : Src) (ok : Nat → Bool) (k : Nat) : Blk :=
  let lanes := x.act.filter fun l => l / 32 == k && ok l
  ⟨lanes.any fun l => (x.src a 0 l).pois,
   (upFrom 0 32).map fun i => if lanes.contains (32 * k + i) then (x.src a 0 (32 * k + i)).val.toNat else 0⟩

/-- A lane's result from its block. A POISON source raises no fault, whatever the tags of the others (R148). -/
def fromBlock (x : Iss) (d : Dst) (l : Nat) (b : Blk) (srcs : List (Opd × List Tag)) (f : Unit → Reg) : LaneRes :=
  match checkTags srcs with
  | .pois => .poison x.ticket (dstNames d 1) l
  | .bad field => .trap (.of eTag field)
  | .good => if b.pois then .poison x.ticket (dstNames d 1) l else .of [f ()]

/-- The exponent of the largest magnitude, when some element is not zero. -/
def maxExp (vs : List FVal) : Option Int :=
  vs.foldl (fun acc v => match v with
    | .fin _ m e => if m = 0 then acc else match acc with
        | none => some (e + (Nat.log2 m : Int))
        | some k => some (max k (e + (Nat.log2 m : Int)))
    | _ => acc) none

def isFin : FVal → Bool
  | .fin .. => true
  | _ => false

/-- The E8M0 scale of BLKSCALE (R173). -/
def blkScale (t : BlkTarget) (codes : List Nat) : Nat :=
  let vs := codes.map (FFmt.decode .f32)
  if !vs.all isFin then 0xFF
  else match maxExp vs with
    | none => 0x7F
    | some k => (clampInt 0 254 (k - (match t with | .e4m3 => 8 | .e5m2 => 15 | .e2m1 => 2) + 127)).toNat

def execBlkscale (h : Hdr) (d : Dst) (a : Src) (t : BlkTarget) (s : State) : Host.Outcome State Fault Refusal :=
  issue (.blkscale h d a t) s fun x s =>
    let ok (l : Nat) : Bool := (x.src a 0 l).ok (.poison :: tagF32)
    let blocks := (upFrom 0 4).map fun k => blockOfPass x a ok k
    perLane (.fixed 6) (dstNames d 1) (fun x l =>
      let b := lget blocks (l / 32) ⟨false, []⟩
      fromBlock x d l b [(x.src a 0 l, tagF32)] fun _ => ⟨BitVec.ofNat 32 (blkScale t b.codes * 0x01010101), .e8m0x4⟩) x s

/-- A finite FP32 value, or an element value of R138, in units of 2^-149. -/
def in149 (v : FVal) : Int :=
  match v with
  | .fin s m e =>
    let n : Int := if 0 ≤ e + 149 then ((m * 2 ^ (e + 149).toNat : Nat) : Int) else ((m / 2 ^ (-(e + 149)).toNat : Nat) : Int)
    if s then -n else n
  | _ => 0

/-- Multiply by 2^k. -/
def scaleV (k : Int) : FVal → FVal
  | .fin s m e => .fin s m (e + k)
  | v => v

/-- The candidate codes with their values at a scale and a spare (R138, R174); a spare of 0xFF is off. -/
def quantValues (sc q : Nat) : List (Nat × Int) :=
  let k : Int := (sc : Int) - 127
  (upFrom 0 16).filterMap fun c =>
    if c = 8 then (if q = 0xFF then none else some (8, in149 (scaleV k (FFmt.decode .e4m3 q))))
    else some (c, in149 (scaleV k (FFmt.decode .e2m1 c)))

/-- The code nearest to x: ties to a zero lowest mantissa bit, then to the lower code. -/
def nearestCode (vals : List (Nat × Int)) (x : Int) : Nat × Nat :=
  match leastBy (fun p => ((p.2 - x).natAbs * 2 + p.1 % 2) * 16 + p.1) vals with
  | some p => (p.1, (p.2 - x).natAbs)
  | none => (0, 0)

def quantErr (sc q : Nat) (xs : List Int) : Nat :=
  let vals := quantValues sc q
  xs.foldl (fun m x => max m (nearestCode vals x).2) 0

/-- The choice of QUANT: scale, spare, codes (R174). -/
def quantBlock (spare : Bool) (codes : List Nat) : Nat × Nat × List Nat :=
  let vs := codes.map (FFmt.decode .f32)
  if !vs.all isFin then (0xFF, 0xFF, List.replicate 32 0)
  else match maxExp vs with
    | none => (0x7F, 0xFF, List.replicate 32 0)
    | some k =>
      let e0 := k - 2 + 127
      let s0 := (clampInt 0 254 e0).toNat
      let s1 := (clampInt 0 254 (e0 + 1)).toNat
      let xs := vs.map in149
      let spares := if spare then (upFrom 0 256).filter fun q => q != 0x7F && q != 0xFF else []
      -- in the order in which ties are broken
      let cands := [(s0, 0xFF), (s1, 0xFF)] ++ spares.map (fun q => (s0, q)) ++ spares.map (fun q => (s1, q))
      match leastBy (fun c => quantErr c.1 c.2 xs) cands with
      | some c => (c.1, c.2, xs.map fun x => (nearestCode (quantValues c.1 c.2) x).1)
      | none => (s0, 0xFF, [])

def execQuant (h : Hdr) (d : Dst) (a b : Src) (isMeta : Bool) (s : State) : Host.Outcome State Fault Refusal :=
  issue (.quant h d a b isMeta) s fun x s =>
    let ok (l : Nat) : Bool := match checkTags [(x.src a 0 l, tagF32), (x.src b 0 l, intTags)] with
      | .bad _ => false
      | _ => true
    let blocks := (upFrom 0 4).map fun k =>
      let bl := blockOfPass x a ok k
      (bl, quantBlock false bl.codes, quantBlock true bl.codes)
    perLane (.fixed 8) (dstNames d 1) (fun x l =>
      let b3 := lget blocks (l / 32) (⟨false, []⟩, (0, 0, []), (0, 0, []))
      let q := x.src b 0 l
      let c := if bitAt q.val.toNat 0 then b3.2.2 else b3.2.1
      fromBlock x d l b3.1 [(x.src a 0 l, tagF32), (q, intTags)] fun _ =>
        if isMeta then ⟨BitVec.ofNat 32 (c.1 + 256 * c.2.1), .raw⟩
        else ⟨BitVec.ofNat 32 (((upFrom 0 8).map fun j => lget c.2.2 (8 * (l % 4) + j) 0 * 2 ^ (4 * j)).sum), .e2m1x8⟩) x s

/-! ### Paired words (R53 to R55, R72) -/

/-- A vector register of a half. -/
def vsrc (n : Fin 256) : Src := .v ⟨n.val, by omega⟩

/-- One half in one thread: the equivalent instruction of R72. -/
def halfLane (x : Iss) (hf : Half) (l : Nat) : LaneRes :=
  let nm (d : Fin 256) : List RName := [.v d.val]
  let ar (d s : Fin 256) (f : Int → Int → Int) : LaneRes :=
    let p := x.src (vsrc d) 0 l
    let q := x.src (vsrc s) 0 l
    computed x (nm d) l [(p, intTags), (q, intTags)] fun _ => one32 (elemOp .i32 false false f p.val q.val) .i32
  let bw (d s : Fin 256) (f : Word → Word → Word) : LaneRes :=
    let p := x.src (vsrc d) 0 l
    let q := x.src (vsrc s) 0 l
    computed x (nm d) l [(p, anyTag), (q, anyTag)] fun _ => one32 (f p.val q.val) .raw
  let un (d s : Fin 256) (tags : List Tag) (t : Tag) (f : Word → Word) : LaneRes :=
    let q := x.src (vsrc s) 0 l
    computed x (nm d) l [(q, tags)] fun _ => one32 (f q.val) t
  let fp (d s : Fin 256) (f : Nat → Nat → Nat) : LaneRes :=
    let p := x.src (vsrc d) 0 l
    let q := x.src (vsrc s) 0 l
    computed x (nm d) l [(p, tagF32), (q, tagF32)] fun _ => one32 (BitVec.ofNat 32 (f p.val.toNat q.val.toNat)) .fp32
  match hf with
  | .nop => .nothing
  | .mov _ s => .of (copyRegs x (vsrc s) 1 l)
  | .movi _ k => .of (one32 (k.signExtend 32) .i32)
  | .iadd d s => ar d s fun p q => p + q
  | .isub d s => ar d s fun p q => p - q
  | .imin d s => ar d s fun p q => if q < p then q else p
  | .imax d s => ar d s fun p q => if p < q then q else p
  | .and d s => bw d s fun p q => p &&& q
  | .or d s => bw d s fun p q => p ||| q
  | .xor d s => bw d s fun p q => p ^^^ q
  | .not d s => un d s anyTag .raw fun p => ~~~p
  | .ineg d s => un d s intTags .i32 fun p => -p
  | .shl d s n => un d s anyTag .raw fun p => shlWord p (BitVec.ofNat 32 n.val)
  | .shr d s n => un d s anyTag .raw fun p => shrWord p (BitVec.ofNat 32 n.val)
  | .sar d s n => un d s anyTag .raw fun p => sarWord p (BitVec.ofNat 32 n.val)
  | .fadd d s r ftz => fp d s fun p q =>
      FFmt.round .f32 r ftz ((FFmt.decodeZ .f32 ftz p).add (isRd r) (FFmt.decodeZ .f32 ftz q))
  | .fmul d s r ftz => fp d s fun p q => FFmt.round .f32 r ftz ((FFmt.decodeZ .f32 ftz p).mul (FFmt.decodeZ .f32 ftz q))
  | .fmin d s => fp d s (minMaxCode .f32 false false)
  | .fmax d s => fp d s (minMaxCode .f32 true false)
  | .retag _ s t => .of [retagReg (x.src (vsrc s) 0 l) t]

/-- The latency of a half (R66, R72). -/
def halfLat : Half → Nat
  | .fadd .. => 4 | .fmul .. => 4 | .fmin .. => 4 | .fmax .. => 4
  | _ => 2

def halfNames (hf : Half) : List RName := match hf.dst with
  | some d => [.v d]
  | none => []

/-- Both halves read before either writes; a fault of either half stops both for that thread, and names X first (R55). -/
def execPairedWord (h : PHdr) (p q : Half) (s : State) : Host.Outcome State Fault Refusal :=
  issue (.pairedWord h p q) s fun x s =>
    let rs := x.act.map fun l => (l, halfLane x p l, halfLane x q l)
    let flt (r : Nat × LaneRes × LaneRes) : Option Flt :=
      match r.2.1.fault, r.2.2.fault with
      | some f, _ => some f
      | none, some f => some { f with kind := 1 }
      | none, none => none
    let good := rs.filter fun r => (flt r).isNone
    let e1 := s.commit x (.fixed (halfLat p)) (halfNames p) (good.map fun r => (r.1, r.2.1))
    let e2 := e1.s.commit x (.fixed (halfLat q)) (halfNames q) (good.map fun r => (r.1, r.2.2))
    e2.s.commit x .var [] (rs.filterMap fun r => (flt r).map fun f => (r.1, .trap f))

end Sys2Proof.Machine
end

