-- ==== Sys2Proof/Machine/Grp.lean ====
section
/-! DEFINITION. Groups, barriers, pens and the watchdog (R324 to R346). -/

namespace Sys2Proof.Machine

/-! ### Contexts: a core's active one and those parked or saved -/

def Twin.map (t : Twin) (f : Ctx → Ctx) : Twin :=
  match t with
  | .free => .free
  | .staged c => .staged (f c)
  | .parked c => .parked (f c)

def Twin.ctx? : Twin → List Ctx
  | .free => []
  | .staged c => [c]
  | .parked c => [c]

/-- Every context of a core. -/
def Core.ctxs (k : Core) : List Ctx := k.ctx :: k.twin.ctx? ++ k.saved.map fun p => p.2

/-- Change every context of a core. -/
def State.mapCtxs (s : State) (c : Nat) (f : Ctx → Ctx) : State :=
  s.setCore c fun k => { k with ctx := f k.ctx, twin := k.twin.map f, saved := k.saved.map fun p => (p.1, f p.2) }

/-- Change a warp of a launch, resident or parked. -/
def State.modWarp (s : State) (c w launch : Nat) (f : Warp → Warp) : State :=
  s.mapCtxs c fun x => { x with warps := mmod x.warps w fun p => if p.launch = launch then f p else p }

/-- Change a thread of a launch, resident or parked. -/
def State.modThread (s : State) (t : TRef) (launch : Nat) (f : Thread → Thread) : State :=
  s.modWarp t.core t.warp launch fun w => { w with threads := lmod w.threads t.lane f }

/-- Change the view of a launch on a core, active or parked. -/
def State.modView (s : State) (c l : Nat) (f : View → View) : State :=
  s.mapCtxs c fun x => { x with views := mmod x.views l f }

def State.viewAny (s : State) (c l : Nat) : Option View := (s.core c).ctxs.findSome? fun x => mget? x.views l

/-- The threads of a launch on a core, with whether they are resident. -/
def Core.threadsOf (k : Core) (c launch : Nat) : List (TRef × Bool × Thread) :=
  let of (res : Bool) (x : Ctx) : List (TRef × Bool × Thread) :=
    (x.warps.filter fun w => w.2.launch == launch).flatMap fun w =>
      ((upFrom 0 w.2.threads.length).zip w.2.threads).map fun t => (⟨c, w.1, t.1⟩, res, t.2)
  of true k.ctx ++ (k.twin.ctx? ++ k.saved.map fun p => p.2).flatMap (of false)

/-- The cores that a group's class and scope span (R324). -/
def scopeCores (h : Nat) : List Nat :=
  match handleClass h with
  | 0 => [handleScope h]
  | 1 => upFrom (8 * handleScope h) 8
  | _ => upFrom 0 64

/-- The threads of a launch within a group's scope. -/
def State.scopeThreads (s : State) (launch h : Nat) : List (TRef × Bool × Thread) :=
  (scopeCores h).flatMap fun c => (s.core c).threadsOf c launch

/-- A thread becomes READY, resident or parked. -/
def State.wakeAny (s : State) (t : TRef) (launch : Nat) (resident : Bool) : State :=
  if resident then s.wake t
  else s.modThread t launch fun th => if th.isExited then th else { th with st := .ready }

/-- Whether a launch still runs. -/
def State.alive (s : State) (launch : Nat) : Bool := ((s.launch? launch).map fun l => l.ended.isNone).getD false

/-! ### Acquire and release (R270, R310, R315) -/

/-- What either of two agents had acquired. -/
def Acqs.join (a b : Acqs) : Acqs := (max a.1 b.1, max a.2 b.2)

def Thread.acqs (t : Thread) : Acqs := (t.acqDie, t.acqPkg)

/-- An acquire at a reach: 0 CORE, 1 DIE, 2 PACKAGE, 3 SYSTEM (R270). At CORE reach, what its core has issued so far happens
before what the thread does next; at CORE and DIE reach, so does what the releasing agents had themselves acquired (R314). -/
def Thread.acquire (t : Thread) (reach stamp upto : Nat) (pub : Acqs) : Thread :=
  if reach = 0 then { t with hbUpto := upto, acqDie := max t.acqDie pub.1, acqPkg := max t.acqPkg pub.2 }
  else if reach = 1 then { t with acqDie := stamp, acqPkg := max t.acqPkg pub.2 }
  else { t with acqDie := stamp, acqPkg := stamp }

/-- What the release sequence of a location had acquired (R312, R314). -/
def State.pubAt (s : State) (die place : Nat) : Acqs := mget (s.die die).pubs place (0, 0)

/-- A plain write, or the head of a release sequence: what it publishes replaces what its bytes published (R312). -/
def State.publish (s : State) (die place size : Nat) (a : Acqs) : State :=
  s.setDie die fun d =>
    { d with pubs := msetD (0, 0) (d.pubs.filter fun p => !(decide (place ≤ p.1) && decide (p.1 < place + size))) place a }

/-- A write by an agent that publishes nothing ends the release sequences of its bytes in every die (R312). -/
def State.unpublish (s : State) (place size : Nat) : State := (upFrom 0 8).foldl (fun s k => s.publish k place size (0, 0)) s

/-- Whether an access has been made visible at a reach: to the core once it has left its queue or returned, elsewhere once
it has been performed. -/
def Acc.doneAt (a : Acc) (reach : Nat) : Bool :=
  a.performed || (reach == 0 && !a.queued && (match a.kind with
    | .store .. => true
    | _ => false))

/-- Whether an access is one of a thread. -/
def Acc.isOf (a : Acc) (t : TRef) : Bool :=
  match a.who with
  | .thread u => u.core == t.core && u.warp == t.warp && a.lanes.contains t.lane
  | .score _ => false

/-- Whether every access of the threads numbered below `upto` is visible at a reach, and beyond the core also what happened
before by a synchronisation within it (R314). -/
def State.released (s : State) (ths : List TRef) (upto reach : Nat) : Bool :=
  let hb (t : TRef) : Nat := ((s.thread? t).map fun th => th.hbUpto).getD 0
  s.accs.all fun a => decide (upto ≤ a.id) || a.doneAt reach || !(ths.any fun t => a.isOf t
    || (reach != 0 && decide (a.id < hb t) && (match a.who with
        | .thread u => u.core == t.core
        | .score _ => false) && (match a.kind with
        | .store .. => true
        | .discard _ => true
        | _ => false)))

/-! ### Barriers (R334, R335, R190) -/

/-- The reach of a group: CORE, DIE, or PACKAGE for WIDE and ALL (R335). -/
def groupReach (h : Nat) : Nat :=
  match handleClass h with
  | 0 => 0
  | 1 => 1
  | _ => 2

/-- The mark of a thread whose WIDE barrier has completed and whose die has not yet received it (R335). -/
def releasedMark (h : Nat) : Nat := h + 2 ^ 32

/-- A completion that releases warps on two or more cores of a die holds those cores' released warps (R190). -/
def State.holdReleased (s : State) (k : Nat) (ths : List TRef) : State :=
  let ws := ((ths.filter fun t => dieOf t.core == k).map fun t => (t.core, t.warp)).eraseDups
  let cs := (ws.map fun w => w.1).eraseDups
  if (s.die k).ring.massen && decide (2 ≤ cs.length) then
    let s1 := ws.foldl (fun s w => s.setWarp w.1 w.2 fun x => { x with held := true }) s
    (s1.setDie k fun d =>
      { d with ring := { d.ring with heldCores := cs.foldl (fun l c => markIn l (c % 8)) d.ring.heldCores } }).post (.massReleaseAdmit k)
  else s

/-- Release threads of a completed barrier: READY, with an acquire at the group's reach of what every one of them had acquired. -/
def State.releaseThreads (s : State) (launch h : Nat) (ts : List (TRef × Bool × Thread)) : State :=
  let s0 := s.tickStamp
  let pub := ts.foldl (fun (m : Acqs) t => m.join t.2.2.acqs) (0, 0)
  let s1 := ts.foldl (fun s t =>
    (s.modThread t.1 launch fun th => th.acquire (groupReach h) s0.stamp s0.nextId pub).wakeAny t.1 launch t.2.1) s0
  (upFrom 0 8).foldl (fun s k => s.holdReleased k ((ts.filter fun t => t.2.1).map fun t => t.1)) s1

/-- Complete the barrier of a group when every current member has arrived and every arrival has released its accesses
(R334, R335). A WIDE completion reaches each die by an event of its own. -/
def State.tryBarrier (s : State) (launch h : Nat) : State :=
  let ths := s.scopeThreads launch h
  let isMember (t : Thread) : Bool := if h = allHandle then !t.isExited else t.groups.contains h
  let members := ths.filter fun t => isMember t.2.2
  let unadmitted := h == allHandle &&
    ((s.launch? launch).map fun l => decide (l.admitted < l.grid)).getD false
  let arrived := members.filter fun t => t.2.2.st == .group h
  -- a launch that the loss of a die has ended completes no barrier any more (R355)
  let ended := ((s.launch? launch).map fun l => l.ended.isSome).getD false
  if members.isEmpty || ended || unadmitted || arrived.length != members.length
      || !s.released (arrived.map fun t => t.1) s.nextId (groupReach h) then s
  else if handleClass h < 2 then s.releaseThreads launch h arrived
  else
    let s1 := arrived.foldl (fun s t => s.modThread t.1 launch fun th => { th with st := .group (releasedMark h) }) s
    let dies := (arrived.map fun t => dieOf t.1.core).eraseDups
    dies.foldl (fun s k => s.post (.wideBarrierCompletion launch (handleIndex h) k)) s1

/-- WIDE_BARRIER_COMPLETION: a die receives the completion; its arrived threads become READY in one cycle (R335). -/
def execWideBarrierCompletion (launch index die : Nat) (s : State) : Host.Outcome State Fault Refusal :=
  let ths := (upFrom (8 * die) 8).flatMap fun c => (s.core c).threadsOf c launch
  let hit := ths.filter fun t => match t.2.2.st with
    | .group m => decide (2 ^ 32 ≤ m) && handleIndex (m - 2 ^ 32) == index
    | _ => false
  .next (s.releaseThreads launch (2 ^ 31) hit)

/-- After a change of a thread's arrivals, accesses or memberships: check the barriers that may now complete. -/
def State.tryBarriers (s : State) (launch : Nat) (hs : List Nat) : State := hs.foldl (fun s h => s.tryBarrier launch h) s

/-! ### Dissolution (R329) and the release of tile registers (R224, R230) -/

/-- Whether a command still names a slot or a tile register. -/
def MCmd.slotsOf (m : MCmd) : List Nat :=
  match m.kind with
  | .mma ma mb .. => [ma, mb, mb + 1]
  | _ => []

/-- Every matrix command of a context that has not completed, those not settled into a queue yet among them. -/
def Ctx.matCmds (x : Ctx) : List MCmd :=
  (x.mat.queues.flatMap fun q => q.2) ++ (x.mat.cur.map fun c => c.2).toList ++ x.settles.filterMap fun e => match e.act with
    | .queue _ c => some c
    | _ => none

/-- RELEASING slots and tile registers that no earlier command or read names become FREE (R230). -/
def Ctx.settle (x : Ctx) : Ctx :=
  let cmds := x.matCmds
  let slotBusy (l n upto : Nat) : Bool :=
    (cmds.any fun m => m.launch == l && decide (m.id < upto) && m.slotsOf.contains n)
      || (x.copyQ.any fun m => m.launch == l && decide (m.id < upto) && m.slots.contains n)
  let tileBusy (l n upto : Nat) : Bool :=
    (cmds.any fun m => m.launch == l && decide (m.id < upto) && m.tile == n)
      || (x.warps.any fun w => w.2.pend.any fun p => decide (p.id < upto) && (match p.src with
          | .trd l' t _ _ _ _ => l' == l && t == n
          | _ => false))
  { x with views := x.views.map fun v => (v.1, { v.2 with
      slots := ((upFrom 0 v.2.slots.length).zip v.2.slots).map fun q => match q.2.st with
        | .releasing upto => if slotBusy v.1 q.1 upto then q.2 else { q.2 with st := .free }
        | _ => q.2,
      tiles := ((upFrom 0 v.2.tiles.length).zip v.2.tiles).map fun q => match q.2.st with
        | .releasing upto => if tileBusy v.1 q.1 upto then q.2 else { q.2 with st := .free }
        | _ => q.2 }) }

/-- A group dissolves: its record is free, and every tile register that it holds begins its release (R329). -/
def State.dissolve (s : State) (launch h : Nat) : State :=
  let s1 := s.setGtable h fun t => { t with recs := mdel t.recs (handleIndex h) }
  (scopeCores h).foldl (fun s c =>
    let drop (t : Tile) : Tile := if t.st == .claimed h then { t with st := .releasing s.nextId } else t
    (s.modView c launch fun v => { v with tiles := v.tiles.map drop }).mapCtxs c Ctx.settle) s1

/-- A thread leaves a group; the last member dissolves it, and otherwise its barrier may complete (R329, R333, R334). -/
def State.leaveGroup (s : State) (t : TRef) (launch h : Nat) : State :=
  let s1 := s.modThread t launch fun th => { th with groups := th.groups.filter fun g => g != h }
  if h = allHandle then s1
  else if (s1.scopeThreads launch h).any (fun x => x.2.2.groups.contains h) then s1.tryBarrier launch h
  else s1.dissolve launch h

/-- A thread exits: it becomes EXITED, leaves every group in ascending order of handle, and ALL loses it (R99, R328). -/
def State.exitThread (s : State) (t : TRef) (launch : Nat) : State :=
  match s.thread? t with
  | none => s
  | some th =>
    let hs := sortBy id (th.groups.filter fun h => h != allHandle)
    let s1 := s.setThread t fun th => { th with st := .exited }
    let s2 := hs.foldl (fun s h => s.leaveGroup t launch h) s1
    (s2.setThread t fun th => { th with groups := [] }).tryBarrier launch allHandle

/-! ### Instructions that act once (R331) -/

/-- The operands of an instruction that acts once: read in the lowest guard-true lane. -/
def onceLane (x : Iss) : Nat := x.act.headD 0

/-- An instruction that acts once per issue, if some guard is true: its uniform operands are checked once; POISON writes
POISON to a destination and counts once; another bad tag faults every guard-true thread (R331). -/
def once (names : List RName) (ops : List Src) (f : Iss → List Nat → State → Eff) (x : Iss) (s : State) : Eff :=
  if x.act.isEmpty then .go s
  else
    let os := ops.map fun a => x.src a 0 (onceLane x)
    match checkTags (os.map fun o => (o, intTags)) with
    | .pois =>
      let e := s.commit x .var names (x.act.map fun l => (l, .of (poisRegs x.ticket names l)))
      .go (e.s.poison x.core 1)
    | .bad field => faultAll (.of eTag field) x s
    | .good => f x (os.map fun o => o.val.toNat) s

/-- One value to every guard-true thread, or once to a uniform destination. -/
def State.giveAll (s : State) (x : Iss) (names : List RName) (v : Nat) : Eff :=
  s.commit x .var names (x.act.map fun l => (l, .of [⟨BitVec.ofNat 32 v, .i32⟩]))

/-! ### JOIN, LEAVE, GSYNC (R332 to R335) -/

def grpClass : GrpCls → Nat
  | .core => 0
  | .die => 1
  | .wide => 2

def grpScope (c : GrpCls) (core : Nat) : Nat :=
  match c with
  | .core => core
  | .die => dieOf core
  | .wide => 0

def grpRecords : GrpCls → Nat
  | .core => 64
  | .die => 128
  | .wide => 1023

def mkHandle (c : GrpCls) (core seq index : Nat) : Nat :=
  grpClass c * 2 ^ 30 + grpScope c core * 2 ^ 24 + seq % 256 * 2 ^ 16 + index

/-- One of the listed numbers, the Veger's choice. -/
def pickOf (ticket key : Nat) (l : List Nat) : Option Nat := if l.isEmpty then none else l[Config.choice ticket key % l.length]?

/-- A JOIN that failed answers 0xC000_0000 + its status. -/
def joinFail (st : Nat) : Nat := 0xC0000000 + st

/-- Make `h` the most recent entry of a membership list. -/
def toFront (h : Nat) (l : List Nat) : List Nat := h :: l.filter fun g => g != h

/-- The guard-true threads become members of a group, which is then their most recent. -/
def State.addGroup (s : State) (x : Iss) (h : Nat) : State :=
  x.act.foldl (fun s l => s.setThread (x.ref l) fun t => { t with groups := toFront h t.groups }) s

/-- Whether the membership list of a guard-true thread that is not a member holds eight groups already. -/
def Iss.groupsFull (x : Iss) (h : Nat) : Bool := x.act.any fun l => match x.w.thread? l with
  | some th => !th.groups.contains h && decide (8 ≤ (th.groups.filter fun g => g != allHandle).length)
  | none => false

/-- JOIN of a group whose record `h` exists. -/
def State.joinOld (s : State) (x : Iss) (g : Group) (r : Roles) (h : Nat) : State × Nat :=
  if g.roles ≠ r then (s, joinFail 2) else if x.groupsFull h then (s, joinFail 3) else (s.addGroup x h, h)

/-- JOIN that takes free record `i` of a table. -/
def State.joinNew (s : State) (x : Iss) (ident : Nat) (c : GrpCls) (r : Roles) (i : Nat) : State × Nat :=
  if x.groupsFull (2 ^ 40) then (s, joinFail 3)
  else
    let probe := mkHandle c x.core 0 0
    let seq := (mget (s.gtable probe).seqs i 0 + 1) % 256
    let h := mkHandle c x.core seq i
    ((s.setGtable probe fun t => { recs := mset t.recs i ⟨x.w.launch, ident, r, .count, false⟩, seqs := mset t.seqs i seq }).addGroup
      x h, h)

/-- JOIN after its operand check (R332): the new state and the value of d. -/
def State.join (s : State) (x : Iss) (ident : Nat) (c : GrpCls) (r : Roles) : State × Nat :=
  let t := s.gtable (mkHandle c x.core 0 0)
  if ident = 0xFFFFFFFF then
    if c = .wide then (s.addGroup x allHandle, allHandle) else (s, joinFail 4)
  else match t.recs.find? fun g => g.2.launch == x.w.launch && g.2.ident == ident with
    | some g => s.joinOld x g.2 r (mkHandle c x.core (mget t.seqs g.1 0) g.1)
    | none =>
      match pickOf s.ticket 1 ((upFrom 0 (grpRecords c)).filter fun i => (mget? t.recs i).isNone) with
      | none => (s, joinFail 1)
      | some i => s.joinNew x ident c r i

def execJoin (h : Hdr) (d : Dst) (a : Src) (c : GrpCls) (r : Roles) (s : State) : Host.Outcome State Fault Refusal :=
  issue (.join h d a c r) s (once (dstNames d 1) [a] fun x vs s =>
    let j := s.join x (vs.headD 0) c r
    j.1.giveAll x (dstNames d 1) j.2)

/-- Whether every guard-true thread is a member of a group. -/
def Iss.allMembers (x : Iss) (h : Nat) : Bool :=
  x.act.all fun l => match x.w.thread? l with
    | some t => t.groups.contains h
    | none => false

def execLeave (h : Hdr) (a : Src) (s : State) : Host.Outcome State Fault Refusal :=
  issue (.leave h a) s (once [] [a] fun x vs s =>
    let g := vs.headD 0
    if g = allHandle ∨ !x.allMembers g then faultAll (.of eRole 0) x s
    else .go (x.act.foldl (fun s l => s.leaveGroup (x.ref l) x.w.launch g) s))

/-- The guard-true threads wait (R81); the die's ticks count for the watchdog (R346). -/
def State.waitAll (s : State) (x : Iss) (st : TSt) : State :=
  let ticks := (s.die (dieOf x.core)).ticks
  x.act.foldl (fun s l => s.setThread (x.ref l) fun t => { t with st := st, waitSince := ticks }) s

def execGsync (h : Hdr) (a : Src) (s : State) : Host.Outcome State Fault Refusal :=
  issue (.gsync h a) s (once [] [a] fun x vs s =>
    let g := vs.headD 0
    if g ≠ allHandle ∧ !x.allMembers g then faultAll (.of eRole 0) x s
    else .go ((s.waitAll x (.group g)).tryBarrier x.w.launch g))

/-- MASS_RELEASE_ADMIT: the die admits the next held core, in ascending local order from NEXTCORE, while the turn's spending
is below LIMIT, at most one in a ring cycle (R190). Its released warps' ready time is this cycle. -/
def execMassReleaseAdmit (die : Nat) (s : State) : Host.Outcome State Fault Refusal :=
  let d := s.die die
  let r := d.ring
  if r.admitted = some s.clock ∨ (r.step ≠ 0 ∧ r.limit ≤ r.spent) then .next s
  else match ((upFrom 0 8).map fun j => (r.nextCore + j) % 8).find? fun c => r.heldCores.contains c with
    | none => .next s
    | some c =>
      let g := 8 * die + c
      let now := s.now g
      let s1 := s.setCtx g fun x => { x with warps := x.warps.map fun w =>
        (w.1, if w.2.held then { w.2 with held := false, readyAt := now } else w.2) }
      .next (s1.setDie die fun d =>
        { d with ring := { d.ring with heldCores := markOut d.ring.heldCores c, nextCore := (c + 1) % 8, admitted := some s.clock } })

/-! ### Pens (R336 to R345) -/

/-- A pen by name (R336): bit [8] selects a die pen. -/
structure PenName where
  die : Bool
  num : Nat
  deriving DecidableEq, Repr

def penName (v : Nat) : PenName := ⟨bitAt v 8, v % 256⟩

/-- The pens of a launch at a place. -/
def State.pensOf (s : State) (core launch : Nat) (die : Bool) : List Pen :=
  if die then mget (s.die (dieOf core)).pens launch []
  else ((s.viewAny core launch).map fun v => v.pens).getD []

def State.setPens (s : State) (core launch : Nat) (die : Bool) (f : List Pen → List Pen) : State :=
  if die then s.setDie (dieOf core) fun d => { d with pens := mmod d.pens launch f }
  else s.modView core launch fun v => { v with pens := f v.pens }

/-- The pen that a name gives, when R341 accepts it; an uninitialised pen only for PINIT. -/
def State.pen? (s : State) (core launch v : Nat) (init : Bool) : Option Pen :=
  let n := penName v
  if 512 ≤ v then none
  else match (s.pensOf core launch n.die)[n.num]? with
    | none => none
    | some p => if p.boxes.isEmpty && !init then none else some p

def State.setPen (s : State) (core launch : Nat) (n : PenName) (f : Pen → Pen) : State :=
  s.setPens core launch n.die fun l => lmod l n.num f

/-- Land the value that threads waited for, and let them go on (R339, R343). -/
def State.servePen (s : State) (launch : Nat) (n : PenName) (w : Waiter) (box : Nat) : State :=
  match w with
  | .threads c wn lanes pendId uniform reg =>
    let s0 := s.tickStamp
    let r : Reg := ⟨BitVec.ofNat 32 box, .i32⟩
    let vals (names : List RName) : List Wb :=
      if names.isEmpty then [] else if uniform then [⟨.w reg, 0, r⟩] else lanes.map fun l => ⟨.v reg, l, r⟩
    let s1 := s0.modWarp c wn launch fun x =>
      { x with pend := x.pend.map fun p => if p.id = pendId then { p with src := .ready, vals := vals p.names } else p }
    let resident := ((s1.warp? c wn).map fun x => x.launch == launch).getD false
    let pub : Acqs := (((s.pensOf c launch n.die)[n.num]?).map fun p => mget p.pub box (0, 0)).getD (0, 0)
    lanes.foldl (fun s l =>
      let t : TRef := ⟨c, wn, l⟩
      (s.modThread t launch fun th => th.acquire (if n.die then 1 else 0) s0.stamp s0.nextId pub).wakeAny t launch resident) s1
  | .copy c cmd =>
    let hit (q : CopyCmd) : CopyCmd := if q.id = cmd then { q with penBox := some box, filled := true, waitPen := false } else q
    let hitC (q : CollCmd) : CollCmd := if q.id = cmd then { q with penBox := some box, filled := true, waitPen := false } else q
    let s1 := s.mapCtxs c fun x => { x with copyQ := x.copyQ.map hit }
    let s2 := { s1 with colls := s1.colls.map hitC }
    match s.colls.find? fun q => q.id == cmd with
    | some q => s2.post (.collComplete c q.warp cmd [] none)
    | none => s2.post (.copyComplete c cmd)

/-- The box at an index of a pen. -/
def Pen.box (p : Pen) (i : Nat) : Box := lget p.boxes i ⟨.claimed, false, false⟩

/-- The box at TP is taken by the head of the take FIFO: the pen afterwards (R339). -/
def Pen.takeHead (p : Pen) : Pen :=
  { p with boxes := lmod p.boxes p.tp fun b => { b with st := .taken }, takeQ := p.takeQ.drop 1,
           tp := (p.tp + 1) % max 1 p.boxes.length, order := p.order ++ [p.tp] }

/-- The box at CP is claimed by the head of the claim FIFO; for a copy command it is filled at once (R344). -/
def Pen.claimHead (p : Pen) (fills : Bool) : Pen :=
  { p with boxes := lmod p.boxes p.cp fun b => { b with st := if fills then .full else .claimed }, claimQ := p.claimQ.drop 1,
           cp := (p.cp + 1) % max 1 p.boxes.length, claims := if fills then p.claims else p.claims ++ [p.cp],
           pub := if fills then mdel p.pub p.cp else p.pub }

def Pen.canTake (p : Pen) : Bool := (p.box p.tp).st == .full && !(p.box p.tp).pend
def Pen.canClaim (p : Pen) : Bool := (p.box p.cp).st == .empty && !(p.box p.cp).pend

/-- Serve the FIFO heads of a pen while their conditions hold (R339). -/
def State.servePens : Nat → State → Nat → Nat → PenName → State
  | 0, s, _, _, _ => s
  | fuel + 1, s, core, launch, n =>
    match (s.pensOf core launch n.die)[n.num]? with
    | none => s
    | some p =>
      match (if p.canTake then p.takeQ.head? else none) with
      | some w => State.servePens fuel ((s.setPen core launch n Pen.takeHead).servePen launch n w p.tp) core launch n
      | none =>
        match (if p.canClaim then p.claimQ.head? else none) with
        | none => s
        | some w =>
          let fills := match w with
            | .copy .. => true
            | .threads .. => false
          State.servePens fuel ((s.setPen core launch n fun q => q.claimHead fills).servePen launch n w p.cp) core launch n

/-- A pen's waiters go on as far as its boxes allow; each service takes one waiter. -/
def State.serve (s : State) (core launch : Nat) (n : PenName) : State :=
  match (s.pensOf core launch n.die)[n.num]? with
  | none => s
  | some p => State.servePens (p.takeQ.length + p.claimQ.length + 1) s core launch n

/-- A box becomes FULL or EMPTY, published with what its filler or freer had acquired; the waiters are then served (R339, R343). -/
def State.setBox (s : State) (core launch : Nat) (n : PenName) (box : Nat) (fill : Bool) (pub : Acqs) : State :=
  (s.setPen core launch n fun p =>
    { p with boxes := lmod p.boxes box fun _ => ⟨if fill then .full else .empty, false, false⟩,
             order := if fill then p.order else p.order.filter (fun b => b != box), claims := p.claims.filter (fun b => b != box),
             pub := msetD (0, 0) p.pub box pub }).serve core launch n

/-- A pen operation of R330: the operand checks of R331 and the name check of R341, then its action. -/
def penOp (names : List RName) (ops : List Src) (init : Bool) (f : Iss → PenName → Pen → List Nat → State → Eff) :
    Iss → State → Eff :=
  once names ops fun x vs s =>
    match s.pen? x.core x.w.launch (vs.headD 0) init with
    | none => faultAll (.of eInvalid 0) x s
    | some p => f x (penName (vs.headD 0)) p vs s

def execPinit (h : Hdr) (a b : Src) (s : State) : Host.Outcome State Fault Refusal :=
  issue (.pinit h a b) s (penOp [] [a, b] true fun x n p vs s =>
    let nb := lget vs 1 0
    if nb < 1 ∨ 64 < nb ∨ !p.claimQ.isEmpty ∨ !p.takeQ.isEmpty ∨ p.boxes.any (fun b => b.bound || b.pend) then
      faultAll (.of eInvalid 0) x s
    else .go (s.setPen x.core x.w.launch n fun p =>
      { p with boxes := List.replicate nb ⟨.empty, false, false⟩, cp := 0, tp := 0, order := [], claims := [], pub := [] }))

/-- PCLAIM and PTAKE: the box at the pointer, or a place at the FIFO's tail (R339, R343). -/
def penGrant (take : Bool) (d : Dst) (x : Iss) (n : PenName) (p : Pen) (s : State) : Eff :=
  let launch := x.w.launch
  let ready := if take then p.takeQ.isEmpty && p.canTake else p.claimQ.isEmpty && p.canClaim
  if ready then
    let box := if take then p.tp else p.cp
    let s1 := s.tickStamp
    let s2 := s1.setPen x.core launch n fun p => if take then p.takeHead else p.claimHead false
    let s3 := x.act.foldl (fun s l => s.setThread (x.ref l) fun t =>
      t.acquire (if n.die then 1 else 0) s1.stamp s1.nextId (mget p.pub box (0, 0))) s2
    (s3.serve x.core launch n).giveAll x (dstNames d 1) box
  else
    let id := s.nextId
    let names := dstNames d 1
    let uni := match d with
      | .w _ => true
      | _ => false
    let reg := match d with
      | .v r => r.val
      | .w r => r.val
      | .discard => 0
    let w : Waiter := .threads x.core x.warp x.act id uni reg
    let s1 := s.fresh.setPen x.core launch n fun p => if take then { p with takeQ := p.takeQ ++ [w] } else { p with claimQ := p.claimQ ++ [w] }
    let s2 := s1.setWarp x.core x.warp fun wp => { wp with pend := wp.pend ++ [⟨id, names, .pen, []⟩] }
    .go (s2.waitAll x (.pen n.die n.num take))

def execPclaim (h : Hdr) (d : Dst) (a : Src) (s : State) : Host.Outcome State Fault Refusal :=
  issue (.pclaim h d a) s (penOp (dstNames d 1) [a] false fun x n p _ s => penGrant false d x n p s)

def execPtake (h : Hdr) (d : Dst) (a : Src) (s : State) : Host.Outcome State Fault Refusal :=
  issue (.ptake h d a) s (penOp (dstNames d 1) [a] false fun x n p _ s => penGrant true d x n p s)

/-- PFILL and PFREE: the box changes once the release of the issuing threads is complete (R339, R343). -/
def penRelease (fill : Bool) (x : Iss) (n : PenName) (p : Pen) (vs : List Nat) (s : State) : Eff :=
  let b := lget vs 1 0
  let bx := p.box b
  let ok := decide (b < p.boxes.length) && !bx.pend && (if fill then bx.st == .claimed && !bx.bound else bx.st == .taken)
  if !ok then faultAll (.of eInvalid 0) x s
  else
    let s1 := s.setPen x.core x.w.launch n fun p => { p with boxes := lmod p.boxes b fun q => { q with pend := true } }
    .go { s1 with penRels := s1.penRels ++ [⟨n.die, x.core, x.w.launch, n.num, b, fill, x.act.map x.ref, s.nextId,
      x.act.foldl (fun (m : Acqs) l => m.join (((s.thread? (x.ref l)).map Thread.acqs).getD (0, 0))) (0, 0)⟩] }

def execPfill (h : Hdr) (a b : Src) (s : State) : Host.Outcome State Fault Refusal :=
  issue (.pfill h a b) s (penOp [] [a, b] false fun x n p vs s => penRelease true x n p vs s)

def execPfree (h : Hdr) (a b : Src) (s : State) : Host.Outcome State Fault Refusal :=
  issue (.pfree h a b) s (penOp [] [a, b] false fun x n p vs s => penRelease false x n p vs s)

/-- The word that PQUERY writes (R340). -/
def Pen.query (p : Pen) : Nat :=
  let n (st : BoxSt) : Nat := (p.boxes.filter fun b => b.st == st).length
  b2n (!p.takeQ.isEmpty) * 2 ^ 29 + b2n (!p.claimQ.isEmpty) * 2 ^ 28 + n .claimed * 2 ^ 21 + n .full * 2 ^ 14
    + n .empty * 2 ^ 7 + p.boxes.length

def execPquery (h : Hdr) (d : Dst) (a : Src) (s : State) : Host.Outcome State Fault Refusal :=
  issue (.pquery h d a) s (penOp (dstNames d 1) [a] false fun x _ p _ s => s.giveAll x (dstNames d 1) p.query)

/-- Where a pen lies, as the event names it: its core, or 64 + its die. -/
def PenRel.place (r : PenRel) : Nat := if r.die then 64 + dieOf r.core else r.core

/-- Whether a PFILL or PFREE's release is complete (R339). -/
def State.penRelDone (s : State) (r : PenRel) : Bool := s.released r.ths r.upto (if r.die then 1 else 0)

/-- PEN_BOX_RELEASE_COMPLETE: the release of a PFILL or PFREE is complete, its box changes and the waiters are served. -/
def execPenBoxReleaseComplete (launch place pen box : Nat) (s : State) : Host.Outcome State Fault Refusal :=
  let hit (r : PenRel) : Bool := r.launch == launch && r.place == place && r.pen == pen && r.box == box
  match s.penRels.find? hit with
  | none => .next s
  | some r =>
    if !s.penRelDone r then .next s
    else .next ({ s with penRels := s.penRels.filter fun q => !hit q }.setBox r.core launch ⟨r.die, pen⟩ box r.fill r.acqs)

/-- An engine of a core has used a pen in this cycle: the copy engine is 1, the matrix engine 2. Ascending cores of a die, and the copy
engine of each before the matrix engine, come in that order (R342). -/
def State.penUsed (s : State) (core engine : Nat) : State :=
  { s with penPhase := mset s.penPhase (dieOf core) (4 * core + engine) }

/-- Whether it is still an engine's turn at the pens in this cycle. -/
def State.penTurn (s : State) (core engine : Nat) : Bool := decide (mget s.penPhase (dieOf core) 0 ≤ 4 * core + engine)

/-! ### Engines in pens (R238, R344, R345) -/

/-- The free of an MMA with PF: the oldest TAKEN box in the order the boxes were taken; none if R341 refuses the pen, if no box is
TAKEN, or if that box has a free pending, which no second one may have (R339). -/
def State.engineFree (s : State) (core launch pen : Nat) : Option State :=
  match s.pen? core launch pen false with
  | none => none
  | some p =>
    match p.order.find? fun b => (p.box b).st == .taken with
    | none => none
    | some b => if (p.box b).pend then none else some (s.setBox core launch (penName pen) b false (0, 0))

/-! ### The watchdog (R346) -/

/-- Withdraw a thread's place in a FIFO; a waiter with no thread left goes. -/
def dropWaiter (t : TRef) (q : List Waiter) : List Waiter :=
  q.filterMap fun w => match w with
    | .threads c wn lanes id u r =>
      if c = t.core ∧ wn = t.warp ∧ lanes.contains t.lane then
        let rest := lanes.filter fun l => l != t.lane
        if rest.isEmpty then none else some (.threads c wn rest id u r)
      else some w
    | .copy .. => some w

/-- The pending numbers of the waiters of a FIFO. -/
def waiterIds (q : List Waiter) : List Nat :=
  q.filterMap fun w => match w with
    | .threads _ _ _ id _ _ => some id
    | .copy .. => none

/-- Withdraw a thread from its wait: its waiter entry, its access to a sync word, its barrier arrival or its REORDER arrival (R346). -/
def State.withdraw (s : State) (t : TRef) (launch : Nat) (st : TSt) : State :=
  match st with
  | .pen die num _ =>
    let n : PenName := ⟨die, num⟩
    let s1 := s.setPen t.core launch n fun p => { p with takeQ := dropWaiter t p.takeQ, claimQ := dropWaiter t p.claimQ }
    let left := match (s1.pensOf t.core launch die)[num]? with
      | some p => waiterIds p.takeQ ++ waiterIds p.claimQ
      | none => []
    let here (p : Pen) : List Nat := waiterIds p.takeQ ++ waiterIds p.claimQ
    let was := match (s.pensOf t.core launch die)[num]? with
      | some p => here p
      | none => []
    s1.setWarp t.core t.warp fun w => { w with pend := w.pend.filter fun p => !(was.contains p.id && !left.contains p.id) }
  | .reorder => s.setCtx t.core fun x =>
      { x with reorder := x.reorder.map fun r => if r.launch = launch then
          { r with parts := r.parts.map fun q => if q.warp = t.warp ∧ q.lane = t.lane then { q with arrived := false } else q }
        else r }
  | .sync id => { s with accs := s.accs.filter fun (a : Acc) => a.id != id }
  | _ => s

/-- Whether a wait is one that the watchdog watches. -/
def TSt.watched : TSt → Bool
  | .pen .. => true
  | .group h => decide (h < 2 ^ 32)
  | .sync .. => true
  | .reorder => true
  | _ => false

/-- Whether a thread has waited longer than its die's TICKS (R346). -/
def State.watchdogDue (s : State) (t : TRef) (th : Thread) : Bool :=
  let d := s.die (dieOf t.core)
  d.watchdog != 0 && th.st.watched && decide (d.watchdog < d.ticks - th.waitSince)

/-- WATCHDOG_EXPIRY: the thread leaves its wait and raises E_WATCHDOG with KIND 11 at the waiting instruction. -/
def execWatchdogExpiry (t : TRef) (s : State) : Host.Outcome State Fault Refusal :=
  match s.warp? t.core t.warp, s.thread? t with
  | some w, some th =>
    if !s.watchdogDue t th then .next s
    else
      let s1 := (s.withdraw t w.launch th.st).wake t
      let s2 := s1.takeFault t (th.pc - 8) { Flt.of eWatchdog 0 with kind := 3 }
      match th.st with
      | .group h => .next (s2.tryBarrier w.launch h)
      | _ => .next s2
  | _, _ => .next s

end Sys2Proof.Machine
end

