-- ==== Sys2Proof/Machine/Acc.lean ====
section
/-! DEFINITION. Accesses in flight: which of them hold which back (R302, R305, R308 to R310, R314, R383), how a thread's and a stack
core's loads read through the caches (R268 to R271, R282, R306, R307), how stores are performed (R269, R307), and what
follows when an access completes (R317, R318, R323, R334). -/

namespace Sys2Proof.Machine

/-! ### Kinds and places -/

def Acc.ordered (a : Acc) : Bool := a.cls != .rlx
def Acc.acquires (a : Acc) : Bool := a.cls == .acq || a.cls == .ar
def Acc.releases (a : Acc) : Bool := a.cls == .rel || a.cls == .ar

def Acc.isFence (a : Acc) : Bool := match a.kind with
  | .fence .. => true
  | _ => false

def Acc.isPagein (a : Acc) : Bool := match a.kind with
  | .pagein => true
  | _ => false

def Acc.isAtomic (a : Acc) : Bool := match a.kind with
  | .atomic .. => true
  | .cAmo .. => true
  | _ => false

/-- Accesses that return a value. -/
def Acc.reads (a : Acc) : Bool := match a.kind with
  | .load .. => true
  | .rows .. => true
  | .cLoad .. => true
  | .swWait _ => true
  | _ => a.isAtomic

/-- A wait on a sync word. -/
def Acc.isWait (a : Acc) : Bool := match a.kind with
  | .swWait _ => true
  | _ => false

/-- What a thread's wait on a sync word looks at: the place of a shed's word is its die, shed and offset in one number. -/
def shedPlace (die shed off : Nat) : Nat := (die * 512 + shed) * 2 ^ 17 + off

/-- The physical address that an access to a word of a shed carries in the model: outside every region. -/
def shedPa (place : Nat) : Nat := 2 ^ 60 + 0x3F * 2 ^ 36 + place

/-- The shed's place of such an access. -/
def Acc.shedPlace? (a : Acc) : Option Nat := if a.dev.isNone ∧ 2 ^ 60 ≤ a.pa then some (a.pa % 2 ^ 29) else none

/-- The sheds that an access touches, numbered through the package. -/
def Acc.sheds (a : Acc) : List Nat :=
  match a.kind with
  | .rows _ _ _ places => places.filterMap fun p => p.bind fun q => q.map fun n => n / 2 ^ 17
  | _ => a.shedPlace?.toList.map fun n => n / 2 ^ 17

def Acc.isShed (a : Acc) : Bool := a.shedPlace?.isSome

/-- Accesses that are acknowledged. -/
def Acc.stores (a : Acc) : Bool := !a.reads && !a.isFence && !a.isPagein

def Acc.core? (a : Acc) : Option Nat := match a.who with
  | .thread t => some t.core
  | .score _ => none

def Acc.die? (a : Acc) : Option Nat := a.core?.map dieOf

/-- Whether two accesses come from one agent: a common thread, or one stack core. -/
def Acc.sameAgent (a b : Acc) : Bool :=
  match a.who, b.who with
  | .thread t, .thread u => t.core == u.core && t.warp == u.warp && a.launch == b.launch && a.lanes.any fun l => b.lanes.contains l
  | .score n, .score m => n == m
  | _, _ => false

/-- Whether two accesses come from one warp, or one stack core. -/
def Acc.sameWarp (a b : Acc) : Bool :=
  match a.who, b.who with
  | .thread t, .thread u => t.core == u.core && t.warp == u.warp && a.launch == b.launch
  | .score n, .score m => n == m
  | _, _ => false

/-- The place of a byte for comparing accesses: a device and a physical address. The two names of a byte of memory are two
locations (R19). -/
def placeOf (dev : Option Nat) (pa : Nat) : Nat :=
  match dev with
  | some d => (d + 1) * 2 ^ 64 + pa
  | none => pa

/-- The intervals of bytes that an access touches. -/
def Acc.spans (a : Acc) : List (Nat × Nat) :=
  match a.kind with
  | .atomic _ _ _ _ _ _ lanes => lanes.map fun l => (placeOf a.dev l.pa, a.size)
  | .fence .. => []
  | .pagein => []
  | _ => [(placeOf a.dev a.pa, a.size)]

def Acc.overlaps (a b : Acc) : Bool :=
  a.spans.any fun p => b.spans.any fun q => decide (p.1 < q.1 + q.2) && decide (q.1 < p.1 + p.2)

def Acc.inRegs (a : Acc) : Bool := a.dev.isNone && regionOf a.pa == 2 && !a.isFence && !a.isPagein

/-! ### The order gate (R302, R305, R306, R309, R310, R314, R317, R383) -/

/-- Whether an earlier access of the same agent holds a later one. -/
def Acc.holds (b a : Acc) : Bool :=
  (!b.isPagein && (b.isFence || b.acquires || a.releases || (a.ordered && b.ordered) || (a.inRegs && b.inRegs)))
    || (a.overlaps b && (a.ordered || b.ordered || (match a.who with
      | .score _ => true
      | .thread _ => false)))

/-- Below which number the accesses of an agent's core happen before its own (R314). -/
def State.hbOf (s : State) (a : Acc) : Nat :=
  match a.who with
  | .thread t => a.lanes.foldl (fun m l => max m (((s.thread? { t with lane := l }).map fun th => th.hbUpto).getD 0)) 0
  | .score _ => 0

/-- Whether the order gate lets an access go. -/
def State.gateOk (s : State) (a : Acc) : Bool :=
  let hb := if a.releases then s.hbOf a else 0
  s.accs.all fun b => b.performed || decide (a.id ≤ b.id) ||
    (!(a.sameAgent b && b.holds a) && !(b.stores && decide (b.id < hb) && a.core? == b.core?))

/-- An access that has left its queue and is not yet performed. -/
def Acc.inFlight (b : Acc) : Bool := b.stores && !b.queued && !b.performed

/-- Whether nothing but other reads of its warp holds a read back (R305, R306, R308). -/
def State.readFree (s : State) (a : Acc) : Bool :=
  let ordered := a.isAtomic || (a.ordered && decide (1 ≤ a.reach))
  s.gateOk a && s.accs.all fun b => b.performed ||
    (!(b.queued && decide (b.id < a.id) && a.sameWarp b && (!a.sameAgent b || a.isAtomic || (ordered && a.overlaps b)))
      && !(ordered && b.inFlight && a.die? == b.die? && a.die?.isSome && a.overlaps b))

/-- The reads of the same warp that are older and not yet performed, beside waits on sync words and accesses to sheds. -/
def State.olderReads (s : State) (a : Acc) : List Acc :=
  s.accs.filter fun b => b.reads && !b.isWait && !b.isShed && !b.performed && decide (b.id < a.id) && a.sameWarp b

/-- While a load has overtaken an older load of its warp, no store and no atomic of its core becomes visible to the core
(R308). -/
def State.coreFrozen (s : State) (core : Nat) : Bool := s.accs.any fun b => b.performed && b.core? == some core

/-- Whether an access of a core to these sheds is still to be performed: later ones come after it (R204). -/
def State.shedBusy (s : State) (core : Option Nat) (sheds : List Nat) (upto : Nat) : Bool :=
  s.accs.any fun b => !b.performed && !b.isWait && decide (b.id < upto) && b.core? == core && b.sheds.any sheds.contains

/-- Whether an access to a shed may be performed: those of its core that issued before it to the same shed have been (R204), and for a
SYNCW.ADD so has what it releases (R218). -/
def State.shedReady (s : State) (a : Acc) : Bool := !s.shedBusy a.core? a.sheds a.id && (!a.releases || s.gateOk a)

/-- Whether a read may be performed now. A load may overtake older loads of its warp that nothing else holds, and no atomic; an
atomic overtakes nothing (R305, R308, R309, R352). -/
def State.readReady (s : State) (a : Acc) : Bool :=
  match a.who with
  | .score _ => s.gateOk a
  | .thread t =>
    let older := s.olderReads a
    if a.isShed && !a.isWait then s.shedReady a
    else s.readFree a && (if a.isAtomic then older.isEmpty && !s.coreFrozen t.core else older.all fun b => !b.isAtomic && s.readFree b)

/-- Whether the store at the head of a warp's queue may leave it (R308, R310). -/
def State.storeReady (s : State) (a : Acc) : Bool :=
  s.gateOk a && (s.olderReads a).isEmpty && !(match a.core? with
    | some c => s.coreFrozen c
    | none => false)

/-- Whether a store in flight may be performed: the overlapping stores that left before it on its die, or from its stack
core, have been (R305, R308). -/
def State.ackReady (s : State) (a : Acc) : Bool :=
  let before := s.accs.takeWhile fun b => b.id != a.id
  a.inFlight && (match a.who with
    | .score _ => s.gateOk a
    | .thread _ => !a.isShed || s.shedReady a) && before.all fun b => !(b.inFlight && b.overlaps a && (match a.who, b.who with
      | .thread t, .thread u => dieOf t.core == dieOf u.core
      | .score n, .score m => n == m
      | _, _ => false))

/-! ### Copies (R267 to R271) -/

/-- Lines of region 00 of this package may be held (R268). -/
def Acc.cacheable (a : Acc) : Bool := a.dev.isNone && regionOf a.pa == 0

/-- The bytes that a store in flight puts into a line, by its physical address: a store under the stack-direct name goes past the
die's copies (R19). -/
def Acc.into (b : Acc) (line : Nat) : List (Nat × Byte × Bool) :=
  match b.kind with
  | .store bytes pois =>
    if b.dev.isNone && b.pa / 128 == line then (upFrom (b.pa % 128) bytes.length).zip (bytes.zip pois) else []
  | _ => []

/-- Lay the stores of a die that have not yet reached the home slice over a line fetched from there. -/
def State.overlayDie (s : State) (k line : Nat) (c : Copy) : Copy :=
  (s.accs.filter fun b => b.inFlight && b.die? == some k).foldl (fun c b =>
    (b.into line).foldl (fun c p => c.write p.1 [p.2.1] [p.2.2] false) c) c

/-- Lines of an L1 (256 KiB) and of a die cache (64 MiB) (R267). -/
def l1Lines : Nat := 2048
def dcLines : Nat := 524288

/-- Make room for a line in a full die cache: a line of the Veger's choice is replaced, its dirty bytes written back (R267). -/
def State.dieRoom (s : State) (k line : Nat) : State :=
  let dc := (s.die k).dc
  if (mget? dc line).isSome ∨ dc.length < dcLines then s
  else match dc[Config.choice s.ticket (2 ^ 57 + k) % dc.length]? with
    | some q => (s.writeBack q.1 q.2).setDie k fun d => { d with dc := mdel d.dc q.1 }
    | none => s

/-- Fill a line of an L1; in a full one a line of the Veger's choice is replaced (R267). -/
def State.l1Put (s : State) (core line : Nat) (c : Copy) : State :=
  s.setCore core fun x =>
    let l1 := if (mget? x.l1 line).isSome ∨ x.l1.length < l1Lines then x.l1
      else match x.l1[Config.choice s.ticket (2 ^ 58 + core) % x.l1.length]? with
        | some q => mdel x.l1 q.1
        | none => x.l1
    { x with l1 := mset l1 line c }

/-- Put a line into a die cache from its home slice; what the cache held of it is written back first. -/
def State.dieFill (s : State) (k line lin : Nat) (a : Acc) (keep : Bool) : State × Copy :=
  let s1 := match mget? (s.die k).dc line with
    | some c => s.writeBack line c
    | none => s
  let s2 := (s1.setDie k fun d => { d with dc := mdel d.dc line }).recallAll line (some k)
  let s3 := s2.tickStamp
  let c := s3.overlayDie k line (s3.fetchCopy lin a.key a.secAgent a.stable a.launch)
  (if keep then (s3.dieRoom k line).setDie k fun d => { d with dc := mset d.dc line c } else s3, c)

/-- The copy of a line in a die cache that an access may use; a copy that replacement has taken is written back. -/
def State.dieCopy (s : State) (k line : Nat) (a : Acc) : Option Copy :=
  match mget? (s.die k).dc line with
  | none => none
  | some c => if Config.evicted s.ticket (2 ^ 50 + line) || (c.sec && !a.secAgent) || c.key != a.key then none else some c

/-- The thread's latest acquires, for the copies that R270 lets it use. -/
def State.acqOf (s : State) (a : Acc) : Nat × Nat :=
  match a.who with
  | .thread t => a.lanes.foldl (fun m l => match s.thread? { t with lane := l } with
      | some th => (max m.1 th.acqDie, max m.2 th.acqPkg)
      | none => m) (0, 0)
  | .score _ => (0, 0)

/-- What a read found: bytes, poison marks by byte, and the stamp of the newest datum among them. -/
structure Found where
  bytes : List Byte
  pois : List Bool
  upd : Nat
  deriving DecidableEq, Repr

/-- Note that a launch read a line under an S = 1 page (R271). -/
def Copy.readBy (c : Copy) (launch : Nat) : Copy :=
  if c.stable && !c.launches.contains launch then { c with launches := launch :: c.launches } else c

/-- The copy of its L1 that a read of a core may use, for the acquires given (R269, R270). -/
def State.l1Serves (s : State) (core : Nat) (a : Acc) (acq : Nat × Nat) : Option Copy :=
  if a.ordered && decide (1 ≤ a.reach) then none
  else (cacheGet (s.core core).l1 s.ticket (a.pa / 128) a.secAgent a.key).filter fun c =>
    c.stable || (decide (acq.1 ≤ c.stamp) && decide (a.need ≤ c.stamp))

/-- The copy of its die cache that it may use. -/
def State.dieServes (s : State) (k : Nat) (a : Acc) (acq : Nat × Nat) : Option Copy :=
  (s.dieCopy k (a.pa / 128) a).filter fun c =>
    decide (a.reach ≤ 1) || c.borrowed
      || (!a.ordered && (c.stable || (decide (acq.2 ≤ c.stamp) && decide (a.need ≤ c.stamp))))

/-- The access of one lane of an atomic: its location, and what its page's leaf says. -/
def Acc.at (a : Acc) (x : ALane) : Acc := { a with pa := x.pa, reach := x.reach, key := x.key, stable := x.stable, lanes := [x.lane] }

/-- Where a local atomic of a thread is performed (R353): in the die cache, on a line borrowed where the page is of wide
reach, or at the home stack. -/
def State.atomInDie (s : State) (k : Nat) (a : Acc) : Bool :=
  let e := fld a.pa 14 7 ^^^ fld a.pa 22 15
  let d := s.die k
  regionOf a.pa == 0 && (decide (a.reach ≤ 1) || (d.borrow && decide (mget d.predictor e 0 ≤ 1))
    || ((mget? d.dc (a.pa / 128)).map fun c => c.borrowed).getD false)

/-- A read of local memory by a core's thread or copy engine, through L1 and the die cache as R269 and R270 allow, for the
acquires given. The copies that it bypasses are refreshed; under .stream none is filled that was not held (R269, R279). -/
def State.coreReadFor (s : State) (core : Nat) (a : Acc) (lin : Nat) (acq : Nat × Nat) : State × Found :=
  let k := dieOf core
  let line := a.pa / 128
  let i := a.pa % 128
  let of (c : Copy) : Found := let r := c.read i a.size; ⟨r.1, r.2, c.upd⟩
  match s.l1Serves core a acq with
  | some c => (s.setCore core fun x => { x with l1 := mset x.l1 line (c.readBy a.launch) }, of c)
  | none =>
    let keep := a.hint != .stream
    let (s1, c) := match s.dieServes k a acq with
      | some c => (s.setDie k fun d => { d with dc := mset d.dc line (c.readBy a.launch) }, c)
      | none => s.dieFill k line lin a keep
    let s2 := if a.reach ≤ 1 then s1.tickStamp else s1
    let copy : Copy := { c with stamp := if a.reach ≤ 1 then s2.stamp else c.stamp, dirty := 0, borrowed := false,
                                launches := [a.launch] }
    (if keep || (mget? (s2.core core).l1 line).isSome then s2.l1Put core line copy else s2, of c)

def State.coreRead (s : State) (core : Nat) (a : Acc) (lin : Nat) : State × Found := s.coreReadFor core a lin (s.acqOf a)

/-- Whether a stack refuses an access, for its key slot (R266). -/
def State.refused (s : State) (a : Acc) : Bool := a.dev.isNone && regionOf a.pa < 2 && s.keyRefused a.key a.secAgent

/-- Whether the home stack of a local access is there (R25). -/
def State.homeUp (s : State) (a : Acc) : Bool :=
  a.dev.isSome || match linOf a.pa with
    | some lin => (s.stack (homeOf lin)).alive
    | none => match blockOf a.pa with
      | some (.base k) => (s.stack k).alive
      | some .control => s.ctl.alive
      | _ => true

/-- Lay the bytes of stores not yet performed over what a load read: those of its core that have left their queues, in the
order in which they left, then its thread's own queued ones (R305, R308). A byte's mark is its sector's, as the stores leave it: a
partial store of clean data leaves the mark in place (R149). -/
def State.overlay (s : State) (a : Acc) (f : Found) : Found :=
  let put (f : Found) (b : Acc) : Found :=
    match b.kind with
    | .store bytes pois =>
      if b.inRegs then f
      else
        let x := placeOf a.dev a.pa
        let y := placeOf b.dev b.pa
        let hit (i : Nat) : Bool := decide (y ≤ x + i) && decide (x + i < y + bytes.length)
        let bad := marksStore 32 [] y pois
        let clean (sec : Nat) : Bool := decide (y ≤ 32 * sec) && decide (32 * sec + 32 ≤ y + bytes.length)
        { f with
          bytes := ((upFrom 0 f.bytes.length).zip f.bytes).map fun p => if hit p.1 then lget bytes (x + p.1 - y) 0 else p.2
          pois := ((upFrom 0 f.pois.length).zip f.pois).map fun p =>
            let sec := (x + p.1) / 32
            bad.contains sec || (p.2 && !clean sec) }
    | _ => f
  let flight := s.accs.filter fun b => b.inFlight && b.core? == a.core?
  let own := s.accs.filter fun b => b.queued && decide (b.id < a.id) && a.sameAgent b
  (sortBy (fun b => b.id) own).foldl put (flight.foldl put f)

/-- Bytes of a shed (R198). -/
def State.shedRead (s : State) (die shed off n : Nat) : List Byte :=
  match mget? (s.die die).sheds shed with
  | none => List.replicate n 0
  | some h => (upFrom off n).map fun i => mget h.bytes i 0

def State.shedOf (s : State) (die shed : Nat) : Shed := mget (s.die die).sheds shed ⟨[], [], []⟩

/-- Whether [off, off + n) of a shed touches a marked bank word (R149). -/
def State.shedMarked (s : State) (die shed off n : Nat) : Bool :=
  let m := (s.shedOf die shed).marks
  (upFrom (off / 4) ((off + n - 1) / 4 + 1 - off / 4)).any fun w => m.contains w

/-- What a local load reads at the moment it is performed; any marked bank word of a shed poisons all of it (R206). -/
def State.readNow (s : State) (a : Acc) : State × Found :=
  match a.shedPlace? with
  | some p =>
    let die := p / 2 ^ 26
    let shed := p / 2 ^ 17 % 512
    (s, ⟨s.shedRead die shed (p % 2 ^ 17) a.size, List.replicate a.size (s.shedMarked die shed (p % 2 ^ 17) a.size), 0⟩)
  | none =>
  if regionOf a.pa = 2 then
    match blockOf a.pa with
    | some b => (s, ⟨bytesOf 8 (s.regValue b (fld a.pa 35 0)), List.replicate 8 false, 0⟩)
    | none => (s, ⟨bytesOf 8 0, List.replicate 8 false, 0⟩)
  else
    match linOf a.pa with
    | none => (s, ⟨List.replicate a.size 0, List.replicate a.size false, 0⟩)
    | some lin =>
      match a.who with
      | .score _ =>
        let r := s.readHome lin a.size a.key none
        (r.1, ⟨r.2.1, r.2.2, 0⟩)
      | .thread t =>
        if a.cacheable then
          let r := s.coreRead t.core a lin
          (r.1, r.1.overlay a r.2)
        else
          let r := s.tickStamp.readHome lin a.size a.key none
          (r.1, r.1.overlay a ⟨r.2.1, r.2.2, r.1.stamp⟩)

/-! ### Performing stores -/

/-- A line is dropped everywhere, its bytes then reading as they were or as zero (R281, R282). What they were is what the caches'
newest copies held, so those bytes are put at home first. -/
def State.homeDiscard (s : State) (lin : Nat) : State :=
  let line := intOf lin / 128
  let s0 := (upFrom 0 8).foldl (fun (s : State) k => match mget? (s.die k).dc line with
    | some c => s.writeBack line c
    | none => s) s
  let s1 := { s0 with cores := s0.cores.map fun (c : Core) => { c with l1 := mdel c.l1 line },
                      dies := s0.dies.map fun (d : Die) => { d with dc := mdel d.dc line } }
  let s2 := s1.homeWrite lin 0 (memRead s1.mem lin 128) ((upFrom 0 128).map fun i => s1.marks.contains ((lin + i) / 32))
  { s2 with gaps := ⟨lin, lin + 128⟩ :: s2.gaps }

/-- A write performed at the home slice by an agent of die `k`; a line that the die itself has borrowed is written
there (R353). -/
def State.homeFrom (s : State) (k : Option Nat) (lin key : Nat) (bs : List Byte) (pois : List Bool) : State :=
  match k with
  | none => s.writeHome lin key bs pois none
  | some k =>
    let line := intOf lin / 128
    match mget? (s.die k).dc line with
    | some c => if c.borrowed then s.setDie k fun d => { d with dc := mset d.dc line (c.write (lin % 128) bs pois true) }
        else s.writeHome lin key bs pois (some k)
    | none => s.writeHome lin key bs pois (some k)

/-- A sync word (R215). -/
structure SyncW where
  target : Nat
  count : Nat
  gen : Nat
  ovf : Bool
  pois : Bool
  deriving DecidableEq, Repr

def SyncW.ofBytes (bs : List Byte) : SyncW :=
  let v := numOf bs
  ⟨fld v 31 0, fld v 63 32, fld v 95 64, bitAt v 96, bitAt v 97⟩

def SyncW.bytes (w : SyncW) : List Byte :=
  bytesOf 16 (b2n w.pois * 2 ^ 97 + b2n w.ovf * 2 ^ 96 + w.gen % 2 ^ 32 * 2 ^ 64 + w.count % 2 ^ 32 * 2 ^ 32 + w.target % 2 ^ 32)

/-- An add to a sync word (R216). -/
def SyncW.add (w : SyncW) (x : Nat) : SyncW :=
  if w.target = 0 then { w with count := min (w.count + x) (2 ^ 32 - 1) }
  else
    let t := w.count + x
    let k := t / w.target
    { w with gen := (w.gen + k) % 2 ^ 32, count := t % w.target, ovf := w.ovf || (decide (1 ≤ k) && decide (w.target < t)) }

/-- SYNCW.INIT (R218). -/
def SyncW.init (w : SyncW) (b : Nat) : SyncW := { w with target := b, count := 0, ovf := false, pois := false }

/-- Whether a wait for generation b ends (R218). -/
def SyncW.reached (w : SyncW) (b : Nat) : Bool := decide ((w.gen + 2 ^ 32 - b % 2 ^ 32) % 2 ^ 32 < 2 ^ 31)

/-- The write of a thread, or of one lane of its access, has been performed at CORE or DIE reach: it heads a release sequence, or it is
a member of one, or it ends one (R312). -/
def State.wrote (s : State) (a : Acc) (lane : Nat) (rmw : Bool) : State :=
  match a.die? with
  | none => s
  | some k =>
    if 2 ≤ a.reach then s
    else
      let old := if rmw then s.pubAt k a.pa else (0, 0)
      s.publish k a.pa a.size (if a.releases then old.join (s.acqOf { a with lanes := [lane] }) else old)

/-- Write bytes of a shed; `pois` says byte by byte whether a poisoned source supplied it (R149). -/
def State.shedWrite (s : State) (die shed off : Nat) (bs : List Byte) (pois : List Bool) : State :=
  let h := s.shedOf die shed
  let bytes := ((upFrom off bs.length).zip bs).foldl (fun m p => msetD 0 m p.1 p.2) h.bytes
  s.setDie die fun d => { d with sheds := mset d.sheds shed ⟨bytes, marksStore 4 h.marks off pois, h.taint⟩ }

/-- Change a sync word in a shed. -/
def State.shedSync (s : State) (die shed off : Nat) (f : SyncW → SyncW) : State :=
  s.shedWrite die shed off (f (SyncW.ofBytes (s.shedRead die shed off 16))).bytes (List.replicate 16 false)

/-- The same, at a place. -/
def State.shedSyncAt (s : State) (place : Nat) (f : SyncW → SyncW) : State :=
  s.shedSync (place / 2 ^ 26) (place / 2 ^ 17 % 512) (place % 2 ^ 17) f

/-- A line that a die cache holds of a page of narrow reach is written back and dropped before an update at home. -/
def State.flushLine (s : State) (k line : Nat) : State :=
  match mget? (s.die k).dc line with
  | none => s
  | some c => (s.writeBack line c).setDie k fun d => { d with dc := mdel d.dc line }

/-- Change a sync word at its home stack (R216); nothing changes at a stack whose base die is lost (R25). -/
def State.homeSync (s : State) (lin key : Nat) (k : Option Nat) (f : SyncW → SyncW) : State :=
  if !(s.stack (homeOf lin)).alive then s
  else
    let s0 := match k with
      | some k => s.flushLine k (intOf lin / 128)
      | none => s
    let r := s0.readHome lin 16 key none
    r.1.homeWrite lin key (f (SyncW.ofBytes r.2.1)).bytes (List.replicate 16 false)

/-- The sync word that a wait looks at, in this package: at home, once a borrowed line is recalled and what the waiter's die cache holds
of it is written back (R304, R305, R353). -/
def State.waitWord (s : State) (a : Acc) : State × SyncW :=
  match a.shedPlace? with
  | some p => (s, SyncW.ofBytes (s.shedRead (p / 2 ^ 26) (p / 2 ^ 17 % 512) (p % 2 ^ 17) 16))
  | none => match linOf a.pa with
    | some lin =>
      let s0 := match a.die? with
        | some k => s.flushLine k (intOf lin / 128)
        | none => s
      let r := s0.readHome lin 16 a.key none
      (r.1, SyncW.ofBytes r.2.1)
    | none => (s, ⟨0, 0, 0, false, false⟩)

/-- SYNC_WORD_ADD: one add at a shed or at a home stack (R216). -/
def execSyncWordAdd (loc : SyncLoc) (units : Nat) (s : State) : Host.Outcome State Fault Refusal :=
  .next (match loc with
    | .shed die shed off => s.shedSync die shed off fun w => w.add units
    | .home byte => s.homeSync byte 0 none fun w => w.add units)

/-! ### Statuses (R114, R317, R318, R323) -/

def Thread.record (t : Thread) (st : RStat) : Thread :=
  if st = .ok then t else { t with rerrCount := min 255 (t.rerrCount + 1), rerrStat := st.code }

/-- A failure is recorded; FENCE.SYS sees it too. -/
def Thread.failNow (t : Thread) (st : RStat) : Thread := { t.record st with fails := t.fails ++ [st] }
/-- A store's failure is recorded at the next fence that covers it. -/
def Thread.failLate (t : Thread) (st : RStat) : Thread := { t with late := t.late ++ [st] }
/-- A fence covers what has failed before it (R317). -/
def Thread.cover (t : Thread) : Thread := { t.late.foldl Thread.failNow t with late := [] }

def State.modLanes (s : State) (a : Acc) (f : Thread → Thread) : State :=
  match a.who with
  | .thread t => a.lanes.foldl (fun s l => s.modThread { t with lane := l } a.launch f) s
  | .score _ => s

/-- A status in $rerr of an instance (R114, R380). -/
def Inst.record (i : Inst) (st : RStat) : Inst :=
  if st = .ok then i else { i with rerrCount := min 255 (i.rerrCount + 1), rerrStat := st.code }

/-- An instance's failure is recorded at once; fence.sys sees it too (R323, R383). -/
def Inst.failNow (i : Inst) (st : RStat) : Inst := { i.record st with fails := i.fails ++ [st] }

/-- A store or an atomic of these lanes failed at its target (R323); where a fence of the thread covers it already, its status is
recorded as it is acknowledged (R317). -/
def State.failLanes (s : State) (a : Acc) (lanes : List Nat) (st : RStat) : State :=
  match a.who with
  | .thread t => lanes.foldl (fun s l =>
      let covered := s.accs.any fun f => f.isFence && decide (a.id < f.id) && f.sameAgent { a with lanes := [l] }
      s.modThread { t with lane := l } a.launch fun th => if covered then th.failNow st else th.failLate st) s
  | .score _ => s

/-- A store or an atomic failed at its target (R323). -/
def State.failStore (s : State) (a : Acc) (st : RStat) : State :=
  match a.who with
  | .thread _ => s.failLanes a a.lanes st
  | .score n =>
    let covered := s.accs.any fun f => f.isFence && decide (a.id < f.id) && f.who == a.who
    s.setScore n fun k => { k with run := k.run.map fun i => if covered then i.failNow st else { i with late := i.late ++ [st] } }

/-! ### What follows a completed access -/

/-- Whether every access that a fence covers is done (R317, R318). -/
def State.fenceDone (s : State) (f : Acc) : Bool :=
  let sys := match f.kind with
    | .fence y _ => y
    | _ => false
  s.accs.all fun b => b.performed || decide (f.id ≤ b.id) || !f.sameAgent b || (b.isPagein && !sys)

/-- A fence of a thread ends: the thread has acquired (R270), and FENCE.SYS records once more each failure since the last
FENCE.SYS, as R318's loop does. -/
def Thread.endFence (t : Thread) (sys : Bool) (stamp : Nat) : Thread :=
  let t0 := t.cover
  let t1 := if sys then t0.fails.foldl Thread.record t0 else t0
  { t1 with acqDie := stamp, acqPkg := stamp, fails := if sys then [] else t1.fails }

/-- The failures of an instance's stores that a fence covers are recorded (R317, R383). -/
def Inst.cover (i : Inst) : Inst := { i.late.foldl Inst.failNow i with late := [] }

/-- A fence of an instance ends. FENCE.SYS records once more each failure since the last FENCE.SYS, as R318's loop does, and gives the
first of them (R383). -/
def Inst.endFence (i : Inst) (id : Nat) (sys : Bool) (pd : Nat) : Inst :=
  let i0 := i.cover
  let st := (i0.fails.find? fun st => st != .ok).getD .ok
  let i1 := { (if sys then { i0.fails.foldl Inst.record i0 with fails := [] } else i0) with pendG := i0.pendG.filter fun p => p.2 != id }
  if sys && pd != 0 then { i1 with g := msetD 0 i1.g pd (BitVec.ofNat 64 st.code), gm := markOut i1.gm pd } else i1

def State.endFence (s : State) (f : Acc) (sys : Bool) (pd : Nat) : State :=
  let s1 := { s with accs := s.accs.filter fun b => !(b.id == f.id && b.isFence) }.tickStamp
  match f.who with
  | .thread t =>
    let th := (s.core t.core).ctxs.findSome? fun x => ((mget? x.warps t.warp).filter fun w => w.launch == f.launch).bind fun w => w.threads[t.lane]?
    let ok : Bool := match th with
      | some th => (th.late ++ th.fails).all fun st => st == .ok
      | none => true
    let s2 := s1.modThread t f.launch fun th => th.endFence sys s1.stamp
    if sys && pd != 7 then s2.modWarp t.core t.warp f.launch fun w => w.write (.p pd) t.lane ⟨if ok then 1 else 0, .raw⟩ else s2
  | .score n => s1.setScore n fun k => { k with run := k.run.map fun i => i.endFence f.id sys pd }

/-- End the fences whose accesses are all done, in order. -/
def State.endFences (s : State) : State :=
  s.accs.foldl (fun s f => match f.kind with
    | .fence sys pd => if s.fenceDone f then s.endFence f sys pd else s
    | _ => s) s

/-- The ticks of the die whose timeout an access uses (R319). -/
def State.ticksOf (s : State) (w : Who) : Nat :=
  match w with
  | .thread t => (s.die (dieOf t.core)).ticks
  | .score n => (s.stack (n / 4)).ticks

/-- The path that a request takes because an earlier one to its line is unacknowledged (R417). -/
def State.sameLineHop (s : State) (a : Acc) : Option Nat :=
  (s.accs.find? fun b => b.hop.isSome && !b.performed && b.dev == a.dev && b.pa / 128 == a.pa / 128).bind fun b => b.hop

/-- An access is sent: whether the fabric holds its target unreachable is seen then (R323, R429); a request to another
device is queued on its route (R413, R414, R416). -/
def State.depart (s : State) (a : Acc) : State × Acc :=
  let a1 := { a with sent := some (s.ticksOf a.who) }
  match a.dev with
  | none => (s, a1)
  | some d =>
    let k := targetStack a.pa
    if s.unreachable d k then (s, { a1 with lost := true })
    else
      let marks := match a.kind with
        | .store _ ms => ms
        | .cStore ps => ps.map fun p => p.2.2
        | _ => []
      let part := ((s.launch? a.launch).map fun l => l.part).getD 0
      let r := s.sendTo k d (packetOf (s.flitFor 0 d part (!a.secAgent) a.id) (1 + ceilDiv marks.length 64) marks) (s.sameLineHop a)
      (r.1, { a1 with hop := r.2 })

/-- Accesses that the gate no longer holds are sent (R310, R319). -/
def State.sendReady (s : State) : State :=
  s.accs.foldl (fun s a =>
    if a.sent.isSome || a.queued || a.isFence || a.isPagein || !s.gateOk a then s
    else
      let r := s.depart a
      { r.1 with accs := r.1.accs.map fun b =>
          if b.id = a.id then { b with sent := r.2.sent, lost := r.2.lost, hop := r.2.hop } else b }) s

/-- Drop the reads performed out of order once no older read of their warp is left. -/
def State.pruneReads (s : State) : State :=
  { s with accs := s.accs.filter fun a => !(a.performed && (s.olderReads a).isEmpty) }

/-- The pending results of a warp whose accesses have all returned are no longer pending (R44). -/
def State.landPends (s : State) (core warp launch : Nat) : State :=
  s.modWarp core warp launch fun w => { w with pend := w.pend.filter fun p => match p.src with
    | .acc last => s.accs.any fun a => !a.performed && decide (p.id < a.id) && decide (a.id ≤ last)
    | _ => true }

/-- The barriers at which threads of a core wait: a barrier waits for the stores of its members' cores (R334). -/
def State.barriersOn (s : State) (core : Nat) : List (Nat × Nat) :=
  ((s.core core).ctxs.flatMap fun x => x.warps.flatMap fun w => w.2.threads.filterMap fun th => match th.st with
    | .group h => if h < 2 ^ 32 then some (w.2.launch, h) else none
    | _ => none).eraseDups

/-- The barriers that an access may have held may now complete (R334). -/
def State.retryBarriers (s : State) (a : Acc) : State :=
  match a.who with
  | .score _ => s
  | .thread t => (s.barriersOn t.core).foldl (fun s b => s.tryBarrier b.1 b.2) s

/-- Everything that follows when an access has completed. -/
def State.settle (s : State) (a : Acc) : State :=
  let s1 := s.pruneReads.endFences.sendReady
  let s2 := match a.who with
    | .thread t => s1.landPends t.core t.warp a.launch
    | .score _ => s1
  s2.retryBarriers a

/-- An access is complete: reads stay listed while an older read of their warp is outstanding. -/
def State.complete (s : State) (a : Acc) : State :=
  let s1 := if a.reads && !a.isShed then { s with accs := s.accs.map fun b => if b.id = a.id then { b with performed := true } else b }
    else { s with accs := s.accs.filter fun b => b.id != a.id }
  s1.settle a

/-- After an issue has appended accesses: what is free of the gate is sent, and fences with nothing to wait for end. -/
def State.afterIssue (s : State) (core warp launch : Nat) : State := s.endFences.sendReady.landPends core warp launch

end Sys2Proof.Machine
end

