-- ==== Sys2Proof/Machine/Yard.lean ====
section
/-! DEFINITION. The yard (R11 to R16, R25, R407, R408): the routes, the packets in its buffers and their movement, and when an access has
crossed it. Channel 0 is REQ, 1 is RSP, 2 is MGMT. The packets are those of the accesses of threads and stack cores, with the heartbeats;
their beats are counted as R413 counts flits (DESIGN CHOICE, log 131). -/

namespace Sys2Proof.Machine

/-! ### Routes (R11 to R16, R25) -/

/-- The row and the column of a stack, by index (R11). -/
def stackRow (n : Nat) : Nat := n / 4
def stackCol (n : Nat) : Nat := n % 4
def stackAt (row col : Nat) : Nat := 4 * row + col

/-- Whether the link between two stacks has failed. -/
def State.linkBad (s : State) (a b : Nat) : Bool := s.ctl.badLinks.contains (min a b, max a b)

/-- The detour of a failed link: the lowest-indexed live stack of the row or column that both lie in (R25). -/
def State.detour (s : State) (a b : Nat) : Option Nat :=
  (upFrom 0 16).find? fun d => d != a && d != b && (s.stack d).alive
    && (if stackRow a = stackRow b then stackRow d == stackRow a else stackCol d == stackCol a)

/-- The stacks that a hop from `a` to `b` enters, `a` and `b` being in one row or one column; a detour uses the buffers reserved for
detours. -/
def State.hop (s : State) (a b : Nat) : List (Nat × Bool) :=
  if a = b then []
  else if s.linkBad a b then (match s.detour a b with
    | some d => [(d, true), (b, true)]
    | none => [(b, false)])
  else [(b, false)]

/-- The way round a lost base die at the corner of a route (R25): the lowest-indexed column whose stacks in both rows live, one row hop
out and one back. The rule names a detour for a link alone (DESIGN CHOICE, log 128). -/
def State.aroundStack (s : State) (a b : Nat) : Option (Nat × Nat) :=
  ((upFrom 0 4).map fun c => (stackAt (stackRow a) c, stackAt (stackRow b) c)).find? fun p =>
    stackCol p.1 != stackCol b && (s.stack p.1).alive && (s.stack p.2).alive

/-- The stacks that a request from stack `a` to stack `b` enters: at most one row link, then at most one column link (R14). -/
def State.yardRoute (s : State) (a b : Nat) : List (Nat × Bool) :=
  let m := stackAt (stackRow a) (stackCol b)
  let around := if m = a ∨ m = b ∨ (s.stack m).alive then none else s.aroundStack a b
  match around with
  | some p => (s.hop a p.1 ++ s.hop p.1 p.2 ++ s.hop p.2 b).map fun h => (h.1, true)
  | none => s.hop a m ++ s.hop m b

/-- The column whose attach port a compute die uses for a target column: the port's own, or the next one upward whose port
works and whose stack lives (R15, R25). -/
def State.portCol (s : State) (die col : Nat) : Nat :=
  (((upFrom 0 4).map fun i => (col + i) % 4).find? fun c =>
    !s.ctl.badPorts.contains (die, c) && (s.stack (stackAt (die % 4) c)).alive).getD col

/-- The stack through which the control die reaches a stack (R15). -/
def ctlPort (target : Nat) : Nat :=
  let near := stackRow target == 0 || stackCol target == 0
  let far := stackRow target == 3 || stackCol target == 3
  if near && !far then 0
  else if far && !near then 15
  else if stackRow target ≤ 1 then 0 else 15

/-! ### Nodes -/

/-- The nodes of the yard: the stacks by index, then the compute dies, then the control die. -/
def dieNode (k : Nat) : Nat := 16 + k
def ctlNode : Nat := 24

def State.nodeUp (s : State) (n : Nat) : Bool :=
  if n < 16 then (s.stack n).alive else if n < 24 then (s.die (n - 16)).st == .up else s.ctl.alive

/-- The stack through which a die reaches a stack, or is reached from it (R15). -/
def State.portOf (s : State) (node stack : Nat) : Nat :=
  if node = ctlNode then ctlPort stack else stackAt (node % 4) (s.portCol (node - 16) (stackCol stack))

/-- The nodes that a packet enters on its way (R14, R15); from a die to a die's registers through the port of column 0. -/
def State.wayTo (s : State) (src dst : Nat) : List (Nat × Bool) :=
  let enter (stack : Nat) : Nat := if src < 16 then src else s.portOf src stack
  let first (e : Nat) : List (Nat × Bool) := if src < 16 then [] else [(e, false)]
  if src = dst then []
  else if dst < 16 then first (enter dst) ++ s.yardRoute (enter dst) dst
  else
    let e := enter 0
    first e ++ s.yardRoute e (s.portOf dst e) ++ [(dst, false)]

/-- Whether a way uses only what works. -/
def State.wayOk (s : State) (node : Nat) : List (Nat × Bool) → Bool
  | [] => true
  | (n, _) :: rest =>
    let port (die stack : Nat) : Bool := die == ctlNode || !s.ctl.badPorts.contains (die - 16, stackCol stack)
    s.nodeUp n && (if node < 16 then (if n < 16 then !s.linkBad node n else port n node) else port node n) && s.wayOk n rest

/-! ### Buffers -/

/-- The buffer of a node for what enters it from another node, on a channel; the buffer from the node itself is the queue of what it
sends. -/
def bufKey (prev node ch : Nat) (esc : Bool) : Nat := ((prev * 32 + node) * 3 + ch) * 2 + b2n esc
def bufCh (key : Nat) : Nat := key / 2 % 3
def bufNode (key : Nat) : Nat := key / 6 % 32
def bufPrev (key : Nat) : Nat := key / 192

/-- A packet of `n` beats enters its source's queue. -/
def Yard.inject (y : Yard) (ch : Nat) (b : YBeat) (n : Nat) : Yard :=
  let key := bufKey b.src b.src ch false
  { y with bufs := mset y.bufs key (mget y.bufs key [] ++ (upFrom 0 n).map fun i => { b with last := i + 1 == n }) }

def State.inject (s : State) (ch src dst : Nat) (acc : Option Nat) (n back : Nat) : State :=
  match s.wayTo src dst with
  | [] => s
  | way => { s with yard := s.yard.inject ch ⟨acc, src, dst, way, false, back, 0⟩ n }

/-- Every beat in the yard, with its buffer. -/
def Yard.beats (y : Yard) : List (Nat × YBeat) := y.bufs.flatMap fun p => p.2.map fun b => (p.1, b)

/-- Where the beat at the head of a buffer goes next: the buffer, and the node. -/
def nextBuf (key : Nat) (b : YBeat) : Option Nat := b.rest.head?.map fun h => bufKey (bufNode key) h.1 (bufCh key) h.2

/-- Whether the next hop has a credit; what has reached its target is taken at once. -/
def Yard.credit (y : Yard) (key : Nat) (b : YBeat) : Bool :=
  decide (b.rest.length ≤ 1) || (match nextBuf key b with
    | some k => decide ((mget y.bufs k []).length < Config.yardDepth k + 1)
    | none => true)

/-- A source sends nothing along a new route until the old one has delivered its packets (R408). -/
def Yard.mayLeave (y : Yard) (key : Nat) (b : YBeat) : Bool :=
  bufPrev key != bufNode key || y.beats.all fun p =>
    bufPrev p.1 == bufNode p.1 || bufCh p.1 != bufCh key || p.2.src != b.src || p.2.dst != b.dst || p.2.rest.isSuffixOf b.rest

/-- The beats at the heads of their buffers that can go on. -/
def Yard.ready (y : Yard) : List (Nat × YBeat) :=
  y.bufs.filterMap fun p => match p.2 with
    | b :: _ => if y.credit p.1 b && y.mayLeave p.1 b then some (p.1, b) else none
    | [] => none

/-- The output that a beat waits for. -/
def outOf (key : Nat) (b : YBeat) : Nat := bufNode key * 32 + (b.rest.head?.map fun h => h.1).getD 0

/-- The cycles after which a waiting REQ input goes ahead of RSP. -/
def reqPatience : Nat := 64

/-- The beat that an output takes: MGMT, then a REQ input that has waited, then RSP, then REQ, each channel's inputs in rotating order. -/
def Yard.pick (y : Yard) (out : Nat) : Option (Nat × YBeat) :=
  let all := y.ready.filter fun h => outOf h.1 h.2 == out
  let on (c : Nat) : List (Nat × YBeat) := all.filter fun h => bufCh h.1 == c
  let turn (c : Nat) (l : List (Nat × YBeat)) : Option (Nat × YBeat) :=
    match l.find? fun h => decide (mget y.turns (3 * out + c) 0 < h.1) with
    | some h => some h
    | none => l.head?
  [(2, on 2), (0, (on 0).filter fun h => decide (reqPatience ≤ h.2.waited)), (1, on 1), (0, on 0)].findSome? fun p => turn p.1 p.2

/-- What a cycle takes, one beat at each output. -/
def Yard.picks (y : Yard) : List (Nat × YBeat) :=
  ((y.ready.map fun h => outOf h.1 h.2).eraseDups).filterMap y.pick

/-- A yard cycle: the beats taken move on by one hop, and those that have reached their targets are answered. -/
def Yard.cycle (y : Yard) : Yard × List (Nat × YBeat) :=
  let picks := y.picks
  let left := y.bufs.filterMap fun p => match p.2 with
    | [] => none
    | b :: bs =>
      if picks.any fun h => h.1 == p.1 then (if bs.isEmpty then none else some (p.1, bs))
      else some (p.1, { b with waited := b.waited + 1 } :: bs)
  let go (h : Nat × YBeat) : YBeat := { h.2 with rest := h.2.rest.drop 1, waited := 0 }
  let bufs := picks.foldl (fun m h => match nextBuf h.1 h.2 with
    | some k => if h.2.rest.length ≤ 1 then m else mset m k (mget m k [] ++ [go h])
    | none => m) left
  (⟨bufs, picks.foldl (fun m h => mset m (3 * outOf h.1 h.2 + bufCh h.1) h.1) y.turns⟩,
   picks.filter fun h => decide (h.2.rest.length ≤ 1))

/-- One yard cycle of the package: a request whose last beat has arrived is answered from its target. -/
def State.yardCycle (s : State) : State :=
  let r := s.yard.cycle
  r.2.foldl (fun (s : State) h => if bufCh h.1 = 0 ∧ h.2.last then s.inject 1 h.2.dst h.2.src h.2.acc h.2.back 0 else s) { s with yard := r.1 }

/-- The control die's heartbeat to each base die (R25, R430). -/
def State.heartbeats (s : State) : State :=
  if s.ctl.alive then ((upFrom 0 16).filter fun n => (s.stack n).alive).foldl (fun (s : State) n => s.inject 2 ctlNode n none 1 0) s else s

/-- After a failure (R25): packets of which a beat stands in a lost part, or that come from one or go to one, are gone, and their accesses
ask again; the way of the others that would cross what has failed is chosen anew. -/
def State.mendYard (s : State) : State :=
  let lost (p : Nat × YBeat) : Bool := !s.nodeUp (bufNode p.1) || !s.nodeUp p.2.src || !s.nodeUp p.2.dst
  let gone := (s.yard.beats.filter lost).filterMap fun p => p.2.acc
  let bufs := s.yard.bufs.filterMap fun p =>
    match (p.2.filter fun b => !lost (p.1, b) && !(match b.acc with
      | some a => gone.contains a
      | none => false)).map fun b => if s.wayOk (bufNode p.1) b.rest then b else { b with rest := s.wayTo (bufNode p.1) b.dst } with
    | [] => none
    | l => some (p.1, l)
  { s with yard := { s.yard with bufs := bufs }, accs := s.accs.map fun a => if gone.contains a.id then { a with out := false } else a }

/-! ### Accesses -/

/-- The node of the agent that makes an access. -/
def Acc.node (a : Acc) : Nat := match a.who with
  | .thread t => dieNode (dieOf t.core)
  | .score n => n / 4

/-- Whether the caches of its core and its die serve a load, or a lane of an atomic, or take a store. -/
def State.servedIn (s : State) (a : Acc) : Bool :=
  match a.who with
  | .score _ => false
  | .thread t =>
    let k := dieOf t.core
    a.cacheable && (match a.kind with
      | .load .. => (s.l1Serves t.core a (s.acqOf a)).isSome || (s.dieServes k a (s.acqOf a)).isSome
      | .atomic .. => s.atomInDie k a && ((s.dieCopy k (a.pa / 128) a).filter fun c => decide (a.reach ≤ 1) || c.borrowed).isSome
      | .store .. => (match mget? (s.die k).dc (a.pa / 128) with
          | some c => c.borrowed || (decide (a.reach ≤ 1) && (s.dieCopy k (a.pa / 128) a).isSome)
          | none => false)
      | _ => false)

/-- The nodes that an access has to reach: the home stacks of what its die does not hold, the stack from which a request to another device
leaves (R414), or the part whose registers it names. -/
def State.homesOf (s : State) (a : Acc) : List Nat :=
  let home (x : Acc) : List Nat := match linOf x.pa with
    | some lin => if s.servedIn x then [] else [homeOf lin]
    | none => match (if regionOf x.pa = 2 then blockOf x.pa else none) with
      | some (.base k) => [k]
      | some (.die k) => [dieNode k]
      | some .control => [ctlNode]
      | none => []
  let all := if a.lost ∨ a.isFence ∨ a.isPagein ∨ a.isShed then []
    else if a.dev.isSome then [targetStack a.pa]
    else match a.kind with
      | .atomic _ _ _ _ _ _ lanes => lanes.flatMap fun x => home (a.at x)
      | .discard lines => lines.map homeOf
      | _ => home a
  all.eraseDups.filter fun n => n != a.node && s.nodeUp n

/-- Whether a packet of an access is in the yard. -/
def State.inYard (s : State) (id : Nat) : Bool := s.yard.beats.any fun p => p.2.acc == some id

/-- Whether an access may be performed as far as the yard goes: it needs nothing beyond its die or its stack, or its request and the
response have crossed. -/
def State.crossed (s : State) (a : Acc) : Bool := (s.homesOf a).isEmpty || (a.out && !s.inYard a.id)

/-- The beats of a request and of its response, one more than the data (R413). -/
def Acc.reqBeats (a : Acc) : Nat := match a.kind with
  | .store bs _ => 1 + ceilDiv bs.length 64
  | .cStore ps => 1 + ceilDiv ps.length 64
  | _ => 1

def Acc.rspBeats (a : Acc) : Nat :=
  if a.reads && !a.isAtomic then 1 + ceilDiv (if a.cacheable && a.die?.isSome then 128 else a.size) 64 else 1

/-- The requests of an agent that are out, for each of which it has reserved space for the response. -/
def State.outOf (s : State) (node : Nat) : Nat := (s.accs.filter fun b => b.out && !b.performed && b.node == node).length

/-- An access sends its request, once the space for its response is reserved. -/
def State.request (s : State) (a : Acc) : State :=
  if a.out ∨ Config.yardSpace a.node + 1 ≤ s.outOf a.node then s
  else
    let s1 := (s.homesOf a).foldl (fun (s : State) n => s.inject 0 a.node n (some a.id) a.reqBeats a.rspBeats) s
    { s1 with accs := s1.accs.map fun b => if b.id = a.id then { b with out := true } else b }

/-- A wait will ask for its sync word again. -/
def State.askAgain (s : State) (id : Nat) : State :=
  { s with accs := s.accs.map fun b => if b.id = id then { b with out := false } else b }

end Sys2Proof.Machine
end

