-- ==== Sys2Proof/Machine/Access.lean ====
section
/-! DEFINITION. Loads, stores and atomics of threads (R273 to R285, R316 to R318, R347 to R354), and the events in which accesses are
performed (R276, R308, R310, R319, R350, R353). -/

namespace Sys2Proof.Machine

/-! ### Addresses (R275) -/

/-- What the checks of an address give: POISON in the pair, a fault, a non-resident page for a load, or the leaf and the
physical address. -/
inductive AddrRes where
  | pois
  | fault (f : Flt)
  | absent
  | ok (va leaf pa : Nat)
  deriving DecidableEq, Repr

/-- The faults of R18 to R21 and of the registers confined to M level, for a target in this package. -/
def State.targetFault (s : State) (leaf pa size : Nat) (sLevel atomic : Bool) : Option Nat :=
  if !s.localDev (pteDev leaf) then none
  else match regionFault pa size sLevel atomic with
    | some c => some c
    | none => if regionOf pa = 2 then match blockOf pa with
        | some b => if regConfined b (fld pa 35 0) then some ePriv else none
        | none => none
      else none

/-- The effective address of a lane: the pair plus an offset, modulo 2^64 (R275). -/
def Iss.ea (x : Iss) (a : Src) (l : Nat) (off : Int) : Nat := wrapInt 64 ((x.pair a l : Int) + off)

/-- Steps 4 and 5 of R275 at an address. -/
def State.target (s : State) (t : TRef) (asid va size : Nat) (k : XKind) (atomic : Bool) : State × AddrRes :=
  let lv := ((s.thread? t).map fun th => th.sLevel).getD false
  match s.translate (.thread t) asid va k (s.core t.core).ctx.sec with
  | (s, .fault c) => (s, .fault (.at c va))
  | (s, .absent) => (s, .absent)
  | (s, .ok leaf pa) => match s.targetFault leaf pa size lv atomic with
    | some c => (s, .fault (.at c va))
    | none => (s, .ok va leaf pa)

/-- The checks of R275 and R349 on one lane's address. -/
def State.addrOf (s : State) (x : Iss) (a : Src) (l : Nat) (off : Int) (size : Nat) (k : XKind) (atomic : Bool) : State × AddrRes :=
  match checkTags [(x.src a 0 l, intTags), (x.src a 1 l, intTags)] with
  | .pois => (s, .pois)
  | .bad field => (s, .fault (.of eTag field))
  | .good =>
    let va := x.ea a l off
    if va % size ≠ 0 then (s, .fault (.at eAlign va))
    else s.target (x.ref l) (s.asidOf x.w) va size k atomic

/-! ### Bodies that act lane by lane -/

/-- What a lane of a memory instruction does at its issue, beside the accesses it appends: values known at once, a poison
event, a fault. -/
structure MemOut where
  now : List Wb
  pois : Bool
  fault : Option Flt
  deriving DecidableEq, Repr

def MemOut.none : MemOut := ⟨[], false, Option.none⟩
def MemOut.bad (f : Flt) : MemOut := ⟨[], false, some f⟩

/-- Run the lanes in ascending order; `names` are what the accesses will write. Results known at once are written with
variable latency, the others stay pending until the last access has returned. -/
def memLanes (names : List RName) (f : Iss → State → Nat → State × MemOut) (x : Iss) (s : State) : Eff :=
  let id0 := s.nextId
  let r := x.act.foldl (fun (acc : State × List (Nat × MemOut)) l =>
    let o := f x acc.1 l
    (o.1, acc.2 ++ [(l, o.2)])) (s.fresh, [])
  let last := r.1.nextId - 1
  let s1 := if last = id0 ∨ names.isEmpty then r.1
    else r.1.setWarp x.core x.warp fun w => { w with pend := w.pend ++ [⟨id0, names, .acc last, []⟩] }
  let s2 := s1.putRegs x .var (r.2.flatMap fun o => o.2.now)
  let s3 := s2.poison x.core (r.2.filter fun o => o.2.pois).length
  let s4 := r.2.foldl (fun s o => match o.2.fault with
    | some f => s.takeFault (x.ref o.1) x.pc f
    | none => s) s3
  ⟨s4.afterIssue x.core x.warp x.w.launch, if r.2.any (fun o => o.2.fault.isSome) then .trap else .go⟩

/-- The tag of piece `i` of a loaded group (R205, R276). -/
def tagAt (t : Tag) (i : Nat) : Tag := if t = .fp64l ∨ t = .fp64h then (if i % 2 = 0 then .fp64l else .fp64h) else t

/-- The residency predicate of a lane. -/
def prWb (pr : Pred) (l : Nat) (b : Bool) : List Wb := if pr.val = 7 then [] else [⟨.p pr.val, l, ⟨if b then 1 else 0, .raw⟩⟩]

/-- Values of a destination group in a lane. -/
def groupWb (names : List RName) (l : Nat) (f : Nat → RName → Reg) : List Wb :=
  ((upFrom 0 names.length).zip names).map fun p => ⟨p.2, (match p.2 with | .w _ => 0 | _ => l), f p.1 p.2⟩

/-- POISON for a destination group. -/
def poisWb (ticket : Nat) (names : List RName) (l : Nat) : List Wb :=
  groupWb names l fun _ n => ⟨Config.undef ticket (rkey n l), .poison⟩

/-- Zeros with the tags of a load (R252, R323). -/
def zeroWb (names : List RName) (t : Tag) (l : Nat) : List Wb := groupWb names l fun i _ => ⟨0, tagAt t i⟩

/-! ### LD, ST, LDW (R276 to R278) -/

/-- LD (R276). DESIGN CHOICE (log 121): a load of a non-resident page makes no access, so under .acq it is no acquire; R252 is silent. -/
def execLd (h : Hdr) (d : Dst) (a : Src) (hint : Hint) (c : Cls) (w : Sys2Proof.Width) (t : Tag) (pr : Pred) (off : BitVec 4)
    (s : State) : Host.Outcome State Fault Refusal :=
  let i : Instr := .ld h d a hint c w t pr off
  let names := dstNames d (Width.regs w)
  let n := Width.bytes w
  issue i s (memLanes (names ++ predName pr) fun x s l =>
    match s.addrOf x a l (off.toInt * n) n .load false with
    | (s, .pois) => (s, { now := poisWb x.ticket names l ++ prWb pr l false, pois := true, fault := none })
    | (s, .fault f) => (s, .bad f)
    | (s, .absent) => (s, { now := zeroWb names t l ++ prWb pr l false, pois := false, fault := none })
    | (s, .ok va leaf pa) =>
      (s.pushAcc { s.threadAcc (x.ref l) (.load names t pr.val) c hint (s.asidOf x.w) va leaf pa n with need := x.need i h l },
       .none))

def execLdw (h : Hdr) (d : Dst) (a : Src) (hint : Hint) (c : Cls) (w : Sys2Proof.Width) (t : Tag) (pr : Pred) (off : BitVec 4)
    (s : State) : Host.Outcome State Fault Refusal :=
  let i : Instr := .ldw h d a hint c w t pr off
  let names := dstNames d (Width.regs w)
  let n := Width.bytes w
  issue i s fun x s =>
    if x.act.isEmpty then .go s
    else
      let id0 := s.nextId
      match s.fresh.addrOf x a (onceLane x) (off.toInt * n) n .load false with
      | (s, .fault f) => faultAll f x s
      | (s, .pois) =>
        let e := s.commit x .var names (x.act.map fun l => (l, LaneRes.of (poisRegs x.ticket names l)))
        .go ((e.s.putRegs x .var (x.act.flatMap fun l => prWb pr l false)).poison x.core 1)
      | (s, .absent) =>
        let e := s.commit x .var names (x.act.map fun l => (l, LaneRes.of ((upFrom 0 names.length).map fun i => ⟨0, tagAt t i⟩)))
        .go (e.s.putRegs x .var (x.act.flatMap fun l => prWb pr l false))
      | (s, .ok va leaf pa) =>
        let need := x.act.foldl (fun m l => max m (x.need i h l)) 0
        let a0 := s.threadAcc (x.ref (onceLane x)) (.load names t pr.val) c hint (s.asidOf x.w) va leaf pa n
        let s1 := s.pushAcc { a0 with lanes := x.act, need := need }
        let all := names ++ predName pr
        let s2 := if all.isEmpty then s1
          else s1.setWarp x.core x.warp fun w => { w with pend := w.pend ++ [⟨id0, all, .acc (s1.nextId - 1), []⟩] }
        .go (s2.afterIssue x.core x.warp x.w.launch)

/-- The low bytes of a register group, and which bytes come from a POISON register (R149). -/
def Iss.groupBytes (x : Iss) (d : Src) (n l : Nat) : List Byte × List Bool :=
  let regs := upFrom 0 ((n + 3) / 4)
  let bs := (regs.flatMap fun i => bytesOf 4 (x.src d i l).val.toNat).take n
  (bs, (upFrom 0 n).map fun i => (x.src d (i / 4) l).pois)

def execSt (h : Hdr) (d a : Src) (hint : Hint) (c : Cls) (w : Sys2Proof.Width) (off : BitVec 11) (s : State) :
    Host.Outcome State Fault Refusal :=
  let n := Width.bytes w
  issue (.st h d a hint c w off) s (memLanes [] fun x s l =>
    match s.addrOf x a l (off.toInt * n) n .store false with
    | (s, .pois) => (s, { MemOut.none with pois := true })
    | (s, .fault f) => (s, .bad f)
    | (s, .absent) => (s, .none)
    | (s, .ok va leaf pa) =>
      let b := x.groupBytes d n l
      (s.pushStore (x.ref l) (s.threadAcc (x.ref l) (.store b.1 b.2) c hint (s.asidOf x.w) va leaf pa n), .none))

/-! ### PREF, DISCARD, PIN, UNPIN (R280 to R285) -/

/-- Whether a fill of this stamp replaces what is held. -/
def newer (held : Option Nat) (stamp : Nat) : Bool := match held with
  | some o => decide (o < stamp)
  | none => true

/-- Bring the line of an address into the caches (R280); nothing else changes, and an address that would fault is ignored. -/
def State.prefetch (s : State) (t : TRef) (asid va : Nat) (lvl : PrefLvl) : State :=
  match s.translate (.thread t) asid va .load (s.core t.core).ctx.sec with
  | (s, .ok leaf pa) =>
    let a := s.threadAcc t .pagein .rlx .none asid va leaf (pa / 128 * 128) 128
    match linOf pa with
    | some lin =>
      if !a.cacheable || s.refused a || !s.homeUp a || lvl = .stack then s
      else
        let k := dieOf t.core
        let line := pa / 128
        let (s1, c) := match s.dieCopy k line a with
          | some c => (s, c)
          | none => s.dieFill k line lin a true
        if lvl = .die then s1
        else
          let s2 := if a.reach ≤ 1 then s1.tickStamp else s1
          let stamp := if a.reach ≤ 1 then s2.stamp else c.stamp
          if newer ((mget? (s2.core t.core).l1 line).map fun o => o.stamp) stamp then
            s2.l1Put t.core line { c with stamp := stamp, dirty := 0, borrowed := false, launches := [a.launch] }
          else s2
    | none => s
  | (s, _) => s

def execPref (h : Hdr) (a : Src) (hint : Hint) (lvl : PrefLvl) (off : BitVec 7) (s : State) : Host.Outcome State Fault Refusal :=
  issue (.pref h a hint lvl off) s (memLanes [] fun x s l =>
    match checkTags [(x.src a 0 l, intTags), (x.src a 1 l, intTags)] with
    | .pois => (s, { MemOut.none with pois := true })
    | .bad field => (s, .bad (.of eTag field))
    | .good => (s.prefetch (x.ref l) (s.asidOf x.w) (x.ea a l (off.toInt * 128)) lvl, .none))

/-- The pages of [x, x + n): the first address of each and the bytes of the range in it. -/
def pagesOf (va n : Nat) : List (Nat × Nat) :=
  if n = 0 then []
  else (upFrom (va / 2 ^ 16) ((va + n - 1) / 2 ^ 16 + 1 - va / 2 ^ 16)).map fun p =>
    let lo := max va (p * 2 ^ 16)
    (lo, min (va + n) ((p + 1) * 2 ^ 16) - lo)

/-- The operands of a range instruction: the address and the length (R281). -/
def rangeOf (x : Iss) (a b : Src) (l : Nat) : Except MemOut (Nat × Nat) :=
  match checkTags [(x.src a 0 l, intTags), (x.src a 1 l, intTags), (x.src b 0 l, intTags)] with
  | .pois => .error { MemOut.none with pois := true }
  | .bad field => .error (.bad (.of eTag field))
  | .good =>
    let va := x.pair a l
    let n := (x.src b 0 l).val.toNat
    if va % 128 ≠ 0 ∨ n % 128 ≠ 0 then .error (.bad (.at eAlign va)) else .ok (va, n)

/-- Translate each page of a range as a store or as a load. -/
def State.targets (s : State) (t : TRef) (asid : Nat) (k : XKind) (pages : List (Nat × Nat)) : State × List (Nat × AddrRes) :=
  pages.foldl (fun (acc : State × List (Nat × AddrRes)) p =>
    let r := acc.1.target t asid p.1 128 k false
    (r.1, acc.2 ++ [(p.2, r.2)])) (s, [])

/-- The places of the lines of a piece of a page. -/
def linesAt (pa n : Nat) : List Nat := (upFrom 0 (n / 128)).filterMap fun i => linOf (pa + 128 * i)

def firstFault (rs : List (Nat × AddrRes)) : Option Flt :=
  rs.findSome? fun r => match r.2 with
    | .fault f => some f
    | _ => none

/-- DISCARD (R281). The next issue waits for its checks, and so the run ends (R40). -/
def execDiscard (h : Hdr) (b a : Src) (s : State) : Host.Outcome State Fault Refusal :=
  issue (.discard h b a) s fun x s =>
    let e := memLanes [] (fun x s l =>
      match rangeOf x a b l with
      | .error o => (s, o)
      | .ok (va, n) =>
        let asid := s.asidOf x.w
        let r := s.targets (x.ref l) asid .store (pagesOf va n)
        match firstFault r.2 with
        | some f => (r.1, .bad f)
        | none =>
          (r.2.foldl (fun s p => match p.2 with
            | .ok v leaf pa =>
              s.pushStore (x.ref l) (s.threadAcc (x.ref l) (.discard (linesAt pa p.1)) .rlx .none asid v leaf pa p.1)
            | _ => s) r.1, .none)) x s
    ⟨e.s, if x.act.isEmpty || e.stop == .trap then e.stop else .stop⟩

/-- The partition of a warp's launch. -/
def State.partOf (s : State) (w : Warp) : Nat := ((s.launch? w.launch).map fun l => l.part).getD 0

/-- Pin the lines at these places within the quota, or none of them (R284). -/
def State.pinLines (s : State) (part : Nat) (lins : List Nat) : Option State :=
  let quota := mget s.ctl.pinq part 0
  let fresh := (lins.filter fun lin => (mget? (s.stack (homeOf lin)).pins (lin % 2 ^ 36 / 128)).isNone).eraseDups
  let ok := (upFrom 0 16).all fun k =>
    let n := (fresh.filter fun lin => homeOf lin == k).length
    !(lins.any fun lin => homeOf lin == k) || decide (pinUse (s.stack k) part + n ≤ quota)
  if ok then some (fresh.foldl (fun s lin => s.setStack (homeOf lin) fun t => { t with pins := mset t.pins (lin % 2 ^ 36 / 128) part }) s)
  else none

def execPin (h : Hdr) (b a : Src) (pd : Pred) (s : State) : Host.Outcome State Fault Refusal :=
  issue (.pin h b a pd) s (memLanes (predName pd) fun x s l =>
    let flag (b : Bool) : MemOut := ⟨prWb pd l b, false, none⟩
    match rangeOf x a b l with
    | .error o => (s, o)
    | .ok (va, n) =>
      let r := s.targets (x.ref l) (s.asidOf x.w) .load (pagesOf va n)
      let away := r.2.any fun p => match p.2 with
        | .absent => true
        | .ok _ leaf pa => !r.1.localDev (pteDev leaf) || (linOf pa).isNone
        | _ => false
      let regs := r.2.any fun p => match p.2 with
        | .fault f => f.cls == eAlign || f.cls == ePriv
        | _ => false
      if away || regs then (r.1, flag false)
      else match firstFault r.2 with
        | some f => (r.1, .bad f)
        | none =>
          let lins := r.2.flatMap fun p => match p.2 with
            | .ok _ _ pa => linesAt pa p.1
            | _ => []
          match r.1.pinLines (s.partOf x.w) lins with
          | some s' => (s', flag true)
          | none => (r.1, flag false))

def execUnpin (h : Hdr) (b a : Src) (s : State) : Host.Outcome State Fault Refusal :=
  issue (.unpin h b a) s (memLanes [] fun x s l =>
    match rangeOf x a b l with
    | .error o => (s, o)
    | .ok (va, n) =>
      let r := s.targets (x.ref l) (s.asidOf x.w) .store (pagesOf va n)
      let real := r.2.filter fun p => match p.2 with
        | .fault f => f.cls != eAbsent
        | _ => true
      match firstFault real with
      | some f => (r.1, .bad f)
      | none =>
        let part := s.partOf x.w
        let lins := real.flatMap fun p => match p.2 with
          | .ok _ leaf pa => if r.1.localDev (pteDev leaf) then linesAt pa p.1 else []
          | _ => []
        (lins.foldl (fun s lin => s.setStack (homeOf lin) fun t =>
          let o := lin % 2 ^ 36 / 128
          if mget? t.pins o = some part then { t with pins := mdel t.pins o } else t) r.1, .none))

/-! ### FENCE and FENCE.SYS (R316 to R318) -/

/-- A fence of a lane, listed among the accesses; the failures before it that no fence has covered are recorded (R317). -/
def State.pushFence (s : State) (t : TRef) (sys : Bool) (pd : Nat) : State :=
  (s.pushAcc (s.threadAcc t (.fence sys pd) .rlx .none 0 0 0 0 0)).setThread t Thread.cover

def execFence (h : Hdr) (s : State) : Host.Outcome State Fault Refusal :=
  issue (.fence h) s (memLanes [] fun x s l => (s.pushFence (x.ref l) false 7, .none))

def execFenceSys (h : Hdr) (pd : Pred) (s : State) : Host.Outcome State Fault Refusal :=
  issue (.fenceSys h pd) s (memLanes (predName pd) fun x s l => (s.pushFence (x.ref l) true pd.val, .none))

/-! ### ATOM, ATOMCAS, RED (R347 to R349) -/

/-- The type of an atomic from its operand's tags (R348); none for a combination that raises E_TAG. -/
def atomType (op : AtomOp) (wide : Bool) (t0 t1 : Tag) : Option AType :=
  let int (t : Tag) : Bool := t == .raw || t == .i32
  let fl : Bool := !wide && (op == .add || op == .min || op == .max || op == .exch)
  if int t0 && (!wide || int t1) then some .int
  else if fl && t0 == .fp32 then some .f32
  else if fl && t0 == .fp16x2 then some .f16x2
  else if fl && t0 == .bf16x2 then some .bf16x2
  else if op = .exch then some .bits
  else none

/-- The tags of the value that ATOM and ATOMCAS return (R348, R350). DESIGN CHOICE (log 124): a zero that stands for the answer of an
atomic whose operand is POISON, and so has no type, carries the operand's tag. -/
def retTags (cas : Bool) (ty : AType) (t0 t1 : Tag) : Tag × Tag := if !cas && ty == .int then (.i32, .i32) else (t0, t1)

/-- The checks of R349 on a lane of an atomic: a POISON address, a fault, or the lane with its leaf. -/
inductive AtomLane where
  | pois
  | fault (f : Flt)
  | go (l : ALane) (va leaf : Nat)
  deriving DecidableEq, Repr

/-- Check a lane of an atomic. Under .ra an integer operand makes the word one that does not accept .ra (R75): DEDUCED (log 124), the
thread faults E_ILLEGAL where its tags are checked. -/
def atomLane (op : AtomOp) (cas wide ra : Bool) (v a c : Src) (x : Iss) (s : State) (l : Nat) : State × AtomLane :=
  let n := if wide then 8 else 4
  let t0 := (x.src v 0 l).tag
  let t1 := (x.src v 1 l).tag
  let pv := (x.src v 0 l).pois || (wide && (x.src v 1 l).pois) || (cas && ((x.src c 0 l).pois || (wide && (x.src c 1 l).pois)))
  let ty := if pv || cas then some .bits else atomType op wide t0 t1
  match checkTags [(x.src a 0 l, intTags), (x.src a 1 l, intTags)] with
  | .pois => (s, .pois)
  | .bad field => (s, .fault (.of eTag field))
  | .good =>
    match ty with
    | none => (s, .fault (.of eTag (x.src v 0 l).field))
    | some ty =>
      if ra && ty == .int then (s, .fault (.of eIllegal 0))
      else match s.addrOf x a l 0 n .atomic true with
      | (s, .ok va leaf pa) =>
        let one (b : Src) : Nat := if wide then x.pair b l else (x.src b 0 l).val.toNat
        (s, .go ⟨l, pa, if cas then one c else one v, one v, pv, ty, retTags cas ty t0 t1, pteReach leaf, pteKey leaf, pteS leaf⟩ va leaf)
      | (s, .fault f) => (s, .fault f)
      | (s, _) => (s, .fault (.at eAbsent (x.ea a l 0)))

/-- One of the requests that a warp access makes: the lanes at this package, or those at one sector of another device. -/
def State.atomTarget (s : State) (g : ALane × Nat × Nat) : Option (Nat × Nat) :=
  if s.localDev (pteDev g.2.2) then none else some (pteDev g.2.2, g.1.pa / 32)

/-- The lanes of one ATOM, ATOMCAS or RED form one warp access (R351), in ascending order; those on another device go there. A uniform
destination takes the value of the lowest lane alone (R350). -/
def atomic (i : Instr) (op : AtomOp) (cas : Bool) (v a c : Src) (cls : Cls) (wide ra u ret : Bool) (s : State) :
    Host.Outcome State Fault Refusal :=
  let names := if ret then dstNames (srcAsDst v) (if wide then 2 else 1) else []
  issue i s fun x s =>
    let id0 := s.nextId
    let r := x.act.foldl (fun (acc : State × List (Nat × AtomLane)) l =>
      let o := atomLane op cas wide ra v a c x acc.1 l
      (o.1, acc.2 ++ [(l, o.2)])) (s.fresh, [])
    let uni := match v with
      | .w _ => true
      | _ => false
    let low := r.2.findSome? fun o => match o.2 with
      | .fault _ => none
      | _ => some o.1
    let gos := r.2.filterMap fun o => match o.2 with
      | .go l va leaf => some (l, va, leaf)
      | _ => none
    let s1 := (gos.map r.1.atomTarget).eraseDups.foldl (fun s k =>
      match gos.filter fun g => r.1.atomTarget g == k with
      | [] => s
      | g :: gs =>
        let lanes := (g :: gs).map fun g => g.1
        let dst := if uni && !(lanes.any fun l => low == some l.lane) then none else names.head?
        let a0 := s.threadAcc (x.ref g.1.lane) (.atomic op cas ra u wide dst lanes) cls .none (s.asidOf x.w) g.2.1 g.2.2 g.1.pa
          (if wide then 8 else 4)
        s.pushAcc { a0 with lanes := lanes.map (fun l => l.lane), reach := lanes.foldl (fun m l => max m l.reach) 0 }) r.1
    let last := s1.nextId - 1
    let s2 := if last = id0 ∨ names.isEmpty then s1
      else s1.setWarp x.core x.warp fun w => { w with pend := w.pend ++ [⟨id0, names, .acc last, []⟩] }
    let poisLanes := r.2.filterMap fun o => match o.2 with
      | .pois => some o.1
      | _ => none
    let s3 := (s2.putRegs x .var (poisLanes.flatMap fun l =>
      if uni && low != some l then [] else poisWb x.ticket names l)).poison x.core poisLanes.length
    let faults := r.2.filterMap fun o => match o.2 with
      | .fault f => some (o.1, f)
      | _ => none
    let s4 := faults.foldl (fun s p => s.takeFault (x.ref p.1) x.pc p.2) s3
    ⟨s4.afterIssue x.core x.warp x.w.launch, if faults.isEmpty then .go else .trap⟩

def execAtom (h : Hdr) (v a : Src) (c : Cls) (w : Sys2Proof.Width) (ra : Bool) (op : AtomOp) (u : Bool) (s : State) :
    Host.Outcome State Fault Refusal :=
  atomic (.atom h v a c w ra op u) op false v a v c (w == .b64) ra u true s

def execAtomcas (h : Hdr) (v a n : Src) (c : Cls) (w : Sys2Proof.Width) (s : State) : Host.Outcome State Fault Refusal :=
  atomic (.atomcas h v a n c w) .exch true v a n c (w == .b64) false false true s

def execRed (h : Hdr) (v a : Src) (c : Cls) (w : Sys2Proof.Width) (ra : Bool) (op : AtomOp) (u : Bool) (s : State) :
    Host.Outcome State Fault Refusal :=
  atomic (.red h v a c w ra op u) op false v a v c (w == .b64) ra u false s

/-! ### LOAD_RETURN (R276, R252, R323) -/

/-- Write a load's bytes into its destinations (R276, R149). -/
def State.landLoad (s : State) (a : Acc) (names : List RName) (t : Tag) (pr : Nat) (f : Found) : State :=
  match a.who with
  | .score _ => s
  | .thread r =>
    let piece (i : Nat) : List Byte × List Bool := ((f.bytes.drop (4 * i)).take 4, (f.pois.drop (4 * i)).take 4)
    let reg (l i : Nat) (n : RName) : Reg :=
      let p := piece i
      if p.2.any id then ⟨Config.undef s.ticket (rkey n l), .poison⟩ else ⟨BitVec.ofNat 32 (numOf p.1), tagAt t i⟩
    let uni := match names with
      | .w _ :: _ => true
      | _ => false
    let lanes := if uni then a.lanes.take 1 else a.lanes
    -- what a load of a shed derives from was noted at its issue
    let from' (w : Warp) (n : RName) (l : Nat) : Warp := if a.isShed then w else w.setTaint n l (w.loaded l (max a.need f.upd))
    let s1 := s.modWarp r.core r.warp a.launch fun w =>
      let w1 := lanes.foldl (fun w l => ((upFrom 0 names.length).zip names).foldl (fun w p =>
        from' (w.write p.2 l (reg l p.1 p.2)) p.2 l) w) w
      if pr = 7 then w1
      else a.lanes.foldl (fun w l => (w.write (.p pr) l ⟨1, .raw⟩).setTaint (.p pr) l (w.loaded l (max a.need f.upd))) w1
    if f.pois.any id then s1.poison r.core 1 else s1

/-- A row that a lane of LDST supplies: its sixteen bytes, and whether it is poisoned. -/
structure LRow where
  bytes : List Byte
  pois : Bool
  deriving DecidableEq, Repr

/-- The row at a place of a shed; none supplies zeros, and a place that is not there is a POISON row (R207). -/
def State.rowAt (s : State) (p : Option (Option Nat)) : Option LRow :=
  p.map fun q => match q with
    | none => ⟨[], true⟩
    | some p => ⟨s.shedRead (p / 2 ^ 26) (p / 2 ^ 17 % 512) (p % 2 ^ 17) 16, s.shedMarked (p / 2 ^ 26) (p / 2 ^ 17 % 512) (p % 2 ^ 17) 16⟩

/-- The four destination registers of column `i` of a block whose rows are given (R207). -/
def transposeCol (t : Tag) (i : Nat) (rows : List (Option LRow)) : List Reg :=
  let e (r : Nat) : Nat := match lget rows r none with
    | some row => numOf ((row.bytes.drop (2 * i)).take 2)
    | none => 0
  (upFrom 0 4).map fun q => ⟨BitVec.ofNat 32 (e (2 * q) + 2 ^ 16 * e (2 * q + 1)), t⟩

/-- What a lane of LDST writes: the column, or none where a row is poisoned. -/
def ldstCol (t : Tag) (i : Nat) (rows : List (Option LRow)) : Option (List Reg) :=
  if rows.any fun r => match r with
      | some r => r.pois
      | none => false then none
  else some (transposeCol t i rows)

/-- Land a lane of LDST that was held. -/
def State.landRows (s : State) (a : Acc) (names : List RName) (t : Tag) (col : Nat) (places : List (Option (Option Nat))) : State :=
  match a.who with
  | .score _ => s
  | .thread r =>
    let c := ldstCol t col (places.map s.rowAt)
    let vals := groupWb names r.lane fun i n => (c.map fun l => lget l i .zero).getD ⟨Config.undef s.ticket (rkey n r.lane), .poison⟩
    (s.modWarp r.core r.warp a.launch fun w => vals.foldl (fun w v => w.write v.name v.lane v.reg) w).poison r.core (if c.isNone then 1 else 0)

/-- A load that failed at its target: zeros, the predicate false, the status recorded (R323). -/
def State.failLoad (s : State) (a : Acc) (names : List RName) (t : Tag) (pr : Nat) (st : RStat) : State :=
  match a.who with
  | .score _ => s
  | .thread r =>
    let s1 := s.modWarp r.core r.warp a.launch fun w =>
      let w1 := a.lanes.foldl (fun w l => (zeroWb names t l).foldl (fun w v => w.write v.name v.lane v.reg) w) w
      if pr = 7 then w1 else a.lanes.foldl (fun w l => w.write (.p pr) l ⟨0, .raw⟩) w1
    s1.modLanes a fun th => th.failNow st

/-- What an acquire of a location takes over from those that released it at CORE or DIE reach (R313, R314). -/
def State.pubOf (s : State) (a : Acc) : Acqs :=
  match a.die? with
  | some k => if a.reach ≤ 1 then s.pubAt k a.pa else (0, 0)
  | none => (0, 0)

/-- An ACQ or AR access of a thread has been performed (R270, R310, R314). -/
def State.acquired (s : State) (a : Acc) : State :=
  if a.acquires then
    let s1 := s.tickStamp
    s1.modLanes a fun th => th.acquire a.reach s1.stamp s1.nextId (s.pubOf a)
  else s

/-- The bytes and marks that a Creven load leaves in its register (R371, R381, R387). -/
def State.landCreven (s : State) (n : Nat) (a : Acc) (d : Nat) (vec : Bool) (elems : List (Nat × Nat)) (eb grp : Nat) (f : Found) : State :=
  let bad := f.pois.any id
  let first := bad && !(((s.score n).run.map fun i => i.marking.contains grp).getD false)
  let s1 := s.setScore n fun k => { k with run := k.run.map fun i =>
    if vec then
      let hv := elems.foldl (fun (v : Nat) p =>
        let x := numOf ((f.bytes.drop p.2).take eb)
        let lo := 8 * eb * p.1
        v % 2 ^ lo + x * 2 ^ lo + v / 2 ^ (lo + 8 * eb) * 2 ^ (lo + 8 * eb)) ((mget i.h d 0).toNat)
      let hit := elems.filter fun p => ((f.pois.drop p.2).take eb).any id
      let m := hit.foldl (fun m p => m ||| 2 ^ (p.1 * eb / 8)) (mget i.hm d 0)
      { i with h := msetD 0 i.h d (BitVec.ofNat 512 hv), hm := msetD 0 i.hm d m, pendH := i.pendH.filter fun p => p.2 != a.id }
    else if d = 0 then { i with pendG := i.pendG.filter fun p => p.2 != a.id }
    else { i with g := msetD 0 i.g d (BitVec.ofNat 64 (numOf f.bytes)), gm := if bad then markIn i.gm d else markOut i.gm d,
                  pendG := i.pendG.filter fun p => p.2 != a.id } }
  if !first then s1
  else (s1.setStack (n / 4) fun t => { t with poisonCnt := t.poisonCnt + 1 }).setScore n fun k =>
    { k with run := k.run.map fun i => { i with marking := grp :: i.marking } }

/-- A stack core's load or AMO failed: zeros, and the status recorded (R323). -/
def State.failCreven (s : State) (n : Nat) (a : Acc) (d : Nat) (vec : Bool) (elems : List (Nat × Nat)) (eb grp : Nat) (st : RStat) : State :=
  let s1 := s.landCreven n a d vec elems eb grp ⟨List.replicate 64 0, [], 0⟩
  s1.setScore n fun k => { k with run := k.run.map fun i => i.failNow st }

/-- Data of a read, or its failure. -/
def State.finishRead (s : State) (a : Acc) (r : Except RStat Found) : State :=
  match a.kind with
  | .load names t pr =>
    (match r with
     | .ok f => ((s.landLoad a names t pr f).acquired a).complete a
     | .error st => ((s.failLoad a names t pr st).acquired a).complete a)
  | .cLoad d vec elems eb grp =>
    (match a.who, r with
     | .score n, .ok f => (s.landCreven n a d vec elems eb grp f).complete a
     | .score n, .error st => (s.failCreven n a d vec elems eb grp st).complete a
     | _, _ => s)
  | _ => s

/-- What another device's answer means for an access: an answer, a failure, or nothing yet (R323, R319). -/
def Acc.answer (a : Acc) (r : Reply) : Option (Except RStat (List Byte × Bool)) :=
  if a.lost then some (.error .peerLost)
  else match r with
    | .data bs p => some (.ok (bs, p))
    | .status .ok => some (.ok ([], false))
    | .status .timeout => none
    | .status st => some (.error st)

/-- A wait on a sync word ends: an acquire, and the thread is READY (R218); a stack core goes on to the next word, since a
waiting SWWAIT has not issued (R385, R398). -/
def State.endWait (s : State) (a : Acc) : State :=
  let s1 := (s.acquired a).complete a
  match a.who with
  | .thread t =>
    let res := ((s1.warp? t.core t.warp).map fun y => y.launch == a.launch).getD false
    s1.wakeAny t a.launch res
  | .score n => s1.setScore n fun k => { k with run := k.run.map fun i => { i with pc := (i.pc + 4) % 2 ^ 64 } }

/-- A poll of another device's sync word failed: the status is recorded, and the word is asked for again. -/
def State.pollAgain (s : State) (a : Acc) (st : RStat) : State :=
  let s1 := { s with accs := s.accs.map fun (b : Acc) => if b.id = a.id then { b with sent := none, out := false } else b }
  let s2 := s1.modLanes a fun th => th.failNow st
  match a.who with
  | .score n => (s2.setScore n fun k => { k with run := k.run.map fun i => i.failNow st }).sendReady
  | .thread _ => s2.sendReady

/-- What a wait finds at its sync word. -/
def State.poll (s : State) (a : Acc) (gen : Nat) (r : Reply) : State :=
  if a.dev.isSome then
    match a.answer r with
    | none => s
    | some (.error st) => s.pollAgain a st
    | some (.ok (bs, _)) => if (SyncW.ofBytes bs).reached gen then s.endWait a else s.askAgain a.id
  else if !s.homeUp a then s
  else if s.refused a then s.pollAgain a .remoteFault
  else
    let w := s.waitWord a
    if w.2.reached gen then w.1.endWait a else w.1.askAgain a.id

/-- LOAD_RETURN: a load is performed and its data return; `r` is what another device answers, or a failure. -/
def execLoadReturn (id : Nat) (r : Reply) (s : State) : Host.Outcome State Fault Refusal :=
  match s.accs.find? fun a => a.id == id && !a.performed && a.reads && !a.isAtomic with
  | none => .next s
  | some a =>
    if !s.readReady a then .next s
    else if !s.crossed a then .next (s.request a)
    else match a.kind with
    | .swWait gen => .next (s.poll a gen r)
    | .rows names t col places => .next ((s.landRows a names t col places).complete a)
    | _ =>
    if a.dev.isSome then
      match a.answer r with
      | none => .next s
      | some (.error st) => .next (s.finishRead a (.error st))
      | some (.ok (bs, p)) =>
        let s1 := s.tickStamp
        let f : Found := ⟨(bs ++ List.replicate a.size 0).take a.size, List.replicate a.size p, s1.stamp⟩
        .next (s1.finishRead a (.ok (s1.overlay a f)))
    else if !s.homeUp a then .next s
    else if s.refused a then .next (s.finishRead a (.error .remoteFault))
    else
      let f := s.readNow a
      .next (f.1.finishRead a (.ok f.2))

/-! ### STORE_LEAVE_QUEUE and ACCESS_ACKNOWLEDGED (R308, R310) -/

/-- A store to a page of reach CORE or DIE is performed in the die cache (R269); it heads a release sequence or ends one. -/
def State.performInDie (s : State) (k lin : Nat) (a : Acc) (bs : List Byte) (pois : List Bool) : State :=
  let line := a.pa / 128
  let (s1, c) := match s.dieCopy k line a with
    | some c => (s, c)
    | none => s.dieFill k line lin a true
  let s2 := s1.tickStamp
  let c1 := c.write (a.pa % 128) bs pois true
  let c2 := { c1 with upd := s2.stamp, launches := if c1.launches.contains a.launch then c1.launches else a.launch :: c1.launches }
  (s2.setDie k fun d => { d with dc := mset d.dc line c2 }).wrote a (a.lanes.headD 0) false

/-- A store leaves its queue into L1: its core's held copy is updated, and the die cache's on the way (R267, R269). -/
def State.passCaches (s : State) (core : Nat) (a : Acc) (bs : List Byte) (pois : List Bool) : State :=
  let line := a.pa / 128
  let s1 := s.setCore core fun x => { x with l1 := mmod x.l1 line fun c => c.write (a.pa % 128) bs pois false }
  if a.reach ≤ 1 then s1
  else
    let s2 := s1.tickStamp
    s2.setDie (dieOf core) fun d => { d with dc := mmod d.dc line fun c => { c.write (a.pa % 128) bs pois false with upd := s2.stamp } }

/-- Whether a CORE or DIE store is performed as it leaves its queue. -/
def Acc.inDie (a : Acc) : Bool := a.cacheable && decide (a.reach ≤ 1) && (match a.kind with
  | .store .. => true
  | _ => false)

/-- The head of a warp's store queue leaves it. -/
def State.leaveQueue (s : State) (core warp launch : Nat) (a : Acc) : State :=
  let s0 := s.modWarp core warp launch fun w => { w with sq := w.sq.drop 1 }
  let r := s0.depart { a with queued := false }
  let a1 := r.2
  let s1 := { r.1 with accs := (r.1.accs.filter fun (b : Acc) => b.id != a.id) ++ [a1] }
  match a.kind with
  | .store bs pois =>
    if !a.cacheable then s1.settle a1
    else
      let s2 := s1.passCaches core a bs pois
      match linOf a.pa with
      | none => s2.settle a1
      | some lin =>
        -- a line that its die does not hold is asked of its home first
        if a1.inDie && (s2.dieCopy (dieOf core) (a.pa / 128) a).isSome && s2.ackReady a1 then
          (s2.performInDie (dieOf core) lin a bs pois).complete a1
        else s2.settle a1
  | _ => s1.settle a1

/-- STORE_LEAVE_QUEUE: the oldest store of a warp, resident or parked, leaves its store queue. -/
def execStoreLeaveQueue (core warp : Nat) (s : State) : Host.Outcome State Fault Refusal :=
  match (s.core core).ctxs.findSome? fun x => (mget? x.warps warp).filter fun w => !w.sq.isEmpty with
  | none => .next s
  | some w =>
    match w.sq.head?.bind fun id => s.accs.find? fun a => a.id == id with
    | none => .next s
    | some a => if s.storeReady a then .next (s.leaveQueue core warp w.launch a) else .next s

/-- An atomic add of an element at a home stack, for VSCAT (R388) and CPYS (R294). -/
def addElem (ty : AType) (n old v : Nat) : Nat :=
  let fp (f : FFmt) (o x : Nat) : Nat := f.round .rn false (FVal.add false (f.decode o) (f.decode x))
  match ty with
  | .f32 => fp .f32 old v
  | .f16x2 => fp .f16 (old % 2 ^ 16) (v % 2 ^ 16) + fp .f16 (old / 2 ^ 16) (v / 2 ^ 16) * 2 ^ 16
  | .bf16x2 => fp .bf16 (old % 2 ^ 16) (v % 2 ^ 16) + fp .bf16 (old / 2 ^ 16) (v / 2 ^ 16) * 2 ^ 16
  | _ => (old + v) % 2 ^ (8 * n)

/-- An element of a Creven type added at its home (R388). -/
def cAddElem (ty : CTy) (old v : Nat) : Nat :=
  match ty with
  | .f32 => addElem .f32 4 old v
  | .f64 => FFmt.f64.round .rn false (FVal.add false (FFmt.f64.decode old) (FFmt.f64.decode v))
  | .i64 => (old + v) % 2 ^ 64
  | _ => (old + v) % 2 ^ 32

/-- A local access is performed at its visibility point. -/
def State.performStore (s : State) (a : Acc) : State :=
  let flags (n : Nat) (b : Bool) : List Bool := List.replicate n b
  match a.kind, linOf a.pa with
  | .store bs pois, none => (match a.shedPlace? with
      | some p => s.shedWrite (p / 2 ^ 26) (p / 2 ^ 17 % 512) (p % 2 ^ 17) bs pois
      | none =>
        if regionOf a.pa = 2 then match a.who, blockOf a.pa with
          | .score _, some b => s.regWriteScore b (fld a.pa 35 0) (numOf bs)
          | .thread _, some b => s.regWriteThread b (fld a.pa 35 0) (numOf bs)
          | _, none => s
        else s)
  | .store bs pois, some lin =>
    if a.inDie then match a.die? with
      | some k => s.performInDie k lin a bs pois
      | none => s.homeFrom none lin a.key bs pois
    else s.homeFrom a.die? lin a.key bs pois
  | .cStore parts, some lin => parts.foldl (fun s p => s.homeFrom none (lin + p.1) a.key [p.2.1] [p.2.2]) s
  | .discard lines, _ => lines.foldl (fun s l => s.homeDiscard l) s
  | .swInit t p, none => (match a.shedPlace? with
      | some pl => (s.shedSyncAt pl fun w => if p then { w with pois := true } else w.init t).wrote a (a.lanes.headD 0) false
      | none => s)
  | .swAdd u p, none => (match a.shedPlace? with
      | some pl => (s.shedSyncAt pl fun w => if p then { w with pois := true } else w.add u).wrote a (a.lanes.headD 0) true
      | none => s)
  | .swInit t p, some lin =>
    (s.homeSync lin a.key a.die? fun w => if p then { w with pois := true } else w.init t).wrote a (a.lanes.headD 0) false
  | .swAdd u p, some lin =>
    (s.homeSync lin a.key a.die? fun w => if p then { w with pois := true } else w.add u).wrote a (a.lanes.headD 0) true
  | .cVadd ty v p, some lin =>
    let r := s.readHome lin a.size a.key none
    -- a marked operand marks the sector as a store of POISON does and writes no value (R354)
    if p then r.1.homeWrite lin a.key r.2.1 (flags a.size true)
    else if r.2.2.any id then r.1.atomFail lin
    else r.1.homeWrite lin a.key (bytesOf a.size (cAddElem ty (numOf r.2.1) v)) (flags a.size false)
  | _, _ => s

/-- ACCESS_ACKNOWLEDGED: an access in flight is performed at its visibility point; what waited for it goes on. -/
def execAccessAcknowledged (id : Nat) (r : Reply) (s : State) : Host.Outcome State Fault Refusal :=
  match s.accs.find? fun a => a.id == id && a.inFlight with
  | none => .next s
  | some a =>
    if !s.ackReady a then .next s
    else if !s.crossed a then .next (s.request a)
    else if a.dev.isSome then
      match a.answer r with
      | none => .next s
      | some (.error st) => .next ((s.failStore a st).complete a)
      | some (.ok _) => .next (s.complete a)
    else if !s.homeUp a then .next s
    else if s.refused a then .next ((s.failStore a .remoteFault).complete a)
    else .next ((s.performStore a).complete a)

/-! ### ATOMIC_PERFORM (R350, R351, R353, R354) -/

/-- One update (R350), without the floating-point adds under .ra. -/
def atomNew (op : AtomOp) (cas u : Bool) (ty : AType) (n old v cmp : Nat) : Nat :=
  let w := 8 * n
  if cas then (if old = cmp then v else old)
  else match op with
    | .exch => v
    | .and => old &&& v
    | .or => old ||| v
    | .xor => old ^^^ v
    | .add => addElem ty n old v
    | .min => (match ty with
        | .f32 => minMaxCode .f32 false false old v
        | .f16x2 => (mapFp .f16 (minMaxCode .f16 false false) (BitVec.ofNat 32 old) (BitVec.ofNat 32 v)).toNat
        | .bf16x2 => (mapFp .bf16 (minMaxCode .bf16 false false) (BitVec.ofNat 32 old) (BitVec.ofNat 32 v)).toNat
        | _ => if readIntN u w v < readIntN u w old then v else old)
    | .max => (match ty with
        | .f32 => minMaxCode .f32 true false old v
        | .f16x2 => (mapFp .f16 (minMaxCode .f16 true false) (BitVec.ofNat 32 old) (BitVec.ofNat 32 v)).toNat
        | .bf16x2 => (mapFp .bf16 (minMaxCode .bf16 true false) (BitVec.ofNat 32 old) (BitVec.ofNat 32 v)).toNat
        | _ => if readIntN u w old < readIntN u w v then v else old)
where
  /-- An integer of w bits, signed or not. -/
  readIntN (u : Bool) (w x : Nat) : Int := if u then ((x % 2 ^ w : Nat) : Int) else sintOf w x

/-- A sum in some association: neighbours are added until one is left, the Veger choosing which; `key` tells this sum from the
step's others. -/
def assocStep (ty : AType) (ticket key : Nat) : Nat → List Nat → Nat
  | 0, l => l.headD 0
  | fuel + 1, l =>
    if l.length ≤ 1 then l.headD 0
    else
      let i := Config.assoc ticket (key * 2 ^ 20 + fuel) % (l.length - 1)
      assocStep ty ticket key fuel (l.take i ++ [addElem ty 4 (lget l i 0) (lget l (i + 1) 0)] ++ l.drop (i + 2))

/-- The sum of values at a location in some association, each element of a packed word in one of its own (R153). -/
def assocSum (ty : AType) (ticket loc fuel : Nat) (l : List Nat) : Nat :=
  let lo := assocStep ty ticket (2 * loc) fuel l
  match ty with
  | .f16x2 | .bf16x2 => assocStep ty ticket (2 * loc + 1) fuel l / 2 ^ 16 * 2 ^ 16 + lo % 2 ^ 16
  | _ => lo

/-- Read a location for an atomic at its point of execution; a line of wide reach is borrowed from its home. -/
def State.atomRead (s : State) (a : Acc) : State × List Byte × List Bool :=
  match linOf a.pa with
  | none => (s, List.replicate a.size 0, List.replicate a.size false)
  | some lin =>
    match a.die? with
    | none => s.readHome lin a.size a.key none
    | some k =>
      if !s.atomInDie k a then (s.flushLine k (a.pa / 128)).readHome lin a.size a.key none
      else
        let line := a.pa / 128
        let held := (s.dieCopy k line a).filter fun c => decide (a.reach ≤ 1) || c.borrowed
        let (s1, c) := match held with
          | some c => (s, c)
          | none => s.dieFill k line lin a true
        let s2 := s1.setDie k fun d => { d with dc := mset d.dc line { c with borrowed := decide (2 ≤ a.reach) } }
        let r := c.read (a.pa % 128) a.size
        (s2, r.1, r.2)

/-- Write a location for an atomic at its point of execution, refreshing the copies of the issuing die. -/
def State.atomWrite (s : State) (a : Acc) (bs : List Byte) (pois : List Bool) : State :=
  match linOf a.pa with
  | none => s
  | some lin =>
    let s1 := match a.core? with
      | some c => s.setCore c fun x => { x with l1 := mmod x.l1 (a.pa / 128) fun p => p.write (a.pa % 128) bs pois false }
      | none => s
    match a.die? with
    | none => s1.writeHome lin a.key bs pois none
    | some k =>
      match (if regionOf a.pa = 0 then mget? (s1.die k).dc (a.pa / 128) else none) with
      | none => s1.writeHome lin a.key bs pois none
      | some c =>
        let s2 := s1.tickStamp
        let c1 := { c.write (a.pa % 128) bs pois true with upd := s2.stamp }
        s2.setDie k fun d => { d with dc := mset d.dc (a.pa / 128) { c1 with
          launches := if c1.launches.contains a.launch then c1.launches else a.launch :: c1.launches } }

/-- An atomic has found its sector marked: its stack counts the error, and the line at the point of execution is marked (R354). -/
def State.atomMarked (s : State) (a : Acc) : State :=
  match linOf a.pa with
  | none => s
  | some lin =>
    let line := a.pa / 128
    let bad (c : Copy) : Copy := { c with marks := 15 }
    let s1 := match a.core? with
      | some c => s.setCore c fun x => { x with l1 := mmod x.l1 line bad }
      | none => s
    match a.die? with
    | none => s1.atomFail lin
    | some k =>
      if s1.atomInDie k a then
        (s1.stackUncorr (homeOf lin)).setDie k fun d => { d with dc := mmod d.dc line fun c => { bad c with dirty := 2 ^ 128 - 1 } }
      else s1.atomFail lin

/-- What a lane of an atomic returns: the old value, or POISON; and what it takes over as an acquire (R314). -/
structure ALaneRes where
  lane : Nat
  tag : Tag × Tag
  old : Nat
  pois : Bool
  pub : Acqs
  deriving DecidableEq, Repr

/-- A lane whose access failed at its target returns zero (R323). -/
def ALane.zero (x : ALane) : ALaneRes := ⟨x.lane, x.tag, 0, false, (0, 0)⟩

/-- One lane's update (R350, R354). -/
def State.atomOne (s : State) (a : Acc) (op : AtomOp) (cas u : Bool) (x : ALane) : State × ALaneRes :=
  let b := a.at x
  let r := s.atomRead b
  let res (old : Nat) (pois : Bool) : ALaneRes := ⟨x.lane, x.tag, old, pois, s.pubOf b⟩
  if x.pois then
    -- a POISON operand marks the sector as a store of POISON does and writes no value
    (r.1.atomWrite b r.2.1 (List.replicate a.size true), res 0 true)
  else if r.2.2.any id then (r.1.atomMarked b, res 0 true)
  else
    let old := numOf r.2.1
    if cas && old != x.cmp then (r.1, res old false)
    else
      ((r.1.atomWrite b (bytesOf a.size (atomNew op cas u x.ty a.size old x.val x.cmp)) (List.replicate a.size false)).wrote b x.lane true,
       res old false)

/-- Whether a type is a floating-point one. -/
def AType.isFloat : AType → Bool
  | .f32 => true
  | .f16x2 => true
  | .bf16x2 => true
  | _ => false

/-- The additions of one warp access to one location under .ra, associated as the Veger chooses; each returns what the location held
before the first (R351). -/
def State.atomSum (s : State) (a : Acc) (lanes : List ALane) : State × List ALaneRes :=
  match lanes with
  | [] => (s, [])
  | x :: _ =>
    let b := a.at x
    let r := s.atomRead b
    if r.2.2.any id then
      lanes.foldl (fun (acc : State × List ALaneRes) y =>
        let o := acc.1.atomOne a .add false false y
        (o.1, acc.2 ++ [o.2])) (s, [])
    else
      let old := numOf r.2.1
      let sum := assocSum x.ty s.ticket x.pa lanes.length (old :: lanes.map fun y => y.val)
      let s1 := r.1.atomWrite b (bytesOf a.size sum) (List.replicate a.size false)
      (lanes.foldl (fun s y => s.wrote (a.at y) y.lane true) s1,
       lanes.map fun y => ⟨y.lane, y.tag, old, false, s.pubOf b⟩)

/-- The order in which the lanes of a warp access update (R351): floating-point lanes in ascending order, or gathered by location under
.ra, and the others among them where the Veger chooses. -/
def atomOrder (ticket : Nat) (ra : Bool) (lanes : List ALane) : List (List ALane) :=
  let floats := lanes.filter fun x => x.ty.isFloat
  let base := if ra then (floats.map fun x => (x.pa, x.ty)).eraseDups.map fun k => floats.filter fun x => x.pa == k.1 && x.ty == k.2
    else floats.map fun x => [x]
  (lanes.filter fun x => !x.ty.isFloat).foldl (fun l x =>
    let i := Config.choice ticket (x.lane + 16) % (l.length + 1)
    l.take i ++ [x] :: l.drop i) base

/-- All lanes of a warp access (R351). -/
def State.atomAll (s : State) (a : Acc) (op : AtomOp) (cas ra u : Bool) (lanes : List ALane) : State × List ALaneRes :=
  (atomOrder s.ticket ra lanes).foldl (fun (acc : State × List ALaneRes) g =>
    let o := match g with
      | [x] => let o := acc.1.atomOne a op cas u x; (o.1, [o.2])
      | g => acc.1.atomSum a g
    (o.1, acc.2 ++ o.2)) (s, [])

/-- Land the old values of an atomic (R350, R354); a uniform register takes that of the lowest lane. -/
def State.landAtomic (s : State) (a : Acc) (wide : Bool) (ret : Option RName) (rs : List ALaneRes) : State :=
  match a.who with
  | .score _ => s
  | .thread r =>
    let s1 := s.poison r.core (rs.filter fun x => x.pois).length
    match ret with
    | none => s1
    | some n =>
      let hi := match n with
        | .v i => RName.v (i + 1)
        | .w i => RName.w (i + 1)
        | n => n
      let names := if wide then [n, hi] else [n]
      let uni := match n with
        | .w _ => true
        | _ => false
      let low := a.lanes.foldl min 128
      let s2 := s1.tickStamp
      s2.modWarp r.core r.warp a.launch fun w =>
        (rs.filter fun x => !uni || x.lane == low).foldl (fun w x =>
          (groupWb names x.lane fun i nm =>
            if x.pois then ⟨Config.undef s.ticket (rkey nm x.lane), .poison⟩
            else ⟨BitVec.ofNat 32 (x.old / 2 ^ (32 * i)), if i = 0 then x.tag.1 else x.tag.2⟩).foldl
            (fun w v => (w.write v.name v.lane v.reg).setTaint v.name x.lane (w.loaded x.lane s2.stamp)) w) w

/-- The lanes of an ACQ or AR atomic have acquired, each at its own page's reach (R270, R310, R314). -/
def State.acquiredLanes (s : State) (a : Acc) (lanes : List ALane) (rs : List ALaneRes) : State :=
  match a.who with
  | .score _ => s
  | .thread t =>
    if !a.acquires then s
    else
      let s1 := s.tickStamp
      lanes.foldl (fun s x => s.modThread { t with lane := x.lane } a.launch fun th =>
        th.acquire x.reach s1.stamp s1.nextId (((rs.find? fun r => r.lane == x.lane).map fun r => r.pub).getD (0, 0))) s1

/-- The operation of an AMO as an atomic. -/
def amoOp : AmoOp → AtomOp × Bool
  | .add => (.add, false)
  | .min => (.min, false)
  | .max => (.max, false)
  | .and => (.and, false)
  | .or => (.or, false)
  | .xor => (.xor, false)
  | .exch => (.exch, false)
  | .cas => (.exch, true)

/-- An atomic of another device answered: the old values of its lanes; its sector may have been found marked (R354). -/
def remoteOld (n : Nat) (bs : List Byte) (bad : Bool) (lanes : List ALane) : List ALaneRes :=
  ((upFrom 0 lanes.length).zip lanes).map fun p => ⟨p.2.lane, p.2.tag, numOf ((bs.drop (n * p.1)).take n), p.2.pois || bad, (0, 0)⟩

/-- An atomic failed at its target: zeros, and its status for the next fence (R323). -/
def State.failAtomic (s : State) (a : Acc) (st : RStat) : State :=
  match a.kind, a.who with
  | .atomic _ _ _ _ wide ret lanes, _ => ((s.landAtomic a wide ret (lanes.map ALane.zero)).failStore a st).complete a
  | .cAmo d .., .score n => (s.failCreven n a d false [] 8 a.id st).complete a
  | _, _ => s

/-- The lanes of a warp access whose stacks are there update; a stack may refuse some (R266). Lanes on a lost stack stay in the access,
which will time out. -/
def State.performLanes (s : State) (a : Acc) (op : AtomOp) (cas ra u wide : Bool) (ret : Option RName) (lanes : List ALane) : State :=
  let up := lanes.filter fun x => s.homeUp (a.at x)
  let bad := up.filter fun x => s.refused (a.at x)
  let ok := up.filter fun x => !s.refused (a.at x)
  let e := s.atomAll a op cas ra u ok
  let s1 := ((e.1.landAtomic a wide ret (e.2 ++ bad.map ALane.zero)).failLanes a (bad.map fun x => x.lane) .remoteFault).acquiredLanes a ok e.2
  let down := lanes.filter fun x => !s.homeUp (a.at x)
  if down.isEmpty then s1.complete a
  else
    let low := a.lanes.foldl min 128
    let ret1 := match ret with
      | some (.w n) => if down.any fun x => x.lane == low then some (RName.w n) else none
      | r => r
    { s1 with accs := s1.accs.map fun (b : Acc) =>
        if b.id = a.id then { b with kind := .atomic op cas ra u wide ret1 down, lanes := down.map fun x => x.lane } else b }

/-- ATOMIC_PERFORM: the updates of one warp access, or of one AMO, are applied at the point of execution. -/
def execAtomicPerform (id : Nat) (r : Reply) (s : State) : Host.Outcome State Fault Refusal :=
  match s.accs.find? fun a => a.id == id && !a.performed && a.isAtomic with
  | none => .next s
  | some a =>
    if !s.readReady a then .next s
    else if !s.crossed a then .next (s.request a)
    else if a.dev.isSome then
      match a.answer r with
      | none => .next s
      | some (.error st) => .next (s.failAtomic a st)
      | some (.ok (bs, bad)) =>
        (match a.kind, a.who with
         | .atomic _ _ _ _ wide ret lanes, _ =>
           let rs := remoteOld a.size bs bad lanes
           .next (((s.landAtomic a wide ret rs).acquiredLanes a lanes rs).complete a)
         | .cAmo d .., .score n =>
           .next ((s.landCreven n a d false [] 8 a.id
             ⟨(bs ++ List.replicate 8 0).take a.size, List.replicate a.size bad, 0⟩).complete a)
         | _, _ => .next s)
    else match a.kind, a.who with
      | .atomic op cas ra u wide ret lanes, _ => .next (s.performLanes a op cas ra u wide ret lanes)
      | .cAmo d op u val cmp pois, .score n =>
        if !s.homeUp a then .next s
        else if s.refused a then .next (s.failAtomic a .remoteFault)
        else
          let o := amoOp op
          let x : ALane := ⟨0, a.pa, val, cmp, pois, .int, (.i32, .i32), a.reach, a.key, a.stable⟩
          let e := s.atomOne a o.1 o.2 u x
          -- what a marked operand returns is counted by no load
          let s1 := if pois then e.1.setScore n fun k => { k with run := k.run.map fun i => { i with marking := a.id :: i.marking } }
            else e.1
          .next ((s1.landCreven n a d false [] 8 a.id ⟨bytesOf a.size e.2.old, List.replicate a.size e.2.pois, 0⟩).complete a)
      | _, _ => .next s

/-! ### ACCESS_TIMEOUT (R319, R323) -/

/-- Whether an access has had no answer for its timeout. A wait looks at its sync word in this package again and again, and is
answered each time; an access to a shed goes to no fabric. -/
def State.timeoutDue (s : State) (a : Acc) : Bool :=
  (!a.isWait || a.dev.isSome || !s.homeUp a) && !a.performed && !a.isFence && !a.isPagein && !a.isShed
    && (match a.sent with
        | some t => decide (a.limit ≤ s.ticksOf a.who - t)
        | none => false)

def execAccessTimeout (id : Nat) (s : State) : Host.Outcome State Fault Refusal :=
  match s.accs.find? fun a => a.id == id with
  | none => .next s
  | some a =>
    if !s.timeoutDue a then .next s
    else match a.kind with
      | .load .. => .next (s.finishRead a (.error .timeout))
      | .cLoad .. => .next (s.finishRead a (.error .timeout))
      | .atomic .. => .next (s.failAtomic a .timeout)
      | .cAmo .. => .next (s.failAtomic a .timeout)
      | .swWait _ => .next (s.pollAgain a .timeout)
      | _ => .next ((s.failStore a .timeout).complete a)

/-! ### LINE_RECALL and PREDICTOR_DECAY (R353) -/

/-- LINE_RECALL: another agent's access recalls a borrowed line; its updates land at home and its predictor entry rises. -/
def execLineRecall (die line : Nat) (s : State) : Host.Outcome State Fault Refusal := .next (s.recallLine die line)

/-- PREDICTOR_DECAY: every entry above 0 is decremented. -/
def execPredictorDecay (die : Nat) (s : State) : Host.Outcome State Fault Refusal :=
  .next (s.setDie die fun d => { d with predictor := d.predictor.filterMap fun p => if p.2 ≤ 1 then none else some (p.1, p.2 - 1) })

end Sys2Proof.Machine
end

