-- ==== Sys2Proof/Machine/Fetch.lean ====
section
/-! DEFINITION. Fetching a Quatin word (R27), and when a run head can issue (R86, R88 to R91). -/

namespace Sys2Proof.Machine

/-- The bytes of a word as an instruction fetch reads them: from the die cache where it is the page's visibility point, else
from the home slice; zeros with a status where a stack refuses the fetch or is lost (R323). -/
def State.codeBytes (s : State) (k : Option Nat) (leaf pa n : Nat) (sec : Bool) : Option (List Byte × RStat) :=
  match linOf pa with
  | none => none
  | some lin =>
    let held := match k with
      | some k => if pteReach leaf ≤ 1 ∧ regionOf pa = 0 then mget? (s.die k).dc (pa / 128) else none
      | none => none
    match held with
    | some c => some ((c.read (pa % 128) n).1, .ok)
    | none =>
      if !(s.stack (homeOf lin)).alive then some (List.replicate n 0, .timeout)
      else if s.keyRefused (pteKey leaf) sec then some (List.replicate n 0, .remoteFault)
      else some ((s.homeRead lin n (pteKey leaf)).1, .ok)

/-- What another device answers to a fetch is outside the model: any bytes, or zeros with any status (R323). -/
def remoteWord (ticket va n : Nat) : Nat × RStat :=
  match Config.choice ticket (2 ^ 54 + va) % 4 with
  | 0 => (numOf ((upFrom 0 n).map fun i => (BitVec.ofNat 8 (Config.undef ticket (2 ^ 54 + va + i)).toNat : Byte)), .ok)
  | 1 => (0, .peerLost)
  | 2 => (0, .timeout)
  | _ => (0, .remoteFault)

/-- Fetch a word (R27): checked as a read that needs X; its status is that of the read (R323). -/
def State.fetch (s : State) (v : Via) (k : Option Nat) (asid va n : Nat) (sec : Bool) : State × Except Nat (Nat × RStat) :=
  match s.translate v asid va .fetch sec with
  | (s, .fault c) => (s, .error c)
  | (s, .absent) => (s, .error eAbsent)
  | (s, .ok leaf pa) =>
    if 2 ≤ regionOf pa then (s, .error eInvalid)
    else if !s.localDev (pteDev leaf) then (s, .ok (remoteWord s.ticket va n))
    else match s.codeBytes k leaf pa n sec with
      | some r => (s, .ok (numOf r.1, r.2))
      | none => (s, .error eInvalid)

/-- Fetch and decode the word at an address; a word that is no instruction is a reserved encoding (R57). -/
def State.fetchInstr (s : State) (core : Nat) (wp : Warp) (pc : Nat) : State × Except Nat (Instr × RStat) :=
  match s.fetch (.engine core) (some (dieOf core)) (s.asidOf wp) pc 8 (s.core core).ctx.sec with
  | (s, .error c) => (s, .error c)
  | (s, .ok w) => (s, .ok ((decodeQuatin (BitVec.ofNat 64 w.1)).toOption.getD (.reservedEncoding (BitVec.ofNat 64 w.1)), w.2))

/-- The threads about to issue a word record the status of its fetch, as of a read (R27, R323). -/
def State.noteFetch (s : State) (core w pc : Nat) (wp : Warp) (st : RStat) : State :=
  if st = .ok then s
  else (wp.issueSet pc).foldl (fun (s : State) l => s.setThread ⟨core, w, l⟩ fun t => t.failNow st) s

/-- Whether a pre-emption of the core stops this warp from starting a run (R90, R445). -/
def State.stopping (s : State) (core : Nat) (wp : Warp) : Bool :=
  match (s.core core).preempt with
  | none => false
  | some part => part.isNone || part == some (s.partOf wp)

/-- A run head (R90): its address, its word (none where the fetch fails), its price, and whether the scoreboard or an engine counter
holds it. -/
structure HeadWord where
  pc : Nat
  word : Option Instr
  price : Nat
  waits : Bool
  deriving DecidableEq, Repr

/-- The word at a warp's issue PC as it would issue in this cycle; a word that fails its checks has no price (R182). -/
def State.headWord (s : State) (core w : Nat) (wp : Warp) : Option HeadWord :=
  wp.issuePc.map fun pc =>
    match s.fetchInstr core wp pc with
    | (_, .error _) => ⟨pc, none, 0, false⟩
    | (s, .ok (i, _)) =>
      match hdrOf i with
      | none => ⟨pc, some i, 0, false⟩
      | some h =>
        let u := useOf (wp.width / 32) i
        let x0 : Iss := ⟨core, w, wp.issueSet pc, [], pc, wp, s.now core, s.ticket⟩
        let x : Iss := { x0 with act := x0.set.filter fun l => x0.pred h.pred l != h.neg }
        if !wordOk wp i then ⟨pc, some i, 0, false⟩
        else ⟨pc, some i, s.price x i, blocked wp u h || s.wordWaits i x0 || (wp.engFull u.eng && !x.act.isEmpty)⟩

/-- Whether a run head can issue now, at what price, or fails for want of bales alone. -/
inductive Head where
  | cannot
  | short (pc : Nat) (i : Instr) (price : Nat)
  | can (price : Nat)
  deriving DecidableEq, Repr

/-- Whether the word at a warp's issue PC can issue in this cycle (R90): the scoreboard, the counters, the price. -/
def State.headOf (s : State) (core w : Nat) (wp : Warp) : Head :=
  match s.headWord core w wp with
  | none => .cannot
  | some d =>
    if d.waits then .cannot
    else if s.canPay core (.warp w) d.price then .can d.price
    else match d.word with
      | some i => .short d.pc i d.price
      | none => .cannot

/-- Whether a warp's launch still runs. -/
def State.running (s : State) (wp : Warp) : Bool :=
  match s.launch? wp.launch with
  | some l => l.ended.isNone
  | none => false

/-- Whether the cores run: they are held until the self-test has passed, in the safe state, and when the base dies miss the
control die's heartbeat (R25, R462, R464). -/
def State.coresRun (s : State) : Bool := s.ctl.heartbeat && s.ctl.boot == .ready

/-- Whether a warp is a candidate but for its head (R88, R90). -/
def State.mayIssue (s : State) (core : Nat) (wp : Warp) : Bool :=
  s.coresRun && s.running wp && !wp.held && !s.stopping core wp && decide (wp.nextIssue ≤ s.now core) && wp.threads.any Thread.isReady

/-- The candidates of a quadrant (R88), with their places. -/
def State.candidates (s : State) (core quad : Nat) : List (Nat × Warp) :=
  (s.core core).ctx.warps.filter fun p =>
    p.1 / 16 == quad && s.mayIssue core p.2 && (match s.headOf core p.1 p.2 with
      | .can _ => true
      | _ => false)

/-- The winner: the earliest ready time; among equals, a warp that yielded loses to those it yielded to, and otherwise the
lowest number wins (R88, R100). -/
def winner (l : List (Nat × Warp)) : Option (Nat × Warp) :=
  match leastBy (fun p => p.2.readyAt) l with
  | none => none
  | some best =>
    let tied := l.filter fun p => p.2.readyAt == best.2.readyAt
    match tied.find? fun p => !(tied.any fun q => p.2.ties.contains q.1) with
    | some p => some p
    | none => tied.head?

end Sys2Proof.Machine
end

