-- ==== Sys2Proof/Machine/Thr.lean ====
section
/-! DEFINITION. The instructions that move a thread's program counter or its work (R94 to R105), traps and the return from them
(R442, R443), and the events of the issue slots (R84, R88, R101). -/

namespace Sys2Proof.Machine

/-! ### Control transfers (R96 to R98) -/

/-- The outcome of a transfer in one thread. -/
inductive Xfer where
  | go (target : Nat)
  | quit
  | fault (f : Flt)
  deriving DecidableEq, Repr

/-- Steps 3 and 4 of R96. -/
def checkTarget (t : Nat) : Xfer :=
  if 2 ^ 55 ≤ t then .fault (.of eInvalid 0) else if t % 8 ≠ 0 then .fault (.of eAlign 0) else .go t

/-- A target pair in a lane (R96). -/
def pairTarget (a : Src) (x : Iss) (l : Nat) : Xfer :=
  match checkTags [(x.src a 0 l, intTags), (x.src a 1 l, intTags)] with
  | .pois => .quit
  | .bad field => .fault (.of eTag field)
  | .good => checkTarget (x.pair a l)

/-- A target relative to the word (R30). -/
def relTarget (imm : BitVec 24) (x : Iss) (_ : Nat) : Xfer := checkTarget (wrapInt 64 ((x.pc : Int) + 8 * imm.toInt))

/-! ### REORDER (R102 to R105) -/

/-- The threads of a launch on a core that have not exited, as participants that have not arrived. -/
def Ctx.partsOf (c : Ctx) (launch : Nat) : List RPart :=
  (c.warps.filter fun p => p.2.launch == launch).flatMap fun p =>
    ((upFrom 0 p.2.threads.length).zip p.2.threads).filterMap fun t =>
      if t.2.isExited then none else some ⟨p.1, t.1, false, false, .zero⟩

/-- The work of a slot: what R104 moves, beside the live registers, and what each register and predicate derives from (R309). -/
structure Work where
  tid : Nat
  seed : Word
  rerrCount : Nat
  rerrStat : Nat
  groups : List Nat
  preds : List Bool
  regs : List (Nat × Reg)
  taint : List (RName × Taint)
  deriving DecidableEq, Repr

/-- The work of a slot. -/
def Ctx.workAt (c : Ctx) (live : List Nat) (w l : Nat) : Work :=
  match mget? c.warps w with
  | none => ⟨0, 1, 0, 0, [], [], [], []⟩
  | some p =>
    match p.threads[l]? with
    | none => ⟨0, 1, 0, 0, [], [], [], []⟩
    | some t => ⟨t.tid, t.seed, t.rerrCount, t.rerrStat, t.groups, (upFrom 0 7).map fun i => mget p.p (l * 8 + i) false,
        live.map fun r => (r, mget p.v (r * 128 + l) .zero),
        (RName.seed :: live.map RName.v ++ (upFrom 0 7).map RName.p).map fun n => (n, p.taintOf [n] l)⟩

/-- A register that REORDER leaves undefined: any bits, tag RAW (R9, R104). -/
def undefReg (ticket key : Nat) : Reg := ⟨Config.undef ticket key, .raw⟩

/-- Slot `l` of warp `no` receives work (R104). -/
def Warp.receive (w : Warp) (ticket no : Nat) (l : Nat) (k : Work) (poison : Bool) : Warp :=
  let w1 := { w with
    fresh := w.fresh.filter fun f => f.lane != l || (match f.name with
      | .w _ => true
      | _ => false)
    threads := lmod w.threads l fun t =>
      { t with tid := k.tid, seed := k.seed, rerrCount := k.rerrCount, rerrStat := k.rerrStat, groups := k.groups } }
  let w2 := ((upFrom 0 7).zip k.preds).foldl (fun w p => { w with p := mset w.p (l * 8 + p.1) p.2 }) w1
  let live := k.regs.map fun r => r.1
  let w3 := ((upFrom 0 w.vregs).filter fun r => !live.contains r).foldl
    (fun w r => w.write (.v r) l (undefReg ticket (no * 2 ^ 24 + rkey (.v r) l))) w2
  let w4 := k.regs.foldl
    (fun w r => if r.1 < w.vregs then w.write (.v r.1) l (if poison then { r.2 with tag := .poison } else r.2) else w) w3
  k.taint.foldl (fun w t => w.setTaint t.1 l t.2) w4

/-- The 16-bit key of a participant: a POISON key sorts as 0xFFFF. -/
def RPart.sortKey (p : RPart) : Nat := if p.key.tag = .poison then 0xFFFF else p.key.val.toNat % 2 ^ 16

/-- REORDER_COMPLETE: the last participant has arrived (R104). DESIGN CHOICE (log 122): the writes have variable latency, and they
land in the step that completes the collective. -/
def State.reorderDone (s : State) (core : Nat) (r : Reorder) : State :=
  let c := (s.core core).ctx
  let live := liveRegs r.base r.mask
  let q := sortBy (fun p : RPart => p.warp * 128 + p.lane) (r.parts.filter fun p => p.guard)
  let srt := sortBy (fun p : RPart => if r.desc then 0xFFFF - p.sortKey else p.sortKey) q
  let moves := (q.zip srt).map fun m => (m.1, c.workAt live m.2.warp m.2.lane, m.2.key.tag == .poison)
  let s1 := moves.foldl (fun s m => s.setWarp core m.1.warp fun w => w.receive s.ticket m.1.warp m.1.lane m.2.1 m.2.2) s
  let s2 := s1.poison core (q.filter fun p => p.key.tag == .poison).length
  r.parts.foldl (fun s p =>
    (s.setThread ⟨core, p.warp, p.lane⟩ fun t => { t with pc := (r.pc + 8) % 2 ^ 64 }).wake ⟨core, p.warp, p.lane⟩) s2

/-- Complete the open collective of a launch when every remaining participant has arrived; a collective that waited behind
it then opens. -/
def State.tryReorder (s : State) (core launch : Nat) : State :=
  match (s.core core).ctx.reorder.find? fun r => r.launch == launch with
  | none => s
  | some r =>
    if r.parts.any fun p => !p.arrived then s
    else
      let s1 := s.reorderDone core r
      s1.setCtx core fun c =>
        let rest := c.reorder.filter fun q => !(q == r)
        let fresh := c.partsOf launch
        { c with reorder := rest.map fun q =>
            if q.launch = launch then
              { q with parts := fresh.map fun p => (q.parts.find? fun o => o.warp == p.warp && o.lane == p.lane).getD p }
            else q }

/-- A thread that exits before it arrives leaves the set (R102). -/
def State.leaveReorder (s : State) (t : TRef) (launch : Nat) : State :=
  (s.setCtx t.core fun c => { c with reorder := c.reorder.map fun r =>
    if r.launch = launch then { r with parts := r.parts.filter fun p => !(p.warp == t.warp && p.lane == t.lane && !p.arrived) } else r
  }).tryReorder t.core launch

/-- A thread becomes EXITED, with all that follows (R99). -/
def State.quit (s : State) (t : TRef) (launch : Nat) : State := (s.exitThread t launch).leaveReorder t launch

/-! ### The transfers -/

/-- A control transfer of the guard-true threads; `link` is the return pair of CALL and CALLX. -/
def transfer (link : Dst) (target : Iss → Nat → Xfer) (x : Iss) (s : State) : Eff :=
  let outs := x.act.map fun l => (l, target x l)
  let ret := (x.pc + 8) % 2 ^ 64
  let takers := outs.filterMap fun o => match o.2 with
    | .go t => some (o.1, t)
    | _ => none
  let links := takers.flatMap fun o => groupWb (dstNames link 2) o.1 fun i _ => ⟨BitVec.ofNat 32 (ret / 2 ^ (32 * i)), .i32⟩
  let s1 := s.putRegs x (.fixed 2) links
  let s2 := takers.foldl (fun s o => s.setThread (x.ref o.1) fun t => { t with pc := o.2 }) s1
  let quits := outs.filterMap fun o => match o.2 with
    | .quit => some o.1
    | _ => none
  let s3 := quits.foldl (fun s l => s.quit (x.ref l) x.w.launch) (s2.poison x.core quits.length)
  let s4 := if quits.isEmpty then s3 else s3.setLaunch x.w.launch fun l => { l with poisoned := true }
  let faults := outs.filterMap fun o => match o.2 with
    | .fault f => some (o.1, f)
    | _ => none
  let s5 := faults.foldl (fun s o => s.takeFault (x.ref o.1) x.pc o.2) s4
  ⟨s5, if !faults.isEmpty then .trap else if takers.isEmpty && quits.isEmpty then .go else .stop⟩

def execBra (h : Hdr) (imm : BitVec 24) (s : State) : Host.Outcome State Fault Refusal :=
  issue (.bra h imm) s (transfer .discard (relTarget imm))

def execCall (h : Hdr) (d : Dst) (imm : BitVec 24) (s : State) : Host.Outcome State Fault Refusal :=
  issue (.call h d imm) s (transfer d (relTarget imm))

def execBrx (h : Hdr) (a : Src) (s : State) : Host.Outcome State Fault Refusal :=
  issue (.brx h a) s (transfer .discard (pairTarget a))

def execCallx (h : Hdr) (d : Dst) (a : Src) (s : State) : Host.Outcome State Fault Refusal :=
  issue (.callx h d a) s (transfer d (pairTarget a))

def execRet (h : Hdr) (a : Src) (s : State) : Host.Outcome State Fault Refusal :=
  issue (.ret h a) s (transfer .discard (pairTarget a))

/-! ### EXIT, YIELD, NAP (R99 to R101) -/

def execExit (h : Hdr) (s : State) : Host.Outcome State Fault Refusal :=
  issue (.exit h) s fun x s =>
    ⟨x.act.foldl (fun s l => s.quit (x.ref l) x.w.launch) s, if x.act.isEmpty then .go else .stop⟩

def execYield (h : Hdr) (s : State) : Host.Outcome State Fault Refusal :=
  issue (.yield h) s fun x s =>
    if x.act.isEmpty then .go s
    else
      let others := (s.candidates x.core (x.warp / 16)).filter fun p => p.1 != x.warp
      let latest := others.foldl (fun m p => max m p.2.readyAt) 0
      ⟨s.setWarp x.core x.warp fun w => { w with readyAt := latest, ties := others.map fun p => p.1 }, .stop⟩

def execNap (h : Hdr) (imm : BitVec 24) (s : State) : Host.Outcome State Fault Refusal :=
  issue (.nap h imm) s fun x s =>
    if imm = 0 then .go s
    else .go (x.act.foldl (fun s l =>
      s.setThread (x.ref l) fun t => { t with st := .nap (x.now + l / 32 + imm.toNat) }) s)

/-! ### The arrival at a REORDER -/

/-- Mark arrivals in a collective. -/
def Reorder.arrive (r : Reorder) (ps : List RPart) : Reorder :=
  { r with parts := (r.parts.filter fun p => !(ps.any fun q => q.warp == p.warp && q.lane == p.lane)) ++ ps }

/-- REORDER (R102, R103). A thread arrives whether its guard is true or not; a guard-true thread whose key or whose warp's mask
has a wrong tag, or whose warp's mask differs, faults and does not arrive. A live set out of range opens no collective, and threads
with a false guard pass on (DESIGN CHOICE, log 123). -/
def execReorder (h : Hdr) (a b c : Src) (desc : Bool) (s : State) : Host.Outcome State Fault Refusal :=
  issue (.reorder h a b c desc) s fun x s =>
    let launch := x.w.launch
    let cx := (s.core x.core).ctx
    let base := b.field
    let m0 := x.src c 0 0
    let m1 := x.src c 1 0
    let mask := x.pair c 0
    let opens := cx.reorder.filter fun r => r.launch == launch
    let isPart (r : Reorder) : Bool := x.set.any fun l => r.parts.any fun p => p.warp == x.warp && p.lane == l && !p.arrived
    -- the collective that these threads belong to, if it is open
    let mine : Option Reorder := match opens with
      | [] => none
      | r :: rest => if isPart r then some r else rest.head?
    let maskTag := !(intTags.contains m0.tag && intTags.contains m1.tag)
    let keyBad (l : Nat) : Bool := !((x.src a 0 l).konst || (Tag.poison :: intTags).contains (x.src a 0 l).tag)
    let differs := (mine.map fun r => r.mask != mask).getD false
    let flt (l : Nat) : Option Flt :=
      if !x.act.contains l then none
      else if maskTag then some (.of eTag m0.field)
      else if differs then some (.of eIllegal 0)
      else if keyBad l then some (.of eTag (x.src a 0 l).field)
      else none
    let bad := x.set.filterMap fun l => (flt l).map fun f => (l, f)
    let come := x.set.filter fun l => (flt l).isNone
    let ps := come.map fun l => (⟨x.warp, l, true, x.act.contains l, ⟨(x.src a 0 l).val, (x.src a 0 l).tag⟩⟩ : RPart)
    let faults (s : State) : State := bad.foldl (fun s p => s.takeFault (x.ref p.1) x.pc p.2) s
    let leave : RunStop := if bad.isEmpty then .go else .trap
    match mine with
    | some r =>
      if r.pc ≠ x.pc then ⟨s.takeFaults x x.set (.of eIllegal 0), .trap⟩
      else
        let s1 := s.setCtx x.core fun k => { k with reorder := k.reorder.map fun q => if q == r then q.arrive ps else q }
        ⟨(faults (s1.waitAll { x with act := come } .reorder)).tryReorder x.core launch, leave⟩
    | none =>
      let outside := (liveRegs base mask).any fun r => decide (min 640 x.w.vregs ≤ r)
      if !maskTag && outside then ⟨s.takeFaults x x.act (.of eIllegal 0), if x.act.isEmpty then .go else .trap⟩
      else if come.isEmpty then ⟨faults s, leave⟩
      else
        let r0 : Reorder := ⟨launch, x.pc, base, mask, desc, if opens.isEmpty then cx.partsOf launch else []⟩
        let s1 := s.setCtx x.core fun k => { k with reorder := k.reorder ++ [r0.arrive ps] }
        let s2 := faults (s1.waitAll { x with act := come } .reorder)
        ⟨if opens.isEmpty then s2.tryReorder x.core launch else s2, leave⟩

/-! ### TRAP, BRKPT, ERET (R442, R443) -/

def execTrap (h : Hdr) (imm : BitVec 14) (s : State) : Host.Outcome State Fault Refusal :=
  issue (.trap h imm) s fun x s => if x.act.isEmpty then .go s else faultAll (.of eTrap imm.toNat) x s

def execBrkpt (h : Hdr) (s : State) : Host.Outcome State Fault Refusal :=
  issue (.brkpt h) s fun x s => if x.act.isEmpty then .go s else faultAll (.of eBrkpt 0) x s

def execEret (h : Hdr) (next : Bool) (s : State) : Host.Outcome State Fault Refusal :=
  issue (.eret h next) s fun x s =>
    let sl (l : Nat) : Bool := ((x.w.thread? l).map fun t => t.sLevel).getD false
    let s1 := (x.act.filter sl).foldl (fun s l => s.returnFault (x.ref l) next) s
    let bad := x.act.filter fun l => !sl l
    ⟨s1.takeFaults x bad (.of ePriv 0), if bad.isEmpty then .go else .trap⟩

/-! ### The events of the issue slots -/

/-- Give a quadrant's slot to a warp: its word comes next. -/
def State.grantSlot (s : State) (core quad w : Nat) (t : Todo) : State :=
  let s1 := s.setCore core fun k => { k with slots := lmod k.slots quad fun sl => { sl with cur := some w } }
  { s1.setWarp core w (fun p => { p with run := none }) with agenda := t :: s.agenda }

/-- Whether a warp is in the middle of its run. -/
def Core.inRun (k : Core) (w : Nat) : Bool := (lget k.slots (w / 16) ⟨none, 0⟩).cur == some w

/-- The heads of a quadrant that fail only for want of bales. -/
def State.shortHeads (s : State) (core quad : Nat) : List (Nat × Nat × Instr × Nat) :=
  (s.core core).ctx.warps.filterMap fun p =>
    if p.1 / 16 = quad ∧ s.mayIssue core p.2 ∧ !(s.core core).inRun p.1 then match s.headOf core p.1 p.2 with
      | .short pc i price => some (p.1, pc, i, price)
      | _ => none
    else none

/-- The warps of a quadrant whose heads fail only for want of bales begin to wait, or go on waiting (R186). -/
def State.noteShort (s : State) (core quad : Nat) : State :=
  (s.shortHeads core quad).foldl (fun (s : State) w => s.noteWait core w.1 w.2.1 w.2.2.1 w.2.2.2) s

/-- The winner of a free slot of a quadrant: the warp for which the rack has paid in this cycle, or the best candidate. -/
def State.slotWinner (s : State) (core quad : Nat) : Option (Nat × Warp) :=
  let cs := s.candidates core quad
  let paid := cs.filter fun p => (s.core core).grants.any fun g => g.1 == p.1
  winner (if paid.isEmpty then cs else paid)

/-- SLOT_ARBITRATION: a free slot goes to the candidate with the earliest ready time, whose word issues in this cycle
(R88). A warp whose escape counter is full makes an escape issue (R84). -/
def execSlotArbitration (core quad : Nat) (s : State) : Host.Outcome State Fault Refusal :=
  let sl := lget (s.core core).slots quad ⟨none, 0⟩
  if sl.cur.isSome || decide (s.now core < sl.freeAt) then .next s
  else
    let s1 := s.noteShort core quad
    match s1.slotWinner core quad with
    | none => .next s1
    | some p =>
      if p.2.esc < 65536 then .next (s1.grantSlot core quad p.1 (.word core p.1))
      else .next (s1.grantSlot core quad p.1 (.ev (.escapeIssue core p.1)))

/-- ESCAPE_ISSUE: the slot's warp issues at the PC that R84 gives (`Warp.issuePc`). -/
def execEscapeIssue (core warp : Nat) (s : State) : Host.Outcome State Fault Refusal :=
  match s.warp? core warp with
  | none => .next s
  | some w =>
    if w.esc < 65536 ∨ (lget (s.core core).slots (warp / 16) ⟨none, 0⟩).cur ≠ some warp then .next s
    else .next { s with agenda := .word core warp :: s.agenda }

/-- NAP_EXPIRY: the thread's count has expired (R101). -/
def execNapExpiry (t : TRef) (s : State) : Host.Outcome State Fault Refusal :=
  match s.thread? t with
  | none => .next s
  | some th =>
    match th.st with
    | .nap e => if e ≤ s.now t.core then .next (s.wake t) else .next s
    | _ => .next s

end Sys2Proof.Machine
end

