-- ==== Sys2Proof/Machine/Eng.lean ====
section
/-! DEFINITION. The counters of engine commands and WAITC (R286 to R289, R298, R444). -/

namespace Sys2Proof.Machine

/-- The outstanding commands of a class, oldest first: the class's counter is their number (R286). -/
def Warp.outOf (w : Warp) (c : EngCls) : List Outst :=
  match c with
  | .copy => w.copyOut
  | .matrix => w.matOut
  | .coll => w.collOut

def Warp.setOut (w : Warp) (c : EngCls) (l : List Outst) : Warp :=
  match c with
  | .copy => { w with copyOut := l }
  | .matrix => { w with matOut := l }
  | .coll => { w with collOut := l }

/-- A command counts when it issues (R286). -/
def Warp.counted (w : Warp) (c : EngCls) (cmd : Nat) : Warp := w.setOut c (w.outOf c ++ [⟨cmd, false, false⟩])

/-- Commands at the head that have completed are counted (R287): what stays, and whether one of them read a non-resident
element (R289). -/
def popDone : List Outst → List Outst × Bool
  | [] => ([], false)
  | o :: l => if o.done then let r := popDone l; (r.1, r.2 || o.nonRes) else (o :: l, false)

/-- A command completes; it is counted once its elders are (R287). -/
def Warp.completeCmd (w : Warp) (c : EngCls) (cmd : Nat) (nonRes : Bool) : Warp :=
  let r := popDone ((w.outOf c).map fun o => if o.cmd = cmd then { o with done := true, nonRes := nonRes } else o)
  { w.setOut c r.1 with nonRes := w.nonRes || (c == .copy && r.2) }

/-- The oldest deferred fault of a class whose command has been counted (R289, R298). -/
def Warp.dueFault (w : Warp) (c : EngCls) : Option Deferred :=
  leastBy (fun d => d.cmd) (w.deferred.filter fun d => d.cls == c && (w.outOf c).all fun o => o.cmd != d.cmd)

/-- The lanes whose WAITC of a class is satisfied, with the residency predicate that each names. -/
def Warp.waitcDone (w : Warp) (c : EngCls) : List (Nat × Nat) :=
  ((upFrom 0 w.threads.length).zip w.threads).filterMap fun p => match p.2.st with
    | .engine c' n pr => if c' = c ∧ (w.outOf c).length ≤ n then some (p.1, pr) else none
    | _ => none

/-- The fault that a deferred one raises at WAITC (R436, R444). -/
def Deferred.flt (d : Deferred) : Flt := ⟨d.code, 2, d.status.code, 0, d.addr, d.cmdPc⟩

/-- The waits of a class that end now (R289): the oldest deferred fault is raised by the threads that waited, with its status
recorded (R323); otherwise the residency predicate is written. Says whether a fault was raised. DESIGN CHOICE (log 115): the table
gives WAITC no latency class for pR, which is readable as soon as the wait has ended. -/
def State.engineSettle (s : State) (core warp : Nat) (c : EngCls) : State × Bool :=
  match s.warp? core warp with
  | none => (s, false)
  | some w =>
    let ls := w.waitcDone c
    if ls.isEmpty then (s, false)
    else
      let s1 := ls.foldl (fun s l => s.wake ⟨core, warp, l.1⟩) s
      let clear (w : Warp) : Warp := if c = .copy then { w with nonRes := false } else w
      match w.dueFault c with
      | some d =>
        let s2 := s1.setWarp core warp fun w => clear { w with deferred := w.deferred.filter fun e => !(e == d) }
        (ls.foldl (fun s l =>
          let t : TRef := ⟨core, warp, l.1⟩
          (s.setThread t fun th => if d.status = .ok then th else th.failNow d.status).takeFault t ((((s.thread? t).map fun th => th.pc).getD 8) - 8) d.flt) s2, true)
      | none =>
        (s1.setWarp core warp fun x =>
          clear (if c = .copy then ls.foldl (fun x l => x.write (.p l.2) l.1 ⟨if w.nonRes then 0 else 1, .raw⟩) x else x), false)

/-- A command of a warp, resident or parked, completes; the waits of a resident warp may end. -/
def State.engineDone (s : State) (core warp launch : Nat) (c : EngCls) (cmd : Nat) (nonRes : Bool) : State :=
  let s1 := s.modWarp core warp launch fun w => w.completeCmd c cmd nonRes
  match s1.warp? core warp with
  | some w => if w.launch = launch then (s1.engineSettle core warp c).1 else s1
  | none => s1

/-- The waits of a core's warps that have been satisfied while it was parked end with its return (R289). -/
def State.settleEngines (s : State) (core : Nat) : State :=
  (s.core core).ctx.warps.foldl (fun (s : State) p =>
    [EngCls.copy, .matrix, .coll].foldl (fun (s : State) c => (s.engineSettle core p.1 c).1) s) s

/-- The warp's threads wait until the class's counter is at most n, then acquire what the counted commands did (R289). -/
def execWaitc (h : Hdr) (n : Fin 64) (c : EngCls) (pr : Pred) (s : State) : Host.Outcome State Fault Refusal :=
  issue (.waitc h n c pr) s fun x s =>
    if x.act.isEmpty then .go s
    else
      let r := (s.waitAll x (.engine c n.val pr.val)).engineSettle x.core x.warp c
      ⟨r.1, if r.2 then .trap else .go⟩

end Sys2Proof.Machine
end

