-- ==== Sys2Proof/Machine/Bales.lean ====
section
/-! DEFINITION. Bale rings, racks and reservations (R177 to R190), row rings (R180, R197), half-column mode (R192), PHASE and
RDRACK (R194 to R196). -/

namespace Sys2Proof.Machine

/-! ### PHASE and RDRACK -/

def phaseCode : PhaseSel → Nat
  | .c => 1
  | .m => 2
  | .w => 3

def execPhase (h : Hdr) (p : PhaseSel) (s : State) : Host.Outcome State Fault Refusal :=
  issue (.phase h p) s fun x s =>
    if x.act.isEmpty then .go s else .go (s.setWarp x.core x.warp fun w => { w with phase := phaseCode p })

/-- The word that RDRACK writes (R196). -/
def State.rackWord (s : State) (core warp : Nat) : Nat :=
  let k := s.core core
  let ph := ((s.warp? core warp).map fun w => w.phase).getD 0
  let sat := k.satisfied.any fun r => r.who == .warp warp
  let res := sat || k.resv.any fun r => r.who == .warp warp
  ph * 2 ^ 22 + b2n k.half * 2 ^ 21 + b2n sat * 2 ^ 20 + b2n res * 2 ^ 19 + min 4 k.resv.length * 2 ^ 16 + k.rack

def execRdrack (h : Hdr) (d : Dst) (s : State) : Host.Outcome State Fault Refusal :=
  issue (.rdrack h d) s fun x s =>
    perLane (.fixed 3) (dstNames d 1) (fun x _ => .of [⟨BitVec.ofNat 32 (s.rackWord x.core x.warp), .i32⟩]) x s

/-! ### The rings of the compute dies (R179, R189) -/

/-- Deposits fill reservations oldest first: what stays, what is satisfied, and the share that is left (R179, R187). -/
def fillResv : List Resv → Nat → List Resv × List Resv × Nat
  | [], share => ([], [], share)
  | r :: l, share =>
    let x := min share (r.amount - r.held)
    let r' := { r with held := r.held + x }
    let q := fillResv l (share - x)
    if r'.amount ≤ r'.held then (q.1, r' :: q.2.1, q.2.2) else (r' :: q.1, q.2.1, q.2.2)

/-- A core receives its share; the surplus comes back (R179). -/
def Core.deposit (k : Core) (share : Nat) : Core × Nat :=
  let q := fillResv k.resv share
  let x := min q.2.2 (rackCap - k.rack)
  ({ k with resv := q.1, satisfied := k.satisfied ++ q.2.1, rack := k.rack + x }, q.2.2 - x)

/-- A die's ring at the start of its next turn: new allowances, then the row part and the slew limit (R178, R179, R189). -/
def Ring.newTurn (r : Ring) : Ring :=
  { r with allow := r.nextAllow, rowpart := r.nextRowpart, step := r.nextStep, massen := r.nextMassen, turn := r.turn + 1,
           pool := r.nextAllow - min r.nextRowpart r.nextAllow, visit := 0, prevSpent := r.spent, spent := 0,
           limit := r.spent + r.nextStep }

/-- How many warps of a die hold each advice (R195). -/
def State.adviceOf (s : State) (die : Nat) : List Nat :=
  [1, 2, 3].map fun ph => ((upFrom (8 * die) 8).map fun c => ((s.core c).ctx.warps.filter fun w => w.2.phase == ph).length).sum

/-- BALE_TURN: a turn starts, and the die reports its warps' advice to the control die (R195). For a die that does not run, the
control die hands the ROWPART that the die had to the row (R180). -/
def execBaleTurn (die : Nat) (s : State) : Host.Outcome State Fault Refusal :=
  let d := s.die die
  let part := min d.ring.nextRowpart d.ring.nextAllow
  let s1 := { s with rows := lmod s.rows (die % 4) fun r => { r with bank := r.bank + part } }
  .next (if d.st = .up then
    (s1.setDie die fun d => { d with ring := d.ring.newTurn }).setCtl fun k => { k with advice := mset k.advice die (s.adviceOf die) }
    else s1)

/-- RING_VISIT: visit j of a turn; a disabled core is skipped with its share (R179). -/
def execRingVisit (die j : Nat) (s : State) : Host.Outcome State Fault Refusal :=
  let d := s.die die
  if d.st ≠ .up ∨ 8 ≤ j then .next s
  else
    let c := 8 * die + (d.ring.turn + j) % 8
    let share := ceilDiv d.ring.pool (8 - j)
    let k := s.core c
    let q := if k.enabled then k.deposit share else (k, share)
    .next ((s.setCore c fun _ => q.1).setDie die fun d =>
      { d with ring := { d.ring with pool := d.ring.pool - share + q.2, visit := j + 1 } })

/-! ### Row rings (R180, R197) -/

/-- ROW_RING_TURN: the row ring takes its whole pool. -/
def execRowRingTurn (row : Nat) (s : State) : Host.Outcome State Fault Refusal :=
  .next { s with rows := lmod s.rows row fun r => { r with pool := r.bank, bank := 0, turn := r.turn + 1, visit := 0 } }

/-- A stack core receives its share. -/
def SCore.deposit (k : SCore) (share : Nat) : SCore × Nat :=
  let q := fillResv k.resv.toList share
  let x := min q.2.2 (rackCap - k.rack)
  ({ k with resv := q.1.head?, satisfied := match q.2.1.head? with
      | some r => some r
      | none => k.satisfied, rack := k.rack + x }, q.2.2 - x)

/-- ROW_RING_VISIT: visit j of a row turn. -/
def execRowRingVisit (row j : Nat) (s : State) : Host.Outcome State Fault Refusal :=
  if 16 ≤ j then .next s
  else
    let r := lget s.rows row ⟨0, 0, 0, 0⟩
    let n := 16 * row + (r.turn + j) % 16
    let share := ceilDiv r.pool (16 - j)
    let k := s.score n
    let q := if k.enabled && (s.stack (n / 4)).alive then k.deposit share else (k, share)
    .next { s.setScore n (fun _ => q.1) with
      rows := lmod s.rows row fun r => { r with pool := r.pool - share + q.2, visit := j + 1 } }

/-! ### Half-column mode and droop (R191, R192) -/

/-- REGULATOR_ALARM: the regulator's cores enter half-column mode; the control die counts the alarm. -/
def execRegulatorAlarm (reg : Nat) (s : State) : Host.Outcome State Fault Refusal :=
  if s.ctl.alarmOn.contains reg then .next s
  else
    let s1 := s.setCtl fun k =>
      { k with alarmOn := markIn k.alarmOn reg, alarms := mset k.alarms reg (mget k.alarms reg 0 + 1) }
    let s2 := { s1 with cores := s1.cores.map fun (k : Core) => if k.regulator = reg then { k with half := true } else k }
    .next (s2.event 8 0 0 7 reg s2.ctl.ticks 0 reg)

/-- REGULATOR_ALARM_CLEAR: the alarm goes; the mode lasts until HALF_COLUMN_EXIT. -/
def execRegulatorAlarmClear (reg : Nat) (s : State) : Host.Outcome State Fault Refusal :=
  if !s.ctl.alarmOn.contains reg then .next s
  else
    let s1 := s.setCtl fun k => { k with alarmOn := markOut k.alarmOn reg, alarmClear := mset k.alarmClear reg s.clock }
    .next (s1.event 8 1 0 7 reg s1.ctl.ticks 0 reg)

/-- Whether an engine has a tile in progress: an MMA that it has taken up and not completed. -/
def MEngine.midTile (m : MEngine) : Bool := match m.cur with
  | some c => (match c.2.kind with
      | .mma .. => true
      | _ => false)
  | none => false

/-- Whether a core may leave half-column mode: at a tile boundary, of the outgoing twin's tile too, its alarm clear for 4,096 ring
cycles. -/
def State.halfDone (s : State) (core : Nat) : Bool :=
  let k := s.core core
  k.half && !s.ctl.alarmOn.contains k.regulator && decide (mget s.ctl.alarmClear k.regulator 0 + 4096 ≤ s.clock)
    && !k.ctx.mat.midTile && (match k.twin with
      | .parked x => !x.mat.midTile
      | _ => true)

/-- A tile of a core has ended: the mode ends here if it may. -/
def State.tileEnd (s : State) (core : Nat) : State := if s.halfDone core then s.post (.halfColumnExit core) else s

/-- HALF_COLUMN_EXIT. -/
def execHalfColumnExit (core : Nat) (s : State) : Host.Outcome State Fault Refusal :=
  .next (if s.halfDone core then s.setCore core fun k => { k with half := false } else s)

/-- DROOP_STRETCH: the core's clock is stretched, and its next edge comes a tick later. -/
def execDroopStretch (core : Nat) (s : State) : Host.Outcome State Fault Refusal :=
  .next (s.setCore core fun k => { k with stretch := k.stretch + 1 })

end Sys2Proof.Machine
end

