-- ==== Sys2Proof/Machine/Sys.lean ====
section
/-! DEFINITION. PAGEIN, PROBE and RAISEGEN (R259 to R263), generation raises (R254, R258), page walks (R257), and the adds that the
control die and the engines make to sync words (R216). -/

namespace Sys2Proof.Machine

/-! ### Sync words of the package's own units -/

/-- Add to a sync word; a poisoned source sets its POISON bit too. `die` is that of the copy engine that adds: its die's copies of the
word give way (R295). A stack refuses an add under a key that the adder may not use (R266). -/
def State.syncAdd (s : State) (place : SyncTo) (die : Option Nat) (units : Nat) (pois : Bool) : State :=
  let f (w : SyncW) : SyncW := let w1 := w.add units; { w1 with pois := w1.pois || pois }
  match place with
  | .none => s
  | .away => s
  | .shed die shed off => s.shedSync die shed off f
  | .home lin key sec => if s.keyRefused key sec then s else s.homeSync lin key die f

/-- Where a checked global sync word lies. -/
def State.syncTo (s : State) (leaf pa : Nat) (sec : Bool) : SyncTo :=
  if !s.localDev (pteDev leaf) then .away
  else match linOf pa with
    | some lin => .home lin (pteKey leaf) sec
    | Option.none => .away

/-- The check of a global sync word's address (R217): aligned to 16, not E_ABSENT, then as a store or as a load. -/
def State.syncTarget (s : State) (t : TRef) (asid va : Nat) (store : Bool) : State × AddrRes :=
  if va % 16 ≠ 0 then (s, .fault (.at eAlign va))
  else match s.target t asid va 16 (if store then .store else .load) false with
    | (s, .absent) => (s, .fault (.at eAbsent va))
    | r => r

/-! ### PAGEIN (R260, R261) -/

/-- PAGEIN. DESIGN CHOICE (log 120): where both addresses would fault, the page's comes first; R261 gives no order. -/
def execPagein (h : Hdr) (a b : Src) (off : BitVec 20) (s : State) : Host.Outcome State Fault Refusal :=
  issue (.pagein h a b off) s (memLanes [] fun x s l =>
    match checkTags [(x.src a 0 l, intTags), (x.src a 1 l, intTags), (x.src b 0 l, intTags), (x.src b 1 l, intTags)] with
    | .pois => (s, { MemOut.none with pois := true })
    | .bad field => (s, .bad (.of eTag field))
    | .good =>
      let va := x.ea a l off.toInt
      let asid := s.asidOf x.w
      let sec := (s.core x.core).ctx.sec
      let push (s : State) (sync : SyncTo) : State :=
        let id := s.nextId
        (s.pushAcc (s.threadAcc (x.ref l) .pagein .rlx .none asid va 0 0 0)).setCtl fun k =>
          { k with pageins := k.pageins ++ [⟨id, asid, va, sync, sec, false, x.ref l⟩] }
      if 2 ^ 55 ≤ va then (s, .bad (.at eInvalid va))
      else match b with
        | .k _ => (push s .none, .none)
        | _ =>
          match s.syncTarget (x.ref l) asid (x.pair b l) true with
          | (s, .ok _ leaf pa) =>
            (push s (s.syncTo leaf pa sec), .none)
          | (s, .fault f) => (s, .bad f)
          | (s, _) => (s, .none))

/-- A PAGEIN's unit: one unit added to its sync word. -/
def State.pageinUnit (s : State) (p : PageIn) (pois : Bool) : State := s.syncAdd p.sync none 1 pois

/-- PAGEIN_REQUEST: a request reaches the control die, which walks its page (R261). -/
def execPageinRequest (id : Nat) (s : State) : Host.Outcome State Fault Refusal :=
  match s.ctl.pageins.find? fun p => p.id == id && !p.walked with
  | none => .next s
  | some p =>
    let finish (s : State) : State :=
      match s.accs.find? fun a => a.id == id with
      | some a => s.complete a
      | none => s
    let drop (s : State) : State := s.setCtl fun k => { k with pageins := k.pageins.filter fun q => q.id != id }
    match s.walk p.asid p.va with
    | (s, .leaf _ _) => .next (finish ((drop s).pageinUnit p false))
    | (s, .invalid) => .next (finish ((drop s).pageinUnit p true))
    | (s, .absent) => .next (finish (s.setCtl fun k =>
        { k with pageins := k.pageins.map fun q => if q.id = id then { q with walked := true } else q }))

/-- PAGEIN_COMPLETION: system software completes, or refuses, a queued request and those merged with it. -/
def execPageinCompletion (id : Nat) (ok : Bool) (s : State) : Host.Outcome State Fault Refusal :=
  match s.ctl.pageins.find? fun p => p.id == id && p.walked with
  | none => .next s
  | some p =>
    let same (q : PageIn) : Bool := q.walked && q.asid == p.asid && q.va / 2 ^ 16 == p.va / 2 ^ 16
    let hit := s.ctl.pageins.filter same
    let s1 := s.setCtl fun k => { k with pageins := k.pageins.filter fun q => !same q }
    .next (hit.foldl (fun s q => s.pageinUnit q !ok) s1)

/-! ### PROBE (R262) -/

/-- What PROBE writes for an address. -/
def State.probe (s : State) (t : TRef) (asid va : Nat) (walk : Bool) : State × Nat :=
  let sec := (s.core t.core).ctx.sec
  let show' (leaf : Nat) : Nat := if pteSec leaf && !sec then 0 else leaf
  if 2 ^ 55 ≤ va then (s, 0)
  else match (if walk then none else s.xlFind (.thread t) asid va) with
    | some x => (s, show' (x.leafFor va))
    | none => match s.walk asid va with
      | (s, .invalid) => (s, 0)
      | (s, .absent) => (s, 2)
      | (s, .leaf x _) => (s, show' (x.leafFor va))

def execProbe (h : Hdr) (d : Dst) (a : Src) (walk : Bool) (s : State) : Host.Outcome State Fault Refusal :=
  let names := dstNames d 2
  issue (.probe h d a walk) s fun x s =>
    let r := x.act.foldl (fun (acc : State × List (Nat × LaneRes)) l =>
      match checkTags [(x.src a 0 l, intTags), (x.src a 1 l, intTags)] with
      | .pois => (acc.1, acc.2 ++ [(l, .poison x.ticket names l)])
      | .bad field => (acc.1, acc.2 ++ [(l, .trap (.of eTag field))])
      | .good =>
        let p := acc.1.probe (x.ref l) (acc.1.asidOf x.w) (x.pair a l) walk
        (p.1, acc.2 ++ [(l, .of (pair64 p.2))])) (s, [])
    r.1.commit x .var names r.2

/-! ### RAISEGEN and generation raises (R254, R258, R263) -/

/-- RAISEGEN: acts once, and a POISON operand counts in every guard-true thread (R260, R263). -/
def execRaisegen (h : Hdr) (a : Src) (s : State) : Host.Outcome State Fault Refusal :=
  issue (.raisegen h a) s fun x s =>
    let sl (l : Nat) : Bool := ((x.w.thread? l).map fun t => t.sLevel).getD false
    let low := x.act.filter fun l => !sl l
    let xs : Iss := { x with act := x.act.filter sl }
    let s1 := s.takeFaults x low (.of ePriv 0)
    let v := x.src a 0 0
    let e : Eff :=
      if xs.act.isEmpty then .go s1
      else match checkTags [(v, intTags)] with
        | .pois => .go (s1.poison x.core xs.act.length)
        | .bad field => faultAll (.of eTag field) xs s1
        | .good =>
          if v.val.toNat % 2 ^ 16 ≠ s.asidOf x.w then faultAll (.of ePerm 0) xs s1
          else
            let r : Raise := ⟨s1.nextId, s.asidOf x.w, xs.act.map x.ref, s1.nextId, x.core, x.warp⟩
            .go { s1.setCtl (fun k => { k with raises := k.raises ++ [r] }) with nextId := s1.nextId + 1 }
    if low.isEmpty then e else { e with stop := .trap }

/-- Whether the accesses that a raise waits for are all acknowledged. -/
def State.raiseReady (s : State) (r : Raise) : Bool :=
  s.accs.all fun a => decide (r.upto ≤ a.id) || a.performed || !(r.ths.any fun t => a.isOf t)

/-- Discard every cached translation of an address space (R258). -/
def State.dropXl (s : State) (asid : Nat) : State :=
  let keep (l : List Xl) : List Xl := l.filter fun x => x.asid != asid
  let thr (t : Thread) : Thread := { t with lastPage := t.lastPage.filter fun x => x.asid != asid }
  { s with
    cores := s.cores.map fun (k : Core) => { k with tlb := keep k.tlb, ctx := { k.ctx with
      warps := k.ctx.warps.map fun w => (w.1, { w.2 with threads := w.2.threads.map thr }) } },
    dies := s.dies.map fun (d : Die) => { d with tlb := keep d.tlb },
    scores := s.scores.map fun (c : SCore) => { c with tlb := keep c.tlb } }

/-- GENERATION_RAISE: the first raise of an address space that waits for nothing is performed and broadcast. -/
def execGenerationRaise (asid : Nat) (s : State) : Host.Outcome State Fault Refusal :=
  match s.ctl.raises.find? fun r => r.asid == asid && s.raiseReady r with
  | none => .next s
  | some r =>
    let g := ((s.asidRec asid).gen + 1) % 2 ^ 16
    let s1 := (s.setAsid asid fun a => { a with gen := g }).setCtl fun k => { k with raises := k.raises.filter fun q => q.id != r.id }
    .next (if g = 0 then s1.dropXl asid else s1)

/-- PAGE_WALK: the walkers serve a miss of a core for a load or a store: the walk decides the access, sets AC and D, and its
result is installed if the access passes (R257). -/
def execPageWalk (asid : Nat) (va : Dword) (store : Bool) (die core : Nat) (s : State) : Host.Outcome State Fault Refusal :=
  let c := 8 * die + core % 8
  if 2 ^ 55 ≤ va.toNat then .next s
  else .next (s.xlWalk (.engine c) asid va.toNat (if store then .store else .load) (s.core c).ctx.sec).1

end Sys2Proof.Machine
end

