-- ==== Sys2Proof/Machine/Shed.lean ====
section
/-! DEFINITION. Sheds: scratch addresses (R203), LDS, STS and LDST (R204 to R207), GIVE and its drain (R209 to R213), SHMAP (R214),
the instructions on sync words (R217, R218). -/

namespace Sys2Proof.Machine

/-! ### Slots and scratch addresses (R200, R203) -/

/-- The entry of a die's shed map that slot `n` of a launch's view on a core names: its key and contents. -/
def State.shedSlot (s : State) (core launch n : Nat) : Option (Nat × ShEntry) :=
  match (s.viewAny core launch).bind fun v => v.sheds[n]? with
  | none => none
  | some e =>
    let key := core % 8 * 64 + e
    (mget? (s.die (dieOf core)).shedMap key).map fun x => (key, x)

/-- The number of shed slots of a launch on a core. -/
def State.shedCount (s : State) (core launch : Nat) : Nat := ((s.viewAny core launch).map fun v => v.sheds.length).getD 0

/-- The outcome of the checks of R203: POISON in the address, a fault, or the shed and the byte within it. -/
inductive ScrRes where
  | pois
  | fault (f : Flt)
  | ok (shed off : Nat)
  deriving DecidableEq, Repr

/-- Whether an access of this cycle may use a slot: it is ATTACHED, or its GIVE issued in this very cycle (R203, R211). -/
def State.slotOpen (s : State) (e : ShEntry) : Bool := e.st == .attached || (e.st == .draining && e.since == s.clock)

/-- Steps 3 to 5 of R203 on a 32-bit scratch address. -/
def State.scratch (s : State) (core launch addr size : Nat) : ScrRes :=
  let slot := fld addr 21 16
  let off := addr % 2 ^ 16
  if fld addr 31 22 ≠ 0 then .fault (.at eInvalid addr)
  else match s.shedSlot core launch slot with
    | none => .fault (.at eInvalid addr)
    | some e =>
      if off % size ≠ 0 then .fault (.at eAlign addr)
      else if !s.slotOpen e.2 then .fault (.at eDetached addr)
      else .ok e.2.shed off

/-- The checks of R203 on the address register of a lane plus an offset. -/
def State.scratchOf (s : State) (x : Iss) (a : Src) (l : Nat) (off : Int) (size : Nat) : ScrRes :=
  match checkTags [(x.src a 0 l, intTags)] with
  | .pois => .pois
  | .bad field => .fault (.of eTag field)
  | .good => s.scratch x.core x.w.launch (wrapInt 32 (((x.src a 0 l).val.toNat : Int) + off)) size

/-! ### LDS and STS (R206) -/

/-- An access of a lane to a place of a shed. -/
def State.shedAcc (s : State) (x : Iss) (l : Nat) (kind : AKind) (place size : Nat) : Acc :=
  { s.threadAcc (x.ref l) kind .rlx .none 0 0 0 0 size with reach := 1, dev := none, pa := shedPa place }

/-- What the bank words [off, off + n) of a shed derive from (R309). -/
def Shed.taintAt (h : Shed) (off n : Nat) : Taint :=
  if h.taint.isEmpty then []
  else (upFrom (off / 4) ((off + n - 1) / 4 + 1 - off / 4)).foldl (fun m w => Taint.join m (mget h.taint w [])) []

/-- A store to a shed: what its words derive from; a word written in part still derives from what it did. -/
def State.shedTaint (s : State) (die shed off n : Nat) (t : Taint) : State :=
  let h := s.shedOf die shed
  if t.isEmpty && h.taint.isEmpty then s
  else s.setDie die fun d => { d with sheds := mset d.sheds shed { h with
    taint := (upFrom (off / 4) ((off + n - 1) / 4 + 1 - off / 4)).foldl (fun m w =>
      msetD [] m w (if off ≤ 4 * w ∧ 4 * w + 4 ≤ off + n then t else Taint.join (mget m w []) t)) h.taint } }

/-- The lane that writes a uniform result of LDS or LDST: the lowest that passes its checks (R111). -/
def uniLane (s : State) (x : Iss) (a : Src) (off : Int) (size : Nat) : Option Nat :=
  x.act.find? fun l => match s.scratchOf x a l off size with
    | .fault _ => false
    | _ => true

/-- LDS in the lanes of a pass; `uni` says whether a uniform result is still to be written. -/
def ldsBody (h : Hdr) (d : Dst) (a : Src) (w : Sys2Proof.Width) (t : Tag) (off : BitVec 7) (uni : Bool) (x : Iss) (s : State) : Eff :=
  let n := Width.bytes w
  let k := dieOf x.core
  let low := uniLane s x a (off.toInt * n) n
  let names (l : Nat) : List RName := if d.isW && !(uni && low == some l) then [] else dstNames d (Width.regs w)
  let deps := x.act.map fun l => (l, match s.scratchOf x a l (off.toInt * n) n with
    | .ok shed o => (x.derived (.lds h d a w t off) h l).join ((s.shedOf k shed).taintAt o n)
    | _ => x.derived (.lds h d a w t off) h l)
  let e := memLanes (dstNames d (Width.regs w)) (fun x s l =>
    match s.scratchOf x a l (off.toInt * n) n with
    | .pois => (s, { now := poisWb x.ticket (names l) l, pois := true, fault := none })
    | .fault f => (s, .bad f)
    | .ok shed o =>
      if s.shedBusy (some x.core) [k * 512 + shed] s.nextId then
        (s.pushAcc (s.shedAcc x l (.load (names l) t 7) (shedPlace k shed o) n), .none)
      else if s.shedMarked k shed o n then (s, { now := poisWb x.ticket (names l) l, pois := true, fault := none })
      else
        let bs := s.shedRead k shed o n
        (s, { now := groupWb (names l) l fun i _ => ⟨BitVec.ofNat 32 (numOf ((bs.drop (4 * i)).take 4)), tagAt t i⟩,
              pois := false, fault := none })) x s
  ⟨e.s.taintDst x (dstNames d (Width.regs w)) (deps.filter fun q => !(names q.1).isEmpty), e.stop⟩

/-- STS in the lanes of a pass. -/
def stsBody (h : Hdr) (d a : Src) (w : Sys2Proof.Width) (off : BitVec 7) (x : Iss) (s : State) : Eff :=
  let n := Width.bytes w
  let k := dieOf x.core
  memLanes [] (fun x s l =>
    match s.scratchOf x a l (off.toInt * n) n with
    | .pois => (s, { MemOut.none with pois := true })
    | .fault f => (s, .bad f)
    | .ok shed o =>
      let b := x.groupBytes d n l
      let s1 := s.shedTaint k shed o n (x.derived (.sts h d a w off) h l)
      if s.shedBusy (some x.core) [k * 512 + shed] s.nextId then
        (s1.pushAcc (s1.shedAcc x l (.store b.1 b.2) (shedPlace k shed o) n), .none)
      else (s1.shedWrite k shed o b.1 b.2, .none)) x s

/-! ### LDST (R207) -/

/-- LDST in the lanes of a pass. -/
def ldstBody (h : Hdr) (d : Dst) (a : Src) (t : Tag) (off : BitVec 7) (uni : Bool) (x : Iss) (s : State) : Eff :=
  let k := dieOf x.core
  let addr (l : Nat) : ScrRes := s.scratchOf x a l (off.toInt * 16) 16
  let low := uniLane s x a (off.toInt * 16) 16
  let names (l : Nat) : List RName := if d.isW && !(uni && low == some l) then [] else dstNames d 4
  let place (l : Nat) : Option (Option Nat) :=
    if !x.act.contains l then none
    else match addr l with
      | .pois => some none
      | .fault _ => none
      | .ok shed o => some (some (shedPlace k shed o))
  let group (l : Nat) : List Nat := upFrom (l / 8 * 8) 8
  let deps := x.act.map fun l => (l, (group l).foldl (fun m r => match place r with
    | some (some p) => (m.join (x.derived (.ldst h d a t off) h r)).join ((s.shedOf k (p / 2 ^ 17 % 512)).taintAt (p % 2 ^ 17) 16)
    | _ => m) (x.derived (.ldst h d a t off) h l))
  let e := memLanes (dstNames d 4) (fun x s l =>
    match addr l with
    | .fault f => (s, .bad f)
    | _ =>
      let rows := (group l).map place
      let sheds := rows.filterMap fun p => p.bind fun q => q.map fun n => n / 2 ^ 17
      if s.shedBusy (some x.core) sheds s.nextId then
        (s.pushAcc (s.shedAcc x l (.rows (names l) t (l % 8) rows) (((rows.filterMap id).filterMap id).headD 0) 16), .none)
      else match ldstCol t (l % 8) (rows.map s.rowAt) with
        | none => (s, { now := poisWb x.ticket (names l) l, pois := true, fault := none })
        | some rs => (s, { now := groupWb (names l) l fun i _ => lget rs i .zero, pois := false, fault := none })) x s
  ⟨e.s.taintDst x (dstNames d 4) (deps.filter fun q => !(names q.1).isEmpty), e.stop⟩

/-! ### GIVE (R209 to R213) -/

/-- The statuses of GIVE (R210). -/
def giveOk : Nat := 0
def giveBadSlot : Nat := 1
def giveBadCore : Nat := 2
def giveBusy : Nat := 3
def givePoisoned : Nat := 4

/-- Change an entry of a die's shed map. -/
def State.setEntry (s : State) (die key : Nat) (f : ShEntry → ShEntry) : State :=
  s.setDie die fun d => { d with shedMap := mmod d.shedMap key f }

/-- The checks of R210 on the operands of a GIVE: a status, or the keys of source and target. -/
def State.giveCheck (s : State) (core launch src tc ts : Nat) : Except Nat (Nat × Nat) :=
  match s.shedSlot core launch src with
  | none => .error giveBadSlot
  | some e =>
    if e.2.st ≠ .attached then .error giveBadSlot
    else if tc / 8 ≠ dieOf core ∨ s.shedCount tc launch = 0 then .error giveBadCore
    else match s.shedSlot tc launch ts with
      | none => .error giveBadSlot
      | some f =>
        if tc = core ∧ ts = src then .error giveBadSlot
        else if f.2.st ≠ .empty ∨ f.2.inc then .error giveBusy
        else .ok (e.1, f.1)

/-- A GIVE that is refused: GSTAT, and pD false. -/
def State.giveRefused (s : State) (x : Iss) (pd : Pred) (st : Nat) : State :=
  (s.setWarp x.core x.warp fun w => { w with gstat := st }).putRegs x .var (x.act.flatMap fun l => prWb pd l false)

def execGive (h : Hdr) (a b c : Src) (pd : Pred) (s : State) : Host.Outcome State Fault Refusal :=
  issue (.give h a b c pd) s fun x s =>
    if x.act.isEmpty then .go s
    else
      let l0 := onceLane x
      let op (q : Src) : Opd := x.src q 0 l0
      match checkTags [(op a, intTags), (op b, intTags), (op c, intTags)] with
      | .pois => .go ((s.giveRefused x pd givePoisoned).poison x.core 1)
      | .bad field => faultAll (.of eTag field) x s
      | .good =>
        let tc := (op b).val.toNat
        match s.giveCheck x.core x.w.launch (op a).val.toNat tc (op c).val.toNat with
        | .error st => .go (s.giveRefused x pd st)
        | .ok (src, dst) =>
          let k := dieOf x.core
          let id := s.nextId
          let pub := x.act.foldl (fun (m : Acqs) l => m.join (((s.thread? (x.ref l)).map Thread.acqs).getD (0, 0))) (0, 0)
          let s1 := (s.setEntry k src fun e => { e with st := .draining, since := s.clock }).setEntry k dst fun e =>
            { e with inc := true, pub := pub }
          let s2 := s1.setWarp x.core x.warp fun w =>
            if pd.val = 7 then w else { w with pend := w.pend ++ [⟨id, predName pd, .give, []⟩] }
          let g : Give := ⟨x.core, x.warp, x.w.launch, src, tc, dst, pd.val, x.act, id, id⟩
          .go (s2.fresh.setDie k fun d => { d with gives := d.gives ++ [g] })

/-- Whether the drain of a GIVE has ended (R211) and its release is complete (R212): its cycle is over, and the accesses of the core to
the shed and its copy commands that name it are done. It waits for its context to be restored, unless the launch has ended (R213). -/
def State.giveDone (s : State) (k : Nat) (g : Give) : Bool :=
  match mget? (s.die k).shedMap g.src with
  | none => false
  | some e =>
    decide (e.since < s.clock)
      && (((s.warp? g.core g.warp).map fun w => w.launch == g.launch).getD false
        || ((s.launch? g.launch).map fun l => l.ended.isSome).getD true)
      && ((s.core g.core).ctxs.all fun c => c.copyQ.all fun q => !(q.sheds.any fun p => p.2 == e.shed))
      && !s.shedBusy (some g.core) [k * 512 + e.shed] s.nextId
      && s.released (g.lanes.map fun l => ⟨g.core, g.warp, l⟩) g.upto 1

/-- GIVE_DRAIN_END: the shed moves to the target's entry, and pD becomes readable and true. -/
def execGiveDrainEnd (core warp : Nat) (s : State) : Host.Outcome State Fault Refusal :=
  let k := dieOf core
  match (s.die k).gives.find? fun g => g.core == core && g.warp == warp && s.giveDone k g with
  | none => .next s
  | some g =>
    match mget? (s.die k).shedMap g.src with
    | none => .next s
    | some e =>
      let s1 := s.setEntry k g.dstEntry fun t => { t with st := .attached, shed := e.shed, sec := e.sec, inc := false }
      let s2 := s1.setEntry k g.src fun t => { t with st := .empty, shed := 0 }
      let s3 := s2.setDie k fun d => { d with gives := d.gives.filter fun q => !(q == g) }
      .next (s3.modWarp core warp g.launch fun w =>
        { w with gstat := giveOk, pend := w.pend.map fun p => if p.id = g.pendId then
            { p with src := .ready, vals := g.lanes.map fun l => ⟨.p g.pd, l, ⟨1, .raw⟩⟩ } else p })

/-! ### SHMAP (R214) -/

/-- The word that SHMAP writes for a slot. -/
def State.shmapWord (s : State) (core launch gstat slot : Nat) : Nat :=
  let n := s.shedCount core launch
  let low := gstat % 8 * 2 ^ 24 + n
  match s.shedSlot core launch slot with
  | none => low
  | some e =>
    low + 2 ^ 31 + (match e.2.st with | .empty => 0 | .attached => 1 | .draining => 2) * 2 ^ 29 + b2n e.2.inc * 2 ^ 28
      + b2n e.2.sec * 2 ^ 27 + (if e.2.st = .empty then 0 else e.2.shed * 2 ^ 7)

def execShmap (h : Hdr) (d : Dst) (a : Src) (s : State) : Host.Outcome State Fault Refusal :=
  issue (.shmap h d a) s fun x s =>
    let names := dstNames d 1
    let slot (l : Nat) : Nat := fld (x.src a 0 l).val.toNat 5 0
    let sees (l : Nat) : Bool := checkTags [(x.src a 0 l, intTags)] == .good
      && ((s.shedSlot x.core x.w.launch (slot l)).map fun e => e.2.st == .attached).getD false
    let s0 := s.tickStamp
    let pub (l : Nat) : Acqs := ((s.shedSlot x.core x.w.launch (slot l)).map fun e => e.2.pub).getD (0, 0)
    let s1 := (x.act.filter sees).foldl (fun s l => s.setThread (x.ref l) fun t => t.acquire 1 s0.stamp s0.nextId (pub l)) s0
    perLane (.fixed 3) names (fun x l =>
      computed x names l [(x.src a 0 l, intTags)] fun _ =>
        [⟨BitVec.ofNat 32 (s.shmapWord x.core x.w.launch x.w.gstat (slot l)), .i32⟩]) x s1

/-! ### SYNCW (R217, R218) -/

/-- Where a SYNCW acts: a place in a shed, or a page. -/
inductive SyncAddr where
  | pois
  | fault (f : Flt)
  | shed (place : Nat)
  | page (va leaf pa : Nat)
  deriving DecidableEq, Repr

/-- The checks of a SYNCW's address (R217). -/
def State.syncAddr (s : State) (x : Iss) (a : Src) (l : Nat) (scratch : Bool) (off : Int) (store : Bool) : State × SyncAddr :=
  if scratch then
    match s.scratchOf x a l (off * 16) 16 with
    | .pois => (s, .pois)
    | .fault f => (s, .fault f)
    | .ok shed o => (s, .shed (shedPlace (dieOf x.core) shed o))
  else match checkTags [(x.src a 0 l, intTags), (x.src a 1 l, intTags)] with
    | .pois => (s, .pois)
    | .bad field => (s, .fault (.of eTag field))
    | .good => match s.syncTarget (x.ref l) (s.asidOf x.w) (x.ea a l (off * 16)) store with
      | (s, .ok va leaf pa) => (s, .page va leaf pa)
      | (s, .fault f) => (s, .fault f)
      | (s, _) => (s, .pois)

/-- A lane of a SYNCW: the address's own tags, then b's tag, then the rest of the address's checks, then its action, which
is told whether b is POISON. -/
def syncLane (a b : Src) (scratch : Bool) (off : BitVec 8) (store : Bool) (act : Iss → State → Nat → SyncAddr → Bool → State)
    (x : Iss) (s : State) (l : Nat) : State × MemOut :=
  let ob := x.src b 0 l
  let tags := if scratch then [(x.src a 0 l, intTags)] else [(x.src a 0 l, intTags), (x.src a 1 l, intTags)]
  match checkTags tags with
  | .pois => (s, { MemOut.none with pois := true })
  | .bad field => (s, .bad (.of eTag field))
  | .good =>
    if !ob.pois && !ob.ok intTags then (s, .bad (.of eTag ob.field))
    else match s.syncAddr x a l scratch off.toInt store with
      | (s, .fault f) => (s, .bad f)
      | (s, .pois) => (s, { MemOut.none with pois := true })
      | (s, at') => (act x s l at' ob.pois, { MemOut.none with pois := ob.pois })

/-- An access to a sync word at a checked address. -/
def State.syncAcc (s : State) (x : Iss) (l : Nat) (at' : SyncAddr) (kind : AKind) (cls : Cls) : Acc :=
  match at' with
  | .page va leaf pa => s.threadAcc (x.ref l) kind cls .none (s.asidOf x.w) va leaf pa 16
  | .shed place => { s.threadAcc (x.ref l) kind cls .none 0 0 0 0 16 with reach := 1, dev := none, pa := shedPa place }
  | _ => s.threadAcc (x.ref l) kind cls .none 0 0 0 0 16

/-- INIT and ADD on a word: through the warp's store queue; in a shed at once, unless an earlier access of the core to the shed, or what
a release waits for, is outstanding: later accesses to the shed then come after it (R204, R216, R218). -/
def State.syncStore (s : State) (x : Iss) (l : Nat) (at' : SyncAddr) (kind : AKind) (cls : Cls) : State :=
  let a := s.syncAcc x l at' kind cls
  match at' with
  | .shed place =>
    if s.shedBusy (some x.core) [place / 2 ^ 17] s.nextId || (a.releases && !s.gateOk { a with id := s.nextId }) then s.pushAcc a
    else s.performStore a
  | _ => s.pushStore (x.ref l) a

/-- WAIT: the thread waits on an access that completes when the word's generation is reached. -/
def State.syncWait (s : State) (x : Iss) (l : Nat) (at' : SyncAddr) (gen : Nat) : State :=
  let id := s.nextId
  let ticks := (s.die (dieOf x.core)).ticks
  (s.pushAcc (s.syncAcc x l at' (.swWait gen) .acq)).setThread (x.ref l) fun t => { t with st := .sync id, waitSince := ticks }

/-- SYNCW.INIT, SYNCW.ADD and SYNCW.WAIT in some lanes. -/
def syncBody (i : Instr) : Iss → State → Eff :=
  match i with
  | .syncwInit _ a b scratch off => memLanes [] (syncLane a b scratch off true fun x s l at' pois =>
      s.syncStore x l at' (.swInit (x.src b 0 l).val.toNat pois) .rlx)
  | .syncwAdd _ a b scratch off => memLanes [] (syncLane a b scratch off true fun x s l at' pois =>
      s.syncStore x l at' (.swAdd (x.src b 0 l).val.toNat pois) .rel)
  | .syncwWait _ a b scratch off => memLanes [] (syncLane a b scratch off false fun x s l at' pois =>
      if pois then s else s.syncWait x l at' (x.src b 0 l).val.toNat)
  | _ => fun _ s => .go s

/-! ### The passes of a word on sheds (R198, R204) -/

/-- What a word on sheds does in the lanes of a pass; `uni` says whether a uniform result is still to be written. -/
def scratchBody (i : Instr) (uni : Bool) : Iss → State → Eff :=
  match i with
  | .lds h d a w t off => ldsBody h d a w t off uni
  | .sts h d a w off => stsBody h d a w off
  | .ldst h d a t off => ldstBody h d a t off uni
  | i => syncBody i

/-- Whether a uniform result is still to be written after the lanes of a pass (R111). -/
def uniLeft (i : Instr) (x : Iss) (s : State) : Bool :=
  match i with
  | .lds _ _ a w _ off => (uniLane s x a (off.toInt * Width.bytes w) (Width.bytes w)).isNone
  | .ldst _ _ a _ off => (uniLane s x a (off.toInt * 16) 16).isNone
  | _ => false

/-- A word on sheds acts pass by pass: lanes 0 to 31 in the cycle of its issue, the lanes of a later pass in that pass's cycle (R204). -/
def passes (i : Instr) (x : Iss) (s : State) : Eff :=
  let rest := x.act.filter fun l => 32 ≤ l
  let x0 : Iss := { x with act := x.act.filter fun l => l < 32 }
  let e := scratchBody i true x0 s
  if rest.isEmpty then e
  else ⟨e.s.setCore x.core fun k => { k with passes := k.passes ++ [⟨x.warp, x.w.launch, i, x.pc, x.set, rest, x.now, uniLeft i x0 s⟩] }, e.stop⟩

/-- The cycle of the next pass. -/
def PassRest.due (p : PassRest) : Nat := p.issued + p.act.headD 0 / 32

/-- The next pass of a quadrant's word on sheds; a fault breaks the run (R40). -/
def State.runPass (s : State) (c q : Nat) : State :=
  match (s.core c).passes.find? fun p => p.warp / 16 == q && decide (p.due ≤ s.now c) with
  | none => s
  | some p =>
    let n := p.act.headD 0 / 32
    let s0 := s.setCore c fun k => { k with passes := k.passes.filter fun r => !(r == p) }
    match s.warp? c p.warp with
    | none => s0
    | some w =>
      if w.launch ≠ p.launch then s0
      else
        let x : Iss := ⟨c, p.warp, p.set, p.act.filter fun l => l / 32 == n, p.pc, w, p.issued, s.ticket⟩
        let rest := p.act.filter fun l => n < l / 32
        let e := scratchBody p.word p.uni x s0
        let s1 := if rest.isEmpty then e.s
          else e.s.setCore c fun k => { k with passes := k.passes ++ [{ p with act := rest, uni := p.uni && uniLeft p.word x s0 }] }
        if e.stop = .trap then s1.breakRun c p.warp else s1

def execLds (h : Hdr) (d : Dst) (a : Src) (w : Sys2Proof.Width) (t : Tag) (off : BitVec 7) (s : State) :
    Host.Outcome State Fault Refusal :=
  issue (.lds h d a w t off) s (passes (.lds h d a w t off))

def execSts (h : Hdr) (d a : Src) (w : Sys2Proof.Width) (off : BitVec 7) (s : State) : Host.Outcome State Fault Refusal :=
  issue (.sts h d a w off) s (passes (.sts h d a w off))

def execLdst (h : Hdr) (d : Dst) (a : Src) (t : Tag) (off : BitVec 7) (s : State) : Host.Outcome State Fault Refusal :=
  issue (.ldst h d a t off) s (passes (.ldst h d a t off))

/-- SYNCW.INIT (R218); a word in a shed is reached pass by pass. -/
def execSyncwInit (h : Hdr) (a b : Src) (scratch : Bool) (off : BitVec 8) (s : State) : Host.Outcome State Fault Refusal :=
  let i : Instr := .syncwInit h a b scratch off
  issue i s (if scratch then passes i else syncBody i)

def execSyncwAdd (h : Hdr) (a b : Src) (scratch : Bool) (off : BitVec 8) (s : State) : Host.Outcome State Fault Refusal :=
  let i : Instr := .syncwAdd h a b scratch off
  issue i s (if scratch then passes i else syncBody i)

def execSyncwWait (h : Hdr) (a b : Src) (scratch : Bool) (off : BitVec 8) (s : State) : Host.Outcome State Fault Refusal :=
  let i : Instr := .syncwWait h a b scratch off
  issue i s (if scratch then passes i else syncBody i)

end Sys2Proof.Machine
end

