-- ==== Sys2Proof/Machine/Mat.lean ====
section
/-! DEFINITION. Manger slots, tile registers and the matrix engine (R219 to R244), with the arithmetic of MMA (R150 to R152). -/

namespace Sys2Proof.Machine

/-! ### Reading operands (R221, R222) -/

def MSlot.byte (m : MSlot) (off : Nat) : Nat := (mget m.bytes off (0 : Byte)).toNat
def MSlot.sideByte (m : MSlot) (off : Nat) : Nat := (mget m.side off (0 : Byte)).toNat

/-- A slot of a view. -/
def View.slot (v : View) (n : Nat) : MSlot := lget v.slots n ⟨0, .free, [], [], []⟩

/-- The K extent of a tile (R235). -/
def kTile (fa fb : MFmt) (sp : Bool) : Nat :=
  match fa with
  | .bf16 => 64
  | .fp16 => 64
  | .fp32 => 32
  | .int8 => 128
  | _ => if fa = .e2m1 ∧ fb = .e2m1 ∧ !sp then 256 else 128

def nBlocks (fa fb : MFmt) (sp : Bool) : Nat := kTile fa fb sp / 32

/-- Element `k` of line `i` of a slot, as bits. -/
def MSlot.elem (m : MSlot) (f : MFmt) (i k : Nat) : Nat :=
  let base := 128 * i
  match f with
  | .e2m1 => let b := m.byte (base + k / 2); if k % 2 = 0 then b % 16 else b / 16
  | .bf16 => m.byte (base + 2 * k) + 256 * m.byte (base + 2 * k + 1)
  | .fp16 => m.byte (base + 2 * k) + 256 * m.byte (base + 2 * k + 1)
  | .fp32 => m.byte (base + 4 * k) + 256 * m.byte (base + 4 * k + 1) + 65536 * m.byte (base + 4 * k + 2)
      + 16777216 * m.byte (base + 4 * k + 3)
  | _ => m.byte (base + k)

/-- The scale of block `kb` of line `i`; `wide` for the layout of E2M1 without spares. -/
def MSlot.scaleAt (m : MSlot) (wide : Bool) (i kb : Nat) : Nat := m.sideByte (8 * i + (if wide then kb else 2 * kb))

/-- An E2M1 code within its block: 0b1000 is the spare, or −0 with the spare off (R138). -/
def e2m1Val (spare : Option Nat) (code : Nat) : FVal :=
  if code = 8 then
    match spare with
    | some q => if q % 128 = 127 then .zero true else FFmt.e4m3.decode q
    | none => .zero true
  else FFmt.e2m1.decode code

/-- The unscaled value of an element of a block-scaled operand. -/
def MSlot.narrow (m : MSlot) (f : MFmt) (wide : Bool) (i kb k : Nat) : FVal :=
  match f with
  | .e4m3 => FFmt.e4m3.decode (m.elem f i k)
  | .e5m2 => FFmt.e5m2.decode (m.elem f i k)
  | _ => e2m1Val (if wide then none else some (m.sideByte (8 * i + 2 * kb + 1))) (m.elem f i k)

/-- Whether a line holds a marked sector that a command reads (R222, R237). -/
def MSlot.lineMarked (m : MSlot) (half side : Bool) (i : Nat) : Bool :=
  ((upFrom (4 * i) (if half then 2 else 4)).any fun x => m.marks.contains x) || (side && m.marks.contains (512 + i / 4))

/-! ### The arithmetic of one accumulator element (R150 to R152) -/

def f32of (c : Nat) : FVal := FFmt.f32.decode c

/-- One 32-wide block in a block-scaled format. -/
def blockSum (c sa sb : Nat) (ps : List (FVal × FVal)) : Nat :=
  if sa = 255 ∨ sb = 255 then FFmt.nan .f32
  else
    let sum := ps.foldl (fun acc p => FVal.add false acc (FVal.mul p.1 p.2)) (.zero false)
    let scaled : FVal := match sum with
      | .fin s m e => if m = 0 then .zero false else .fin s m (e + ((sa + sb : Nat) : Int) - 254)
      | v => v
    FFmt.f32.round .rn false (FVal.add false (f32of c) scaled)

/-- Truncate a term toward zero to a multiple of 2^u, with a sticky lowest bit (R151). -/
def truncSticky (u : Int) (v : FVal) : FVal :=
  match v with
  | .fin s m e =>
    if u ≤ e then v
    else
      let k := (u - e).toNat
      let q := m / 2 ^ k
      .fin s (if m % 2 ^ k = 0 then q else if q % 2 = 0 then q + 1 else q) u
  | v => v

/-- The position of the leading one bit of a nonzero finite term. -/
def topBit (v : FVal) : Option Int :=
  match v with
  | .fin _ m e => if m = 0 then none else some (e + (Nat.log2 m : Int))
  | _ => none

/-- One group of 8 products in BF16 or FP16. -/
def groupSum (c : Nat) (ps : List (FVal × FVal)) : Nat :=
  let terms := f32of c :: ps.map fun p => FVal.mul p.1 p.2
  let cut := match (terms.filterMap topBit) with
    | [] => terms
    | e :: es => terms.map (truncSticky (es.foldl max e - 40))
  match cut with
  | [] => c
  | t :: ts => FFmt.f32.round .rn false (ts.foldl (FVal.add false) t)

def groupSums (f : FFmt) (a b : Nat → Nat) (k0 : Nat) : Nat → Nat → Nat
  | 0, c => c
  | n + 1, c =>
    let c1 := groupSum c ((upFrom k0 8).map fun k => (f.decode (a k), f.decode (b k)))
    groupSums f a b (k0 + 8) n c1

/-- The accumulator after block `kb`. -/
def mmaElem (a b : MSlot) (fa fb : MFmt) (sp : Bool) (r c kb old : Nat) : Nat :=
  let ks := upFrom (32 * kb) 32
  let wide := kTile fa fb sp == 256
  match fa with
  | .int8 =>
    let s := ks.foldl (fun (acc : Int) k => acc + sintOf 8 (a.elem .int8 r k) * sintOf 8 (b.elem .int8 c k)) 0
    wrapInt 32 ((old : Int) + s)
  | .bf16 => groupSums .bf16 (a.elem .bf16 r) (b.elem .bf16 c) (32 * kb) 4 old
  | .fp16 => groupSums .f16 (a.elem .fp16 r) (b.elem .fp16 c) (32 * kb) 4 old
  | .fp32 => ks.foldl (fun acc k => FFmt.f32.round .rn false
      (FVal.add false (f32of acc) (FVal.mul (f32of (a.elem .fp32 r k)) (f32of (b.elem .fp32 c k))))) old
  | _ => blockSum old (a.scaleAt wide r kb) (b.scaleAt wide c kb)
      (ks.map fun k => (a.narrow fa wide r kb k, b.narrow fb wide c kb k))

/-! ### Tile registers -/

def Tile.elem (t : Tile) (r c : Nat) : Word := mget t.elems (256 * r + c) 0
def Tile.tag (t : Tile) (r : Nat) : Tag := mget t.tags r .fp32
def Tile.setElem (t : Tile) (r c : Nat) (v : Word) : Tile := { t with elems := msetD 0 t.elems (256 * r + c) v }
def Tile.setTag (t : Tile) (r : Nat) (g : Tag) : Tile := { t with tags := msetD .fp32 t.tags r g }

/-- The rows that lanes of a warp own (R225). -/
def ownedRows (width : Nat) (act : List Nat) : List Nat := (upFrom 0 128).filter fun r => act.contains (r % width)

/-- MZERO on one row (R242). -/
def Tile.zeroRow (t : Tile) (r : Nat) (int : Bool) : Tile :=
  Tile.setTag { t with elems := t.elems.filter (fun e => e.1 / 256 != r), taint := mdel t.taint r } r (if int then .i32 else .fp32)

/-- A row derives also from what a TWR wrote to it (R309). -/
def Tile.noteTaint (t : Tile) (r : Nat) (d : Taint) : Tile :=
  if d.isEmpty then t else { t with taint := mset t.taint r (Taint.join (mget t.taint r []) d) }

/-- TWR on one row, as the row stands: the tile, and the poison events (R243). -/
def Tile.writeRow (t : Tile) (cb r : Nat) (src : List Reg) : Tile × Nat :=
  if src.any fun x => x.tag == .poison then (t.setTag r .poison, 1)
  else if t.tag r = .poison then (t, 0)
  else
    let t1 := ((upFrom 0 8).zip src).foldl (fun t p => Tile.setElem t r (8 * cb + p.1) p.2.val) t
    (t1.setTag r ((src.head?.map fun x => x.tag).getD .fp32), 0)

/-! ### Groups' residue modes and PENERR (R240, R241, R244) -/

def resCode : ResMode → Nat
  | .off => 0
  | .count => 1
  | .rerun => 2

/-- The residue mode of a group; ALL keeps its own on each core. -/
def State.resOf (s : State) (core launch h : Nat) : ResMode :=
  if h = allHandle then ((s.viewAny core launch).map fun v => v.allRes).getD .count
  else ((s.group? launch h).map fun g => g.res).getD .count

def State.penErrOf (s : State) (core launch h : Nat) : Bool :=
  if h = allHandle then ((s.viewAny core launch).map fun v => v.allPenErr).getD false
  else ((s.group? launch h).map fun g => g.penErr).getD false

/-- Change the record of a group. -/
def State.setGroup (s : State) (launch h : Nat) (f : Group → Group) : State :=
  if (s.group? launch h).isSome then s.setGtable h fun t => { t with recs := mmod t.recs (handleIndex h) f } else s

def State.setRes (s : State) (core launch h : Nat) (m : ResMode) : State :=
  if h = allHandle then s.modView core launch fun v => { v with allRes := m } else s.setGroup launch h fun g => { g with res := m }

/-- MSTAT clears PENERR. -/
def State.clearPenErr (s : State) (core launch h : Nat) : State :=
  if h = allHandle then s.modView core launch fun v => { v with allPenErr := false }
  else s.setGroup launch h fun g => { g with penErr := false }

/-! ### Claims and releases (R229, R230) -/

/-- The claim of a slot or a tile register among states: the number taken, if any; none if the named one does not exist. -/
def claimPick (sts : List HoldSt) (num : Option Nat) : Option (Option Nat) :=
  match num with
  | some n => match sts[n]? with
    | none => none
    | some st => some (if st == .free then some n else none)
  | none => some (((upFrom 0 sts.length).zip sts).findSome? fun p => if p.2 == .free then some p.1 else none)

def noneFound : Nat := 0xFFFFFFFF

/-- Note an effect that is settled in the cycle after the issue's last pass (R227). -/
def State.settleLater (s : State) (x : Iss) (act : SetAct) : State :=
  (s.setCtx x.core fun k =>
    { k with settles := k.settles ++ [⟨x.now + x.w.width / 32, x.warp, x.w.launch, s.nextId, x.act, act⟩] }).fresh

/-- A claim: its result comes when it is settled. -/
def claimLater (d : Dst) (x : Iss) (act : SetAct) (s : State) : Eff :=
  let names := dstNames d 1
  let s1 := if names.isEmpty then s
    else s.setWarp x.core x.warp fun w => { w with pend := w.pend ++ [⟨s.nextId, names, .claim, []⟩] }
  .go (s1.settleLater x act)

def execMclaim (h : Hdr) (d : Dst) (slot : Option (Fin 64)) (s : State) : Host.Outcome State Fault Refusal :=
  issue (.mclaim h d slot) s (once (dstNames d 1) [] fun x _ s =>
    match s.matrixGroup x with
    | .error e => faultAll (.of e 0) x s
    | .ok _ =>
      if (slot.map fun n => decide ((s.viewOf x).slots.length ≤ n.val)).getD false then faultAll (.of eManger 0) x s
      else claimLater d x (.claimSlot (slot.map fun n => n.val)) s)

def execTclaim (h : Hdr) (d : Dst) (tile : Option (Fin 16)) (s : State) : Host.Outcome State Fault Refusal :=
  issue (.tclaim h d tile) s (once (dstNames d 1) [] fun x _ s =>
    match x.shared with
    | none => faultAll (.of eRole 0) x s
    | some g =>
      if (tile.map fun n => decide ((s.viewOf x).tiles.length ≤ n.val)).getD false then faultAll (.of eManger 0) x s
      else claimLater d x (.claimTile (tile.map fun n => n.val) g) s)

def execMrel (h : Hdr) (a : Src) (s : State) : Host.Outcome State Fault Refusal :=
  issue (.mrel h a) s fun x s =>
    if x.act.isEmpty then .go s
    else match s.matrixGroup x with
      | .error e => faultAll (.of e 0) x s
      | .ok _ => once [] [a] (fun x vs s =>
          let n := vs.headD 0
          if !slotClaimed (s.viewOf x) n then faultAll (.of eManger 0) x s else .go (s.settleLater x (.freeSlot n))) x s

def execTrel (h : Hdr) (a : Src) (s : State) : Host.Outcome State Fault Refusal :=
  issue (.trel h a) s fun x s =>
    if x.act.isEmpty then .go s
    else match x.shared with
      | none => faultAll (.of eRole 0) x s
      | some g => once [] [a] (fun x vs s =>
          let n := vs.headD 0
          if !tileHeld (s.viewOf x) n g then faultAll (.of eManger 0) x s else .go (s.settleLater x (.freeTile n g))) x s

/-! ### Commands (R231, R236, R242, R243) -/

/-- A command of the issuing warp for a group's queue; it counts in MATRIX at its issue (R231, R286). -/
def State.enqueueMat (s : State) (x : Iss) (g tile : Nat) (kind : MKind) : State :=
  let c : MCmd := ⟨s.nextId, x.warp, x.w.launch, tile, kind, 0, []⟩
  (s.setWarp x.core x.warp fun w => w.counted .matrix s.nextId).settleLater x (.queue g c)

def execMzero (h : Hdr) (t : Fin 16) (mask : BitVec 4) (int : Bool) (s : State) : Host.Outcome State Fault Refusal :=
  issue (.mzero h t mask int) s (once [] [] fun x _ s =>
    match s.matrixGroup x with
    | .error e => faultAll (.of e 0) x s
    | .ok g =>
      if !tileHeld (s.viewOf x) t.val g then faultAll (.of eManger 0) x s
      else .go (s.enqueueMat x g t.val (.mzero (mmaRows mask x.act x.w.width) int)))

def execMma (h : Hdr) (g : Fin 3) (t : Fin 16) (ma mb : Fin 64) (fa fb : MFmt) (sp : Bool) (mask : BitVec 4) (pf : Bool)
    (pen : Fin 32) (s : State) : Host.Outcome State Fault Refusal :=
  issue (.mma h g t ma mb fa fb sp mask pf pen) s (once [] [] fun x _ s =>
    match s.mmaCheck x t.val ma.val mb.val with
    | .error e => faultAll (.of e 0) x s
    | .ok gr => .go (s.enqueueMat x gr t.val (.mma ma.val mb.val fa fb sp (mmaRows mask x.act x.w.width) pf pen.val g.val
        (s.resOf x.core x.w.launch gr))))

/-! ### Settling (R227) -/

/-- The queue of a group of a launch. -/
def queueKey (launch g : Nat) : Nat := g * 2 ^ 64 + launch

/-- The handle that a queue's key holds. -/
def keyGroup (key : Nat) : Nat := key / 2 ^ 64

/-- A claim is settled: its result, if it has a register to go to. -/
def State.claimDone (s : State) (core : Nat) (e : Settle) (r : Nat) : State :=
  s.setWarp core e.warp fun w => { w with pend := w.pend.map fun p =>
    if p.id = e.id then { p with src := .ready, vals := p.names.flatMap fun n => match n with
      | .w _ => [⟨n, 0, ⟨BitVec.ofNat 32 r, .i32⟩⟩]
      | _ => e.lanes.map fun l => ⟨n, l, ⟨BitVec.ofNat 32 r, .i32⟩⟩ }
    else p }

/-- An effect takes the state as it finds it (R227): a claim may find nothing, a release may find the slot or tile register released. -/
def State.settleOne (s : State) (core : Nat) (e : Settle) : State :=
  let v := (s.view? core e.launch).getD ⟨[], [], [], [], .count, false⟩
  match e.act with
  | .claimSlot num => (match (claimPick (v.slots.map fun m => m.st) num).bind id with
      | none => s.claimDone core e noneFound
      | some n => (s.setView core e.launch fun v =>
          { v with slots := lmod v.slots n fun m => { m with st := .claimed e.warp } }).claimDone core e n)
  | .claimTile num g => (match (claimPick (v.tiles.map fun m => m.st) num).bind id with
      | none => s.claimDone core e noneFound
      | some n => (s.setView core e.launch fun v =>
          { v with tiles := lmod v.tiles n fun m => { m with st := .claimed g } }).claimDone core e n)
  | .freeSlot n =>
    if slotClaimed v n then (s.setView core e.launch fun v =>
      { v with slots := lmod v.slots n fun m => { m with st := .releasing e.id } }).setCtx core Ctx.settle
    else s
  | .freeTile n g =>
    if tileHeld v n g then (s.setView core e.launch fun v =>
      { v with tiles := lmod v.tiles n fun m => { m with st := .releasing e.id } }).setCtx core Ctx.settle
    else s
  | .queue g c => s.setCtx core fun k =>
      { k with mat := { k.mat with queues := mset k.mat.queues (queueKey e.launch g) (mget k.mat.queues (queueKey e.launch g) [] ++ [c]) } }
  | .mode g m => s.setRes core e.launch g m

/-- The effects due on a core, in ascending order of quadrant. -/
def State.settleCore (s : State) (core : Nat) : State :=
  let now := s.now core
  let due := sortBy (fun e : Settle => e.warp) ((s.core core).ctx.settles.filter fun e => decide (e.due ≤ now))
  due.foldl (fun (s : State) e =>
    (s.setCtx core fun k => { k with settles := k.settles.filter fun f => f.id != e.id }).settleOne core e) s

/-- The row of a lane under a selector, and the column block (R243). -/
def selRow (width l sel : Nat) : Nat := l + width * (fld sel 6 5 % (128 / width))
def selCol (sel : Nat) : Nat := sel % 32

def execTrd (h : Hdr) (d : Dst) (t : Fin 16) (a : Src) (s : State) : Host.Outcome State Fault Refusal :=
  issue (.trd h d t a) s fun x s =>
    let names := dstNames d 8
    if x.act.isEmpty then .go s
    else match x.shared with
      | none => faultAll (.of eRole 0) x s
      | some g =>
        if !tileHeld (s.viewOf x) t.val g then faultAll (.of eManger 0) x s
        else
          let o := x.src a 0 (onceLane x)
          match checkTags [(o, intTags)] with
          | .bad field => faultAll (.of eTag field) x s
          | .pois => s.commit x .var names (x.act.map fun l => (l, .poison x.ticket names l))
          | .good =>
            match d with
            | .v n =>
              let p : Pend := ⟨s.nextId, names, .trd x.w.launch t.val o.val.toNat x.act n.val s.nextId, []⟩
              .go (s.setWarp x.core x.warp fun w => { w with pend := w.pend ++ [p] }).fresh
            | _ => .go s

/-- The eight sources of a lane of TWR. -/
def twrSrc (x : Iss) (a : Src) (l : Nat) : List Reg :=
  (upFrom 0 8).map fun i => let o := x.src a i l; ⟨o.val, o.tag⟩

def execTwr (h : Hdr) (t : Fin 16) (a b : Src) (s : State) : Host.Outcome State Fault Refusal :=
  issue (.twr h t a b) s fun x s =>
    if x.act.isEmpty then .go s
    else match x.shared with
      | none => faultAll (.of eRole 0) x s
      | some g =>
        if !tileHeld (s.viewOf x) t.val g then faultAll (.of eManger 0) x s
        else
          let o := x.src b 0 (onceLane x)
          match checkTags [(o, intTags)] with
          | .bad field => faultAll (.of eTag field) x s
          | .pois => .go (s.poison x.core x.act.length)
          | .good =>
            let sel := o.val.toNat
            let okTags (rs : List Reg) : Bool :=
              rs.any (fun r => r.tag == .poison) || rs.all (fun r => r.tag == .fp32) || rs.all (fun r => r.tag == .i32)
            let bad := x.act.filter fun l => !okTags (twrSrc x a l)
            let rows := (x.act.filter fun l => okTags (twrSrc x a l)).map fun l =>
              (selRow x.w.width l sel, twrSrc x a l, x.derived (.twr h t a b) h l)
            let s1 := if rows.isEmpty then s else s.enqueueMat x g t.val (.twr (selCol sel) rows)
            ⟨s1.takeFaults x bad (.of eTag a.field), if bad.isEmpty then .go else .trap⟩

/-! ### MSTAT and RESMODE (R241, R244) -/

def execResmode (h : Hdr) (m : ResMode) (s : State) : Host.Outcome State Fault Refusal :=
  issue (.resmode h m) s (once [] [] fun x _ s =>
    match s.matrixGroup x with
    | .error e => faultAll (.of e 0) x s
    | .ok g => .go (s.settleLater x (.mode g m)))

/-- The word of MSTAT, for a current group or none. -/
def State.mstatWord (s : State) (x : Iss) (g : Option Nat) : Nat :=
  let k := s.core x.core
  let v := s.viewOf x
  let l := x.w.launch
  let free (l : List HoldSt) : Nat := (l.filter fun st => st == .free).length
  k.mismatch.toNat % 2 ^ 16 * 2 ^ 16 + b2n k.half * 2 ^ 15
    + ((g.map fun h => resCode (s.resOf x.core l h)).getD 0) * 2 ^ 13
    + b2n ((g.map fun h => s.penErrOf x.core l h).getD false) * 2 ^ 12
    + free (v.tiles.map fun t => t.st) * 2 ^ 7 + free (v.slots.map fun m => m.st)

def execMstat (h : Hdr) (d : Dst) (s : State) : Host.Outcome State Fault Refusal :=
  issue (.mstat h d) s fun x s =>
    if x.act.isEmpty then .go s
    else match x.w.currents x.act with
      | [g] =>
        let e := s.giveAll x (dstNames d 1) (s.mstatWord x g)
        (match g with
         | some h => { e with s := e.s.clearPenErr x.core x.w.launch h }
         | none => e)
      | _ => faultAll (.of eRole 0) x s

/-! ### The engine (R232, R237 to R240) -/

/-- The context whose command the core's engine executes: the active one, or an outgoing twin (R448). -/
def State.matCtx (s : State) (core : Nat) : Option Ctx := (s.core core).ctxs.find? fun c => c.mat.cur.isSome

/-- Change that context. -/
def State.modMat (s : State) (core : Nat) (f : Ctx → Ctx) : State :=
  s.mapCtxs core fun c => if c.mat.cur.isSome then f c else c

/-- The tile of a command, in a context. -/
def Ctx.tileOf (c : Ctx) (m : MCmd) : Tile :=
  match mget? c.views m.launch with
  | none => ⟨0, .free, [], [], []⟩
  | some v => lget v.tiles m.tile ⟨0, .free, [], [], []⟩

def Ctx.setTile (c : Ctx) (m : MCmd) (f : Tile → Tile) : Ctx :=
  { c with views := mmod c.views m.launch fun v => { v with tiles := lmod v.tiles m.tile f } }

/-- Whether a command must wait for an earlier command or read of its warp on its tile register (R233). -/
def Ctx.behind (x : Ctx) (m : MCmd) : Bool :=
  (x.matCmds.any fun c => c.warp == m.warp && c.launch == m.launch && c.tile == m.tile && decide (c.id < m.id))
    || (((mget? x.warps m.warp).map fun w => w.launch == m.launch && w.pend.any fun p => decide (p.id < m.id) && (match p.src with
        | .trd l t _ _ _ _ => l == m.launch && t == m.tile
        | _ => false)).getD false)

/-- The next group to serve: ascending handles after the one served last, wrapping (R232), whose oldest command may start. -/
def Ctx.nextMat (x : Ctx) : Option (Nat × MCmd × List MCmd) :=
  let full := x.mat.queues.filterMap fun q => match q.2 with
    | [] => none
    | c :: cs => if x.behind c then none else some (q.1, c, cs)
  match full.find? fun q => decide (x.mat.last < q.1) with
  | some q => some q
  | none => full.head?

/-- Whether the engine of a core can take a command: nothing runs, and no pre-emption stops it (R232, R446). -/
def State.canServe (s : State) (core : Nat) : Bool :=
  let k := s.core core
  (s.matCtx core).isNone && k.preempt.isNone && k.ctx.nextMat.isSome

/-- The end of a command: it is counted, and releases that waited for it complete. -/
def State.matDone (s : State) (core : Nat) (m : MCmd) : State :=
  (s.mapCtxs core fun c =>
    Ctx.settle (if (c.mat.cur.map fun q => q.2.id) = some m.id then { c with mat := { c.mat with cur := none } } else c)).engineDone
    core m.warp m.launch .matrix m.id false

/-- MATRIX_ENGINE_SERVE: the engine takes the oldest command of the next queue; MZERO and TWR are executed whole. -/
def execMatrixEngineServe (core : Nat) (s : State) : Host.Outcome State Fault Refusal :=
  if !s.canServe core then .next s
  else match (s.core core).ctx.nextMat with
    | none => .next s
    | some (g, m, rest) =>
      let s1 := s.setCtx core fun c =>
        { c with mat := { queues := if rest.isEmpty then mdel c.mat.queues g else mset c.mat.queues g rest, last := g,
                          cur := some (g, m), freed := false } }
      match m.kind with
      | .mma .. => .next s1
      | .mzero rows int =>
        .next ((s1.setCtx core fun c => c.setTile m fun t => rows.foldl (fun t r => t.zeroRow r int) t).matDone core m)
      | .twr cb rows =>
        let t0 := (s1.core core).ctx.tileOf m
        let r := rows.foldl (fun (acc : Tile × Nat) p =>
          let q := acc.1.writeRow cb p.1 p.2.1
          (q.1.noteTaint p.1 p.2.2, acc.2 + q.2)) (t0, 0)
        .next (((s1.setCtx core fun c => c.setTile m fun _ => r.1).poison core r.2).matDone core m)

/-- The rows of an MMA that it does not update, decided at its first block: those already POISON, and those whose operands
touch a marked sector (R237). -/
def mmaPoisoned (v : View) (t : Tile) (ma mb : Nat) (fa fb : MFmt) (sp : Bool) (rows : List Nat) : List Nat × List Nat :=
  let narrowHalf (f : MFmt) : Bool := f == .e2m1 && kTile fa fb sp == 128
  let side (f : MFmt) : Bool := f == .e2m1 || f == .e4m3 || f == .e5m2
  let badB := (upFrom 0 2).any fun q => (upFrom 0 128).any fun i => (v.slot (mb + q)).lineMarked (narrowHalf fb) (side fb) i
  let old := rows.filter fun r => t.tag r == .poison
  let fresh := rows.filter fun r => t.tag r != .poison
    && (badB || (v.slot ma).lineMarked (narrowHalf fa) (side fa) r)
  (old, fresh)

/-- A slot with one of its lines alone: what the engine reads of it for that line. -/
def MSlot.line (m : MSlot) (i : Nat) : MSlot :=
  { m with bytes := m.bytes.filter fun p => p.1 / 128 == i, side := m.side.filter fun p => p.1 / 8 == i }

/-- A tile register whose row `r` holds the values `vs`. -/
def Tile.setRow (t : Tile) (r : Nat) (vs : List Word) : Tile :=
  { t with elems := (t.elems.filter fun e => decide (e.1 < 256 * r)) ++ (((upFrom (256 * r) 256).zip vs).filter fun e => e.2 != 0)
      ++ t.elems.filter fun e => decide (256 * r + 256 ≤ e.1) }

/-- A tile register with one of its rows alone. -/
def Tile.row (t : Tile) (r : Nat) : Tile := { t with elems := t.elems.filter fun e => e.1 / 256 == r }

/-- Whether the residue circuit checks the sum of a block for an element (R240): not for a scale of 0xFF, and not for a sum that is NaN
or infinite. -/
def sumChecked (a b : MSlot) (fa fb : MFmt) (sp : Bool) (r c kb : Nat) : Bool :=
  let wide := kTile fa fb sp == 256
  fa == .int8 || (a.scaleAt wide r kb != 255 && b.scaleAt wide c kb != 255 &&
    ((upFrom (32 * kb) 32).all fun k => (match FVal.mul (a.narrow fa wide r kb k) (b.narrow fb wide c kb k) with
      | .fin .. => true
      | _ => false)))

/-- Whether the residue circuit checks any sum of a block of a row set. -/
def blockChecked (v : View) (ma mb : Nat) (fa fb : MFmt) (sp : Bool) (kb : Nat) (rows : List Nat) : Bool :=
  rows.any fun r => (upFrom 0 256).any fun c => sumChecked (v.slot ma) (v.slot (mb + c / 128)) fa fb sp r (c % 128) kb

/-- One block added to a row set; a sum that the residue check found wrong is added as computed, whatever it was. -/
def mmaBlock (v : View) (t : Tile) (ticket : Nat) (wrong : Bool) (ma mb : Nat) (fa fb : MFmt) (sp : Bool) (kb : Nat)
    (rows : List Nat) : Tile :=
  let cols := (upFrom 0 256).map fun c => (c, (v.slot (mb + c / 128)).line (c % 128))
  rows.foldl (fun t r =>
    let a := (v.slot ma).line r
    let old := t.row r
    t.setRow r (cols.map fun p =>
      let x := mmaElem a p.2 fa fb sp r (p.1 % 128) kb (old.elem r p.1).toNat
      let key := 2 ^ 22 + 256 * r + p.1
      if wrong && Config.early ticket key && sumChecked a p.2 fa fb sp r (p.1 % 128) kb then Config.undef ticket key else BitVec.ofNat 32 x)) t

/-- The residue check covers these formats (R240). -/
def residueChecked (f : MFmt) : Bool := f == .e2m1 || f == .e4m3 || f == .e5m2 || f == .int8

/-- Blocks of a command; none for an empty row set (R236). -/
def MCmd.blocks (m : MCmd) : Nat :=
  match m.kind with
  | .mma _ _ fa fb sp rows _ _ _ _ => if rows.isEmpty then 0 else nBlocks fa fb sp
  | _ => 0

/-- Whether a command may stop after `block` blocks (R239). -/
def MCmd.stopsAt (m : MCmd) (block : Nat) : Bool :=
  match m.kind with
  | .mma _ _ _ _ _ _ _ _ gran _ => decide (block < m.blocks) && (gran == 1 || (gran == 2 && block % 8 == 0))
  | _ => false

/-- What one block does to its context, with the poison events and the mismatches counted. -/
def Ctx.mmaStep (c : Ctx) (ticket mismatches : Nat) (m : MCmd) : Ctx × MCmd × Nat × Nat :=
  match m.kind, mget? c.views m.launch with
  | .mma ma mb fa fb sp rows _ _ _ mode, some v =>
    let t0 := c.tileOf m
    -- the first block decides which rows are left out
    let first := if m.block = 0 then mmaPoisoned v t0 ma mb fa fb sp rows else ([], [])
    let t1 := first.2.foldl (fun t r => t.setTag r .poison) t0
    let out0 := m.poisoned ++ first.1 ++ first.2
    let live := rows.filter fun r => !out0.contains r
    let chk := residueChecked fa && mode != .off && decide (1 ≤ mismatches) && blockChecked v ma mb fa fb sp m.block live
    let again := chk && mode == .rerun && decide (2 ≤ mismatches)
    let counted := (chk && mode == .count && decide (1 ≤ mismatches)) || again
    let t2 := if again then live.foldl (fun t r => t.setTag r .poison) t1
      else mmaBlock v t1 ticket (chk && mode == .count && decide (1 ≤ mismatches)) ma mb fa fb sp m.block live
    let last := decide (m.blocks ≤ m.block + 1)
    let t3 := if last && !again then live.foldl (fun t r => t.setTag r (if fa = .int8 then .i32 else .fp32)) t2 else t2
    let m1 := { m with block := m.block + 1, poisoned := if again then out0 ++ live else out0 }
    (c.setTile m fun _ => t3, m1, first.1.length + first.2.length + (if again then live.length else 0), b2n counted)
  | _, _ => (c, { m with block := m.block + 1 }, 0, 0)

/-- MMA_BLOCK_END: a 32-K block's sums are checked and added; `mismatches` is how often the residue check failed. At a stop
point a command that pre-emption wants stops (R239, R446). -/
def execMmaBlockEnd (core mismatches : Nat) (s : State) : Host.Outcome State Fault Refusal :=
  match s.matCtx core with
  | none => .next s
  | some c =>
    match c.mat.cur with
    | none => .next s
    | some (g, m) =>
      if m.blocks ≤ m.block then .next s
      else
        let r := c.mmaStep s.ticket mismatches m
        let m1 := r.2.1
        let parked := (s.core core).ctx.mat.cur.isNone
        let stops := ((s.core core).preempt.isSome || parked) && m1.stopsAt m1.block
        let put (x : Ctx) : Ctx :=
          if stops then { x with mat := { x.mat with cur := none, queues := mset x.mat.queues g (m1 :: mget x.mat.queues g []) } }
          else { x with mat := { x.mat with cur := some (g, m1) } }
        let s1 := (s.modMat core fun _ => put r.1).poison core r.2.2.1
        .next (if r.2.2.2 = 0 then s1 else s1.setCore core fun k => { k with mismatch := k.mismatch + 1 })

/-- Whether an MMA has read its operands and has still to free its box. -/
def Ctx.freeDue (c : Ctx) : Bool :=
  match c.mat.cur with
  | some (_, m) => (match m.kind with
      | .mma _ _ _ _ _ _ pf _ _ _ => decide (m.blocks ≤ m.block) && pf && !c.mat.freed
      | _ => false)
  | none => false

/-- PENERR of the group of a command under way, whose context may be the outgoing twin (R238, R446). -/
def State.setPenErr (s : State) (core launch h : Nat) : State :=
  if h = allHandle then s.modView core launch fun v => { v with allPenErr := true }
  else if handleClass h = 0 then s.modMat core fun x => match mget? x.groups.recs (handleIndex h) with
    | some g => if g.launch = launch ∧ mget x.groups.seqs (handleIndex h) 0 = handleSeq h then
        { x with groups := { x.groups with recs := mset x.groups.recs (handleIndex h) { g with penErr := true } } }
        else x
    | none => x
  else s.setGroup launch h fun g => { g with penErr := true }

/-- MMA_PEN_FREE: the engine frees a box of a core pen of the issuing launch, or sets PENERR (R238); a command of a launch that has
ended frees none (R368). -/
def execMmaPenFree (core : Nat) (s : State) : Host.Outcome State Fault Refusal :=
  match s.matCtx core with
  | none => .next s
  | some c =>
    match c.mat.cur with
    | none => .next s
    | some (g, m) =>
      if !c.freeDue then .next s
      else
        let s1 := s.modMat core fun x => { x with mat := { x.mat with freed := true } }
        match m.kind with
        | .mma _ _ _ _ _ _ _ pen _ _ =>
          if !s.alive m.launch then .next s1
          else (match s1.engineFree core m.launch pen with
           | some s2 => .next (s2.penUsed core 2)
           | none => .next ((s1.setPenErr core m.launch (keyGroup g)).penUsed core 2))
        | _ => .next s1

/-- MMA_COMPLETE: the command completes once its blocks are added and its box is freed. -/
def execMmaComplete (core : Nat) (s : State) : Host.Outcome State Fault Refusal :=
  match s.matCtx core with
  | none => .next s
  | some c =>
    match c.mat.cur with
    | none => .next s
    | some (_, m) => if m.block < m.blocks ∨ c.freeDue then .next s else .next ((s.matDone core m).tileEnd core)

/-- The eight values that a TRD lands in a lane (R243). -/
def trdVals (t : Tile) (width dst sel : Nat) (lanes : List Nat) : List Wb :=
  lanes.flatMap fun l =>
    let r := selRow width l sel
    (upFrom 0 8).map fun i => ⟨.v (dst + i), l, ⟨t.elem r (8 * selCol sel + i), t.tag r⟩⟩

/-- Whether the warp's earlier commands on a tile register are complete (R233). -/
def Ctx.trdReady (c : Ctx) (warp launch tile upto : Nat) : Bool :=
  c.matCmds.all fun m => !(m.warp == warp && m.launch == launch && m.tile == tile && decide (m.id < upto))

end Sys2Proof.Machine
end

