-- ==== Sys2Proof/Machine/Copy.lean ====
section
/-! DEFINITION. The copy engine (R184, R290 to R299, R344): descriptors, the checks at issue, elements, chunks, completion; the
grant of reservations (R186). -/

namespace Sys2Proof.Machine

/-! ### Descriptors (R291) -/

/-- A dimension record. -/
structure Dim where
  ext : Nat
  origin : Int
  bound : Nat
  ss : Int
  ds : Int
  deriving DecidableEq, Repr

/-- A descriptor's fields. -/
structure Desc where
  src : Nat
  dst : Nat
  sync : Nat
  fill : Nat
  side : Bool
  shint : Nat
  pen : Nat
  penen : Bool
  synck : Nat
  oob : Nat
  trans : Bool
  swsrc : Bool
  swz : Nat
  dstk : Nat
  srck : Nat
  esize : Nat
  dims : List Dim
  deriving DecidableEq, Repr

/-- `n` bytes of a descriptor as a number. -/
def dword (bs : List Byte) (off n : Nat) : Nat := numOf ((bs.drop off).take n)

def dimOf (bs : List Byte) (j : Nat) : Dim :=
  let o := 40 + 24 * j
  ⟨dword bs o 4, sintOf 32 (dword bs (o + 4) 4), dword bs (o + 8) 4, sintOf 48 (dword bs (o + 12) 6), sintOf 48 (dword bs (o + 18) 6)⟩

/-- The fields of a descriptor's bytes. -/
def descOf (bs : List Byte) : Desc :=
  let c := dword bs 24 8
  { src := dword bs 0 8, dst := dword bs 8 8, sync := dword bs 16 8, fill := dword bs 32 4, side := bitAt c 31,
    shint := fld c 33 32, pen := fld c 22 22 * 256 + fld c 30 23, penen := bitAt c 21, synck := fld c 20 19, oob := fld c 18 17,
    trans := bitAt c 16, swsrc := bitAt c 15, swz := fld c 14 11, dstk := fld c 10 9, srck := fld c 8 7,
    esize := 2 ^ fld c 2 0, dims := (upFrom 0 (fld c 6 3)).map (dimOf bs) }

def Desc.dim (d : Desc) (j : Nat) : Dim := lget d.dims j ⟨0, 0, 0, 0, 0⟩

/-- The number of elements. -/
def Desc.total (d : Desc) : Nat := d.dims.foldl (fun n x => n * x.ext) 1

/-- Step 3 of R292: whether a descriptor is legal for a form (0 CPY, 1 CPYG, 2 CPYS). -/
def descLegal (bs : List Byte) (form : Nat) (add : Option AddTy) : Bool :=
  let c := dword bs 24 8
  let d := descOf bs
  let nd := fld c 6 3
  fld c 63 36 == 0 && dword bs 36 4 == 0 && fld c 35 34 != 3 && fld c 33 32 != 3 && d.synck != 3 && d.oob != 3
    && decide (d.swz < 4) && d.dstk != 3 && decide (d.srck < 2) && decide (1 ≤ nd) && decide (nd ≤ 9) && decide (fld c 2 0 ≤ 4)
    && ((bs.drop (40 + 24 * nd)).all fun b => b == 0)
    && (d.swz == 0 || (if d.swsrc then d.srck != 0 else d.dstk != 0))
    && (!d.trans || decide (2 ≤ nd)) && (form == 0 || decide (2 ≤ nd))
    && (match add with
        | none => true
        | some ty => d.dstk == 0 && d.esize == (if ty = .u64 then 8 else 4))
    && decide (d.total * d.esize ≤ 2 ^ 48)

/-- Whether a number is a multiple of a unit. -/
def multOf (x : Int) (n : Nat) : Bool := x % (n : Int) == 0

/-- Step 4 of R292. -/
def descAligned (d : Desc) (form idx : Nat) : Bool :=
  d.src % d.esize == 0 && d.dst % d.esize == 0 && (d.dims.all fun x => multOf x.ss d.esize && multOf x.ds d.esize)
    && (form == 0 || idx % 4 == 0) && (d.synck == 0 || d.sync % 16 == 0)

/-- The destination strides, dimensions 0 and 1 exchanged under TRANS (R293). -/
def Desc.dstride (d : Desc) (j : Nat) : Int :=
  (d.dim (if d.trans && j == 0 then 1 else if d.trans && j == 1 then 0 else j)).ds

/-- The coordinates lo to hi of a source dimension that are read; none when there are none. -/
def Desc.srcRange (d : Desc) (form j : Nat) : Option (Int × Int) :=
  let x := d.dim j
  let lo : Int := if form = 1 ∧ j = 1 then 0 else x.origin
  let hi : Int := if form = 1 ∧ j = 1 then (x.bound : Int) - 1 else x.origin + x.ext - 1
  let lo := if d.oob = 2 then lo else max 0 lo
  let hi := if d.oob = 2 then hi else min ((x.bound : Int) - 1) hi
  if lo ≤ hi then some (lo, hi) else none

/-- The same of a destination dimension. -/
def Desc.dstRange (d : Desc) (form j : Nat) : Option (Int × Int) :=
  let x := d.dim j
  let hi : Int := if form = 2 ∧ j = 1 then (x.bound : Int) - 1 else (x.ext : Int) - 1
  if 0 ≤ hi then some (0, hi) else none

/-- The least and the greatest byte address of a side: the base, and for each dimension its coordinates and stride. -/
def sideRange (base : Int) (esize : Nat) : List (Option (Int × Int) × Int) → Option (Int × Int)
  | [] => some (base, base + esize - 1)
  | (r, st) :: l =>
    match r, sideRange base esize l with
    | some (lo, hi), some (a, b) => some (a + min (lo * st) (hi * st), b + max (lo * st) (hi * st))
    | _, _ => none

def Desc.srcSide (d : Desc) (form : Nat) (base : Int) : Option (Int × Int) :=
  sideRange base d.esize ((upFrom 0 d.dims.length).map fun j => (d.srcRange form j, (d.dim j).ss))

def Desc.dstSide (d : Desc) (form : Nat) (base : Int) : Option (Int × Int) :=
  sideRange base d.esize ((upFrom 0 d.dims.length).map fun j => (d.dstRange form j, d.dstride j))

/-- The slots of `span` bytes that a range touches; none when it leaves slots 0 to n − 1. -/
def slotsIn (n span : Nat) (r : Option (Int × Int)) : Option (List Nat) :=
  match r with
  | none => some []
  | some (lo, hi) =>
    if lo < 0 ∨ (n * span : Nat) ≤ hi then none
    else some (upFrom (lo.toNat / span) (hi.toNat / span + 1 - lo.toNat / span))

/-! ### Reads by the issuing thread -/

/-- A read of bytes inside one line, at a leaf and a physical address, as an RLX load of the issuing thread (R293): bytes,
poison marks, or a status. Bytes of another device are outside the model, and may be anything. -/
def State.engineRead (s : State) (core : Nat) (a : Acc) (acq : Nat × Nat) (key : Nat) : State × Except RStat Found :=
  if a.dev.isSome then
    let dead := match a.dev with
      | some d => s.unreachable d (targetStack a.pa)
      | none => false
    if dead then (s, .error .peerLost)
    else match Config.choice s.ticket (2 ^ 30 + key) % 3 with
      | 0 => (s, .error .timeout)
      | 1 => (s, .error .remoteFault)
      | _ => (s, .ok ⟨(bytesOf 4 (Config.undef s.ticket (4 * key)).toNat ++ bytesOf 4 (Config.undef s.ticket (4 * key + 1)).toNat
          ++ bytesOf 4 (Config.undef s.ticket (4 * key + 2)).toNat ++ bytesOf 4 (Config.undef s.ticket (4 * key + 3)).toNat).take a.size,
          List.replicate a.size (Config.early s.ticket (2 ^ 30 + key)), 0⟩)
  else if regionOf a.pa = 2 then
    match blockOf a.pa with
    | some b => (s, .ok ⟨bytesOf 8 (s.regValue b (fld a.pa 35 0)), List.replicate 8 false, 0⟩)
    | none => (s, .error .remoteFault)
  else if !s.homeUp a then (s, .error .timeout)
  else if s.refused a then (s, .error .remoteFault)
  else match linOf a.pa with
    | none => (s, .error .remoteFault)
    | some lin =>
      if a.cacheable then
        let r := s.coreReadFor core a lin acq
        (r.1, .ok (r.1.overlay a r.2))
      else
        let r := s.readHome lin a.size a.key none
        (r.1, .ok (r.1.overlay a ⟨r.2.1, r.2.2, 0⟩))

/-- The acquires of the guard-true threads (R270). -/
def Iss.acq (x : Iss) : Nat × Nat :=
  x.act.foldl (fun m l => match x.w.thread? l with
    | some t => (max m.1 t.acqDie, max m.2 t.acqPkg)
    | none => m) (0, 0)

/-- What reading a descriptor gives: a fault, or its bytes and whether one is poisoned. -/
inductive DescRes where
  | fault (f : Flt)
  | ok (bs : List Byte) (pois : Bool)
  deriving DecidableEq, Repr

/-- What a word's address in these registers and its guard derive from, over the guard-true threads (R309). -/
def Iss.addrNeed (x : Iss) (h : Hdr) (a : Src) (n : Nat) : Nat :=
  x.act.foldl (fun m l => max m (x.w.newest l (x.w.taintOf (srcNames a n ++ predName h.pred) l))) 0

/-- Read `n` 16-byte pieces of a descriptor at a global address (R292): as a load of a class, but E_ABSENT on a non-resident
page. A load that fails at its target reads zeros, and its status is recorded, as any load's is (R323). -/
def State.descGlobal (s : State) (x : Iss) (t : TRef) (cls : Cls) (need : Nat) (asid : Nat) (va : Nat) : Nat → State × DescRes
  | 0 => (s, .ok [] false)
  | n + 1 =>
    match s.target t asid va 16 .load false with
    | (s, .fault f) => (s, .fault f)
    | (s, .absent) => (s, .fault (.at eAbsent va))
    | (s, .pois) => (s, .fault (.at eAbsent va))
    | (s, .ok _ leaf pa) =>
      let a := { s.threadAcc t .pagein cls .none asid va leaf pa 16 with id := s.nextId, lanes := x.act, need := need }
      let r : State × Found := match s.engineRead x.core a x.acq n with
        | (s, .error st) => (s.setThread t fun th => th.failNow st, ⟨List.replicate 16 0, [], 0⟩)
        | (s, .ok f) => (s, f)
      match r.1.descGlobal x t cls need asid (va + 16) n with
      | (s, .ok bs p) => (s, .ok (r.2.bytes ++ bs) (p || r.2.pois.any id))
      | q => q

/-- The address that an engine's operand names. -/
def Iss.descAddr (x : Iss) (a : Src) (inShed : Bool) : Nat :=
  if inShed then (x.src a 0 (onceLane x)).val.toNat else x.pair a (onceLane x)

/-- Read a descriptor of `n` bytes named by a uniform pair, in memory or in a shed. Its alignment is checked later (step 4 of
R292). -/
def State.readDesc (s : State) (x : Iss) (h : Hdr) (a : Src) (inShed : Bool) (n : Nat) : State × DescRes :=
  let va := x.descAddr a inShed
  if inShed then
    match s.scratch x.core x.w.launch va 1 with
    | .fault f => (s, .fault f)
    | .pois => (s, .fault (.at eInvalid va))
    | .ok shed o =>
      let k := dieOf x.core
      let m := min n (2 ^ 16 - o)
      if m = n then (s, .ok (s.shedRead k shed o n) (s.shedMarked k shed o n))
      else match s.scratch x.core x.w.launch (va + m) 1 with
        | .fault f => (s, .fault f)
        | .pois => (s, .fault (.at eInvalid va))
        | .ok shed' o' => (s, .ok (s.shedRead k shed o m ++ s.shedRead k shed' o' (n - m))
            (s.shedMarked k shed o m || s.shedMarked k shed' o' (n - m)))
  else
    let skip := va % 16
    match s.descGlobal x (x.ref (onceLane x)) .rlx (x.addrNeed h a 2) (s.asidOf x.w) (va - skip) ((n + skip + 15) / 16) with
    | (s, .ok bs p) => (s, .ok ((bs.drop skip).take n) p)
    | r => r

/-! ### The issue of a copy command (R292, R344) -/

/-- The slots of a scratch range with the sheds attached to them, or the fault of step 5. -/
def State.resolveSheds (s : State) (core launch : Nat) (slots : List Nat) : Except Flt (List (Nat × Nat)) :=
  let es := slots.map fun n => (n, s.shedSlot core launch n)
  if es.all fun e => match e.2 with
      | some q => s.slotOpen q.2
      | none => false then
    .ok (es.filterMap fun e => e.2.map fun q => (e.1, q.2.shed))
  else .error (.of eDetached 0)

/-- Step 5 of R292 over every shed range of a command. -/
def State.copySheds (s : State) (x : Iss) (d : Desc) (form idx : Nat) (idxShed : Bool) : Except Flt (List (Nat × Nat)) :=
  let n := s.shedCount x.core x.w.launch
  let word (b : Nat) (k : Nat) : Option (Int × Int) := if k = 0 then none else some ((b : Int), (b + k : Nat) - 1)
  let rs : List (Option (List Nat)) :=
    [if d.srck = 1 then slotsIn n 65536 (d.srcSide form ((d.src % 2 ^ 32 : Nat) : Int)) else some [],
     if d.dstk = 1 then slotsIn n 65536 (d.dstSide form ((d.dst % 2 ^ 32 : Nat) : Int)) else some [],
     if d.synck = 2 then slotsIn n 65536 (word (d.sync % 2 ^ 32) 16) else some [],
     if form ≠ 0 ∧ idxShed then slotsIn n 65536 (word (idx % 2 ^ 32) (4 * (d.dim 1).ext)) else some []]
  if rs.any fun r => r.isNone then .error (.of eInvalid 0)
  else s.resolveSheds x.core x.w.launch (rs.flatMap fun r => r.getD []).eraseDups

/-- Step 6 of R292: the manger slots of a destination. -/
def State.copySlots (s : State) (x : Iss) (d : Desc) (form : Nat) : Except Flt (List Nat) :=
  if d.dstk ≠ 2 then .ok []
  else
    let v := s.viewOf x
    match slotsIn v.slots.length (if d.side then 1024 else 16384) (d.dstSide form ((d.dst % 2 ^ 20 : Nat) : Int)) with
    | none => .error (.of eManger 0)
    | some l => if l.all fun n => slotClaimed v n then .ok l else .error (.of eManger 0)

/-- Step 7 of R292: the sync word. -/
def State.copySync (s : State) (x : Iss) (d : Desc) (sheds : List (Nat × Nat)) : State × Except Flt SyncTo :=
  if d.synck = 0 then (s, .ok .none)
  else if d.synck = 2 then
    let addr := d.sync % 2 ^ 32
    match sheds.find? fun p => p.1 == addr / 65536 with
    | some p => (s, .ok (.shed (dieOf x.core) p.2 (addr % 65536)))
    | none => (s, .ok .none)
  else match s.syncTarget (x.ref (onceLane x)) (s.asidOf x.w) d.sync true with
    | (s, .ok _ leaf pa) => (s, .ok (s.syncTo leaf pa (s.core x.core).ctx.sec))
    | (s, .fault f) => (s, .error f)
    | (s, _) => (s, .ok .none)

/-- Bind the oldest CLAIMED box of a pen that carries no bound mark, a fill of it pending or not (R339, R344). -/
def State.bindBox (s : State) (core launch pen : Nat) : State × Option Nat :=
  match s.pen? core launch pen false with
  | none => (s, none)
  | some p =>
    match p.claims.find? fun b => (p.box b).st == .claimed && !(p.box b).bound with
    | none => (s, none)
    | some b => (s.setPen core launch (penName pen) fun p => { p with boxes := lmod p.boxes b fun q => { q with bound := true } }, some b)

/-- The operands of an engine command, each with the registers that it reads: their tags, where POISON too raises E_TAG
(R292). An address in a shed lies in the even half alone (R290). -/
def opTag (x : Iss) (ops : List (Src × Nat)) : Option Flt :=
  let l := onceLane x
  (ops.find? fun a => (upFrom 0 a.2).any fun i => !(x.src a.1 i l).ok intTags).map fun a => .of eTag a.1.field

/-- The issue of CPY, CPYG or CPYS. -/
def copyIssue (h : Hdr) (form gran : Nat) (a b : Src) (si sd ra : Bool) (add : Option AddTy) (x : Iss) (s : State) : Eff :=
  if x.act.isEmpty then .go s
  else
    let fail (s : State) (f : Flt) : Eff := faultAll f x s
    let copyRole := match x.shared with
      | some g => (s.rolesOf x.w.launch g).copy
      | none => false
    if !copyRole then fail s (.of eRole 0)
    else match opTag x ((a, if sd then 1 else 2) :: if form = 0 then [] else [(b, if si then 1 else 2)]) with
      | some f => fail s f
      | none =>
        match s.readDesc x h a sd 256 with
        | (s, .fault f) => fail s f
        | (s, .ok bs pois) =>
          let d := descOf bs
          let idx := if form = 0 then 0 else if si then (x.src b 0 (onceLane x)).val.toNat else x.pair b (onceLane x)
          if pois then fail s (.of eTag a.field)
          else if !descLegal bs form add then fail s (.of eIllegal 0)
          else if x.descAddr a sd % 64 ≠ 0 ∨ !descAligned d form idx then fail s (.of eAlign 0)
          else match s.copySheds x d form idx si with
            | .error f => fail s f
            | .ok sheds =>
              match s.copySlots x d form with
              | .error f => fail s f
              | .ok slots =>
                match s.copySync x d sheds with
                | (s, .error f) => fail s f
                | (s, .ok sync) =>
                  if d.penen && (s.pen? x.core x.w.launch d.pen false).isNone then fail s (.of eInvalid 0)
                  else
                    let bound := if d.penen then s.bindBox x.core x.w.launch d.pen else (s, none)
                    let s1 := bound.1
                    let acq := x.acq
                    let sl := ((x.w.thread? (onceLane x)).map fun t => t.sLevel).getD false
                    let c : CopyCmd :=
                      { id := s1.nextId, warp := x.warp, launch := x.w.launch, lanes := x.act, pc := x.pc, form := form, gran := gran,
                        desc := bs, idxAddr := idx, idxShed := si, add := add, ra := ra, sheds := sheds, slots := slots, pos := 0,
                        marked := false, nonRes := false, penBox := bound.2, filled := false, acqDie := acq.1, acqPkg := acq.2,
                        asid := s1.asidOf x.w, sec := (s1.core x.core).ctx.sec, sLevel := sl, sync := sync, bytes := 0,
                        stopped := true, waitPen := false, wait := none, drawn := 0, cover := [], fault := none }
                    .go ((s1.setCtx x.core fun k => { k with copyQ := k.copyQ ++ [c] }).setWarp x.core x.warp
                      fun w => w.counted .copy c.id).fresh

def execCpy (h : Hdr) (g : Fin 16) (a : Src) (sd : Bool) (s : State) : Host.Outcome State Fault Refusal :=
  issue (.cpy h g a sd) s (copyIssue h 0 g.val a a false sd false none)

def execCpyg (h : Hdr) (g : Fin 16) (a b : Src) (si sd : Bool) (s : State) : Host.Outcome State Fault Refusal :=
  issue (.cpyg h g a b si sd) s (copyIssue h 1 g.val a b si sd false none)

def execCpys (h : Hdr) (g : Fin 16) (a b : Src) (si sd ra add : Bool) (ty : AddTy) (s : State) :
    Host.Outcome State Fault Refusal :=
  issue (.cpys h g a b si sd ra add ty) s (copyIssue h 2 g.val a b si sd ra (if add then some ty else none))

/-! ### Elements (R208, R293, R294, R297) -/

/-- The swizzle of an offset (R208). -/
def swizzle (code o : Nat) : Nat :=
  match code with
  | 1 => o ^^^ (o / 32 % 2 * 16)
  | 2 => o ^^^ (o / 64 % 4 * 16)
  | 3 => o ^^^ (o / 128 % 8 * 16)
  | _ => o

/-- The index tuple of a flat index, dimension 0 fastest. -/
def tupleOf : List Dim → Nat → List Nat
  | [], _ => []
  | d :: ds, f => f % max 1 d.ext :: tupleOf ds (f / max 1 d.ext)

/-- Where an element is written. -/
inductive DPlace where
  | mem (lin key : Nat)
  | shed (shed off : Nat)
  | manger (slot off : Nat)
  /-- a register of region 10 -/
  | reg (b : Block) (off : Nat)
  | away
  deriving DecidableEq, Repr

/-- What an element comes to: nothing is written, it faults, or bytes go to a place. -/
inductive ElOut where
  | skip
  | fault (cls : Nat) (st : RStat) (addr : Nat)
  | put (p : DPlace) (bs : List Byte) (pois : List Bool)
  deriving DecidableEq, Repr

/-- Translate an address for a copy command (R251, R18 to R21); none for a load of a non-resident page. -/
def State.copyXl (s : State) (core : Nat) (c : CopyCmd) (va size : Nat) (k : XKind) (atomic : Bool) :
    State × Except Nat (Option (Nat × Nat)) :=
  match s.translate (.engine core) c.asid va k c.sec with
  | (s, .fault e) => (s, .error e)
  | (s, .absent) => (s, .ok none)
  | (s, .ok leaf pa) => match s.targetFault leaf pa size c.sLevel atomic with
    | some e => (s, .error e)
    | none => (s, .ok (some (leaf, pa)))

/-- What reading a global source gives: the bytes with their marks and whether the page was resident, or a fault. -/
def State.copyRead (s : State) (core : Nat) (c : CopyCmd) (va size key : Nat) :
    State × Except (Nat × RStat) (List Byte × List Bool × Bool) :=
  match s.copyXl core c va size .load false with
  | (s, .error e) => (s, .error (e, .ok))
  | (s, .ok none) => (s, .ok (List.replicate size 0, List.replicate size false, true))
  | (s, .ok (some (leaf, pa))) =>
    let t : TRef := ⟨core, c.warp, c.lanes.headD 0⟩
    let a := { s.threadAcc t .pagein .rlx .none c.asid va leaf pa size with
      id := c.id, lanes := c.lanes, launch := c.launch, secAgent := c.sec,
      hint := if fld (dword c.desc 24 8) 33 32 = 2 then .stream else .none }
    match s.engineRead core a (c.acqDie, c.acqPkg) key with
    | (s, .error st) => (s, .error (eRemote, st))
    | (s, .ok f) => (s, .ok (f.bytes, f.pois, false))

/-- The shed that a scratch address of a command names. -/
def CopyCmd.shedAt (c : CopyCmd) (addr : Nat) : Option Nat := (c.sheds.find? fun p => p.1 == addr / 65536).map fun p => p.2

/-- Bytes of a shed with their marks. -/
def State.shedBytes (s : State) (die shed off n : Nat) : List Byte × List Bool :=
  (s.shedRead die shed off n, (upFrom off n).map fun o => (s.shedOf die shed).marks.contains (o / 4))

/-- Entry `i` of the index list; a non-resident entry reads as zero. -/
def State.indexAt (s : State) (core : Nat) (c : CopyCmd) (i : Nat) : State × Except (Nat × RStat) (Nat × Bool) :=
  if c.form = 0 then (s, .ok (0, false))
  else if c.idxShed then
    let addr := c.idxAddr + 4 * i
    match c.shedAt addr with
    | some sh => (s, .ok (numOf (s.shedRead (dieOf core) sh (addr % 65536) 4), false))
    | none => (s, .ok (0, false))
  else match s.copyRead core c (c.idxAddr + 4 * i) 4 (2 ^ 26 + i) with
    | (s, .error e) => (s, .error e)
    | (s, .ok (bs, _, nr)) => (s, .ok (numOf bs, nr))

/-- The value that an out-of-bounds element takes. -/
def Desc.fillBytes (d : Desc) : List Byte :=
  let v := if d.oob = 1 then d.fill else 0
  ((upFrom 0 4).flatMap fun _ => bytesOf 4 v).take d.esize

/-- Element `f` of a command (R293): what it comes to, and whether it read a non-resident page. A destination at another device may
fail there or get no answer (R298, R323). -/
def State.copyElem (s : State) (core : Nat) (c : CopyCmd) (d : Desc) (f : Nat) : State × ElOut × Bool :=
  let is := tupleOf d.dims f
  let i1 := lget is 1 0
  match s.indexAt core c i1 with
  | (s, .error e) => (s, .fault e.1 e.2 (c.idxAddr + 4 * i1), false)
  | (s, .ok (idx, nr0)) =>
    let js := upFrom 0 d.dims.length
    let coord (j : Nat) : Int := if c.form = 1 ∧ j = 1 then (idx : Int) else (d.dim j).origin + (lget is j 0 : Nat)
    let dcoord (j : Nat) : Int := if c.form = 2 ∧ j = 1 then (idx : Int) else ((lget is j 0 : Nat) : Int)
    let out := d.oob != 2 && js.any fun j => decide (coord j < 0) || decide (((d.dim j).bound : Int) ≤ coord j)
    if c.form = 2 ∧ (out ∨ (d.dim 1).bound ≤ idx) then (s, .skip, nr0)
    else
      let sa := wrapInt 64 ((d.src : Int) + (js.map fun j => coord j * (d.dim j).ss).foldl (· + ·) 0)
      let base := if d.dstk = 2 then d.dst % 2 ^ 20 else d.dst
      let da := wrapInt 64 ((base : Int) + (js.map fun j => dcoord j * d.dstride j).foldl (· + ·) 0)
      -- the value
      let v : State × Except (Nat × RStat) (List Byte × List Bool × Bool) :=
        if out then (s, .ok (d.fillBytes, List.replicate d.esize false, false))
        else if d.srck = 1 then
          let o := sa % 2 ^ 32
          let o := if d.swsrc then swizzle d.swz o else o
          match c.shedAt o with
          | some sh => let r := s.shedBytes (dieOf core) sh (o % 65536) d.esize; (s, .ok (r.1, r.2, false))
          | none => (s, .ok (List.replicate d.esize 0, List.replicate d.esize false, false))
        else s.copyRead core c sa d.esize (f % 2 ^ 20)
      match v with
      | (s, .error e) => (s, .fault e.1 e.2 sa, nr0)
      | (s, .ok (bs, pois, nr1)) =>
        let nr := nr0 || nr1
        match d.dstk with
        | 1 =>
          let o := da % 2 ^ 32
          let o := if d.swsrc then o else swizzle d.swz o
          (match c.shedAt o with
           | some sh => (s, .put (.shed sh (o % 65536)) bs pois, nr)
           | none => (s, .skip, nr))
        | 2 =>
          let o := if d.swsrc then da else swizzle d.swz da
          let span := if d.side then 1024 else 16384
          (s, .put (.manger (o / span) (o % span)) bs pois, nr)
        | _ =>
          match s.copyXl core c da d.esize (if c.add.isSome then .atomic else .store) c.add.isSome with
          | (s, .error e) => (s, .fault e .ok da, nr)
          | (s, .ok none) => (s, .fault eAbsent .ok da, nr)
          | (s, .ok (some (leaf, pa))) =>
            if !s.localDev (pteDev leaf) then
              if s.unreachable (pteDev leaf) (targetStack pa) then (s, .fault eRemote .peerLost da, nr)
              else match Config.choice s.ticket (2 ^ 32 + f) % 3 with
                | 0 => (s, .fault eRemote .timeout da, nr)
                | 1 => (s, .fault eRemote .remoteFault da, nr)
                | _ => (s, .put .away bs pois, nr)
            else match linOf pa with
              | none => (s, .put (match blockOf pa with
                  | some b => .reg b (fld pa 35 0)
                  | none => .away) bs pois, nr)
              | some lin =>
                if !(s.stack (homeOf lin)).alive then (s, .fault eRemote .timeout da, nr)
                else if s.keyRefused (pteKey leaf) c.sec then (s, .fault eRemote .remoteFault da, nr)
                else (s, .put (.mem lin (pteKey leaf)) bs pois, nr)

/-- The elements of the next chunk of at most `room` destination bytes, from flat index `f`: what each comes to, the index
after the last, and whether one read a non-resident page. -/
def State.copyPlan (s : State) (core : Nat) (c : CopyCmd) (d : Desc) : Nat → Nat → Nat → State × List ElOut × Nat × Bool
  | 0, f, _ => (s, [], f, false)
  | fuel + 1, f, room =>
    if room < d.esize then (s, [], f, false)
    else
      let r := s.copyElem core c d f
      let room' := match r.2.1 with
        | .skip => room
        | _ => room - d.esize
      let q := State.copyPlan r.1 core c d fuel (f + 1) room'
      (q.1, r.2.1 :: q.2.1, q.2.2.1, r.2.2 || q.2.2.2)

/-! ### Writing a chunk (R293, R294, R297) -/

/-- A byte on its way to a place: the byte, its mark, its key slot. -/
abbrev PutByte := Byte × Bool × Nat

/-- Add bytes to a map of bytes; of two elements that name one byte, either value stays. -/
def putBytes (ticket : Nat) (m : List (Nat × PutByte)) (a key : Nat) (bs : List Byte) (pois : List Bool) : List (Nat × PutByte) :=
  ((upFrom a bs.length).zip (bs.zip pois)).foldl (fun m p =>
    if (mget? m p.1).isSome && Config.early ticket (2 ^ 31 + p.1) then m else mset m p.1 (p.2.1, p.2.2, key)) m

/-- What a chunk adds to the record of bytes that its command has written with unmarked data, for sectors of `gran` bytes, the
number of a sector counted from `kind`: the record, and the bytes of sectors that are now wholly written but that this chunk writes
in part. A sector that received a marked byte stays out (R222, R297). -/
def coverStep (gran kind : Nat) (m : List (Nat × PutByte)) (cover : List (Nat × Nat)) : List (Nat × Nat) × List Nat :=
  let full := 2 ^ gran - 1
  let secs := (m.map fun p => p.1 / gran).eraseDups
  secs.foldl (fun (q : List (Nat × Nat) × List Nat) sec =>
    let mine := m.filter fun p => p.1 / gran == sec
    let bits := (mine.map fun p => 2 ^ (p.1 % gran)).sum
    let old := mget q.1 (kind + sec) 0
    if (mine.any fun p => p.2.2.1) || decide (full < old) then (mset q.1 (kind + sec) (full + 1), q.2)
    else if bits = full then q
    else
      let new := old ||| bits
      (mset q.1 (kind + sec) new,
       if new = full then q.2 ++ (upFrom 0 gran).filterMap (fun i => if bitAt bits i then none else some (sec * gran + i)) else q.2)) (cover, [])

/-- A chunk's bytes with the bytes of the sectors that its command has now wholly written, at the values that they hold: the sectors
are cleared of their marks (R222, R297). -/
def coverFill (gran kind : Nat) (m : List (Nat × PutByte)) (cover : List (Nat × Nat)) (held : Nat → Byte) :
    List (Nat × Nat) × List (Nat × PutByte) :=
  let q := coverStep gran kind m cover
  (q.1, q.2.foldl (fun m a => mset m a (held a, false, (((m.find? fun p => p.1 / gran == a / gran).map fun p => p.2.2.2).getD 0))) m)

/-- Gather a map of bytes into runs of neighbours within blocks of `span` bytes and under one key: start, key, bytes, marks. -/
def runsOf (span : Nat) : List (Nat × PutByte) → List (Nat × Nat × List Byte × List Bool)
  | [] => []
  | (a, b, p, k) :: m =>
    match runsOf span m with
    | (a', k', bs, ps) :: rs =>
      if a' = a + 1 ∧ k' = k ∧ a / span = a' / span then (a, k, b :: bs, p :: ps) :: rs else (a, k, [b], [p]) :: (a', k', bs, ps) :: rs
    | [] => [(a, k, [b], [p])]

/-- Bytes written at a home slice by an engine of die `k`: the copies of its die cache and of its cores' L1 are updated. -/
def State.copyPut (s : State) (k lin key : Nat) (bs : List Byte) (pois : List Bool) : State :=
  let s1 := (s.writeHome lin key bs pois none).tickStamp
  let line := intOf lin / 128
  let i := lin % 128
  let clean (c : Copy) : Copy :=
    let c1 := c.write i bs pois false
    let keep := (upFrom 0 128).filter fun j => bitAt c1.dirty j && !(decide (i ≤ j) && decide (j < i + bs.length))
    { c1 with dirty := (keep.map fun j => 2 ^ j).sum, upd := s1.stamp }
  let s2 := s1.setDie k fun d => { d with dc := mmod d.dc line clean }
  (upFrom (8 * k) 8).foldl (fun s c => s.setCore c fun x => { x with l1 := mmod x.l1 line fun p => p.write i bs pois false }) s2

/-- Bytes written into a manger slot's data or side area (R222, R297). -/
def MSlot.put (m : MSlot) (side : Bool) (off : Nat) (bs : List Byte) (pois : List Bool) : MSlot :=
  let ins (l : List (Nat × Byte)) : List (Nat × Byte) := ((upFrom off bs.length).zip bs).foldl (fun l p => msetD 0 l p.1 p.2) l
  if side then
    let own := (m.marks.filter fun x => decide (512 ≤ x)).map fun x => x - 512
    let ms := marksStore 32 own off pois
    { m with side := ins m.side, marks := (m.marks.filter fun x => decide (x < 512)) ++ ms.map fun x => x + 512 }
  else
    let own := m.marks.filter fun x => decide (x < 512)
    { m with bytes := ins m.bytes, marks := marksStore 32 own off pois ++ m.marks.filter fun x => decide (512 ≤ x) }

def addAType : AddTy → AType
  | .u32 => .int
  | .u64 => .int
  | .f32 => .f32
  | .f16x2 => .f16x2
  | .bf16x2 => .bf16x2

/-- The lines that an atomic of die `k` at home changes leave the caches of that die. -/
def State.dropLine (s : State) (k lin : Nat) : State :=
  let line := intOf lin / 128
  let s1 := s.flushLine k line
  (upFrom (8 * k) 8).foldl (fun s c => s.setCore c fun x => { x with l1 := mdel x.l1 line }) s1

/-- Additions at one home location that is not marked, up to the first poisoned operand, which marks the sector; those behind it
find the mark (R294, R350, R354). -/
def State.copyAdd (s : State) (k lin key n : Nat) (ty : AType) (ra : Bool) (vals : List (Nat × Bool)) : State :=
  let s0 := s.dropLine k lin
  let r := s0.readHome lin n key none
  let fail (s : State) (m : Nat) : State := (upFrom 0 m).foldl (fun s _ => s.atomFail lin) s
  if r.2.2.any id then fail r.1 vals.length
  else
    let old := numOf r.2.1
    let good := (vals.takeWhile fun v => !v.2).map fun v => v.1
    let new := if ra && ty.isFloat then assocSum ty s.ticket lin good.length (old :: good)
      else good.foldl (fun o v => addElem ty n o v) old
    let s1 := if vals.isEmpty then r.1 else r.1.homeWrite lin key (bytesOf n new) (List.replicate n (decide (good.length < vals.length)))
    fail s1 (vals.length - good.length - 1)

/-- Write the elements of a chunk; `all` says that each is written, otherwise the choice is free, element by element
(R298). Also gives the command's record of sectors written in part. DESIGN CHOICE (log 119): of two elements of one chunk that name
a byte, the value that stays is free (R293); a later chunk's value stays over an earlier chunk's. -/
def State.copyWrite (s : State) (core : Nat) (c : CopyCmd) (d : Desc) (all : Bool) (els : List ElOut) : State × List (Nat × Nat) :=
  let k := dieOf core
  let keep := ((upFrom 0 els.length).zip els).filterMap fun p => match p.2 with
    | .put pl bs pois => if all || Config.early s.ticket (2 ^ 29 + p.1) then some (pl, bs, pois) else none
    | _ => none
  match c.add with
  | some ty =>
    let adds := keep.filterMap fun p => match p.1 with
      | .mem lin key => some (lin, key, numOf p.2.1, p.2.2.any id)
      | _ => none
    ((adds.map fun a => (a.1, a.2.1)).eraseDups.foldl (fun s q =>
      s.copyAdd k q.1 q.2 d.esize (addAType ty) c.ra ((adds.filter fun a => a.1 == q.1 && a.2.1 == q.2).map fun a => (a.2.2.1, a.2.2.2))) s,
     c.cover)
  | none =>
    let mem := keep.foldl (fun m p => match p.1 with
      | .mem lin key => putBytes s.ticket m lin key p.2.1 p.2.2
      | _ => m) []
    let shd := keep.foldl (fun m p => match p.1 with
      | .shed sh off => putBytes s.ticket m (sh * 65536 + off) 0 p.2.1 p.2.2
      | _ => m) []
    let span := if d.side then 1024 else 16384
    let man := keep.foldl (fun m p => match p.1 with
      | .manger sl off => putBytes s.ticket m (sl * span + off) 0 p.2.1 p.2.2
      | _ => m) []
    let s0 := keep.foldl (fun s p => match p.1 with
      | .reg b off => s.regWriteThread b off (numOf p.2.1)
      | _ => s) s
    let slots := ((s.viewAny core c.launch).map fun v => v.slots).getD []
    let fm := coverFill 32 0 mem c.cover fun a => ((s.homeRead a 1 (((mem.find? fun p => p.1 / 32 == a / 32).map fun p => p.2.2.2).getD 0)).1).headD 0
    let fs := coverFill 4 (2 ^ 60) shd fm.1 fun a => (s.shedRead k (a / 65536) (a % 65536) 1).headD 0
    let fg := coverFill 32 (2 ^ 61) man fs.1 fun a => match slots[a / span]? with
      | some m => mget (if d.side then m.side else m.bytes) (a % span) 0
      | none => 0
    let s1 := (runsOf 128 fm.2).foldl (fun s r => s.copyPut k r.1 r.2.1 r.2.2.1 r.2.2.2) s0
    let s2 := (runsOf 65536 fs.2).foldl (fun s r => s.shedWrite k (r.1 / 65536) (r.1 % 65536) r.2.2.1 r.2.2.2) s1
    ((runsOf span fg.2).foldl (fun s r => s.modView core c.launch fun v =>
      { v with slots := lmod v.slots (r.1 / span) fun m => m.put d.side (r.1 % span) r.2.2.1 r.2.2.2 }) s2, fg.1)

/-! ### COPY_CHUNK (R184, R295, R296, R298) -/

/-- Whether a command has moved everything that it will move. -/
def CopyCmd.finished (c : CopyCmd) : Bool := c.fault.isSome || decide ((descOf c.desc).total ≤ c.pos)

/-- The command that the copy engine of a core works on: the one under way, in the active context or an outgoing twin;
else the oldest of the active context, unless a pre-emption is pending (R292, R446, R448). -/
def State.copyHead (s : State) (core : Nat) : Option CopyCmd :=
  let k := s.core core
  match (k.ctxs.flatMap fun c => c.copyQ).find? fun c => !c.stopped && !c.finished with
  | some c => some c
  | none => if k.preempt.isSome then none else k.ctx.copyQ.find? fun c => !c.finished

/-- Change a command of a core, in any context. -/
def State.modCopy (s : State) (core id : Nat) (f : CopyCmd → CopyCmd) : State :=
  s.mapCtxs core fun x => { x with copyQ := x.copyQ.map fun c => if c.id = id then f c else c }

/-- The next chunk of a command: at most 4 KiB of destination bytes, or 2 KiB under granule 1. -/
def State.copyNext (s : State) (core : Nat) (c : CopyCmd) : State × List ElOut × Nat × Bool :=
  let d := descOf c.desc
  s.copyPlan core c d (d.total - c.pos) c.pos (if c.gran = 1 then 2048 else 4096)

/-- The elements of a chunk that count as destination bytes. -/
def putsOf (els : List ElOut) : List ElOut := els.filter fun e => match e with
  | .skip => false
  | _ => true

/-- The bales that the next chunk of a core's command still needs (R184). -/
def State.copyNeed (s : State) (core : Nat) : Option Nat :=
  (s.copyHead core).map fun c =>
    ceilDiv ((putsOf (s.copyNext core c).2.1).length * (descOf c.desc).esize) 64 - c.drawn

/-- The engine's draw for a chunk: paid, or it waits; a wait at another price is another wait (R184, R186). -/
def State.copyDraw (s : State) (core id price : Nat) : State :=
  let s0 := s.setCore core fun k => k.request 4
  if s0.canPay core .copy price then
    (s0.pay core .copy price).modCopy core id fun q => { q with wait := none, drawn := q.drawn + price }
  else
    let same := match s.copyHead core with
      | some q => (match q.wait with
          | some w => w.2 == price
          | none => true)
      | none => true
    let s1 := if same then s0 else s0.setCore core fun k => k.cancelResv .copy
    s1.modCopy core id fun q => { q with wait := some (match q.wait with
      | some w => if w.2 = price then w else (s.now core, price)
      | none => (s.now core, price)) }

/-- COPY_CHUNK: the engine draws what its chunk still needs, writes the chunk and adds it to the sync word; or it waits for bales.
DESIGN CHOICE (log 119): R204 and R295 leave the order of writes open; chunks are written one after another, each whole in one
step. -/
def execCopyChunk (core : Nat) (s : State) : Host.Outcome State Fault Refusal :=
  match s.copyHead core with
  | none => .next s
  | some c =>
    let d := descOf c.desc
    let r := s.copyNext core c
    let els := r.2.1
    let puts := putsOf els
    let bytes := puts.length * d.esize
    let price := ceilDiv bytes 64 - c.drawn
    let s0 := if price = 0 then r.1 else r.1.copyDraw core c.id price
    if !s.canPay core .copy price then .next (s.copyDraw core c.id price)
    else
      let bad := els.findSome? fun e => match e with
        | .fault cls st addr => some (cls, st, addr)
        | _ => none
      let active := !((s.core core).ctx.copyQ.all fun q => q.id != c.id)
      match bad with
      | some f =>
        let w := s0.copyWrite core c d false els
        .next (w.1.modCopy core c.id fun q =>
          { q with fault := some f, nonRes := q.nonRes || r.2.2.2, wait := none, stopped := false, drawn := 0 })
      | none =>
        let pois := puts.any fun e => match e with
          | .put _ _ ps => ps.any id
          | _ => false
        let w := s0.copyWrite core c d true els
        let s2 := w.1.syncAdd c.sync (some (dieOf core)) bytes pois
        let total := c.bytes + bytes
        let stop := ((s.core core).preempt.isSome || !active) && c.gran != 0 && total % (2 ^ c.gran * 1024) == 0
        .next (s2.modCopy core c.id fun q =>
          { q with pos := r.2.2.1, bytes := total, marked := q.marked || pois, nonRes := q.nonRes || r.2.2.2, wait := none,
                   stopped := stop, drawn := 0, cover := w.2 })

/-! ### COPY_COMPLETE (R287, R295, R344) -/

/-- What the fill of an engine's pen box comes to: done, or it waits to claim a box. DESIGN CHOICE (log 125): a bound box that a PFILL
pending at the binding has filled, or is about to fill, is not filled again; R344 fills it as PFILL does, which would fault. -/
def State.engineFill (s : State) (core launch pen cmd : Nat) (bound : Option Nat) : State × Bool :=
  match bound with
  | some b =>
    let bx := (((s.pensOf core launch (penName pen).die)[(penName pen).num]?).map fun p => p.box b).getD ⟨.claimed, false, false⟩
    if bx.st = .claimed ∧ !bx.pend then (s.setBox core launch (penName pen) b true (0, 0), true)
    else (s.setPen core launch (penName pen) fun p => { p with boxes := lmod p.boxes b fun q => { q with bound := false } }, true)
  | none =>
    match s.pen? core launch pen false with
    | none => (s, true)
    | some p =>
      if p.claimQ.isEmpty && p.canClaim then
        let n := penName pen
        ((s.setPen core launch n fun p => p.claimHead true).serve core launch n, true)
      else (s.setPen core launch (penName pen) fun p => { p with claimQ := p.claimQ ++ [.copy core cmd] }, false)

/-- COPY_COMPLETE: a command whose bytes are written fills its pen box, ends its accesses and is counted in order. -/
def execCopyComplete (core id : Nat) (s : State) : Host.Outcome State Fault Refusal :=
  match (((s.core core).ctxs.flatMap fun c => c.copyQ).find? fun c => c.id == id) with
  | none => .next s
  | some c =>
    if !c.finished || (c.waitPen && s.alive c.launch) then .next s
    else
      let d := descOf c.desc
      let fills := d.penen && c.fault.isNone && !c.filled && s.alive c.launch
      let r := if fills then let f := s.engineFill core c.launch d.pen id c.penBox; (f.1.penUsed core 1, f.2) else (s, true)
      if !r.2 then .next (r.1.modCopy core id fun q => { q with waitPen := true })
      else
        let s1 := r.1.mapCtxs core fun x => Ctx.settle { x with copyQ := x.copyQ.filter fun q => q.id != id }
        let s2 := match c.fault with
          | none => s1
          | some f => s1.modWarp core c.warp c.launch fun w => { w with deferred := w.deferred ++ [(⟨.copy, f.1, f.2.1, f.2.2, c.pc, id⟩ : Deferred)] }
        .next (s2.engineDone core c.warp c.launch .copy id c.nonRes)

/-! ### RESERVATION_GRANT (R184, R186, R197) -/

/-- The waits of a core that have lasted 2,048 cycles and hold no reservation, in the order in which they enter the FIFO:
the payer and the amount. -/
def State.dueWaits (s : State) (core : Nat) : List (Payer × Nat) :=
  let k := s.core core
  let now := k.cycles
  let has (p : Payer) : Bool := k.resv.any (fun r => r.who == p) || k.satisfied.any fun r => r.who == p
  let ws := k.ctx.warps.filterMap fun w => match w.2.bwait with
    | some b => if b.start + 2048 ≤ now ∧ !has (.warp w.1) then some (b.start * 128 + w.1, Payer.warp w.1, b.price) else none
    | none => none
  let cs := match s.copyHead core with
    | some c => (match c.wait with
        | some b => if b.1 + 2048 ≤ now ∧ !has .copy then [(b.1 * 128 + 64, Payer.copy, b.2)] else []
        | none => [])
    | none => []
  (sortBy (fun x : Nat × Payer × Nat => x.1) (ws ++ cs)).map fun x => x.2

/-- Whether a stack core's wait has lasted 2,048 cycles. -/
def State.scoreDue (s : State) (n : Nat) : Option Nat :=
  let c := s.score n
  match c.bwait with
  | some b => if b.start + 2048 ≤ (s.stack (n / 4)).scCycles ∧ c.resv.isNone ∧ c.satisfied.isNone then some b.price else none
  | none => none

/-- RESERVATION_GRANT: the first due wait of a core (or of stack core n, as core 64 + n) enters the FIFO, if it has room. -/
def execReservationGrant (core : Nat) (s : State) : Host.Outcome State Fault Refusal :=
  if 64 ≤ core then
    match s.scoreDue (core - 64) with
    | some p => .next (s.setScore (core - 64) fun c => { c with resv := some ⟨.warp 0, p, 0⟩ })
    | none => .next s
  else match s.dueWaits core with
    | [] => .next s
    | w :: _ =>
      if 4 ≤ (s.core core).resv.length then .next s
      else .next (s.setCore core fun k => { k with resv := k.resv ++ [⟨w.1, w.2, 0⟩] })

end Sys2Proof.Machine
end

