-- ==== Sys2Proof/Machine/Coll.lean ====
section
/-! DEFINITION. Collectives (R400 to R404): the issue of COLL, which starts an S-level instance of the Maelyon collective program on
each stack, and its completion at this rank. The instances draw their bales as they run (`State.serveWork`); COLL_COMPLETE makes
their accesses in one step. -/

namespace Sys2Proof.Machine

/-! ### Descriptors (R401) -/

/-- A collective descriptor's fields. -/
structure CDesc where
  src : Nat
  dst : Nat
  sync : Nat
  typ : Nat
  rop : Nat
  pen : Nat
  penen : Bool
  count : Nat
  ranks : Nat
  nrank : Nat
  myrank : Nat
  index : Nat
  row : Nat
  deriving DecidableEq, Repr

def cdescOf (bs : List Byte) : CDesc :=
  let c := dword bs 24 8
  { src := dword bs 0 8, dst := dword bs 8 8, sync := dword bs 16 8, typ := fld c 2 0, rop := fld c 4 3,
    pen := fld c 13 13 * 256 + fld c 12 5, penen := bitAt c 14, count := dword bs 32 8, ranks := dword bs 40 8,
    nrank := dword bs 48 2, myrank := dword bs 50 2, index := dword bs 56 8, row := dword bs 64 4 }

/-- Bytes of an element. -/
def CDesc.esize (d : CDesc) : Nat :=
  match d.typ with
  | 1 => 2
  | 2 => 2
  | 4 => 8
  | 5 => 8
  | _ => 4

/-- Whether an operation moves rows by an index list. -/
def rowOp : CollOp → Bool
  | .gather => true
  | .scatadd => true
  | _ => false

/-- The E_ILLEGAL check of R402. -/
def cdescLegal (bs : List Byte) (op : CollOp) : Bool :=
  let c := dword bs 24 8
  let d := cdescOf bs
  fld c 63 15 == 0 && dword bs 52 4 == 0 && ((bs.drop 68).all fun b => b == 0) && decide (d.typ < 6) && d.rop != 3
    && (!rowOp op || d.nrank == 1)

/-- The E_ALIGN check of R402. -/
def cdescAligned (d : CDesc) (op : CollOp) : Bool :=
  d.src % d.esize == 0 && d.dst % d.esize == 0 && d.sync % 16 == 0 && d.ranks % 2 == 0
    && (!rowOp op || (d.index % 4 == 0 && d.row % d.esize == 0))

/-! ### The accesses of the instances (R382) -/

/-- A fault of an instance: class, status, address. -/
abbrev CFault := Nat × RStat × Nat

/-- Where an access of a stack core lies: a place in memory under a key, a register, or another device. -/
inductive SPlace where
  | mem (lin key : Nat)
  | reg (b : Block) (off : Nat)
  | away (dev pa : Nat)
  deriving DecidableEq, Repr

/-- The checks of R382 on an access of a stack core, beside its alignment. -/
def State.stackXl (s : State) (v : Via) (asid va size : Nat) (k : XKind) (sec sLevel : Bool) : State × Except Nat (Nat × Nat) :=
  match s.translate v asid va k sec with
  | (s, .fault c) => (s, .error c)
  | (s, .absent) => (s, .error eAbsent)
  | (s, .ok leaf pa) =>
    if pteReach leaf < 2 then (s, .error ePerm)
    else match s.targetFault leaf pa size sLevel (k == .atomic) with
      | some c => (s, .error c)
      | none => (s, .ok (leaf, pa))

/-- The place of an access of a collective's instance, or its fault. -/
def State.collPlace (s : State) (c : CollCmd) (va size : Nat) (k : XKind) : State × Except CFault SPlace :=
  match s.stackXl .ctl c.asid va size k c.sec true with
  | (s, .error e) => (s, .error (e, .ok, va))
  | (s, .ok (leaf, pa)) =>
    if !s.localDev (pteDev leaf) then
      (s, if s.unreachable (pteDev leaf) (targetStack pa) then .error (eRemote, .peerLost, va) else .ok (.away (pteDev leaf) pa))
    else match linOf pa with
      | none => (s, match blockOf pa with
        | some b => .ok (.reg b (fld pa 35 0))
        | none => .error (eInvalid, .ok, va))
      | some lin =>
        if !(s.stack (homeOf lin)).alive then (s, .error (eRemote, .timeout, va))
        else if s.keyRefused (pteKey leaf) c.sec then (s, .error (eRemote, .remoteFault, va))
        else (s, .ok (.mem lin (pteKey leaf)))

/-- An element: its value and its mark. -/
abbrev CElem := Nat × Bool

/-- Read an element of `n` bytes; one of another device may be anything. -/
def State.collRead (s : State) (c : CollCmd) (va n : Nat) : State × Except CFault CElem :=
  match s.collPlace c va n .load with
  | (s, .error f) => (s, .error f)
  | (s, .ok (.mem lin key)) =>
    let r := s.readHome lin n key none
    let bad := r.2.2.any id
    -- the loads that read a mark are counted; how many the program makes is not architectural
    let s1 := if bad then r.1.setStack (homeOf lin) fun t =>
        { t with poisonCnt := t.poisonCnt + Config.undef s.ticket (2 ^ 33 + homeOf lin) } else r.1
    (s1, .ok (numOf r.2.1, bad))
  | (s, .ok (.reg b off)) => (s, .ok (s.regValue b off, false))
  | (s, .ok (.away _ _)) => (s, .ok ((Config.undef s.ticket (2 ^ 34 + 2 * va)).toNat
      + 2 ^ 32 * (Config.undef s.ticket (2 ^ 34 + 2 * va + 1)).toNat, Config.early s.ticket (2 ^ 34 + va)))

/-- Write an element at its home. -/
def State.collWrite (s : State) (c : CollCmd) (va n : Nat) (e : CElem) : State × Option CFault :=
  match s.collPlace c va n .store with
  | (s, .error f) => (s, some f)
  | (s, .ok (.mem lin key)) =>
    ((s.dropLine (dieOf c.core) lin).writeHome lin key (bytesOf n e.1) (List.replicate n e.2) none, none)
  | (s, .ok (.reg b off)) => (s.regWriteScore b off e.1, none)
  | (s, .ok (.away _ _)) => (s, none)

/-! ### The reductions (R403) -/

/-- One combination of two elements in their own type, rounded once. -/
def combine (typ rop a b : Nat) : Nat :=
  let fp (f : FFmt) : Nat :=
    match rop with
    | 1 => minMaxCode f false false a b
    | 2 => minMaxCode f true false a b
    | _ => f.round .rn false (FVal.add false (f.decode a) (f.decode b))
  let int (w : Nat) : Nat :=
    match rop with
    | 1 => if sintOf w b < sintOf w a then b else a
    | 2 => if sintOf w a < sintOf w b then b else a
    | _ => (a + b) % 2 ^ w
  match typ with
  | 0 => fp .f32
  | 1 => fp .bf16
  | 2 => fp .f16
  | 3 => int 32
  | 4 => int 64
  | _ => fp .f64

/-- A value in one format as a value in another, rounded once. -/
def reround (f g : FFmt) (a : Nat) : Nat := g.round .rn false (f.decode a)

/-- The reduction of the ranks' elements in ascending rank: sums of bf16 and f16 accumulate in FP32. -/
def reduce (typ rop : Nat) (l : List Nat) : Nat :=
  match l with
  | [] => 0
  | a :: as =>
    if rop = 0 ∧ (typ = 1 ∨ typ = 2) then
      let f : FFmt := if typ = 1 then .bf16 else .f16
      reround .f32 f (as.foldl (fun acc b => FFmt.f32.round .rn false (FVal.add false (FFmt.f32.decode acc) (f.decode b)))
        (reround f .f32 a))
    else as.foldl (combine typ rop) a

/-! ### The work of a collective -/

/-- Element `i` of what a peer of rank `r` delivered; what it has not delivered may be anything. -/
def peerElem (ticket myrank n : Nat) (peers : List (List (Byte × Bool))) (r i : Nat) : CElem :=
  let p := lget peers (if r < myrank then r else r - 1) []
  let bs := (p.drop (n * i)).take n
  if bs.length = n then (numOf (bs.map fun b => b.1), bs.any fun b => b.2)
  else ((Config.undef ticket (2 ^ 66 * r + 2 * i)).toNat + 2 ^ 32 * (Config.undef ticket (2 ^ 66 * r + 2 * i + 1)).toNat, false)

/-- Run a list of element moves until one faults; `on` says that the others go on beside it, and the first fault stays. -/
def State.collEach (s : State) (on : Bool) (f : State → Nat → State × Option CFault) : List Nat → State × Option CFault
  | [] => (s, none)
  | i :: is =>
    match f s i with
    | (s, some e) => if on then ((s.collEach on f is).1, some e) else (s, some e)
    | (s, none) => s.collEach on f is

/-- Put an element at its destination; when the command fails each destination byte is old or new, as the Veger chooses. -/
def State.collPut (s : State) (c : CollCmd) (all : Bool) (va n : Nat) (e : CElem) : State × Option CFault :=
  if all then s.collWrite c va n e
  else match s.collRead c va n with
    | (s, .error f) => (s, some f)
    | (s, .ok old) =>
      let pick (i : Nat) : Byte := if Config.early s.ticket (2 ^ 35 + va + i) then BitVec.ofNat 8 (e.1 / 256 ^ i) else BitVec.ofNat 8 (old.1 / 256 ^ i)
      s.collWrite c va n (numOf ((upFrom 0 n).map pick), old.2 || e.2)

/-- The elements of a collective, each put at its destination. -/
def State.collRun (s : State) (c : CollCmd) (d : CDesc) (all : Bool) (peers : List (List (Byte × Bool))) : State × Option CFault :=
  let n := d.esize
  let one (src : Nat) (f : State → CElem → State × Option CFault) (s : State) : State × Option CFault :=
    match s.collRead c (src % 2 ^ 64) n with
    | (s, .error e) => (s, some e)
    | (s, .ok v) => f s v
  let ranked (mine : CElem) (i : Nat) : List CElem :=
    (upFrom 0 d.nrank).map fun r => if r = d.myrank then mine else peerElem s.ticket d.myrank n peers r i
  let red (base : Nat) : State × Option CFault :=
    s.collEach (!all) (fun s i => one (d.src + n * (base + i)) (fun s mine =>
      let vs := ranked mine i
      s.collPut c all ((d.dst + n * i) % 2 ^ 64) n (reduce d.typ d.rop (vs.map fun v => v.1), vs.any fun v => v.2)) s) (upFrom 0 d.count)
  match c.op with
  | .allreduce => red 0
  | .redscat => red (d.myrank * d.count)
  | .allgather =>
    s.collEach (!all) (fun s i => one (d.src + n * i) (fun s mine =>
      let vs := ranked mine i
      s.collEach (!all) (fun s r => s.collPut c all ((d.dst + n * (r * d.count + i)) % 2 ^ 64) n (lget vs r (0, false))) (upFrom 0 d.nrank)) s)
      (upFrom 0 d.count)
  | op =>
    s.collEach (!all) (fun s i =>
      match s.collRead c ((d.index + 4 * i) % 2 ^ 64) 4 with
      | (s, .error e) => (s, some e)
      | (s, .ok idx) =>
        s.collEach (!all) (fun s j =>
          let far := idx.1 * d.row + n * j
          let near := i * d.row + n * j
          if op = .gather then
            one (d.src + far) (fun s v => s.collPut c all ((d.dst + near) % 2 ^ 64) n v) s
          else one (d.src + near) (fun s v => one (d.dst + far) (fun s old =>
            s.collPut c all ((d.dst + far) % 2 ^ 64) n (combine d.typ d.rop old.1 v.1, old.2 || v.2)) s) s) (upFrom 0 (d.row / n)))
      (upFrom 0 d.count)

/-- The rank table: a fault, or whether this rank's entry names this device. -/
def State.collRanks (s : State) (c : CollCmd) (d : CDesc) : State × Option CFault :=
  if rowOp c.op then (s, none)
  else s.collEach false (fun s r =>
    match s.collRead c ((d.ranks + 2 * r) % 2 ^ 64) 2 with
    | (s, .error e) => (s, some e)
    | (s, .ok v) => (s, if r = d.myrank && !s.localDev v.1 then some (eRemote, .remoteFault, 0) else none)) (upFrom 0 d.nrank)

/-! ### The instances (R185, R402) -/

/-- The destination addresses of the elements that a collective reduces: each update of a .scatadd is one. -/
def State.collReduced (s : State) (c : CollCmd) (d : CDesc) : List Nat :=
  let n := d.esize
  match c.op with
  | .allreduce | .redscat => (upFrom 0 d.count).map fun i => (d.dst + n * i) % 2 ^ 64
  | .allgather | .gather => []
  | .scatadd => (upFrom 0 d.count).flatMap fun i =>
    match (s.collRead c ((d.index + 4 * i) % 2 ^ 64) 4).2 with
    | .ok idx => (upFrom 0 (d.row / n)).map fun j => (d.dst + idx.1 * d.row + n * j) % 2 ^ 64
    | .error _ => []

/-- The bales that the instance on a stack draws: one for each 64 bytes reduced, the destination elements homed on its stack. -/
def State.collBales (s : State) (c : CollCmd) (d : CDesc) (k : Nat) : Nat :=
  let here := (s.collReduced c d).filter fun va => match (s.collPlace c va d.esize .store).2 with
    | .ok (.mem lin _) => homeOf lin == k
    | _ => false
  ceilDiv (here.length * d.esize) 64

/-- The control die starts the collective program: one S-level instance on a stack core of each stack. -/
def State.startColl (s : State) (c : CollCmd) : State :=
  let d := cdescOf c.desc
  (upFrom 0 16).foldl (fun (t : State) k =>
    t.startServe k (Inst.maelyon (.coll c.id (s.collBales c d k)) c.launch c.asid (((s.launch? c.launch).map fun l => l.part).getD 0) c.sec)) s

/-- Whether an instance serves a collective. -/
def Inst.forColl (id : Nat) (i : Inst) : Bool := match i.serve with
  | some (.coll n _) => n == id
  | _ => false

/-- Whether every instance of a collective runs and has drawn its bales, so that it may end. -/
def State.collDrawn (s : State) (id : Nat) : Bool :=
  s.scores.all fun k => !(k.queue.any fun i => i.forColl id) && (match k.run with
    | some i => !i.forColl id || i.serve == some (.coll id 0)
    | none => true)

/-- The instances of a collective end. -/
def State.endColl (s : State) (id : Nat) : State :=
  { s with scores := s.scores.map fun (k : SCore) =>
      let k1 : SCore := { k with queue := k.queue.filter fun i => !i.forColl id }
      if (k.run.map fun i => i.forColl id).getD false then
        (SCore.freeSlots { k1 with run := none, bwait := none }).cancelResv else k1 }

/-- The record of the fault of an instance of a collective: it names the stack core and the class; its PC is the Maelyon program's
(R374). -/
def State.collFault (s : State) (c : CollCmd) (cls : Nat) : State :=
  let on := (upFrom 0 64).filter fun n => ((s.score n).run.map fun i => i.forColl c.id).getD false
  let n := lget on (Config.choice s.ticket (2 ^ 37) % max 1 on.length) 0
  s.event 2 cls (((s.launch? c.launch).map fun l => l.part).getD 0) 3 n (s.stack (n / 4)).ticks (Config.choice s.ticket (2 ^ 37 + 1))
    (Config.choice s.ticket (2 ^ 37 + 2))

/-- The unit that SYNC receives; an address that faults receives none. -/
def State.collSync (s : State) (c : CollCmd) (d : CDesc) (pois : Bool) : State :=
  if d.sync = 0 then s
  else match s.stackXl .ctl c.asid d.sync 16 .store c.sec true with
    | (s, .ok (leaf, pa)) =>
      let s1 := match linOf pa with
        | some lin => s.flushLine (dieOf c.core) (intOf lin / 128)
        | none => s
      s1.syncAdd (s1.syncTo leaf pa c.sec) none 1 pois
    | (s, .error _) => s

def State.modColl (s : State) (id : Nat) (f : CollCmd → CollCmd) : State :=
  { s with colls := s.colls.map fun c => if c.id = id then f c else c }

/-! ### COLL (R400, R402) -/

/-- The issue of a collective. -/
def collIssue (h : Hdr) (gran : Nat) (a b : Src) (op : CollOp) (x : Iss) (s : State) : Eff :=
  if x.act.isEmpty then .go s
  else
    let copyRole := match x.shared with
      | some g => (s.rolesOf x.w.launch g).copy
      | none => false
    if !copyRole then faultAll (.of eRole 0) x s
    else match opTag x [(a, 2), (b, 1)] with
      | some f => faultAll f x s
      | none =>
        match s.readDesc x h a false 128 with
        | (s, .fault f) => faultAll f x s
        | (s, .ok bs pois) =>
          let d := cdescOf bs
          if pois then faultAll (.of eTag a.field) x s
          else if !cdescLegal bs op then faultAll (.of eIllegal 0) x s
          else if x.descAddr a false % 64 ≠ 0 ∨ !cdescAligned d op then faultAll (.of eAlign 0) x s
          else if d.nrank < 1 ∨ 256 < d.nrank ∨ d.nrank ≤ d.myrank then faultAll (.of eInvalid 0) x s
          else if d.penen && (s.pen? x.core x.w.launch d.pen false).isNone then faultAll (.of eInvalid 0) x s
          else
            let bound := if d.penen then s.bindBox x.core x.w.launch d.pen else (s, none)
            let s1 := bound.1
            let c : CollCmd :=
              { id := s1.nextId, core := x.core, warp := x.warp, launch := x.w.launch, lanes := x.act, pc := x.pc, op := op,
                gran := gran, key := (x.src b 0 (onceLane x)).val.toNat, desc := bs, asid := s1.asidOf x.w,
                sec := (s1.core x.core).ctx.sec, penBox := bound.2, done := false, waitPen := false, filled := false,
                fault := none }
            .go (({ s1 with colls := s1.colls ++ [c] }.setWarp x.core x.warp fun w => w.counted .coll c.id).fresh.startColl c)

def execColl (h : Hdr) (g : Fin 16) (a b : Src) (op : CollOp) (s : State) : Host.Outcome State Fault Refusal :=
  issue (.coll h g a b op) s (collIssue h g.val a b op)

/-! ### COLL_COMPLETE (R404) -/

/-- COLL_COMPLETE: every instance here has ended and every rank has delivered what this rank needs (`peers`, in rank order and
without this rank), or the command has failed. The results are written, SYNC receives its unit, a pen box is filled and the
command is counted (R404). -/
def execCollComplete (core warp id : Nat) (peers : List (List (Byte × Bool))) (fail : Option RStat) (s : State) :
    Host.Outcome State Fault Refusal :=
  match s.colls.find? fun c => c.id == id && c.core == core && c.warp == warp with
  | none => .next s
  | some c =>
    let d := cdescOf c.desc
    let bad := fail.filter fun st => st != .ok
    let enough := rowOp c.op || (peers.length + 1 == d.nrank && peers.all fun p => p.length == d.count * d.esize)
    if (c.waitPen && s.alive c.launch) then .next s
    else if !c.done && bad.isNone && (!enough || !s.collDrawn id) then .next s
    else
      let work : State × CollCmd :=
        if c.done then (s, c)
        else
          let r := match s.collRanks c d with
            | (s, some e) => (s.collFault c e.1, some e)
            | (s, none) => match bad with
              | some st => ((s.collRun c d false peers).1, some (eRemote, st, 0))
              | none => match s.collRun c d true peers with
                | (s', none) => (s', none)
                | (_, some e) => ((s.collRun c d false peers).1.collFault c e.1, some e)
          let s1 := (r.1.endColl id).collSync c d r.2.isSome
          let c1 := { c with done := true, fault := r.2 }
          (s1.modColl id fun _ => c1, c1)
      let s1 := work.1
      let c1 := work.2
      let fills := d.penen && c1.fault.isNone && !c1.filled && s1.alive c1.launch
      let r := if fills then s1.engineFill core c1.launch d.pen id c1.penBox else (s1, true)
      if !r.2 then .next (r.1.modColl id fun q => { q with waitPen := true })
      else
        let s2 := { r.1 with colls := r.1.colls.filter fun q => q.id != id }
        let s3 := match c1.fault with
          | none => s2
          | some f => s2.modWarp core warp c1.launch fun w =>
              { w with deferred := w.deferred ++ [(⟨.coll, f.1, f.2.1, f.2.2, c1.pc, id⟩ : Deferred)] }
        .next (s3.engineDone core warp c1.launch .coll id false)

end Sys2Proof.Machine
end

