-- ==== Sys2Proof/Machine/Launch.lean ====
section
/-! DEFINITION. Launch packets and queues, the scheduler, the dispatchers, the retirement of warps and the end of launches (R78 to
R80, R99, R107, R110, R201, R219, R223, R336, R356 to R369), and LAUNCH with the landing of variable-latency results
(R44, R361, R362). -/

namespace Sys2Proof

/-- The status of a launch (R368). -/
def LStat.code : LStat → Nat
  | .ok => 0
  | .poisoned => 1
  | .dieLost => 2
  | .stackLost => 3
  | .fault => 4

/-- The reference of a thread whose warp has gone: no warp has the number, and what is under way stays in its order. -/
def TRef.gone (t : TRef) : TRef := { t with warp := t.warp + 64 }

end Sys2Proof

namespace Sys2Proof.Machine

/-! ### Packets (R356) -/

/-- A launch packet's fields. -/
structure LPkt where
  entry : Nat
  arg : Nat
  esheds : Nat
  prio : Nat
  level : Bool
  widthc : Nat
  grid : Nat
  stks : Nat
  dpens : Nat
  cpens : Nat
  tiles : Nat
  manger : Nat
  sheds : Nat
  wregs : Nat
  vregs : Nat
  dep0 : Nat
  dep1 : Nat
  done : Nat
  gen0 : Nat
  gen1 : Nat
  deriving DecidableEq, Repr

def lpktOf (bs : List Byte) : LPkt :=
  let c := dword bs 16 8
  let r := dword bs 24 8
  { entry := dword bs 0 8, arg := dword bs 8 8, esheds := fld c 52 46, prio := fld c 45 43, level := bitAt c 42, widthc := fld c 41 40,
    grid := fld c 39 0, stks := fld r 63 48, dpens := fld r 42 34, cpens := fld r 33 28, tiles := fld r 27 23, manger := fld r 22 16,
    sheds := fld r 15 9, wregs := fld r 8 5, vregs := fld r 4 0, dep0 := dword bs 32 8, dep1 := dword bs 40 8,
    done := dword bs 48 8, gen0 := dword bs 56 4, gen1 := dword bs 60 4 }

/-- The stacks that a packet names. -/
def LPkt.named (p : LPkt) : List Nat := (upFrom 0 16).filter fun s => p.stks == 0 || bitAt p.stks s

/-- Whether R356 accepts a packet. -/
def lpktOk (bs : List Byte) : Bool :=
  let p := lpktOf bs
  let c := dword bs 16 8
  let r := dword bs 24 8
  bs.length == 64 && fld p.entry 63 55 == 0 && fld c 63 53 == 0 && decide (1 ≤ p.grid)
    && p.dep0 % 16 == 0 && p.dep1 % 16 == 0 && p.done % 16 == 0
    && (if p.level then
          p.entry % 4 == 0 && p.widthc == 0 && p.esheds == 0 && fld r 47 0 == 0 && decide (p.grid ≤ 4 * p.named.length)
        else
          p.entry % 8 == 0 && p.widthc != 3 && decide (p.esheds ≤ p.sheds) && p.stks == 0 && fld r 47 43 == 0
            && decide (p.dpens ≤ 256) && decide (p.cpens ≤ 32) && decide (p.tiles ≤ 16) && decide (p.manger ≤ 64)
            && decide (p.sheds ≤ 64) && decide (p.wregs ≤ 8) && decide (1 ≤ p.vregs) && decide (p.vregs ≤ 20))

/-! ### Appends (R357, R359, R360) -/

def appOk : Nat := 0
def appFull : Nat := 1
def appDenied : Nat := 2
def appDisabled : Nat := 3
def appBadPacket : Nat := 4
def appTimeout : Nat := 5
def appPeerLost : Nat := 6

/-- Whether an entry of the access-control table lets an append through (R359). -/
def aclMatch (s : State) (e : Nat) (src : Appender) (part queue : Nat) : Bool :=
  bitAt e 63 && fld e 13 8 == part && (bitAt e 6 || fld e 5 0 == queue) &&
    match src with
    | .grooms => true
    | .host => bitAt e 40
    | .peer dev p =>
      !bitAt e 40 && (fld e 59 48 == dev || (s.localDev (fld e 59 48) && s.localDev dev)) && (bitAt e 41 || fld e 47 42 == p)

/-- Whether the table admits an append. -/
def State.admits (s : State) (src : Appender) (part queue : Nat) : Bool :=
  (match src with
   | .grooms => true
   | .host => false
   | .peer dev p => s.localDev dev && p == part) || s.ctl.acl.any fun e => aclMatch s e.2.toNat src part queue

/-- One append, decided by the first row of R360 that applies: the status and the packet's sequence number. -/
def State.append (s : State) (src : Appender) (part queue : Nat) (pkt : List Byte) : State × Nat × Nat :=
  let n := 64 * part + queue
  let q := s.ctl.queueOf n
  let st :=
    if s.ctl.boot ≠ .ready ∨ 64 ≤ part ∨ 64 ≤ queue ∨ !q.en then appDisabled
    else if !s.admits src part queue then appDenied
    else if !lpktOk pkt then appBadPacket
    else if 256 ≤ q.waiting.length then appFull
    else appOk
  let put (q : Queue) : State := s.setCtl fun k => { k with queues := mset k.queues n q }
  if 64 ≤ part ∨ 64 ≤ queue then (s, st, 0)
  else if st ≠ appOk then (put { q with lastst := st, refused := min 65535 (q.refused + 1) }, st, 0)
  else
    let w : Waiting := { pkt := pkt, seq := q.nextSeq, host := (match src with
                           | .host => true
                           | _ => false),
                         tick := s.ctl.ticks, order := s.ctl.order, rise := 0, passed := 0, overdue := false, ready := false,
                         polled := 0 }
    let s1 := put { q with lastst := appOk, waiting := q.waiting ++ [w], nextSeq := (q.nextSeq + 1) % 2 ^ 32 }
    (s1.setCtl fun k => { k with order := k.order + 1 }, appOk, q.nextSeq)

/-- LAUNCH_APPEND: an append by a thread of another device, the host or the grooms. -/
def execLaunchAppend (src : Appender) (part queue : Nat) (packet : List Byte) (s : State) : Host.Outcome State Fault Refusal :=
  .next (if s.ctl.alive then (s.append src part queue packet).1 else s)

/-! ### Accesses of the control die in an address space (R363, R368) -/

/-- Where a sync word that the control die reads or adds to lies, or the fault; a load of a non-resident page faults. The
control die is secure (R460). -/
def State.ctlSync (s : State) (asid va : Nat) (store : Bool) : State × Except Nat (Nat × Nat) :=
  match s.translate .ctl asid va (if store then .store else .load) true with
  | (s, .fault c) => (s, .error c)
  | (s, .absent) => (s, .error eAbsent)
  | (s, .ok leaf pa) => match s.targetFault leaf pa 16 true false with
    | some c => (s, .error c)
    | none => (s, .ok (leaf, pa))

/-- Whether one dependence is reached; a word of another device may be or not. -/
def State.depReached (s : State) (asid va gen : Nat) : State × Except Nat Bool :=
  if va = 0 then (s, .ok true)
  else match s.ctlSync asid va false with
    | (s, .error c) => (s, .error c)
    | (s, .ok (leaf, pa)) =>
      if !s.localDev (pteDev leaf) then (s, .ok (Config.early s.ticket (2 ^ 38 + va)))
      else match linOf pa with
        | none => (s, .ok false)
        | some lin =>
          if !(s.stack (homeOf lin)).alive || s.keyRefused (pteKey leaf) true then (s, .ok false)
          else
            let r := s.readHome lin 16 (pteKey leaf) none
            (r.1, .ok ((SyncW.ofBytes r.2.1).reached gen))

/-- Both dependences of a packet. -/
def State.depsReached (s : State) (asid : Nat) (p : LPkt) : State × Except Nat Bool :=
  match s.depReached asid p.dep0 p.gen0 with
  | (s, .error c) => (s, .error c)
  | (s, .ok a) => match s.depReached asid p.dep1 p.gen1 with
    | (s, .error c) => (s, .error c)
    | (s, .ok b) => (s, .ok (a && b))

/-! ### The end of a launch on its queue (R368) -/


/-- Add one unit to DONE; an address that faults gets none, and a record says so. -/
def State.addDone (s : State) (part queue seq asid done : Nat) (pois : Bool) : State :=
  if done = 0 then s
  else match s.ctlSync asid done true with
    | (s, .ok (leaf, pa)) =>
      let s1 := match linOf pa with
        | some lin => (upFrom 0 8).foldl (fun (s : State) k => s.flushLine k (intOf lin / 128)) s
        | none => s
      s1.syncAdd (s1.syncTo leaf pa (s.asidRec asid).sec) none 1 pois
    | (s, .error c) => s.event 0x0A c part 6 queue s.ctl.ticks done (seq * 2 ^ 32)

/-- Record the end of a launch: the completion register, DONE, the event record, the host's vector (R368, R432, R455). -/
def State.reportEnd (s : State) (part queue seq asid done : Nat) (host : Bool) (st : LStat) (fcode : Nat) : State :=
  let n := 64 * part + queue
  let s1 := s.setCtl fun k =>
    { k with queues := mset k.queues n { k.queueOf n with
        compSeq := seq, compFcode := (if st = .fault then fcode else 0), compStatus := st.code } }
  let s2 := s1.addDone part queue seq asid done (st != .ok)
  let s3 := s2.event 1 st.code part 6 queue s2.ctl.ticks 0 (seq * 2 ^ 32 + queue)
  if host then s3.setCtl fun k => k.msix 2 else s3

/-- Change the queue of a partition. -/
def State.modQueue (s : State) (part queue : Nat) (f : Queue → Queue) : State :=
  let n := 64 * part + queue
  s.setCtl fun k => { k with queues := mset k.queues n (f (k.queueOf n)) }

/-- The oldest waiting packet of a queue: its candidate (R363). -/
def State.head? (s : State) (part queue : Nat) : Option Waiting := (s.ctl.queueOf (64 * part + queue)).waiting.head?

/-- Change the candidate of a queue. -/
def State.modHead (s : State) (part queue : Nat) (f : Waiting → Waiting) : State :=
  s.modQueue part queue fun q => { q with waiting := lmod q.waiting 0 f }

/-- The whole 2^20 ticks since a packet's append. -/
def State.risen (s : State) (w : Waiting) : Nat := (s.ctl.ticks - w.tick) / 2 ^ 20

/-- The candidate of a queue leaves it, and the next packet becomes the candidate, its wait counted (R363, R364). -/
def State.dropHead (s : State) (part queue : Nat) : State :=
  (s.modQueue part queue fun q => { q with waiting := q.waiting.drop 1 }).modHead part queue fun w => { w with rise := s.risen w }

/-- DEPENDENCE_POLL: the control die reads the dependences of a candidate; one that faults ends the launch before it starts
(R363). -/
def execDependencePoll (part queue : Nat) (s : State) : Host.Outcome State Fault Refusal :=
  match s.head? part queue with
  | none => .next s
  | some w =>
    let p := lpktOf w.pkt
    let asid := (s.ctl.queueOf (64 * part + queue)).asid
    match s.depsReached asid p with
    | (s, .ok b) => .next (s.modHead part queue fun w => { w with ready := b, polled := s.ctl.ticks })
    | (s, .error c) => .next ((s.dropHead part queue).reportEnd part queue w.seq asid p.done w.host .fault c)

/-- Whether the dependences of a candidate are to be read: they have not been in this tick of the control die (R363). -/
def State.pollDue (s : State) (w : Waiting) : Bool := s.ctl.alive && w.polled != s.ctl.ticks

/-! ### Priorities (R364) -/

/-- PRIORITY_RISE: a candidate's effective priority rises with its wait. -/
def execPriorityRise (part queue : Nat) (s : State) : Host.Outcome State Fault Refusal :=
  .next (s.modHead part queue fun w => { w with rise := s.risen w })

/-- PASSOVER_EXPIRY: a candidate has been passed over for 2^20 ticks in all. -/
def execPassoverExpiry (part queue : Nat) (s : State) : Host.Outcome State Fault Refusal :=
  .next (s.modHead part queue fun w => if 2 ^ 20 ≤ w.passed then { w with overdue := true } else w)

/-- The effective priority of a candidate. -/
def Waiting.effPrio (w : Waiting) : Nat := min 7 ((lpktOf w.pkt).prio + w.rise)

/-- The ready candidates in rank order: partition, queue, packet. -/
def State.ranked (s : State) : List (Nat × Nat × Waiting) :=
  let cs := s.ctl.queues.filterMap fun q => match q.2.waiting.head? with
    | some w => if w.ready then some (q.1 / 64, q.1 % 64, w) else none
    | none => none
  sortBy (fun c : Nat × Nat × Waiting => ((7 - c.2.2.effPrio) * 2 ^ 64 + c.2.2.order) * 2 ^ 12 + c.1 * 64 + c.2.1) cs

/-! ### Capacity (R107, R201, R219, R223, R336, R365) -/

/-- What a launch asks of a core and of a die. -/
structure Ask where
  launch : Nat
  part : Nat
  sec : Bool
  width : Nat
  vregs : Nat
  uregs : Nat
  sheds : Nat
  esheds : Nat
  manger : Nat
  tiles : Nat
  cpens : Nat
  dpens : Nat
  deriving DecidableEq, Repr

/-- Whether a dispatcher may place warps of a launch on a core (R358, R448, R460). -/
def State.coreOpen (s : State) (a : Ask) (c : Nat) : Bool :=
  let k := s.core c
  (s.die (dieOf c)).st == .up && k.enabled && s.ctl.cpart? c == some a.part && k.preempt.isNone
    && (k.ctx.warps.isEmpty || k.ctx.sec == a.sec)

/-- The physical shed map entries of a core that no launch holds. -/
def State.freeEntries (s : State) (c : Nat) : List Nat :=
  (upFrom 0 64).filter fun e => (mget? (s.die (dieOf c)).shedMap (c % 8 * 64 + e)).isNone

/-- The sheds of a die's pool. -/
def freeSheds (d : Die) : List Nat :=
  let held := d.shedMap.filterMap fun e => if e.2.st = .empty then none else some e.2.shed
  (upFrom 0 512).filter fun n => !held.contains n

/-- What no launch of the active context holds. -/
def freeOf (n : Nat) (held : List Nat) : List Nat := (upFrom 0 n).filter fun i => !held.contains i

def Ctx.freeSlots (x : Ctx) : List Nat := freeOf 64 (x.views.flatMap fun v => v.2.slots.map fun m => m.phys)
def Ctx.freeTiles (x : Ctx) : List Nat := freeOf 16 (x.views.flatMap fun v => v.2.tiles.map fun t => t.phys)
def Ctx.freePens (x : Ctx) : List Nat := freeOf 32 (x.views.flatMap fun v => v.2.pens.map fun p => p.phys)
def freeDiePens (d : Die) : List Nat := freeOf 256 (d.pens.flatMap fun v => v.2.map fun p => p.phys)

/-- Whether a launch's resources on a core are held or can be allotted, with `sheds` left in the pool. -/
def State.coreFits (s : State) (a : Ask) (c sheds : Nat) : Bool :=
  let x := (s.core c).ctx
  (mget? x.views a.launch).isSome
    || (decide (a.sheds ≤ (s.freeEntries c).length) && decide (a.sheds - a.esheds ≤ sheds) && decide (a.manger ≤ x.freeSlots.length)
      && decide (a.tiles ≤ x.freeTiles.length) && decide (a.cpens ≤ x.freePens.length))

/-- How many more warps of a launch a quadrant takes (R107). -/
def State.quadRoom (s : State) (a : Ask) (c quad : Nat) : Nat :=
  let ws := (s.core c).ctx.warps.filter fun w => w.1 / 16 == quad
  let v := (ws.map fun w => w.2.vregs * (w.2.width / 32)).sum
  let u := (ws.map fun w => w.2.uregs).sum
  let room := min (16 - ws.length) ((4096 - v) / max 1 (a.vregs * (a.width / 32)))
  if a.uregs = 0 then room else min room ((512 - u) / a.uregs)

/-- The cores of a die in the dispatcher's rotation (R366). -/
def State.rotation (s : State) (k : Nat) : List Nat :=
  (upFrom 0 8).map fun i => 8 * k + ((s.die k).dispatchCore + i) % 8

/-- Whether a launch's die pens are held or can be allotted. -/
def State.dieFits (s : State) (a : Ask) (k : Nat) : Bool :=
  (mget? (s.die k).pens a.launch).isSome || decide (a.dpens ≤ (freeDiePens (s.die k)).length)

/-- The number of threads of a launch that a die's dispatcher could admit (R365). -/
def State.capacity (s : State) (a : Ask) (k : Nat) : Nat :=
  if (s.die k).st ≠ .up || !s.dieFits a k then 0
  else
    ((s.rotation k).foldl (fun (acc : Nat × Nat) c =>
      if !s.coreOpen a c || !s.coreFits a c acc.2 then acc
      else
        let n := ((upFrom 0 4).map fun q => s.quadRoom a c q).sum
        if n = 0 then acc
        else (acc.1 + n * a.width, acc.2 - (if (mget? (s.core c).ctx.views a.launch).isSome then 0 else a.sheds - a.esheds)))
      (0, (freeSheds (s.die k)).length)).1

/-- The split of [lo, hi) over dies with these capacities (R365): die, first and end. -/
def splitGrid (caps : List Nat) (lo hi : Nat) : List (Nat × Nat × Nat) :=
  let g := ceilDiv (hi - lo) 1024
  let c := caps.sum
  let ks := (upFrom 0 caps.length).filter fun k => decide (0 < lget caps k 0)
  let share (k : Nat) : Nat := g * lget caps k 0 / c
  let left := g - (ks.map share).sum
  let m := ks.length
  let all := ((upFrom 0 m).zip ks).map fun p => (p.2, share p.2 + left / m + (if p.1 < left % m then 1 else 0))
  (all.foldl (fun (acc : Nat × List (Nat × Nat × Nat)) p =>
    let a := lo + 1024 * acc.1
    let b := min hi (lo + 1024 * (acc.1 + p.2))
    (acc.1 + p.2, if a < b then acc.2 ++ [(p.1, a, b)] else acc.2)) (0, [])).2

def Launch.ask (l : Launch) : Ask :=
  ⟨l.id, l.part, l.sec, l.width, l.vregs, l.uregs, l.sheds, l.esheds, l.manger, l.tiles, l.cpens, l.dpens⟩

/-- Give parts of a grid to the dies. -/
def State.addRanges (s : State) (l : Nat) (rs : List (Nat × Nat × Nat)) : State :=
  rs.foldl (fun s r => s.setDie r.1 fun d => { d with ranges := d.ranges ++ [⟨l, r.2.1, r.2.2⟩] }) s

/-- The waiting parts of launches that lost a die are split once some die has room (R369). -/
def State.resplit (s : State) : State :=
  s.launches.foldl (fun s p =>
    if p.2.waitingPart.isEmpty || p.2.ended.isSome then s
    else
      let caps := (upFrom 0 8).map fun k => s.capacity p.2.ask k
      if caps.sum = 0 then s
      else (p.2.waitingPart.foldl (fun s w => s.addRanges p.1 (splitGrid caps w.1 w.2)) s).setLaunch p.1 fun l =>
        { l with waitingPart := [] }) s

/-! ### The scheduler (R364, R365, R367, R461) -/

/-- Whether a secure launch may start in a partition (R461). -/
def State.worldOk (s : State) (part : Nat) (sec : Bool) : Bool :=
  let r := mget s.ctl.saves part ⟨0, 0, false, false⟩
  !sec || (r.sec && (match s.keyOf r.key with
    | some k => k.sec
    | none => true))

/-- The launch that a candidate would be. -/
def State.launchOf (s : State) (part queue : Nat) (w : Waiting) : Launch :=
  let p := lpktOf w.pkt
  let q := s.ctl.queueOf (64 * part + queue)
  { id := s.nextLaunch, part := part, queue := queue, seq := w.seq, asid := q.asid, sec := (s.asidRec q.asid).sec,
    stackLevel := p.level, entry := p.entry, arg := BitVec.ofNat 64 p.arg, width := 32 * 2 ^ p.widthc, vregs := 32 * p.vregs,
    uregs := 8 * p.wregs, sheds := p.sheds, esheds := p.esheds, manger := p.manger, tiles := p.tiles, cpens := p.cpens,
    dpens := p.dpens, grid := p.grid, prio := w.effPrio, order := s.nextLaunch, done := p.done, host := w.host,
    admitted := if p.level then p.grid else 0, live := if p.level then p.grid else 0, poisoned := false, waitingPart := [],
    ended := none }

/-- Whether a candidate can start: its world, and room on some die; a stack-level packet always starts (R365, R367, R461). -/
def State.canStart (s : State) (part queue : Nat) (w : Waiting) : Bool :=
  let l := s.launchOf part queue w
  s.worldOk part l.sec && (l.stackLevel || (upFrom 0 8).any fun k => decide (0 < s.capacity l.ask k))

/-- The instances of a stack-level launch, with their stack cores (R367, R373). -/
def State.instances (s : State) (l : Launch) (p : LPkt) : List (Nat × Inst) :=
  (upFrom 0 p.grid).map fun j =>
    (4 * lget p.named (j / 4) 0 + j % 4,
      { serve := none, launch := l.id, idx := j, ninst := p.grid, arg := l.arg, asid := l.asid, part := l.part, sec := l.sec, sLevel := false,
        pc := l.entry, g := [], gm := [], h := [], hm := [], k := [], loft := [], loftm := [], rerrCount := 0, rerrStat := 0,
        fails := [], late := [], pendG := [], pendH := [], marking := [], started := s.nextId + j, halting := false, slot := 0 })

/-- Start a candidate: it leaves its queue. -/
def State.startLaunch (s : State) (part queue : Nat) (w : Waiting) : State :=
  let l := s.launchOf part queue w
  let s2 := { s.dropHead part queue with launches := mset s.launches l.id l, nextLaunch := s.nextLaunch + 1 }
  if l.stackLevel then
    let is := s2.instances l (lpktOf w.pkt)
    { is.foldl (fun s i => s.setScore i.1 fun k => { k with queue := k.queue ++ [i.2] }) s2 with nextId := s2.nextId + l.grid }
  else s2.addRanges l.id (splitGrid ((upFrom 0 8).map fun k => s.capacity l.ask k) 0 l.grid)

/-- The candidate that the scheduler starts: the first in rank order that can start and is not behind an overdue one of its
partition. -/
def State.nextStart (s : State) : Option (Nat × Nat × Waiting) :=
  let rs := s.ranked
  let ok := ((upFrom 0 rs.length).zip rs).find? fun c =>
    s.canStart c.2.1 c.2.2.1 c.2.2.2
      && !((rs.take c.1).any fun o => o.1 == c.2.1 && o.2.2.overdue)
  ok.map fun c => c.2

/-- SCHEDULER_START: the first ready candidate that can start starts. -/
def execSchedulerStart (s : State) : Host.Outcome State Fault Refusal :=
  if s.ctl.boot ≠ .ready || !s.ctl.alive then .next s
  else
    let s1 := s.resplit
    match s1.nextStart with
    | none => .next s1
    | some c => .next (s1.startLaunch c.1 c.2.1 c.2.2)

/-! ### The dispatchers (R79, R80, R110, R200, R201, R219, R223, R336, R366) -/

/-- A thread at admission (R110); each begins after an acquire (R362). -/
def Thread.new (l : Launch) (tid stamp ticks : Nat) : Thread :=
  let x := BitVec.ofNat 32 tid ^^^ (0x9E3779B9 : Word)
  { pc := l.entry, sLevel := false, st := if tid < l.grid then .ready else .exited, epc := 0, fault := 0, tid := tid,
    seed := if x = 0 then 1 else x, rerrCount := 0, rerrStat := 0, groups := [], lastIssue := 0, acqDie := stamp, acqPkg := stamp,
    fails := [], late := [], hbUpto := 0, lastPage := none, waitSince := ticks }

/-- A warp at admission (R79, R110). -/
def Warp.new (l : Launch) (base now stamp ticks : Nat) : Warp :=
  let arg := l.arg.toNat
  { width := l.width, launch := l.id, vregs := l.vregs, uregs := l.uregs, v := [],
    w := if 8 ≤ l.uregs then [(0, ⟨BitVec.ofNat 32 arg, .i32⟩), (1, ⟨BitVec.ofNat 32 (arg / 2 ^ 32), .i32⟩)] else [],
    p := [], fresh := [], taint := [], pend := [], threads := (upFrom base l.width).map fun t => Thread.new l t stamp ticks,
    esc := 0, readyAt := now, nextIssue := now, run := none, ties := [], sq := [], copyOut := [], matOut := [], collOut := [],
    deferred := [], nonRes := false, gstat := 7, phase := 0, sbcheck := false, held := false, bwait := none }

/-- `n` members of a list, chosen by the Veger, in the list's order. -/
def pickN (ticket key : Nat) : Nat → List Nat → List Nat
  | 0, _ => []
  | n + 1, l =>
    match pickOf ticket (key + n) l with
    | none => []
    | some x => insertBy id x (pickN ticket key n (l.filter fun y => y != x))

/-- Allot what a launch holds on a core, at its first warp there. Which of the sheds taken from the pool each ATTACHED slot receives is
open (DESIGN CHOICE, log 118): ascending sheds go to ascending slots. -/
def State.allotCore (s : State) (l : Launch) (c : Nat) : State :=
  let x := (s.core c).ctx
  if (mget? x.views l.id).isSome then s
  else
    let k := dieOf c
    let es := pickN s.ticket (2 ^ 39) l.sheds (s.freeEntries c)
    let sheds := pickN s.ticket (2 ^ 40) (l.sheds - l.esheds) (freeSheds (s.die k))
    let lid := mget (s.die k).lids l.id 0
    let entry (i : Nat) : ShEntry :=
      if i < l.sheds - l.esheds then ⟨lid, .attached, false, l.sec, lget sheds i 0, 0, (0, 0)⟩ else ⟨lid, .empty, false, false, 0, 0, (0, 0)⟩
    let pen (p : Nat) : Pen := { phys := p, boxes := [], cp := 0, tp := 0, claimQ := [], takeQ := [], order := [], claims := [], pub := [] }
    let v : View :=
      { sheds := es, slots := (x.freeSlots.take l.manger).map fun p => ⟨p, .free, [], [], []⟩,
        tiles := (x.freeTiles.take l.tiles).map fun p => ⟨p, .free, [], [], []⟩, pens := (x.freePens.take l.cpens).map pen,
        allRes := .count, allPenErr := false }
    let s1 := s.setDie k fun d =>
      { d with shedMap := ((upFrom 0 es.length).zip es).foldl (fun m p => mset m (c % 8 * 64 + p.2) (entry p.1)) d.shedMap,
               sheds := sheds.foldl (fun m n => mdel m n) d.sheds }
    s1.setCtx c fun x => { x with views := mset x.views l.id v }

/-- Allot what a launch holds on a die, at its first warp there: its identifier and its die pens. -/
def State.allotDie (s : State) (l : Launch) (k : Nat) : State :=
  let d := s.die k
  if (mget? d.lids l.id).isSome then s
  else
    let used := d.lids.map fun p => p.2
    let lid := (((upFrom 1 65535).map fun i => (d.lastLid + i) % 2 ^ 16).find? fun n => n != 0 && !used.contains n).getD 1
    let pens := ((freeDiePens d).take l.dpens).map fun p =>
      ({ phys := p, boxes := [], cp := 0, tp := 0, claimQ := [], takeQ := [], order := [], claims := [], pub := [] } : Pen)
    s.setDie k fun d => { d with lids := mset d.lids l.id lid, lastLid := lid, pens := mset d.pens l.id pens }

/-- Where the next warp of a launch goes on a die: the core and the quadrant. -/
def State.placeWarp (s : State) (a : Ask) (k : Nat) : Option (Nat × Nat) :=
  if !s.dieFits a k then none
  else
    let pool := (freeSheds (s.die k)).length
    (s.rotation k).findSome? fun c =>
      if !s.coreOpen a c || !s.coreFits a c pool then none
      else ((upFrom 0 4).find? fun q => decide (0 < s.quadRoom a c q)).map fun q => (c, q)

/-- The ranges of a die in the order in which its dispatcher serves them: the place of each in the list. -/
def State.served (s : State) (k : Nat) : List (Range × Launch) :=
  let rs := (s.die k).ranges.filterMap fun r => (s.launch? r.launch).bind fun l => if l.ended.isSome then none else some (r, l)
  let firsts := rs.filter fun r => !(rs.any fun q => q.1.launch == r.1.launch && decide (q.1.lo < r.1.lo))
  sortBy (fun r : Range × Launch => (7 - r.2.prio) * 2 ^ 64 + r.2.order) firsts

/-- The warp that a die's dispatcher admits next: its range, core and quadrant. -/
def State.nextAdmission (s : State) (k : Nat) : Option (Range × Launch × Nat × Nat) :=
  if (s.die k).st ≠ .up then none
  else (s.served k).findSome? fun r => (s.placeWarp r.2.ask k).map fun p => (r.1, r.2, p.1, p.2)

/-- Take the first warp off a range. -/
def shrink (rs : List Range) (r : Range) (w : Nat) : List Range :=
  rs.filterMap fun q => if q = r then (if r.lo + w < r.hi then some { r with lo := r.lo + w } else none) else some q

/-- WARP_ADMISSION: a die's dispatcher admits a warp whole (R366). -/
def execWarpAdmission (die : Nat) (s : State) : Host.Outcome State Fault Refusal :=
  match s.nextAdmission die with
  | none => .next s
  | some (r, l, c, quad) =>
    let used := (s.core c).ctx.warps.map fun w => w.1
    let free := (upFrom (16 * quad) 16).filter fun n => !used.contains n
    match pickOf s.ticket (2 ^ 41) free with
    | none => .next s
    | some n =>
      let s1 := ((s.tickStamp.allotDie l die).allotCore l c)
      let w := Warp.new l r.lo (s.now c) s1.stamp (s.die die).ticks
      let s2 := s1.setCtx c fun x =>
        { x with warps := mset x.warps n w, sec := if x.warps.isEmpty then l.sec else x.sec, part := some l.part }
      let s3 := s2.setDie die fun d => { d with ranges := shrink d.ranges r l.width, dispatchCore := (c + 1) % 8 }
      .next (s3.setLaunch l.id fun y => { y with admitted := y.admitted + (min l.grid (r.lo + l.width) - r.lo), live := y.live + 1 })

/-! ### Retirement (R99, R220, R298) -/

/-- Whether a launch has nothing more to run: its end is OK, or POISONED (R368). -/
def State.tryEnd (s : State) (l : Nat) : State :=
  match s.launch? l with
  | none => s
  | some x =>
    if x.ended.isNone && decide (x.grid ≤ x.admitted) && x.live == 0 then
      s.endLaunch l (if x.poisoned then .poisoned else .ok) 0
    else s

/-- Whether a resident warp may retire (R99). -/
def State.retirable (s : State) (core warp : Nat) (w : Warp) : Bool :=
  w.threads.all Thread.isExited && w.copyOut.isEmpty && w.matOut.isEmpty && w.collOut.isEmpty && w.sq.isEmpty
    && !((s.die (dieOf core)).gives.any fun g => g.core == core && g.warp == warp && g.launch == w.launch)


/-- What a warp leaves under way is no longer any resident warp's. -/
def State.orphan (s : State) (core warp launch : Nat) : State :=
  let hit (t : TRef) : Bool := t.core == core && t.warp == warp
  let sub (t : TRef) : TRef := if hit t then t.gone else t
  let acc (a : Acc) : Acc := match a.who with
    | .thread t => if hit t && a.launch == launch then { a with who := .thread t.gone } else a
    | .score _ => a
  { s with accs := s.accs.map acc, penRels := s.penRels.map fun r => if r.launch = launch then { r with ths := r.ths.map sub } else r,
           ctl := { s.ctl with raises := s.ctl.raises.map fun r => { r with ths := r.ths.map sub } } }

/-- A warp goes: its slots begin their release, its reservation leaves, its place and registers are free. -/
def State.dropWarp (s : State) (core warp : Nat) (w : Warp) : State :=
  let rel (m : MSlot) : MSlot := if m.st == .claimed warp then { m with st := .releasing s.nextId } else m
  let s1 := (s.orphan core warp w.launch).setView core w.launch fun v => { v with slots := v.slots.map rel }
  let s2 := (s1.fresh.setCtx core fun x => Ctx.settle { x with warps := mdel x.warps warp }).setCore core fun k =>
    Core.cancelResv { k with slots := lmod k.slots (warp / 16) fun sl => { sl with cur := if sl.cur = some warp then none else sl.cur } }
      (.warp warp)
  s2.applyRegulator core

/-- WARP_RETIRE: a warp whose work is over retires; a deferred fault that no thread is left to raise ends the launch. -/
def execWarpRetire (core warp : Nat) (s : State) : Host.Outcome State Fault Refusal :=
  match s.warp? core warp with
  | none => .next s
  | some w =>
    if !s.retirable core warp w then .next s
    else
      let s1 := (s.dropWarp core warp w).setLaunch w.launch fun l => { l with live := l.live - 1 }
      .next (match leastBy (fun d : Deferred => d.cmd) w.deferred with
        | some d => s1.endLaunch w.launch .fault d.code
        | none => s1.tryEnd w.launch)

/-! ### LAUNCH_END (R368) -/

/-- A halted warp of a launch: every thread is EXITED. -/
def Warp.halt (w : Warp) : Warp :=
  { w with threads := w.threads.map fun t => { t with st := .exited }, run := none, held := false, bwait := none, deferred := [],
           pend := [] }

/-- The stack core's instance of a launch stops; those that wait or are parked go. -/
def SCore.halt (k : SCore) (l : Nat) : SCore :=
  { k with run := k.run.map fun i => if i.launch = l ∧ !i.sLevel then { i with halting := true } else i,
           parked := k.parked.filter fun i => i.launch != l || i.sLevel, queue := k.queue.filter fun i => i.launch != l || i.sLevel }

/-- Whether nothing of a stack core is under way. -/
def State.scoreQuiet (s : State) (n : Nat) : Bool :=
  (s.score n).psends.isEmpty && !(s.accs.any fun a => !a.performed && a.who == .score n)

/-- A halted instance leaves its stack core once its accesses and sends are over. -/
def State.reapScore (s : State) (n : Nat) : State :=
  match (s.score n).run with
  | some i => if i.halting && s.scoreQuiet n then s.setScore n fun k => (SCore.freeSlots { k with run := none, bwait := none }).cancelResv else s
  | none => s

/-- The control die halts what a launch still runs and drops what it has not admitted. -/
def State.haltLaunch (s : State) (l : Nat) : State :=
  let mine (x : Ctx) : List Nat := (x.warps.filter fun w => w.2.launch == l).map fun w => w.1
  let noWaiters (p : Pen) : Pen := { p with claimQ := [], takeQ := [] }
  let ctx (x : Ctx) : Ctx :=
    { x with warps := x.warps.map fun w => if w.2.launch = l then (w.1, w.2.halt) else w, reorder := x.reorder.filter fun r => r.launch != l,
             views := mmod x.views l fun v => { v with pens := v.pens.map noWaiters } }
  let s1 := (upFrom 0 s.cores.length).foldl (fun s c =>
    let gone := mine (s.core c).ctx
    let s1 := (s.mapCtxs c ctx).setCore c fun k =>
      { k with slots := k.slots.map fun sl => match sl.cur with
          | some w => if gone.contains w then { sl with cur := none } else sl
          | none => sl }
    s1.setCore c fun k => gone.foldl (fun k w => k.cancelResv (.warp w)) k) s
  let s2 := { s1 with
    dies := s1.dies.map fun (d : Die) =>
      { d with ranges := d.ranges.filter fun r => r.launch != l, pens := mmod d.pens l fun ps => ps.map noWaiters },
    scores := s1.scores.map fun (k : SCore) => (k.halt l).freeSlots,
    penRels := s1.penRels.filter fun r => r.launch != l,
    accs := s1.accs.filter fun (a : Acc) => !(a.launch == l && (match a.who, a.kind with
      | .thread _, .swWait _ => true
      | .score n, .swWait _ => ((s1.score n).run.map fun (i : Inst) => !i.sLevel && i.launch == l).getD false
      | _, _ => false)) }
  (upFrom 0 64).foldl State.reapScore (s2.setLaunch l fun x => { x with waitingPart := [] })

/-- Whether a command of a matrix engine belongs to a launch. -/
def Ctx.busyFor (x : Ctx) (l : Nat) : Bool :=
  (x.warps.any fun w => w.2.launch == l && !(w.2.sq.isEmpty && w.2.copyOut.isEmpty && w.2.matOut.isEmpty && w.2.collOut.isEmpty))
    || (x.copyQ.any fun c => c.launch == l) || (x.matCmds.any fun m => m.launch == l)

/-- Whether no command, access or pass of a halted launch can touch what it holds on a core (R368). -/
def State.coreQuiet (s : State) (c l : Nat) : Bool :=
  let k := s.core c
  !(k.ctxs.any fun x => x.busyFor l) && !(k.passes.any fun p => p.launch == l)
    && !(s.accs.any fun a => a.launch == l && !a.performed && a.core? == some c)
    && !((s.die (dieOf c)).gives.any fun g => g.launch == l && (g.core == c || g.dstCore == c))

/-- The same of what it holds on a die. -/
def State.dieQuiet (s : State) (k l : Nat) : Bool :=
  ((upFrom (8 * k) 8).all fun c => s.coreQuiet c l) && !((s.die k).gives.any fun g => g.launch == l)

/-- Whether nothing of a halted launch is under way any more. -/
def State.quiet (s : State) (l : Nat) : Bool :=
  !(s.cores.any fun k => k.ctxs.any fun x => x.busyFor l) && !(s.colls.any fun c => c.launch == l)
    && !(s.dies.any fun d => d.gives.any fun g => g.launch == l) && !(s.accs.any fun a => a.launch == l && !a.performed)
    && !(s.scores.any fun k => (k.run.toList).any fun i => i.launch == l && !i.sLevel)

/-- A die's caches at the end of a launch on it (R271). -/
def State.endCaches (s : State) (k l : Nat) : State :=
  let s1 := (s.die k).dc.foldl (fun s p =>
    if p.2.dirty != 0 && p.2.launches.contains l then
      (s.writeBack p.1 p.2).setDie k fun d => { d with dc := mmod d.dc p.1 fun c => { c with dirty := 0, borrowed := false } }
    else s) s
  let drop (m : List (Nat × Copy)) : List (Nat × Copy) := m.filter fun p => !(p.2.stable && p.2.launches.contains l)
  let s2 := s1.setDie k fun d => { d with dc := drop d.dc }
  (upFrom (8 * k) 8).foldl (fun s c => s.setCore c fun x => { x with l1 := drop x.l1 }) s2

/-- A context without a launch. -/
def Ctx.without (x : Ctx) (l : Nat) : Ctx :=
  { x with warps := x.warps.filter fun w => w.2.launch != l, views := mdel x.views l,
           groups := { x.groups with recs := x.groups.recs.filter fun g => g.2.launch != l } }

/-- What a launch holds on a core returns, once nothing of it there can touch it (R201, R219, R223, R336, R368): its sheds are cleared
and go to the pool. -/
def State.returnCore (s : State) (l c : Nat) : State :=
  if !s.coreQuiet c l then s
  else match s.viewAny c l with
  | none => s.mapCtxs c fun x => x.without l
  | some v =>
    let keys := v.sheds.map fun e => c % 8 * 64 + e
    let d := s.die (dieOf c)
    let sheds := keys.filterMap fun e => (mget? d.shedMap e).bind fun x => if x.st = .empty then none else some x.shed
    ((s.setDie (dieOf c) fun d =>
      { d with shedMap := d.shedMap.filter (fun e => !keys.contains e.1), sheds := sheds.foldl (fun m n => mdel m n) d.sheds }).mapCtxs c
      fun x => x.without l).applyRegulator c

/-- Groups of other launches. -/
def GTable.without (t : GTable) (l : Nat) : GTable := { t with recs := t.recs.filter fun g => g.2.launch != l }

/-- What a launch holds on a die returns. -/
def State.returnDie (s : State) (l k : Nat) : State :=
  if !s.dieQuiet k l then s
  else s.setDie k fun d => { d with pens := mdel d.pens l, groups := d.groups.without l, lids := mdel d.lids l }

/-- A launch's holdings return on each core and each die where nothing of it can touch them any more; its WIDE groups go with the last
of it. -/
def State.returnHeld (s : State) (l : Nat) : State :=
  let s1 := (upFrom 0 8).foldl (fun s k => s.returnDie l k) ((upFrom 0 s.cores.length).foldl (fun s c => s.returnCore l c) s)
  if s1.quiet l then s1.setCtl fun k => { k with wide := k.wide.without l } else s1

/-- LAUNCH_END: the control die halts a launch that has ended, and returns its holdings where nothing of it is under way; once nothing
of it is, it writes back the caches, records the status and adds to DONE. -/
def execLaunchEnd (launch : Nat) (_ : LStat) (s : State) : Host.Outcome State Fault Refusal :=
  match s.launch? launch with
  | none => .next s
  | some l =>
    match l.ended with
    | none => .next (s.tryEnd launch)
    | some e =>
      if !s.ctl.alive then .next s else
      let s1 := (s.haltLaunch launch).returnHeld launch
      if !s1.quiet launch then .next s1
      else
        let s3 := (upFrom 0 8).foldl (fun s k => s.endCaches k launch) s1
        let s4 := { s3 with launches := mdel s3.launches launch }
        .next (s4.reportEnd l.part l.queue l.seq l.asid l.done l.host e.1 e.2)

/-! ### LAUNCH (R361, R362) -/

def execLaunch (h : Hdr) (a : Src) (pd : Pred) (s : State) : Host.Outcome State Fault Refusal :=
  issue (.launch h a pd) s fun x s =>
    if x.act.isEmpty then .go s
    else
      let l := onceLane x
      match checkTags ((upFrom 0 3).map fun i => (x.src a i l, intTags)) with
      | .pois => .go (s.poison x.core 1)
      | .bad _ => faultAll (.of eTag a.field) x s
      | .good =>
        let va := x.pair a l
        if va % 64 ≠ 0 then faultAll (.at eAlign va) x s
        else match s.descGlobal x (x.ref l) .acq (x.addrNeed h a 2) (s.asidOf x.w) va 4 with
          | (s, .fault f) => faultAll f x s
          | (s, .ok bs pois) =>
            if pois then faultAll (.of eTag a.field) x s
            else
              let page := s.xlFind (.thread (x.ref l)) (s.asidOf x.w) va
              let reach := (page.map fun t => pteReach t.leaf).getD 2
              let pub := (page.map fun t => if pteReach t.leaf ≤ 1 then s.pubAt (dieOf x.core) (leafPa t.leaf va) else (0, 0)).getD (0, 0)
              let s1 := s.tickStamp
              let s2 := s1.setThread (x.ref l) fun th => th.acquire reach s1.stamp s1.nextId pub
              let dst := match a with
                | .w i => i.val + 3
                | _ => 0
              let p : Pend := ⟨s2.nextId, .w dst :: predName pd, .launch bs (x.src a 2 l).val.toNat dst x.act s2.nextId, []⟩
              .go (s2.setWarp x.core x.warp fun w => { w with pend := w.pend ++ [p] }).fresh

/-! ### VARIABLE_LATENCY_WRITE (R44, R243, R263, R362) -/

/-- Change the warp of a context of a core that has a pending result, and that context. -/
def State.pendOf (s : State) (core warp id : Nat) : Option (Ctx × Warp × Pend) :=
  (s.core core).ctxs.findSome? fun x => (mget? x.warps warp).bind fun w => (w.pend.find? fun p => p.id == id).map fun p => (x, w, p)

/-- The status and the sequence number of an append made by a thread (R360, R362); what another device answers is outside the
model, and may be anything. -/
def State.sendPacket (s : State) (part target : Nat) (pkt : List Byte) : State × Nat × Nat :=
  let dev := fld target 11 0
  if s.localDev dev then
    if !s.ctl.alive then (s, appTimeout, 0)
    else s.append (.peer 0xFFF part) (fld target 17 12) (fld target 23 18) pkt
  else if s.unreachable dev 0 then (s, appPeerLost, 0)
  else
    let st := Config.choice s.ticket (2 ^ 42) % 6
    (s, st, if st = appOk then Config.choice s.ticket (2 ^ 42 + 1) % 2 ^ 32 else 0)

/-- Whether a pending result of a warp may land now. -/
def State.pendReady (s : State) (core warp : Nat) (x : Ctx) (p : Pend) : Bool :=
  match p.src with
  | .ready => true
  | .trd l t _ _ _ upto => x.trdReady warp l t upto
  | .gen .. => !(s.ctl.raises.any fun r => r.core == core && r.warp == warp && decide (r.id < p.id))
  | .launch _ target _ lanes id =>
    s.released (lanes.map fun l => ⟨core, warp, l⟩) id (if s.localDev (fld target 11 0) then 2 else 3)
  | _ => false

/-- Land a pending result: its registers, and it is pending no more. -/
def State.landPend (s : State) (core warp launch id : Nat) (vals : List Wb) : State :=
  s.modWarp core warp launch fun w =>
    let w1 := vals.foldl (fun w v => w.write v.name v.lane v.reg) w
    { w1 with pend := w1.pend.filter fun p => p.id != id }

/-- VARIABLE_LATENCY_WRITE: a result of variable latency is written, and its register is no longer pending. -/
def execVariableLatencyWrite (core warp id : Nat) (s : State) : Host.Outcome State Fault Refusal :=
  match s.pendOf core warp id with
  | none => .next s
  | some (x, w, p) =>
    if !s.pendReady core warp x p then .next s
    else match p.src with
      | .ready => .next (s.landPend core warp w.launch id p.vals)
      | .trd l t sel lanes dst _ =>
        let tile := lget ((mget? x.views l).map fun v => v.tiles).toList.flatten t ⟨0, .free, [], [], []⟩
        -- what is read derives from what the rows derive from (R309)
        let derive (w : Warp) : Warp := (trdVals tile w.width dst sel lanes).foldl (fun (w : Warp) v =>
          w.setTaint v.name v.lane ((w.taintOf [v.name] v.lane).join (mget tile.taint (selRow w.width v.lane sel) []))) w
        .next (((s.landPend core warp w.launch id (trdVals tile w.width dst sel lanes)).modWarp core warp w.launch derive).mapCtxs core
          Ctx.settle)
      | .gen uniform reg lanes =>
        let r : Reg := ⟨BitVec.ofNat 32 (s.asidRec (s.asidOf w)).gen, .i32⟩
        .next (s.landPend core warp w.launch id (if uniform then [⟨.w reg, 0, r⟩] else lanes.map fun l => ⟨.v reg, l, r⟩))
      | .launch pkt target dst lanes _ =>
        let r := s.sendPacket (s.partOf w) target pkt
        let word : Reg := ⟨BitVec.ofNat 32 (r.2.2 % 2 ^ 24 * 256 + r.2.1), .i32⟩
        let preds := p.names.filterMap fun n => match n with
          | .p i => some i
          | _ => none
        .next (r.1.landPend core warp w.launch id (⟨.w dst, 0, word⟩ ::
          preds.flatMap fun i => lanes.map fun l => ⟨.p i, l, ⟨if r.2.1 = appOk then 1 else 0, .raw⟩⟩))
      | _ => .next s

end Sys2Proof.Machine
end

