-- ==== Sys2Proof/Machine/Loader.lean ====
section
/-! DEFINITION. Placing one instruction where the next step fetches it: a package past its self-test, an address space with one
512 MiB page over the bottom of interleaved memory, and a warp, or an instance, about to issue. -/

namespace Sys2Proof.Machine

/-- Where the loader puts the level-1 table, the level-2 table and the word. -/
def loadRoot : Nat := 0x10000
def loadTable : Nat := 0x20000
def loadCode : Nat := 0x40000

/-- A pointer entry to the table at a frame, and a leaf over the frames from 0: V, R, W, X, reach PACKAGE, D and AC set, no key,
this package (R246). -/
def loadPointer : Nat := loadTable / 2 ^ 16 * 2 ^ 36 + 1
def loadLeaf : Nat := 0xFFF * 2 ^ 24 + 2 ^ 9 + 2 ^ 8 + 2 * 2 ^ 5 + 2 ^ 4 + 2 ^ 3 + 2 ^ 2 + 1

/-- Put bytes at an interleaved address. -/
def State.loadBytes (s : State) (pa : Nat) (bs : List Byte) : State :=
  match linOf pa with
  | some lin => s.homePut lin 0 bs (List.replicate bs.length false)
  | none => s

/-- The tables, the word, the ASID record and a package that is READY. -/
def State.loadSpace (s : State) (n w : Nat) : State :=
  let s1 := ((s.loadBytes loadRoot (bytesOf 8 loadPointer)).loadBytes loadTable (bytesOf 8 loadLeaf)).loadBytes loadCode (bytesOf n w)
  s1.setCtl fun k =>
    { k with alive := true, heartbeat := true, boot := .ready,
             asids := mset k.asids 0 ⟨loadRoot / 2 ^ 16, 0, false, true, 0, false, 0⟩ }

/-- The launch of the loaded warp. -/
def loadLaunch : Launch :=
  { id := 0, part := 0, queue := 0, seq := 0, asid := 0, sec := false, stackLevel := false, entry := loadCode, arg := 0, width := 32,
    vregs := 640, uregs := 64, sheds := 0, esheds := 0, manger := 0, tiles := 0, cpens := 0, dpens := 0, grid := 32, prio := 0,
    order := 0, done := 0, host := false, admitted := 32, live := 1, poisoned := false, waitingPart := [], ended := none }

/-- Warp 0 of core 0 is about to issue a Quatin word. -/
def State.loadQuatin (s : State) (w : Nat) : State :=
  let s1 := s.loadSpace 8 w
  let s2 := s1.setCore 0 fun k =>
    { k with enabled := true, tlb := [], rack := rackCap, preempt := none, slots := lmod k.slots 0 fun _ => ⟨some 0, 0⟩,
             ctx := { k.ctx with part := some 0, sec := false,
                                 warps := mset k.ctx.warps 0 (Warp.new loadLaunch 0 k.cycles 0 0),
                                 views := mset k.ctx.views 0 ⟨[], [], [], [], .count, false⟩ } }
  let s3 := s2.setDie 0 fun d => { d with st := .up, tlb := [], dc := mdel d.dc (loadCode / 128) }
  { s3.setCtl (fun k => { k with cpart := mset k.cpart 0 (true, 0) }) with
    launches := mset s3.launches 0 loadLaunch, agenda := [.word 0 0], turn := .idle }

/-- An S-level instance on stack core 0 is about to issue a Creven word. -/
def State.loadCreven (s : State) (w : Nat) : State :=
  let i : Inst :=
    { serve := none, launch := 0, idx := 0, ninst := 1, arg := 0, asid := 0, part := 0, sec := false, sLevel := true, pc := loadCode, g := [],
      gm := [], h := [], hm := [], k := [], loft := [], loftm := [], rerrCount := 0, rerrStat := 0, fails := [], late := [],
      pendG := [], pendH := [], marking := [], started := 0, halting := false, slot := 0 }
  let s1 := (s.loadSpace 4 w).setScore 0 fun k => { k with enabled := true, tlb := [], rack := rackCap, bwait := none, run := some i }
  { s1.setStack 0 (fun t => { t with alive := true, scEn := true }) with agenda := [.sword 0], turn := .idle }

end Sys2Proof.Machine
end

