-- ==== Sys2Proof/Machine/Link.lean ====
section
/-! DEFINITION. The optical paths of the base dies (R397, R409 to R434, R476): flits, replay, loss of light and restripes, key
phases, paths going down and coming up, inbound packets and reachability. The sealing of a flit (R423) is not computed: a
received flit says under which counter and phase it was sealed and whether it arrived as it was sent. -/

namespace Sys2Proof.Machine

/-! ### Lanes (R411) -/

/-- Whether an entry of the path table is the device's own: the loopback entry (R426). -/
def State.loopback (s : State) (p : Nat) : Bool := p == s.ctl.devnum % 16 || p == 16 + fld s.ctl.devnum 7 4

/-- The wavelength of a path's LO lanes. -/
def State.pathDelta (s : State) (p : Nat) : Nat :=
  if p < 16 then (p + 16 - s.ctl.devnum % 16) % 16 else (p - 16 + 16 - fld s.ctl.devnum 7 4) % 16

/-- How many lanes a path has. -/
def pathLanes (p : Nat) : Nat := if p < 16 then 8 else 4

/-- The fibre of a lane, and whether it is a HI lane. -/
def laneFibre (p j : Nat) : Nat := if p < 16 then j / 2 else 4 + j / 2
def laneHi (j : Nat) : Bool := j % 2 == 1

/-- The wavelength of a lane. -/
def State.laneWave (s : State) (p j : Nat) : Nat := s.pathDelta p + (if laneHi j then 16 else 0)

/-- A set of lanes as a mask. -/
def laneMask (lanes : List Nat) : Nat := (lanes.eraseDups.map fun j => 2 ^ j).sum
def lanesOf (p mask : Nat) : List Nat := (upFrom 0 (pathLanes p)).filter fun j => bitAt mask j
/-- Lanes of one mask that are not in another. -/
def laneMinus (p a b : Nat) : Nat := laneMask ((lanesOf p a).filter fun j => !bitAt b j)

/-- The lanes of a path that LANEEN, LASERCTL and the modules leave to its sender; in the safe state one LO lane (R430). -/
def State.usableLanes (s : State) (k p : Nat) : Nat :=
  let t := s.stack k
  laneMask ((upFrom 0 (pathLanes p)).filter fun j =>
    bitAt (lget t.laneen (laneFibre p j) 0).toNat (s.laneWave p j) && (if laneHi j then t.laserHi else t.laserLo) == .on
      && (s.ctl.boot != .safe || j == 0))

/-- LIVE follows the egress lanes of a path (R397, R426). -/
def State.noteLive (s : State) (k p : Nat) : State :=
  let out := (s.path k p).outLanes
  s.setStack k fun t =>
    { t with live := (upFrom 0 (pathLanes p)).foldl (fun l j => lmod l (laneFibre p j) fun x =>
        let bit : Word := BitVec.ofNat 32 (2 ^ s.laneWave p j)
        if bitAt out j then x ||| bit else x &&& ~~~bit) t.live }

/-- A record of a path (R422, R454, R455). -/
def State.linkEvent (s : State) (k p code lanes : Nat) : State :=
  let me := s.ctl.devnum
  let peer := if p < 16 then fld me 7 4 * 16 + p else (p - 16) * 16 + me % 16
  s.event 7 code 0 5 (32 * k + p) (s.stack k).ticks (peer * 2 ^ 52) lanes

/-- The LOL bits of a stack: fibres with a lane found dark. -/
def Stack.lolNow (t : Stack) : Nat :=
  let fs := ((upFrom 0 32).zip t.paths).flatMap fun q => (lanesOf q.1 q.2.darkIn).map fun j => laneFibre q.1 j
  (fs.eraseDups.map fun f => 2 ^ f).sum

/-! ### Paths down and up (R420, R423, R425) -/

/-- The MGMT messages in a queue that are not begun, each as its flits; restripe messages (tag 0) belong to the path. -/
def mgmtQueued (mid : Option Nat) (q : List (FlitBody × Nat)) : List (List FlitBody) :=
  let fs := (q.map fun e => e.1).filter fun f => f.vc == 3 && f.tag != 0
  let begun := if mid = some 3 then (fs.takeWhile fun f => !f.last).length + 1 else 0
  ((fs.drop begun).foldl (fun (acc : List (List FlitBody) × List FlitBody) f =>
    if f.last then (acc.1 ++ [acc.2 ++ [f]], []) else (acc.1, acc.2 ++ [f])) ([], [])).1

/-- A path goes down: its flits are discarded, and neither direction has a lane. An MGMT message that has not begun takes another route
(R416). Of other packets still in the queue the spec does not say whether they wait: they are discarded too (DESIGN CHOICE, log 132). -/
def State.downPath (s : State) (k p : Nat) : State :=
  let msgs := mgmtQueued (s.path k p).mid (s.path k p).queue
  let s1 := s.setPath k p fun x =>
    { Path.reset with replays := x.replays, corrupt := x.corrupt, darkIn := x.darkIn, darkOut := x.darkOut, delivered := x.delivered }
  msgs.foldl (fun (s : State) m => match m with
    | [] => s
    | f :: _ => s.sendMgmt k f.dst m) ((s1.noteLive k p).linkEvent k p 4 0)

/-- Whether a path has reached 2^32 slots under one key with no next key installed. -/
def Path.exhausted (x : Path) : Bool := x.st != .down && decide (2 ^ 32 ≤ x.sinceFlip) && !x.keyReady

/-- Whether a path must go down: 32 resends of one flit, no lane left, or a key exhausted. -/
def Path.mustDown (x : Path) : Bool :=
  x.st != .down && (x.buffer.any (fun b => decide (32 ≤ b.resent)) || x.outLanes == 0 || x.inLanes == 0 || x.exhausted)

/-- PATH_DOWN. -/
def execPathDown (p : PathId) (s : State) : Host.Outcome State Fault Refusal :=
  .next (if (s.path p.stack p.p).mustDown then s.downPath p.stack p.p else s)

/-- KEY_EXHAUSTION: a path that has no next key goes down. -/
def execKeyExhaustion (p : PathId) (s : State) : Host.Outcome State Fault Refusal :=
  .next (if (s.path p.stack p.p).exhausted then s.downPath p.stack p.p else s)

/-- PATH_UP: the control dies of both ends bring a path up with fresh keys; its devices are reachable again (R429). -/
def execPathUp (p : PathId) (s : State) : Host.Outcome State Fault Refusal :=
  let k := p.stack
  let x := s.path k p.p
  let out := laneMinus p.p (s.usableLanes k p.p) x.darkOut
  let inn := laneMinus p.p (if s.ctl.boot = .safe then 1 else 2 ^ pathLanes p.p - 1) x.darkIn
  if s.loopback p.p || decide (32 ≤ p.p) || x.st != .down || !(s.stack k).alive || !s.ctl.alive || s.ctl.boot == .running
      || out == 0 || inn == 0 then .next s
  else
    let s1 := s.setPath k p.p fun x =>
      { Path.reset with st := .up, outLanes := out, inLanes := inn, replays := x.replays, corrupt := x.corrupt, keyReady := true,
                        rxKey := true, darkIn := x.darkIn, darkOut := x.darkOut, delivered := x.delivered }
    let s2 := s1.setCtl fun c => { c with safeDevs := c.safeDevs.filter fun d => !(firstHops c.devnum d).contains p.p }
    .next ((s2.noteLive k p.p).linkEvent k p.p 5 out).retryMgmt

/-! ### Flits (R412, R418, R419, R424, R425) -/

/-- The header of a flit (R412): the additional authenticated data of its seal (R423). -/
def flitHeader (f : Flit) : Nat :=
  let b := f.body
  b2n f.phase * 2 ^ 63 + b.vc % 4 * 2 ^ 61 + b2n b.last * 2 ^ 60 + b.psn % 4 * 2 ^ 58 + b2n b.leg * 2 ^ 57 + b2n b.ns * 2 ^ 56
    + b.dst % 2 ^ 12 * 2 ^ 44 + b.src % 2 ^ 12 * 2 ^ 32 + b.spart % 2 ^ 6 * 2 ^ 26 + f.seq % 2 ^ 10 * 2 ^ 16 + f.ack % 2 ^ 10 * 2 ^ 6
    + b2n f.nak * 2 ^ 5 + b2n f.idle * 2 ^ 4 + f.zero % 2 ^ 4

/-- The initialisation vector of a flit's seal on its way from one device to another, at a stack (R423). -/
def flitIv (f : Flit) (sender receiver stack : Nat) : Nat :=
  f.counter % 2 ^ 64 * 2 ^ 32 + sender % 2 ^ 12 * 2 ^ 20 + receiver % 2 ^ 12 * 2 ^ 8 + stack % 2 ^ 4 * 2 ^ 4

/-- The body of an idle flit. -/
def idleBody : FlitBody := ⟨0, false, 0, false, false, 0, 0, 0, 0⟩

/-- The place in the queue of the next new flit (R418): a packet begun goes on; a REQ-1 flit that has waited 64 slots goes
first; then MGMT, RSP, REQ-2, REQ-1. -/
def Path.nextNew (x : Path) : Option Nat :=
  let q := (upFrom 0 x.queue.length).zip x.queue
  let of (vc : Nat) : Option Nat := (q.find? fun e => e.2.1.vc == vc).map fun e => e.1
  match x.mid with
  | some vc => of vc
  | none => match q.find? fun e => e.2.1.vc == 0 && decide (64 ≤ e.2.2) with
    | some e => some e.1
    | none => (of 3).orElse fun _ => (of 2).orElse fun _ => (of 1).orElse fun _ => of 0

/-- Every queued flit has waited one slot more. -/
def waited (q : List (FlitBody × Nat)) : List (FlitBody × Nat) := q.map fun e => (e.1, e.2 + 1)

/-- The flit of a slot under the counter that the slot takes: a replay, a new flit, or an idle one. -/
def Path.sendFlit (x : Path) : Path :=
  let nak := decide (0 < x.nakSlots) && (x.nakSlots - 1) % 64 == 0
  let ack := (x.rxNext + 1023) % 1024
  let mk (seq : Nat) (idle : Bool) (body : FlitBody) : Flit := ⟨x.txPhase, seq, ack, nak, idle, x.txCounter, true, 0, body⟩
  let y := { x with txCounter := x.txCounter + 1, sinceFlip := x.sinceFlip + 1, queue := waited x.queue,
                    nakSlots := if x.nakSlots = 0 then 0 else x.nakSlots + 1 }
  let idle : Path := { y with wire := some (mk 0 true idleBody) }
  if x.idleOnly then idle
  else match x.resend with
    | seq :: rest => (match x.buffer.find? fun b => b.seq == seq with
        | none => { idle with resend := rest }
        | some b => { y with resend := rest, replays := min 65535 (x.replays + 1), wire := some (mk seq false b.body),
                             buffer := x.buffer.map fun c => if c.seq = seq then { c with resent := c.resent + 1 } else c })
    | [] =>
      if 256 ≤ x.buffer.length then idle
      else match x.nextNew with
        | none => idle
        | some i =>
          let body := (lget x.queue i (idleBody, 0)).1
          { y with queue := y.queue.take i ++ y.queue.drop (i + 1), mid := if body.last then none else some body.vc,
                   buffer := x.buffer ++ [⟨x.nextSeq, body, 0⟩], nextSeq := (x.nextSeq + 1) % 1024,
                   wire := some (mk x.nextSeq false body) }

/-- FLIT_SEND: a slot of a path. -/
def execFlitSend (p : PathId) (s : State) : Host.Outcome State Fault Refusal :=
  .next (if (s.path p.stack p.p).st = .down then s else s.setPath p.stack p.p Path.sendFlit)

/-- How far a sequence number lies ahead of another, modulo 1,024. -/
def seqAhead (a b : Nat) : Nat := (a + 1024 - b % 1024) % 1024

/-- An ACK frees the buffered flits that it covers; a NAK asks for the rest again, once held flits may go (R419, R476). -/
def Path.acked (x : Path) (ack : Nat) (nak : Bool) : Path :=
  let covers (seq : Nat) : Bool := decide (seqAhead ack seq < 512)
  let x1 := { x with buffer := x.buffer.filter (fun b => !covers b.seq), resend := x.resend.filter fun q => !covers q }
  if !nak then x1
  else
    let from' := (ack + 1) % 1024
    if x1.idleOnly then
      { x1 with heldNak := some (match x1.heldNak with
          | none => from'
          | some o => if seqAhead o from' < 512 then from' else o) }
    else { x1 with resend := x1.buffer.map fun b => b.seq }

/-- The flit that the receiver expected is not here: it asks for a replay. -/
def Path.askReplay (x : Path) : Path := if x.nakSlots = 0 then { x with nakSlots := 1 } else x

/-- A flit accepted in sequence; a packet is delivered when its last flit is here (R413). -/
def Path.accept (x : Path) (body : FlitBody) : Path :=
  let x1 := { x with rxNext := (x.rxNext + 1) % 1024, nakSlots := 0 }
  if body.last then
    let mine (b : FlitBody) : Bool := b.vc == body.vc
    { x1 with delivered := x1.delivered ++ (x1.partIn.filter mine) ++ [body], partIn := x1.partIn.filter fun b => !mine b }
  else { x1 with partIn := x1.partIn ++ [body] }

/-- One slot received (R419, R424, R425). A flit with a nonzero bit [3:0] counts as corrupt (R412). -/
def Path.receiveFlit (x : Path) (f : Flit) : Path :=
  let good := f.intact && f.zero == 0 && f.counter == x.rxCounter && (f.phase == x.rxPhase || x.rxKey)
  let x1 := { x with rxCounter := x.rxCounter + 1, both := x.both.map fun n => n + 1 }
  if !good then Path.askReplay { x1 with corrupt := min 65535 (x.corrupt + 1) }
  else
    let x2 := if f.phase != x.rxPhase && x.both.isNone then { x1 with rxPhase := f.phase, both := some 0 } else x1
    let x3 := x2.acked f.ack f.nak
    if f.idle then x3
    else if f.seq = x3.rxNext then x3.accept f.body
    else if seqAhead f.seq x3.rxNext < 512 then x3.askReplay
    else x3

/-- FLIT_RECEIVE. -/
def execFlitReceive (p : PathId) (f : Flit) (s : State) : Host.Outcome State Fault Refusal :=
  .next (if (s.path p.stack p.p).st = .down then s else s.setPath p.stack p.p fun x => x.receiveFlit f)

/-- Whether a sender may flip its key phase. -/
def Path.flipReady (x : Path) : Bool := x.st != .down && x.keyReady && (!x.flipped || decide (8192 ≤ x.sinceFlip))

/-- KEY_FLIP: at a slot boundary the sender goes over to its next key. -/
def execKeyFlip (p : PathId) (s : State) : Host.Outcome State Fault Refusal :=
  .next (if (s.path p.stack p.p).flipReady then
    s.setPath p.stack p.p fun x => { x with txPhase := !x.txPhase, sinceFlip := 0, flipped := true, keyReady := false }
  else s)

/-- Whether the window in which both phases are accepted is over. -/
def Path.discardDue (x : Path) : Bool := match x.both with
  | some n => decide (4096 ≤ n)
  | none => false

/-- OLD_KEY_DISCARD. -/
def execOldKeyDiscard (p : PathId) (s : State) : Host.Outcome State Fault Refusal :=
  .next (if (s.path p.stack p.p).discardDue then s.setPath p.stack p.p fun x => { x with both := none, rxKey := false } else s)

/-! ### Loss of light and restripes (R421, R422, R476) -/

/-- The lanes that a direction will have once its pending restripe is done. -/
def aim (now : Nat) (pend : Option (Nat × Nat)) : Nat := match pend with
  | some q => q.1
  | none => now

/-- A later restripe of a direction takes the place of one that is pending; its slot is no earlier. -/
def later (pend : Option (Nat × Nat)) (lanes slot : Nat) : Option (Nat × Nat) := match pend with
  | some q => some (lanes, max q.2 slot)
  | none => some (lanes, slot)

def Path.restripeOut (x : Path) (lanes slot : Nat) : Path := { x with st := .restriping, pendOut := later x.pendOut lanes slot }
def Path.restripeIn (x : Path) (lanes slot : Nat) : Path := { x with st := .restriping, pendIn := later x.pendIn lanes slot }

/-- A restripe message is queued on MGMT (R421, R430). -/
def State.restripeMsg (s : State) (k p : Nat) : State :=
  let me := s.ctl.devnum
  s.enqueue k p [{ s.flitFor 3 (if p < 16 then fld me 7 4 * 16 + p else (p - 16) * 16 + me % 16) 0 false 0 with last := true }]

/-- LOSS_OF_LIGHT: ingress lanes have been dark for 64 ns; the last lane takes the path with it, else a restripe starts. -/
def execLossOfLight (p : PathId) (lanes : List Nat) (slot : Nat) (s : State) : Host.Outcome State Fault Refusal :=
  let k := p.stack
  let x := s.path k p.p
  let lost := (lanes.filter fun j => decide (j < pathLanes p.p) && bitAt (aim x.inLanes x.pendIn) j).eraseDups
  if x.st = .down || lost.isEmpty then .next s
  else
    let new := laneMinus p.p (aim x.inLanes x.pendIn) (laneMask lost)
    let s1 := s.setPath k p.p fun x => { x with darkIn := x.darkIn ||| laneMask lost }
    let s2 := s1.setStack k fun t =>
      { t with lol := t.lolNow, opevt := (lost.map fun j => laneFibre p.p j).foldl (fun e f => e ||| 2 ^ f) t.opevt }
    let s3 := s2.linkEvent k p.p 1 x.inLanes
    .next (if new = 0 then s3.downPath k p.p
      else (s3.setPath k p.p fun x => x.restripeIn new (max slot (x.rxCounter + 256))).restripeMsg k p.p)

/-- LASER_MODULE_FAILURE: OPEVT is set, and the affected paths send idle flits only until they are restriped. -/
def execLaserModuleFailure (stack : Nat) (hi : Bool) (s : State) : Host.Outcome State Fault Refusal :=
  let t := s.stack stack
  let now := if hi then t.laserHi else t.laserLo
  if now ≠ .on then .next s
  else
    let mask := if hi then 0xAA else 0x55
    let hit (x : Path) : Path := if x.st != .down && x.outLanes &&& mask != 0 then { x with idleOnly := true } else x
    let s1 := s.setStack stack fun t =>
      let t1 := { t with opevt := t.opevt ||| (if hi then 128 else 64), paths := t.paths.map hit }
      if hi then { t1 with laserHi := .failed } else { t1 with laserLo := .failed }
    let other := if hi then t.laserLo else t.laserHi
    let left := if other = .on then 0xFF - mask else 0
    let s2 := s1.event 7 2 0 2 stack t.ticks 0 left
    .next ((upFrom 0 32).foldl (fun (s : State) p =>
      let x := s.path stack p
      if x.st != .down && laneMinus p x.outLanes mask == 0 then s.downPath stack p else s) s2)

/-- RESTRIPE: the peer names a new lane set and its switch slot, of the egress or of the ingress direction. -/
def execRestripe (p : PathId) (ingress : Bool) (lanes : List Nat) (slot : Nat) (s : State) : Host.Outcome State Fault Refusal :=
  let new := laneMask (lanes.filter fun j => decide (j < pathLanes p.p))
  .next (if (s.path p.stack p.p).st = .down then s
    else s.setPath p.stack p.p fun x =>
      if ingress then x.restripeIn new slot
      else { x.restripeOut new slot with darkOut := laneMinus p.p (x.darkOut ||| aim x.outLanes x.pendOut) new })

/-- Whether a pending switch has reached its slot. -/
def switchDue (pend : Option (Nat × Nat)) (counter : Nat) : Bool := match pend with
  | some q => decide (q.2 ≤ counter)
  | none => false

/-- The egress direction switches: it is held no longer, and replays once from the lowest NAK it kept. -/
def Path.switchOut (x : Path) : Path :=
  { x with outLanes := aim x.outLanes x.pendOut, pendOut := none, idleOnly := false, heldNak := none,
           resend := match x.heldNak with
             | none => x.resend
             | some n => (x.buffer.filter fun b => decide (seqAhead b.seq n < 512)).map fun b => b.seq }

def Path.switchIn (x : Path) : Path := { x with inLanes := aim x.inLanes x.pendIn, pendIn := none }

/-- RESTRIPE_SWITCH: at the switch slot each direction takes its new lane set. -/
def execRestripeSwitch (p : PathId) (s : State) : Host.Outcome State Fault Refusal :=
  let k := p.stack
  let x := s.path k p.p
  let out := switchDue x.pendOut x.txCounter
  let inn := switchDue x.pendIn x.rxCounter
  if x.st = .down || !(out || inn) then .next s
  else
    let x1 := if out then x.switchOut else x
    let x2 := if inn then x1.switchIn else x1
    let x3 := { x2 with st := if x2.pendOut.isNone && x2.pendIn.isNone then .up else .restriping }
    let s1 := (s.setPath k p.p fun _ => x3).noteLive k p.p
    let s2 := if out then s1.linkEvent k p.p 3 x3.outLanes else s1
    let s3 := if inn then s2.linkEvent k p.p 3 x3.inLanes else s2
    .next (if x3.outLanes = 0 ∨ x3.inLanes = 0 then s3.downPath k p.p else s3)

/-- The sender takes lanes out of its paths by restripes whose slot it chooses (R421). -/
def State.removeLanes (s : State) (k : Nat) (gone : Nat → Nat → Bool) : State :=
  (upFrom 0 32).foldl (fun s p =>
    let x := s.path k p
    let cur := aim x.outLanes x.pendOut
    let new := laneMask ((lanesOf p cur).filter fun j => !gone p j)
    if x.st = .down || new == cur then s
    else (s.setPath k p fun x => x.restripeOut new (x.txCounter + 256)).restripeMsg k p) s

/-- A write of LANEEN(f): a cleared bit removes its lane; a set bit returns none by itself. -/
def State.writeLaneen (s : State) (k f : Nat) (v : Word) : State :=
  let s1 := s.setStack k fun t => { t with laneen := lmod t.laneen f fun _ => v }
  s1.removeLanes k fun p j => laneFibre p j == f && !bitAt v.toNat (s.laneWave p j)

/-- LANEEN_WRITE. -/
def execLaneenWrite (stack fibre : Nat) (value : Word) (s : State) : Host.Outcome State Fault Refusal :=
  .next (s.writeLaneen stack fibre value)

/-- A write of LASERCTL: a module switched off loses its lanes on every path; one switched on returns none by itself. -/
def State.writeLaserctl (s : State) (k : Nat) (v : Nat) : State :=
  let hi := bitAt v 1
  let lo := bitAt v 0
  let set (l : Laser) (on : Bool) : Laser := if l = .failed then .failed else if on then .on else .off
  let s1 := s.setStack k fun t => { t with hiEn := hi, loEn := lo, laserHi := set t.laserHi hi, laserLo := set t.laserLo lo }
  s1.removeLanes k fun _ j => if laneHi j then !hi else !lo

/-- LASERCTL_WRITE. -/
def execLaserctlWrite (stack : Nat) (value : Dword) (s : State) : Host.Outcome State Fault Refusal :=
  .next (s.writeLaserctl stack value.toNat)

/-- LANE_RETURN: the light of a lane is back, and the control dies start the restripe that returns it. -/
def execLaneReturn (p : PathId) (lane : Nat) (s : State) : Host.Outcome State Fault Refusal :=
  let k := p.stack
  let x := s.path k p.p
  if x.st = .down || decide (pathLanes p.p ≤ lane) then .next s
  else
    let back (x : Path) : Path :=
      if bitAt x.darkIn lane then
        { x.restripeIn (aim x.inLanes x.pendIn ||| 2 ^ lane) (x.rxCounter + 256) with darkIn := laneMinus p.p x.darkIn (2 ^ lane) }
      else x
    let out (x : Path) : Path :=
      if !bitAt (aim x.outLanes x.pendOut) lane && bitAt (s.usableLanes k p.p) lane then
        { x.restripeOut (aim x.outLanes x.pendOut ||| 2 ^ lane) (x.txCounter + 256) with darkOut := laneMinus p.p x.darkOut (2 ^ lane) }
      else x
    let s1 := s.setPath k p.p fun x => out (back x)
    .next (s1.setStack k fun t => { t with lol := t.lolNow })

/-! ### Inbound packets (R323, R359, R428) -/

/-- The bytes of an element that an atomic updates. -/
def addTyBytes : AddTy → Nat
  | .u64 => 8
  | _ => 4

/-- The bytes of an element that VSCAT adds (R388). -/
def vaddBytes : CTy → Nat
  | .i64 => 8
  | .f64 => 8
  | _ => 4

/-- The bytes that an inbound access touches. -/
def inboundBytes : Inbound → Nat
  | .read n => n
  | .write bs _ => bs.length
  | .atomic _ _ _ ty _ _ _ => addTyBytes ty
  | .vadd ty _ _ => vaddBytes ty
  | .discard n => 128 * n
  | .syncInit .. => 16
  | .syncAdd .. => 16
  | .response _ => 0

/-- Whether an inbound access counts as an atomic of R18 to R21. -/
def inboundAtomic : Inbound → Bool
  | .read _ => false
  | .write .. => false
  | .discard _ => false
  | _ => true

/-- The flits of an inbound packet (R413). -/
def inboundFlits : Inbound → Nat
  | .write bs _ => 1 + ceilDiv bs.length 64
  | .response n => n
  | _ => 1

/-- Whether an inbound packet is a response. -/
def inboundRsp : Inbound → Bool
  | .response _ => true
  | _ => false

/-- Whether an entry of the access-control table lets a device's partition in. -/
def State.aclLets (s : State) (src part : Nat) : Bool :=
  s.ctl.acl.any fun e =>
    let v := e.2.toNat
    bitAt v 63 && !bitAt v 40 && (fld v 59 48 == src || (s.localDev (fld v 59 48) && s.localDev src)) && (bitAt v 41 || fld v 47 42 == part)

/-- An answer goes to the issuer on RSP: the status, the marks of its sectors, the bytes. -/
def State.answerTo (s : State) (k : Nat) (q : Packet) (st : RStat) (bs : List Byte) (pois : List Bool) : State :=
  let s1 := (s.sendTo k q.src (packetOf (s.flitFor 2 q.src 0 false (s.nextId + 1)) (1 + ceilDiv bs.length 64) pois) none).1
  s1.setCtl fun c => { c with toPeer := c.toPeer ++ [(q.src, BitVec.ofNat 8 st.code :: BitVec.ofNat 8 (psnOf pois) :: bs)] }

/-- A record of a packet discarded or refused. -/
def State.inboundEvent (s : State) (k : Nat) (q : Packet) (st : RStat) : State :=
  s.event 3 st.code 0 2 k (s.stack k).ticks (q.dst * 2 ^ 52 + q.pa % 2 ^ 52) (q.src % 4096 + q.srcPart % 64 * 2 ^ 12)

/-- An update at its home slice by another device's agent (R350, R354): what the location held, and whether that is POISON. -/
def State.inboundUpdate (s : State) (lin key n : Nat) (f : Nat → Option Nat) (poisoned : Bool) : State × Nat × Bool :=
  let r := s.readHome lin n key none
  if poisoned then (r.1.homeWrite lin key r.2.1 (List.replicate n true), 0, true)
  else if r.2.2.any id then (r.1.atomFail lin, 0, true)
  else
    let old := numOf r.2.1
    match f old with
    | some v => (r.1.homeWrite lin key (bytesOf n v) (List.replicate n false), old, false)
    | none => (r.1, old, false)

/-- Perform an inbound access at the home slice. -/
def State.performInbound (s : State) (k : Nat) (q : Packet) (lin : Nat) : State :=
  match q.op with
  | .read n =>
    let r := s.readHome lin n q.key none
    r.1.answerTo k q .ok r.2.1 r.2.2
  | .write bs pois => (s.writeHome lin q.key bs (List.replicate bs.length pois) none).answerTo k q .ok [] []
  | .atomic op cas u ty v x pois =>
    let n := addTyBytes ty
    let r := s.inboundUpdate lin q.key n
      (fun old => if cas && old != x then none else some (atomNew op cas u (addAType ty) n old v x)) pois
    r.1.answerTo k q .ok (bytesOf n r.2.1) [r.2.2]
  | .vadd ty v pois => (s.inboundUpdate lin q.key (vaddBytes ty) (fun old => some (cAddElem ty old v)) pois).1.answerTo k q .ok [] []
  | .discard n =>
    ((upFrom 0 n).foldl (fun (s : State) i => match linOf (q.pa + 128 * i) with
      | some l => s.homeDiscard l
      | none => s) s).answerTo k q .ok [] []
  | .syncInit t pois => (s.homeSync lin q.key none fun w => if pois then { w with pois := true } else w.init t).answerTo k q .ok [] []
  | .syncAdd u pois => (s.homeSync lin q.key none fun w => if pois then { w with pois := true } else w.add u).answerTo k q .ok [] []
  | .response _ => s

/-- INBOUND_PACKET: forwarded, discarded, refused, or performed at the home slice; a response at its target ends its access by that access's
own event. Nothing answers for memory of a lost stack, or once the
control die has failed: the peer sees TIMEOUT (R25). -/
def execInboundPacket (stack : Nat) (q : Packet) (s : State) : Host.Outcome State Fault Refusal :=
  if !(s.stack stack).alive || s.ctl.boot != .ready then .next s
  else if !s.localDev q.dst then
    let me := s.ctl.devnum
    let ga := fld me 7 4
    let hop := if fld q.dst 7 4 = ga then some (q.dst % 16) else if q.dst % 16 = me % 16 then some (16 + fld q.dst 7 4) else none
    match (if q.leg then none else hop) with
    | some p =>
      -- the packet goes on to its second hop, and only the base die takes part
      .next (if (s.path stack p).st = .down then s
        else s.enqueue stack p (packetOf ⟨if inboundRsp q.op then 2 else 1, false, 0, true, q.nonSecure, q.dst, q.src, q.srcPart, s.nextId + 1⟩
          (inboundFlits q.op) []))
    | none => .next (s.inboundEvent stack q .timeout)
  else if inboundRsp q.op then .next s
  else if !s.ctl.alive then .next s
  else
    let n := inboundBytes q.op
    let refuse : State := (s.inboundEvent stack q .remoteFault).answerTo stack q .remoteFault [] []
    if !s.aclLets q.src q.srcPart then .next refuse
    else if 2 ≤ regionOf q.pa || (regionFault q.pa n false (inboundAtomic q.op)).isSome then .next refuse
    else if s.keyRefused q.key (!q.nonSecure) then .next refuse
    else match linOf q.pa with
      | none => .next refuse
      | some lin =>
        if (s.stack (homeOf lin)).alive then .next (s.performInbound (homeOf lin) q lin) else .next (s.inboundEvent stack q .timeout)

/-- SAFE_STATE_REPORT: a peer is in its safe state, and is unreachable until a path of a route to it comes up (R429). -/
def execSafeStateReport (dev : Nat) (s : State) : Host.Outcome State Fault Refusal :=
  .next (s.setCtl fun c => { c with safeDevs := markIn c.safeDevs dev })

end Sys2Proof.Machine
end

