-- ==== Sys2Proof/Machine/Creven.lean ====
section
/-! DEFINITION. Stack cores (R370 to R399): instances, the issue of a Creven word, its operands and marks, and the meaning of
every Creven instruction; RESERVED_ENCODING on a warp or on a stack core; the starting, parking and resuming of instances;
chunks between stack cores. -/

namespace Sys2Proof.Machine

/-! ### Element types (R372) -/

def ctyBits : CTy → Nat
  | .i32 => 32
  | .i64 => 64
  | .f32 => 32
  | .f64 => 64
  | .f16 => 16
  | .bf16 => 16
  | .i16 => 16
  | .i8 => 8

def ctyN (t : CTy) : Nat := 512 / ctyBits t

/-- The format of a floating-point type. -/
def ctyFmt : CTy → Option FFmt
  | .f32 => some .f32
  | .f64 => some .f64
  | .f16 => some .f16
  | .bf16 => some .bf16
  | _ => none

def cwidthBytes : CWidth → Nat
  | .b8 => 1
  | .b16 => 2
  | .b32 => 4
  | .b64 => 8

/-- Element i of a vector. -/
def elemOf (e v i : Nat) : Nat := v / 2 ^ (e * i) % 2 ^ e

/-- Put an element into a vector. -/
def putElem (e v i x : Nat) : Nat :=
  let lo := e * i
  v % 2 ^ lo + x % 2 ^ e * 2 ^ lo + v / 2 ^ (lo + e) * 2 ^ (lo + e)

/-! ### Registers and the loft (R370, R371) -/

def Inst.gv (i : Inst) (r : CReg) : Nat := if r.val = 0 then 0 else (mget i.g r.val (0 : Dword)).toNat
def Inst.gmark (i : Inst) (r : CReg) : Bool := r.val != 0 && i.gm.contains r.val
def Inst.hv (i : Inst) (r : CReg) : Nat := (mget i.h r.val (0 : Vword)).toNat
def Inst.hmarks (i : Inst) (r : CReg) : Nat := mget i.hm r.val 0
def Inst.kv (i : Inst) (r : KReg) : Nat := if r.val = 0 then 2 ^ 64 - 1 else (mget i.k r.val (0 : Dword)).toNat

/-- Write a scalar register and its mark; g0 discards writes. -/
def Inst.setG (i : Inst) (d : CReg) (v : Nat) (m : Bool) : Inst :=
  if d.val = 0 then i
  else { i with g := msetD 0 i.g d.val (BitVec.ofNat 64 v), gm := if m then markIn i.gm d.val else markOut i.gm d.val }

def Inst.setH (i : Inst) (d : CReg) (v m : Nat) : Inst :=
  { i with h := msetD 0 i.h d.val (BitVec.ofNat 512 v), hm := msetD 0 i.hm d.val m }

def Inst.setK (i : Inst) (d : KReg) (v : Nat) : Inst := { i with k := msetD 0 i.k d.val (BitVec.ofNat 64 v) }

/-- The elements that a mask enables, in ascending order. -/
def Inst.enabled (i : Inst) (k : KReg) (t : CTy) : List Nat := (upFrom 0 (ctyN t)).filter fun j => bitAt (i.kv k) j

/-- Whether the chunk of an element of a register is marked. -/
def Inst.elemMark (i : Inst) (r : CReg) (e j : Nat) : Bool := bitAt (i.hmarks r) (j * e / 64)

/-- The marks of a destination once these elements (number, marked) are written (R371). -/
def chunkMarks (old e : Nat) (els : List (Nat × Bool)) : Nat :=
  ((upFrom 0 8).map fun c =>
    let here := els.filter fun p => p.1 * e / 64 == c
    if here.any (fun p => p.2) || (bitAt old c && decide (here.length < 64 / e)) then 2 ^ c else 0).sum

/-- Write elements (number, value, marked) into a vector register. -/
def Inst.vput (i : Inst) (d : CReg) (t : CTy) (els : List (Nat × Nat × Bool)) : Inst :=
  let e := ctyBits t
  i.setH d (els.foldl (fun v p => putElem e v p.1 p.2.1) (i.hv d)) (chunkMarks (i.hmarks d) e (els.map fun p => (p.1, p.2.2)))

def loftBytes : Nat := 0x40000

def Inst.loftRead (i : Inst) (a n : Nat) : List Byte := (upFrom a n).map fun x => mget i.loft x 0
def Inst.loftMark (i : Inst) (a n : Nat) : List Bool := (upFrom a n).map fun x => i.loftm.contains (x / 8)
def Inst.loftWrite (i : Inst) (a : Nat) (bs : List Byte) (pois : List Bool) : Inst :=
  { i with loft := ((upFrom a bs.length).zip bs).foldl (fun m p => msetD 0 m p.1 p.2) i.loft, loftm := marksStore 8 i.loftm a pois }

/-- Change the running instance of a stack core. -/
def State.modInst (s : State) (n : Nat) (f : Inst → Inst) : State := s.setScore n fun k => { k with run := k.run.map f }

/-! ### The end of an instance (R368, R374, R379, R396) -/

/-- A fault: it is recorded; a U-level launch ends with it, and the instance does not go on (R374). -/
def State.stackFault (s : State) (n : Nat) (x : Inst) (cls : Nat) : State :=
  let s1 := s.event 2 cls x.part 3 n (s.stack (n / 4)).ticks x.pc x.idx
  let s2 := s1.modInst n fun i => { i with halting := true }
  (if x.sLevel then s2 else s2.endLaunch x.launch .fault cls).reapScore n

/-- A poisoned operand of R371 ends the instance with POISONED. -/
def State.stackPoisoned (s : State) (n : Nat) (x : Inst) : State :=
  let s1 := s.modInst n fun i => { i with halting := true }
  (if x.sLevel then s1 else s1.endLaunch x.launch .poisoned 0).reapScore n

/-- An instance ends by HALT: its slots are freed, and its launch may be over. -/
def State.endInstance (s : State) (n : Nat) (x : Inst) : State :=
  let s1 := s.setScore n fun k => (SCore.freeSlots { k with run := none, bwait := none }).cancelResv
  if x.sLevel then s1 else (s1.setLaunch x.launch fun l => { l with live := l.live - 1 }).tryEnd x.launch

/-! ### The issue of a Creven word (R370, R376, R182, R197) -/

/-- What a word comes to: it is done and the next follows, it is done and a jump follows, it does not issue yet, it faults, or
it ends the instance as poisoned or by HALT. -/
inductive CRes where
  | go (s : State)
  | jump (s : State) (pc : Nat)
  | wait (s : State)
  | fault (s : State) (cls : Nat)
  | poisoned (s : State)
  | done (s : State)
  deriving DecidableEq, Repr

/-- The scalar and the vector registers that a word reads or writes: it waits while a result for one of them is pending. -/
def cregsOf : Instr → List CReg × List CReg
  | .add d a b => ([d, a, b], []) | .sub d a b => ([d, a, b], []) | .mul d a b => ([d, a, b], [])
  | .crevenAnd d a b => ([d, a, b], []) | .crevenOr d a b => ([d, a, b], []) | .crevenXor d a b => ([d, a, b], [])
  | .crevenShl d a b => ([d, a, b], []) | .crevenShr d a b => ([d, a, b], []) | .crevenSar d a b => ([d, a, b], [])
  | .slt d a b => ([d, a, b], []) | .sltu d a b => ([d, a, b], [])
  | .addi d a _ => ([d, a], []) | .shli d a _ => ([d, a], []) | .shri d a _ => ([d, a], []) | .sari d a _ => ([d, a], [])
  | .ori d a _ => ([d, a], []) | .lui d _ => ([d], [])
  | .ldg d a _ _ _ => ([d, a], []) | .stg d a _ _ _ => ([d, a], []) | .ldl d a _ _ => ([d, a], []) | .stl d a _ _ => ([d, a], [])
  | .amo d a b _ _ _ _ => ([d, a, b], [])
  | .swadd a b => ([a, b], []) | .swwait a b => ([a, b], [])
  | .crevenFenceSys d => ([d], [])
  | .beq a b _ => ([a, b], []) | .bne a b _ => ([a, b], []) | .blt a b _ => ([a, b], []) | .bge a b _ => ([a, b], [])
  | .jal d _ => ([d], []) | .jalr d a => ([d, a], [])
  | .rds d _ => ([d], []) | .wrs a _ => ([a], []) | .svr d _ => ([d], []) | .svw a _ => ([a], [])
  | .psend d a b c => ([d, a, b, c], []) | .precv d a b => ([d, a, b], [])
  | .vld d a _ _ _ _ _ => ([a], [d]) | .vst d a _ _ _ _ _ => ([a], [d])
  | .vgath d a b _ _ _ => ([a], [d, b]) | .vscat d a b _ _ _ _ => ([a], [d, b])
  | .vadd d a b _ _ => ([], [d, a, b]) | .vsub d a b _ _ => ([], [d, a, b]) | .vmul d a b _ _ => ([], [d, a, b])
  | .vmin d a b _ _ => ([], [d, a, b]) | .vmax d a b _ _ => ([], [d, a, b]) | .vfma d a b _ _ => ([], [d, a, b])
  | .vand d a b _ _ => ([], [d, a, b]) | .vor d a b _ _ => ([], [d, a, b]) | .vxor d a b _ _ => ([], [d, a, b])
  | .vcmp _ a b _ _ _ => ([], [a, b]) | .vcvt d a _ _ _ _ => ([], [d, a]) | .vsplat d a _ _ => ([a], [d])
  | .vextr d a _ _ => ([d], [a]) | .kset _ a => ([a], []) | .kget d _ => ([d], [])
  | _ => ([], [])

/-- Whether a word waits for a pending result. -/
def Inst.blocked (x : Inst) (i : Instr) : Bool :=
  let u := cregsOf i
  (u.1.any fun r => x.pendG.any fun p => p.1 == r.val) || u.2.any fun r => x.pendH.any fun p => p.1 == r.val

/-- The price of a word (R376): of the vector accesses, one bale for each 64 bytes that the enabled elements touch. -/
def Inst.price (x : Inst) (i : Instr) : Nat :=
  let touched (k : KReg) (t : CTy) : Nat := ceilDiv ((x.enabled k t).length * (ctyBits t / 8)) 64
  match i with
  | .vld _ _ _ _ t k _ => touched k t
  | .vst _ _ _ _ t k _ => touched k t
  | .vgath _ _ _ k t _ => touched k t
  | .vscat _ _ _ k t _ _ => touched k t
  | .vfma .. => 1
  | _ => 0

/-- Pay at a stack core's rack: a satisfied reservation is consumed, else the rack pays; none if neither holds the price. -/
def SCore.pay (k : SCore) (price : Nat) : Option SCore :=
  if price = 0 then some k
  else match k.satisfied with
    | some r => if price ≤ r.amount then some { k with satisfied := none, rack := min rackCap (k.rack + (r.held - price)) }
        else if price ≤ k.rack then some ({ k with rack := k.rack - price }).cancelResv else none
    | none => if price ≤ k.rack then some ({ k with rack := k.rack - price }).cancelResv else none

/-- A head that has changed ends its wait, and cancels its reservation (R186, R187). -/
def SCore.newHead (k : SCore) (pc : Nat) (i : Instr) (price : Nat) : SCore :=
  match k.bwait with
  | some b => if b.isFor pc i price then k else ({ k with bwait := none }).cancelResv
  | none => k

/-- A head that is short waits from now on, unless it does already (R186, R197). -/
def SCore.noteWait (k : SCore) (now pc : Nat) (i : Instr) (price : Nat) : SCore :=
  if k.bwait.isSome then k else { k with bwait := some ⟨now, pc, i, price⟩ }

/-- Whether the running instance waits at a SWWAIT. -/
def State.scoreWaits (s : State) (n : Nat) : Bool := s.accs.any fun a => a.isWait && !a.performed && a.who == .score n

/-- What a word comes to, on the state. -/
def CRes.settle (r : CRes) (n : Nat) (x : Inst) : State :=
  let goOn (s : State) (pc : Nat) : State :=
    s.setScore n fun k => { k with run := k.run.map (fun i => { i with pc := pc }), bwait := none }
  match r with
  | .go s => goOn s ((x.pc + 4) % 2 ^ 64)
  | .jump s pc => goOn s (pc % 2 ^ 64)
  | .wait s => s
  | .fault s cls => s.stackFault n x cls
  | .poisoned s => s.stackPoisoned n x
  | .done s => s.endInstance n x

/-- A word that issues pays its price; one that does not issue yet pays nothing (R182). -/
def CRes.paid (r : CRes) (n price : Nat) : CRes :=
  let pay (s : State) : State := s.setScore n fun k => (k.pay price).getD k
  match r with
  | .go s => .go (pay s)
  | .jump s pc => .jump (pay s) pc
  | .wait s => .wait s
  | .fault s cls => .fault (pay s) cls
  | .poisoned s => .poisoned (pay s)
  | .done s => .done (pay s)

/-- The issue of a word by the running instance of stack core `n`. -/
def State.stackIssueAt (s : State) (n : Nat) (x : Inst) (i : Instr) (body : Nat → Inst → State → CRes) : State :=
  if s.scoreWaits n || x.blocked i then s
  else
    let price := x.price i
    let x1 : Inst := if x.pendG.isEmpty && x.pendH.isEmpty then { x with marking := [] } else x
    let s1 := s.setScore n fun k => { k.newHead x.pc i price with run := some x1 }
    if ((s1.score n).pay price).isNone then s1.setScore n fun k => k.noteWait (s.stack (n / 4)).scCycles x.pc i price
    else ((body n x1 s1).paid n price).settle n x1

/-- The frame of every Creven word's meaning: the stack core named by `turn` issues it for its running instance. -/
def stackIssue (i : Instr) (s : State) (body : Nat → Inst → State → CRes) : Host.Outcome State Fault Refusal :=
  match s.turn with
  | .score n =>
    match (s.score n).run with
    | none => .fault .noIssuer
    | some x => .next (if x.halting then s else s.stackIssueAt n x i body)
  | _ => .fault .noIssuer

/-! ### Scalar arithmetic (R377, R378) -/

/-- G[d] := f (G[a], G[b]), marked if either source is. -/
def galu (i : Instr) (d a b : CReg) (f : Dword → Dword → Dword) (s : State) : Host.Outcome State Fault Refusal :=
  stackIssue i s fun n x s =>
    .go (s.modInst n fun y => y.setG d (f (BitVec.ofNat 64 (x.gv a)) (BitVec.ofNat 64 (x.gv b))).toNat (x.gmark a || x.gmark b))

/-- G[d] := f (G[a]), marked if the source is. -/
def gimm (i : Instr) (d a : CReg) (f : Dword → Dword) (s : State) : Host.Outcome State Fault Refusal :=
  stackIssue i s fun n x s => .go (s.modInst n fun y => y.setG d (f (BitVec.ofNat 64 (x.gv a))).toNat (x.gmark a))

def execAdd (d a b : CReg) (s : State) : Host.Outcome State Fault Refusal := galu (.add d a b) d a b (fun p q => p + q) s
def execSub (d a b : CReg) (s : State) : Host.Outcome State Fault Refusal := galu (.sub d a b) d a b (fun p q => p - q) s
def execMul (d a b : CReg) (s : State) : Host.Outcome State Fault Refusal := galu (.mul d a b) d a b (fun p q => p * q) s
def execCrevenAnd (d a b : CReg) (s : State) : Host.Outcome State Fault Refusal :=
  galu (.crevenAnd d a b) d a b (fun p q => p &&& q) s
def execCrevenOr (d a b : CReg) (s : State) : Host.Outcome State Fault Refusal :=
  galu (.crevenOr d a b) d a b (fun p q => p ||| q) s
def execCrevenXor (d a b : CReg) (s : State) : Host.Outcome State Fault Refusal :=
  galu (.crevenXor d a b) d a b (fun p q => p ^^^ q) s
def execCrevenShl (d a b : CReg) (s : State) : Host.Outcome State Fault Refusal :=
  galu (.crevenShl d a b) d a b (fun p q => p <<< (q.toNat % 64)) s
def execCrevenShr (d a b : CReg) (s : State) : Host.Outcome State Fault Refusal :=
  galu (.crevenShr d a b) d a b (fun p q => p >>> (q.toNat % 64)) s
def execCrevenSar (d a b : CReg) (s : State) : Host.Outcome State Fault Refusal :=
  galu (.crevenSar d a b) d a b (fun p q => p.sshiftRight (q.toNat % 64)) s
def execSlt (d a b : CReg) (s : State) : Host.Outcome State Fault Refusal :=
  galu (.slt d a b) d a b (fun p q => if p.slt q then 1 else 0) s
def execSltu (d a b : CReg) (s : State) : Host.Outcome State Fault Refusal :=
  galu (.sltu d a b) d a b (fun p q => if p.ult q then 1 else 0) s
def execAddi (d a : CReg) (imm : BitVec 16) (s : State) : Host.Outcome State Fault Refusal :=
  gimm (.addi d a imm) d a (fun p => p + imm.signExtend 64) s
def execShli (d a : CReg) (n : Fin 64) (s : State) : Host.Outcome State Fault Refusal :=
  gimm (.shli d a n) d a (fun p => p <<< n.val) s
def execShri (d a : CReg) (n : Fin 64) (s : State) : Host.Outcome State Fault Refusal :=
  gimm (.shri d a n) d a (fun p => p >>> n.val) s
def execSari (d a : CReg) (n : Fin 64) (s : State) : Host.Outcome State Fault Refusal :=
  gimm (.sari d a n) d a (fun p => p.sshiftRight n.val) s
def execOri (d a : CReg) (imm : BitVec 16) (s : State) : Host.Outcome State Fault Refusal :=
  gimm (.ori d a imm) d a (fun p => p ||| imm.zeroExtend 64) s
def execLui (d : CReg) (imm : BitVec 16) (s : State) : Host.Outcome State Fault Refusal :=
  stackIssue (.lui d imm) s fun n _ s =>
    .go (s.modInst n fun y => y.setG d ((imm ++ (0 : BitVec 16)).signExtend 64).toNat false)

/-! ### Control flow (R379) -/

/-- A conditional branch; a marked operand ends the instance. -/
def gbranch (i : Instr) (a b : CReg) (off : BitVec 16) (c : Dword → Dword → Bool) (s : State) : Host.Outcome State Fault Refusal :=
  stackIssue i s fun _ x s =>
    if x.gmark a || x.gmark b then .poisoned s
    else if c (BitVec.ofNat 64 (x.gv a)) (BitVec.ofNat 64 (x.gv b)) then .jump s (wrapInt 64 ((x.pc : Int) + 4 * off.toInt))
    else .go s

def execBeq (a b : CReg) (off : BitVec 16) (s : State) : Host.Outcome State Fault Refusal :=
  gbranch (.beq a b off) a b off (fun p q => p == q) s
def execBne (a b : CReg) (off : BitVec 16) (s : State) : Host.Outcome State Fault Refusal :=
  gbranch (.bne a b off) a b off (fun p q => p != q) s
def execBlt (a b : CReg) (off : BitVec 16) (s : State) : Host.Outcome State Fault Refusal :=
  gbranch (.blt a b off) a b off (fun p q => p.slt q) s
def execBge (a b : CReg) (off : BitVec 16) (s : State) : Host.Outcome State Fault Refusal :=
  gbranch (.bge a b off) a b off (fun p q => !p.slt q) s

def execJal (d : CReg) (off : BitVec 21) (s : State) : Host.Outcome State Fault Refusal :=
  stackIssue (.jal d off) s fun n x s =>
    .jump (s.modInst n fun y => y.setG d (x.pc + 4) false) (wrapInt 64 ((x.pc : Int) + 4 * off.toInt))

def execJalr (d a : CReg) (s : State) : Host.Outcome State Fault Refusal :=
  stackIssue (.jalr d a) s fun n x s =>
    let t := x.gv a
    if x.gmark a then .poisoned s
    else if t % 4 ≠ 0 then .fault s eAlign
    else if 2 ^ 55 ≤ t then .fault s eInvalid
    else .jump (s.modInst n fun y => y.setG d (x.pc + 4) false) t

/-- HALT waits as FENCE.SYS does, then the instance ends. -/
def execHalt (s : State) : Host.Outcome State Fault Refusal :=
  stackIssue .halt s fun n _ s =>
    if s.accs.any fun a => !a.performed && a.who == .score n then .wait s else .done (s.modInst n Inst.cover)

/-! ### Special registers (R380) -/

/-- $rerr of an instance. -/
def Inst.rerr (x : Inst) : Nat := x.rerrCount * 2 ^ 8 + x.rerrStat

/-- A special register of an instance; none for a code not listed. -/
def State.cspecial (s : State) (n : Nat) (x : Inst) (code : Nat) : Option Nat :=
  match code with
  | 0x00 => some n
  | 0x01 => some x.idx
  | 0x02 => some x.ninst
  | 0x03 => some x.arg.toNat
  | 0x04 => some (s.stack (n / 4)).scCycles
  | 0x05 => some (s.stack (n / 4)).ticks
  | 0x06 => some (s.score n).rack
  | 0x07 => some x.rerr
  | 0x08 => some x.asid
  | 0x09 => some x.part
  | 0x0A => some (b2n x.sLevel)
  | _ => none

def execRds (d : CReg) (code : BitVec 8) (s : State) : Host.Outcome State Fault Refusal :=
  stackIssue (.rds d code) s fun n x s =>
    match s.cspecial n x code.toNat with
    | none => .fault s eIllegal
    | some v => .go (s.modInst n fun y => y.setG d v false)

def execWrs (a : CReg) (code : BitVec 8) (s : State) : Host.Outcome State Fault Refusal :=
  stackIssue (.wrs a code) s fun n x s =>
    if code.toNat ≠ 7 then .fault s eIllegal
    else if x.gmark a then .poisoned s
    else .go (s.modInst n fun y => { y with rerrCount := fld (x.gv a) 15 8, rerrStat := fld (x.gv a) 3 0 })

/-! ### The optical port (R397) -/

/-- A port register; none for a code not listed. MPD(f) holds the last measurement. -/
def portReg (t : Stack) (code : Nat) : Option Nat :=
  if code = 0x000 then some (laserCode t.laserHi * 2 ^ 12 + laserCode t.laserLo * 2 ^ 10 + t.lol)
  else if code = 0x001 then some t.opevt
  else if 0x010 ≤ code ∧ code < 0x016 then some (lget t.live (code - 0x010) 0).toNat
  else if 0x018 ≤ code ∧ code < 0x01E then some (lget t.laneen (code - 0x018) 0).toNat
  else if 0x020 ≤ code ∧ code < 0x026 then some (lget t.heat (code - 0x020) 0).toNat
  else if 0x028 ≤ code ∧ code < 0x02E then some (lget t.mpd (code - 0x028) 0).toNat
  else if code = 0x030 then some (b2n t.hiEn * 2 + b2n t.loEn)
  else none

/-- A measurement of a fibre's received power: 0x8000 on a dark fibre, and otherwise whatever the detector finds. -/
def State.measure (s : State) (k f : Nat) : State :=
  let v : Half16 := if bitAt (s.stack k).lol f then 0x8000 else (Config.undef s.ticket (2 ^ 22 + f)).truncate 16
  s.setStack k fun t => { t with mpd := lmod t.mpd f fun _ => v }

def execSvr (d : CReg) (code : BitVec 12) (s : State) : Host.Outcome State Fault Refusal :=
  stackIssue (.svr d code) s fun n x s =>
    let c := code.toNat
    if (portReg (s.stack (n / 4)) c).isNone then .fault s eIllegal
    else if !x.sLevel then .fault s ePriv
    else
      let s1 := if 0x028 ≤ c ∧ c < 0x02E then s.measure (n / 4) (c - 0x028) else s
      .go (s1.modInst n fun y => y.setG d ((portReg (s1.stack (n / 4)) c).getD 0) false)

/-- A write of a port register; an RO one ignores it. -/
def State.writePort (s : State) (k code v : Nat) : State :=
  if code = 0x001 then s.setStack k fun t => { t with opevt := t.opevt &&& (0xFF - v % 2 ^ 8) }
  else if 0x018 ≤ code ∧ code < 0x01E then s.writeLaneen k (code - 0x018) (BitVec.ofNat 32 v)
  else if 0x020 ≤ code ∧ code < 0x026 then
    s.setStack k fun t => { t with heat := lmod t.heat (code - 0x020) fun _ => BitVec.ofNat 12 v }
  else if code = 0x030 then s.writeLaserctl k v
  else s

def execSvw (a : CReg) (code : BitVec 12) (s : State) : Host.Outcome State Fault Refusal :=
  stackIssue (.svw a code) s fun n x s =>
    if (portReg (s.stack (n / 4)) code.toNat).isNone then .fault s eIllegal
    else if !x.sLevel then .fault s ePriv
    else if x.gmark a then .poisoned s
    else .go (s.writePort (n / 4) code.toNat (x.gv a))

/-! ### Memory (R381 to R385) -/

/-- An access of the running instance to the leaf and the physical address that translation gave. -/
def State.scoreAcc (s : State) (n : Nat) (x : Inst) (kind : AKind) (cls : Cls) (va leaf pa size : Nat) : Acc :=
  { id := 0, who := .score n, lanes := [], kind := kind, cls := cls, hint := .none, reach := pteReach leaf,
    dev := if s.localDev (pteDev leaf) then none else some (pteDev leaf), pa := pa, size := size, key := pteKey leaf,
    stable := pteS leaf, secAgent := x.sec, asid := x.asid, launch := x.launch, va := va, queued := false, performed := false,
    sent := none, limit := (s.stack (n / 4)).ftimeout, lost := false, need := 0, hop := none, out := false }

/-- Whether `m` more accesses of a stack core may be in flight (R383). -/
def State.scoreRoom (s : State) (n m : Nat) : Bool :=
  decide ((s.accs.filter fun a => !a.performed && !a.isFence && a.who == .score n).length + m ≤ 32)

/-- The checks of a global access: alignment, then R382. -/
def State.cAddr (s : State) (n : Nat) (x : Inst) (va size : Nat) (k : XKind) : State × Except Nat (Nat × Nat) :=
  if va % size ≠ 0 then (s, .error eAlign) else s.stackXl (.score n) x.asid va size k x.sec x.sLevel

/-- What follows when accesses have been appended. -/
def State.afterCreven (s : State) : State := s.endFences.sendReady

/-- G[r] + off, as an address. -/
def Inst.ea (x : Inst) (r : CReg) (off : Int) : Nat := wrapInt 64 ((x.gv r : Int) + off)

/-- A scalar register waits for a result. -/
def Inst.waitG (x : Inst) (d : CReg) (id : Nat) : Inst := if d.val = 0 then x else { x with pendG := x.pendG ++ [(d.val, id)] }

/-- One global access of a scalar instruction: `kind` is built from the number that it will have; `d` receives its result. -/
def gaccess (i : Instr) (a : CReg) (off : Int) (size : Nat) (k : XKind) (cls : Cls) (d : Option CReg)
    (kind : Inst → Nat → AKind) (s : State) : Host.Outcome State Fault Refusal :=
  stackIssue i s fun n x s =>
    if x.gmark a then .poisoned s
    else if !s.scoreRoom n 1 then .wait s
    else
      let va := x.ea a off
      match s.cAddr n x va size k with
      | (s, .error c) => .fault s c
      | (s, .ok (leaf, pa)) =>
        let id := s.nextId
        let s1 := s.pushAcc (s.scoreAcc n x (kind x id) cls va leaf pa size)
        .go ((match d with
          | some d => s1.modInst n fun y => y.waitG d id
          | none => s1).afterCreven)

def execLdg (d a : CReg) (w : CWidth) (c : Cls) (off : BitVec 12) (s : State) : Host.Outcome State Fault Refusal :=
  let n := cwidthBytes w
  gaccess (.ldg d a w c off) a (off.toInt * n) n .load c (some d) (fun _ id => .cLoad d.val false [] n id) s

def execStg (d a : CReg) (w : CWidth) (c : Cls) (off : BitVec 12) (s : State) : Host.Outcome State Fault Refusal :=
  let n := cwidthBytes w
  gaccess (.stg d a w c off) a (off.toInt * n) n .store c none
    (fun x _ => .store (bytesOf n (x.gv d)) (List.replicate n (x.gmark d))) s

/-- The checks of a loft access. -/
def loftCheck (ea size : Nat) : Option Nat := if ea % size ≠ 0 then some eAlign else if loftBytes ≤ ea then some eInvalid else none

/-- A load that marked its destination is counted (R371). -/
def State.countMark (s : State) (n : Nat) (bad : Bool) : State :=
  if bad then s.setStack (n / 4) fun t => { t with poisonCnt := t.poisonCnt + 1 } else s

def execLdl (d a : CReg) (w : CWidth) (off : BitVec 12) (s : State) : Host.Outcome State Fault Refusal :=
  let m := cwidthBytes w
  stackIssue (.ldl d a w off) s fun n x s =>
    let ea := x.ea a (off.toInt * m)
    if x.gmark a then .poisoned s
    else match loftCheck ea m with
      | some c => .fault s c
      | none =>
        let bad := (x.loftMark ea m).any id
        .go ((s.modInst n fun y => y.setG d (numOf (x.loftRead ea m)) bad).countMark n bad)

def execStl (d a : CReg) (w : CWidth) (off : BitVec 12) (s : State) : Host.Outcome State Fault Refusal :=
  let m := cwidthBytes w
  stackIssue (.stl d a w off) s fun n x s =>
    let ea := x.ea a (off.toInt * m)
    if x.gmark a then .poisoned s
    else match loftCheck ea m with
      | some c => .fault s c
      | none => .go (s.modInst n fun y => y.loftWrite ea (bytesOf m (x.gv d)) (List.replicate m (x.gmark d)))

def execAmo (d a b : CReg) (op : AmoOp) (wide : Bool) (c : Cls) (u : Bool) (s : State) : Host.Outcome State Fault Refusal :=
  let n := if wide then 8 else 4
  gaccess (.amo d a b op wide c u) a 0 n .atomic c (some d)
    (fun x _ => .cAmo d.val op u (x.gv b % 2 ^ (8 * n)) (x.gv d % 2 ^ (8 * n)) (x.gmark b || (op == .cas && x.gmark d))) s

def execSwadd (a b : CReg) (s : State) : Host.Outcome State Fault Refusal :=
  gaccess (.swadd a b) a 0 16 .store .rel none (fun x _ => .swAdd (x.gv b % 2 ^ 32) (x.gmark b)) s

/-- SWWAIT asks for its word; the instance goes on once the generation is reached. -/
def execSwwait (a b : CReg) (s : State) : Host.Outcome State Fault Refusal :=
  stackIssue (.swwait a b) s fun n x s =>
    if x.gmark a then .poisoned s
    else if !s.scoreRoom n 1 then .wait s
    else match s.cAddr n x (x.gv a) 16 .load with
      | (s, .error c) => .fault s c
      | (s, .ok (leaf, pa)) =>
        .wait (s.pushAcc (s.scoreAcc n x (.swWait (x.gv b % 2 ^ 32)) .acq (x.gv a) leaf pa 16)).afterCreven

/-- FENCE holds what follows until what precedes has been performed. -/
def State.pushCFence (s : State) (n : Nat) (x : Inst) (sys : Bool) (d : Nat) : State :=
  (s.pushAcc (s.scoreAcc n x (.fence sys d) .rlx 0 0 0 0)).modInst n Inst.cover

def execCrevenFence (s : State) : Host.Outcome State Fault Refusal :=
  stackIssue .crevenFence s fun n x s => .go (s.pushCFence n x false 0).afterCreven

def execCrevenFenceSys (d : CReg) (s : State) : Host.Outcome State Fault Refusal :=
  stackIssue (.crevenFenceSys d) s fun n x s =>
    let id := s.nextId
    .go ((s.pushCFence n x true d.val).modInst n fun y => y.waitG d id).afterCreven

/-! ### Vector arithmetic (R386, R389 to R392) -/

/-- One element of R389's operations. -/
inductive VOp where | add | sub | mul | min | max | fma | and | or | xor
  deriving DecidableEq, Repr

def vopElem (op : VOp) (t : CTy) (x y z : Nat) : Nat :=
  let e := ctyBits t
  match op with
  | .and => x &&& y
  | .or => x ||| y
  | .xor => x ^^^ y
  | _ =>
    match ctyFmt t with
    | some f =>
      let a := f.decode x
      let b := f.decode y
      (match op with
       | .add => f.round .rn false (FVal.add false a b)
       | .sub => f.round .rn false (FVal.add false a b.neg)
       | .mul => f.round .rn false (FVal.mul a b)
       | .min => minMaxCode f false false x y
       | .max => minMaxCode f true false x y
       | _ => f.round .rn false (FVal.add false (FVal.mul a b) (f.decode z)))
    | none =>
      let a := sintOf e x
      let b := sintOf e y
      (match op with
       | .add => (x + y) % 2 ^ e
       | .sub => (x + 2 ^ e - y) % 2 ^ e
       | .mul => x * y % 2 ^ e
       | .min => if b < a then y else x
       | .max => if a < b then y else x
       | _ => (x * y + z) % 2 ^ e)

/-- H[d].e[i] := f of the elements of H[a], H[b] and H[d], under a mask. -/
def valu (i : Instr) (op : VOp) (d a b : CReg) (k : KReg) (t : CTy) (s : State) : Host.Outcome State Fault Refusal :=
  let e := ctyBits t
  stackIssue i s fun n x s =>
    let one (j : Nat) : Nat × Nat × Bool :=
      (j, vopElem op t (elemOf e (x.hv a) j) (elemOf e (x.hv b) j) (elemOf e (x.hv d) j),
        x.elemMark a e j || x.elemMark b e j || (op == .fma && x.elemMark d e j))
    .go (s.modInst n fun y => y.vput d t ((x.enabled k t).map one))

def execVadd (d a b : CReg) (k : KReg) (ty : CTy) (s : State) : Host.Outcome State Fault Refusal := valu (.vadd d a b k ty) .add d a b k ty s
def execVsub (d a b : CReg) (k : KReg) (ty : CTy) (s : State) : Host.Outcome State Fault Refusal := valu (.vsub d a b k ty) .sub d a b k ty s
def execVmul (d a b : CReg) (k : KReg) (ty : CTy) (s : State) : Host.Outcome State Fault Refusal := valu (.vmul d a b k ty) .mul d a b k ty s
def execVmin (d a b : CReg) (k : KReg) (ty : CTy) (s : State) : Host.Outcome State Fault Refusal := valu (.vmin d a b k ty) .min d a b k ty s
def execVmax (d a b : CReg) (k : KReg) (ty : CTy) (s : State) : Host.Outcome State Fault Refusal := valu (.vmax d a b k ty) .max d a b k ty s
def execVfma (d a b : CReg) (k : KReg) (ty : CTy) (s : State) : Host.Outcome State Fault Refusal := valu (.vfma d a b k ty) .fma d a b k ty s
def execVand (d a b : CReg) (k : KReg) (ty : CTy) (s : State) : Host.Outcome State Fault Refusal := valu (.vand d a b k ty) .and d a b k ty s
def execVor (d a b : CReg) (k : KReg) (ty : CTy) (s : State) : Host.Outcome State Fault Refusal := valu (.vor d a b k ty) .or d a b k ty s
def execVxor (d a b : CReg) (k : KReg) (ty : CTy) (s : State) : Host.Outcome State Fault Refusal := valu (.vxor d a b k ty) .xor d a b k ty s

/-- The comparison of two elements (R390, R159). -/
def vcmpElem (t : CTy) (c : Sys2Proof.ICond) (x y : Nat) : Bool :=
  match ctyFmt t with
  | some f =>
    let fc : FCond := match c with
      | .eq => .eq
      | .ne => .ne
      | .lt => .lt
      | .le => .le
      | .gt => .gt
      | .ge => .ge
    fcondHolds fc (f.decode x) (f.decode y)
  | none =>
    let a := sintOf (ctyBits t) x
    let b := sintOf (ctyBits t) y
    match c with
    | .eq => a == b
    | .ne => a != b
    | .lt => decide (a < b)
    | .le => decide (a ≤ b)
    | .gt => decide (b < a)
    | .ge => decide (b ≤ a)

/-- VCMP (R390). The registers that it compares are the source of its mask, and a marked one ends the instance (R371). -/
def execVcmp (d : KReg) (a b : CReg) (k : KReg) (ty : CTy) (c : Sys2Proof.ICond) (s : State) : Host.Outcome State Fault Refusal :=
  let e := ctyBits ty
  stackIssue (.vcmp d a b k ty c) s fun n x s =>
    if d.val = 0 then .fault s eIllegal
    else if (x.enabled k ty).any fun j => x.elemMark a e j || x.elemMark b e j then .poisoned s
    else
      let hit := (x.enabled k ty).filter fun j => vcmpElem ty c (elemOf e (x.hv a) j) (elemOf e (x.hv b) j)
      .go (s.modInst n fun y => y.setK d (hit.map fun j => 2 ^ j).sum)

/-- The value of an element, and a value as an element (R391, R166). -/
def celemVal (t : CTy) (x : Nat) : FVal :=
  match ctyFmt t with
  | some f => f.decode x
  | none =>
    let v := sintOf (ctyBits t) x
    .fin (decide (v < 0)) v.natAbs 0

def celemOf (t : CTy) (v : FVal) : Nat :=
  match ctyFmt t with
  | some f => f.round .rn false v
  | none => toIntFmt (ctyBits t) false .rn v

/-- The source element of a destination element of VCVT, if it has one. -/
def vcvtFrom (dt st : CTy) (hi : Bool) (j : Nat) : Option Nat :=
  let ed := ctyBits dt
  let es := ctyBits st
  let src := if es = 2 * ed then (if b2n hi * ctyN st ≤ j then some (j - b2n hi * ctyN st) else none)
    else if ed = 2 * es then some (j + b2n hi * ctyN dt)
    else some j
  src.filter fun q => decide (q < ctyN st)

def execVcvt (d a : CReg) (k : KReg) (dt st : CTy) (hi : Bool) (s : State) : Host.Outcome State Fault Refusal :=
  let es := ctyBits st
  stackIssue (.vcvt d a k dt st hi) s fun n x s =>
    let els := (x.enabled k dt).filterMap fun j => (vcvtFrom dt st hi j).map fun q =>
      (j, celemOf dt (celemVal st (elemOf es (x.hv a) q)), x.elemMark a es q)
    .go (s.modInst n fun y => y.vput d dt els)

def execVsplat (d a : CReg) (k : KReg) (ty : CTy) (s : State) : Host.Outcome State Fault Refusal :=
  stackIssue (.vsplat d a k ty) s fun n x s =>
    .go (s.modInst n fun y => y.vput d ty ((x.enabled k ty).map fun j => (j, x.gv a, x.gmark a)))

def execVextr (d a : CReg) (idx : Fin 32) (ty : CTy) (s : State) : Host.Outcome State Fault Refusal :=
  let e := ctyBits ty
  stackIssue (.vextr d a idx ty) s fun n x s =>
    if ctyN ty ≤ idx.val then .fault s eIllegal
    else .go (s.modInst n fun y => y.setG d (elemOf e (x.hv a) idx.val) (x.elemMark a e idx.val))

def execKset (d : KReg) (a : CReg) (s : State) : Host.Outcome State Fault Refusal :=
  stackIssue (.kset d a) s fun n x s =>
    if d.val = 0 then .fault s eIllegal
    else if x.gmark a then .poisoned s
    else .go (s.modInst n fun y => y.setK d (x.gv a))

def execKget (d : CReg) (a : KReg) (s : State) : Host.Outcome State Fault Refusal :=
  stackIssue (.kget d a) s fun n x s => .go (s.modInst n fun y => y.setG d (x.kv a) false)

/-! ### Vector accesses (R386 to R388) -/

/-- The elements of these bytes in a register: number, value, marked. -/
def elemsAt (e : Nat) (els : List Nat) (base : Nat) (bs : List Byte) (pois : List Bool) : List (Nat × Nat × Bool) :=
  els.map fun j =>
    let o := j * e / 8 - base
    (j, numOf ((bs.drop o).take (e / 8)), ((pois.drop o).take (e / 8)).any id)

/-- The marks of the chunks that a load will write whole go as it issues; what comes back sets them again. -/
def Inst.clearMarks (x : Inst) (d : CReg) (t : CTy) (els : List Nat) : Inst :=
  { x with hm := msetD 0 x.hm d.val (chunkMarks (x.hmarks d) (ctyBits t) (els.map fun j => (j, false))) }

/-- The pieces of a global vector access: 16-byte chunks that hold enabled elements. -/
def vpieces (e : Nat) (els : List Nat) : List (Nat × List Nat) :=
  (upFrom 0 4).filterMap fun c =>
    let here := els.filter fun j => j * e / 128 == c
    if here.isEmpty then none else some (16 * c, here)

/-- The checks common to VLD and VST; the body gets the address once they have passed. -/
def vblock (i : Instr) (a : CReg) (loft : Bool) (ty : CTy) (k : KReg) (off : BitVec 8) (kind : XKind)
    (inLoft : Nat → Inst → List Nat → Nat → State → State)
    (global : Nat → Inst → List Nat → Nat → Nat → Nat → State → State) (s : State) : Host.Outcome State Fault Refusal :=
  stackIssue i s fun n x s =>
    let els := x.enabled k ty
    let va := x.ea a (64 * off.toInt)
    if els.isEmpty then .go s
    else if x.gmark a then .poisoned s
    else if loft then
      match loftCheck va 64 with
      | some c => .fault s c
      | none => .go (inLoft n x els va s)
    else if !s.scoreRoom n 4 then .wait s
    else match s.cAddr n x va 64 kind with
      | (s, .error c) => .fault s c
      | (s, .ok (leaf, pa)) => .go (global n x els va leaf pa s).afterCreven

def execVld (d a : CReg) (loft ord : Bool) (ty : CTy) (k : KReg) (off : BitVec 8) (s : State) : Host.Outcome State Fault Refusal :=
  let e := ctyBits ty
  vblock (.vld d a loft ord ty k off) a loft ty k off .load
    (fun n x els va s =>
      let got := elemsAt e els 0 (x.loftRead va 64) (x.loftMark va 64)
      (s.modInst n fun y => y.vput d ty got).countMark n (got.any fun p => p.2.2))
    (fun n x els va leaf pa s =>
      let grp := s.nextId
      (vpieces e els).foldl (fun s p =>
        let id := s.nextId
        let acc := s.scoreAcc n x (.cLoad d.val true (p.2.map fun j => (j, j * e / 8 - p.1)) (e / 8) grp) (if ord then .ord else .rlx)
          (va + p.1) leaf (pa + p.1) 16
        (s.pushAcc acc).modInst n fun y => { y with pendH := y.pendH ++ [(d.val, id)] })
        (s.modInst n fun y => y.clearMarks d ty els)) s

/-- The bytes of enabled elements of a register from byte `lo`, `m` of them: offset, byte, marked. -/
def vbytes (x : Inst) (d : CReg) (e : Nat) (els : List Nat) (lo m : Nat) : List (Nat × Byte × Bool) :=
  (upFrom 0 m).filterMap fun o =>
    let b := lo + o
    if els.contains (8 * b / e) then some (o, BitVec.ofNat 8 (x.hv d / 2 ^ (8 * b)), bitAt (x.hmarks d) (b / 8)) else none

def execVst (d a : CReg) (loft ord : Bool) (ty : CTy) (k : KReg) (off : BitVec 8) (s : State) : Host.Outcome State Fault Refusal :=
  let e := ctyBits ty
  let cls : Cls := if ord then .ord else .rlx
  vblock (.vst d a loft ord ty k off) a loft ty k off .store
    (fun n x els va s => (upFrom 0 8).foldl (fun s c =>
      let ps := vbytes x d e els (8 * c) 8
      s.modInst n fun y =>
        if ps.length = 8 then y.loftWrite (va + 8 * c) (ps.map fun p => p.2.1) (ps.map fun p => p.2.2)
        else ps.foldl (fun y p => y.loftWrite (va + 8 * c + p.1) [p.2.1] [p.2.2]) y) s)
    (fun n x els va leaf pa s => (upFrom 0 2).foldl (fun s h =>
      -- a sector that is written whole is one access, so that it clears its mark (R149)
      let ps := vbytes x d e els (32 * h) 32
      if ps.length = 32 then
        s.pushAcc (s.scoreAcc n x (.store (ps.map fun p => p.2.1) (ps.map fun p => p.2.2)) cls (va + 32 * h) leaf (pa + 32 * h) 32)
      else (upFrom 0 2).foldl (fun s c =>
        let o := 32 * h + 16 * c
        let qs := vbytes x d e els o 16
        if qs.isEmpty then s else s.pushAcc (s.scoreAcc n x (.cStore qs) cls (va + o) leaf (pa + o) 16)) s) s) s

/-- How far a gather or scatter came. -/
inductive GSt where
  | going
  | fault (cls : Nat)
  | poisoned
  deriving DecidableEq, Repr

/-- The elements of a gather or a scatter in ascending order, each checked on its own (R388): a fault or a marked index on one
leaves those below it performed. -/
def velems (i : Instr) (a b : CReg) (k : KReg) (ty : CTy) (loft : Bool) (kind : XKind)
    (inLoft : Nat → Inst → Nat → Nat → State → State)
    (global : Nat → Inst → Nat → Nat → Nat → Nat → Nat → State → State)
    (before : Nat → Inst → List Nat → State → State) (s : State) : Host.Outcome State Fault Refusal :=
  let e := ctyBits ty
  stackIssue i s fun n x s =>
    let els := x.enabled k ty
    if els.isEmpty then .go s
    else if x.gmark a then .poisoned s
    else if !loft && !s.scoreRoom n els.length then .wait s
    else
      let grp := s.nextId
      let r := els.foldl (fun (acc : State × GSt) j =>
        match acc.2 with
        | .going =>
          if x.elemMark b e j then (acc.1, .poisoned)
          else
            let va := x.ea a (elemOf e (x.hv b) j * (e / 8))
            if loft then match loftCheck va (e / 8) with
              | some c => (acc.1, .fault c)
              | none => (inLoft n x j va acc.1, .going)
            else match acc.1.cAddr n x va (e / 8) kind with
              | (s, .error c) => (s, .fault c)
              | (s, .ok (leaf, pa)) => (global n x grp j va leaf pa s, .going)
        | _ => acc) (before n x els s, GSt.going)
      let s1 := r.1.afterCreven
      match r.2 with
      | .going => .go s1
      | .fault c => .fault s1 c
      | .poisoned => .poisoned s1

def execVgath (d a b : CReg) (k : KReg) (ty : CTy) (loft : Bool) (s : State) : Host.Outcome State Fault Refusal :=
  let e := ctyBits ty
  velems (.vgath d a b k ty loft) a b k ty loft .load
    (fun n x j va s =>
      let bad := (x.loftMark va (e / 8)).any id
      let cnt := bad && !(((s.score n).run.map fun i => i.marking.contains s.nextId).getD false)
      (s.modInst n fun y =>
        let y1 := y.setH d (putElem e (y.hv d) j (numOf (x.loftRead va (e / 8)))) (y.hmarks d ||| (if bad then 2 ^ (j * e / 64) else 0))
        if bad then { y1 with marking := s.nextId :: y1.marking } else y1).countMark n cnt)
    (fun n x grp j va leaf pa s =>
      let id := s.nextId
      (s.pushAcc (s.scoreAcc n x (.cLoad d.val true [(j, 0)] (e / 8) grp) .rlx va leaf pa (e / 8))).modInst n fun y =>
        { y with pendH := y.pendH ++ [(d.val, id)] })
    (fun n _ els s => s.modInst n fun y => y.clearMarks d ty els) s

def execVscat (d a b : CReg) (k : KReg) (ty : CTy) (loft add : Bool) (s : State) : Host.Outcome State Fault Refusal :=
  let e := ctyBits ty
  let m := e / 8
  velems (.vscat d a b k ty loft add) a b k ty loft (if add then .atomic else .store)
    (fun n x j va s => s.modInst n fun y =>
      y.loftWrite va (bytesOf m (elemOf e (x.hv d) j)) (List.replicate m (x.elemMark d e j)))
    (fun n x _ j va leaf pa s =>
      let v := elemOf e (x.hv d) j
      let p := x.elemMark d e j
      s.pushAcc (s.scoreAcc n x (if add then .cVadd ty v p else .store (bytesOf m v) (List.replicate m p)) .rlx va leaf pa m))
    (fun _ _ _ s => s) s

/-! ### Chunks between stack cores (R393 to R396) -/

/-- Whether an instance may receive a chunk: its level, and its partition. -/
def State.mayReceive (s : State) (i : Inst) (c : Chunk) : Bool :=
  !i.halting && i.sLevel == c.supervisor && (c.supervisor == decide (6 ≤ c.channel)) &&
    (if s.localDev c.srcDev then i.part == c.srcPart
     else s.ctl.acl.any fun e =>
       let v := e.2.toNat
       bitAt v 63 && !bitAt v 40 && fld v 59 48 == c.srcDev && (bitAt v 41 || fld v 47 42 == c.srcPart) && fld v 13 8 == i.part)

/-- What becomes of a chunk at its target stack core. -/
inductive ChunkRes where
  | refused
  | full
  | taken (s : State)
  deriving DecidableEq, Repr

/-- A chunk meets its target stack core: the qualifying instance that started earliest takes it into a free slot. -/
def State.acceptChunk (s : State) (score : Nat) (c : Chunk) : ChunkRes :=
  let k := s.score score
  match leastBy (fun i : Inst => i.started) ((k.run.toList ++ k.parked).filter fun i => s.mayReceive i c) with
  | none => .refused
  | some i =>
    let slots := mget k.channels c.channel []
    if 4 ≤ slots.length then .full
    else .taken ((s.setScore score fun k =>
      { k with channels := mset k.channels c.channel (slots ++ [(⟨c, i.started, s.nextId⟩ : RSlot)]) }).fresh)

/-- The status of a chunk goes back to its sender on RSP (R413). -/
def State.sendStatus (s : State) (score : Nat) (c : Chunk) (st : RStat) : State :=
  let s1 := (s.sendTo (score / 4) c.srcDev (packetOf (s.flitFor 2 c.srcDev 0 false (s.nextId + 1)) 1 []) none).1
  s1.setCtl fun k => { k with toPeer := k.toPeer ++ [(c.srcDev, [BitVec.ofNat 8 st.code])] }

/-- PSEND_CHUNK_ACCEPT: a chunk of another device arrives; it is taken, refused, or waits for a slot. -/
def execPsendChunkAccept (score : Nat) (c : Chunk) (s : State) : Host.Outcome State Fault Refusal :=
  if !(s.stack (score / 4)).alive || s.ctl.boot != .ready then .next s
  else match s.acceptChunk score c with
    | .full => .next s
    | .taken s1 => .next (s1.sendStatus score c .ok)
    | .refused =>
      let s1 := s.event 3 RStat.remoteFault.code 0 3 score (s.stack (score / 4)).ticks 0 (c.srcDev % 4096 + c.srcPart % 64 * 2 ^ 12)
      .next (s1.sendStatus score c .remoteFault)

/-- A send is over: its status goes into the sender's register and, unless OK, into $rerr. -/
def State.endSend (s : State) (n : Nat) (p : PSend) (st : RStat) : State :=
  s.setScore n fun k =>
    let land (i : Inst) : Inst :=
      if i.started ≠ p.inst then i
      else
        let i1 := { i.setG p.dst st.code false with pendG := i.pendG.filter fun q => q.2 != p.id }
        if st = .ok then i1 else i1.failNow st
    { k with psends := k.psends.filter fun q => q.id != p.id, run := k.run.map land }

/-- Whether a send has had its timeout (R319). -/
def State.sendLate (s : State) (n : Nat) (p : PSend) : Bool :=
  decide (p.limit ≤ (s.stack (n / 4)).ticks - p.sent)

/-- PSEND_STATUS: a send inside the package is decided at its target, after those of its sender to the channel that it sent before (R395);
of one to another device the answer is `st`. -/
def execPsendStatus (score id : Nat) (st : RStat) (s : State) : Host.Outcome State Fault Refusal :=
  match (s.score score).psends.find? fun p => p.id == id with
  | none => .next s
  | some p =>
    let late := s.sendLate score p
    let timeout : State := if late then s.endSend score p .timeout else s
    if s.localDev p.dev then
      if ((s.score score).psends.takeWhile fun q => q.id != id).any fun q =>
          s.localDev q.dev && q.target == p.target && q.chunk.channel == p.chunk.channel then .next s
      else if !(s.stack (p.target / 4)).alive then .next timeout
      else match s.acceptChunk p.target p.chunk with
        | .refused => .next (s.endSend score p .remoteFault)
        | .taken s1 => .next (s1.endSend score p .ok)
        | .full => .next timeout
    else if st = .timeout then .next timeout
    else .next (s.endSend score p st)

/-- The path that a chunk takes because an earlier one to its channel is unacknowledged (R417). -/
def State.sameChannelHop (s : State) (dev target ch : Nat) : Option Nat :=
  s.scores.findSome? fun k => (k.psends.find? fun p => p.dev == dev && p.target == target && p.chunk.channel == ch && p.hop.isSome).bind
    fun p => p.hop

def execPsend (d a b c : CReg) (s : State) : Host.Outcome State Fault Refusal :=
  stackIssue (.psend d a b c) s fun n x s =>
    let la := x.gv a
    let tg := x.gv b
    let len := x.gv c
    let dev := fld tg 11 0
    let target := fld tg 17 12
    let ch := fld tg 20 18
    if x.gmark a || x.gmark b || x.gmark c then .poisoned s
    else if la % 64 ≠ 0 ∨ 2 ^ 21 ≤ tg ∨ len < 64 ∨ 4096 < len ∨ len % 64 ≠ 0 ∨ loftBytes < la + len then .fault s eInvalid
    else if !x.sLevel && decide (6 ≤ ch) then .fault s ePriv
    else if 4 ≤ (s.score n).psends.length then .wait s
    else
      let chunk : Chunk :=
        { srcDev := s.ctl.devnum, srcPart := x.part, srcCore := n, channel := ch, supervisor := x.sLevel, len := len,
          bytes := x.loftRead la len, marks := (upFrom 0 (len / 8)).filter fun j => x.loftm.contains (la / 8 + j) }
      let id := s.nextId
      let p : PSend := { id := id, dst := d, inst := x.started, chunk := chunk, dev := dev, target := target,
                         sent := (s.stack (n / 4)).ticks, limit := (s.stack (n / 4)).ftimeout, hop := none }
      let queue (s : State) (p : PSend) : State :=
        s.fresh.setScore n fun k => { k with psends := k.psends ++ [p], run := k.run.map fun y => y.waitG d id }
      if s.localDev dev then .go (queue s p)
      else if s.unreachable dev (target / 4) then .go ((queue s p).endSend n p .peerLost)
      else
        let r := s.sendTo (target / 4) dev (packetOf (s.flitFor 0 dev x.part (!x.sec) id) (1 + len / 64)
          ((upFrom 0 len).map fun o => chunk.marks.contains (o / 8))) (s.sameChannelHop dev target ch)
        .go (queue r.1 { p with hop := r.2 })

def execPrecv (d a b : CReg) (s : State) : Host.Outcome State Fault Refusal :=
  stackIssue (.precv d a b) s fun n x s =>
    let la := x.gv a
    let ch := x.gv b
    if x.gmark a || x.gmark b then .poisoned s
    else if la % 64 ≠ 0 ∨ loftBytes < la + 4096 ∨ 8 ≤ ch then .fault s eInvalid
    else if !x.sLevel && decide (6 ≤ ch) then .fault s ePriv
    else
      let slots := mget (s.score n).channels ch []
      match leastBy (fun r : RSlot => r.order) (slots.filter fun r => r.owner == x.started) with
      | none => .wait s
      | some r =>
        let c := r.chunk
        let pois := (upFrom 0 c.len).map fun o => c.marks.contains (o / 8)
        let s1 := s.setScore n fun k => { k with channels := mset k.channels ch (slots.filter fun q => q.order != r.order) }
        .go (s1.modInst n fun y => (y.loftWrite la (c.bytes.take c.len) pois).setG d (c.len * 2 ^ 18 + c.srcCore * 2 ^ 12 + c.srcDev) false)

/-! ### RESERVED_ENCODING (R57, R376) -/

/-- The issue fields of any word: its run bit and its stall count (R32 to R35). -/
def wordHdr (w : Dword) : Hdr :=
  let x := w.toNat
  if fld x 62 61 = 2 then ⟨bitAt x 63, Fin.ofNat 16 (fld x 60 58), false, Fin.ofNat 8 7⟩ else decHdr x

/-- RESERVED_ENCODING: a word that is no instruction raises E_ILLEGAL, on a warp for its whole issue set. -/
def execReservedEncoding (word : Dword) (s : State) : Host.Outcome State Fault Refusal :=
  match s.turn with
  | .score n =>
    (match (s.score n).run with
     | none => .fault .noIssuer
     | some x => .next (if x.halting then s else s.stackFault n x eIllegal))
  | .warp c w =>
    (match s.warp? c w with
     | none => .fault .noIssuer
     | some wp =>
       match wp.issuePc with
       | none => .next s
       | some pc =>
         let now := s.now c
         let wp1 := wp.prune now
         let set := wp1.issueSet pc
         let x : Iss := ⟨c, w, set, [], pc, wp1, now, s.ticket⟩
         let s0 := s.setWarp c w fun _ => wp1
         .next (((s0.advance x).takeFaults x set (.of eIllegal 0)).finish x (wordHdr word) .trap))
  | .idle => .fault .noIssuer

/-! ### Starting, parking and resuming instances (R367, R373, R374, R398, R399) -/

/-- Whether a stack core can run an instance now. -/
def State.scoreOpen (s : State) (n : Nat) : Bool :=
  let t := s.stack (n / 4)
  t.alive && t.scEn && (s.score n).enabled && (s.score n).run.isNone && s.coresRun

/-- Whether a partition is switched out: contexts of it are parked or saved, and no core belongs to it. When a stack core's partition is
switched out the spec does not say (DESIGN CHOICE, log 130). -/
def State.partOut (s : State) (p : Nat) : Bool := s.partLives p && (upFrom 0 64).all fun c => s.ctl.cpart? c != some p

/-- The next instance of a stack core's queue: an S-level one does not wait for others, and one that is parked because its partition is
switched out holds no stack core (R367, R374, R398). -/
def State.nextInst (s : State) (n : Nat) : Option Inst :=
  let k := s.score n
  match k.queue.find? fun i => i.sLevel with
  | some i => some i
  | none => if k.parked.all fun i => s.partOut i.part then k.queue.head? else none

/-- STACK_INSTANCE_START: an instance begins on its stack core once the core is free. -/
def execStackInstanceStart (score : Nat) (s : State) : Host.Outcome State Fault Refusal :=
  let s0 := s.reapScore score
  if !s0.scoreOpen score then .next s0
  else match s0.nextInst score with
    | none => .next s0
    | some i => .next (s0.setScore score fun k => { k with run := some i, queue := k.queue.filter fun q => q.started != i.started })

/-- Whether the control die parks the running instance: an S-level one waits for its stack core, or its partition is switched out, and
one of the three slots of parked context is free. -/
def State.parkDue (s : State) (n : Nat) : Bool :=
  let k := s.score n
  match k.run with
  | some i => !i.sLevel && !i.halting && (k.queue.any (fun q => q.sLevel) || s.partOut i.part) && decide (k.parked.length < 3)
  | none => false

/-- The context of an instance is written to a slot of its stack core's save area (R398, R399); the layout is not architectural, so every
byte of the 320 KiB is free. -/
def State.saveBytes (s : State) (n slot : Nat) : State :=
  let base := n / 4 * 2 ^ 36 + (s.stack (n / 4)).scBase * 2 ^ 22 + n % 4 * 2 ^ 20 + slot * 0x50000
  (upFrom 0 2560).foldl (fun (s : State) i =>
    s.homeWrite (base + 128 * i) 0 ((upFrom 0 32).flatMap fun j => bytesOf 4 (Config.undef s.ticket (2 ^ 45 + 32 * i + j)).toNat)
      (List.replicate 128 false)) s

/-- The lowest of the three slots that no parked instance holds. -/
def SCore.freeSlot (k : SCore) : Nat := ((upFrom 0 3).find? fun j => k.parked.all fun i => i.slot != j).getD 0

/-- STACK_CORE_PARK: the running instance stops at an instruction boundary, once its accesses and sends are over; a wait at a
SWWAIT is made again after the restore, and its reservation is cancelled. -/
def execStackCorePark (score : Nat) (s : State) : Host.Outcome State Fault Refusal :=
  let waits (a : Acc) : Bool := a.isWait && a.who == .score score
  if !s.parkDue score || !(s.score score).psends.isEmpty || (s.accs.any fun a => !a.performed && a.who == .score score && !a.isWait) then
    .next s
  else
    let j := (s.score score).freeSlot
    let s1 := { s with accs := s.accs.filter fun a => !waits a }.saveBytes score j
    .next (s1.setScore score fun k => SCore.cancelResv
      { k with parked := k.parked ++ (k.run.map fun i => { i with marking := [], slot := j }).toList, run := none, bwait := none })

/-- STACK_CORE_RESUME: a parked instance is restored once its stack core is free, and its partition is not switched out. -/
def execStackCoreResume (score : Nat) (s : State) : Host.Outcome State Fault Refusal :=
  let s0 := s.reapScore score
  if !s0.scoreOpen score || (s0.score score).queue.any fun q => q.sLevel then .next s0
  else match leastBy (fun i : Inst => i.started) ((s0.score score).parked.filter fun i => !s0.partOut i.part) with
    | none => .next s0
    | some i => .next (s0.setScore score fun k => { k with run := some i, parked := k.parked.filter fun q => q.started != i.started })

/-! ### Instances of Maelyon programs (R373, R402, R405) -/

/-- A stack core's rack pays a part of what it holds, as the program's instructions may. -/
def State.drawSome (s : State) (n : Nat) : State :=
  s.setScore n fun k => { k with rack := k.rack - Config.choice s.ticket (2 ^ 37 + 3 + n) % (k.rack + 1) }

/-- What an instance of a Maelyon program does at its stack core's turn, beside the effects that events state. It receives what was sent
to it. One that serves a collective draws a part of its bales, or waits for one as any priced word does (R182, R185, R197). One that
copies a snapshot ends with it; one of optical housekeeping ends when it will. -/
def State.serveWork (s : State) (n : Nat) (x : Inst) (sv : Serve) : State :=
  let s1 := s.setScore n fun k =>
    { k with channels := k.channels.map fun c => (c.1, c.2.filter fun r => r.owner != x.started) }
  match sv with
  | .coll _ 0 => s1
  | .coll id b =>
    let a := 1 + Config.choice s.ticket (2 ^ 37 + n) % max 1 (min (s1.score n).rack b)
    (match (s1.score n).pay a with
     | some k => s1.setScore n fun _ => { k with run := some { x with serve := some (.coll id (b - a)) }, bwait := none }
     | none => s1.setScore n fun k => k.noteWait (s.stack (n / 4)).scCycles 0 .crevenFence 1)
  | .snapshot => if (s.stack (n / 4)).snapSt = .copying then s1.drawSome n else s1.endInstance n x
  | .housekeeping => if Config.choice s.ticket (2 ^ 37 + n) % 2 = 0 then s1.drawSome n else s1.endInstance n x

/-- The control die starts optical housekeeping on a stack core, when it will (R405). -/
def State.startHouse (s : State) (n : Nat) : State :=
  let k := s.score n
  if (k.queue ++ k.run.toList).any (fun i => i.serve == some .housekeeping) || !k.enabled || !(s.stack (n / 4)).alive then s
  else { s.setScore n (fun c => { c with queue := c.queue ++ [Inst.maelyon .housekeeping 0 0 0 true s.nextId] }) with nextId := s.nextId + 1 }

end Sys2Proof.Machine
end

