-- ==== Sys2Proof/Machine/Fail.lean ====
section
/-! DEFINITION. Contexts and pre-emption (R445 to R450), the failures of package parts (R12 to R16, R25, R369, R451), errors
(R452) and snapshots (R456 to R459). -/

namespace Sys2Proof.Machine

/-! ### Pre-emption (R445, R449) -/

/-- A partition's save region (R449). -/
def State.saveOf (s : State) (part : Nat) : SaveReg := mget s.ctl.saves part ⟨0, 0, false, false⟩

/-- PREEMPT_REQUEST: the control die asks for the stop of every warp of the partition that a core runs; a partition without a
valid save region is never pre-empted. -/
def execPreemptRequest (core : Nat) (s : State) : Host.Outcome State Fault Refusal :=
  let k := s.core core
  let saved := match k.ctx.part with
    | some p => (s.saveOf p).v
    | none => true
  if s.ctl.alive && (s.die (dieOf core)).st == .up && saved then .next (s.setCore core fun x => { x with preempt := some k.ctx.part })
  else .next s

/-- Whether every warp of a core has stopped (R445): the last words' passes and their effects on slots and tile registers are done. -/
def Core.allStopped (k : Core) : Bool :=
  k.ctx.warps.all (fun w => w.2.run.isNone) && (k.slots.all fun sl => sl.cur.isNone) && k.passes.isEmpty && k.ctx.settles.isEmpty

/-- A thread as it is parked: a NAP keeps what is left of its count, a wait how long it has lasted. -/
def Thread.park (t : Thread) (now ticks : Nat) : Thread :=
  { t with st := (match t.st with
             | .nap e => .nap (e - now)
             | x => x),
           lastPage := none, waitSince := ticks - t.waitSince }

def Thread.unpark (t : Thread) (now ticks : Nat) : Thread :=
  { t with st := (match t.st with
             | .nap left => .nap (now + left)
             | x => x),
           waitSince := ticks - t.waitSince }

/-- A warp as it is parked: what R447 does not save is gone. -/
def Warp.park (w : Warp) (now ticks : Nat) : Warp :=
  { w with threads := w.threads.map fun t => t.park now ticks, fresh := [], run := none, bwait := none, phase := 0, ties := [], held := false }

def Warp.unpark (w : Warp) (now ticks : Nat) : Warp :=
  { w with threads := w.threads.map fun t => t.unpark now ticks, readyAt := now, nextIssue := now }

def Ctx.mapWarps (x : Ctx) (f : Warp → Warp) : Ctx := { x with warps := x.warps.map fun w => (w.1, f w.2) }

/-- Whether a context holds nothing. -/
def Ctx.isEmpty (x : Ctx) : Bool := x.warps.isEmpty && x.views.isEmpty && x.copyQ.isEmpty && x.matCmds.isEmpty && x.groups.recs.isEmpty

/-- Whether no engine command of a context is under way (R446). -/
def Ctx.enginesStopped (x : Ctx) : Bool := x.mat.cur.isNone && x.copyQ.all fun c => c.stopped

/-- Whether the accesses of a context that had issued are complete, so that it may resume (R446, R450). -/
def State.ctxDone (s : State) (core : Nat) (x : Ctx) : Bool :=
  x.enginesStopped && s.accs.all fun a =>
    a.performed || a.isWait || a.isFence || a.isPagein || (match a.who with
      | .thread t => t.core != core || !(x.warps.any fun w => w.1 == t.warp && w.2.launch == a.launch)
      | .score _ => true)

/-! ### CONTEXT_SWAP, TWIN_DRAIN_END, CONTEXT_RESTORE (R447 to R450) -/

/-- Flip a core's twins: `x` becomes ACTIVE for a partition, the outgoing context PARKED, and CPART names the partition. A copy command
that has not stopped keeps its wait for bales (R184, R446); a WAITC whose commands completed while its context was parked ends as the
context comes back (R289), and a core left without a resident warp takes its regulator (R193). -/
def State.flip (s : State) (core part : Nat) (x : Ctx) : State :=
  let k := s.core core
  let ticks := (s.die (dieOf core)).ticks
  let out : Ctx := { k.ctx.mapWarps (fun w => w.park k.cycles ticks) with
    copyQ := k.ctx.copyQ.map fun c => if c.stopped then { c with wait := none } else c }
  let clear (k : Core) : Core := if out.copyQ.all fun c => c.stopped then k.cancelResv .copy else k
  let inn : Ctx := { x.mapWarps (fun w => w.unpark k.cycles ticks) with part := some part }
  let s1 := s.setCore core fun k =>
    (upFrom 0 64).foldl (fun k w => k.cancelResv (.warp w)) (clear
      { k with ctx := inn, twin := if out.isEmpty then .free else .parked out, preempt := none,
               slots := k.slots.map fun sl => { sl with cur := none } })
  (((s1.setCtl fun c => { c with cpart := mset c.cpart core (true, part) }).setDie (dieOf core) fun d =>
    { d with ring := { d.ring with heldCores := markOut d.ring.heldCores (core % 8) } }).settleEngines core).applyRegulator core

/-- A STAGED context that is not wanted leaves its twin; the save region still holds it. -/
def Core.unstage (k : Core) (part : Nat) : Core :=
  match k.twin with
  | .staged c => if c.part = some part then k else
      { k with twin := .free, saved := match c.part with
        | some p => mset k.saved p c
        | none => k.saved }
  | _ => k

/-- CONTEXT_SWAP: once every warp of a core under pre-emption has stopped, the twins flip to a partition's context: the one
STAGED or PARKED in the other twin, or a new empty one where none of the partition is saved for this core. -/
def execContextSwap (core part : Nat) (s : State) : Host.Outcome State Fault Refusal :=
  let k := (s.core core).unstage part
  if k.preempt.isNone || !k.allStopped || !(s.saveOf part).v || !s.ctl.alive then .next s
  else
    let s1 := s.setCore core fun _ => k
    match k.twin with
    | .staged c => .next (if s.ctxDone core c then s1.flip core part c else s1)
    | .parked c => .next (if c.part = some part && s.ctxDone core c then s1.flip core part c else s1)
    | .free => .next (if (mget? k.saved part).isNone then s1.flip core part .empty else s1)

/-- The bytes of a core's part of a save region after a drain: the layout is not architectural, so every one is free. -/
def State.drainBytes (s : State) (core part : Nat) : State :=
  let r := s.saveOf part
  if s.keyRefused r.key r.sec then s
  else (upFrom 0 49152).foldl (fun (s : State) i =>
    let a := r.base * 2 ^ 16 + 0x600000 * core + 128 * i
    match linOf a with
    | none => s
    | some lin =>
      s.homeWrite lin r.key ((upFrom 0 32).flatMap fun j => bytesOf 4 (Config.undef s.ticket (2 ^ 44 + 32 * i + j)).toNat)
        (List.replicate 128 false)) s

/-- TWIN_DRAIN_END: a PARKED twin whose engine commands have stopped has drained to its save region, and is FREE. -/
def execTwinDrainEnd (core : Nat) (s : State) : Host.Outcome State Fault Refusal :=
  match (s.core core).twin with
  | .parked c =>
    if !c.enginesStopped then .next s
    else match c.part with
      | none => .next s
      | some p => .next ((s.drainBytes core p).setCore core fun k => { k with twin := .free, saved := mset k.saved p c })
  | _ => .next s

/-- CONTEXT_RESTORE: the context of a partition saved from this core is read into the FREE twin, and is STAGED. -/
def execContextRestore (core part : Nat) (s : State) : Host.Outcome State Fault Refusal :=
  let k := (s.core core).unstage part
  match k.twin, mget? k.saved part with
  | .free, some c => .next (s.setCore core fun _ => { k with twin := .staged c, saved := mdel k.saved part })
  | _, _ => .next s

/-! ### Failures of compute dies (R25, R369, R451, R355) -/

/-- Whether an access is one of a core of a die. -/
def Acc.ofDie (a : Acc) (k : Nat) : Bool := a.die? == some k

/-- What an access in flight of a lost die comes to: each store, copy write or sync-word add that had been sent is performed or
not, an atomic is performed where it is executed at its home. -/
def State.lostAcc (s : State) (k : Nat) (a : Acc) : State :=
  if a.queued || a.performed || a.sent.isNone || a.dev.isSome || !s.homeUp a || s.refused a then s
  else match a.kind with
    | .atomic op cas ra u _ _ lanes => (s.atomAll a op cas ra u (lanes.filter fun x => !s.atomInDie k (a.at x))).1
    | _ => if a.stores && !a.inDie && Config.early s.ticket (2 ^ 45 + a.id) then s.performStore a else s

/-- Whether a die holds threads of a launch (R369). -/
def State.dieHolds (s : State) (k l : Nat) : Bool :=
  (upFrom (8 * k) 8).any fun c => (s.core c).ctxs.any fun x => x.warps.any fun w => w.2.launch == l

/-- Count an uncorrectable error at a core. -/
def Core.addUncorr (k : Core) (n : Nat) : Core := { k with uncorr := k.uncorr + BitVec.ofNat 32 n }

/-- A core of a die that is lost, or reset: it is as after reset (R24), but for what the control die holds of it: whether it is enabled,
its partition and its regulator. -/
def Core.lost (k : Core) (n : Nat) (part : Option Nat) : Core :=
  { Core.reset n with enabled := k.enabled, regulator := k.regulator, ctx := { Ctx.empty with part := part } }

/-- The ring of a die that does not run: the control die goes on handing the ROWPART that it had (R180). -/
def Ring.lost (r : Ring) : Ring :=
  { Ring.reset with nextAllow := r.nextAllow, nextRowpart := r.nextRowpart, base := r.base }

/-- A die is lost (0), reset (1) or powered down (2). -/
def State.loseDie (s : State) (k code : Nat) : State :=
  let st : DieSt := if code = 0 then .lost else if code = 1 then .reset else .down
  -- the launches with threads there end; the parts of others wait to be split afresh
  let s1 := s.launches.foldl (fun s p => if s.dieHolds k p.1 then s.endLaunch p.1 .dieLost 0 else s) s
  let s2 := (s1.die k).ranges.foldl (fun (s : State) r =>
    s.setLaunch r.launch fun l => { l with waitingPart := l.waitingPart ++ [(r.lo, r.hi)] }) s1
  -- what is in flight
  let s3 := (s2.accs.filter fun a => a.ofDie k).foldl (fun s a => s.lostAcc k a) s2
  let trim (r : Raise) : Raise := { r with ths := r.ths.filter fun t => dieOf t.core != k }
  let s4 : State := { s3 with accs := s3.accs.filter (fun a => !a.ofDie k),
                              penRels := s3.penRels.filter (fun r => dieOf r.core != k),
                              ctl := { s3.ctl with raises := s3.ctl.raises.map trim } }
  -- borrowed lines return
  let s5 := ((s4.die k).dc.filter fun p => p.2.borrowed).foldl (fun (s : State) p => s.recallLine k p.1) s4
  let s6 := (upFrom (8 * k) 8).foldl (fun (s : State) c =>
    s.setCore c fun x => (x.lost c (s.ctl.cpart? c)).addUncorr 1) s5
  let s7 := s6.setDie k fun d => { Die.reset with st := st, ring := d.ring.lost }
  (((upFrom (8 * k) 8).foldl (fun (s : State) c => s.applyRegulator c) s7).event 5 code 0 1 k s7.ctl.ticks 0 k).mendYard

/-- DIE_LOST. -/
def execDieLost (die code : Nat) (s : State) : Host.Outcome State Fault Refusal :=
  if 8 ≤ die ∨ 3 ≤ code ∨ ((s.die die).st ≠ .up ∧ code = 0) then .next s else .next (s.loseDie die code).resplit

/-- The control die brings a die back (R451): its state is that after reset (R24), every twin FREE, and turn 0 of its ring starts, with
its first visit (R177, R179, R180). -/
def State.restoreDie (s : State) (k : Nat) : State :=
  if (s.die k).st = .up then s
  else
    let s1 := s.setDie k fun _ => { Die.reset with ring := { Ring.reset with base := s.clock } }
    { s1 with rows := lmod s1.rows (k % 4) (fun r => { r with bank := r.bank + Ring.reset.rowpart }),
              agenda := s1.agenda ++ [.ev (.ringVisit k 0)] }

/-! ### Failures of base dies, ports, links and the control die (R25) -/

/-- STACK_LOST: a base die fails; its memory is unreachable, its stack cores stop, and every launch ends. -/
def execStackLost (stack : Nat) (s : State) : Host.Outcome State Fault Refusal :=
  if 16 ≤ stack ∨ !(s.stack stack).alive then .next s
  else
    let mine (n : Nat) : Bool := n / 4 == stack
    let s1 := s.launches.foldl (fun (s : State) p => s.endLaunch p.1 .stackLost 0) s
    let s2 := s1.setStack stack fun t =>
      { t with alive := false, uncorr := t.uncorr + 1, paths := t.paths.map fun _ => .reset }
    let s3 := (upFrom (4 * stack) 4).foldl (fun (s : State) n => s.setScore n fun k => { SCore.reset with enabled := k.enabled }) s2
    let s4 := { s3 with accs := s3.accs.filter fun a => match a.who with
      | .score n => !mine n
      | .thread _ => true }
    .next (s4.event 6 0 0 2 stack s4.ctl.ticks 0 stack).mendYard

/-- The record of a failure for which R455 has no type: its words are free but for the device. -/
def State.failRecord (s : State) : State :=
  let f (i : Nat) : Nat := Config.choice s.ticket (2 ^ 46 + i)
  s.event (f 0 % 256) (f 1) 0 (f 2) (f 3) s.ctl.ticks (f 4) (f 5)

/-- ATTACH_PORT_FAILURE: traffic for a column goes through the next port upward; no launch ends. Whether the error also counts
at the die's cores is open. -/
def execAttachPortFailure (die col : Nat) (s : State) : Host.Outcome State Fault Refusal :=
  let s1 := s.setCtl fun k => { k with badPorts := if k.badPorts.contains (die, col) then k.badPorts else (die, col) :: k.badPorts }
  let s2 := (s1.stackUncorr (stackAt (die % 4) (col % 4)))
  let s3 := (upFrom (8 * die) 8).foldl (fun (s : State) c =>
    s.setCore c fun x => x.addUncorr (Config.choice s.ticket (2 ^ 47 + c) % 2)) s2
  .next s3.failRecord.mendYard

/-- YARD_LINK_FAILURE: traffic over the link takes its detour; no launch ends. -/
def execYardLinkFailure (a b : Nat) (s : State) : Host.Outcome State Fault Refusal :=
  let l := (min a b, max a b)
  let s1 := s.setCtl fun k => { k with badLinks := if k.badLinks.contains l then k.badLinks else l :: k.badLinks }
  .next (((s1.stackUncorr a).stackUncorr b).failRecord).mendYard

/-- CONTROL_DIE_FAILURE: there are no walks, no host bridge and no heartbeat any more; only power-up recovers the package. -/
def execControlDieFailure (s : State) : Host.Outcome State Fault Refusal :=
  .next (if s.ctl.alive then s.failRecord.setCtl fun k => { k with alive := false } else s)

/-- Cycles of 1 ms (R25) at the 3 GHz core clock. -/
def heartbeatCycles : Nat := 3000000

/-- HEARTBEAT_TIMEOUT: 1 ms after the control die's last heartbeat every base die holds the cores and stack cores. -/
def execHeartbeatTimeout (s : State) : Host.Outcome State Fault Refusal :=
  if !s.ctl.alive ∧ 30 * s.ctl.ticks + heartbeatCycles ≤ s.clock then .next (s.setCtl fun k => { k with heartbeat := false })
  else .next s

/-- What asked for a walk that cannot be made does not happen yet. -/
def State.unstuck (old new : State) : State := if new.walkLost then { old with walkLost := false } else new

/-! ### Errors (R452) -/

/-- The core at which an error of a die's array is counted: the one that holds the shed, else one of the Veger's choice. -/
def State.errCore (s : State) (k : Nat) (shed : Option Nat) : Nat :=
  let held := shed.bind fun n => (s.die k).shedMap.find? fun e => e.2.st != .empty && e.2.shed == n
  match held with
  | some e => 8 * k + e.1 / 64
  | none => 8 * k + Config.choice s.ticket (2 ^ 48) % 8

/-- Where an error is counted: a core, or a stack. -/
def State.errAt (s : State) (p : ErrPlace) : Sum Nat Nat :=
  match p with
  | .vreg t _ => .inl t.core
  | .ureg c _ _ => .inl c
  | .tileRow c _ _ _ => .inl c
  | .manger c _ _ _ => .inl c
  | .shedWord k n _ => .inl (s.errCore k (some n))
  | .l1 c _ => .inl c
  | .dieCache k _ => .inl (s.errCore k none)
  | .memory sec => .inr (homeOf (32 * sec))

/-- CORRECTED_ERROR: it is counted, and changes no value. -/
def execCorrectedError (p : ErrPlace) (s : State) : Host.Outcome State Fault Refusal :=
  .next (match s.errAt p with
    | .inl c => s.setCore c fun k => { k with corr := k.corr + 1 }
    | .inr k => s.setStack k fun t => { t with corr := t.corr + 1 })

/-- A cached line whose sector is marked. -/
def Copy.markSector (c : Copy) (i : Nat) : Copy := { c with marks := c.marks ||| 2 ^ (i % 4) }

/-- The mark of an uncorrectable error. -/
def State.errMark (s : State) (p : ErrPlace) : State :=
  match p with
  | .vreg t n => s.setWarp t.core t.warp fun w => w.write (.v n) t.lane ⟨Config.undef s.ticket (rkey (.v n) t.lane), .poison⟩
  | .ureg c w n => s.setWarp c w fun x => x.write (.w n) 0 ⟨Config.undef s.ticket (rkey (.w n) 0), .poison⟩
  | .tileRow c l t r => s.modView c l fun v => { v with tiles := lmod v.tiles t fun x => x.setTag r .poison }
  | .manger c l m sec => s.modView c l fun v => { v with slots := lmod v.slots m fun x => { x with marks := markIn x.marks sec } }
  | .shedWord k n w => s.setDie k fun d =>
      { d with sheds := mset d.sheds n { mget d.sheds n ⟨[], [], []⟩ with marks := markIn (mget d.sheds n ⟨[], [], []⟩).marks w } }
  | .l1 c n => s.setCore c fun k => { k with l1 := mmod k.l1 (n / 4) fun x => x.markSector n }
  | .dieCache k n => s.setDie k fun d => { d with dc := mmod d.dc (n / 4) fun x => x.markSector n }
  | .memory sec => { s with marks := markIn s.marks sec }

/-- UNCORRECTABLE_ERROR: its register, row or sector is poisoned and it is counted; an error of stack memory makes a record. -/
def execUncorrectableError (p : ErrPlace) (s : State) : Host.Outcome State Fault Refusal :=
  let s1 := s.errMark p
  .next (match p, s.errAt p with
    | .memory sec, .inr k =>
      (s1.stackUncorr k).event 4 0 0 2 k (s.stack k).ticks (s.ctl.devnum % 4096 * 2 ^ 52 + intOf (32 * sec)) 1
    | _, .inl c => s1.setCore c fun k => k.addUncorr 1
    | _, .inr k => s1.stackUncorr k)

/-! ### Snapshots (R457, R458) -/

/-- SNAPSHOT_OPEN: the open that a write of SNAPCTL asks for. -/
def execSnapshotOpen (stack : Nat) (s : State) : Host.Outcome State Fault Refusal :=
  if (s.stack stack).alive then .next (s.snapOpen stack) else .next s

/-- Whether the instance of the snapshot program runs on a stack core of a stack (R405). -/
def State.snapRuns (s : State) (stack : Nat) : Bool :=
  (upFrom (4 * stack) 4).any fun n => ((s.score n).run.map fun i => i.serve == some .snapshot).getD false

/-- SNAPSHOT_UNIT_COPY: the program's instance writes the lowest frozen unit to the stream; on another device, or in host memory, `ok`
says whether the writes completed. -/
def execSnapshotUnitCopy (stack : Nat) (ok : Bool) (s : State) : Host.Outcome State Fault Refusal :=
  let t := s.stack stack
  match t.frozen with
  | [] => .next s
  | u :: _ =>
    if !t.alive || !s.snapRuns stack then .next s
    else if !ok && t.snapDev != 0xFFF && t.snapDev != s.ctl.devnum then .next (s.snapFail stack)
    else .next (State.snapOne (fun s p bs ms => s.homeWrite p 0 bs ms) s stack u)

end Sys2Proof.Machine
end

