-- ==== Sys2Proof/Machine/Host.lean ====
section
/-! DEFINITION. Power-up and the safe state (R462 to R464), the host bridge (R431 to R434) and the Ezkotum messages that the
grooms handle (R465 to R467, R477). -/

namespace Sys2Proof.Machine

/-! ### Power-up (R462 to R464) -/

/-- The copies of the configuration image whose signature is valid, by number. -/
def Control.validImages (k : Control) : List (Nat × Image) := ((upFrom 0 k.images.length).zip k.images).filter fun p => p.2.valid

/-- The copy that the grooms accept: the valid one with the higher version, either of two that tie (R463). -/
def State.acceptImage (s : State) : Option (Nat × Image) :=
  match s.ctl.validImages with
  | [] => none
  | [a] => some a
  | a :: b :: _ =>
    if a.2.version < b.2.version then some b
    else if b.2.version < a.2.version then some a
    else if Config.choice s.ticket (2 ^ 49) % 2 = 0 then some a else some b

/-- What the accepted image supplies that the model holds. -/
def Control.configure (k : Control) (n : Nat) (i : Image) : Control :=
  { k with devnum := i.devnum.toNat, bridge := i.bridge, imageVersion := i.version, accepted := some n, kwKey := i.kwKey }

/-- The safe state (R464): every core and stack core is held, every key slot is EMPTY, and only the MGMT lanes are lit, or none
where no valid image exists. -/
def State.enterSafe (s : State) (stage code ukind unit detail : Nat) : State :=
  let dark := s.ctl.accepted.isNone
  let s1 := s.setCtl fun k =>
    { k with boot := .safe, stage := stage, bootCode := code, bootUkind := ukind, bootUnit := unit, bootDetail := detail, keys := [] }
  { s1 with
    stks := s1.stks.map fun t =>
      { t with scEn := false, live := (upFrom 0 6).map fun f => if dark ∨ (f ≠ 0 ∧ f ≠ 4) then 0 else (0xFFFE : Word),
               paths := t.paths.map fun x => { Path.reset with replays := x.replays, corrupt := x.corrupt } } }

/-- READY: SCSAVE.EN is set on every base die, the enabled cores are released, and STATE becomes READY. -/
def State.enterReady (s : State) (i : Image) : State :=
  { s with
    cores := ((upFrom 0 64).zip s.cores).map fun p =>
      { p.2 with enabled := bitAt i.cores.toNat p.1 && bitAt i.dies.toNat (dieOf p.1) },
    dies := ((upFrom 0 8).zip s.dies).map fun p => if bitAt i.dies.toNat p.1 then p.2 else { p.2 with st := .down },
    scores := ((upFrom 0 64).zip s.scores).map fun p => { p.2 with enabled := bitAt i.stackCores.toNat p.1 },
    stks := ((upFrom 0 16).zip s.stks).map fun p =>
      { p.2 with scEn := true, heat := (upFrom 0 6).map fun f => lget i.heaters (6 * p.1 + f) 0x800 },
    ctl := { s.ctl with boot := .ready, stage := 7, bootCode := 0, bootUkind := 0, bootUnit := 0, bootDetail := 0 } }

/-- POWER_UP: the package starts from its reset state; the grooms accept an image and run the stages. `fail` is the first failure
that the self-test finds. The flash keeps its images. -/
def execPowerUp (fail : Option BootFail) (s : State) : Host.Outcome State Fault Refusal :=
  let s0 : State := { State.reset with agenda := s.agenda, ticket := s.ticket, ctl := { Control.reset with images := s.ctl.images } }
  match s0.acceptImage with
  | none => .next (s0.enterSafe 1 1 4 0 0)
  | some (n, i) =>
    let s1 := s0.setCtl fun k => k.configure n i
    match fail with
    | some f => .next (s1.enterSafe f.stage.val f.code.toNat f.ukind.toNat f.unit.toNat f.detail.toNat)
    | none => .next (s1.enterReady i)

/-! ### The host bridge (R431 to R434) -/

/-- Whether the host bridge is enabled (R431, R464). -/
def Control.hostUp (k : Control) : Bool := k.alive && (k.bridge || (k.boot == .safe && k.accepted.isNone))

/-- A completion that the host receives: of a read at an offset, its bytes; none for an Unsupported Request. -/
def State.complete? (s : State) (off : Nat) (bs : List Byte) : State := s.setCtl fun k => { k with toHost := k.toHost ++ [(off, bs)] }

/-- MSIX_UNMASK: a vector is unmasked, and its pending message is sent (R432). -/
def execMsixUnmask (vector : Nat) (s : State) : Host.Outcome State Fault Refusal :=
  .next (s.setCtl fun k =>
    let k' := { k with msixMask := markOut k.msixMask vector, msixPend := markOut k.msixPend vector }
    if k.msixPend.contains vector then k'.msix vector else k')

/-- An access of the host through a BAR2 window to the memory of this package: a non-secure SYSTEM access (R322, R433). Regions
10 and 11 and what lies outside memory complete with REMOTE_FAULT. -/
def State.hostLocal (s : State) (pa size : Nat) (write : Option (List Byte)) : State × Reply :=
  let bs := match write with
    | some w => w
    | none => List.replicate size 0
  match linPieces pa bs (List.replicate bs.length false) 40 with
  | none => (s, .status .remoteFault)
  | some ps =>
    if s.ctl.boot ≠ .ready ∨ 2 ≤ regionOf pa ∨ 2 ≤ regionOf (pa + bs.length - 1) then (s, .status .remoteFault)
    else if !(ps.all fun p => (s.stack (homeOf p.1)).alive) then (s, .status .timeout)
    else match write with
      | some _ => (ps.foldl (fun (s : State) p => s.writeHome p.1 0 p.2.1 p.2.2 none) s, .data [] false)
      | none =>
        let r := ps.foldl (fun (acc : State × List Byte × Bool) p =>
          let r := acc.1.readHome p.1 p.2.1.length 0 none
          (r.1, acc.2.1 ++ r.2.1, acc.2.2 || r.2.2.any id)) (s, [], false)
        (r.1, .data r.2.1 r.2.2)

/-- BAR2_ACCESS: a host access through a window; `r` is what another device answers. -/
def execBar2Access (off size : Nat) (write : Option (List Byte)) (r : Reply) (s : State) : Host.Outcome State Fault Refusal :=
  if !s.ctl.hostUp || decide (2 ^ 38 ≤ off) then .next s
  else
    let w := (mget s.ctl.hostwin (off / 2 ^ 36) (0 : Dword)).toNat
    let dev := fld w 55 44
    let pa := fld w 43 36 * 2 ^ 36 + off % 2 ^ 36
    let refuse (s : State) (code : Nat) : State :=
      let s1 := s.event 0x0B code 0 4 0 s.ctl.ticks (dev * 2 ^ 52 + pa) off
      if write.isSome then s1 else s1.complete? off []
    if s.ctl.boot ≠ .ready ∨ !bitAt w 63 then .next (refuse s (Config.choice s.ticket (2 ^ 50)))
    else
      let x : State × Reply :=
        if s.localDev dev then s.hostLocal pa size write
        else if s.unreachable dev (targetStack pa) then (s, .status .peerLost)
        else (s, r)
      match x.2 with
      | .status .ok => .next x.1
      | .status st => .next (refuse x.1 st.code)
      | .data bs _ => .next (if write.isSome then x.1 else x.1.complete? off (bs.take size))

/-! ### Messages (R465, R466) -/

def msgOk : Nat := 0
def msgBadType : Nat := 1
def msgBadArg : Nat := 2
def msgDenied : Nat := 3
def msgBusy : Nat := 4
def msgSafe : Nat := 5

/-- The types that the grooms answer in the safe state, and those that they admit from peers (R467). -/
def typeSafe (t : Nat) : Bool := [0x01, 0x0D, 0x0E, 0x12, 0x14].contains t
def typePeers (t : Nat) : Bool := [0x01, 0x0F, 0x10, 0x13].contains t

/-- What a handler comes to: the state, the status and the values answered. -/
abbrev Handled := State × Nat × List Nat

/-- The bytes of an answer: header and payload; the TAG is echoed. -/
def answerBytes (typ tag st : Nat) (fields : List Nat) : List Byte :=
  let body := (Config.answer typ fields).take 240
  bytesOf 2 typ ++ bytesOf 2 body.length ++ bytesOf 4 tag ++ bytesOf 1 st ++ bytesOf 7 0 ++ body

/-- Answer a message: into the mailbox, where DONE becomes 1 and vector 0 is raised, or to the peer, as an MGMT message from S00 of 1 to 4
flits (R413, R430; the stack and the number are DESIGN CHOICE, log 132). A peer's tag is its own. -/
def State.reply (s : State) (src : MsgFrom) (typ st : Nat) (fields : List Nat) : State :=
  match src with
  | .mailbox => s.setCtl fun k =>
      Control.msix { k with mbox := { k.mbox with ans := answerBytes typ (numOf ((k.mbox.req.drop 4).take 4)) st fields,
                                                  done := true, busy := false } } 0
  | .peer d =>
    let bs := answerBytes typ (Config.choice s.ticket (2 ^ 51)) st fields
    (s.setCtl fun k => { k with toPeer := k.toPeer ++ [(d, bs)] }).sendMgmt 0 d
      (packetOf (s.flitFor 3 d 0 false (s.nextId + 1)) (1 + Config.choice s.ticket (2 ^ 51 + 1) % 4) [])

/-- The grooms handle one message whole, and answer it: refused where the table of R467 does not admit it. A refused message
changes nothing. -/
def State.handle (s : State) (src : MsgFrom) (typ : Nat) (f : State → Handled) : State :=
  if !s.ctl.alive then s
  else
    let denied := match src with
      | .peer _ => !typePeers typ
      | .mailbox => false
    if denied then s.reply src typ msgDenied []
    else if s.ctl.boot = .safe ∧ !typeSafe typ then s.reply src typ msgSafe []
    else
      let r := f s
      if r.2.1 = msgOk then r.1.reply src typ msgOk r.2.2 else s.reply src typ r.2.1 []

/-- A message is handled when its fields are in range. -/
def checked (ok : Bool) (f : State → State) (s : State) : Handled := if ok then (f s, msgOk, []) else (s, msgBadArg, [])

def State.getStatus (s : State) : Handled := (s, msgOk, [s.ctl.bootStat, s.ctl.fabCfg, s.ctl.imageVersion, s.ctl.drops.toNat])

/-- GET_STATUS. -/
def execGetStatus (src : MsgFrom) (s : State) : Host.Outcome State Fault Refusal := .next (s.handle src 1 State.getStatus)

/-- The cores of a mask. -/
def maskCores (mask : Dword) : List Nat := (upFrom 0 64).filter fun c => bitAt mask.toNat c

def State.partSet (s : State) (part : Nat) (mask : Dword) (reg : Nat) : Handled :=
  let cs := maskCores mask
  if 64 ≤ part ∨ 4 ≤ reg then (s, msgBadArg, [])
  else if cs.any fun c => s.ctl.cpart? c != some part && !(s.core c).ctx.warps.isEmpty then (s, msgBusy, [])
  else
    let s1 := cs.foldl (fun (s : State) c =>
      (s.setCtl fun k => { k with cpart := mset k.cpart c (true, part), regmap := mset k.regmap c reg }).setCore c fun x =>
        { x with ctx := { x.ctx with part := some part } }) s
    ((cs.foldl (fun (s : State) c => s.applyRegulator c) s1).endParts s, msgOk, [])

/-- PART_SET. -/
def execPartSet (src : MsgFrom) (part : Nat) (mask : Dword) (reg : Nat) (s : State) : Host.Outcome State Fault Refusal :=
  .next (s.handle src 2 fun s => s.partSet part mask reg)

def State.allowSet (s : State) (die allow rowpart step : Nat) (massen : Bool) : Handled :=
  checked (decide (die < 8) && decide (allow < 2 ^ 18) && decide (rowpart < 2 ^ 18) && decide (step < 2 ^ 18))
    (fun s => (s.regWriteCtl (.die die) 0x2000 (rowpart * 2 ^ 32 + allow)).regWriteCtl (.die die) 0x2008 (b2n massen * 2 ^ 32 + step)) s

/-- ALLOW_SET. -/
def execAllowSet (src : MsgFrom) (die allow rowpart step : Nat) (massen : Bool) (s : State) : Host.Outcome State Fault Refusal :=
  .next (s.handle src 3 fun s => s.allowSet die allow rowpart step massen)

def State.asidSet (s : State) (asid root : Nat) (sec v : Bool) : Handled :=
  checked (decide (asid < 65536) && decide (root < 2 ^ 27)) (fun s => s.writeAsid asid root sec v) s

/-- ASID_SET: ROOT lies in region 00 or 01 (R254). -/
def execAsidSet (src : MsgFrom) (asid : Nat) (root : BitVec 28) (sec v : Bool) (s : State) : Host.Outcome State Fault Refusal :=
  .next (s.handle src 4 fun s => s.asidSet asid root.toNat sec v)

def State.handlerSet (s : State) (asid entry frame : Nat) : Handled :=
  checked (decide (asid < 65536) && decide (entry < 2 ^ 55) && fld entry 2 1 == 0 && decide (frame < 2 ^ 55) && fld frame 23 0 == 0)
    (fun s => (s.regWriteCtl .control (0x500000 + 16 * asid) entry).regWriteCtl .control (0x500008 + 16 * asid) frame) s

/-- HANDLER_SET. -/
def execHandlerSet (src : MsgFrom) (asid : Nat) (entry frame : Dword) (s : State) : Host.Outcome State Fault Refusal :=
  .next (s.handle src 5 fun s => s.handlerSet asid entry.toNat frame.toNat)

def State.queueSet (s : State) (part queue : Nat) (en : Bool) (asid : Nat) : Handled :=
  checked (decide (part < 64) && decide (queue < 64) && decide (asid < 65536)) (fun s => s.writeQueue (64 * part + queue) en asid) s

/-- QUEUE_SET. -/
def execQueueSet (src : MsgFrom) (part queue : Nat) (en : Bool) (asid : Nat) (s : State) : Host.Outcome State Fault Refusal :=
  .next (s.handle src 6 fun s => s.queueSet part queue en asid)

def State.aclSet (s : State) (index value : Nat) : Handled :=
  checked (decide (index < 1024) && decide (value < 2 ^ 64) && fld value 62 60 == 0 && fld value 39 14 == 0 && !bitAt value 7)
    (fun s => s.regWriteCtl .control (0x310000 + 8 * index) value) s

/-- ACL_SET. -/
def execAclSet (src : MsgFrom) (index : Nat) (value : Dword) (s : State) : Host.Outcome State Fault Refusal :=
  .next (s.handle src 7 fun s => s.aclSet index value.toNat)

def State.pinqSet (s : State) (part quota : Nat) : Handled :=
  checked (decide (part < 64) && decide (quota < 2 ^ 17)) (fun s => s.regWriteCtl .control (0x200000 + 8 * part) quota) s

/-- PINQ_SET. -/
def execPinqSet (src : MsgFrom) (part quota : Nat) (s : State) : Host.Outcome State Fault Refusal :=
  .next (s.handle src 8 fun s => s.pinqSet part quota)

def State.pinClear (s : State) (part : Nat) : Handled :=
  checked (decide (part < 64)) (fun (s : State) =>
    { s with stks := s.stks.map fun t => { t with pins := t.pins.filter fun p => p.2 != part } }) s

/-- PIN_CLEAR (R285). -/
def execPinClear (src : MsgFrom) (part : Nat) (s : State) : Host.Outcome State Fault Refusal :=
  .next (s.handle src 9 fun s => s.pinClear part)

def State.saveSet (s : State) (part value : Nat) : Handled :=
  checked (decide (part < 64) && decide (value < 2 ^ 62) && fld value 23 2 == 0)
    (fun s => s.regWriteCtl .control (0x610100 + 8 * part) value) s

/-- SAVE_SET: BASE lies in region 00 (R449). -/
def execSaveSet (src : MsgFrom) (part : Nat) (value : Dword) (s : State) : Host.Outcome State Fault Refusal :=
  .next (s.handle src 0x0A fun s => s.saveSet part value.toNat)

def State.keyLoad (s : State) (slot : Nat) (sec : Bool) (wrapped : List Byte) : Handled :=
  match kwUnwrap s.ctl.kwKey wrapped with
  | none => (s, msgBadArg, [])
  | some key =>
    checked (decide (1 ≤ slot) && decide (slot < 4096) && wrapped.length == 72 && key.take 32 != key.drop 32)
      (fun s => s.setCtl fun k => { k with keys := mset k.keys slot ⟨sec, key⟩ }) s

/-- KEY_LOAD: the key is unwrapped and loaded at every stack. -/
def execKeyLoad (src : MsgFrom) (slot : Nat) (sec : Bool) (wrapped : List Byte) (s : State) : Host.Outcome State Fault Refusal :=
  .next (s.handle src 0x0B fun s => s.keyLoad slot sec wrapped)

def State.keyClear (s : State) (slot : Nat) : Handled :=
  checked (decide (1 ≤ slot) && decide (slot < 4096)) (fun s => s.setCtl fun k => { k with keys := mdel k.keys slot }) s

/-- KEY_CLEAR. -/
def execKeyClear (src : MsgFrom) (slot : Nat) (s : State) : Host.Outcome State Fault Refusal :=
  .next (s.handle src 0x0C fun s => s.keyClear slot)

def State.eventRead (s : State) : Handled :=
  (s.setCtl fun k => { k with events := k.events.drop 7 }, msgOk,
   (s.ctl.events.take 7).flatMap (fun r => [r.w0.toNat, r.ticks.toNat, r.addr.toNat, r.detail.toNat]) ++ [s.ctl.drops.toNat])

/-- EVENT_READ. -/
def execEventRead (src : MsgFrom) (s : State) : Host.Outcome State Fault Refusal := .next (s.handle src 0x0D State.eventRead)

/-- Whether a register is a counter of R453. -/
def isCounter (b : Block) (off : Nat) : Bool :=
  off % 8 == 0 && match b with
    | .base k => decide (k < 16) && inRange off 0xA000 2
    | .die k => decide (k < 8) && inRange off 0xA000 32 && off % 32 != 24
    | .control => inRange off 0x610000 4

def State.counterRead (s : State) (b : Block) (off : Nat) (clear : Bool) : Handled :=
  if isCounter b off then ((if clear then s.regWriteCtl b off 0 else s), msgOk, [s.regValue b off]) else (s, msgBadArg, [])

/-- COUNTER_READ. -/
def execCounterRead (src : MsgFrom) (b : Block) (off : Nat) (clear : Bool) (s : State) : Host.Outcome State Fault Refusal :=
  .next (s.handle src 0x0E fun s => s.counterRead b off clear)

/-- Move bytes between host memory and a fabric address (R434): `r` is what host memory holds, or what another device answers. A
transfer that does not complete answers a status that the spec does not name. -/
def State.hostMove (s : State) (toHost : Bool) (dev pa len : Nat) (r : Reply) : Handled :=
  let failed : Handled := (s, 1 + Config.choice s.ticket (2 ^ 52) % 5, [])
  if !s.ctl.bridge then (s, msgBadArg, [])
  else if s.localDev dev then
    if toHost then match s.hostLocal pa len none with
      | (s1, .data bs _) => (s1.complete? (2 ^ 64 + pa) bs, msgOk, [])
      | _ => failed
    else match r with
      | .data bs _ => (match s.hostLocal pa len (some (bs.take len)) with
          | (s1, .data ..) => (s1, msgOk, [])
          | _ => failed)
      | .status _ => failed
  else if s.unreachable dev (targetStack pa) then failed
  else match r with
    | .data bs _ => ((if toHost then s.complete? (2 ^ 64 + pa) (bs.take len) else s), msgOk, [])
    | .status .ok => (s, msgOk, [])
    | .status _ => failed

/-- Whether a message of the mailbox that needs something from outside is the one that the mailbox holds. -/
def State.awaited (s : State) (src : MsgFrom) (typ : Nat) : Bool :=
  match src with
  | .mailbox => s.ctl.mbox.busy && numOf (s.ctl.mbox.req.take 2) == typ
  | .peer _ => true

/-- HOST_XFER. -/
def execHostXfer (src : MsgFrom) (toHost : Bool) (dev pa len : Nat) (r : Reply) (s : State) : Host.Outcome State Fault Refusal :=
  .next (if s.awaited src 0x0F then s.handle src 0x0F fun s => s.hostMove toHost dev pa len r else s)

/-- LINK_KEY: both ends derive the next keys of a path; a share that is not signed by an identity key is refused (R423). -/
def execLinkKey (src : MsgFrom) (p : PathId) (signed : Bool) (s : State) : Host.Outcome State Fault Refusal :=
  .next (if s.awaited src 0x10 then s.handle src 0x10 fun s =>
      checked (signed && decide (p.stack < 16) && decide (p.p < 32) && !s.loopback p.p)
        (fun s => s.setPath p.stack p.p fun x => { x with keyReady := true, rxKey := true }) s
    else s)

def State.dieReset (s : State) (die action : Nat) : Handled :=
  checked (decide (die < 8) && decide (action < 3))
    (fun s => if action = 2 then (s.restoreDie die).resplit else (s.loseDie die (action + 1)).resplit) s

/-- DIE_RESET: 0 resets a die, 1 powers it down, 2 restores it (R369, R451). -/
def execDieReset (src : MsgFrom) (die action : Nat) (s : State) : Host.Outcome State Fault Refusal :=
  .next (s.handle src 0x11 fun s => s.dieReset die action)

/-- IMAGE_WRITE: a block of a new image goes into the copy that was not accepted; `img` is the image that the copy then holds, if
its signature is valid (R463). -/
def execImageWrite (src : MsgFrom) (block : Nat) (bytes : List Byte) (img : Option Image) (s : State) :
    Host.Outcome State Fault Refusal :=
  .next (if s.awaited src 0x12 then s.handle src 0x12 fun s =>
      checked (bytes.length == 224) (fun s => s.setCtl fun k =>
        let n := match k.accepted with
          | some a => 1 - a
          | none => Config.choice s.ticket (2 ^ 53 + block) % 2
        { k with images := lmod k.images n fun i => img.getD { i with valid := false } }) s
    else s)

/-- EVENT_FWD: a peer's record is appended to this device's ring (R477). -/
def execEventFwd (src : MsgFrom) (r : EvRec) (s : State) : Host.Outcome State Fault Refusal :=
  .next (s.handle src 0x13 fun s => (s.setCtl fun k => k.appendRec r, msgOk, []))

/-- The registers that REG_READ answers (R467). -/
def regReadable (b : Block) (off : Nat) : Bool :=
  off % 8 == 0 && match b with
    | .base k => decide (k < 16) && (inRange off 0x5000 64 || inRange off 0x9000 32)
    | .die k => decide (k < 8) && inRange off 0x4000 513
    | .control => inRange off 0x100000 65536 || inRange off 0x200000 64 || inRange off 0x300000 8192 || inRange off 0x610400 64

def State.regRead (s : State) (b : Block) (off : Nat) : Handled :=
  if regReadable b off then (s, msgOk, [s.regValue b off]) else (s, msgBadArg, [])

/-- REG_READ. -/
def execRegRead (src : MsgFrom) (b : Block) (off : Nat) (s : State) : Host.Outcome State Fault Refusal :=
  .next (s.handle src 0x14 fun s => s.regRead b off)

/-- REGISTER_WRITE: a write of the control die to a register (R7). -/
def execRegisterWrite (b : Block) (off : Nat) (value : Dword) (s : State) : Host.Outcome State Fault Refusal :=
  .next (if s.ctl.alive then s.regWriteCtl b off value.toNat else s)

/-! ### The mailbox (R465) -/

/-- A block by the code that R20 gives it. -/
def blockCode (b : Nat) : Option Block :=
  if b < 0x10 then some (.base b) else if b < 0x18 then some (.die (b - 0x10)) else if b = 0x18 then some .control else none

/-- A record as it stands in the payload of EVENT_FWD. -/
def recOf (bs : List Byte) : EvRec :=
  ⟨BitVec.ofNat 64 (dword bs 0 8), BitVec.ofNat 64 (dword bs 8 8), BitVec.ofNat 64 (dword bs 16 8), BitVec.ofNat 64 (dword bs 24 8)⟩

/-- The types whose handling waits for something from outside: host memory, another device, an image's signature. -/
def typeWaits (t : Nat) : Bool := [0x0F, 0x10, 0x12].contains t

/-- What the grooms do with the payload of a message from the mailbox. -/
def State.dispatch (s : State) (typ : Nat) (bs : List Byte) : Handled :=
  let f (i : Nat) : Nat := Config.payload bs i
  let flag (i : Nat) : Bool := f i != 0
  let mask (i : Nat) : Dword := BitVec.ofNat 64 (f i)
  let onBlock (g : Block → Handled) : Handled := match blockCode (f 0) with
    | some b => g b
    | none => (s, msgBadArg, [])
  match typ with
  | 0x01 => s.getStatus
  | 0x02 => s.partSet (f 0) (mask 1) (f 2)
  | 0x03 => s.allowSet (f 0) (f 1) (f 2) (f 3) (flag 4)
  | 0x04 => s.asidSet (f 0) (f 1) (flag 2) (flag 3)
  | 0x05 => s.handlerSet (f 0) (f 1) (f 2)
  | 0x06 => s.queueSet (f 0) (f 1) (flag 2) (f 3)
  | 0x07 => s.aclSet (f 0) (f 1)
  | 0x08 => s.pinqSet (f 0) (f 1)
  | 0x09 => s.pinClear (f 0)
  | 0x0A => s.saveSet (f 0) (f 1)
  | 0x0B => s.keyLoad (f 0) (flag 1) ((upFrom 0 72).map fun i => BitVec.ofNat 8 (f (2 + i)))
  | 0x0C => s.keyClear (f 0)
  | 0x0D => s.eventRead
  | 0x0E => onBlock fun b => s.counterRead b (f 1) (bitAt (numOf (bs.take 1)) 0)
  | 0x11 => s.dieReset (f 0) (f 1)
  | 0x13 => (s.setCtl fun k => k.appendRec (recOf bs), msgOk, [])
  | 0x14 => onBlock fun b => s.regRead b (f 1)
  | _ => (s, msgBadType, [])

/-- The header of a request is in order: a payload of at most 240 bytes, and zero where zero is asked for. -/
def headerOk (req : List Byte) : Bool := decide (numOf ((req.drop 2).take 2) ≤ 240) && numOf ((req.drop 8).take 8) == 0

/-- GO submits the mailbox's request, unless it is BUSY or DONE. -/
def State.submit (s : State) : State :=
  let m := s.ctl.mbox
  if m.busy || m.done || !s.ctl.alive then s
  else
    let typ := numOf (m.req.take 2)
    if typ = 0 ∨ 0x14 < typ then s.reply .mailbox typ msgBadType []
    else if !headerOk m.req then s.reply .mailbox typ msgBadArg []
    else if s.ctl.boot = .safe ∧ !typeSafe typ then s.reply .mailbox typ msgSafe []
    else if typeWaits typ then s.setCtl fun k => { k with mbox := { k.mbox with busy := true } }
    else s.handle .mailbox typ fun s => s.dispatch typ ((m.req.drop 16).take (numOf ((m.req.drop 2).take 2)))

/-- MAILBOX_GO. -/
def execMailboxGo (s : State) : Host.Outcome State Fault Refusal := .next s.submit

def State.clearDone (s : State) : State := s.setCtl fun k => { k with mbox := { k.mbox with done := false } }

/-- MAILBOX_DONE_CLEAR. -/
def execMailboxDoneClear (s : State) : Host.Outcome State Fault Refusal := .next s.clearDone

/-- The append window at an offset of the control die's block: partition, queue and place (R359). -/
def appendWindow (off : Nat) : Option (Nat × Nat × Nat) :=
  if 0x400000 ≤ off ∧ off < 0x500000 ∧ (off - 0x400000) % 0x4000 < 0x1000 then
    some ((off - 0x400000) / 0x4000, (off - 0x400000) % 0x4000 / 64, off % 64)
  else none

/-- A host write to BAR0. -/
def State.bar0Write (s : State) (off : Nat) (bs : List Byte) : State :=
  match appendWindow off with
  | some (part, queue, at') => (s.append .host part queue (if at' = 0 then bs else [])).1
  | none =>
    if 0x621000 ≤ off ∧ off + bs.length ≤ 0x621100 then
      s.setCtl fun k =>
        { k with mbox := { k.mbox with req := patch (k.mbox.req ++ List.replicate (256 - k.mbox.req.length) 0) (off - 0x621000) bs } }
    else if off = 0x621200 then
      let v := numOf (bs.take 8)
      let s1 := if bitAt v 0 then s.submit else s
      if bitAt v 2 && s.ctl.mbox.done then s1.clearDone else s1
    else s

/-- What a host read of BAR0 returns: eight bytes of the mailbox, zero elsewhere. -/
def State.bar0Read (s : State) (off : Nat) : List Byte :=
  if off % 8 = 0 && decide (0x621000 ≤ off) && decide (off ≤ 0x621200) then bytesOf 8 (s.ctlReg off) else bytesOf 8 0

/-- BAR0_ACCESS: only the append windows and the mailbox are open (R431). -/
def execBar0Access (off : Nat) (write : Option (List Byte)) (s : State) : Host.Outcome State Fault Refusal :=
  if !s.ctl.hostUp || decide (2 ^ 26 ≤ off) then .next s
  else match write with
    | some bs => .next (s.bar0Write off bs)
    | none => .next (s.complete? off (s.bar0Read off))

end Sys2Proof.Machine
end

