-- ==== Sys2Proof/Machine/Dispatch.lean ====
section
/-! DEFINITION. One arm for every constructor of `Instr`: the meaning of each step of the Veger. -/

namespace Sys2Proof.Machine

def exec (i : Instr) (s : State) : Host.Outcome State Fault Refusal :=
  match i with
  | .brx h a => Sys2Proof.Machine.execBrx h a s
  | .callx h d a => Sys2Proof.Machine.execCallx h d a s
  | .ret h a => Sys2Proof.Machine.execRet h a s
  | .exit h => Sys2Proof.Machine.execExit h s
  | .yield h => Sys2Proof.Machine.execYield h s
  | .reorder h a b c desc => Sys2Proof.Machine.execReorder h a b c desc s
  | .mov h d a w => Sys2Proof.Machine.execMov h d a w s
  | .sel h d a b p neg => Sys2Proof.Machine.execSel h d a b p neg s
  | .imin h d a b e u => Sys2Proof.Machine.execImin h d a b e u s
  | .imax h d a b e u => Sys2Proof.Machine.execImax h d a b e u s
  | .iabs h d a e => Sys2Proof.Machine.execIabs h d a e s
  | .ineg h d a e => Sys2Proof.Machine.execIneg h d a e s
  | .iadd h d a b e u sat => Sys2Proof.Machine.execIadd h d a b e u sat s
  | .isub h d a b e u sat => Sys2Proof.Machine.execIsub h d a b e u sat s
  | .imul h d a b => Sys2Proof.Machine.execImul h d a b s
  | .imulh h d a b u => Sys2Proof.Machine.execImulh h d a b u s
  | .imad h d a b c => Sys2Proof.Machine.execImad h d a b c s
  | .imadw h d a b c u => Sys2Proof.Machine.execImadw h d a b c u s
  | .iadd64 h d a b u sat => Sys2Proof.Machine.execIadd64 h d a b u sat s
  | .and h d a b => Sys2Proof.Machine.execAnd h d a b s
  | .or h d a b => Sys2Proof.Machine.execOr h d a b s
  | .xor h d a b => Sys2Proof.Machine.execXor h d a b s
  | .andn h d a b => Sys2Proof.Machine.execAndn h d a b s
  | .not h d a => Sys2Proof.Machine.execNot h d a s
  | .shl h d a b => Sys2Proof.Machine.execShl h d a b s
  | .shr h d a b => Sys2Proof.Machine.execShr h d a b s
  | .sar h d a b => Sys2Proof.Machine.execSar h d a b s
  | .rotl h d a b => Sys2Proof.Machine.execRotl h d a b s
  | .bfx h d a b signed => Sys2Proof.Machine.execBfx h d a b signed s
  | .bfi h d a b c => Sys2Proof.Machine.execBfi h d a b c s
  | .popc h d a => Sys2Proof.Machine.execPopc h d a s
  | .clz h d a => Sys2Proof.Machine.execClz h d a s
  | .brev h d a => Sys2Proof.Machine.execBrev h d a s
  | .icmp h pd a b u c => Sys2Proof.Machine.execIcmp h pd a b u c s
  | .pand h pd p q => Sys2Proof.Machine.execPand h pd p q s
  | .por h pd p q => Sys2Proof.Machine.execPor h pd p q s
  | .pxor h pd p q => Sys2Proof.Machine.execPxor h pd p q s
  | .pnot h pd p => Sys2Proof.Machine.execPnot h pd p s
  | .vote h d p m => Sys2Proof.Machine.execVote h d p m s
  | .shfl h d a b seg m => Sys2Proof.Machine.execShfl h d a b seg m s
  | .bcast h d a b => Sys2Proof.Machine.execBcast h d a b s
  | .lea h d a b u sh => Sys2Proof.Machine.execLea h d a b u sh s
  | .rdspec h d r => Sys2Proof.Machine.execRdspec h d r s
  | .wrspec h r a => Sys2Proof.Machine.execWrspec h r a s
  | .fadd h d a b r ftz sat => Sys2Proof.Machine.execFadd h d a b r ftz sat s
  | .fsub h d a b r ftz sat => Sys2Proof.Machine.execFsub h d a b r ftz sat s
  | .fmul h d a b r ftz sat => Sys2Proof.Machine.execFmul h d a b r ftz sat s
  | .ffma h d a b c r ftz => Sys2Proof.Machine.execFfma h d a b c r ftz s
  | .fmin h d a b f ftz => Sys2Proof.Machine.execFmin h d a b f ftz s
  | .fmax h d a b f ftz => Sys2Proof.Machine.execFmax h d a b f ftz s
  | .fcmp h pd a b f64 c ftz => Sys2Proof.Machine.execFcmp h pd a b f64 c ftz s
  | .frcp h d a r ftz => Sys2Proof.Machine.execFrcp h d a r ftz s
  | .frsq h d a ftz => Sys2Proof.Machine.execFrsq h d a ftz s
  | .fsqrt h d a r ftz => Sys2Proof.Machine.execFsqrt h d a r ftz s
  | .fexp2 h d a ftz => Sys2Proof.Machine.execFexp2 h d a ftz s
  | .flog2 h d a ftz => Sys2Proof.Machine.execFlog2 h d a ftz s
  | .fsin h d a ftz => Sys2Proof.Machine.execFsin h d a ftz s
  | .fcos h d a ftz => Sys2Proof.Machine.execFcos h d a ftz s
  | .hadd2 h d a b r ftz sat => Sys2Proof.Machine.execHadd2 h d a b r ftz sat s
  | .hmul2 h d a b r ftz sat => Sys2Proof.Machine.execHmul2 h d a b r ftz sat s
  | .hfma2 h d a b c r ftz => Sys2Proof.Machine.execHfma2 h d a b c r ftz s
  | .dadd h d a b r ftz => Sys2Proof.Machine.execDadd h d a b r ftz s
  | .dmul h d a b r ftz => Sys2Proof.Machine.execDmul h d a b r ftz s
  | .dfma h d a b c r ftz => Sys2Proof.Machine.execDfma h d a b c r ftz s
  | .cvt h d a df sf u r ftz sat => Sys2Proof.Machine.execCvt h d a df sf u r ftz sat s
  | .cvts h d a df sf u ftz sat => Sys2Proof.Machine.execCvts h d a df sf u ftz sat s
  | .pack h d a b m => Sys2Proof.Machine.execPack h d a b m s
  | .unpack h d a m => Sys2Proof.Machine.execUnpack h d a m s
  | .retag h d a t => Sys2Proof.Machine.execRetag h d a t s
  | .scale h d a b m f r ftz => Sys2Proof.Machine.execScale h d a b m f r ftz s
  | .blkscale h d a t => Sys2Proof.Machine.execBlkscale h d a t s
  | .quant h d a b isMeta => Sys2Proof.Machine.execQuant h d a b isMeta s
  | .phase h p => Sys2Proof.Machine.execPhase h p s
  | .rdrack h d => Sys2Proof.Machine.execRdrack h d s
  | .shmap h d a => Sys2Proof.Machine.execShmap h d a s
  | .syncwInit h a b scratch off => Sys2Proof.Machine.execSyncwInit h a b scratch off s
  | .syncwAdd h a b scratch off => Sys2Proof.Machine.execSyncwAdd h a b scratch off s
  | .syncwWait h a b scratch off => Sys2Proof.Machine.execSyncwWait h a b scratch off s
  | .mclaim h d slot => Sys2Proof.Machine.execMclaim h d slot s
  | .mrel h a => Sys2Proof.Machine.execMrel h a s
  | .tclaim h d tile => Sys2Proof.Machine.execTclaim h d tile s
  | .trel h a => Sys2Proof.Machine.execTrel h a s
  | .mzero h t mask int => Sys2Proof.Machine.execMzero h t mask int s
  | .trd h d t a => Sys2Proof.Machine.execTrd h d t a s
  | .twr h t a b => Sys2Proof.Machine.execTwr h t a b s
  | .mstat h d => Sys2Proof.Machine.execMstat h d s
  | .resmode h m => Sys2Proof.Machine.execResmode h m s
  | .probe h d a walk => Sys2Proof.Machine.execProbe h d a walk s
  | .raisegen h a => Sys2Proof.Machine.execRaisegen h a s
  | .fence h => Sys2Proof.Machine.execFence h s
  | .fenceSys h pd => Sys2Proof.Machine.execFenceSys h pd s
  | .leave h a => Sys2Proof.Machine.execLeave h a s
  | .gsync h a => Sys2Proof.Machine.execGsync h a s
  | .pinit h a b => Sys2Proof.Machine.execPinit h a b s
  | .pclaim h d a => Sys2Proof.Machine.execPclaim h d a s
  | .pfill h a b => Sys2Proof.Machine.execPfill h a b s
  | .ptake h d a => Sys2Proof.Machine.execPtake h d a s
  | .pfree h a b => Sys2Proof.Machine.execPfree h a b s
  | .pquery h d a => Sys2Proof.Machine.execPquery h d a s
  | .waitc h n c pr => Sys2Proof.Machine.execWaitc h n c pr s
  | .trap h imm => Sys2Proof.Machine.execTrap h imm s
  | .brkpt h => Sys2Proof.Machine.execBrkpt h s
  | .eret h next => Sys2Proof.Machine.execEret h next s
  | .bra h imm => Sys2Proof.Machine.execBra h imm s
  | .call h d imm => Sys2Proof.Machine.execCall h d imm s
  | .nap h imm => Sys2Proof.Machine.execNap h imm s
  | .movi h d imm => Sys2Proof.Machine.execMovi h d imm s
  | .movhi h d a imm => Sys2Proof.Machine.execMovhi h d a imm s
  | .iminImm h d a imm => Sys2Proof.Machine.execIminImm h d a imm s
  | .imaxImm h d a imm => Sys2Proof.Machine.execImaxImm h d a imm s
  | .iaddImm h d a imm => Sys2Proof.Machine.execIaddImm h d a imm s
  | .imulImm h d a imm => Sys2Proof.Machine.execImulImm h d a imm s
  | .andImm h d a imm => Sys2Proof.Machine.execAndImm h d a imm s
  | .orImm h d a imm => Sys2Proof.Machine.execOrImm h d a imm s
  | .xorImm h d a imm => Sys2Proof.Machine.execXorImm h d a imm s
  | .shlImm h d a imm => Sys2Proof.Machine.execShlImm h d a imm s
  | .shrImm h d a imm => Sys2Proof.Machine.execShrImm h d a imm s
  | .sarImm h d a imm => Sys2Proof.Machine.execSarImm h d a imm s
  | .rotlImm h d a imm => Sys2Proof.Machine.execRotlImm h d a imm s
  | .bfxImm h d a imm => Sys2Proof.Machine.execBfxImm h d a imm s
  | .faddImm h d a imm => Sys2Proof.Machine.execFaddImm h d a imm s
  | .fmulImm h d a imm => Sys2Proof.Machine.execFmulImm h d a imm s
  | .pairedWord h x y => Sys2Proof.Machine.execPairedWord h x y s
  | .ld h d a hint c w t pr off => Sys2Proof.Machine.execLd h d a hint c w t pr off s
  | .st h d a hint c w off => Sys2Proof.Machine.execSt h d a hint c w off s
  | .ldw h d a hint c w t pr off => Sys2Proof.Machine.execLdw h d a hint c w t pr off s
  | .pref h a hint lvl off => Sys2Proof.Machine.execPref h a hint lvl off s
  | .discard h b a => Sys2Proof.Machine.execDiscard h b a s
  | .pin h b a pd => Sys2Proof.Machine.execPin h b a pd s
  | .unpin h b a => Sys2Proof.Machine.execUnpin h b a s
  | .lds h d a w t off => Sys2Proof.Machine.execLds h d a w t off s
  | .sts h d a w off => Sys2Proof.Machine.execSts h d a w off s
  | .ldst h d a t off => Sys2Proof.Machine.execLdst h d a t off s
  | .give h a b c pd => Sys2Proof.Machine.execGive h a b c pd s
  | .atom h v a c w ra op u => Sys2Proof.Machine.execAtom h v a c w ra op u s
  | .atomcas h v a n c w => Sys2Proof.Machine.execAtomcas h v a n c w s
  | .red h v a c w ra op u => Sys2Proof.Machine.execRed h v a c w ra op u s
  | .join h d a c r => Sys2Proof.Machine.execJoin h d a c r s
  | .pagein h a b off => Sys2Proof.Machine.execPagein h a b off s
  | .cpy h g a sd => Sys2Proof.Machine.execCpy h g a sd s
  | .cpyg h g a b si sd => Sys2Proof.Machine.execCpyg h g a b si sd s
  | .cpys h g a b si sd ra add ty => Sys2Proof.Machine.execCpys h g a b si sd ra add ty s
  | .coll h g a b op => Sys2Proof.Machine.execColl h g a b op s
  | .mma h g t ma mb fa fb sp mask pf pen => Sys2Proof.Machine.execMma h g t ma mb fa fb sp mask pf pen s
  | .launch h a pd => Sys2Proof.Machine.execLaunch h a pd s
  | .add d a b => Sys2Proof.Machine.execAdd d a b s
  | .sub d a b => Sys2Proof.Machine.execSub d a b s
  | .mul d a b => Sys2Proof.Machine.execMul d a b s
  | .crevenAnd d a b => Sys2Proof.Machine.execCrevenAnd d a b s
  | .crevenOr d a b => Sys2Proof.Machine.execCrevenOr d a b s
  | .crevenXor d a b => Sys2Proof.Machine.execCrevenXor d a b s
  | .crevenShl d a b => Sys2Proof.Machine.execCrevenShl d a b s
  | .crevenShr d a b => Sys2Proof.Machine.execCrevenShr d a b s
  | .crevenSar d a b => Sys2Proof.Machine.execCrevenSar d a b s
  | .slt d a b => Sys2Proof.Machine.execSlt d a b s
  | .sltu d a b => Sys2Proof.Machine.execSltu d a b s
  | .addi d a imm => Sys2Proof.Machine.execAddi d a imm s
  | .shli d a n => Sys2Proof.Machine.execShli d a n s
  | .shri d a n => Sys2Proof.Machine.execShri d a n s
  | .sari d a n => Sys2Proof.Machine.execSari d a n s
  | .ori d a imm => Sys2Proof.Machine.execOri d a imm s
  | .lui d imm => Sys2Proof.Machine.execLui d imm s
  | .ldg d a w c off => Sys2Proof.Machine.execLdg d a w c off s
  | .stg d a w c off => Sys2Proof.Machine.execStg d a w c off s
  | .ldl d a w off => Sys2Proof.Machine.execLdl d a w off s
  | .stl d a w off => Sys2Proof.Machine.execStl d a w off s
  | .amo d a b op wide c u => Sys2Proof.Machine.execAmo d a b op wide c u s
  | .swadd a b => Sys2Proof.Machine.execSwadd a b s
  | .swwait a b => Sys2Proof.Machine.execSwwait a b s
  | .crevenFence => Sys2Proof.Machine.execCrevenFence s
  | .crevenFenceSys d => Sys2Proof.Machine.execCrevenFenceSys d s
  | .beq a b off => Sys2Proof.Machine.execBeq a b off s
  | .bne a b off => Sys2Proof.Machine.execBne a b off s
  | .blt a b off => Sys2Proof.Machine.execBlt a b off s
  | .bge a b off => Sys2Proof.Machine.execBge a b off s
  | .jal d off => Sys2Proof.Machine.execJal d off s
  | .jalr d a => Sys2Proof.Machine.execJalr d a s
  | .halt => Sys2Proof.Machine.execHalt s
  | .rds d code => Sys2Proof.Machine.execRds d code s
  | .wrs a code => Sys2Proof.Machine.execWrs a code s
  | .svr d code => Sys2Proof.Machine.execSvr d code s
  | .svw a code => Sys2Proof.Machine.execSvw a code s
  | .psend d a b c => Sys2Proof.Machine.execPsend d a b c s
  | .precv d a b => Sys2Proof.Machine.execPrecv d a b s
  | .vld d a loft ord ty k off => Sys2Proof.Machine.execVld d a loft ord ty k off s
  | .vst d a loft ord ty k off => Sys2Proof.Machine.execVst d a loft ord ty k off s
  | .vgath d a b k ty loft => Sys2Proof.Machine.execVgath d a b k ty loft s
  | .vscat d a b k ty loft add => Sys2Proof.Machine.execVscat d a b k ty loft add s
  | .vadd d a b k ty => Sys2Proof.Machine.execVadd d a b k ty s
  | .vsub d a b k ty => Sys2Proof.Machine.execVsub d a b k ty s
  | .vmul d a b k ty => Sys2Proof.Machine.execVmul d a b k ty s
  | .vmin d a b k ty => Sys2Proof.Machine.execVmin d a b k ty s
  | .vmax d a b k ty => Sys2Proof.Machine.execVmax d a b k ty s
  | .vfma d a b k ty => Sys2Proof.Machine.execVfma d a b k ty s
  | .vand d a b k ty => Sys2Proof.Machine.execVand d a b k ty s
  | .vor d a b k ty => Sys2Proof.Machine.execVor d a b k ty s
  | .vxor d a b k ty => Sys2Proof.Machine.execVxor d a b k ty s
  | .vcmp d a b k ty c => Sys2Proof.Machine.execVcmp d a b k ty c s
  | .vcvt d a k dt st hi => Sys2Proof.Machine.execVcvt d a k dt st hi s
  | .vsplat d a k ty => Sys2Proof.Machine.execVsplat d a k ty s
  | .vextr d a idx ty => Sys2Proof.Machine.execVextr d a idx ty s
  | .kset d a => Sys2Proof.Machine.execKset d a s
  | .kget d a => Sys2Proof.Machine.execKget d a s
  | .slotArbitration core quad => Sys2Proof.Machine.execSlotArbitration core quad s
  | .escapeIssue core warp => Sys2Proof.Machine.execEscapeIssue core warp s
  | .variableLatencyWrite core warp id => Sys2Proof.Machine.execVariableLatencyWrite core warp id s
  | .napExpiry t => Sys2Proof.Machine.execNapExpiry t s
  | .warpRetire core warp => Sys2Proof.Machine.execWarpRetire core warp s
  | .watchdogExpiry t => Sys2Proof.Machine.execWatchdogExpiry t s
  | .reservedEncoding word => Sys2Proof.Machine.execReservedEncoding word s
  | .giveDrainEnd core warp => Sys2Proof.Machine.execGiveDrainEnd core warp s
  | .wideBarrierCompletion launch index die => Sys2Proof.Machine.execWideBarrierCompletion launch index die s
  | .massReleaseAdmit die => Sys2Proof.Machine.execMassReleaseAdmit die s
  | .penBoxReleaseComplete launch place pen box => Sys2Proof.Machine.execPenBoxReleaseComplete launch place pen box s
  | .copyChunk core => Sys2Proof.Machine.execCopyChunk core s
  | .copyComplete core id => Sys2Proof.Machine.execCopyComplete core id s
  | .collComplete core warp id peers fail => Sys2Proof.Machine.execCollComplete core warp id peers fail s
  | .matrixEngineServe core => Sys2Proof.Machine.execMatrixEngineServe core s
  | .mmaBlockEnd core mismatches => Sys2Proof.Machine.execMmaBlockEnd core mismatches s
  | .mmaPenFree core => Sys2Proof.Machine.execMmaPenFree core s
  | .mmaComplete core => Sys2Proof.Machine.execMmaComplete core s
  | .loadReturn id r => Sys2Proof.Machine.execLoadReturn id r s
  | .storeLeaveQueue core warp => Sys2Proof.Machine.execStoreLeaveQueue core warp s
  | .accessAcknowledged id r => Sys2Proof.Machine.execAccessAcknowledged id r s
  | .accessTimeout id => Sys2Proof.Machine.execAccessTimeout id s
  | .psendStatus score id st => Sys2Proof.Machine.execPsendStatus score id st s
  | .predictorDecay die => Sys2Proof.Machine.execPredictorDecay die s
  | .generationRaise asid => Sys2Proof.Machine.execGenerationRaise asid s
  | .baleTurn die => Sys2Proof.Machine.execBaleTurn die s
  | .ringVisit die j => Sys2Proof.Machine.execRingVisit die j s
  | .rowRingTurn row => Sys2Proof.Machine.execRowRingTurn row s
  | .rowRingVisit row j => Sys2Proof.Machine.execRowRingVisit row j s
  | .reservationGrant core => Sys2Proof.Machine.execReservationGrant core s
  | .halfColumnExit core => Sys2Proof.Machine.execHalfColumnExit core s
  | .dependencePoll part queue => Sys2Proof.Machine.execDependencePoll part queue s
  | .priorityRise part queue => Sys2Proof.Machine.execPriorityRise part queue s
  | .passoverExpiry part queue => Sys2Proof.Machine.execPassoverExpiry part queue s
  | .warpAdmission die => Sys2Proof.Machine.execWarpAdmission die s
  | .powerUp fail => Sys2Proof.Machine.execPowerUp fail s
  | .launchEnd launch st => Sys2Proof.Machine.execLaunchEnd launch st s
  | .syncWordAdd loc units => Sys2Proof.Machine.execSyncWordAdd loc units s
  | .atomicPerform id r => Sys2Proof.Machine.execAtomicPerform id r s
  | .pageinRequest id => Sys2Proof.Machine.execPageinRequest id s
  | .lineRecall die line => Sys2Proof.Machine.execLineRecall die line s
  | .pageWalk asid va store die core => Sys2Proof.Machine.execPageWalk asid va store die core s
  | .pageinCompletion id ok => Sys2Proof.Machine.execPageinCompletion id ok s
  | .regulatorAlarm reg => Sys2Proof.Machine.execRegulatorAlarm reg s
  | .regulatorAlarmClear reg => Sys2Proof.Machine.execRegulatorAlarmClear reg s
  | .droopStretch core => Sys2Proof.Machine.execDroopStretch core s
  | .schedulerStart => Sys2Proof.Machine.execSchedulerStart s
  | .launchAppend src part queue packet => Sys2Proof.Machine.execLaunchAppend src part queue packet s
  | .stackInstanceStart score => Sys2Proof.Machine.execStackInstanceStart score s
  | .twinDrainEnd core => Sys2Proof.Machine.execTwinDrainEnd core s
  | .stackCoreResume score => Sys2Proof.Machine.execStackCoreResume score s
  | .preemptRequest core => Sys2Proof.Machine.execPreemptRequest core s
  | .contextSwap core part => Sys2Proof.Machine.execContextSwap core part s
  | .contextRestore core part => Sys2Proof.Machine.execContextRestore core part s
  | .stackCorePark score => Sys2Proof.Machine.execStackCorePark score s
  | .dieLost die code => Sys2Proof.Machine.execDieLost die code s
  | .stackLost stack => Sys2Proof.Machine.execStackLost stack s
  | .attachPortFailure die col => Sys2Proof.Machine.execAttachPortFailure die col s
  | .yardLinkFailure a b => Sys2Proof.Machine.execYardLinkFailure a b s
  | .heartbeatTimeout => Sys2Proof.Machine.execHeartbeatTimeout s
  | .controlDieFailure => Sys2Proof.Machine.execControlDieFailure s
  | .correctedError p => Sys2Proof.Machine.execCorrectedError p s
  | .uncorrectableError p => Sys2Proof.Machine.execUncorrectableError p s
  | .snapshotOpen stack => Sys2Proof.Machine.execSnapshotOpen stack s
  | .snapshotUnitCopy stack ok => Sys2Proof.Machine.execSnapshotUnitCopy stack ok s
  | .psendChunkAccept score c => Sys2Proof.Machine.execPsendChunkAccept score c s
  | .flitSend p => Sys2Proof.Machine.execFlitSend p s
  | .flitReceive p f => Sys2Proof.Machine.execFlitReceive p f s
  | .pathDown p => Sys2Proof.Machine.execPathDown p s
  | .pathUp p => Sys2Proof.Machine.execPathUp p s
  | .lossOfLight p lanes slot => Sys2Proof.Machine.execLossOfLight p lanes slot s
  | .laserModuleFailure stack hi => Sys2Proof.Machine.execLaserModuleFailure stack hi s
  | .restripe p ingress lanes slot => Sys2Proof.Machine.execRestripe p ingress lanes slot s
  | .restripeSwitch p => Sys2Proof.Machine.execRestripeSwitch p s
  | .laneReturn p lane => Sys2Proof.Machine.execLaneReturn p lane s
  | .keyFlip p => Sys2Proof.Machine.execKeyFlip p s
  | .oldKeyDiscard p => Sys2Proof.Machine.execOldKeyDiscard p s
  | .keyExhaustion p => Sys2Proof.Machine.execKeyExhaustion p s
  | .laneenWrite stack fibre value => Sys2Proof.Machine.execLaneenWrite stack fibre value s
  | .laserctlWrite stack value => Sys2Proof.Machine.execLaserctlWrite stack value s
  | .inboundPacket stack p => Sys2Proof.Machine.execInboundPacket stack p s
  | .safeStateReport dev => Sys2Proof.Machine.execSafeStateReport dev s
  | .bar0Access off write => Sys2Proof.Machine.execBar0Access off write s
  | .bar2Access off size write r => Sys2Proof.Machine.execBar2Access off size write r s
  | .msixUnmask vector => Sys2Proof.Machine.execMsixUnmask vector s
  | .mailboxGo => Sys2Proof.Machine.execMailboxGo s
  | .mailboxDoneClear => Sys2Proof.Machine.execMailboxDoneClear s
  | .getStatus src => Sys2Proof.Machine.execGetStatus src s
  | .partSet src part mask reg => Sys2Proof.Machine.execPartSet src part mask reg s
  | .allowSet src die allow rowpart step massen => Sys2Proof.Machine.execAllowSet src die allow rowpart step massen s
  | .asidSet src asid root sec v => Sys2Proof.Machine.execAsidSet src asid root sec v s
  | .handlerSet src asid entry frame => Sys2Proof.Machine.execHandlerSet src asid entry frame s
  | .queueSet src part queue en asid => Sys2Proof.Machine.execQueueSet src part queue en asid s
  | .aclSet src index value => Sys2Proof.Machine.execAclSet src index value s
  | .pinqSet src part quota => Sys2Proof.Machine.execPinqSet src part quota s
  | .pinClear src part => Sys2Proof.Machine.execPinClear src part s
  | .saveSet src part value => Sys2Proof.Machine.execSaveSet src part value s
  | .keyLoad src slot sec wrapped => Sys2Proof.Machine.execKeyLoad src slot sec wrapped s
  | .keyClear src slot => Sys2Proof.Machine.execKeyClear src slot s
  | .eventRead src => Sys2Proof.Machine.execEventRead src s
  | .counterRead src b off clear => Sys2Proof.Machine.execCounterRead src b off clear s
  | .hostXfer src toHost dev pa len r => Sys2Proof.Machine.execHostXfer src toHost dev pa len r s
  | .linkKey src p signed => Sys2Proof.Machine.execLinkKey src p signed s
  | .dieReset src die action => Sys2Proof.Machine.execDieReset src die action s
  | .imageWrite src block bytes img => Sys2Proof.Machine.execImageWrite src block bytes img s
  | .eventFwd src r => Sys2Proof.Machine.execEventFwd src r s
  | .regRead src b off => Sys2Proof.Machine.execRegRead src b off s
  | .registerWrite b off value => Sys2Proof.Machine.execRegisterWrite b off value s

end Sys2Proof.Machine
end

