-- ==== Sys2Proof/Machine/Sched.lean ====
section
/-! DEFINITION. What comes next: the next word of a warp or of a stack core, the steps of the hardware that are enabled, and the
clock. -/

namespace Sys2Proof.Machine

abbrev Out := Host.Outcome State Fault Refusal

/-! ### The next word (R27, R57, R82, R375) -/

/-- A fetch fault is raised on the threads about to issue the word (R27). -/
def State.fetchFault (s : State) (c w pc cls : Nat) (wp : Warp) : State :=
  let now := s.now c
  let wp1 := wp.prune now
  let set := wp1.issueSet pc
  let x : Iss := ⟨c, w, set, [], pc, wp1, now, s.ticket⟩
  (((s.setWarp c w fun _ => wp1).advance x).takeFaults x set (.at cls pc)).finish x ⟨false, 0, false, 7⟩ .trap

/-- The word at a warp's issue PC is fetched, decoded and executed. -/
def State.runWord (s : State) (c w : Nat) : Out :=
  match s.warp? c w with
  | none => .next s
  | some wp =>
    match wp.issuePc with
    | none => .next (s.breakRun c w)
    | some pc =>
      match s.fetchInstr c wp pc with
      | (s1, .error cls) => .next (s1.fetchFault c w pc cls wp)
      | (s1, .ok (i, st)) => exec i { s1.noteFetch c w pc wp st with turn := .warp c w }

/-- A Creven word as an instruction; one that is none is a reserved encoding (R376). -/
def crevenInstr (w : Nat) : Instr := (decodeCreven (BitVec.ofNat 32 w)).toOption.getD (.reservedEncoding (BitVec.ofNat 64 w))

/-- The next word of a stack core's instance, or the next work of a Maelyon program's. -/
def State.runStack (s : State) (n : Nat) : Out :=
  match (s.score n).run with
  | none => .next s
  | some x =>
    if let some sv := x.serve then .next (s.serveWork n x sv)
    else match s.fetch (.score n) none x.asid x.pc 4 x.sec with
    | (s1, .error cls) => .next (s1.stackFault n x cls)
    | (s1, .ok (w, st)) =>
      let s2 := if st = .ok then s1 else s1.setScore n fun k => { k with run := k.run.map fun i => i.failNow st }
      exec (crevenInstr w) { s2 with turn := .score n }

/-! ### The enabled steps -/

/-- The steps of the accesses in flight; a status is what an access to another device comes to when its target is
unreachable. -/
def State.accSteps (s : State) : List (State → Out) :=
  s.accs.flatMap fun a =>
    let r : Reply := .status (if a.lost then .peerLost else .ok)
    let near := a.dev.isNone || a.lost
    if a.performed || !near || (a.out && s.inYard a.id && !(s.homesOf a).isEmpty) then []
    else if a.isAtomic then (if s.readReady a then [execAtomicPerform a.id r] else [])
    else if a.reads then (if s.readReady a then [execLoadReturn a.id r] else [])
    else if s.ackReady a then [execAccessAcknowledged a.id r]
    else []

/-- The steps of a core's store queues, pending results, copy and matrix engines, and twins. -/
def State.coreSteps (s : State) (c : Nat) : List (State → Out) :=
  let k := s.core c
  let warps := k.ctxs.flatMap fun x => x.warps.map fun w => (x, w.1, w.2)
  let stores := warps.filterMap fun w =>
    match w.2.2.sq.head?.bind fun id => s.accs.find? fun a => a.id == id with
    | some a => if s.storeReady a then some (execStoreLeaveQueue c w.2.1) else none
    | none => none
  let pends := warps.flatMap fun w => (w.2.2.pend.filter fun p => s.pendReady c w.2.1 w.1 p).map fun p =>
    execVariableLatencyWrite c w.2.1 p.id
  let chunk := match s.copyNeed c with
    | some 0 => if s.coresRun then [execCopyChunk c] else []
    | _ => []
  let copies := ((k.ctxs.flatMap fun x => x.copyQ).filter fun q => q.finished && !(q.waitPen && s.alive q.launch)
      && (!(descOf q.desc).penen || s.penTurn c 1)).map fun q =>
    execCopyComplete c q.id
  let mat := match s.matCtx c with
    | none => if s.canServe c && s.coresRun then [execMatrixEngineServe c] else []
    | some x => (match x.mat.cur with
        | none => []
        | some m => if m.2.block < m.2.blocks then (if s.coresRun then [execMmaBlockEnd c 0] else [])
            else if x.freeDue then (if s.penTurn c 2 then [execMmaPenFree c] else []) else [execMmaComplete c])
  let drain := match k.twin with
    | .parked x => if x.enginesStopped then [execTwinDrainEnd c] else []
    | _ => []
  let bars := (warps.flatMap fun w => w.2.2.threads.filterMap fun t => match t.st with
    | .group m => if 2 ^ 32 ≤ m then some (execWideBarrierCompletion w.2.2.launch (handleIndex (m - 2 ^ 32)) (dieOf c)) else none
    | _ => none).take 1
  stores ++ pends ++ chunk ++ copies ++ mat ++ drain ++ bars

/-- The steps of a die: admissions and the ends of drains. -/
def State.dieSteps (s : State) (k : Nat) : List (State → Out) :=
  (if (s.die k).ranges.isEmpty || (s.nextAdmission k).isNone || !s.coresRun then [] else [execWarpAdmission k])
    ++ ((s.die k).gives.filter fun g => s.giveDone k g).map fun g => execGiveDrainEnd g.core g.warp

/-- The steps of a path (R418 to R425). -/
def State.pathSteps (s : State) (k : Nat) : List (State → Out) :=
  (upFrom 0 32).flatMap fun p =>
    let x := s.path k p
    let id : PathId := ⟨k, p⟩
    if x.st = .down then []
    else
      [execFlitSend id] ++ (if switchDue x.pendOut x.txCounter || switchDue x.pendIn x.rxCounter then [execRestripeSwitch id] else [])
        ++ (if x.flipReady then [execKeyFlip id] else []) ++ (if x.discardDue then [execOldKeyDiscard id] else [])
        ++ (if x.mustDown then [execPathDown id] else [])

/-- The steps of a stack and of its stack cores. -/
def State.stackSteps (s : State) (k : Nat) : List (State → Out) :=
  let t := s.stack k
  (if t.snapSt = .copying && t.alive && s.snapRuns k then [execSnapshotUnitCopy k true] else []) ++ s.pathSteps k
    ++ (upFrom (4 * k) 4).flatMap fun n =>
      let c := s.score n
      (if s.parkDue n then [execStackCorePark n] else [])
        ++ (if c.queue.isEmpty || !(s.reapScore n).scoreOpen n then [] else [execStackInstanceStart n])
        ++ (if c.parked.isEmpty || !(s.reapScore n).scoreOpen n then [] else [execStackCoreResume n])
        ++ ((c.psends.filter fun p => s.localDev p.dev).map fun p => execPsendStatus n p.id .ok)
        ++ (if t.scEn then [fun s => .next (s.startHouse n)] else [])

/-- Whether a collective command may complete: its instances have drawn their bales, and it needs nothing from another rank. -/
def State.collAlone (s : State) (c : CollCmd) : Bool :=
  c.done || (s.collDrawn c.id && (rowOp c.op || (cdescOf c.desc).nrank == 1))

/-- The steps of the control die, and of what belongs to no one unit. -/
def State.otherSteps (s : State) : List (State → Out) :=
  let k := s.ctl
  let polls := k.queues.filterMap fun q => match q.2.waiting.head? with
    | some w => if s.pollDue w then some (execDependencePoll (q.1 / 64) (q.1 % 64)) else none
    | none => none
  let start := if k.queues.any (fun q => (q.2.waiting.head?.map fun w => w.ready).getD false)
      || s.launches.any (fun l => !l.2.waitingPart.isEmpty) then [execSchedulerStart] else []
  (if k.alive then polls ++ start ++ (s.launches.filter fun l => l.2.ended.isSome).map (fun l => execLaunchEnd l.1 .ok)
      ++ (k.raises.filter fun r => s.raiseReady r).map (fun r => execGenerationRaise r.asid)
      ++ (k.pageins.filter fun p => !p.walked).map (fun p => execPageinRequest p.id) else [execHeartbeatTimeout])
    ++ (s.penRels.filter fun r => s.penRelDone r && (mget? s.penPhase (dieOf r.core)).isNone).map (fun r => execPenBoxReleaseComplete r.launch r.place r.pen r.box)
    ++ (s.colls.filter fun c => s.collAlone c && !(c.waitPen && s.alive c.launch)).map fun c => execCollComplete c.core c.warp c.id [] none

/-- The steps that the hardware may take now, beside the clock's. -/
def State.enabled (s : State) : List (State → Out) :=
  s.accSteps ++ (upFrom 0 64).flatMap (fun c => s.coreSteps c) ++ (upFrom 0 8).flatMap (fun k => s.dieSteps k)
    ++ (upFrom 0 16).flatMap (fun k => s.stackSteps k) ++ s.otherSteps

/-! ### The clock (R113 to R118, R178 to R183, R190 to R192, R370) -/

/-- A core's clock edge, unless it is stretched; the rotation of R183 looks at the cycle that ends, and the wait of a held warp
does not count (R190). -/
def Core.edge (k : Core) : Core :=
  if 0 < k.stretch then { k with stretch := k.stretch - 1 }
  else
    { k with
      cycles := k.cycles + 1
      lastFirst := if 2 ≤ k.reqs.length then k.reqs.headD 0 else k.lastFirst
      reqs := []
      ctx := { k.ctx with warps := k.ctx.warps.map fun w => if w.2.held then
        (w.1, { w.2 with bwait := w.2.bwait.map fun b => { b with start := b.start + 1 } }) else w } }

/-- Stack-core cycles (2.4 GHz) after `t` core cycles. -/
def scCyclesAt (t : Nat) : Nat := 4 * t / 5

/-- The clocks move on by one core cycle. -/
def State.clocks (s : State) : State :=
  let t := s.clock + 1
  let tick := t % cyclesPerTick == 0
  let sc := scCyclesAt t - scCyclesAt s.clock
  { s with
    clock := t
    cores := ((upFrom 0 s.cores.length).zip s.cores).map fun p => if (s.die (dieOf p.1)).st = .up then p.2.edge else p.2
    dies := s.dies.map fun d => if tick && d.st == .up then { d with ticks := d.ticks + 1 } else d
    stks := s.stks.map fun k =>
      if k.alive then { k with ticks := if tick then k.ticks + 1 else k.ticks, scCycles := k.scCycles + sc } else k
    ctl := if tick && s.ctl.alive then { s.ctl with ticks := s.ctl.ticks + 1 } else s.ctl
    penPhase := [] }

/-- The effects on slots, tile registers and groups that are due are settled before the cycle's issues (R227). -/
def State.settleDue (s : State) : State :=
  (upFrom 0 64).foldl (fun (s : State) c => if (s.core c).ctx.settles.isEmpty then s else s.settleCore c) s

/-- A candidate that is ready and cannot start is passed over for a tick (R364). -/
def State.countPassed (s : State) : State :=
  if s.clock % cyclesPerTick ≠ 0 ∨ !s.ctl.alive then s
  else s.ranked.foldl (fun (s : State) c =>
    if s.canStart c.1 c.2.1 c.2.2 then s else s.modHead c.1 c.2.1 fun w => { w with passed := w.passed + 1 }) s

/-- The ring cycle of a die, counted from its power-up (R177). -/
def State.ringCycle (s : State) (k : Nat) : Nat := s.clock - (s.die k).ring.base

/-- What the bale rings do in this cycle. -/
def State.ringWork (s : State) : List Todo :=
  let t := s.clock
  let sc := scCyclesAt t
  let moved := sc != scCyclesAt (t - 1)
  (((upFrom 0 8).filter fun k => s.ringCycle k % 64 == 0).map fun k => .ev (.baleTurn k))
    ++ (((upFrom 0 8).filter fun k => s.ringCycle k % 8 == 0).map fun k => .ev (.ringVisit k (s.ringCycle k % 64 / 8)))
    ++ (if moved && sc % 64 == 0 then (upFrom 0 4).map fun r => .ev (.rowRingTurn r) else [])
    ++ (if moved && sc % 4 == 0 then (upFrom 0 4).map fun r => .ev (.rowRingVisit r (sc % 64 / 4)) else [])
    ++ (if t % 65536 = 0 then (upFrom 0 8).map fun k => .ev (.predictorDecay k) else [])

/-- What is due on a core: waits that expire, warps that retire, reservations, half-column mode. -/
def State.coreDue (s : State) (c : Nat) : List Todo :=
  let k := s.core c
  let ths (f : TRef → Thread → Option Instr) : List Todo := k.ctx.warps.flatMap fun w =>
    ((upFrom 0 w.2.threads.length).zip w.2.threads).filterMap fun t => (f ⟨c, w.1, t.1⟩ t.2).map .ev
  ths (fun r t => match t.st with
      | .nap e => if e ≤ k.cycles then some (.napExpiry r) else none
      | _ => none)
    ++ ths (fun r t => if s.watchdogDue r t then some (.watchdogExpiry r) else none)
    ++ (k.ctx.warps.filter fun w => s.retirable c w.1 w.2).map (fun w => .ev (.warpRetire c w.1))
    ++ (s.dueWaits c).map (fun _ => .ev (.reservationGrant c))
    ++ (if s.halfDone c then [.ev (.halfColumnExit c)] else [])

/-- What is due elsewhere: timeouts, reservations of stack cores, the readings of dependences, priorities. The dependences of a candidate
are read in every tick: the spec asks for a reading after each add and at least every 1,024 ticks (DESIGN CHOICE, log 126). -/
def State.otherDue (s : State) : List Todo :=
  (s.accs.filter fun a => s.timeoutDue a).map (fun a => .ev (.accessTimeout a.id))
    ++ (upFrom 0 64).flatMap (fun n => ((s.score n).psends.filter fun p => s.sendLate n p).map fun p => .ev (.psendStatus n p.id .timeout))
    ++ ((upFrom 0 64).filter fun n => (s.scoreDue n).isSome).map (fun n => .ev (.reservationGrant (64 + n)))
    ++ s.ctl.queues.flatMap (fun q => match q.2.waiting.head? with
        | none => []
        | some w => (if s.pollDue w then [.ev (.dependencePoll (q.1 / 64) (q.1 % 64))] else [])
            ++ (if s.ctl.alive && w.rise != s.risen w then [.ev (.priorityRise (q.1 / 64) (q.1 % 64))] else [])
            ++ (if s.ctl.alive && !w.overdue && decide (2 ^ 20 ≤ w.passed) then [.ev (.passoverExpiry (q.1 / 64) (q.1 % 64))] else []))

/-! ### A core's issues in a cycle (R86 to R91, R183, R184, R186) -/

/-- Whether a core's quadrants work in this cycle: an engine of its die that has used a pen comes after them (R342). -/
def State.coreOn (s : State) (c : Nat) : Bool :=
  s.coresRun && (s.die (dieOf c)).st == .up && (s.core c).stretch == 0 && (mget? s.penPhase (dieOf c)).isNone

/-- A run ends where the warp's next issue PC is not the next word's address (R87): its ready time is the first cycle in which R41
lets the warp issue (R89), and its slot is free after its last word's passes. -/
def State.endStrayRun (s : State) (c q : Nat) : State :=
  match (lget (s.core c).slots q ⟨none, 0⟩).cur with
  | none => s
  | some w =>
    match s.warp? c w with
    | none => s.setCore c fun k => { k with slots := lmod k.slots q fun sl => { sl with cur := none } }
    | some wp =>
      if wp.run.isNone || wp.issuePc == wp.run.map (fun r => r.1) then s
      else (s.setWarp c w fun wp => { wp with run := none, readyAt := wp.nextIssue, ties := [] }).setCore c fun k =>
        { k with slots := lmod k.slots q fun sl => { sl with cur := none } }

/-- What a quadrant can do in this cycle: a later pass of its last word on sheds, the next word of a run, or an arbitration of its free
slot. -/
def State.quadDue (s : State) (c q : Nat) : Option Todo :=
  let sl := lget (s.core c).slots q ⟨none, 0⟩
  if (s.core c).passes.any fun p => p.warp / 16 == q && decide (p.due ≤ s.now c) then some (.pass c q)
  else match sl.cur with
  | some w => if ((s.warp? c w).map fun wp => decide (wp.nextIssue ≤ s.now c)).getD false then some (.word c w) else none
  | none => if sl.freeAt ≤ s.now c ∧ !(s.candidates c q).isEmpty then some (.ev (.slotArbitration c q)) else none

/-- A wait whose head is no longer the one that it is for ends (R186). -/
def State.endStaleWaits (s : State) (c : Nat) : State :=
  (s.core c).ctx.warps.foldl (fun (s : State) p => match p.2.bwait with
    | none => s
    | some b => match s.headWord c p.1 p.2 with
      | some ⟨pc, some i, price, _⟩ => if b.isFor pc i price then s else s.endBWait c p.1
      | _ => s.endBWait c p.1) s

/-- The request that a quadrant makes of the rack in this cycle: the warp whose word would issue, with its price, or none where the
word is short. -/
def State.quadRequest (s : State) (c q : Nat) : Option (Option (Nat × Nat)) :=
  let sl := lget (s.core c).slots q ⟨none, 0⟩
  let k := s.core c
  let ask (w : Nat) (wp : Warp) : Option (Option (Nat × Nat)) := match s.headOf c w wp with
    | .can price => if k.draws (.warp w) price then some (some (w, price)) else none
    | .short _ _ _ => some none
    | .cannot => none
  match sl.cur with
  | some w => (match s.warp? c w with
      | some wp => if wp.nextIssue ≤ s.now c then ask w wp else none
      | none => none)
  | none =>
    if s.now c < sl.freeAt then none
    else match winner (s.candidates c q) with
      | some p => (match ask p.1 p.2 with
          | some r => some r
          | none => if (s.shortHeads c q).isEmpty then none else some none)
      | none => if (s.shortHeads c q).isEmpty then none else some none

/-- A quadrant's turn in the service of R183. -/
def State.serveQuad (s : State) (c q : Nat) : State :=
  let s1 := s.noteShort c q
  match s1.quadRequest c q with
  | none => s1
  | some r =>
    let s2 := s1.setCore c fun k => k.request q
    match r with
    | some (w, price) => s2.grant c w price
    | none => s2

/-- The copy engine's turn: a draw that waits asks again; a new one asks in the cycle in which the engine comes to it, which the
specification leaves open. -/
def State.serveCopy (s : State) (c : Nat) : State :=
  match s.copyHead c, s.copyNeed c with
  | some q, some price =>
    if price = 0 ∨ (q.wait.isNone ∧ Config.choice s.ticket (2 ^ 56 + c) % 2 = 0) then s else s.copyDraw c q.id price
  | _, _ => s

/-- The service of a core's requests in this cycle, in the rotating order of R183; deposits have landed before. -/
def State.serveCore (s : State) (c : Nat) : State :=
  let s1 := (upFrom 0 4).foldl (fun (s : State) q => s.endStrayRun c q) (s.ungrant c)
  let s2 := s1.endStaleWaits c
  ((upFrom 1 5).map fun i => (((s.core c).lastFirst + i) % 5)).foldl (fun (s : State) r =>
    if r = 4 then s.serveCopy c else s.serveQuad c r) s2

/-- What is due of a core's quadrants, in ascending order (R204, R210, R227, R342). -/
def State.coreIssues (s : State) (c : Nat) : List Todo :=
  if s.coreOn c then (upFrom 0 4).filterMap fun q => s.quadDue c q else []

/-- A core's cycle: the rack serves, then the quadrants issue. -/
def State.runCore (s : State) (c : Nat) : State :=
  if !s.coreOn c || (s.core c).ctx.warps.isEmpty && (s.copyHead c).isNone then s
  else
    let s1 := s.serveCore c
    { s1 with agenda := s1.coreIssues c ++ s1.agenda }

/-- The issues of the stack cores in this cycle. -/
def State.scoreIssues (s : State) : List Todo :=
  if !s.coresRun || scCyclesAt s.clock == scCyclesAt (s.clock - 1) then []
  else (upFrom 0 64).filterMap fun n =>
    match (s.score n).run with
    | some i => if i.halting || !(s.stack (n / 4)).alive then none else some (.sword n)
    | none => none

/-- One core cycle: the clocks move on, the yard with those of the base dies (R407), and what falls in the cycle stands on the agenda: deposits before deductions (R183), the
admission of a held core before its issues (R190), and the cores in ascending order (R342). -/
def State.tick (s : State) : State :=
  let s0 := if s.clock % cyclesPerTick = 0 then s.clocks.heartbeats else s.clocks
  let s1 := (if scCyclesAt s.clock < scCyclesAt (s.clock + 1) then s0.yardCycle else s0).countPassed.settleDue
  { s1 with agenda := s1.ringWork ++ (upFrom 0 64).flatMap (fun c => s1.coreDue c) ++ s1.otherDue
              ++ (((upFrom 0 8).filter fun k => !(s1.die k).ring.heldCores.isEmpty).map fun k => .ev (.massReleaseAdmit k))
              ++ (upFrom 0 64).map Todo.quads ++ s1.scoreIssues }

/-- The cores of which a quadrant can still issue in this cycle: a warp became a candidate of a free slot, or a run was broken
(R88). -/
def State.issueDue (s : State) : List Nat := (upFrom 0 64).filter fun c => !(s.coreIssues c).isEmpty

/-- With an empty agenda the Veger takes one of the enabled steps, or the cycle comes to its end: its last issues, then the
clock; which, the specification leaves open. -/
def State.choose (s : State) : Out :=
  let l := s.enabled
  match Config.choice s.ticket (2 ^ 55) % (l.length + 1) with
  | 0 => .next (match s.issueDue with
    | [] => s.tick
    | cs => { s with agenda := cs.map Todo.quads })
  | n + 1 => (l[n]?.map fun f => f s).getD (.next s)

/-- The end of every step: nothing issues now, and the free values move on. -/
def closeStep (old : State) (o : Out) : Out :=
  match o with
  | .next s => .next { old.unstuck s with turn := .idle, ticket := old.ticket + 1 }
  | .fault f => .fault f
  | .refused r => .refused r

end Sys2Proof.Machine
end

