-- ==== Sys2Proof/Machine/Step.lean ====
section
/-! DEFINITION. One step of the package: the head of the agenda, or what the hardware does next. -/

namespace Sys2Proof.Machine

def step (s : State) : Host.Outcome State Fault Refusal :=
  match s.agenda with
  | .ev i :: rest => closeStep { s with agenda := rest } (exec i { s with agenda := rest, turn := .idle })
  | .word c w :: rest => closeStep { s with agenda := rest } (State.runWord { s with agenda := rest } c w)
  | .quads c :: rest => closeStep { s with agenda := rest } (.next (State.runCore { s with agenda := rest } c))
  | .pass c q :: rest => closeStep { s with agenda := rest } (.next (State.runPass { s with agenda := rest } c q))
  | .sword n :: rest => closeStep { s with agenda := rest } (State.runStack { s with agenda := rest } n)
  | [] => closeStep s s.choose

/-- The state with one instruction placed where the next step fetches it: a Quatin word for warp 0 of core 0, a Creven word for
an S-level instance on stack core 0. -/
def State.withFetchWord (s : State) (nbits w : Nat) : State :=
  if nbits ≤ 32 then s.loadCreven w else s.loadQuatin w

end Sys2Proof.Machine
end

