-- ==== Sys2Proof/Safety.lean ====
section
/-! DEFINITION. What holds of every state of a run: the package keeps its parts (R11), and memory keeps its canonical form. The
terms in which claims about an issue are made: that a warp issues a word, what the issue is, and what no issue of it touches. -/

namespace Sys2Proof.Machine

/-- The package has its 64 cores, 8 compute dies, 16 stacks, 4 rows of stacks and 64 stack cores (R11, R370). -/
def State.whole (s : State) : Bool :=
  s.cores.length == 64 && s.dies.length == 8 && s.stks.length == 16 && s.rows.length == 4 && s.scores.length == 64

/-- The memory of the stacks is in canonical form: addresses strictly rising and inside the stacks, no zero listed. -/
def State.memOk (s : State) : Bool := memWf s.mem

/-! ### Registers as a program finds them -/

/-- A register of a lane of a warp, as its register file holds it. -/
def State.reg (s : State) (c w : Nat) (n : RName) (lane : Nat) : Reg := ((s.warp? c w).map fun p => p.hold n lane).getD .zero

/-- A byte of a stack's memory, by its place, under no key. -/
def State.byteAt (s : State) (lin : Nat) : Byte := memGet s.mem lin

/-! ### The issue of a word -/

/-- The issue of a word with issue fields `h` by warp `w` of core `c`, which stands as `wp`, at `pc`: its issue set and the lanes
whose guard is true (R36, R82). -/
def Iss.of (s : State) (c w : Nat) (wp : Warp) (pc : Nat) (h : Hdr) : Iss :=
  let p := wp.prune (s.now c)
  let x0 : Iss := ⟨c, w, p.issueSet pc, [], pc, p, s.now c, s.ticket⟩
  { x0 with act := x0.set.filter fun l => x0.pred h.pred l != h.neg }

/-- Warp `w` of core `c`, which stands as `wp`, issues the word `i` at `pc`, and executes it: it is the warp's turn; the registers
that the word names are in its allotment (R51); no pending result and no full engine counter holds it back (R44, R286), nor, for
LAUNCH, an earlier access (R362), nor, for an engine command, an acquire or a fence before its descriptor (R292, R317); checking finds
no early read (R46); and its price can be paid (R182). -/
structure Issues (s : State) (i : Instr) (h : Hdr) (c w : Nat) (wp : Warp) (pc : Nat) : Prop where
  turn : s.turn = .warp c w
  warp : s.warp? c w = some wp
  head : wp.issuePc = some pc
  hdr : hdrOf i = some h
  word : wordOk wp i = true
  free : blocked wp (useOf (wp.width / 32) i) h = false
  gate : s.wordWaits i (Iss.of s c w wp pc h) = false
  guard : wp.sbcheck = true → (predName h.pred).any ((wp.prune (s.now c)).earlyName (s.now c)) = false
  room : (Iss.of s c w wp pc h).act ≠ [] → (wp.prune (s.now c)).engFull (useOf (wp.width / 32) i).eng = false
  early : wp.sbcheck = true → (Iss.of s c w wp pc h).act ≠ [] →
    earlySrc (wp.prune (s.now c)) (s.now c) (useOf (wp.width / 32) i) = none
  pays : s.canPay c (.warp w) (s.price (Iss.of s c w wp pc h) i) = true

/-- An operand that satisfies a check of tags (R48, R112, R148). -/
abbrev Opd.fits (o : Opd) (tags : List Tag) : Prop := o.konst = true ∨ (o.tag ∈ tags ∧ o.tag ≠ .poison)

/-- A core without its account of bales, its issue slots and its warps. -/
def Core.rest (k : Core) : Core :=
  { k with rack := 0, resv := [], satisfied := [], reqs := [], grants := [], slots := [], ctx := { k.ctx with warps := [] } }

/-- A compute die without what was spent in its turn. -/
def Die.rest (d : Die) : Die := { d with ring := { d.ring with spent := 0 } }

/-- What an issue by warp `w` of core `c` leaves as it was: memory, stacks, stack cores, the control die, launches, accesses in
flight, every other core and warp; and of its own die and core all but the account of bales and the issue slots. -/
structure Elsewhere (s t : State) (c w : Nat) : Prop where
  memory : t.mem = s.mem ∧ t.marks = s.marks ∧ t.gaps = s.gaps
  stores : t.stks = s.stks ∧ t.rows = s.rows ∧ t.scores = s.scores
  control : t.ctl = s.ctl ∧ t.launches = s.launches ∧ t.nextLaunch = s.nextLaunch
  flight : t.accs = s.accs ∧ t.colls = s.colls ∧ t.penRels = s.penRels ∧ t.yard = s.yard
  clocks : t.agenda = s.agenda ∧ t.turn = s.turn ∧ t.clock = s.clock ∧ t.stamp = s.stamp ∧ t.ticket = s.ticket
  walks : t.walkLost = s.walkLost ∧ t.walks = s.walks ∧ t.penPhase = s.penPhase
  die : ∀ k, (t.die k).rest = (s.die k).rest
  core : ∀ k, (t.core k).rest = (s.core k).rest
  cores : ∀ k, k ≠ c → t.core k = s.core k
  warps : ∀ k v, (k, v) ≠ (c, w) → t.warp? k v = s.warp? k v

/-- A thread of the issue's warp after its program counter has gone on by one word, if it is of the issue set (R83). -/
def Iss.after (x : Iss) (l : Nat) : Option Thread :=
  if l ∈ x.set then (x.w.thread? l).map fun t => { t with pc := (x.pc + 8) % 2 ^ 64, lastIssue := x.now } else x.w.thread? l

/-- What an issue leaves as it was of its own warp: all but its registers and its pending results; its threads have gone on
(`Iss.after`), and `th` then acts on each. -/
structure WarpGoesOn (x : Iss) (wp' : Warp) (th : Nat → Thread → Thread) : Prop where
  fixed : wp'.width = x.w.width ∧ wp'.launch = x.w.launch ∧ wp'.vregs = x.w.vregs ∧ wp'.uregs = x.w.uregs
  engines : wp'.sq = x.w.sq ∧ wp'.copyOut = x.w.copyOut ∧ wp'.matOut = x.w.matOut ∧ wp'.collOut = x.w.collOut
    ∧ wp'.deferred = x.w.deferred ∧ wp'.nonRes = x.w.nonRes
  modes : wp'.gstat = x.w.gstat ∧ wp'.phase = x.w.phase ∧ wp'.sbcheck = x.w.sbcheck ∧ wp'.held = x.w.held
  threads : ∀ l, wp'.thread? l = (x.after l).map (th l)

/-- What an issue puts into register `n` of lane `l`, if anything: its destinations `names` take, in each guard-true lane, the
registers `val` of that lane, in order; a uniform destination takes those of the lowest guard-true lane, once (R111); a predicate
takes `prs` of its lane, and p7 takes nothing (R36). -/
def Iss.puts (x : Iss) (names : List RName) (val : Nat → List Reg) (prs : Nat → Option (Pred × Bool)) (n : RName) (l : Nat) :
    Option Reg :=
  match n with
  | .v _ => if l ∈ x.act then (names.zip (val l)).lookup n else none
  | .w _ => x.act.head?.bind fun m => (names.zip (val m)).lookup n
  | .p k => if l ∈ x.act then (prs l).bind fun q => if q.1.val = k ∧ k ≠ 7 then some ⟨if q.2 then 1 else 0, .raw⟩ else none
    else none
  | .seed => none

/-- The word of issue `x` completes from `s` in `t`: the registers that `put` names take what it says; the results `more` join those
that are pending (R44); `th` acts on the warp's threads, $seed among what they hold; every other register, and everything that `Elsewhere` and `WarpGoesOn`
name, is as it was. -/
structure Moves (s t : State) (x : Iss) (put : RName → Nat → Option Reg) (more : List Pend) (th : Nat → Thread → Thread) : Prop where
  regs : ∀ n l, n ≠ .seed → l < 128 → (∀ k, n = .p k → k < 8) → t.reg x.core x.warp n l = (put n l).getD (s.reg x.core x.warp n l)
  warp : ∃ wp', t.warp? x.core x.warp = some wp' ∧ WarpGoesOn x wp' th ∧ wp'.pend = x.w.pend ++ more
  rest : Elsewhere s t x.core x.warp

/-- The same, where threads only go on. -/
def Lands (s t : State) (x : Iss) (put : RName → Nat → Option Reg) (more : List Pend) : Prop := Moves s t x put more fun _ t => t

/-- No register is put. -/
def noReg : RName → Nat → Option Reg := fun _ _ => none

/-- A source register of an issue in a lane is no POISON; a constant never is (R48, R113). -/
abbrev Iss.plain (x : Iss) (a : Src) (k l : Nat) : Prop := (x.src a k l).konst = true ∨ (x.src a k l).tag ≠ .poison

/-- It is an integer (R112). -/
abbrev Iss.int (x : Iss) (a : Src) (k l : Nat) : Prop := (x.src a k l).fits [.raw, .i32]

/-- It holds a tag of a list (R112, R148). -/
abbrev Iss.holds (x : Iss) (a : Src) (k l : Nat) (tags : List Tag) : Prop := (x.src a k l).fits tags

/-- Its value. -/
def Iss.val (x : Iss) (a : Src) (k l : Nat) : Word := (x.src a k l).val

/-- The 64-bit value of a pair of sources. -/
def Iss.val64 (x : Iss) (a : Src) (l : Nat) : Dword := x.val a 1 l ++ x.val a 0 l

/-- The two registers that hold a 64-bit value, the low half first. -/
def halves (v : Dword) (lo hi : Tag) : List Reg := [⟨v.extractLsb' 0 32, lo⟩, ⟨v.extractLsb' 32 32, hi⟩]

/-- Instruction `i` computes: wherever it issues, with sources that `ok` accepts in every guard-true thread, it answers a next state
in which each such thread has `n` registers for which `res` holds in destination `d` (a uniform one takes the lowest such thread's,
R111), and everything else that `Lands` names is as it was. -/
def Computes (i : Instr) (d : Dst) (n : Nat) (ok : Iss → Nat → Prop) (res : Iss → Nat → List Reg → Prop) : Prop :=
  ∀ (s : State) (h : Hdr) (c w : Nat) (wp : Warp) (pc : Nat), Issues s i h c w wp pc →
    (∀ l ∈ (Iss.of s c w wp pc h).act, ok (Iss.of s c w wp pc h) l) →
    ∃ t val, exec i s = .next t ∧
      (∀ l ∈ (Iss.of s c w wp pc h).act, (val l).length = n ∧ res (Iss.of s c w wp pc h) l (val l)) ∧
      Lands s t (Iss.of s c w wp pc h) ((Iss.of s c w wp pc h).puts (dstNames d n) val fun _ => none) []

/-- Instruction `i` decides a predicate, in the same way: p7 takes nothing (R36). -/
def Decides (i : Instr) (pd : Pred) (ok : Iss → Nat → Prop) (res : Iss → Nat → Bool) : Prop :=
  ∀ (s : State) (h : Hdr) (c w : Nat) (wp : Warp) (pc : Nat), Issues s i h c w wp pc →
    (∀ l ∈ (Iss.of s c w wp pc h).act, ok (Iss.of s c w wp pc h) l) →
    ∃ t, exec i s = .next t ∧ Lands s t (Iss.of s c w wp pc h)
      ((Iss.of s c w wp pc h).puts [] (fun _ => []) fun l => some (pd, res (Iss.of s c w wp pc h) l)) []

/-- A 32-bit value in 64 bits, with its sign, or unsigned (R122, R131). -/
def widened (u : Bool) (v : Word) : Dword := if u then v.zeroExtend 64 else v.signExtend 64

/-- Element `k` of `n` bits of a register, signed, or unsigned (R121). -/
def elemInt (u : Bool) (n k : Nat) (v : Word) : Int :=
  if u then ((v.extractLsb' (n * k) n).toNat : Int) else (v.extractLsb' (n * k) n).toInt

/-- An exact result in `n` bits: clamped under .sat to the range, signed or unsigned, of `n` bits, else wrapped (R121, R122). -/
def narrowed (u sat : Bool) (n : Nat) (x : Int) : BitVec n :=
  BitVec.ofInt n (if sat then (if u then max 0 (min (2 ^ n - 1) x) else max (-2 ^ (n - 1)) (min (2 ^ (n - 1) - 1) x)) else x)

/-- A register of element mode `e` that has `f` of the elements of `a` and `b` in each of its elements, with the mode's tag. -/
def elementwise (e : Sys2Proof.Elem) (u sat : Bool) (f : Int → Int → Int) (a b : Word) (rs : List Reg) : Prop :=
  ∃ v, rs = [⟨v, Elem.tag e⟩] ∧ ∀ k, Elem.bits e * (k + 1) ≤ 32 →
    v.extractLsb' (Elem.bits e * k) (Elem.bits e) =
      narrowed u sat (Elem.bits e) (f (elemInt u (Elem.bits e) k a) (elemInt u (Elem.bits e) k b))

/-! ### Floating point -/

/-- The value of an FP32 source, and of a binary64 pair; under .ftz a subnormal reads as a zero of its sign (R142). -/
def Iss.f32 (x : Iss) (a : Src) (ftz : Bool) (l : Nat) : FVal := FFmt.decodeZ .f32 ftz (x.val a 0 l).toNat
def Iss.f64 (x : Iss) (a : Src) (ftz : Bool) (l : Nat) : FVal := FFmt.decodeZ .f64 ftz (x.val64 a l).toNat

/-- Element `i` of 16 bits of a packed source in format `f`. -/
def Iss.f16 (x : Iss) (a : Src) (f : FFmt) (ftz : Bool) (i l : Nat) : FVal :=
  f.decodeZ ftz ((x.val a 0 l).extractLsb' (16 * i) 16).toNat

/-- The pair is a binary64 (R148). -/
def Iss.dbl (x : Iss) (a : Src) (l : Nat) : Prop := x.holds a 0 l [.fp64l] ∧ x.holds a 1 l [.fp64h]

/-- A finite value as a rational number. -/
def FVal.toRat : FVal → Option ℚ
  | .fin s m e => some ((if s then -1 else 1) * m * (2 : ℚ) ^ e)
  | _ => none

/-- The block of 32 elements in which lane `l` stands: the sources of its guard-true lanes, +0 elsewhere (R172). -/
def Iss.block (x : Iss) (a : Src) (l : Nat) : List Nat :=
  (List.range 32).map fun i => if 32 * (l / 32) + i ∈ x.act then (x.val a 0 (32 * (l / 32) + i)).toNat else 0

/-! ### Threads, faults and landings -/

/-- The level of a lane's thread is S (R73). -/
def Iss.sup (x : Iss) (l : Nat) : Bool := ((x.w.thread? l).map fun t => t.sLevel).getD false

/-- The fault record (R436), its fields side by side: CLASS, KIND, STATUS, INFO. -/
def faultWord (cls : BitVec 6) (kind : BitVec 2) (status : BitVec 4) (info : BitVec 16) : Dword :=
  cls ++ kind ++ (0 : BitVec 4) ++ status ++ info ++ (0 : Word)

/-- A thread at U level whose address space has a handler without a frame area: EN = 1, FRAME = 0 (R438). -/
structure Iss.caught (x : Iss) (s : State) (l : Nat) : Prop where
  en : (s.asidRec (s.asidOf x.w)).en = true
  noFrame : (s.asidRec (s.asidOf x.w)).frame = 0
  user : x.sup l = false

/-- A thread that has entered its handler from the issue's word (R439). -/
def Iss.handled (x : Iss) (s : State) (cls : BitVec 6) (info : BitVec 16) (t : Thread) : Thread :=
  { t with sLevel := true, st := .ready, pc := (s.asidRec (s.asidOf x.w)).entry, epc := x.pc, fault := faultWord cls 0 0 info }

/-- What pends after an instruction of variable latency: the registers `val` of its guard-true threads, on their way to the
registers `names` (R44), a uniform one once (R111). -/
structure Iss.sends (x : Iss) (p : Pend) (names : List RName) (val : Nat → List Reg) : Prop where
  regs : p.names = names
  known : p.src = .ready
  vals : ∀ v : Wb, v ∈ p.vals ↔ ∃ l ∈ x.act, ∃ r, (v.name, r) ∈ names.zip (val l) ∧ v.reg = r ∧
    match v.name with
    | .w _ => v.lane = 0 ∧ x.act.head? = some l
    | _ => v.lane = l

/-- Instruction `i` reads: in each guard-true thread, if there is one and the destination is not discarded (R49), the `n` registers
`val` of that thread pend for destination `d` (R44); everything else is as `Lands` says. -/
def Reads (i : Instr) (d : Dst) (n : Nat) (ok : Iss → State → Nat → Prop) (val : Iss → State → Nat → List Reg) : Prop :=
  ∀ (s : State) (h : Hdr) (c w : Nat) (wp : Warp) (pc : Nat), Issues s i h c w wp pc →
    (∀ l ∈ (Iss.of s c w wp pc h).act, ok (Iss.of s c w wp pc h) s l) →
    ∃ t more, exec i s = .next t ∧ Lands s t (Iss.of s c w wp pc h) noReg more ∧
      if (Iss.of s c w wp pc h).act = [] ∨ d = .discard then more = []
      else ∃ p, more = [p] ∧ p.id = s.nextId ∧ (Iss.of s c w wp pc h).sends p (dstNames d n) (val (Iss.of s c w wp pc h) s)

/-- Instruction `i` is taken by its guard-true threads, as `th` says, and moves no register. -/
def Acts (i : Instr) (ok : Iss → State → Nat → Prop) (th : Iss → State → Nat → Thread → Thread) : Prop :=
  ∀ (s : State) (h : Hdr) (c w : Nat) (wp : Warp) (pc : Nat), Issues s i h c w wp pc →
    let x := Iss.of s c w wp pc h
    (∀ l ∈ x.act, ok x s l) →
    ∃ t, exec i s = .next t ∧ Moves s t x noReg [] fun l t => if l ∈ x.act then th x s l t else t

/-- Instruction `i` raises a fault of class `cls` in its guard-true threads where `bad` holds of each of them: they enter their
handler, and nothing else of the instruction happens. -/
def Traps (i : Instr) (cls : BitVec 6) (info : Iss → Nat → BitVec 16) (bad : Iss → State → Nat → Prop) : Prop :=
  Acts i (fun x s l => bad x s l ∧ x.caught s l) fun x s l t => x.handled s cls (info x l) t

/-! ### Accesses -/

/-- The address `va` of a lane's access of `size` bytes passes every check through a cached translation, as `leaf` and the physical
address `pa` (R251, R255, R275, R18 to R21). -/
structure Maps (s : State) (x : Iss) (l va size : Nat) (k : XKind) (atomic : Bool) (leaf pa : Nat) : Prop where
  low : va < 2 ^ 55
  aligned : va % size = 0
  found : ∃ y, s.xlFind (.thread (x.ref l)) (s.asidOf x.w) va = some y ∧ leaf = y.leafFor va ∧
    (pteSec y.leaf = true → (s.core x.core).ctx.sec = true) ∧ k.permitted y.leaf = true ∧ (k.writes = true → pteD y.leaf = true)
  place : pa = pteFrame leaf * 2 ^ 16 + va % 2 ^ 16
  there : s.targetFault leaf pa size (x.sup l) atomic = none

/-- What an access asks of memory: all of it but its number, when it is sent and what held it. -/
structure Asked where
  who : Who
  lanes : List Nat
  kind : AKind
  cls : Cls
  hint : Hint
  reach : Nat
  dev : Option Nat
  pa : Nat
  size : Nat
  key : Nat
  stable : Bool
  secAgent : Bool
  asid : Nat
  launch : Nat
  va : Nat
  queued : Bool
  performed : Bool
  deriving DecidableEq, Repr

def Acc.asked (a : Acc) : Asked :=
  ⟨a.who, a.lanes, a.kind, a.cls, a.hint, a.reach, a.dev, a.pa, a.size, a.key, a.stable, a.secAgent, a.asid, a.launch, a.va, a.queued,
    a.performed⟩

/-- An access by lane `l` of an issue, or by the `lanes` of it, at `va`, which a leaf takes to `pa`: it has the leaf's reach, device,
key slot and stability (R246), and the agent's world, address space and launch. -/
def Iss.asks (x : Iss) (s : State) (l : Nat) (lanes : List Nat) (kind : AKind) (cls : Cls) (hint : Hint) (va leaf pa size : Nat)
    (queued : Bool) : Asked :=
  ⟨.thread (x.ref l), lanes, kind, cls, hint, pteReach leaf, if s.localDev (pteDev leaf) then none else some (pteDev leaf), pa, size,
    pteKey leaf, pteS leaf, (s.core x.core).ctx.sec, s.asidOf x.w, x.w.launch, va, queued, false⟩

/-- What an instruction on memory leaves as it was at its issue: the vector and uniform registers of every warp, and the predicates, but
those that a FENCE.SYS still out will write (R318). Its threads go on (R83); `st` is their state after it. -/
structure Steps (s t : State) (x : Iss) (st : Nat → TSt → TSt) : Prop where
  regs : ∀ c w n l, (∀ k, n ≠ .p k) → t.reg c w n l = s.reg c w n l
  preds : ∀ c w k l, k < 8 → l < 128 →
    (∀ f ∈ s.accs, ∀ r, f.who = .thread r → f.kind = .fence true k → (r.core, r.warp, r.lane) ≠ (c, w, l)) →
    t.reg c w (.p k) l = s.reg c w (.p k) l
  threads : ∀ l, (t.thread? (x.ref l)).map (fun th => (th.pc, th.st, th.sLevel, th.tid, th.seed, th.groups)) =
    (x.after l).map fun th => (th.pc, st l th.st, th.sLevel, th.tid, th.seed, th.groups)

/-- The same, with the control die, the launches, the rows and the collectives as they were. -/
structure Beside (s t : State) (x : Iss) (st : Nat → TSt → TSt) : Prop extends Steps s t x st where
  control : (t.ctl, t.launches, t.nextLaunch, t.rows, t.colls, t.penRels) = (s.ctl, s.launches, s.nextLaunch, s.rows, s.colls, s.penRels)
  clocks : (t.agenda, t.turn, t.clock, t.ticket) = (s.agenda, s.turn, s.clock, s.ticket)

/-- The bytes of the stacks, and what the caches and the sheds hold, are as they were. -/
structure Still (s t : State) : Prop where
  memory : t.mem = s.mem ∧ t.marks = s.marks ∧ t.gaps = s.gaps
  dies : ∀ k, (t.die k).rest = (s.die k).rest
  l1 : ∀ k, (t.core k).l1 = (s.core k).l1 ∧ (t.core k).tlb = (s.core k).tlb

/-- The accesses in flight after an issue: those before it, but for fences that had nothing more to wait for, and then `new`. -/
def Joined (s t : State) (new : List Asked) : Prop := ∃ old, old.Sublist (s.accs.map Acc.asked) ∧ t.accs.map Acc.asked = old ++ new

/-- The pending results of a warp after an issue: those before it, but for ones whose accesses had returned, and then `new` (R44). -/
def Pends (_s t : State) (x : Iss) (new : List Pend) : Prop :=
  ∃ wp' old, t.warp? x.core x.warp = some wp' ∧ old.Sublist x.w.pend ∧ wp'.pend = old ++ new

/-- Instruction `i` makes one access for each guard-true thread whose address passes the checks: `ask` says which. The registers
`names` pend on them (R44); nothing is read or written yet. -/
def Asks (i : Instr) (names : List RName) (ok : Iss → Nat → Prop) (va : Iss → Nat → Nat) (size : Nat) (k : XKind)
    (kind : Iss → Nat → AKind) (cls : Cls) (hint : Hint) (queued : Bool) : Prop :=
  ∀ (s : State) (h : Hdr) (c w : Nat) (wp : Warp) (pc : Nat) (leaf pa : Nat → Nat), Issues s i h c w wp pc →
    let x := Iss.of s c w wp pc h
    (∀ l ∈ x.act, ok x l ∧ Maps s x l (va x l) size k false (leaf l) (pa l)) →
    ∃ t, exec i s = .next t ∧ Beside s t x (fun _ st => st) ∧ Still s t ∧
      Joined s t (x.act.map fun l => x.asks s l [l] (kind x l) cls hint (va x l) (leaf l) (pa l) size queued) ∧
      Pends s t x (if x.act = [] ∨ names = [] then [] else [⟨s.nextId, names, .acc (s.nextId + x.act.length), []⟩]) ∧
      ∀ wp', t.warp? c w = some wp' → wp'.sq = wp.sq ++ if queued then (upFrom (s.nextId + 1) x.act.length) else []

/-- The low bytes of a group of registers, least significant first. -/
def Iss.bytes (x : Iss) (d : Src) (n l : Nat) : List Byte :=
  (List.range n).map fun i => (x.val d (i / 4) l).extractLsb' (8 * (i % 4)) 8

/-- A scratch address in a lane names byte `off` of a shed, aligned and ATTACHED, or given in this very cycle (R203, R211). -/
structure Scratch (s : State) (x : Iss) (addr : Word) (size shed off : Nat) : Prop where
  high : addr.extractLsb' 22 10 = 0
  low : off = (addr.extractLsb' 0 16).toNat ∧ off % size = 0
  slot : ∃ key e, s.shedSlot x.core x.w.launch (addr.extractLsb' 16 6).toNat = some (key, e) ∧ e.shed = shed ∧
    (e.st = .attached ∨ e.st = .draining ∧ e.since = s.clock)

/-- The lanes of the first pass of a word on sheds, which act at its issue (R204). -/
def Iss.pass0 (x : Iss) : Iss := { x with act := x.act.filter fun l => l < 32 }

/-- The lanes of the later passes of a word on sheds wait for the cycles of theirs (R204). -/
def Iss.defers (x : Iss) (s t : State) (i : Instr) (uni : Bool) : Prop :=
  let rest := x.act.filter fun l => 32 ≤ l
  (t.core x.core).passes = (s.core x.core).passes ++
    if rest = [] then [] else [⟨x.warp, x.w.launch, i, x.pc, x.set, rest, x.now, uni⟩]

/-- Some access of the issue's core to a shed of its die is still to be performed; and none is (R204). -/
def Iss.behind (x : Iss) (s : State) (shed : Nat) : Prop :=
  ∃ a ∈ s.accs, a.performed = false ∧ a.isWait = false ∧ a.core? = some x.core ∧ x.core / 8 * 512 + shed ∈ a.sheds ∧ a.id < s.nextId
def Iss.first (x : Iss) (s : State) (shed : Nat) : Prop :=
  ∀ a ∈ s.accs, a.performed = false → a.isWait = false → a.core? = some x.core → x.core / 8 * 512 + shed ∉ a.sheds

/-- An access of lane `l` to a shed of its die. -/
def Iss.asksShed (x : Iss) (s : State) (l : Nat) (kind : AKind) (cls : Cls) (shed off size : Nat) : Asked :=
  ⟨.thread (x.ref l), [l], kind, cls, .none, 1, none, shedPa (shedPlace (x.core / 8) shed off), size, 0, false,
    (s.core x.core).ctx.sec, 0, x.w.launch, 0, false, false⟩

/-- A word whose accesses to memory or to sheds are `new`, on the last of which the registers `names` pend (R44). -/
def AsksFor (s t : State) (x : Iss) (names : List RName) (new : List Asked) : Prop :=
  Beside s t x (fun _ st => st) ∧ Still s t ∧ Joined s t new ∧
    Pends s t x (if new = [] ∨ names = [] then [] else [⟨s.nextId, names, .acc (s.nextId + new.length), []⟩])

/-- A word that reads what is there: the registers `val` of its guard-true threads are on their way to destination `d` (R44). -/
def Answers (s t : State) (x : Iss) (d : Dst) (n : Nat) (val : Nat → List Reg) : Prop :=
  Beside s t x (fun _ st => st) ∧ Still s t ∧ Joined s t [] ∧ ∃ more, Pends s t x more ∧
    if x.act = [] ∨ d = .discard then more = [] else ∃ p, more = [p] ∧ x.sends p (dstNames d n) val

/-- The bytes of a shed from `off`. -/
def State.shedHolds (s : State) (die shed off n : Nat) : List Byte := (upFrom off n).map fun i => mget (s.shedOf die shed).bytes i 0

/-- None of `n` bytes of a shed from `off` lies in a marked bank word (R149). -/
def State.shedClean (s : State) (die shed off n : Nat) : Prop := ∀ i < n, (off + i) / 4 ∉ (s.shedOf die shed).marks

/-! ### What pends, and what an issue changes beside registers -/

/-- After issue `x` from `u`, `n` registers `val` of each guard-true thread pend for destination `d` (R44, R49); everything else is as
`Lands` says. -/
def Tells (u t : State) (x : Iss) (d : Dst) (n : Nat) (val : Nat → List Reg) : Prop :=
  ∃ more, Lands u t x noReg more ∧ if x.act = [] ∨ d = .discard then more = []
    else ∃ p, more = [p] ∧ p.id = u.nextId ∧ x.sends p (dstNames d n) val

/-- The requests of an atomic: one for its lanes in this package, and one for those at each sector of another device (R350, R351). -/
def Iss.shares (x : Iss) (s : State) (leaf pa : Nat → Nat) : List (List Nat) :=
  let key (l : Nat) : Option (Nat × Nat) := if s.localDev (pteDev (leaf l)) then none else some (pteDev (leaf l), pa l / 32)
  ((x.act.map key).eraseDups).map fun k => x.act.filter fun l => key l == k

/-- A thread has an access or a fence that is not done (R317). -/
def State.owes (s : State) (r : TRef) (launch : Nat) : Prop :=
  ∃ a ∈ s.accs, a.isOf r = true ∧ a.launch = launch ∧ a.performed = false ∧ a.id < s.nextId ∧ a.isPagein = false ∧ a.isFence = false

/-- $rerr of a thread after a fence has ended: the failures of its stores are recorded, and by FENCE.SYS each failure since the last
FENCE.SYS once more (R317, R318, R323). -/
def Thread.settled (t : Thread) (sys : Bool) : Nat × Nat :=
  let bad := (t.late ++ if sys then t.fails ++ t.late else []).filter fun st => st ≠ .ok
  (if bad = [] then t.rerrCount else min 255 (t.rerrCount + bad.length), (bad.getLast?.map RStat.code).getD t.rerrStat)

/-- No other context of a core, parked or saved, holds anything of a launch (R447). -/
def State.alone (s : State) (c launch : Nat) : Prop := ∀ y ∈ (s.core c).ctxs.drop 1, (∀ p ∈ y.warps, p.2.launch ≠ launch) ∧ mget? y.views launch = none

/-- As `Tells`, where `th` acts on the warp's threads too. -/
def TellsAnd (u t : State) (x : Iss) (d : Dst) (val : Nat → Word) (th : Nat → Thread → Thread) : Prop :=
  ∃ more, Moves u t x noReg more th ∧ if x.act = [] ∨ d = .discard then more = []
    else ∃ p, more = [p] ∧ p.id = u.nextId ∧ x.sends p (dstNames d 1) fun l => [⟨val l, .i32⟩]

/-- The guard-true threads of an issue, of which there is one, share the current group `g` (R226, R326). -/
structure Iss.inGroup (x : Iss) (g : Nat) : Prop where
  active : x.act ≠ []
  all : ∀ l ∈ x.act, ∃ th, x.w.thread? l = some th ∧ th.groups.head? = some g

/-- Group `g` of a launch has the role MATRIX: ALL has, or its record says so (R327). -/
def State.matrixRole (s : State) (launch g : Nat) : Prop :=
  g = allHandle ∨ ∃ r, s.group? launch g = some r ∧ r.roles.matrix = true

/-- An effect of an issue on slots, tile registers and groups: it is settled in the cycle after the issue's last pass (R227). -/
def Iss.settle (x : Iss) (s : State) (act : SetAct) : Settle := ⟨x.now + x.w.width / 32, x.warp, x.w.launch, s.nextId, x.act, act⟩

/-- The word does nothing but wait for the settling of `act`, with its result in `names` pending (R227); everything else is as `Lands`
says. -/
def Settles (s t : State) (x : Iss) (names : List RName) (act : SetAct) : Prop :=
  Lands (s.setCtx x.core fun k => { k with settles := k.settles ++ [x.settle s act] }) t x noReg
    (if names = [] then [] else [⟨s.nextId, names, .claim, []⟩])

/-- The pending result of a claim has come: `r`, in each of its lanes, or once in a uniform register (R229). -/
def Claimed (s t : State) (c : Nat) (e : Settle) (r : Word) : Prop :=
  ∀ wp p, s.warp? c e.warp = some wp → p ∈ wp.pend → p.id = e.id → ∃ wp' p', t.warp? c e.warp = some wp' ∧ p' ∈ wp'.pend ∧
    p'.id = e.id ∧ p'.names = p.names ∧ p'.src = .ready ∧ ∀ q : Wb, q ∈ p'.vals ↔ q.name ∈ p.names ∧ q.reg = ⟨r, .i32⟩ ∧
      match q.name with
      | .w _ => q.lane = 0
      | _ => q.lane ∈ e.lanes

/-- The command of an issue goes to its group's queue when it is settled, and counts in MATRIX (R227, R231, R286); everything else is as
`Lands` says. -/
def Queued (s t : State) (x : Iss) (g : Nat) (cmd : MCmd) : Prop :=
  let f (w : Warp) : Warp := { w with matOut := w.matOut ++ [⟨s.nextId, false, false⟩] }
  cmd.id = s.nextId ∧ cmd.warp = x.warp ∧ cmd.launch = x.w.launch ∧ cmd.block = 0 ∧ cmd.poisoned = [] ∧
    Lands ((s.setWarp x.core x.warp f).setCtx x.core fun k => { k with settles := k.settles ++ [x.settle s (.queue g cmd)] }) t
      { x with w := f x.w } noReg []

/-- The rows that the guard-true lanes own, of the row groups of a mask, in ascending order (R225). -/
def Iss.ownsRows (x : Iss) (mask : BitVec 4) (rows : List Nat) : Prop :=
  rows.Pairwise (· < ·) ∧ ∀ r, r ∈ rows ↔ r < 128 ∧ r % x.w.width ∈ x.act ∧ mask.getLsbD (r / 32) = true

/-! ### Events -/

/-- Everything of the package but core `c` is as it was. -/
structure OnlyCore (s t : State) (c : Nat) : Prop where
  memory : (t.mem, t.marks, t.gaps) = (s.mem, s.marks, s.gaps)
  parts : (t.dies, t.stks, t.rows, t.scores, t.ctl) = (s.dies, s.stks, s.rows, s.scores, s.ctl)
  work : (t.launches, t.nextLaunch, t.accs, t.colls, t.penRels) = (s.launches, s.nextLaunch, s.accs, s.colls, s.penRels)
  clocks : (t.agenda, t.turn, t.clock, t.nextId, t.stamp, t.ticket) = (s.agenda, s.turn, s.clock, s.nextId, s.stamp, s.ticket)
  cores : ∀ k, k ≠ c → t.core k = s.core k

/-- An element of a tile register of a view, and the tag of a row. -/
def View.cell (v : View) (n r q : Nat) : Word := ((v.tiles[n]?).map fun t => t.elem r q).getD 0
def View.rowTag (v : View) (n r : Nat) : Tag := ((v.tiles[n]?).map fun t => t.tag r).getD .fp32

/-- A term of a group of 8 products, truncated toward zero to a multiple of 2^u, its lowest bit sticky (R151). -/
def sticky (u : Int) (q : ℚ) : ℚ :=
  let f := ⌊|q| / (2 : ℚ) ^ u⌋₊
  (if q < 0 then -1 else 1) * (if (f : ℚ) * (2 : ℚ) ^ u = |q| ∨ f % 2 = 1 then f else f + 1) * (2 : ℚ) ^ u

/-! ### Words of stack cores -/

/-- A stack core without its running instance, its account of bales. -/
def SCore.rest (k : SCore) : SCore := { k with rack := 0, resv := none, satisfied := none, bwait := none, run := none }

/-- Stack core `n` issues word `i` for its running instance `x` (R370, R376): it is the stack core's turn, no SWWAIT of the instance
waits, no result for a register that the word names is pending, and its price can be paid (R182). -/
structure SIssues (s : State) (i : Instr) (n : Nat) (x : Inst) : Prop where
  turn : s.turn = .score n
  run : (s.score n).run = some x
  goes : x.halting = false
  waits : s.scoreWaits n = false
  free : x.blocked i = false
  pays : ((s.score n).newHead x.pc i (x.price i)).pay (x.price i) ≠ none

/-- Stack core `n` goes on from `s` to `t`, and its running instance then is `y`, but for its note of loads that have counted a mark;
everything else, but the stack core's account of bales, is as it was. -/
structure SGoes (s t : State) (n : Nat) (y : Inst) : Prop where
  run : ∃ m, (t.score n).run = some { y with marking := m }
  core : (t.score n).rest = (s.score n).rest
  cores : ∀ k, k ≠ n → t.score k = s.score k
  rest : { t with scores := s.scores } = s

/-- The word's instance has gone on by one word (R375). -/
def Inst.on (x : Inst) : Inst := { x with pc := (x.pc + 4) % 2 ^ 64 }

/-- Scalar register `r` of an instance, as 64 bits. -/
def Inst.G (x : Inst) (r : CReg) : Dword := BitVec.ofNat 64 (x.gv r)

/-- Scalar register `d` of `y` holds `v`, marked as `m` says, and every other register is as in `x`; g0 takes nothing (R370, R371). -/
def Inst.took (y x : Inst) (d : CReg) (v : Dword) (m : Bool) : Prop :=
  y = { x with g := y.g, gm := y.gm } ∧
  ∀ r : CReg, y.G r = (if r = d ∧ d ≠ 0 then v else x.G r) ∧ y.gmark r = (if r = d ∧ d ≠ 0 then m else x.gmark r)

/-- Word `i` gives scalar register `d` the value `val`, marked as `mark` says, wherever it issues with operands that `ok` accepts; the
instance goes on. -/
def Scalar (i : Instr) (d : CReg) (ok : Inst → Prop) (val : State → Nat → Inst → Dword) (mark : Inst → Bool) : Prop :=
  ∀ (s : State) (n : Nat) (x : Inst), SIssues s i n x → ok x →
    ∃ t y, exec i s = .next t ∧ SGoes s t n y ∧ y.took x.on d (val s n x) (mark x)

/-- Word `i` ends its instance where `bad` holds: with fault `cls`, recorded as an event (R374), or, for `cls` 0, as poisoned (R371); a
U-level launch ends so. Nothing is written, and nothing of memory, cores, dies and stacks changes. -/
def SEnds (i : Instr) (cls : Nat) (bad : State → Nat → Inst → Prop) : Prop :=
  ∀ (s : State) (n : Nat) (x : Inst), SIssues s i n x → bad s n x → ∃ t, exec i s = .next t ∧
    (t.mem, t.marks, t.gaps, t.dies, t.cores, t.stks, t.rows, t.accs, t.colls) =
      (s.mem, s.marks, s.gaps, s.dies, s.cores, s.stks, s.rows, s.accs, s.colls) ∧
    t.ctl = (if cls = 0 then s.ctl else (s.event 2 cls x.part 3 n (s.stack (n / 4)).ticks x.pc x.idx).ctl) ∧
    (∀ k, k ≠ n → t.score k = s.score k) ∧
    (∀ y, (t.score n).run = some y → y = { x with halting := true, marking := y.marking }) ∧
    ((s.score n).psends = [] → (∀ a ∈ s.accs, a.who ≠ .score n) → (t.score n).run = none) ∧
    ∀ l, s.launch? x.launch = some l → (t.launch? x.launch).map Launch.ended =
      some (if x.sLevel = false ∧ l.ended = none then some (if cls = 0 then .poisoned else .fault, cls) else l.ended)

/-- Word `i` leaves its instance at `pc`, where `ok` holds; nothing else changes. -/
def Goes (i : Instr) (ok : Inst → Prop) (pc : Inst → Nat) : Prop :=
  ∀ (s : State) (n : Nat) (x : Inst), SIssues s i n x → ok x →
    ∃ t, exec i s = .next t ∧ SGoes s t n { x with pc := pc x }

/-! ### Accesses of stack cores -/

/-- The address of an access of stack core `n` passes every check, as `leaf` and the physical address `pa`; `u` is the state after its
translation (R382, R251, R255, R18 to R21). -/
structure SMaps (s u : State) (n : Nat) (x : Inst) (va size : Nat) (k : XKind) (leaf pa : Nat) : Prop where
  aligned : va % size = 0
  found : s.translate (.score n) x.asid va k x.sec = (u, .ok leaf pa)
  reach : 2 ≤ pteReach leaf
  there : s.targetFault leaf pa size x.sLevel (k == .atomic) = none

/-- The same of several accesses, one after the other: their addresses, leaves and physical addresses. -/
def SMapsAll (n : Nat) (x : Inst) (size : Nat) (k : XKind) (u : State) : State → List (Nat × Nat × Nat) → Prop
  | s, [] => s = u
  | s, p :: l => ∃ s1, SMaps s s1 n x p.1 size k p.2.1 p.2.2 ∧ SMapsAll n x size k u s1 l

/-- An access by the instance `x` of stack core `n`, at `va`, which a leaf takes to `pa`. -/
def Inst.asks (x : Inst) (s : State) (n : Nat) (kind : AKind) (cls : Cls) (va leaf pa size : Nat) : Asked :=
  ⟨.score n, [], kind, cls, .none, pteReach leaf, if s.localDev (pteDev leaf) then none else some (pteDev leaf), pa, size,
    pteKey leaf, pteS leaf, x.sec, x.asid, x.launch, va, false, false⟩

/-- Stack core `n` goes on as `y`, and the accesses `new` join those in flight, with the numbers that come next (R383); stacks change
only by what is sent to other devices. -/
structure SAsked (s t : State) (n : Nat) (y : Inst) (new : List Asked) : Prop where
  goes : SGoes { s with accs := t.accs, stks := t.stks, nextId := s.nextId + new.length } t n y
  joined : Joined s t new
  ids : ∀ i < new.length, ∃ a ∈ t.accs, a.id = s.nextId + i ∧ new[i]? = some a.asked
  sent : (∀ a ∈ t.accs, a.dev = none) → t.stks = s.stks

/-- No fence is out, and stack core `n` may have `m` more accesses in flight, of 32 (R383). -/
def State.roomFor (s : State) (n m : Nat) : Prop :=
  (∀ a ∈ s.accs, a.isFence = false) ∧ (s.accs.filter fun a => a.performed = false ∧ a.who = .score n).length + m ≤ 32

/-- G[r] + off, modulo 2^64. -/
def Inst.addr (x : Inst) (r : CReg) (off : Int) : Nat := (BitVec.ofInt 64 ((x.G r).toInt + off)).toNat

/-- The low `n` bytes of a scalar register, the lowest first. -/
def Inst.low (x : Inst) (r : CReg) (n : Nat) : List Byte := (List.range n).map fun i => (x.G r).extractLsb' (8 * i) 8

/-- A scalar register waits for result `id`; g0 does not. -/
def Inst.owes (x : Inst) (d : CReg) (id : Nat) : Inst := { x with pendG := if d = 0 then x.pendG else x.pendG ++ [(d.val, id)] }

/-! ### Vectors of stack cores -/

/-- Element `j` of `e` bits of a vector register, and whether its 8-byte chunk is marked (R371). -/
def Inst.E (x : Inst) (r : CReg) (e j : Nat) : Nat := x.hv r / 2 ^ (e * j) % 2 ^ e
def Inst.M (x : Inst) (r : CReg) (e j : Nat) : Bool := (x.hmarks r).testBit (j * e / 64)

/-- A mask enables element `j` of a type (R372); k0 enables all. -/
def Inst.on? (x : Inst) (k : KReg) (ty : CTy) (j : Nat) : Prop := j < ctyN ty ∧ (k = 0 ∨ (x.kv k).testBit j = true)

/-- Vector register `d` of `y` has `val` and `mark` in the elements that `on` names and keeps the others; a chunk is marked by a marked
element put into it, and stays marked unless all of it is written; every other register is as in `x` (R371, R386). -/
def Inst.vtook (y x : Inst) (d : CReg) (ty : CTy) (on : Nat → Prop) (val : Nat → Nat) (mark : Nat → Bool) : Prop :=
  let e := ctyBits ty
  y = { x with h := y.h, hm := y.hm } ∧ (∀ r : CReg, r ≠ d → y.hv r = x.hv r ∧ y.hmarks r = x.hmarks r) ∧
  (∀ j < ctyN ty, (on j → y.E d e j = val j % 2 ^ e) ∧ (¬on j → y.E d e j = x.E d e j)) ∧
  ∀ c < 8, (y.hmarks d).testBit c = true ↔ (∃ j < ctyN ty, j * e / 64 = c ∧ on j ∧ mark j = true) ∨
    ((x.hmarks d).testBit c = true ∧ ∃ j < ctyN ty, j * e / 64 = c ∧ ¬on j)

/-! ### Engine commands -/

/-- The state in which the effect of a word that costs nothing begins: the program counters of its threads have gone on (R83). -/
def Iss.enters (x : Iss) (s : State) : State := (s.setWarp x.core x.warp fun _ => x.w).advance x

/-- Group `g` of a launch has the role COPY (R226, R327). -/
def State.copyRole (s : State) (launch g : Nat) : Prop :=
  g = allHandle ∨ ∃ r, s.group? launch g = some r ∧ r.roles.copy = true

/-- The issue `x` from `s` completes in `t`: its threads go on, and all else is as in `u`, the state after its checks, but its warp, whose
outstanding commands are those of `w`. -/
structure Commands (s u t : State) (x : Iss) (w : Warp) : Prop where
  steps : Steps s t x fun _ st => st
  rest : Elsewhere u t x.core x.warp
  id : t.nextId = u.nextId
  counts : ∃ wp', t.warp? x.core x.warp = some wp' ∧ (wp'.copyOut, wp'.matOut, wp'.collOut, wp'.pend, wp'.deferred) =
    (w.copyOut, w.matOut, w.collOut, w.pend, w.deferred)

/-! ### Accesses that complete -/

/-- Access `a` of lanes of warp `wp`, which `r` names, is the only one in flight; it is not performed, it has been sent nowhere that is
lost, and no thread of its core waits at a barrier. -/
structure Sole (s : State) (a : Acc) (r : TRef) (wp : Warp) : Prop where
  only : s.accs = [a]
  who : a.who = .thread r
  todo : a.performed = false ∧ a.lost = false
  warp : s.warp? r.core r.warp = some wp
  launch : wp.launch = a.launch
  alone : s.alone r.core a.launch
  core : r.core < s.cores.length
  lanes : a.lanes.Nodup ∧ ∀ l ∈ a.lanes, l < 128
  free : s.barriersOn r.core = []

/-- The place `lin` of `n` bytes, inside one line, of a stack that is there, under no key: no die cache has borrowed its line, no snapshot
has frozen its unit, and no byte of its line was dropped by DISCARD and not stored to since (R266, R282, R353, R457). -/
structure Plain (s : State) (lin n : Nat) : Prop where
  line : lin % 128 + n ≤ 128
  there : lin < 2 ^ 40 ∧ (s.stack (homeOf lin)).alive = true
  home : ∀ k < 8, ∀ c, mget? (s.die k).dc (intOf lin / 128) = some c → c.borrowed = false
  thawed : s.frozenAt lin = false
  kept : ∀ i < 128, inGap s.gaps (lin / 128 * 128 + i) = false

/-- A local access at place `lin`, under no key, whose request and response have crossed the yard where they had to (R407). -/
structure Acc.here (a : Acc) (s : State) (r : TRef) (lin : Nat) : Prop where
  dev : a.dev = none
  place : linOf a.pa = some lin
  key : a.key = 0
  plain : Plain s lin a.size
  crossed : s.crossed a = true

/-- A place under either of its names is in no cache of a core and its die, and its die cache has room (R267). -/
structure Uncached (s : State) (core pa lin : Nat) : Prop where
  l1 : mget? (s.core core).l1 (pa / 128) = none
  dc : mget? (s.die (dieOf core)).dc (pa / 128) = none ∧ mget? (s.die (dieOf core)).dc (intOf lin / 128) = none
  room : (s.die (dieOf core)).dc.length < 524288

/-- From `s` to `t` the only access in flight, of the warp that `r` names, has completed: results that waited for it pend no more (R44);
`th` acts on the warp's threads; memory, launches, every other warp, the rows, stack cores and the control die are as they were. -/
structure Ended (s t : State) (r : TRef) (wp : Warp) (th : Nat → Thread → Thread) : Prop where
  none_left : t.accs = []
  rest : (t.rows, t.scores, t.ctl, t.launches, t.colls, t.penRels, t.agenda, t.turn, t.clock, t.nextId, t.ticket) =
    (s.rows, s.scores, s.ctl, s.launches, s.colls, s.penRels, s.agenda, s.turn, s.clock, s.nextId, s.ticket)
  warps : ∀ k v, (k, v) ≠ (r.core, r.warp) → t.warp? k v = s.warp? k v
  pends : ∃ wp', t.warp? r.core r.warp = some wp' ∧ wp'.pend = wp.pend.filter fun p => match p.src with
    | .acc _ => false
    | _ => true
  threads : ∀ l, t.thread? ⟨r.core, r.warp, l⟩ = (wp.threads[l]?).map (th l)

/-- A thread after an access of its own has been performed with stamp `n`, in a package whose next access would be `id`: an ACQ or AR
access is an acquire at its reach, and takes over what those that released its location had acquired (R270, R310, R314). -/
def Acc.tells (a : Acc) (pub : Acqs) (n id : Nat) (l : Nat) (th : Thread) : Thread :=
  if l ∈ a.lanes ∧ (a.cls = .acq ∨ a.cls = .ar) then
    { th with hbUpto := if a.reach = 0 then id else th.hbUpto, acqDie := if a.reach = 0 then max th.acqDie pub.1 else n,
              acqPkg := if a.reach ≤ 1 then max th.acqPkg pub.2 else n }
  else th

/-- The registers of a state but for `names` in `lanes`, and `pr` there, are as they were. -/
def State.sameRegs (s t : State) (r : TRef) (names : List RName) (lanes : List Nat) (pr : Nat) : Prop :=
  ∀ m l, l < 128 → (∀ k, m = .p k → k < 8) → ((m ∈ names ∨ m = .p pr ∧ pr ≠ 7) → l ∉ lanes) →
    t.reg r.core r.warp m l = s.reg r.core r.warp m l

/-- The number of `n` bytes of memory from a place, the lowest least significant. -/
def State.numAt (s : State) (lin n : Nat) : Nat := numOf ((List.range n).map fun i => s.byteAt (lin + i))

/-- One of `n` bytes from a place lies in a marked sector (R149). -/
def State.markedAt (s : State) (lin n : Nat) : Prop := ∃ i < n, (lin + i) / 32 ∈ s.marks

/-- Memory is as it was but for the bytes `bs` from a place. -/
def State.stored (s t : State) (lin : Nat) (bs : List Byte) : Prop :=
  ∀ b, t.byteAt b = if lin ≤ b ∧ b < lin + bs.length then bs.getD (b - lin) 0 else s.byteAt b

/-- The bytes of a number of `n` bytes. -/
def bytesAs (n x : Nat) : List Byte := (List.range n).map fun i => BitVec.ofNat 8 (x / 256 ^ i)

/-! ### The package's own events -/

/-- The sync word at a place of memory: TARGET, COUNT, GENERATION, OVERSHOOT and POISON (R215). -/
def State.syncAt (s : State) (lin : Nat) : Nat × Nat × Nat × Bool × Bool :=
  (s.numAt lin 4, s.numAt (lin + 4) 4, s.numAt (lin + 8) 4, (s.numAt (lin + 12) 4).testBit 0, (s.numAt (lin + 12) 4).testBit 1)

/-- `x` units added to a sync word; a poisoned source sets POISON (R216). -/
def syncSum (x : Nat) (bad : Bool) : Nat × Nat × Nat × Bool × Bool → Nat × Nat × Nat × Bool × Bool
  | (target, count, gen, past, pois) =>
    if target = 0 then (0, min (count + x) (2 ^ 32 - 1), gen, past, pois || bad)
    else (target, (count + x) % target, (gen + (count + x) / target) % 2 ^ 32, past || decide (target < count + x), pois || bad)

/-- From `s` to `t` the sync word at a place has received `x` units, and no other byte of memory has changed. -/
def State.gains (s t : State) (lin x : Nat) (bad : Bool) : Prop :=
  t.syncAt lin = syncSum x bad (s.syncAt lin) ∧ ∀ b, ¬(lin ≤ b ∧ b < lin + 16) → t.byteAt b = s.byteAt b

/-- From `s` to `t` the event ring has received a record of a type and a code, for a partition, from a unit; a full ring of 4,096 drops it
and counts it (R454). -/
def State.tells (s t : State) (typ code part kind unit : Nat) : Prop :=
  (s.ctl.events.length < 4096 → ∃ r, t.ctl.events = s.ctl.events ++ [r] ∧ r.w0.toNat / 2 ^ 56 = typ ∧ r.w0.toNat / 2 ^ 48 % 2 ^ 8 = code ∧
    r.w0.toNat / 2 ^ 30 % 2 ^ 6 = part ∧ r.w0.toNat / 2 ^ 27 % 2 ^ 3 = kind ∧ r.w0.toNat / 2 ^ 16 % 2 ^ 11 = unit) ∧
  (4096 ≤ s.ctl.events.length → t.ctl.events = s.ctl.events ∧ t.ctl.drops = s.ctl.drops + 1)

/-- Bales that a deposit of `n` puts into the rack of a core without a reservation, of a cap of 16,384 (R179, R181). -/
def roomFor (rack n : Nat) : Nat := min n (16384 - rack)

end Sys2Proof.Machine
end

