-- ==== Sys2Proof/Certificates/Slice0/Obligations.lean ====
section
/-! DEFINITION. The statements for the provers: what the words of each family do, what the events of the package do, and what every step
keeps. -/

open Sys2Proof Sys2Proof.Machine

/-! ### Integer, logic and movement instructions -/

/-- R121, R112: IADD, ISUB, IMIN, IMAX, IABS and INEG compute element by element, exactly, then wrap, or clamp under .sat; and the
forms with an immediate take imm24 sign-extended as 32-bit elements (R69, R120). -/
def Obligations.IntegerElements : Prop := ∀ (h : Hdr) (d : Dst) (a b : Src) (e : Sys2Proof.Elem) (u sat : Bool) (imm : BitVec 24),
  Computes (.iadd h d a b e u sat) d 1 (fun x l => x.holds a 0 l (Elem.tags e) ∧ x.holds b 0 l (Elem.tags e))
    (fun x l => elementwise e u sat (fun p q => p + q) (x.val a 0 l) (x.val b 0 l)) ∧
  Computes (.isub h d a b e u sat) d 1 (fun x l => x.holds a 0 l (Elem.tags e) ∧ x.holds b 0 l (Elem.tags e))
    (fun x l => elementwise e u sat (fun p q => p - q) (x.val a 0 l) (x.val b 0 l)) ∧
  Computes (.imin h d a b e u) d 1 (fun x l => x.holds a 0 l (Elem.tags e) ∧ x.holds b 0 l (Elem.tags e))
    (fun x l => elementwise e u false min (x.val a 0 l) (x.val b 0 l)) ∧
  Computes (.imax h d a b e u) d 1 (fun x l => x.holds a 0 l (Elem.tags e) ∧ x.holds b 0 l (Elem.tags e))
    (fun x l => elementwise e u false max (x.val a 0 l) (x.val b 0 l)) ∧
  Computes (.iabs h d a e) d 1 (fun x l => x.holds a 0 l (Elem.tags e))
    (fun x l => elementwise e false false (fun p _ => |p|) (x.val a 0 l) 0) ∧
  Computes (.ineg h d a e) d 1 (fun x l => x.holds a 0 l (Elem.tags e))
    (fun x l => elementwise e false false (fun p _ => -p) (x.val a 0 l) 0) ∧
  Computes (.iaddImm h d a imm) d 1 (fun x l => x.int a 0 l) (fun x l rs => rs = [⟨x.val a 0 l + imm.signExtend 32, .i32⟩]) ∧
  Computes (.iminImm h d a imm) d 1 (fun x l => x.int a 0 l)
    (fun x l rs => rs = [⟨BitVec.ofInt 32 (min (x.val a 0 l).toInt imm.toInt), .i32⟩]) ∧
  Computes (.imaxImm h d a imm) d 1 (fun x l => x.int a 0 l)
    (fun x l rs => rs = [⟨BitVec.ofInt 32 (max (x.val a 0 l).toInt imm.toInt), .i32⟩])

/-- R121, R122, R131: products and 64-bit sums. IMUL and IMAD keep the low 32 bits, IMULH bits [63:32] of the 64-bit product, IMADW and
IADD64 a pair, LEA the base plus the shifted offset, which wraps. -/
def Obligations.ProductsAndAddresses : Prop := ∀ (h : Hdr) (d : Dst) (a b c : Src) (u sat : Bool) (sh : Fin 8) (imm : BitVec 24),
  Computes (.imul h d a b) d 1 (fun x l => x.int a 0 l ∧ x.int b 0 l)
    (fun x l rs => rs = [⟨x.val a 0 l * x.val b 0 l, .i32⟩]) ∧
  Computes (.imulImm h d a imm) d 1 (fun x l => x.int a 0 l) (fun x l rs => rs = [⟨x.val a 0 l * imm.signExtend 32, .i32⟩]) ∧
  Computes (.imulh h d a b u) d 1 (fun x l => x.int a 0 l ∧ x.int b 0 l)
    (fun x l rs => rs = [⟨(widened u (x.val a 0 l) * widened u (x.val b 0 l)).extractLsb' 32 32, .i32⟩]) ∧
  Computes (.imad h d a b c) d 1 (fun x l => x.int a 0 l ∧ x.int b 0 l ∧ x.int c 0 l)
    (fun x l rs => rs = [⟨x.val a 0 l * x.val b 0 l + x.val c 0 l, .i32⟩]) ∧
  Computes (.imadw h d a b c u) d 2 (fun x l => x.int a 0 l ∧ x.int b 0 l ∧ x.int c 0 l ∧ x.int c 1 l)
    (fun x l rs => rs = halves (widened u (x.val a 0 l) * widened u (x.val b 0 l) + x.val64 c l) .i32 .i32) ∧
  Computes (.iadd64 h d a b u sat) d 2 (fun x l => x.int a 0 l ∧ x.int a 1 l ∧ x.int b 0 l ∧ x.int b 1 l)
    (fun x l rs => rs = halves (if u then narrowed u sat 64 ((x.val64 a l).toNat + (x.val64 b l).toNat : Int)
      else narrowed u sat 64 ((x.val64 a l).toInt + (x.val64 b l).toInt)) .i32 .i32) ∧
  Computes (.lea h d a b u sh) d 2 (fun x l => x.int a 0 l ∧ x.int a 1 l ∧ x.int b 0 l)
    (fun x l rs => rs = halves (x.val64 a l + (widened u (x.val b 0 l) <<< sh.val)) .i32 .i32)

/-- R123: the bitwise instructions and shifts, with the whole 32-bit count of SHL, SHR and SAR, and their forms with an immediate,
which is zero-extended (R69). Any tag but POISON is accepted; the result is RAW (R112). -/
def Obligations.BitwiseAndShifts : Prop := ∀ (h : Hdr) (d : Dst) (a b : Src) (imm : BitVec 24),
  let two (i : Instr) (f : Word → Word → Word) : Prop := Computes i d 1 (fun x l => x.plain a 0 l ∧ x.plain b 0 l)
    (fun x l rs => rs = [⟨f (x.val a 0 l) (x.val b 0 l), .raw⟩])
  let one (i : Instr) (f : Word → Word → Word) : Prop := Computes i d 1 (fun x l => x.plain a 0 l)
    (fun x l rs => rs = [⟨f (x.val a 0 l) (imm.zeroExtend 32), .raw⟩])
  two (.and h d a b) (fun p q => p &&& q) ∧ one (.andImm h d a imm) (fun p q => p &&& q) ∧
  two (.or h d a b) (fun p q => p ||| q) ∧ one (.orImm h d a imm) (fun p q => p ||| q) ∧
  two (.xor h d a b) (fun p q => p ^^^ q) ∧ one (.xorImm h d a imm) (fun p q => p ^^^ q) ∧
  two (.andn h d a b) (fun p q => p &&& ~~~q) ∧ one (.not h d a) (fun p _ => ~~~p) ∧
  two (.shl h d a b) (fun p q => p <<< q.toNat) ∧ one (.shlImm h d a imm) (fun p q => p <<< q.toNat) ∧
  two (.shr h d a b) (fun p q => p >>> q.toNat) ∧ one (.shrImm h d a imm) (fun p q => p >>> q.toNat) ∧
  two (.sar h d a b) (fun p q => p.sshiftRight q.toNat) ∧ one (.sarImm h d a imm) (fun p q => p.sshiftRight q.toNat) ∧
  two (.rotl h d a b) (fun p q => p.rotateLeft (q.toNat % 32)) ∧ one (.rotlImm h d a imm) (fun p q => p.rotateLeft (q.toNat % 32))

/-- R123, R124: bit fields and counts, bit by bit. -/
def Obligations.BitFieldsAndCounts : Prop := ∀ (h : Hdr) (d : Dst) (a b c : Src) (signed : Bool) (imm : BitVec 24),
  let extract (signed : Bool) (p q : Word) (rs : List Reg) : Prop := ∃ v, rs = [⟨v, .raw⟩] ∧ ∀ i < 32, v.getLsbD i =
    (if i < min (q.extractLsb' 8 6).toNat 32 then p.getLsbD ((q.extractLsb' 0 6).toNat + i)
     else signed && decide ((q.extractLsb' 8 6).toNat ≠ 0) &&
       p.getLsbD ((q.extractLsb' 0 6).toNat + min (q.extractLsb' 8 6).toNat 32 - 1))
  Computes (.bfx h d a b signed) d 1 (fun x l => x.plain a 0 l ∧ x.plain b 0 l)
    (fun x l => extract signed (x.val a 0 l) (x.val b 0 l)) ∧
  Computes (.bfxImm h d a imm) d 1 (fun x l => x.plain a 0 l) (fun x l => extract false (x.val a 0 l) (imm.zeroExtend 32)) ∧
  Computes (.bfi h d a b c) d 1 (fun x l => x.plain a 0 l ∧ x.plain b 0 l ∧ x.plain c 0 l)
    (fun x l rs => ∃ v, rs = [⟨v, .raw⟩] ∧ ∀ i < 32, v.getLsbD i =
      (if ((x.val b 0 l).extractLsb' 0 6).toNat ≤ i ∧
          i < ((x.val b 0 l).extractLsb' 0 6).toNat + min ((x.val b 0 l).extractLsb' 8 6).toNat 32
        then (x.val a 0 l).getLsbD (i - ((x.val b 0 l).extractLsb' 0 6).toNat) else (x.val c 0 l).getLsbD i)) ∧
  Computes (.popc h d a) d 1 (fun x l => x.plain a 0 l)
    (fun x l rs => rs = [⟨BitVec.ofNat 32 ((List.range 32).countP fun i => (x.val a 0 l).getLsbD i), .i32⟩]) ∧
  Computes (.clz h d a) d 1 (fun x l => x.plain a 0 l)
    (fun x l rs => ∃ n, n ≤ 32 ∧ rs = [⟨BitVec.ofNat 32 n, .i32⟩] ∧ (∀ i < n, (x.val a 0 l).getMsbD i = false) ∧
      (n < 32 → (x.val a 0 l).getMsbD n = true)) ∧
  Computes (.brev h d a) d 1 (fun x l => x.plain a 0 l) (fun x l rs => rs = [⟨(x.val a 0 l).reverse, .raw⟩])

/-- R125, R127, R129, R130: MOV, SEL, SHFL and BCAST copy values with their tags, POISON too; MOVI and MOVHI write an integer. The
cross-lane ones read the lane that the rule gives, whatever its guard. -/
def Obligations.Movement : Prop := ∀ (h : Hdr) (d : Dst) (a b : Src) (p : Pred) (neg : Bool) (w : MovW) (imm : BitVec 24) (seg : Fin 8)
    (m : ShflMode),
  let reg (x : Iss) (a : Src) (k l : Nat) : Reg := ⟨x.val a k l, (x.src a k l).tag⟩
  Computes (.mov h d a w) d (movRegs w) (fun _ _ => True) (fun x l rs => ∀ k < movRegs w, rs[k]? = some (reg x a k l)) ∧
  Computes (.sel h d a b p neg) d 1 (fun _ _ => True)
    (fun x l rs => rs = [if x.pred p l = !neg then reg x a 0 l else reg x b 0 l]) ∧
  Computes (.movi h d imm) d 1 (fun _ _ => True) (fun _ _ rs => rs = [⟨imm.signExtend 32, .i32⟩]) ∧
  Computes (.movhi h d a imm) d 1 (fun x l => x.int a 0 l)
    (fun x l rs => rs = [⟨imm ++ (x.val a 0 l).extractLsb' 0 8, .i32⟩]) ∧
  Computes (.bcast h d a b) d 1 (fun _ _ => True) (fun x l rs => rs = [reg x a 0 ((x.val b 0 l).toNat % x.w.width)]) ∧
  Computes (.shfl h d a b seg m) d 1 (fun _ _ => True) (fun x l rs =>
    let sz := if seg.val = 0 then x.w.width else min x.w.width (2 ^ seg.val)
    let sb := l / sz * sz
    let n := (x.val b 0 l).toNat
    rs = [reg x a 0 (match m with
      | .idx => sb + n % sz
      | .up => if n ≤ l - sb then l - n else l
      | .down => if l + n < sb + sz then l + n else l
      | .xor => sb + ((l - sb) ^^^ (n % sz)))])

/-- R126, R36, R52: ICMP and the predicate instructions write a predicate in each guard-true thread. R128: VOTE over the guard-true
threads: a ballot in W/32 registers, or one register for any, all and eq. -/
def Obligations.PredicatesAndVotes : Prop :=
  (∀ (h : Hdr) (pd p q : Pred) (a b : Src) (u : Bool) (c : Sys2Proof.ICond),
  Decides (.icmp h pd a b u c) pd (fun x l => x.int a 0 l ∧ x.int b 0 l) (fun x l =>
    let m := x.val a 0 l
    let n := x.val b 0 l
    match c with
    | .eq => m == n
    | .ne => m != n
    | .lt => if u then m.ult n else m.slt n
    | .le => if u then m.ule n else m.sle n
    | .gt => if u then n.ult m else n.slt m
    | .ge => if u then n.ule m else n.sle m) ∧
  Decides (.pand h pd p q) pd (fun _ _ => True) (fun x l => x.pred p l && x.pred q l) ∧
  Decides (.por h pd p q) pd (fun _ _ => True) (fun x l => x.pred p l || x.pred q l) ∧
  Decides (.pxor h pd p q) pd (fun _ _ => True) (fun x l => x.pred p l != x.pred q l) ∧
  Decides (.pnot h pd p) pd (fun _ _ => True) (fun x l => !x.pred p l)) ∧
  (∀ (h : Hdr) (d : Dst) (p : Pred) (m : VoteMode) (s : State) (c w : Nat) (wp : Warp) (pc : Nat),
  Issues s (.vote h d p m) h c w wp pc →
  let x := Iss.of s c w wp pc h
  ∃ t val, exec (.vote h d p m) s = .next t ∧
    Lands s t x (x.puts (dstNames d (if m = .ballot then wp.width / 32 else 1)) (fun _ => val) fun _ => none) [] ∧
    val.length = (if m = .ballot then wp.width / 32 else 1) ∧ (∀ r ∈ val, r.tag = .i32) ∧
    match m with
    | .ballot => ∀ k i v, i < 32 → val[k]? = some v → v.val.getLsbD i = (decide (32 * k + i ∈ x.act) && x.pred p (32 * k + i))
    | .any => val.map Reg.val = [if ∃ l ∈ x.act, x.pred p l = true then 1 else 0]
    | .all => val.map Reg.val = [if ∀ l ∈ x.act, x.pred p l = true then 1 else 0]
    | .eq => val.map Reg.val = [if ∀ l ∈ x.act, ∀ k ∈ x.act, x.pred p l = x.pred p k then 1 else 0])

/-! ### Floating point -/

/-- R156, R157, R161: a sum, a product or a fused product and sum is computed exactly, clamped to [+0, 1] under .sat, and rounded
once in the selected mode; FI FADD and FMUL take imm24 << 8 as FP32 bits and round to nearest (R69). -/
def Obligations.FloatArithmetic : Prop := ∀ (h : Hdr) (d : Dst) (a b c : Src) (r : Rnd) (ftz sat : Bool) (imm : BitVec 24),
  let to32 (v : FVal) (rs : List Reg) : Prop := rs = [⟨BitVec.ofNat 32 (FFmt.round .f32 r ftz v), .fp32⟩]
  let near (v : FVal) (rs : List Reg) : Prop := rs = [⟨BitVec.ofNat 32 (FFmt.round .f32 .rn false v), .fp32⟩]
  let to64 (v : FVal) (rs : List Reg) : Prop := rs = halves (BitVec.ofNat 64 (FFmt.round .f64 r ftz v)) .fp64l .fp64h
  let f (x : Iss) (a : Src) (l : Nat) : Prop := x.holds a 0 l [.fp32]
  let k : FVal := FFmt.decode .f32 (imm ++ (0 : BitVec 8)).toNat
  Computes (.fadd h d a b r ftz sat) d 1 (fun x l => f x a l ∧ f x b l)
    (fun x l => to32 (satIf sat ((x.f32 a ftz l).add (r == .rd) (x.f32 b ftz l)))) ∧
  Computes (.fsub h d a b r ftz sat) d 1 (fun x l => f x a l ∧ f x b l)
    (fun x l => to32 (satIf sat ((x.f32 a ftz l).add (r == .rd) (x.f32 b ftz l).neg))) ∧
  Computes (.fmul h d a b r ftz sat) d 1 (fun x l => f x a l ∧ f x b l)
    (fun x l => to32 (satIf sat ((x.f32 a ftz l).mul (x.f32 b ftz l)))) ∧
  Computes (.ffma h d a b c r ftz) d 1 (fun x l => f x a l ∧ f x b l ∧ f x c l)
    (fun x l => to32 (((x.f32 a ftz l).mul (x.f32 b ftz l)).add (r == .rd) (x.f32 c ftz l))) ∧
  Computes (.faddImm h d a imm) d 1 (fun x l => f x a l) (fun x l => near ((x.f32 a false l).add false k)) ∧
  Computes (.fmulImm h d a imm) d 1 (fun x l => f x a l) (fun x l => near ((x.f32 a false l).mul k)) ∧
  Computes (.dadd h d a b r ftz) d 2 (fun x l => x.dbl a l ∧ x.dbl b l)
    (fun x l => to64 ((x.f64 a ftz l).add (r == .rd) (x.f64 b ftz l))) ∧
  Computes (.dmul h d a b r ftz) d 2 (fun x l => x.dbl a l ∧ x.dbl b l)
    (fun x l => to64 ((x.f64 a ftz l).mul (x.f64 b ftz l))) ∧
  Computes (.dfma h d a b c r ftz) d 2 (fun x l => x.dbl a l ∧ x.dbl b l ∧ x.dbl c l)
    (fun x l => to64 (((x.f64 a ftz l).mul (x.f64 b ftz l)).add (r == .rd) (x.f64 c ftz l)))

/-- R154, R160: HADD2, HMUL2 and HFMA2 compute both elements in the format that their sources fix, FP16 or BF16, each rounded once:
the tag that every register source carries, or, with constants alone, that of the first packed one, FP16 if there is none. A constant
supplies its bits as elements of that format. -/
def Obligations.PackedHalves : Prop := ∀ (h : Hdr) (d : Dst) (a b c : Src) (r : Rnd) (ftz sat : Bool) (f : FFmt) (t : Tag),
  (f = .f16 ∧ t = .fp16x2) ∨ (f = .bf16 ∧ t = .bf16x2) →
  let both (v : Nat → FVal) (rs : List Reg) : Prop := ∃ w, rs = [⟨w, t⟩] ∧
    ∀ i < 2, (w.extractLsb' (16 * i) 16).toNat = f.round r ftz (v i)
  let fixes (os : List Opd) : Prop :=
    ((∃ o ∈ os, o.konst = false) ∧ ∀ o ∈ os, o.konst = false → o.tag = t) ∨
    ((∀ o ∈ os, o.konst = true) ∧ ((os.map fun o => o.tag).filter fun g => g == .fp16x2 || g == .bf16x2).head?.getD .fp16x2 = t)
  Computes (.hadd2 h d a b r ftz sat) d 1 (fun x l => fixes [x.src a 0 l, x.src b 0 l])
    (fun x l => both fun i => satIf sat ((x.f16 a f ftz i l).add (r == .rd) (x.f16 b f ftz i l))) ∧
  Computes (.hmul2 h d a b r ftz sat) d 1 (fun x l => fixes [x.src a 0 l, x.src b 0 l])
    (fun x l => both fun i => satIf sat ((x.f16 a f ftz i l).mul (x.f16 b f ftz i l))) ∧
  Computes (.hfma2 h d a b c r ftz) d 1 (fun x l => fixes [x.src a 0 l, x.src b 0 l, x.src c 0 l])
    (fun x l => both fun i => ((x.f16 a f ftz i l).mul (x.f16 b f ftz i l)).add (r == .rd) (x.f16 c f ftz i l))

/-- R156: the sums and products that are rounded are exact: on finite values they are those of the rational numbers; and a compare of
finite values is theirs (R159). R141: rounding leaves every value that the format has: the value of each finite code, but for a zero in
E2M1, rounds to that code in every mode. R141: a finite value no larger than the format's largest rounds to a code whose value lies
within one unit of its place, on the side that the mode names, and within half a unit to nearest. -/
def Obligations.RoundedArithmeticIsExact : Prop :=
  (∀ (v w : FVal) (p q : ℚ) (rd : Bool), v.toRat = some p → w.toRat = some q →
  (v.add rd w).toRat = some (p + q) ∧ (v.mul w).toRat = some (p * q) ∧ v.neg.toRat = some (-p) ∧
  (v.cmp w = if p < q then -1 else if p = q then 0 else 1)) ∧
  (∀ (f : FFmt) (r : Rnd) (code : Nat) (q : ℚ), code < 2 ^ f.bits →
  (f.decode code).toRat = some q → (f = .e2m1 → q ≠ 0) → f.round r false (f.decode code) = code) ∧
  (∀ (f : FFmt) (r : Rnd) (s : Bool) (m : Nat) (e : Int) (p b : ℚ), 0 < m →
  (FVal.fin s m e).toRat = some p → (f.decode f.maxCode).toRat = some b → |p| ≤ b →
  ∃ q, (f.decode (f.round r false (.fin s m e))).toRat = some q ∧ |q - p| < (2 : ℚ) ^ f.unitOf m e ∧
    match r with
    | .rn => 2 * |q - p| ≤ (2 : ℚ) ^ f.unitOf m e
    | .rz => |q| ≤ |p|
    | .ru => p ≤ q
    | .rd => q ≤ p)

/-- R158, R144: FMIN and FMAX take minimumNumber and maximumNumber of each element. R159: FCMP decides each condition; one with a NaN is
false, but .ne and .nan. -/
def Obligations.FloatOrder : Prop :=
  (∀ (h : Hdr) (d : Dst) (a b : Src) (f : VFmt) (ftz : Bool),
  let ok (x : Iss) (a : Src) (l : Nat) : Prop := if f = .f64 then x.dbl a l else x.holds a 0 l [vfmtTag f]
  let res (mx : Bool) (x : Iss) (l : Nat) (rs : List Reg) : Prop :=
    if f = .f64 then rs = halves (BitVec.ofNat 64 (minMaxCode .f64 mx ftz (x.val64 a l).toNat (x.val64 b l).toNat)) .fp64l .fp64h
    else ∃ w, rs = [⟨w, vfmtTag f⟩] ∧ ∀ i < 32 / (vfmt f).bits, (w.extractLsb' ((vfmt f).bits * i) (vfmt f).bits).toNat =
      minMaxCode (vfmt f) mx ftz ((x.val a 0 l).extractLsb' ((vfmt f).bits * i) (vfmt f).bits).toNat
        ((x.val b 0 l).extractLsb' ((vfmt f).bits * i) (vfmt f).bits).toNat
  Computes (.fmin h d a b f ftz) d (if f = .f64 then 2 else 1) (fun x l => ok x a l ∧ ok x b l) (res false) ∧
  Computes (.fmax h d a b f ftz) d (if f = .f64 then 2 else 1) (fun x l => ok x a l ∧ ok x b l) (res true)) ∧
  (∀ (h : Hdr) (pd : Pred) (a b : Src) (f64 : Bool) (c : FCond) (ftz : Bool),
  Decides (.fcmp h pd a b f64 c ftz) pd
    (fun x l => if f64 then x.dbl a l ∧ x.dbl b l else x.holds a 0 l [.fp32] ∧ x.holds b 0 l [.fp32])
    fun x l =>
      let v (a : Src) : FVal := if f64 then x.f64 a ftz l else x.f32 a ftz l
      let k := (v a).cmp (v b)
      if (v a).isNan || (v b).isNan then (c == .ne || c == .nan)
      else match c with
        | .eq => k == 0
        | .ne => k != 0
        | .lt => decide (k < 0)
        | .le => decide (k ≤ 0)
        | .gt => decide (0 < k)
        | .ge => decide (0 ≤ k)
        | .num => true
        | .nan => false)

/-- R163: FRCP, FRSQ, FSQRT, FEXP2, FLOG2, FSIN and FCOS write one FP32 register for any FP32 source, and give the table's result
for zeros, infinities, NaNs and, where it says so, negative values. -/
def Obligations.FunctionsOfSpecialSources : Prop := ∀ (h : Hdr) (d : Dst) (a : Src) (r : Rnd) (ftz : Bool),
  let inf : Nat := 0x7F800000
  let nan : Nat := 0x7FC00000
  let one : Nat := 0x3F800000
  let neg : Nat := 0x80000000
  -- results for +0, −0, +∞, −∞, NaN, and for a negative value where the table fixes it
  let table (row : Nat × Nat × Nat × Nat × Nat × Option Nat) (x : Iss) (l : Nat) (rs : List Reg) : Prop :=
    ∃ v, rs = [⟨BitVec.ofNat 32 v, .fp32⟩] ∧
      match x.f32 a ftz l with
      | .nan => v = row.2.2.2.2.1
      | .inf s => v = if s then row.2.2.2.1 else row.2.2.1
      | .fin s m _ => if m = 0 then v = (if s then row.2.1 else row.1) else s = true → ∀ k, row.2.2.2.2.2 = some k → v = k
  let ok (x : Iss) (l : Nat) : Prop := x.holds a 0 l [.fp32]
  Computes (.frcp h d a r ftz) d 1 ok (table (inf, neg + inf, 0, neg, nan, none)) ∧
  Computes (.frsq h d a ftz) d 1 ok (table (inf, neg + inf, 0, nan, nan, some nan)) ∧
  Computes (.fsqrt h d a r ftz) d 1 ok (table (0, neg, inf, nan, nan, some nan)) ∧
  Computes (.fexp2 h d a ftz) d 1 ok (table (one, one, inf, 0, nan, none)) ∧
  Computes (.flog2 h d a ftz) d 1 ok (table (neg + inf, neg + inf, inf, nan, nan, some nan)) ∧
  Computes (.fsin h d a ftz) d 1 ok (table (0, neg, nan, nan, nan, none)) ∧
  Computes (.fcos h d a ftz) d 1 ok (table (one, one, nan, nan, nan, none))

/-- R165, R166: CVT converts max(n_s, n_d) elements, each decoded from its place in the source group and written to its place in the
destination group. R145, R167, R66: CVTS takes the generator one step for each element of each guard-true thread, from the $seed that
the thread reads, and leaves the seed of every other thread. -/
def Obligations.Conversions : Prop :=
  (∀ (h : Hdr) (d : Dst) (a : Src) (df sf : CFmt) (u : Bool) (r : Rnd) (ftz sat : Bool),
  df ≠ .e8m0x4 →
  Computes (.cvt h d a df sf u r ftz sat) d (cvtUnits df sf df * df.regs)
    (fun x l => ∀ i < cvtUnits df sf sf * sf.regs,
      x.holds a i l ((cfmtTags sf).getD (i % sf.regs) .raw :: (if cfmtInt sf then [.raw] else [])))
    fun x l rs =>
      (∀ i (hi : i < rs.length), rs[i].tag = (cfmtTags df).getD (i % df.regs) .raw) ∧
      ∀ j < cvtCount df sf,
        let word (g : Nat → Word) (f : CFmt) : Nat := if f.regs = 2 then (g (2 * (j / f.n)) ).toNat + 2 ^ 32 * (g (2 * (j / f.n) + 1)).toNat
          else (g (j / f.n)).toNat
        let code := word (fun i => x.val a i l) sf / 2 ^ (cfmtBits sf * (j % sf.n)) % 2 ^ cfmtBits sf
        word (fun i => (rs.getD i .zero).val) df / 2 ^ (cfmtBits df * (j % df.n)) % 2 ^ cfmtBits df =
          cvtElem df u r ftz sat none (cfmtRead sf u ftz code)) ∧
  (∀ (s : State) (h : Hdr) (c w : Nat) (wp : Warp) (pc : Nat) (d : Dst) (a : Src)
    (df sf : CFmt) (u ftz sat : Bool),
  Issues s (.cvts h d a df sf u ftz sat) h c w wp pc →
  let x := Iss.of s c w wp pc h
  (∀ l ∈ x.act, ∀ i < cvtUnits df sf sf * sf.regs,
    x.holds a i l ((cfmtTags sf).getD (i % sf.regs) .raw :: (if cfmtInt sf then [.raw] else []))) →
  let seed (l : Nat) : Nat := (x.w.read x.ticket x.now .seed l).val.toNat
  let val (l : Nat) : List Reg := cvtPack df sf (((cvtSource x a df sf u ftz l).zip (seedRun (cvtCount df sf) (seed l))).map fun p =>
    cvtElem df u .rn ftz sat (some (p.2 / 2 ^ 16)) p.1)
  ∃ t wp', exec (.cvts h d a df sf u ftz sat) s = .next t ∧ t.warp? c w = some wp' ∧ Elsewhere s t c w ∧
    (∀ n l, n ≠ .seed → l < 128 → (∀ k, n = .p k → k < 8) →
      t.reg c w n l = (x.puts (dstNames d (cvtUnits df sf df * df.regs)) val (fun _ => none) n l).getD (s.reg c w n l)) ∧
    ∀ l, (wp'.thread? l).map (fun t => t.seed) = (wp.thread? l).map fun t =>
      if l ∈ x.act then BitVec.ofNat 32 (seedStep^[cvtCount df sf] (seed l)) else t.seed)

/-- R168 to R171: PACK joins halves and keeps a tag that both sources share, UNPACK takes a half with the tag, RETAG names a tag but
never removes POISON, SCALE multiplies each element by a power of two and rounds once. -/
def Obligations.PackingAndScaling : Prop := ∀ (h : Hdr) (d : Dst) (a b : Src) (m : PackMode) (n : UnpackMode) (t : Tag) (k : ScaleMode)
    (f : VFmt) (r : Rnd) (ftz : Bool),
  let lo (v : Word) : BitVec 16 := v.extractLsb' 0 16
  let hi (v : Word) : BitVec 16 := v.extractLsb' 16 16
  Computes (.pack h d a b m) d 1 (fun x l => (x.src a 0 l).tag ≠ .poison ∧ (x.src b 0 l).tag ≠ .poison)
    (fun x l rs => rs = [⟨match m with
      | .lo => lo (x.val b 0 l) ++ lo (x.val a 0 l)
      | .hi => hi (x.val b 0 l) ++ hi (x.val a 0 l)
      | .lohi => hi (x.val b 0 l) ++ lo (x.val a 0 l),
      if (x.src a 0 l).tag = (x.src b 0 l).tag ∧ (x.src a 0 l).tag ∈
        [.fp16x2, .bf16x2, .i16x2, .e4m3x4, .e5m2x4, .e8m0x4, .i8x4, .e2m1x8] then (x.src a 0 l).tag else .raw⟩]) ∧
  Computes (.unpack h d a n) d 1 (fun _ _ => True)
    (fun x l rs => rs = [⟨match n with
      | .lo => (0 : BitVec 16) ++ lo (x.val a 0 l)
      | .hi => (0 : BitVec 16) ++ hi (x.val a 0 l)
      | .swap => lo (x.val a 0 l) ++ hi (x.val a 0 l), (x.src a 0 l).tag⟩]) ∧
  Computes (.retag h d a t) d 1 (fun _ _ => True)
    (fun x l rs => rs = [⟨x.val a 0 l, if (x.src a 0 l).tag = .poison then .poison else t⟩]) ∧
  Computes (.scale h d a b k f r ftz) d (if f = .f64 then 2 else 1)
    (fun x l => (if f = .f64 then x.dbl a l else x.holds a 0 l [vfmtTag f]) ∧ (if k = .i then x.int b 0 l else x.holds b 0 l [.e8m0x4]))
    (fun x l rs =>
      if f = .f64 then rs = halves (BitVec.ofNat 64 (scaleCode .f64 r ftz (scaleExp k (x.val b 0 l)) (x.val64 a l).toNat)) .fp64l .fp64h
      else ∃ w, rs = [⟨w, vfmtTag f⟩] ∧ ∀ i < 32 / (vfmt f).bits, (w.extractLsb' ((vfmt f).bits * i) (vfmt f).bits).toNat =
        scaleCode (vfmt f) r ftz (scaleExp k (x.val b 0 l)) ((x.val a 0 l).extractLsb' ((vfmt f).bits * i) (vfmt f).bits).toNat)

/-- R172 to R175: BLKSCALE and QUANT give every guard-true lane of a block of 32 what its block decides. R173: the scale of BLKSCALE is
E8M0's NaN when an element is not finite, one when all are zero, and otherwise it puts the largest magnitude below 2^(t + 1), as far as
the scale's range allows. -/
def Obligations.BlockFormats : Prop :=
  (∀ (h : Hdr) (d : Dst) (a b : Src) (t : BlkTarget) (isMeta : Bool),
  Computes (.blkscale h d a t) d 1 (fun x l => x.holds a 0 l [.fp32])
    (fun x l rs => ∃ c : BitVec 8, rs = [⟨c ++ c ++ c ++ c, .e8m0x4⟩] ∧ c.toNat = blkScale t (x.block a l)) ∧
  Computes (.quant h d a b isMeta) d 1 (fun x l => x.holds a 0 l [.fp32] ∧ x.int b 0 l)
    (fun x l rs =>
      let c := quantBlock ((x.val b 0 l).getLsbD 0) (x.block a l)
      if isMeta then rs = [⟨BitVec.ofNat 32 (c.1 + 2 ^ 8 * c.2.1), .raw⟩]
      else ∃ w, rs = [⟨w, .e2m1x8⟩] ∧ ∀ j < 8, (w.extractLsb' (4 * j) 4).toNat = c.2.2.getD (8 * (l % 4) + j) 0)) ∧
  (∀ (t : BlkTarget) (codes : List Nat),
  ((∃ c ∈ codes, (FFmt.decode .f32 c).toRat = none) → blkScale t codes = 0xFF) ∧
  ((∀ c ∈ codes, (FFmt.decode .f32 c).toRat = some 0) → blkScale t codes = 0x7F) ∧
  ((∀ c ∈ codes, (FFmt.decode .f32 c).toRat ≠ none) → blkScale t codes < 254 → ∀ c ∈ codes, ∀ q, (FFmt.decode .f32 c).toRat = some q →
    |q| < (2 : ℚ) ^ ((blkScale t codes : Int) - 127 + (match t with | .e4m3 => 8 | .e5m2 => 15 | .e2m1 => 2) + 1)))

/-- R53, R55, R72: both halves of a paired word read their operands before either writes; where no thread faults and no source is
POISON, each writes its own destination. R72: what the halves compute, in the terms of the instructions that they equal. -/
def Obligations.PairedWords : Prop :=
  (∀ (s : State) (h : PHdr) (hd : Hdr) (c w : Nat) (wp : Warp) (pc : Nat) (p q : Half),
  Issues s (.pairedWord h p q) hd c w wp pc → p.dst ≠ q.dst ∨ p.dst = none →
  let x := Iss.of s c w wp pc hd
  (∀ l ∈ x.act, ∀ k, k = p ∨ k = q → (halfLane x k l).fault = none ∧ (halfLane x k l).pois = false) →
  ∃ t, exec (.pairedWord h p q) s = .next t ∧ Lands s t x (fun n l => match n with
    | .v i => if l ∈ x.act then
        (if q.dst = some i then (halfLane x q l).regs.head?
         else if p.dst = some i then (halfLane x p l).regs.head? else none) else none
    | _ => none) []) ∧
  (∀ (x : Iss) (l : Nat) (d s : Fin 256) (k : BitVec 6) (n : Fin 32) (r : Rnd) (ftz : Bool) (t : Tag),
  let a := vsrc d
  let b := vsrc s
  let gives (hf : Half) (v : Word) (t : Tag) : Prop := halfLane x hf l = LaneRes.of [⟨v, t⟩]
  let f32 (v : FVal) : Word := BitVec.ofNat 32 (FFmt.round .f32 r ftz v)
  halfLane x .nop l = LaneRes.nothing ∧
  gives (.mov d s) (x.val b 0 l) (x.src b 0 l).tag ∧ gives (.movi d k) (k.signExtend 32) .i32 ∧
  gives (.retag d s t) (x.val b 0 l) (if (x.src b 0 l).tag = .poison then .poison else t) ∧
  (x.int b 0 l → gives (.ineg d s) (-x.val b 0 l) .i32) ∧
  (x.int a 0 l → x.int b 0 l →
    gives (.iadd d s) (x.val a 0 l + x.val b 0 l) .i32 ∧ gives (.isub d s) (x.val a 0 l - x.val b 0 l) .i32 ∧
    gives (.imin d s) (if (x.val b 0 l).slt (x.val a 0 l) then x.val b 0 l else x.val a 0 l) .i32 ∧
    gives (.imax d s) (if (x.val a 0 l).slt (x.val b 0 l) then x.val b 0 l else x.val a 0 l) .i32) ∧
  (x.plain b 0 l → gives (.not d s) (~~~x.val b 0 l) .raw ∧ gives (.shl d s n) (x.val b 0 l <<< n.val) .raw ∧
    gives (.shr d s n) (x.val b 0 l >>> n.val) .raw ∧ gives (.sar d s n) ((x.val b 0 l).sshiftRight n.val) .raw) ∧
  (x.plain a 0 l → x.plain b 0 l →
    gives (.and d s) (x.val a 0 l &&& x.val b 0 l) .raw ∧ gives (.or d s) (x.val a 0 l ||| x.val b 0 l) .raw ∧
    gives (.xor d s) (x.val a 0 l ^^^ x.val b 0 l) .raw) ∧
  (x.holds a 0 l [.fp32] → x.holds b 0 l [.fp32] →
    gives (.fadd d s r ftz) (f32 ((x.f32 a ftz l).add (r == .rd) (x.f32 b ftz l))) .fp32 ∧
    gives (.fmul d s r ftz) (f32 ((x.f32 a ftz l).mul (x.f32 b ftz l))) .fp32 ∧
    gives (.fmin d s) (BitVec.ofNat 32 (minMaxCode .f32 false false (x.val a 0 l).toNat (x.val b 0 l).toNat)) .fp32 ∧
    gives (.fmax d s) (BitVec.ofNat 32 (minMaxCode .f32 true false (x.val a 0 l).toNat (x.val b 0 l).toNat)) .fp32))

/-! ### Threads: transfers, traps and special registers -/

/-- R96, R97, R98: a transfer of a guard-true thread whose target passes the checks writes the return pair, I32 in both halves, and goes
to its target; BRA and CALL count words from their own (R30). R439, R442, R443, R96, R73: what TRAP and BRKPT raise, ERET at U level, a
transfer to a target that is out of range or not a word's address, and one through a pair of a wrong tag. -/
def Obligations.ControlTransfer : Prop :=
  (∀ (h : Hdr) (d : Dst) (a : Src) (imm : BitVec 24),
  let moves (i : Instr) (link : Dst) (ok : Iss → Nat → Prop) (target : Iss → Nat → Dword) : Prop :=
    ∀ (s : State) (h : Hdr) (c w : Nat) (wp : Warp) (pc : Nat), Issues s i h c w wp pc →
      let x := Iss.of s c w wp pc h
      (∀ l ∈ x.act, ok x l ∧ (target x l).extractLsb' 55 9 = 0 ∧ (target x l).extractLsb' 0 3 = 0) →
      ∃ t, exec i s = .next t ∧
        Moves s t x (x.puts (dstNames link 2) (fun _ => halves (BitVec.ofNat 64 (pc + 8)) .i32 .i32) fun _ => none) []
          fun l t => if l ∈ x.act then { t with pc := (target x l).toNat } else t
  let rel (x : Iss) (_ : Nat) : Dword := BitVec.ofNat 64 x.pc + imm.signExtend 64 * 8
  let pair (x : Iss) (l : Nat) : Prop := x.int a 0 l ∧ x.int a 1 l
  moves (.bra h imm) .discard (fun _ _ => True) rel ∧ moves (.call h d imm) d (fun _ _ => True) rel ∧
  moves (.brx h a) .discard pair (fun x l => x.val64 a l) ∧ moves (.ret h a) .discard pair (fun x l => x.val64 a l) ∧
  moves (.callx h d a) d pair (fun x l => x.val64 a l)) ∧
  (∀ (h : Hdr) (d : Dst) (a : Src) (imm : BitVec 14) (off : BitVec 24) (next : Bool),
  let far (v : Dword) : Prop := v.extractLsb' 55 9 ≠ 0
  let odd (v : Dword) : Prop := v.extractLsb' 55 9 = 0 ∧ v.extractLsb' 0 3 ≠ 0
  let int (x : Iss) (_ : State) (l : Nat) : Prop := x.int a 0 l ∧ x.int a 1 l
  let tag (x : Iss) (_ : State) (l : Nat) : Prop := x.plain a 0 l ∧ x.plain a 1 l ∧ ¬(x.int a 0 l ∧ x.int a 1 l)
  let rel (x : Iss) : Dword := BitVec.ofNat 64 x.pc + off.signExtend 64 * 8
  Traps (.trap h imm) 0x0E (fun _ _ => imm.zeroExtend 16) (fun _ _ _ => True) ∧
  Traps (.brkpt h) 0x0F (fun _ _ => 0) (fun _ _ _ => True) ∧
  Traps (.eret h next) 0x02 (fun _ _ => 0) (fun _ _ _ => True) ∧
  Traps (.bra h off) 0x05 (fun _ _ => 0) (fun x _ _ => far (rel x)) ∧
  Traps (.call h d off) 0x05 (fun _ _ => 0) (fun x _ _ => far (rel x)) ∧
  (∀ i ∈ [Instr.brx h a, .callx h d a, .ret h a],
    Traps i 0x05 (fun _ _ => 0) (fun x s l => int x s l ∧ far (x.val64 a l)) ∧
    Traps i 0x04 (fun _ _ => 0) (fun x s l => int x s l ∧ odd (x.val64 a l)) ∧
    Traps i 0x03 (fun _ _ => BitVec.ofNat 16 a.field) tag))

/-- R113, R148, R437: in an issue of IMAD whose threads differ, a thread with a POISON source takes POISON and counts once, a thread
with another tag than an integer's takes E_TAG with the field of its first such source and writes nothing, and the rest compute. R113,
R148: where each guard-true thread has a register source tagged POISON, an instruction that computes writes POISON to each of its
destination registers, and each thread counts once; a compare is false. -/
def Obligations.PoisonAndTagFaults : Prop :=
  (∀ (s : State) (h : Hdr) (c w : Nat) (wp : Warp) (pc : Nat) (r : Fin 640) (a b e : Src),
  Issues s (.imad h (.v r) a b e) h c w wp pc →
  let x := Iss.of s c w wp pc h
  let ok (l : Nat) : Prop := x.plain a 0 l ∧ x.plain b 0 l ∧ x.plain e 0 l
  let good (l : Nat) : Prop := x.int a 0 l ∧ x.int b 0 l ∧ x.int e 0 l
  (∀ l ∈ x.act, ok l → ¬good l → x.caught s l) →
  ∃ t u, exec (.imad h (.v r) a b e) s = .next t ∧
    (∃ n, u = s.poison c n ∧ ∃ ls : List Nat, ls.length = n ∧ ls.Nodup ∧ ∀ l, l ∈ ls ↔ l ∈ x.act ∧ ¬ok l) ∧
    ∃ put : RName → Nat → Option Reg, Moves u t x put []
      (fun l t => if l ∈ x.act ∧ (x.plain a 0 l ∧ x.plain b 0 l ∧ x.plain e 0 l) ∧ ¬(x.int a 0 l ∧ x.int b 0 l ∧ x.int e 0 l) then
        x.handled s 0x03 (BitVec.ofNat 16 (if ¬x.int a 0 l then a.field else if ¬x.int b 0 l then b.field else e.field)) t else t) ∧
    ∀ n l, match put n l with
      | some q => n = .v r.val ∧ l ∈ x.act ∧ (ok l → good l ∧ q = ⟨x.val a 0 l * x.val b 0 l + x.val e 0 l, .i32⟩) ∧ (¬ok l → q.tag = .poison)
      | none => n ≠ .v r.val ∨ l ∉ x.act ∨ (ok l ∧ ¬good l)) ∧
  (∀ (h : Hdr) (d : Dst) (pd : Pred) (a b e : Src) (el : Sys2Proof.Elem) (r : Rnd) (u sat ftz : Bool)
    (imm : BitVec 24) (f : VFmt) (fc : FCond) (ic : Sys2Proof.ICond),
  let bad (os : List (Src × Nat)) (x : Iss) (l : Nat) : Prop := ∃ o ∈ os, (x.src o.1 o.2 l).konst = false ∧ (x.src o.1 o.2 l).tag = .poison
  let spreads (i : Instr) (n : Nat) (os : List (Src × Nat)) : Prop :=
    ∀ (s : State) (h : Hdr) (c w : Nat) (wp : Warp) (pc : Nat), Issues s i h c w wp pc →
      let x := Iss.of s c w wp pc h
      (∀ l ∈ x.act, bad os x l) →
      ∃ t val, exec i s = .next t ∧ (∀ l ∈ x.act, (val l).length = n ∧ ∀ q ∈ val l, q.tag = Tag.poison) ∧
        Lands (s.poison c x.act.length) t x (x.puts (dstNames d n) val fun _ => none) []
  let denies (i : Instr) (os : List (Src × Nat)) : Prop :=
    ∀ (s : State) (h : Hdr) (c w : Nat) (wp : Warp) (pc : Nat), Issues s i h c w wp pc →
      let x := Iss.of s c w wp pc h
      (∀ l ∈ x.act, bad os x l) →
      ∃ t, exec i s = .next t ∧
        Lands (s.poison c x.act.length) t x (x.puts [] (fun _ => []) fun _ => some (pd, false)) []
  spreads (.iadd h d a b el u sat) 1 [(a, 0), (b, 0)] ∧ spreads (.imadw h d a b e u) 2 [(a, 0), (b, 0), (e, 0), (e, 1)] ∧
  spreads (.iaddImm h d a imm) 1 [(a, 0)] ∧ spreads (.and h d a b) 1 [(a, 0), (b, 0)] ∧ spreads (.popc h d a) 1 [(a, 0)] ∧
  spreads (.fadd h d a b r ftz sat) 1 [(a, 0), (b, 0)] ∧ spreads (.ffma h d a b e r ftz) 1 [(a, 0), (b, 0), (e, 0)] ∧
  spreads (.dadd h d a b r ftz) 2 [(a, 0), (a, 1), (b, 0), (b, 1)] ∧ spreads (.hmul2 h d a b r ftz sat) 1 [(a, 0), (b, 0)] ∧
  spreads (.frcp h d a r ftz) 1 [(a, 0)] ∧ (f ≠ .f64 → spreads (.fmax h d a b f ftz) 1 [(a, 0), (b, 0)]) ∧
  denies (.icmp h pd a b u ic) [(a, 0), (b, 0)] ∧ denies (.fcmp h pd a b false fc ftz) [(a, 0), (b, 0)])

/-- R439, R441, R368: a fault of a thread whose address space has EN = 0, or at S level, ends the launch with status FAULT and FCODE the
class, at S level with bit 7 set; the thread keeps its place, and no handler is entered. R440: where FRAME is nonzero, a thread that
traps writes its frame by four RLX stores of 8 bytes: the record, EPC, and no addresses. -/
def Obligations.FaultsWithoutHandler : Prop :=
  (∀ (s : State) (h : Hdr) (c w : Nat) (wp : Warp) (pc : Nat) (imm : BitVec 14) (sl : Bool),
  Issues s (.trap h imm) h c w wp pc →
  let x := Iss.of s c w wp pc h
  x.act ≠ [] → (∀ l ∈ x.act, x.sup l = sl) → (sl = false → (s.asidRec (s.asidOf wp)).en = false) →
  ∃ t, exec (.trap h imm) s = .next t ∧
    Moves (s.endLaunch wp.launch .fault (if sl then 0x8E else 0x0E)) t x noReg [] fun l t => if l ∈ x.act then { t with pc := pc } else t) ∧
  (∀ (s : State) (h : Hdr) (c w : Nat) (wp : Warp) (pc l leaf pa : Nat) (imm : BitVec 14),
  Issues s (.trap h imm) h c w wp pc →
  let x := Iss.of s c w wp pc h
  let a := s.asidRec (s.asidOf wp)
  let va := a.frame + 32 * (c * 2 ^ 13 + w * 2 ^ 7 + l)
  x.act = [l] → x.sup l = false → a.en = true → a.frame ≠ 0 → Maps s x l va 8 .store false leaf pa →
  ∃ t wp', exec (.trap h imm) s = .next t ∧ t.warp? c w = some wp' ∧
    (wp'.thread? l).map (fun th => (th.sLevel, th.pc, th.epc, th.fault)) =
      (wp.thread? l).map (fun _ => (true, a.entry, pc, faultWord 0x0E 0 0 (imm.zeroExtend 16))) ∧
    (∀ n l, (∀ k, n = .p k → k < 8) → l < 128 → t.reg c w n l = s.reg c w n l) ∧ t.mem = s.mem ∧
    ∃ new, t.accs = s.accs ++ new ∧ wp'.sq = wp.sq ++ new.map Acc.id ∧
      new.map (fun a => (a.who, a.kind, a.cls, a.va, a.pa, a.size, a.queued, a.performed)) =
        [(0, (faultWord 0x0E 0 0 (imm.zeroExtend 16)).toNat), (8, pc), (16, 0), (24, 0)].map fun p =>
          (Who.thread ⟨c, w, l⟩, AKind.store (bytesOf 8 p.2) (List.replicate 8 false), Cls.rlx, va + p.1, pa + p.1, 8, true, false))

/-- R443: ERET at S level goes to U level and to EPC, or the word after it. R101: NAP n waits for n cycles from the thread's pass, and
NAP 0 for none. R100: YIELD moves nothing but its warp's place among the candidates. R99: EXIT makes its guard-true threads EXITED,
which leave their groups; it orders no access. (Threads of no group, with no barrier and no REORDER of the launch open.) R102 to R105:
REORDER. The first of a launch's threads to arrive on a core open a collective of all of them that have not exited, with the word's
address, base, mask and order. While one of them has not arrived, those that have wait, and no register moves. When the last arrives,
each slot of a guard-true thread, in ascending lanes, takes the work of the next thread in the order of the keys, equal keys in slot
order, a POISON key as 0xFFFF: its live vector registers, POISON with such a key, $tid, $seed, $rerr, its groups and its predicates; its
other vector registers are undefined (DESIGN CHOICE, log 11: they have tag RAW); the threads go on behind the word. The moved registers
land with the collective (log 122). -/
def Obligations.ThreadsStopAndWait : Prop :=
  (∀ (h : Hdr) (next : Bool) (imm : BitVec 24),
  Acts (.eret h next) (fun x _ l => x.sup l = true)
    (fun _ _ _ t => { t with sLevel := false, pc := if next then (t.epc + 8) % 2 ^ 64 else t.epc }) ∧
  Acts (.nap h imm) (fun _ _ _ => True)
    (fun x _ l t => if imm = 0 then t else { t with st := .nap (x.now + l / 32 + imm.toNat) }) ∧
  ∀ (s : State) (c w : Nat) (wp : Warp) (pc : Nat), Issues s (.yield h) h c w wp pc →
    let x := Iss.of s c w wp pc h
    ∃ t, exec (.yield h) s = .next t ∧ Lands s t x noReg [] ∧
      (x.act ≠ [] → ∀ p ∈ s.candidates c (w / 16), p.1 ≠ w → ∀ wp', t.warp? c w = some wp' →
        wp'.run = none ∧ p.2.readyAt ≤ wp'.readyAt ∧ p.1 ∈ wp'.ties)) ∧
  (∀ (s : State) (h : Hdr) (c w : Nat) (wp : Warp) (pc : Nat), Issues s (.exit h) h c w wp pc →
  let x := Iss.of s c w wp pc h
  (∀ l ∈ x.act, ∀ th, wp.thread? l = some th → th.groups = []) →
  (∀ r ∈ (s.core c).ctx.reorder, r.launch ≠ wp.launch) →
  (∀ k ∈ s.cores, ∀ y ∈ k.ctxs, ∀ p ∈ y.warps, p.2.launch = wp.launch → ∀ th ∈ p.2.threads, ∀ g, th.st ≠ .group g) →
  ∃ t, exec (.exit h) s = .next t ∧ Moves s t x noReg [] fun l t => if l ∈ x.act then { t with st := .exited } else t) ∧
  (∀ (s : State) (h : Hdr) (a b m : Src) (desc : Bool) (c w : Nat) (wp : Warp) (pc : Nat),
  Issues s (.reorder h a b m desc) h c w wp pc →
  let x := Iss.of s c w wp pc h
  let mask := x.pair m 0
  let poison (l : Nat) : Bool := (x.src a 0 l).tag == .poison
  let key (l : Nat) : Nat := if poison l then 0xFFFF else (x.val a 0 l).toNat % 2 ^ 16
  let since (th : Thread) : Thread := { th with waitSince := (s.die (c / 8)).ticks }
  -- the participants: every thread of the launch on the core that has not exited
  let member (v l : Nat) : Prop := ∃ vp th, (v, vp) ∈ (s.core c).ctx.warps ∧ vp.launch = wp.launch ∧ vp.thread? l = some th ∧ th.st ≠ .exited
  risingFrom 0 (s.core c).ctx.warps = true → (∀ r ∈ (s.core c).ctx.reorder, r.launch ≠ wp.launch) →
  (x.src m 0 0).tag ∈ [.raw, .i32] → (x.src m 1 0).tag ∈ [.raw, .i32] → (∀ l ∈ x.act, (x.src a 0 l).konst = true ∨ (x.src a 0 l).tag ∈ [.raw, .i32, .poison]) →
  (∀ i < 64, mask.testBit i = true → b.field + i < min 640 wp.vregs) →
  ((∃ v l, member v l ∧ ¬(v = w ∧ l ∈ x.set)) → ∃ t r, exec (.reorder h a b m desc) s = .next t ∧
    (r.launch, r.pc, r.base, r.mask, r.desc) = (wp.launch, pc, b.field, mask, desc) ∧
    (∀ v l, (∃ p ∈ r.parts, (p.warp, p.lane) = (v, l)) ↔ member v l) ∧
    (∀ p ∈ r.parts, p.arrived = true ↔ p.warp = w ∧ p.lane ∈ x.set) ∧
    Moves (s.setCtx c fun k => { k with reorder := k.reorder ++ [r] }) t x noReg [] fun l th =>
      if l ∈ x.set then { since th with st := .reorder } else th) ∧
  ((∀ v l, member v l → v = w ∧ l ∈ x.set) → ∃ t sorted, ∃ left : Nat → Nat → Word, exec (.reorder h a b m desc) s = .next t ∧
    sorted.Perm x.act ∧
    (sorted.Pairwise fun i j => (if desc then key j < key i else key i < key j) ∨ (key i = key j ∧ i < j)) ∧
    (let source (l : Nat) : Option Nat := (x.act.zip sorted).lookup l
     Moves (s.poison c (x.act.filter poison).length) t x
       (fun n l => (source l).bind fun j => match n with
         | .v r =>
           let old := s.reg c w (.v r) j
           if b.field ≤ r ∧ r < b.field + 64 ∧ mask.testBit (r - b.field) = true then some (if poison j then { old with tag := .poison } else old)
           else if r < wp.vregs then some ⟨left r l, .raw⟩ else none
         | .p k => if k < 7 then some (s.reg c w (.p k) j) else none
         | _ => none) []
       fun l th => match (source l).bind fun j => x.w.thread? j with
         | some o => since { th with tid := o.tid, seed := o.seed, rerrCount := o.rerrCount, rerrStat := o.rerrStat, groups := o.groups }
         | none => if l ∈ x.set then since th else th)))

/-- R114, R115, R116: what RDSPEC reads of each register, I32 in each half, with variable latency, $cycles and $ticks as they stand at
the lane's pass; $fault only at S level, and $gen once the raises of the warp have ended (R263). R196: the word of RDRACK. R117: WRSPEC
writes $seed and $rerr of each guard-true thread with an integer source, a zero seed as 1, and $sbcheck of the warp from the lowest such
thread. R194, R234: PHASE and RESMODE. -/
def Obligations.SpecialRegisters : Prop :=
  (∀ (h : Hdr) (d : Dst) (r : SpecReg),
  let la (x : Iss) (s : State) : Option Launch := s.launch? x.w.launch
  let th (x : Iss) (l : Nat) (f : Thread → Nat) : Nat := ((x.w.thread? l).map f).getD 0
  let value (x : Iss) (s : State) (l : Nat) : Nat := match r with
    | .tid => th x l Thread.tid
    | .ntid => ((la x s).map Launch.grid).getD 0
    | .lane => l
    | .warp => x.warp
    | .width => x.w.width
    | .core => x.core
    | .die => x.core / 8
    | .stack => 4 * (x.core / 8 % 4) + x.core % 8 % 4
    | .cycles => (s.core x.core).cycles + l / 32
    | .ticks => (s.die (x.core / 8)).ticks + ((s.clock + l / 32) / 30 - s.clock / 30)
    | .rack => (s.core x.core).rack
    | .seed => (x.w.read x.ticket x.now .seed l).val.toNat
    | .fault => th x l fun t => t.fault.toNat
    | .rerr => th x l fun t => t.rerrCount * 256 + t.rerrStat
    | .sbcheck => if x.w.sbcheck then 1 else 0
    | .asid => ((la x s).map Launch.asid).getD 0
    | .gen => 0
    | .part => ((la x s).map Launch.part).getD 0
  (r ≠ .gen → Reads (.rdspec h d r) d (if r.wide then 2 else 1) (fun x _ l => r = .fault → x.sup l = true) fun x s l =>
    if r.wide then halves (BitVec.ofNat 64 (value x s l)) .i32 .i32 else [⟨BitVec.ofNat 32 (value x s l), .i32⟩]) ∧
  Traps (.rdspec h d .fault) 0x02 (fun _ _ => 0) (fun _ _ _ => True) ∧
  (∀ (s : State) (c w : Nat) (wp : Warp) (pc : Nat), Issues s (.rdspec h d .gen) h c w wp pc →
    let x := Iss.of s c w wp pc h
    ∃ t more, exec (.rdspec h d .gen) s = .next t ∧ Lands s t x noReg more ∧
      if x.act = [] ∨ d = .discard then more = []
      else ∃ p, more = [p] ∧ p.id = s.nextId ∧ p.names = dstNames d 1 ∧ ∃ u n, p.src = .gen u n x.act ∧
        dstNames d 1 = [if u then .w n else .v n]) ∧
  (∀ (s : State) (c w : Nat) (wp : Warp) (pc : Nat), Issues s (.rdrack h d) h c w wp pc → (s.core c).rack < 2 ^ 15 → wp.phase < 4 →
    let x := Iss.of s c w wp pc h
    let k := s.core c
    let sat : Bool := k.satisfied.any fun r => r.who == .warp w
    let word : Word := (0 : BitVec 8) ++ BitVec.ofNat 2 wp.phase ++ BitVec.ofBool k.half ++ BitVec.ofBool sat ++
      BitVec.ofBool (sat || k.resv.any fun r => r.who == .warp w) ++ BitVec.ofNat 3 (min 4 k.resv.length) ++ (0 : BitVec 1) ++
      BitVec.ofNat 15 k.rack
    ∃ t, exec (.rdrack h d) s = .next t ∧ Lands s t x (x.puts (dstNames d 1) (fun _ => [⟨word, .i32⟩]) fun _ => none) [])) ∧
  (∀ (h : Hdr) (a : Src),
  let int (x : Iss) (_ : State) (l : Nat) : Prop := x.int a 0 l
  Acts (.wrspec h .seed a) int (fun x _ l t => { t with seed := if x.val a 0 l = 0 then 1 else x.val a 0 l }) ∧
  Acts (.wrspec h .rerr a) int (fun x _ l t =>
    { t with rerrCount := ((x.val a 0 l).extractLsb' 8 8).toNat, rerrStat := ((x.val a 0 l).extractLsb' 0 4).toNat }) ∧
  -- a field of the warp takes a value
  (let sets (i : Instr) (ok : Iss → Prop) (f : Iss → Warp → Warp) : Prop :=
    ∀ (s : State) (c w : Nat) (wp : Warp) (pc : Nat), Issues s i h c w wp pc → ok (Iss.of s c w wp pc h) →
      let x := Iss.of s c w wp pc h
      ∃ t, exec i s = .next t ∧
        if x.act = [] then Lands s t x noReg [] else Lands (s.setWarp c w (f x)) t { x with w := f x x.w } noReg []
  sets (.wrspec h .sbcheck a) (fun x => ∀ l ∈ x.act, x.int a 0 l) (fun x w => { w with sbcheck := (x.val a 0 (x.act.headD 0)).getLsbD 0 }) ∧
  ∀ p : PhaseSel, sets (.phase h p) (fun _ => True) fun _ w => { w with phase := match p with | .c => 1 | .m => 2 | .w => 3 }))

/-- R44: VARIABLE_LATENCY_WRITE lands the registers of a result whose values are known, and its register is no longer pending; nothing
else of the package changes. -/
def Obligations.ResultsLand : Prop := ∀ (s : State) (c w : Nat) (wp : Warp) (p : Pend), s.warp? c w = some wp → wp.pend.find? (fun q => q.id == p.id) = some p →
  p.src = .ready →
  (∀ v ∈ p.vals, v.lane < 128 ∧ v.name ≠ .seed ∧ (∀ k, v.name = .p k → k < 7) ∧ ∀ v' ∈ p.vals, v'.name = v.name → v'.lane = v.lane → v' = v) →
  ∃ t wp', exec (.variableLatencyWrite c w p.id) s = .next t ∧ t.warp? c w = some wp' ∧ (t.mem, t.marks, t.gaps, t.dies, t.stks, t.rows, t.scores, t.ctl, t.launches, t.accs) =
      (s.mem, s.marks, s.gaps, s.dies, s.stks, s.rows, s.scores, s.ctl, s.launches, s.accs) ∧
    (∀ k v, (k, v) ≠ (c, w) → t.warp? k v = s.warp? k v) ∧ (t.core c).rack = (s.core c).rack ∧
    wp'.pend = wp.pend.filter (fun q => q.id != p.id) ∧ wp'.threads = wp.threads ∧
    ∀ n l, n ≠ .seed → l < 128 → (∀ k, n = .p k → k < 8) →
      t.reg c w n l = match p.vals.find? fun v => v.name == n && (v.lane == l || match n with | .w _ => true | _ => false) with
        | some v => (match n with | .p _ => ⟨if v.reg.val = 0 then 0 else 1, .raw⟩ | _ => v.reg)
        | none => s.reg c w n l

/-! ### Memory, sheds and fences -/

/-- R275, R276, R278, R246, R308: LD and ST at an aligned address whose page is there and permits it make one access for each guard-true
thread, at the pair plus the offset times the width: a load that its destinations and pR wait for, and a store, with the low bytes of
its data, in its warp's store queue. -/
def Obligations.LoadsAndStoresAreAsked : Prop := ∀ (h : Hdr) (d : Dst) (v a : Src) (hint : Hint) (cl : Cls) (w : Sys2Proof.Width) (t : Tag)
    (pr : Pred) (lo : BitVec 4) (so : BitVec 11),
  let n := Width.bytes w
  let ok (x : Iss) (l : Nat) : Prop := x.int a 0 l ∧ x.int a 1 l
  Asks (.ld h d a hint cl w t pr lo) (dstNames d (Width.regs w) ++ predName pr) ok
    (fun x l => (x.val64 a l + lo.signExtend 64 * BitVec.ofNat 64 n).toNat) n .load
    (fun _ _ => .load (dstNames d (Width.regs w)) t pr.val) cl hint false ∧
  Asks (.st h v a hint cl w so) [] ok (fun x l => (x.val64 a l + so.signExtend 64 * BitVec.ofNat 64 n).toNat) n .store
    (fun x l => .store (x.bytes v n l) ((List.range n).map fun i => decide ¬x.plain v (i / 4) l)) cl hint true

/-- R277: LDW makes one access for all its guard-true threads, at the address of the uniform pair. R275, R251, R252: a thread of LD
whose address is not a multiple of the width takes E_ALIGN, and one whose page is not there on a cached-translation miss reads zeros and
a false pR; a POISON address reads POISON and a false pR. (Of each, where all threads do.) -/
def Obligations.LoadsOfKnownBytes : Prop :=
  (∀ (s : State) (h : Hdr) (c w : Nat) (wp : Warp) (pc : Nat) (d : Dst) (u : Fin 64) (hint : Hint)
    (cl : Cls) (wd : Sys2Proof.Width) (t : Tag) (pr : Pred) (off : BitVec 4) (l leaf pa : Nat),
  let a : Src := .w u
  Issues s (.ldw h d a hint cl wd t pr off) h c w wp pc →
  let x := Iss.of s c w wp pc h
  let n := Width.bytes wd
  let va := (x.val64 a l + off.signExtend 64 * BitVec.ofNat 64 n).toNat
  let names := dstNames d (Width.regs wd)
  x.act.head? = some l → x.int a 0 l → x.int a 1 l → Maps s x l va n .load false leaf pa →
  ∃ t', exec (.ldw h d a hint cl wd t pr off) s = .next t' ∧ Beside s t' x (fun _ st => st) ∧ Still s t' ∧
    Joined s t' [x.asks s l x.act (.load names t pr.val) cl hint va leaf pa n false] ∧
    Pends s t' x (if names ++ predName pr = [] then [] else [⟨s.nextId, names ++ predName pr, .acc (s.nextId + 1), []⟩])) ∧
  (∀ (s : State) (h : Hdr) (c w : Nat) (wp : Warp) (pc : Nat) (d : Dst) (a : Src) (hint : Hint)
    (cl : Cls) (wd : Sys2Proof.Width) (t : Tag) (pr : Pred) (off : BitVec 4),
  let i : Instr := .ld h d a hint cl wd t pr off
  Issues s i h c w wp pc →
  let x := Iss.of s c w wp pc h
  let n := Width.bytes wd
  let va (l : Nat) : Nat := (x.val64 a l + off.signExtend 64 * BitVec.ofNat 64 n).toNat
  let names := dstNames d (Width.regs wd)
  ((∀ l ∈ x.act, x.int a 0 l ∧ x.int a 1 l ∧ va l % n ≠ 0 ∧ x.caught s l) →
    ∃ t', exec i s = .next t' ∧ Still s t' ∧ Joined s t' [] ∧ Pends s t' x [] ∧
      ∀ l, (t'.thread? (x.ref l)).map (fun th => (th.pc, th.sLevel, th.epc, th.fault)) =
        (if l ∈ x.act then (wp.thread? l).map fun _ => ((s.asidRec (s.asidOf wp)).entry, true, pc, faultWord 0x04 0 0 0)
         else (x.after l).map fun th => (th.pc, th.sLevel, th.epc, th.fault))) ∧
  ((∀ l ∈ x.act, ¬(x.plain a 0 l ∧ x.plain a 1 l)) →
    ∃ t', exec i s = .next t' ∧ Beside s t' x (fun _ st => st) ∧ Still s t' ∧ Joined s t' [] ∧
      (t'.core c).poisonCnt = (s.core c).poisonCnt + BitVec.ofNat 32 x.act.length ∧
      ∃ more, Pends s t' x more ∧ ∀ p ∈ more, p.src = .ready ∧ (∀ m, m ∈ p.names ↔ m ∈ names ++ predName pr) ∧
        ∀ v ∈ p.vals, v.reg.tag = .poison ∨ (∃ k, v.name = .p k) ∧ v.reg = ⟨0, .raw⟩))

/-- R281, R284, R285: DISCARD asks for a store of each page's lines; UNPIN clears the pins of its own partition on the lines of the
range; PREF asks nothing and writes no register (R280). R284: PIN of one guard-true thread pins every line of its range that no
partition has pinned, for the thread's partition, if the quota allows it at every stack, and else none; pD says which. -/
def Obligations.CachesAndPins : Prop :=
  (∀ (s : State) (h : Hdr) (c w : Nat) (wp : Warp) (pc : Nat) (b a : Src) (hint : Hint) (lvl : PrefLvl)
    (off : BitVec 7) (leaf pa : Nat → Nat → Nat),
  let x := Iss.of s c w wp pc h
  let va (l : Nat) : Nat := (x.val64 a l).toNat
  let n (l : Nat) : Nat := (x.val b 0 l).toNat
  let ok (l : Nat) : Prop := x.int a 0 l ∧ x.int a 1 l ∧ x.int b 0 l ∧ va l % 128 = 0 ∧ n l % 128 = 0 ∧
    ∀ p ∈ pagesOf (va l) (n l), Maps s x l p.1 128 .store false (leaf l p.1) (pa l p.1)
  (Issues s (.discard h b a) h c w wp pc → (∀ l ∈ x.act, ok l) →
    ∃ t, exec (.discard h b a) s = .next t ∧ Beside s t x (fun _ st => st) ∧ Still s t ∧ Pends s t x [] ∧
      Joined s t (x.act.flatMap fun l => (pagesOf (va l) (n l)).map fun p =>
        x.asks s l [l] (.discard (linesAt (pa l p.1) p.2)) .rlx .none p.1 (leaf l p.1) (pa l p.1) p.2 true)) ∧
  (Issues s (.unpin h b a) h c w wp pc → (∀ l ∈ x.act, ok l) →
    ∃ t, exec (.unpin h b a) s = .next t ∧ Beside s t x (fun _ st => st) ∧ Still s t ∧ Pends s t x [] ∧ Joined s t [] ∧
      ∀ k o, k < s.stks.length → mget? (t.stack k).pins o =
        if mget? (s.stack k).pins o = some (s.partOf wp) ∧ (∃ l ∈ x.act, ∃ p ∈ pagesOf (va l) (n l),
          s.localDev (pteDev (leaf l p.1)) = true ∧ ∃ lin ∈ linesAt (pa l p.1) p.2, lin / 2 ^ 36 % 16 = k ∧ lin % 2 ^ 36 / 128 = o)
        then none else mget? (s.stack k).pins o) ∧
  (Issues s (.pref h a hint lvl off) h c w wp pc → (∀ l ∈ x.act, x.int a 0 l ∧ x.int a 1 l) →
    ∃ t, exec (.pref h a hint lvl off) s = .next t ∧ Steps s t x (fun _ st => st) ∧ Pends s t x [] ∧ Joined s t [])) ∧
  (∀ (s : State) (h : Hdr) (c w : Nat) (wp : Warp) (pc : Nat) (b a : Src) (pd : Pred) (l : Nat)
    (leaf pa : Nat → Nat),
  Issues s (.pin h b a pd) h c w wp pc →
  let x := Iss.of s c w wp pc h
  let va := (x.val64 a l).toNat
  let pages := pagesOf va (x.val b 0 l).toNat
  x.act = [l] → x.int a 0 l → x.int a 1 l → x.int b 0 l → va % 128 = 0 → (x.val b 0 l).toNat % 128 = 0 →
  (∀ p ∈ pages, Maps s x l p.1 128 .load false (leaf p.1) (pa p.1) ∧ s.localDev (pteDev (leaf p.1)) = true ∧ (linOf (pa p.1)).isSome) →
  let lines := (pages.flatMap fun p => linesAt (pa p.1) p.2).eraseDups
  let free (k : Nat) : List Nat := lines.filter fun lin => homeOf lin == k && (mget? (s.stack k).pins (lin % 2 ^ 36 / 128)).isNone
  let fits : Bool := (List.range 16).all fun k => !(lines.any fun lin => homeOf lin == k) ||
    decide (((s.stack k).pins.filter fun p => p.2 == s.partOf wp).length + (free k).length ≤ mget s.ctl.pinq (s.partOf wp) 0)
  ∃ t, exec (.pin h b a pd) s = .next t ∧ Beside s t x (fun _ st => st) ∧ Still s t ∧ Joined s t [] ∧
    (∀ k o, k < s.stks.length → mget? (t.stack k).pins o =
      if fits ∧ ∃ lin ∈ free k, lin % 2 ^ 36 / 128 = o then some (s.partOf wp) else mget? (s.stack k).pins o) ∧
    ∃ more, Pends s t x more ∧ more.map (fun p => (p.names, p.src, p.vals)) =
      if pd.val = 7 then [] else [([.p pd.val], .ready, [⟨.p pd.val, l, ⟨if fits then 1 else 0, .raw⟩⟩])])

/-- R203, R204, R206, R146: the lanes of LDS's first pass read the bytes of their sheds, little-endian, with the tag of the tag field,
where no earlier access of the core to the shed is outstanding; behind one, they ask for the bytes. The lanes of later passes wait.
R204, R207: LDST gives each lane of its first pass column i of the block whose row r its group's lane r supplies, zeros for a lane that
does not; behind an earlier access of the core to those sheds it asks for the rows. The lanes of later passes wait. -/
def Obligations.ShedReads : Prop :=
  (∀ (s : State) (h : Hdr) (c w : Nat) (wp : Warp) (pc : Nat) (d : Dst) (a : Src)
    (wd : Sys2Proof.Width) (t : Tag) (off : BitVec 7) (shed place : Nat → Nat),
  let i : Instr := .lds h d a wd t off
  Issues s i h c w wp pc →
  let x := Iss.of s c w wp pc h
  let y := x.pass0
  let n := Width.bytes wd
  let regs := Width.regs wd
  let names (l : Nat) : List RName := if d.isW ∧ y.act.head? ≠ some l then [] else dstNames d regs
  (∀ l ∈ y.act, x.int a 0 l ∧ Scratch s x (x.val a 0 l + off.signExtend 32 * BitVec.ofNat 32 n) n (shed l) (place l)) →
  ((∀ l ∈ y.act, x.first s (shed l) ∧ s.shedClean (c / 8) (shed l) (place l) n) →
    ∃ t', exec i s = .next t' ∧ x.defers s t' i y.act.isEmpty ∧ Answers s t' y d regs fun l => (upFrom 0 regs).map fun k =>
      ⟨BitVec.ofNat 32 (numOf (((s.shedHolds (c / 8) (shed l) (place l) n).drop (4 * k)).take 4)),
        if t = .fp64l ∨ t = .fp64h then if k % 2 = 0 then .fp64l else .fp64h else t⟩) ∧
  ((∀ l ∈ y.act, x.behind s (shed l)) →
    ∃ t', exec i s = .next t' ∧ x.defers s t' i y.act.isEmpty ∧
      AsksFor s t' y (dstNames d regs) (y.act.map fun l => x.asksShed s l (.load (names l) t 7) .rlx (shed l) (place l) n))) ∧
  (∀ (s : State) (h : Hdr) (c w : Nat) (wp : Warp) (pc : Nat) (d : Dst) (a : Src) (t : Tag)
    (off : BitVec 7) (shed place : Nat → Nat),
  let i : Instr := .ldst h d a t off
  Issues s i h c w wp pc →
  let x := Iss.of s c w wp pc h
  let y := x.pass0
  let group (l : Nat) : List Nat := upFrom (l / 8 * 8) 8
  let names (l : Nat) : List RName := if d.isW ∧ y.act.head? ≠ some l then [] else dstNames d 4
  (∀ l ∈ y.act, x.int a 0 l ∧ Scratch s x (x.val a 0 l + off.signExtend 32 * 16) 16 (shed l) (place l)) →
  ((∀ l ∈ y.act, x.first s (shed l) ∧ s.shedClean (c / 8) (shed l) (place l) 16) →
    ∃ t', exec i s = .next t' ∧ x.defers s t' i y.act.isEmpty ∧ Answers s t' y d 4 fun l =>
      let elem (r : Nat) : Nat := let m := l / 8 * 8 + r
        if m ∈ y.act then numOf (s.shedHolds (c / 8) (shed m) (place m + 2 * (l % 8)) 2) else 0
      (upFrom 0 4).map fun q => ⟨BitVec.ofNat 32 (elem (2 * q) + 2 ^ 16 * elem (2 * q + 1)), t⟩) ∧
  ((∀ l ∈ y.act, x.behind s (shed l)) →
    ∃ t', exec i s = .next t' ∧ x.defers s t' i y.act.isEmpty ∧ AsksFor s t' y (dstNames d 4) (y.act.map fun l =>
      let m := ((group l).find? fun m => m ∈ y.act).getD l
      x.asksShed s l (.rows (names l) t (l % 8) ((group l).map fun r =>
        if r ∈ y.act then some (some (shedPlace (c / 8) (shed r) (place r))) else none)) .rlx (shed m) (place m) 16)))

/-- R203, R204, R206, R149: the lanes of STS's first pass write the low bytes of their data into their sheds; of lanes that write one
byte, the highest remains. Behind an earlier access of the core to the shed they ask for the store. The lanes of later passes wait. -/
def Obligations.ShedStores : Prop := ∀ (s : State) (h : Hdr) (c w : Nat) (wp : Warp) (pc : Nat) (d a : Src) (wd : Sys2Proof.Width)
    (off : BitVec 7) (shed place : Nat → Nat),
  let i : Instr := .sts h d a wd off
  Issues s i h c w wp pc →
  let x := Iss.of s c w wp pc h
  let y := x.pass0
  let n := Width.bytes wd
  (∀ l ∈ y.act, x.int a 0 l ∧ Scratch s x (x.val a 0 l + off.signExtend 32 * BitVec.ofNat 32 n) n (shed l) (place l)) →
  ((∀ l ∈ y.act, x.first s (shed l) ∧ ∀ i < (n + 3) / 4, x.plain d i l) →
  ∃ t, exec i s = .next t ∧ x.defers s t i false ∧ Beside s t x (fun _ st => st) ∧ Joined s t [] ∧ Pends s t x [] ∧
    (t.mem, t.marks, t.gaps) = (s.mem, s.marks, s.gaps) ∧
    (∀ k sh o, k < s.dies.length → mget (t.shedOf k sh).bytes o 0 =
      match (y.act.filter fun l => k == c / 8 && sh == shed l && decide (place l ≤ o) && decide (o < place l + n)).getLast? with
      | some l => lget (x.bytes d n l) (o - place l) 0
      | none => mget (s.shedOf k sh).bytes o 0) ∧
    (∀ k sh b, k < s.dies.length → b ∈ (t.shedOf k sh).marks ↔ b ∈ (s.shedOf k sh).marks ∧
      ¬∃ l ∈ y.act, k = c / 8 ∧ sh = shed l ∧ place l ≤ 4 * b ∧ 4 * b + 4 ≤ place l + n)) ∧
  ((∀ l ∈ y.act, x.behind s (shed l)) →
    ∃ t, exec i s = .next t ∧ x.defers s t i false ∧ Beside s t x (fun _ st => st) ∧ Pends s t x [] ∧
      (∀ k sh, k < s.dies.length → (t.shedOf k sh).bytes = (s.shedOf k sh).bytes ∧ (t.shedOf k sh).marks = (s.shedOf k sh).marks) ∧
      Joined s t (y.act.map fun l => x.asksShed s l
        (.store (x.bytes d n l) ((List.range n).map fun j => decide ¬x.plain d (j / 4) l)) .rlx (shed l) (place l) n))

/-- R210, R211: a GIVE whose checks pass makes the source entry DRAINING and reserves the target entry; pD waits for the drain. One that
is refused changes no entry: GSTAT and pD say so. R211, R212: at the end of the drain of a GIVE (GIVE_DRAIN_END) the shed stands in the
target entry, the source entry is EMPTY, GSTAT is OK and pD becomes true. -/
def Obligations.GivingShedBytes : Prop :=
  (∀ (s : State) (h : Hdr) (c w : Nat) (wp : Warp) (pc : Nat) (a b e : Src) (pd : Pred) (l : Nat),
  Issues s (.give h a b e pd) h c w wp pc →
  let x := Iss.of s c w wp pc h
  let at' (core : Nat) (v : Src) : Option (Nat × ShEntry) := s.shedSlot core wp.launch (x.val v 0 l).toNat
  let tc := (x.val b 0 l).toNat
  let newest (f : Thread → Nat) : Nat := (x.act.filterMap fun m => (s.thread? (x.ref m)).map f).foldl max 0
  let pub : Acqs := (newest Thread.acqDie, newest Thread.acqPkg)
  x.act.head? = some l → x.int a 0 l → x.int b 0 l → x.int e 0 l →
  (∀ src se dst de, at' c a = some (src, se) → se.st = .attached → tc / 8 = c / 8 → s.shedCount tc wp.launch ≠ 0 →
    at' tc e = some (dst, de) → ¬(tc = c ∧ x.val a 0 l = x.val e 0 l) → de.st = .empty → de.inc = false →
    ∃ t, exec (.give h a b e pd) s = .next t ∧
      (t.mem, t.cores.length, t.accs, t.launches, t.ctl, t.stks) = (s.mem, s.cores.length, s.accs, s.launches, s.ctl, s.stks) ∧
      (∀ n l, l < 128 → (∀ k, n = .p k → k < 8) → t.reg c w n l = s.reg c w n l) ∧
      (∀ k key, k < s.dies.length → mget? (t.die k).shedMap key = (mget? (s.die k).shedMap key).map fun q =>
        if k = c / 8 ∧ key = src then { q with st := .draining, since := s.clock, inc := if src = dst then true else q.inc,
                                               pub := if src = dst then pub else q.pub }
        else if k = c / 8 ∧ key = dst then { q with inc := true, pub := pub } else q) ∧
      (∃ g, (t.die (c / 8)).gives = (s.die (c / 8)).gives ++ [g] ∧ (g.core, g.warp, g.launch, g.src, g.dstCore, g.dstEntry, g.pd, g.lanes) =
        (c, w, wp.launch, src, tc, dst, pd.val, x.act)) ∧
      ∃ wp', t.warp? c w = some wp' ∧ wp'.pend = wp.pend ++ if pd.val = 7 then [] else [⟨s.nextId, [.p pd.val], .give, []⟩]) ∧
  (∀ st : Nat, (st = 1 ∧ at' c a = none ∨
      st = 2 ∧ (∃ q, at' c a = some q ∧ q.2.st = .attached) ∧ tc / 8 ≠ c / 8 ∨
      st = 3 ∧ (∃ q, at' c a = some q ∧ q.2.st = .attached) ∧ tc / 8 = c / 8 ∧ s.shedCount tc wp.launch ≠ 0 ∧
        ¬(tc = c ∧ x.val a 0 l = x.val e 0 l) ∧ ∃ q, at' tc e = some q ∧ (q.2.st ≠ .empty ∨ q.2.inc = true)) →
    let f (v : Warp) : Warp := { v with gstat := st }
    ∃ t, exec (.give h a b e pd) s = .next t ∧ ∃ more, Lands (s.setWarp c w f) t { x with w := f x.w } noReg more ∧
      more.map (fun p => (p.names, p.src, p.vals)) =
        if pd.val = 7 then [] else [([.p pd.val], .ready, x.act.map fun m => ⟨.p pd.val, m, ⟨0, .raw⟩⟩)])) ∧
  (∀ (s : State) (g : Give) (e : ShEntry) (wp : Warp),
  let k := g.core / 8
  (s.die k).gives.find? (fun q => q.core == g.core && q.warp == g.warp && s.giveDone k q) = some g →
  mget? (s.die k).shedMap g.src = some e → s.warp? g.core g.warp = some wp → wp.launch = g.launch → g.src ≠ g.dstEntry →
  ∃ t wp', exec (.giveDrainEnd g.core g.warp) s = .next t ∧ t.warp? g.core g.warp = some wp' ∧
    (t.mem, t.accs, t.launches, t.ctl, t.stks, t.scores) = (s.mem, s.accs, s.launches, s.ctl, s.stks, s.scores) ∧
    (∀ key, mget? (t.die k).shedMap key = (mget? (s.die k).shedMap key).map fun q =>
      if key = g.dstEntry then { q with st := .attached, shed := e.shed, sec := e.sec, inc := false }
      else if key = g.src then { q with st := .empty, shed := 0 } else q) ∧
    (t.die k).sheds = (s.die k).sheds ∧ wp'.gstat = 0 ∧
    ∀ p ∈ wp.pend, p.id = g.pendId → { p with src := .ready, vals := g.lanes.map fun l => ⟨.p g.pd, l, ⟨1, .raw⟩⟩ } ∈ wp'.pend)

/-! ### Atomics, fences, requests, sync words -/

/-- R347 to R351: ATOM, ATOMCAS and RED ask for one access for their threads in this package, and for one at each sector of another
device, with the address and the operands of each thread; ATOM's and ATOMCAS's registers pend on the old values, a uniform one on that of
the lowest thread, RED writes none. R75: .ra does not accept integers: E_ILLEGAL. (Operands of which no register is POISON: integers, and
the floating-point types for what takes them; any tags for ATOMCAS.) -/
def Obligations.Atomics : Prop := ∀ (s : State) (h : Hdr) (c w : Nat) (wp : Warp) (pc : Nat) (v a n : Src) (cl : Cls) (wide ra u : Bool)
    (op : AtomOp) (leaf pa : Nat → Nat),
  let x := Iss.of s c w wp pc h
  let wd : Sys2Proof.Width := if wide then .b64 else .b32
  let size := if wide then 8 else 4
  let names := dstNames (srcAsDst v) (if wide then 2 else 1)
  let num (b : Src) (l : Nat) : Nat := if wide then (x.val64 b l).toNat else (x.val b 0 l).toNat
  let asks (i : Instr) (op : AtomOp) (cas ra u ret : Bool) (ty : AType) (tags : Nat → Tag × Tag) (cmp : Src) : Prop :=
    let kind (ls : List Nat) : AKind := .atomic op cas ra u wide
      (if ret = false ∨ (∃ k, v = .w k) ∧ (∀ l, x.act.head? = some l → l ∉ ls) then none else names.head?)
      (ls.map fun l => ⟨l, pa l, num cmp l, num v l, false, ty, tags l, pteReach (leaf l), pteKey (leaf l), pteS (leaf l)⟩)
    ∃ t, exec i s = .next t ∧ Beside s t x (fun _ st => st) ∧ Still s t ∧
      Joined s t ((x.shares s leaf pa).map fun ls => let l := ls.headD 0
        { x.asks s l ls (kind ls) cl .none (x.val64 a l).toNat (leaf l) (pa l) size false with
          reach := (ls.map fun l => pteReach (leaf l)).foldl max 0 }) ∧
      Pends s t x (if x.act = [] ∨ ret = false ∨ names = [] then []
        else [⟨s.nextId, names, .acc (s.nextId + (x.shares s leaf pa).length), []⟩])
  let place (l : Nat) : Prop := x.int a 0 l ∧ x.int a 1 l ∧ Maps s x l (x.val64 a l).toNat size .atomic true (leaf l) (pa l)
  let int (l : Nat) : Prop := x.int v 0 l ∧ (wide = true → x.int v 1 l)
  let clean (b : Src) (l : Nat) : Prop := x.plain b 0 l ∧ (wide = true → x.plain b 1 l)
  let atom : Instr := .atom h v a cl wd ra op u
  let red : Instr := .red h v a cl wd ra op u
  (ra = false → (∀ l ∈ x.act, place l ∧ int l) →
    (Issues s atom h c w wp pc → asks atom op false ra u true .int (fun _ => (.i32, .i32)) v) ∧
    (Issues s red h c w wp pc → asks red op false ra u false .int (fun _ => (.i32, .i32)) v)) ∧
  (Issues s (.atomcas h v a n cl wd) h c w wp pc → (∀ l ∈ x.act, place l ∧ clean v l ∧ clean n l) →
    asks (.atomcas h v a n cl wd) .exch true false false true .bits (fun l => ((x.src v 0 l).tag, (x.src v 1 l).tag)) n) ∧
  (∀ tg ty, (tg, ty) ∈ [(Tag.fp32, AType.f32), (.fp16x2, .f16x2), (.bf16x2, .bf16x2)] → op ∈ [AtomOp.add, .min, .max, .exch] → wide = false →
    (∀ l ∈ x.act, place l ∧ x.holds v 0 l [tg]) →
    (Issues s atom h c w wp pc → asks atom op false ra u true ty (fun l => ((x.src v 0 l).tag, (x.src v 1 l).tag)) v) ∧
    (Issues s red h c w wp pc → asks red op false ra u false ty (fun l => ((x.src v 0 l).tag, (x.src v 1 l).tag)) v)) ∧
  (ra = true → (∀ l ∈ x.act, x.int a 0 l ∧ x.int a 1 l ∧ int l ∧ x.caught s l) → ∀ i ∈ [atom, red], Issues s i h c w wp pc →
    ∃ t, exec i s = .next t ∧ Still s t ∧ Joined s t [] ∧ Pends s t x [] ∧
      ∀ l, (t.thread? (x.ref l)).map (fun th => (th.pc, th.sLevel, th.epc, th.fault)) =
        (if l ∈ x.act then (wp.thread? l).map fun _ => ((s.asidRec (s.asidOf wp)).entry, true, pc, faultWord 0x01 0 0 0)
         else (x.after l).map fun th => (th.pc, th.sLevel, th.epc, th.fault)))

/-- R317, R318, R114: a FENCE and a FENCE.SYS with nothing in flight end at once: the failures of the thread's stores are recorded, the
thread has acquired, and FENCE.SYS records each failure since the last once more, writes pD, true where there is none, and forgets them. With an access of
each thread outstanding they wait, and pD pends. -/
def Obligations.Fences : Prop := ∀ (s : State) (h : Hdr) (c w : Nat) (wp : Warp) (pc : Nat) (pd : Pred) (sys : Bool),
  let i : Instr := if sys then .fenceSys h pd else .fence h
  Issues s i h c w wp pc →
  let x := Iss.of s c w wp pc h
  let ok (l : Nat) : Bool := ((wp.thread? l).map fun th => decide (∀ st ∈ th.late ++ th.fails, st = .ok)).getD true
  (s.accs = [] → (∀ p ∈ wp.pend, ∀ k, p.src ≠ .acc k) → s.alone c wp.launch → ∃ (t : State) (n : Nat → Nat), exec i s = .next t ∧ (∀ l ∈ x.act, s.stamp < n l ∧ n l ≤ t.stamp) ∧
    Moves { s with stamp := t.stamp } t x (x.puts [] (fun _ => []) fun l => if sys then some (pd, ok l) else none) []
      fun l th => if l ∈ x.act then
        { th with rerrCount := (th.settled sys).1, rerrStat := (th.settled sys).2, acqDie := n l, acqPkg := n l, late := [],
                  fails := if sys then [] else th.fails ++ th.late } else th) ∧
  ((∀ l ∈ x.act, s.owes (x.ref l) wp.launch) → ∃ t new, exec i s = .next t ∧ Beside s t x (fun _ st => st) ∧ Still s t ∧ Joined s t new ∧
    new.map (fun a => (a.who, a.lanes, a.kind, a.launch)) =
      x.act.map (fun l => (.thread (x.ref l), [l], .fence sys (if sys then pd.val else 7), wp.launch)) ∧
    Pends s t x (if x.act = [] ∨ sys = false ∨ pd.val = 7 then [] else [⟨s.nextId, [.p pd.val], .acc (s.nextId + x.act.length), []⟩]))

/-- R260, R261, R262, R263: PAGEIN queues a request for each guard-true thread; PROBE reads the leaf of the page that its address
translates to, 0 for one that does not translate and 2 for one that is away; RAISEGEN, at S level on its own address space, queues a
raise that waits for the accesses of its threads, and GENERATION_RAISE performs it; RAISEGEN at U level is privileged. -/
def Obligations.PagesAndGenerations : Prop := ∀ (h : Hdr) (d : Dst) (a b : Src) (walk : Bool) (off : BitVec 20),
  (∀ (s : State) (c w : Nat) (wp : Warp) (pc : Nat) (leaf pa : Nat → Nat), Issues s (.pagein h a b off) h c w wp pc →
    let x := Iss.of s c w wp pc h
    let va (l : Nat) : Dword := x.val64 a l + off.signExtend 64
    let sync (l : Nat) : SyncTo := match b with
      | .k _ => .none
      | _ => if s.localDev (pteDev (leaf l)) then (match linOf (pa l) with
          | some lin => .home lin (pteKey (leaf l)) (s.core c).ctx.sec
          | none => .away) else .away
    (∀ l ∈ x.act, x.int a 0 l ∧ x.int a 1 l ∧ (va l).extractLsb' 55 9 = 0 ∧ ((∃ k, b = .k k) ∧ x.int b 0 l ∨
      x.int b 0 l ∧ x.int b 1 l ∧ (∀ k, b ≠ .k k) ∧ Maps s x l (x.val64 b l).toNat 16 .store false (leaf l) (pa l))) →
    ∃ t new, exec (.pagein h a b off) s = .next t ∧ Steps s t x (fun _ st => st) ∧ Still s t ∧ Pends s t x [] ∧ Joined s t new ∧
      new.map (fun a => (a.who, a.kind, a.va)) = x.act.map (fun l => (.thread (x.ref l), .pagein, (va l).toNat)) ∧
      t.ctl = { s.ctl with pageins := s.ctl.pageins ++ ((upFrom (s.nextId + 1) x.act.length).zip x.act).map fun p =>
        ⟨p.1, s.asidOf wp, (va p.2).toNat, sync p.2, (s.core c).ctx.sec, false, x.ref p.2⟩ }) ∧
  (∀ (s : State) (c w : Nat) (wp : Warp) (pc : Nat) (y : Nat → Xl) (r : Nat → WRes), Issues s (.probe h d a walk) h c w wp pc →
    let x := Iss.of s c w wp pc h
    let va (l : Nat) : Nat := (x.val64 a l).toNat
    let found (l : Nat) : Prop := walk = false ∧ s.xlFind (.thread (x.ref l)) (s.asidOf wp) (va l) = some (y l)
    let walked (l : Nat) : Prop := (walk = true ∨ s.xlFind (.thread (x.ref l)) (s.asidOf wp) (va l) = none) ∧
      s.walk (s.asidOf wp) (va l) = (s, r l) ∧ ∀ z p, r l = .leaf z p → z = y l
    (∀ l ∈ x.act, x.int a 0 l ∧ x.int a 1 l ∧ (2 ^ 55 ≤ va l ∨ found l ∨ walked l)) →
    ∃ (t : State) (val : Nat → Dword), exec (.probe h d a walk) s = .next t ∧ Tells s t x d 2 (fun l => halves (val l) .i32 .i32) ∧ ∀ l ∈ x.act,
      let shown : Dword := if pteSec (y l).leaf = true ∧ (s.core c).ctx.sec = false then 0 else BitVec.ofNat 64 ((y l).leafFor (va l))
      (2 ^ 55 ≤ va l → val l = 0) ∧ (va l < 2 ^ 55 → found l → val l = shown) ∧
      (va l < 2 ^ 55 → walked l → val l = match r l with | .invalid => 0 | .absent => 2 | .leaf .. => shown)) ∧
  (∀ (s : State) (c w : Nat) (wp : Warp) (pc : Nat), Issues s (.raisegen h a) h c w wp pc →
    let x := Iss.of s c w wp pc h
    x.act ≠ [] → (∀ l ∈ x.act, x.sup l = true ∧ x.int a 0 l ∧ (x.val a 0 l).toNat % 2 ^ 16 = s.asidOf wp) →
    ∃ t, exec (.raisegen h a) s = .next t ∧ Lands (s.setCtl fun k =>
      { k with raises := k.raises ++ [⟨s.nextId, s.asidOf wp, x.act.map x.ref, s.nextId, c, w⟩] }) t x noReg []) ∧
  Traps (.raisegen h a) 0x02 (fun _ _ => 0) (fun _ _ _ => True) ∧
  ∀ (s : State) (asid : Nat) (r : Raise), s.ctl.raises = [r] → r.asid = asid → (s.asidRec asid).gen + 1 < 2 ^ 16 →
    (∀ q ∈ s.accs, q.id < r.upto → q.performed = true ∨ ∀ th ∈ r.ths, q.isOf th = false) →
    exec (.generationRaise asid) s = .next ((s.setAsid asid fun k => { k with gen := k.gen + 1 }).setCtl fun k => { k with raises := [] })

/-- R215, R216, R217, R218: on a word in memory, INIT and ADD ask for a store of it, the ADD a release, and WAIT for an acquiring wait,
on which its thread waits. On a word of a shed the lanes of the first pass ask so, the ADD and the INIT where an earlier access of the
core to the shed is outstanding; the lanes of later passes wait (R204). R215, R216, R218: on a word of a shed with nothing outstanding,
INIT sets TARGET and clears COUNT and the two bits, ADD adds, and GENERATION rises with each TARGET reached; SYNC_WORD_ADD adds in the
same way. -/
def Obligations.SyncWords : Prop :=
  (∀ (h : Hdr) (a b : Src) (off : BitVec 8),
  let va (x : Iss) (l : Nat) : Nat := (x.val64 a l + off.signExtend 64 * 16).toNat
  let ok (x : Iss) (l : Nat) : Prop := x.int a 0 l ∧ x.int a 1 l ∧ x.int b 0 l
  let waits (s : State) (y : Iss) (l : Nat) (st : TSt) : TSt := if l ∈ y.act then .sync (s.nextId + 1 + y.act.idxOf l) else st
  Asks (.syncwInit h a b false off) [] ok va 16 .store (fun x l => .swInit (x.val b 0 l).toNat false) .rlx .none true ∧
  Asks (.syncwAdd h a b false off) [] ok va 16 .store (fun x l => .swAdd (x.val b 0 l).toNat false) .rel .none true ∧
  (∀ (s : State) (c w : Nat) (wp : Warp) (pc : Nat) (leaf pa : Nat → Nat), Issues s (.syncwWait h a b false off) h c w wp pc →
    let x := Iss.of s c w wp pc h
    (∀ l ∈ x.act, ok x l ∧ Maps s x l (va x l) 16 .load false (leaf l) (pa l)) →
    ∃ t, exec (.syncwWait h a b false off) s = .next t ∧ Still s t ∧ Pends s t x [] ∧ Beside s t x (waits s x) ∧
      Joined s t (x.act.map fun l =>
        x.asks s l [l] (.swWait (x.val b 0 l).toNat) .acq .none (va x l) (leaf l) (pa l) 16 false)) ∧
  ∀ (s : State) (c w : Nat) (wp : Warp) (pc : Nat) (shed o : Nat → Nat),
    let x := Iss.of s c w wp pc h
    let y := x.pass0
    let wait : Instr := .syncwWait h a b true off
    (∀ l ∈ y.act, x.int a 0 l ∧ x.int b 0 l ∧ Scratch s x (x.val a 0 l + off.signExtend 32 * 16) 16 (shed l) (o l)) →
    (Issues s wait h c w wp pc → ∃ t, exec wait s = .next t ∧ x.defers s t wait false ∧ Still s t ∧ Pends s t x [] ∧ Beside s t x (waits s y) ∧
      Joined s t (y.act.map fun l => x.asksShed s l (.swWait (x.val b 0 l).toNat) .acq (shed l) (o l) 16)) ∧
    ∀ add : Bool, let i : Instr := if add then .syncwAdd h a b true off else .syncwInit h a b true off
      Issues s i h c w wp pc → (∀ l ∈ y.act, x.behind s (shed l)) → ∃ t, exec i s = .next t ∧ x.defers s t i false ∧
        Beside s t x (fun _ st => st) ∧ Pends s t x [] ∧ (∀ k sh, (t.shedOf k sh).bytes = (s.shedOf k sh).bytes) ∧
        Joined s t (y.act.map fun l => x.asksShed s l
          (if add then .swAdd (x.val b 0 l).toNat false else .swInit (x.val b 0 l).toNat false) (if add then .rel else .rlx) (shed l) (o l) 16)) ∧
  (∀ (s : State) (h : Hdr) (c w : Nat) (wp : Warp) (pc : Nat) (a b : Src) (off : BitVec 8)
    (l shed o : Nat),
  let x := Iss.of s c w wp pc h
  -- the word's fields: TARGET, COUNT, GENERATION, and the bits OVF and POISON
  let f (q : State) (i : Nat) : Nat := numOf (q.shedHolds (c / 8) shed (o + 4 * i) 4)
  let word (q : State) : Nat × Nat × Nat × Bool × Bool := (f q 0, f q 1, f q 2, bitAt (f q 3) 0, bitAt (f q 3) 1)
  let added (k : Nat) : Nat × Nat × Nat × Bool × Bool :=
    if f s 0 = 0 then (0, min (f s 1 + k) (2 ^ 32 - 1), f s 2, bitAt (f s 3) 0, bitAt (f s 3) 1)
    else (f s 0, (f s 1 + k) % f s 0, (f s 2 + (f s 1 + k) / f s 0) % 2 ^ 32, bitAt (f s 3) 0 || decide (f s 0 < f s 1 + k), bitAt (f s 3) 1)
  let writes (i : Instr) (new : Nat × Nat × Nat × Bool × Bool) : Prop :=
    ∃ t, exec i s = .next t ∧ Beside s t x (fun _ st => st) ∧ Pends s t x [] ∧ t.accs = [] ∧ (t.mem, t.marks, t.gaps) = (s.mem, s.marks, s.gaps) ∧
      word t = new ∧ ∀ k q j, (k ≠ c / 8 ∨ q ≠ shed ∨ j < o ∨ o + 16 ≤ j) → mget (t.shedOf k q).bytes j 0 = mget (s.shedOf k q).bytes j 0
  (c < 64 → s.dies.length = 8 → shed < 512 → s.accs = [] → x.act = [l] → l < 32 → x.int a 0 l → x.int b 0 l →
    Scratch s x (x.val a 0 l + off.signExtend 32 * 16) 16 shed o →
    (Issues s (.syncwInit h a b true off) h c w wp pc → writes (.syncwInit h a b true off) ((x.val b 0 l).toNat, 0, f s 2, false, false)) ∧
    (Issues s (.syncwAdd h a b true off) h c w wp pc → writes (.syncwAdd h a b true off) (added (x.val b 0 l).toNat))) ∧
  (∀ k, c < 64 → s.dies.length = 8 → shed < 512 → ∃ t, exec (.syncWordAdd (.shed (c / 8) shed o) k) s = .next t ∧ word t = added k ∧
    (t.mem, t.cores, t.stks, t.accs, t.ctl) = (s.mem, s.cores, s.stks, s.accs, s.ctl)) ∧
  (∀ k lin, lin % 16 = 0 → lin < 2 ^ 40 → s.marks = [] → s.gaps = [] → (s.stack (homeOf lin)).frozen = [] →
    (s.stack (homeOf lin)).alive = true →
    (∀ d ∈ s.dies, d.dc = []) →
    let m (q : State) (i : Nat) : Nat := numOf ((upFrom (lin + 4 * i) 4).map q.byteAt)
    ∃ t, exec (.syncWordAdd (.home lin) k) s = .next t ∧
      (m s 0 ≠ 0 → (m t 0, m t 1, m t 2) = (m s 0, (m s 1 + k) % m s 0, (m s 2 + (m s 1 + k) / m s 0) % 2 ^ 32)) ∧
      (∀ j, (j < lin ∨ lin + 16 ≤ j) → t.byteAt j = s.byteAt j) ∧ (t.cores, t.accs, t.ctl) = (s.cores, s.accs, s.ctl)))

/-! ### Manger slots, tile registers and the matrix engine -/

/-- R226, R227, R229: MCLAIM and TCLAIM of a number that the launch has wait to be settled, and raise E_MANGER for one that it has not.
Settled, they take the lowest FREE slot or tile register, or the one named if it is FREE, for the warp, or for the group, and give its
number; they give 0xFFFF_FFFF where there is none. R227, R230: MREL and TREL of a slot or tile register that is held wait to be settled.
Settled, they make it RELEASING, and FREE at once where no earlier command names it; its contents stay, and so does every other; one
that is held no more stays as it is. (No other of the core is RELEASING.) -/
def Obligations.RolesClaimAndRelease : Prop :=
  (∀ (h : Hdr) (d : Dst),
  let asks (i : Instr) (mat : Bool) (num : Option Nat) (size : View → Nat) (act : Nat → SetAct) : Prop :=
    ∀ (s : State) (c w : Nat) (wp : Warp) (pc g : Nat) (v : View), Issues s i h c w wp pc →
      let x := Iss.of s c w wp pc h
      x.inGroup g → (mat = true → s.matrixRole wp.launch g) → s.view? c wp.launch = some v → (∀ n, num = some n → n < size v) →
      ∃ t, exec i s = .next t ∧ Settles s t x (dstNames d 1) (act g)
  let takes (act : SetAct) (num : Option Nat) (sts : View → List HoldSt) (put : View → Nat → Settle → View) : Prop :=
    ∀ (s : State) (c : Nat) (e : Settle) (v : View), e.act = act → s.view? c e.launch = some v →
      let free (n : Nat) : Prop := (sts v)[n]? = some .free
      let t := s.settleOne c e
      (∀ n, free n → (num = some n ∨ num = none ∧ ∀ k < n, ¬free k) →
        t.view? c e.launch = some (put v n e) ∧ Claimed s t c e (BitVec.ofNat 32 n)) ∧
      ((∀ n, (num = none ∨ num = some n) → ¬free n) → t.view? c e.launch = some v ∧ Claimed s t c e 0xFFFFFFFF)
  let slots (num : Option Nat) (i : Instr) : Prop := asks i true num (fun v => v.slots.length) (fun _ => .claimSlot num) ∧
    takes (.claimSlot num) num (fun v => v.slots.map MSlot.st)
      fun v n e => { v with slots := lmod v.slots n fun m => { m with st := .claimed e.warp } }
  let tiles (num : Option Nat) (i : Instr) : Prop := asks i false num (fun v => v.tiles.length) (fun g => .claimTile num g) ∧
    ∀ g, takes (.claimTile num g) num (fun v => v.tiles.map Tile.st)
      fun v n _ => { v with tiles := lmod v.tiles n fun m => { m with st := .claimed g } }
  (∀ n : Option (Fin 64), slots (n.map Fin.val) (.mclaim h d n) ∧ Traps (.mclaim h d n) 0x0A (fun _ _ => 0) (fun x _ _ => ¬∃ g, x.inGroup g)) ∧
  (∀ n : Option (Fin 16), tiles (n.map Fin.val) (.tclaim h d n) ∧ Traps (.tclaim h d n) 0x0A (fun _ _ => 0) (fun x _ _ => ¬∃ g, x.inGroup g)) ∧
  (∀ n : Fin 64, Traps (.mclaim h d (some n)) 0x09 (fun _ _ => 0) fun x s _ => ∃ g v, x.inGroup g ∧ s.matrixRole x.w.launch g ∧
    s.view? x.core x.w.launch = some v ∧ v.slots.length ≤ n.val) ∧
  ∀ n : Fin 16, Traps (.tclaim h d (some n)) 0x09 (fun _ _ => 0) fun x s _ => ∃ g v, x.inGroup g ∧
    s.view? x.core x.w.launch = some v ∧ v.tiles.length ≤ n.val) ∧
  (∀ (s : State) (h : Hdr) (c w : Nat) (wp : Warp) (pc l g n : Nat) (a : Src) (v : View) (e : Settle),
  let x := Iss.of s c w wp pc h
  let slot : Prop := ∃ m k, v.slots[n]? = some m ∧ m.st = .claimed k
  let tile : Prop := ∃ m, v.tiles[n]? = some m ∧ m.st = .claimed g
  (x.inGroup g → x.act.head? = some l → x.int a 0 l → (x.val a 0 l).toNat = n → s.view? c wp.launch = some v →
    (Issues s (.mrel h a) h c w wp pc → s.matrixRole wp.launch g → slot →
      ∃ t, exec (.mrel h a) s = .next t ∧ Settles s t x [] (.freeSlot n)) ∧
    (Issues s (.trel h a) h c w wp pc → tile → ∃ t, exec (.trel h a) s = .next t ∧ Settles s t x [] (.freeTile n g))) ∧
  (c < s.cores.length → s.view? c e.launch = some v → (∀ p ∈ (s.core c).ctx.views, ∀ m ∈ p.2.slots, ∀ k, m.st ≠ .releasing k) →
    (∀ p ∈ (s.core c).ctx.views, ∀ m ∈ p.2.tiles, ∀ k, m.st ≠ .releasing k) →
    let cmds := (s.core c).ctx.matCmds.filter fun m => m.launch == e.launch && decide (m.id < e.id)
    let ends (busy : Prop) (st : HoldSt) : Prop := (busy → st = .releasing e.id) ∧ (¬busy → st = .free)
    let t := s.settleOne c e
    (e.act = .freeSlot n → slot → ∃ st, t.view? c e.launch = some { v with slots := lmod v.slots n fun m => { m with st := st } } ∧
      ends ((∃ m ∈ cmds, n ∈ m.slotsOf) ∨ ∃ q ∈ (s.core c).ctx.copyQ, q.launch = e.launch ∧ q.id < e.id ∧ n ∈ q.slots) st) ∧
    (e.act = .freeTile n g → tile → ∃ st, t.view? c e.launch = some { v with tiles := lmod v.tiles n fun m => { m with st := st } } ∧
      ends ((∃ m ∈ cmds, m.tile = n) ∨ ∃ q ∈ (s.core c).ctx.warps, ∃ p ∈ q.2.pend, p.id < e.id ∧
        ∃ r ls u k, p.src = .trd e.launch n r ls u k) st) ∧
    (e.act = .freeSlot n → ¬slot → t = s) ∧ (e.act = .freeTile n g → ¬tile → t = s)))

/-- R214, R212, R241, R244: SHMAP reads the entry of its slot, and acquires where it is ATTACHED; MSTAT reads the state of the engine and of
the current group, and clears PENERR; RESMODE's mode is the group's once it is settled (R227). (MSTAT and RESMODE: of a group that has a record, and, for MSTAT, of
threads that have none.) -/
def Obligations.MatrixStatus : Prop := ∀ (s : State) (h : Hdr) (c w : Nat) (wp : Warp) (pc : Nat) (d : Dst) (a : Src) (m : ResMode) (v : View),
  let x := Iss.of s c w wp pc h
  s.view? c wp.launch = some v → v.sheds.length ≤ 64 → v.slots.length ≤ 64 → v.tiles.length ≤ 16 → wp.gstat < 8 →
  let slot (l : Nat) : Option ShEntry := (s.shedSlot c wp.launch ((x.val a 0 l).extractLsb' 0 6).toNat).map Prod.snd
  let low : BitVec 27 := BitVec.ofNat 3 wp.gstat ++ (0 : BitVec 8) ++ (0 : BitVec 9) ++ BitVec.ofNat 7 v.sheds.length
  let entry (e : ShEntry) : Word := BitVec.ofBool true ++ (match e.st with | .empty => (0 : BitVec 2) | .attached => 1 | .draining => 2) ++
    BitVec.ofBool e.inc ++ BitVec.ofBool e.sec ++ BitVec.ofNat 3 wp.gstat ++ (0 : BitVec 8) ++
    BitVec.ofNat 9 (if e.st = .empty then 0 else e.shed) ++ BitVec.ofNat 7 v.sheds.length
  let stat (mode : ResMode) (err : Bool) : Word := ((s.core c).mismatch.extractLsb' 0 16) ++ BitVec.ofBool (s.core c).half ++
    (match mode with | .off => (0 : BitVec 2) | .count => 1 | .rerun => 2) ++ BitVec.ofBool err ++
    BitVec.ofNat 5 (v.tiles.filter fun q => q.st == .free).length ++ BitVec.ofNat 7 (v.slots.filter fun q => q.st == .free).length
  (Issues s (.shmap h d a) h c w wp pc → (∀ l ∈ x.act, x.int a 0 l ∧ ∀ e, slot l = some e → e.shed < 512) →
    ∃ t, exec (.shmap h d a) s = .next t ∧ Moves { s with stamp := s.stamp + 1 } t x
      (x.puts (dstNames d 1) (fun l => [⟨((slot l).map entry).getD (low.zeroExtend 32), .i32⟩]) fun _ => none) []
      fun l th => if l ∈ x.act ∧ ∃ e, slot l = some e ∧ e.st = .attached then { th with acqDie := s.stamp + 1, acqPkg := max th.acqPkg (((slot l).map fun e => e.pub.2).getD 0) } else th) ∧
  (∀ g r, x.inGroup g → g ≠ allHandle → s.group? wp.launch g = some r →
    (Issues s (.mstat h d) h c w wp pc → ∃ t, exec (.mstat h d) s = .next t ∧
      Tells (s.setGtable g fun q => { q with recs := mmod q.recs (handleIndex g) fun r => { r with penErr := false } }) t x d 1
        fun _ => [⟨stat r.res r.penErr, .i32⟩]) ∧
    (Issues s (.resmode h m) h c w wp pc → r.roles.matrix = true → ∃ t, exec (.resmode h m) s = .next t ∧
      Settles s t x [] (.mode g m)) ∧
    (∀ e : Settle, e.launch = wp.launch → e.act = .mode g m →
      s.settleOne c e = s.setGtable g fun q => { q with recs := mmod q.recs (handleIndex g) fun r => { r with res := m } })) ∧
  (Issues s (.mstat h d) h c w wp pc → x.act ≠ [] → (∀ l ∈ x.act, (wp.thread? l).map Thread.groups = some []) →
    ∃ t, exec (.mstat h d) s = .next t ∧ Tells s t x d 1 fun _ => [⟨stat .off false, .i32⟩])

/-- R225, R227, R231, R236, R242, R243: MMA, MZERO and TWR that pass their checks count in MATRIX, and join the queue of the current group
of their launch when they are settled; TRD's
registers pend on the tile register; and R236's checks raise E_MANGER. -/
def Obligations.MatrixCommands : Prop := ∀ (s : State) (h : Hdr) (c w : Nat) (wp : Warp) (pc g l : Nat) (gr : Fin 3) (t : Fin 16) (ma mb : Fin 64)
    (fa fb : MFmt) (sp int pf : Bool) (mask : BitVec 4) (pen : Fin 32) (d a b : Src) (v : View) (mode : ResMode),
  let x := Iss.of s c w wp pc h
  x.inGroup g → s.view? c wp.launch = some v → x.act.head? = some l →
  let held : Prop := ∃ q, v.tiles[t.val]? = some q ∧ q.st = .claimed g
  let claimed (n : Nat) : Prop := ∃ q k, v.slots[n]? = some q ∧ q.st = .claimed k
  let row (m : Nat) : Nat := m + wp.width * (((x.val b 0 l).extractLsb' 5 2).toNat % (128 / wp.width))
  let cb (l : Nat) : Nat := ((x.val b 0 l).extractLsb' 0 5).toNat
  let src (l : Nat) : List Reg := (List.range 8).map fun i => ⟨x.val d i l, (x.src d i l).tag⟩
  let mma : Instr := .mma h gr t ma mb fa fb sp mask pf pen
  (Issues s mma h c w wp pc → s.matrixRole wp.launch g → held → claimed ma.val → claimed mb.val → claimed (mb.val + 1) →
    (g ≠ allHandle → ∃ r, s.group? wp.launch g = some r ∧ r.res = mode) → (g = allHandle → v.allRes = mode) →
    ∃ u cmd rows, exec mma s = .next u ∧ Queued s u x g cmd ∧ cmd.tile = t.val ∧ x.ownsRows mask rows ∧
      cmd.kind = .mma ma.val mb.val fa fb sp rows pf pen.val gr.val mode) ∧
  (Issues s (.mzero h t mask int) h c w wp pc → s.matrixRole wp.launch g → held → ∃ u cmd rows, exec (.mzero h t mask int) s = .next u ∧
    Queued s u x g cmd ∧ cmd.tile = t.val ∧ x.ownsRows mask rows ∧ cmd.kind = .mzero rows int) ∧
  (Issues s (.twr h t d b) h c w wp pc → held → x.int b 0 l →
    (∀ m ∈ x.act, (∃ r ∈ src m, r.tag = .poison) ∨ (∀ r ∈ src m, r.tag = .fp32) ∨ ∀ r ∈ src m, r.tag = .i32) →
    ∃ u cmd, ∃ ds : Nat → Taint, exec (.twr h t d b) s = .next u ∧ Queued s u x g cmd ∧ cmd.tile = t.val ∧
      cmd.kind = .twr (cb l) (x.act.map fun m => (row m, src m, ds m))) ∧
  (∀ (e : Settle) (cmd : MCmd), e.act = .queue g cmd → c < s.cores.length →
    let qs (s : State) : List (Nat × List MCmd) := (s.core c).ctx.mat.queues
    ∃ k, ∀ q, mget (qs (s.settleOne c e)) q [] = mget (qs s) q [] ++ if q = k then [cmd] else []) ∧
  (∀ n : Fin 640, Issues s (.trd h (.v n) t a) h c w wp pc → held → x.int a 0 l → ∃ u, exec (.trd h (.v n) t a) s = .next u ∧
    Lands s u x noReg [⟨s.nextId, (upFrom n.val 8).map .v, .trd wp.launch t.val (x.val a 0 l).toNat x.act n.val s.nextId, []⟩]) ∧
  Traps mma 0x09 (fun _ _ => 0) (fun x s _ => ∃ g v, x.inGroup g ∧ s.matrixRole x.w.launch g ∧ s.view? x.core x.w.launch = some v ∧
    ((∀ q, v.tiles[t.val]? = some q → q.st ≠ .claimed g) ∨ ∃ n ∈ [ma.val, mb.val, mb.val + 1], ∀ q k, v.slots[n]? = some q → q.st ≠ .claimed k)) ∧
  Traps (.mzero h t mask int) 0x0A (fun _ _ => 0) (fun x _ _ => ¬∃ g, x.inGroup g)

/-! ### Groups, pens and the matrix engine -/

/-- R326, R332: JOIN of a group that is there, of a new one, and of ALL: the guard-true threads become members, the group is their most
recent, and d takes its handle; a different role set, a ninth group, a full table and a bad identifier are answered in d and change
nothing. R328, R329, R333, R334, R335: LEAVE takes its group from the threads' lists, and the group dissolves with its last member;
GSYNC makes its threads wait, and releases them when every member has arrived and nothing that they did before is outstanding; a handle
that is no group of theirs raises E_ROLE; WIDE_BARRIER_COMPLETION releases the arrived threads of its die. (GSYNC's completion: of a
CORE group whose members are the threads of the issue; LEAVE: where no other member waits.) -/
def Obligations.Groups : Prop :=
  (∀ (s : State) (h : Hdr) (c w : Nat) (wp : Warp) (pc l id : Nat) (d : Dst) (a : Src) (cl : GrpCls) (r : Roles),
  Issues s (.join h d a cl r) h c w wp pc →
  let x := Iss.of s c w wp pc h
  let handle (seq i : Nat) : Nat := (match cl with | .core => c * 2 ^ 24 | .die => 2 ^ 30 + c / 8 * 2 ^ 24 | .wide => 2 ^ 31) + seq * 2 ^ 16 + i
  let records : Nat := match cl with | .core => 64 | .die => 128 | .wide => 1023
  let tb := s.gtable (handle 0 0)
  let same (i : Nat) (g : Group) : Prop := (i, g) ∈ tb.recs ∧ g.launch = wp.launch ∧ g.ident = id
  let full (g : Nat) : Prop := ∃ l ∈ x.act, ∃ th, wp.thread? l = some th ∧ g ∉ th.groups ∧ 8 ≤ (th.groups.filter fun k => k ≠ allHandle).length
  let gives (u : State) (v : Nat) (g : Option Nat) : Prop := ∃ t, exec (.join h d a cl r) s = .next t ∧
    TellsAnd u t x d (fun _ => BitVec.ofNat 32 v) fun l th => match g with
      | some g => if l ∈ x.act then { th with groups := g :: th.groups.filter fun k => k ≠ g } else th
      | none => th
  x.act.head? = some l → x.int a 0 l → (x.val a 0 l).toNat = id → c < 64 →
  (id = 0xFFFFFFFF → if cl = .wide then gives s 0x800003FF (some allHandle) else gives s 0xC0000004 none) ∧
  (id ≠ 0xFFFFFFFF →
    (∀ i g, same i g → (∀ j q, same j q → j = i ∧ q = g) → mget tb.seqs i 0 < 256 →
      let k := handle (mget tb.seqs i 0) i
      (g.roles ≠ r → gives s 0xC0000002 none) ∧
      (g.roles = r → full k → gives s 0xC0000003 none) ∧
      (g.roles = r → ¬full k → gives s k (some k))) ∧
    ((∀ i g, ¬same i g) →
      ((∀ i < records, mget? tb.recs i ≠ none) → gives s 0xC0000001 none) ∧
      ((∃ i < records, mget? tb.recs i = none) →
        ((∃ l ∈ x.act, ∃ th, wp.thread? l = some th ∧ 8 ≤ (th.groups.filter fun k => k ≠ allHandle).length) →
          (∀ l ∈ x.act, ∀ th, wp.thread? l = some th → ∀ g ∈ th.groups, g < 2 ^ 32) → gives s 0xC0000003 none) ∧
        (¬(∃ l ∈ x.act, ∃ th, wp.thread? l = some th ∧ 8 ≤ (th.groups.filter fun k => k ≠ allHandle).length) → ∃ i < records,
          mget? tb.recs i = none ∧
          let seq := (mget tb.seqs i 0 + 1) % 256
          gives (s.setGtable (handle 0 0) fun t => ⟨mset t.recs i ⟨wp.launch, id, r, .count, false⟩, mset t.seqs i seq⟩)
            (handle seq i) (some (handle seq i))))))) ∧
  (∀ (s : State) (h : Hdr) (c w : Nat) (wp : Warp) (pc l g : Nat) (a : Src),
  let x := Iss.of s c w wp pc h
  let others (p : TRef → Thread → Prop) : Prop := ∃ q ∈ s.scopeThreads wp.launch g, q.1 ∉ x.act.map x.ref ∧ g ∈ q.2.2.groups ∧ p q.1 q.2.2
  let ticks := (s.die (c / 8)).ticks
  let newest (f : Thread → Nat) : Nat := (x.act.filterMap fun m => (wp.thread? m).map f).foldl max 0
  c < 64 → s.cores.length = 64 → s.alone c wp.launch → wp.threads.length ≤ 128 →
  (x.act.head? = some l → x.int a 0 l → (x.val a 0 l).toNat = g → g ≠ allHandle →
    (∀ l ∈ x.act, ∃ th, wp.thread? l = some th ∧ g ∈ th.groups) →
    (handleClass g = 0 → handleScope g = c) →
    (Issues s (.leave h a) h c w wp pc → others (fun _ th => th.st = .ready) → ∃ t, exec (.leave h a) s = .next t ∧
      Moves s t x noReg [] fun l th => if l ∈ x.act then { th with groups := th.groups.filter fun k => k ≠ g } else th) ∧
    (Issues s (.leave h a) h c w wp pc → ¬others (fun _ _ => True) → s.dies.length = 8 → handleScope g < 64 → handleClass g < 3 →
      (handleClass g = 1 → handleScope g < 8) → ∃ t, exec (.leave h a) s = .next t ∧
      (∀ l, (t.thread? (x.ref l)).map Thread.groups =
        (wp.thread? l).map fun th => if l ∈ x.act then th.groups.filter fun k => k ≠ g else th.groups) ∧
      mget? (t.gtable g).recs (handleIndex g) = none ∧
      ∀ v, s.view? c wp.launch = some v → handleClass g = 0 → ∃ v', t.view? c wp.launch = some v' ∧
        ∀ (n : Nat) (q : Tile), v.tiles[n]? = some q → q.st = .claimed g → ∃ q' : Tile, v'.tiles[n]? = some q' ∧ (q'.st = .free ∨ ∃ k, q'.st = .releasing k)) ∧
    (Issues s (.gsync h a) h c w wp pc → others (fun _ th => th.st ≠ .group g) → ∃ t, exec (.gsync h a) s = .next t ∧
      Moves s t x noReg [] fun l th => if l ∈ x.act then { th with st := .group g, waitSince := ticks } else th) ∧
    (Issues s (.gsync h a) h c w wp pc → ¬others (fun _ _ => True) → handleClass g = 0 → s.accs = [] →
      (∀ q, s.launch? wp.launch = some q → q.ended = none) → ∃ t, exec (.gsync h a) s = .next t ∧
      Moves { s with stamp := s.stamp + 1 } t x noReg [] fun l th =>
        if l ∈ x.act then { th with st := .ready, waitSince := ticks, hbUpto := s.nextId, acqDie := newest Thread.acqDie,
                                    acqPkg := newest Thread.acqPkg } else th)) ∧
  Traps (.leave h a) 0x0A (fun _ _ => 0) (fun x _ l => x.act.head? = some l ∧ x.int a 0 l ∧ (x.val a 0 l).toNat = g ∧
    (g = allHandle ∨ ∃ l ∈ x.act, ∃ th, x.w.thread? l = some th ∧ g ∉ th.groups)) ∧
  Traps (.gsync h a) 0x0A (fun _ _ => 0) (fun x _ l => x.act.head? = some l ∧ x.int a 0 l ∧ (x.val a 0 l).toNat = g ∧
    g ≠ allHandle ∧ ∃ l ∈ x.act, ∃ th, x.w.thread? l = some th ∧ g ∉ th.groups) ∧
  ∀ (launch i k : Nat), k < 8 → ∃ t n, exec (.wideBarrierCompletion launch i k) s = .next t ∧
    (t.mem, t.marks, t.gaps, t.accs, t.stks, t.scores, t.ctl) = (s.mem, s.marks, s.gaps, s.accs, s.stks, s.scores, s.ctl) ∧
    ∀ r wr th, s.warp? r.core r.warp = some wr → s.thread? r = some th → r.core < 64 → wr.launch = launch →
      (∀ y ∈ (s.core r.core).ctxs.drop 1, ∀ p ∈ y.warps, p.2.launch ≠ launch) → ((s.core r.core).ctx.warps.map Prod.fst).Nodup →
      let here : Prop := r.core / 8 = k ∧ ∃ m, th.st = .group m ∧ 2 ^ 32 ≤ m ∧ handleIndex (m - 2 ^ 32) = i
      (here → t.thread? r = some { th with st := .ready, acqDie := n, acqPkg := n }) ∧ (¬here → t.thread? r = some th))

/-- R338, R339, R340, R343: PINIT empties its pen; PCLAIM and PTAKE take the box at the pointer, and acquire, or wait at the FIFO's tail;
PFILL and PFREE put the pending mark on their box until their release is complete, when it is FULL, or EMPTY, and the head of the take
FIFO, if its box is that one, goes on; PQUERY counts. R341: a bad name and a bad box raise E_INVALID. (Of threads whose pen no other FIFO
waits for, but where said.) -/
def Obligations.Pens : Prop := ∀ (s : State) (h : Hdr) (c w : Nat) (wp : Warp) (pc l num b : Nat) (a e : Src) (d : Dst) (die fill : Bool) (p : Pen),
  let x := Iss.of s c w wp pc h
  let set (f : Pen → Pen) : State := s.setPen c wp.launch ⟨die, num⟩ f
  let boxAt (i : Nat) (st : BoxSt) (p : Pen) : Prop := ∃ m, p.boxes[i]? = some ⟨st, m, false⟩
  let count (st : BoxSt) : BitVec 7 := BitVec.ofNat 7 (p.boxes.filter fun q => q.st == st).length
  c < 64 → s.cores.length = 64 → s.dies.length = 8 → s.alone c wp.launch → x.act.head? = some l → x.int a 0 l → num < 256 →
  (x.val a 0 l).toNat = (if die then 256 else 0) + num → (s.pensOf c wp.launch die)[num]? = some p → (die = false → s.view? c wp.launch ≠ none) →
  (Issues s (.pinit h a e) h c w wp pc → x.int e 0 l → (x.val e 0 l).toNat = b → 1 ≤ b → b ≤ 64 → p.claimQ = [] → p.takeQ = [] →
    (∀ q ∈ p.boxes, q.bound = false ∧ q.pend = false) → ∃ t, exec (.pinit h a e) s = .next t ∧
      Lands (set fun p => { p with boxes := List.replicate b ⟨.empty, false, false⟩, cp := 0, tp := 0, order := [], claims := [],
                                   pub := [] }) t x noReg []) ∧
  (p.boxes ≠ [] →
    (let takes (i : Instr) (st st' : BoxSt) (pt : Pen → Nat) (q : Pen → List Waiter) (take : Bool) (f : Pen → Pen) : Prop :=
      Issues s i h c w wp pc →
      (p.claimQ = [] → p.takeQ = [] → boxAt (pt p) st p → ∃ t, exec i s = .next t ∧ ∃ m,
        TellsAnd { set (fun p => f { p with boxes := lmod p.boxes (pt p) fun _ => ⟨st', m, false⟩ }) with stamp := s.stamp + 1 } t x d
          (fun _ => BitVec.ofNat 32 (pt p)) fun l th => if l ∈ x.act then
            (let pub := mget p.pub (pt p) (0, 0)
             if die then { th with acqDie := s.stamp + 1, acqPkg := max th.acqPkg pub.2 }
             else { th with hbUpto := s.nextId, acqDie := max th.acqDie pub.1, acqPkg := max th.acqPkg pub.2 }) else th) ∧
      ((q p ≠ [] ∨ ¬boxAt (pt p) st p) → ∃ t m, exec i s = .next t ∧
        Moves (set fun p => if take then { p with takeQ := p.takeQ ++ [m] } else { p with claimQ := p.claimQ ++ [m] }) t x noReg
          [⟨s.nextId, dstNames d 1, .pen, []⟩] (fun l th =>
            if l ∈ x.act then { th with st := .pen die num take, waitSince := (s.die (c / 8)).ticks } else th) ∧
        ∃ u k, m = .threads c w x.act s.nextId u k ∧ (d ≠ .discard → dstNames d 1 = [if u then .w k else .v k]))
    takes (.pclaim h d a) .empty .claimed Pen.cp Pen.claimQ false
      (fun p => { p with cp := (p.cp + 1) % p.boxes.length, claims := p.claims ++ [p.cp] }) ∧
    takes (.ptake h d a) .full .taken Pen.tp Pen.takeQ true
      (fun p => { p with tp := (p.tp + 1) % p.boxes.length, order := p.order ++ [p.tp] })) ∧
    (let i : Instr := if fill then .pfill h a e else .pfree h a e
     let marked : State := set fun p => { p with boxes := lmod p.boxes b fun q => { q with pend := true } }
     let newest (f : Thread → Nat) : Nat := (x.act.filterMap fun m => (wp.thread? m).map f).foldl max 0
     Issues s i h c w wp pc → x.int e 0 l → (x.val e 0 l).toNat = b →
       (if fill then p.boxes[b]? = some ⟨.claimed, false, false⟩ else boxAt b .taken p) → ∃ t, exec i s = .next t ∧
       Lands { marked with penRels := s.penRels ++ [⟨die, c, wp.launch, num, b, fill, x.act.map x.ref, s.nextId,
         (newest Thread.acqDie, newest Thread.acqPkg)⟩] } t x noReg []) ∧
    (Issues s (.pquery h d a) h c w wp pc → p.boxes.length ≤ 64 → ∃ t, exec (.pquery h d a) s = .next t ∧
      Tells s t x d 1 fun _ => [⟨(0 : BitVec 2) ++ BitVec.ofBool (decide (p.takeQ ≠ [])) ++ BitVec.ofBool (decide (p.claimQ ≠ [])) ++ count .claimed ++
        count .full ++ count .empty ++ BitVec.ofNat 7 p.boxes.length, .i32⟩]) ∧
    (∀ r, s.penRels = [r] → r.die = die → r.core = c → r.launch = wp.launch → r.pen = num → r.box = b → r.fill = fill → s.accs = [] →
      b < p.boxes.length → p.claimQ = [] →
      let done (p : Pen) : Pen :=
        { p with boxes := lmod p.boxes b fun _ => ⟨if fill then .full else .empty, false, false⟩,
                 order := if fill then p.order else p.order.filter (fun k => k ≠ b), claims := p.claims.filter (fun k => k ≠ b),
                 pub := msetD (0, 0) p.pub b r.acqs }
      (p.takeQ = [] → exec (.penBoxReleaseComplete wp.launch (if die then 64 + c / 8 else c) num b) s = .next { set done with penRels := [] }) ∧
      ∀ ls id u k rest, p.takeQ = .threads c w ls id u k :: rest → fill = true → p.tp = b →
        (p.boxes.length = 1 ∨ ¬boxAt ((b + 1) % p.boxes.length) .full p) → ∃ t wp', exec (.penBoxReleaseComplete wp.launch (if die then 64 + c / 8 else c) num b) s = .next t ∧
          t.warp? c w = some wp' ∧ (∀ l ∈ ls, ∀ th, wp.thread? l = some th → th.st ≠ .exited →
            (wp'.thread? l).map (fun th => (th.st, th.pc)) = some (.ready, th.pc)) ∧
          (∀ q ∈ wp.pend, q.id = id → q.names ≠ [] → ∃ q' ∈ wp'.pend, q'.id = id ∧ q'.src = .ready ∧
            q'.vals.map (fun v => (v.name, v.lane, v.reg)) = (if u then [(.w k, 0, ⟨BitVec.ofNat 32 b, .i32⟩)] else
              ls.map fun l => (.v k, l, ⟨BitVec.ofNat 32 b, .i32⟩))) ∧
          ∃ p', (t.pensOf c wp.launch die)[num]? = some p' ∧ boxAt b .taken p' ∧ p'.tp = (b + 1) % p.boxes.length ∧ p'.takeQ = rest)) ∧
  (let bad (i : Instr) (cond : Iss → State → Prop) : Prop := Traps i 0x05 (fun _ _ => 0) fun x s _ => cond x s
   let named (x : Iss) (s : State) (init : Bool) : Prop := ∃ l, x.act.head? = some l ∧ x.int a 0 l ∧
     ((x.val a 0 l).toNat ≥ 512 ∨ ∀ p, (s.pensOf x.core x.w.launch ((x.val a 0 l).getLsbD 8))[(x.val a 0 l).toNat % 256]? = some p → init = false ∧ p.boxes = [])
   let two (f : Iss → State → Prop) (x : Iss) (s : State) : Prop := f x s ∧ ∃ l, x.act.head? = some l ∧ x.int e 0 l
   bad (.pinit h a e) (two fun x s => named x s true) ∧ bad (.pclaim h d a) (fun x s => named x s false) ∧
   bad (.ptake h d a) (fun x s => named x s false) ∧ bad (.pquery h d a) (fun x s => named x s false) ∧
   let box (ok : Nat → Pen → Prop) (init : Bool) (x : Iss) (s : State) : Prop := ∃ l p, x.act.head? = some l ∧ x.int a 0 l ∧ x.int e 0 l ∧
     (x.val a 0 l).toNat < 512 ∧ (s.pensOf x.core x.w.launch ((x.val a 0 l).getLsbD 8))[(x.val a 0 l).toNat % 256]? = some p ∧
     (init = true ∨ p.boxes ≠ []) ∧ ¬ok (x.val e 0 l).toNat p
   bad (.pfill h a e) (two fun x s => named x s false) ∧ bad (.pfree h a e) (two fun x s => named x s false) ∧
   bad (.pfill h a e) (box (fun b p => p.boxes[b]? = some ⟨.claimed, false, false⟩) false) ∧
   bad (.pfree h a e) (box (fun b p => ∃ m, p.boxes[b]? = some ⟨.taken, m, false⟩) false) ∧
   bad (.pinit h a e) (box (fun b p => 1 ≤ b ∧ b ≤ 64 ∧ p.claimQ = [] ∧ p.takeQ = [] ∧ ∀ q ∈ p.boxes, q.bound = false ∧ q.pend = false) true))

/-- R231, R232, R233, R237, R242, R243: an idle engine takes the oldest command of the next queue; MZERO clears its rows and gives them their tag,
TWR writes its rows, a POISON one stays, and both complete. R150, R151, R152, R237: the end of a block adds it to each row of an MMA, rounded
as its format says, and the last sets the rows' tag. R237: a row with a marked sector is POISON instead. R240: a mismatch is counted, or, with
RERUN, a second one makes the rows POISON. R238: the operands' box is freed, or PENERR set. R287: a complete command is counted. (Of an
engine that one context uses, and a warp whose threads wait for no MATRIX count.) -/
def Obligations.MatrixEngine : Prop := ∀ (s : State) (c g last : Nat) (m : MCmd) (wp : Warp) (v : View) (os : List Outst),
  let k := s.core c
  let e := k.ctx.mat
  c < 64 → s.cores.length = 64 → k.preempt = none → (∀ y ∈ k.ctxs.drop 1, y.mat.cur = none) → s.alone c m.launch →
  s.warp? c m.warp = some wp → wp.launch = m.launch → wp.matOut = ⟨m.id, false, false⟩ :: os → (∀ o ∈ os, o.done = false ∧ o.cmd ≠ m.id) →
  (∀ th ∈ wp.threads, ∀ n p, th.st ≠ .engine .matrix n p) → mget? k.ctx.views m.launch = some v → m.tile < v.tiles.length →
  let done (t : State) : Prop := OnlyCore s t c ∧ (t.core c).ctx.mat.cur = none ∧ t.warp? c m.warp = some { wp with matOut := os }
  let view (t : State) (f : View → Prop) : Prop := ∃ v', mget? (t.core c).ctx.views m.launch = some v' ∧ f v' ∧
    v'.slots.map (fun q => (q.bytes, q.side, q.marks)) = v.slots.map fun q => (q.bytes, q.side, q.marks)
  -- the elements and the tags of the rows of the command's tile register, and all others as they were
  let tiles (t : State) (cell : Nat → Nat → Word → Prop) (tag : Nat → Tag) (rows : List Nat) : Prop := view t fun v' =>
    (∀ r ∈ rows, (∀ q < 256, cell r q (v'.cell m.tile r q)) ∧ v'.rowTag m.tile r = tag r) ∧
    ∀ n r, (n ≠ m.tile ∨ r ∉ rows) → (∀ q < 256, v'.cell n r q = v.cell n r q) ∧ v'.rowTag n r = v.rowTag n r
  let old := v.cell m.tile
  let counts (t : State) (n : Nat) : Prop := (t.core c).poisonCnt = k.poisonCnt + BitVec.ofNat 32 n
  (∀ rest, risingFrom 0 e.queues = true → e.cur = none → e.last = last → mget? e.queues g = some (m :: rest) →
    k.ctx.behind m = false →
    (∀ g' q, mget? e.queues g' = some q → q ≠ [] → if last < g then last < g' → g ≤ g' else g' ≤ last ∧ g ≤ g') →
    ∃ t, exec (.matrixEngineServe c) s = .next t ∧ (t.core c).ctx.mat.last = g ∧
      (∀ q, mget (t.core c).ctx.mat.queues q [] = if q = g then rest else mget e.queues q []) ∧
      match m.kind with
      | .mma .. => OnlyCore s t c ∧ (t.core c).ctx.mat.cur = some (g, m) ∧ (t.core c).ctx.mat.freed = false ∧
          (t.core c).ctx.views = k.ctx.views ∧ (t.core c).ctx.warps = k.ctx.warps
      | .mzero rows int => done t ∧ tiles t (fun _ _ z => z = 0) (fun _ => if int then .i32 else .fp32) rows
      | .twr cb rs => cb < 32 → (rs.map Prod.fst).Nodup → (∀ p ∈ rs, p.2.1.length = 8 ∧ ((∃ q ∈ p.2.1, q.tag = .poison) ∨
          (∀ q ∈ p.2.1, q.tag = .fp32) ∨ ∀ q ∈ p.2.1, q.tag = .i32)) → done t ∧
          counts t (rs.filter fun p => p.2.1.any fun q => q.tag == .poison).length ∧
          (view t fun v' => ∀ n r, (n ≠ m.tile ∨ r ∉ rs.map Prod.fst) → (∀ q < 256, v'.cell n r q = v.cell n r q) ∧ v'.rowTag n r = v.rowTag n r) ∧
          ∀ p ∈ rs, view t fun v' =>
            let dead : Prop := (∃ q ∈ p.2.1, q.tag = .poison) ∨ v.rowTag m.tile p.1 = .poison
            (dead → v'.rowTag m.tile p.1 = .poison ∧ ∀ q < 256, v'.cell m.tile p.1 q = old p.1 q) ∧
            (¬dead → (∀ q ∈ p.2.1, v'.rowTag m.tile p.1 = q.tag) ∧ ∀ q < 256, v'.cell m.tile p.1 q =
              if 8 * cb ≤ q ∧ q < 8 * cb + 8 then (lget p.2.1 (q - 8 * cb) .zero).val else old p.1 q)) ∧
  (∀ ma mb fa fb sp rows pf pen gran mode mis, e.cur = some (g, m) → m.kind = .mma ma mb fa fb sp rows pf pen gran mode → rows.Nodup → rows ≠ [] →
    let blocks := kTile fa fb sp / 32
    let wide : Bool := kTile fa fb sp == 256
    -- some sum of the block is checked: of a block-scaled format, one without a scale of 0xFF and with finite products
    let checked : Prop := fa = .int8 ∨ fa ∈ [MFmt.e2m1, .e4m3, .e5m2] ∧ ∃ r ∈ rows, ∃ q < 256,
      (v.slot ma).scaleAt wide r m.block ≠ 255 ∧ (v.slot (mb + q / 128)).scaleAt wide (q % 128) m.block ≠ 255 ∧
      ∀ i < 32, ∃ u, (((v.slot ma).narrow fa wide r m.block (32 * m.block + i)).mul
        ((v.slot (mb + q / 128)).narrow fb wide (q % 128) m.block (32 * m.block + i))).toRat = some u
    let A (r i : Nat) : Nat := (v.slot ma).elem fa r (32 * m.block + i)
    let B (q i : Nat) : Nat := (v.slot (mb + q / 128)).elem fb (q % 128) (32 * m.block + i)
    let adds (r q : Nat) (z : Word) : Prop := match fa with
      | .int8 => z = old r q + BitVec.ofInt 32 ((List.range 32).map fun i => (BitVec.ofNat 8 (A r i)).toInt * (BitVec.ofNat 8 (B q i)).toInt).sum
      | .fp32 => ∃ C : Nat → Nat, C 0 = (old r q).toNat ∧ z = BitVec.ofNat 32 (C 32) ∧ ∀ i < 32, C (i + 1) = FFmt.round .f32 .rn false
          (FVal.add false (FFmt.decode .f32 (C i)) ((FFmt.decode .f32 (A r i)).mul (FFmt.decode .f32 (B q i))))
      | .e2m1 | .e4m3 | .e5m2 =>
          let sa := (v.slot ma).scaleAt wide r m.block
          let sb := (v.slot (mb + q / 128)).scaleAt wide (q % 128) m.block
          let a (i : Nat) : FVal := (v.slot ma).narrow fa wide r m.block (32 * m.block + i)
          let b (i : Nat) : FVal := (v.slot (mb + q / 128)).narrow fb wide (q % 128) m.block (32 * m.block + i)
          (sa = 255 ∨ sb = 255 → z = 0x7FC00000) ∧
          (∀ x y : Nat → ℚ, sa ≠ 255 → sb ≠ 255 → (∀ i < 32, (a i).toRat = some (x i) ∧ (b i).toRat = some (y i)) →
            let sum : ℚ := ((List.range 32).map fun i => x i * y i).sum * (2 : ℚ) ^ ((sa + sb : Int) - 254)
            ∃ u : FVal, u.toRat = some sum ∧ (sum = 0 → u = .zero false) ∧
              z = BitVec.ofNat 32 (FFmt.round .f32 .rn false (FVal.add false (FFmt.decode .f32 (old r q).toNat) u)))
      | _ =>
          let f : FFmt := if fa = .bf16 then .bf16 else .f16
          ∃ C : Nat → Nat, C 0 = (old r q).toNat ∧ z = BitVec.ofNat 32 (C 4) ∧ ∀ j < 4,
            let terms := FFmt.decode .f32 (C j) :: (List.range 8).map fun i => (f.decode (A r (8 * j + i))).mul (f.decode (B q (8 * j + i)))
            ((∃ u ∈ terms, u.isNan = true) → C (j + 1) = 0x7FC00000) ∧
            ∀ (x : List ℚ) (E : Int), terms.map FVal.toRat = x.map some → (∀ y ∈ x, |y| < (2 : ℚ) ^ (E + 1)) → (∃ y ∈ x, (2 : ℚ) ^ E ≤ |y|) →
              (x.map (sticky (E - 40))).sum ≠ 0 → ∃ u : FVal, u.toRat = some (x.map (sticky (E - 40))).sum ∧ C (j + 1) = FFmt.round .f32 .rn false u
    let next (t : State) (out : List Nat) : Prop := OnlyCore s t c ∧ (t.core c).ctx.warps = k.ctx.warps ∧
      (t.core c).ctx.mat.cur = some (g, { m with block := m.block + 1, poisoned := out })
    (m.block < blocks → m.poisoned = [] → (∀ r ∈ rows, v.rowTag m.tile r ≠ .poison) →
      (∀ n ∈ [ma, mb, mb + 1], (v.slot n).marks = []) →
      ((mis = 0 ∨ mode = .off ∨ ¬checked ∨ mode = .rerun ∧ mis = 1) → ∃ t, exec (.mmaBlockEnd c mis) s = .next t ∧ next t [] ∧
        (t.core c).mismatch = k.mismatch ∧ counts t 0 ∧
        tiles t adds (fun r => if m.block + 1 = blocks then (if fa = .int8 then .i32 else .fp32) else v.rowTag m.tile r) rows) ∧
      (mode = .count → checked → 1 ≤ mis → ∃ t, exec (.mmaBlockEnd c mis) s = .next t ∧ next t [] ∧ (t.core c).mismatch = k.mismatch + 1 ∧ counts t 0) ∧
      (mode = .rerun → checked → 2 ≤ mis → ∃ t, exec (.mmaBlockEnd c mis) s = .next t ∧ next t rows ∧
        (t.core c).mismatch = k.mismatch + 1 ∧ counts t rows.length ∧ tiles t (fun r q z => z = old r q) (fun _ => .poison) rows)) ∧
    (m.block = 0 → m.poisoned = [] → 0 ∈ (v.slot mb).marks → mis = 0 → ∃ t, exec (.mmaBlockEnd c mis) s = .next t ∧
      counts t rows.length ∧ tiles t (fun r q z => z = old r q) (fun _ => .poison) rows) ∧
    (blocks ≤ m.block → pf = true → e.freed = false → pen < 32 → (∃ q, s.launch? m.launch = some q ∧ q.ended = none) →
      (∀ p b, v.pens[pen]? = some p → p.order.head? = some b → p.boxes[b]? = some ⟨.taken, false, false⟩ → p.claimQ = [] → p.takeQ = [] →
        ∃ t, exec (.mmaPenFree c) s = .next t ∧ OnlyCore s t c ∧ (t.core c).ctx.mat.freed = true ∧ (t.core c).ctx.mat.cur = some (g, m) ∧
          mget? (t.core c).ctx.views m.launch = some { v with pens := lmod v.pens pen fun p =>
            { p with boxes := lmod p.boxes b fun _ => ⟨.empty, false, false⟩, order := p.order.filter (fun k => k ≠ b),
                     claims := p.claims.filter (fun k => k ≠ b), pub := msetD (0, 0) p.pub b (0, 0) } }) ∧
      ((∀ p ∈ v.pens[pen]?, p.boxes = [] ∨ ∀ b ∈ p.order, ∀ q, p.boxes[b]? = some q → q.st ≠ .taken ∨ q.pend = true) →
        g / 2 ^ 64 = allHandle → ∃ t, exec (.mmaPenFree c) s = .next t ∧ OnlyCore s t c ∧ (t.core c).ctx.mat.freed = true ∧
          mget? (t.core c).ctx.views m.launch = some { v with allPenErr := true })) ∧
    (blocks ≤ m.block → (pf = true → e.freed = true) → ∃ t, exec (.mmaComplete c) s = .next t ∧ done t ∧ view t fun v' =>
      ∀ n r q, q < 256 → v'.cell n r q = v.cell n r q ∧ v'.rowTag n r = v.rowTag n r))

/-! ### Stack cores -/

/-- R370, R371, R377, R378: each scalar instruction writes its result to G[d], on 64 bits modulo 2^64; shifts take the count modulo 64, SHL
and SHR fill with zeros, SAR with the sign; SLT and SLTU write 1 or 0; ADDI extends its constant with its sign, ORI with zeros, and LUI
shifts it by 16 and then extends its sign. The result is marked if a source is. g0 reads zero and takes nothing. -/
def Obligations.StackScalars : Prop := ∀ (d a b : CReg) (imm : BitVec 16) (n : Fin 64),
  let two (i : Instr) (f : Dword → Dword → Dword) : Prop :=
    Scalar i d (fun _ => True) (fun _ _ x => f (x.G a) (x.G b)) fun x => x.gmark a || x.gmark b
  let one (i : Instr) (f : Dword → Dword) : Prop := Scalar i d (fun _ => True) (fun _ _ x => f (x.G a)) fun x => x.gmark a
  two (.add d a b) (fun p q => BitVec.ofNat 64 (p.toNat + q.toNat)) ∧
  two (.sub d a b) (fun p q => BitVec.ofInt 64 (p.toInt - q.toInt)) ∧
  two (.mul d a b) (fun p q => BitVec.ofNat 64 (p.toNat * q.toNat)) ∧
  two (.crevenAnd d a b) (fun p q => p &&& q) ∧ two (.crevenOr d a b) (fun p q => p ||| q) ∧ two (.crevenXor d a b) (fun p q => p ^^^ q) ∧
  two (.crevenShl d a b) (fun p q => BitVec.ofNat 64 (p.toNat * 2 ^ (q.toNat % 64))) ∧
  two (.crevenShr d a b) (fun p q => BitVec.ofNat 64 (p.toNat / 2 ^ (q.toNat % 64))) ∧
  two (.crevenSar d a b) (fun p q => BitVec.ofInt 64 (p.toInt / 2 ^ (q.toNat % 64))) ∧
  two (.slt d a b) (fun p q => if p.toInt < q.toInt then 1 else 0) ∧ two (.sltu d a b) (fun p q => if p.toNat < q.toNat then 1 else 0) ∧
  one (.addi d a imm) (fun p => BitVec.ofInt 64 (p.toInt + imm.toInt)) ∧
  one (.shli d a n) (fun p => BitVec.ofNat 64 (p.toNat * 2 ^ n.val)) ∧ one (.shri d a n) (fun p => BitVec.ofNat 64 (p.toNat / 2 ^ n.val)) ∧
  one (.sari d a n) (fun p => BitVec.ofInt 64 (p.toInt / 2 ^ n.val)) ∧
  one (.ori d a imm) (fun p => p ||| BitVec.ofNat 64 imm.toNat) ∧
  Scalar (.lui d imm) d (fun _ => True) (fun _ _ _ => BitVec.ofInt 64 (imm.toInt * 2 ^ 16)) fun _ => false

/-- R371, R374, R375, R379: BEQ, BNE, BLT and BGE go to PC + 4 · off where their signed comparison holds, and on by one word where not; JAL
and JALR write PC + 4 and go to PC + 4 · off and to G[a], as it was before the write; a JALR target that is no multiple of 4, or has a bit
of 63 to 55, faults on the JALR, and a marked operand ends the instance as poisoned. HALT waits while an access of the instance is out,
then records its stores' failures and ends the instance, which leaves its stack core, and, of a U-level launch, counts as one less. -/
def Obligations.StackBranches : Prop :=
  (∀ (a b d : CReg) (off : BitVec 16) (far : BitVec 21),
    let goal (x : Inst) (o : Int) : Nat := (BitVec.ofInt 64 ((x.pc : Int) + 4 * o)).toNat
    let branch (i : Instr) (c : Int → Int → Prop) : Prop :=
      Goes i (fun x => x.gmark a = false ∧ x.gmark b = false ∧ c (x.G a).toInt (x.G b).toInt) (fun x => goal x off.toInt) ∧
      Goes i (fun x => x.gmark a = false ∧ x.gmark b = false ∧ ¬c (x.G a).toInt (x.G b).toInt) (fun x => (x.pc + 4) % 2 ^ 64) ∧
      SEnds i 0 fun _ _ x => x.gmark a = true ∨ x.gmark b = true
    let links (i : Instr) (ok : Inst → Prop) (pc : Inst → Nat) : Prop := ∀ (s : State) (n : Nat) (x : Inst), SIssues s i n x → ok x →
      ∃ t y, exec i s = .next t ∧ SGoes s t n y ∧ y.took { x with pc := pc x } d (BitVec.ofNat 64 (x.pc + 4)) false
    branch (.beq a b off) (fun p q => p = q) ∧ branch (.bne a b off) (fun p q => p ≠ q) ∧
    branch (.blt a b off) (fun p q => p < q) ∧ branch (.bge a b off) (fun p q => q ≤ p) ∧
    links (.jal d far) (fun _ => True) (fun x => goal x far.toInt) ∧
    links (.jalr d a) (fun x => x.gmark a = false ∧ (x.G a).toNat % 4 = 0 ∧ (x.G a).toNat < 2 ^ 55) (fun x => (x.G a).toNat) ∧
    SEnds (.jalr d a) 0x04 (fun _ _ x => x.gmark a = false ∧ (x.G a).toNat % 4 ≠ 0) ∧
    SEnds (.jalr d a) 0x05 (fun _ _ x => x.gmark a = false ∧ (x.G a).toNat % 4 = 0 ∧ 2 ^ 55 ≤ (x.G a).toNat) ∧
    SEnds (.jalr d a) 0 fun _ _ x => x.gmark a = true) ∧
  ∀ (s : State) (n : Nat) (x : Inst), SIssues s .halt n x →
    ((∃ a ∈ s.accs, a.who = .score n ∧ a.performed = false) → ∃ t, exec .halt s = .next t ∧ SGoes s t n x) ∧
    ((∀ a ∈ s.accs, a.who = .score n → a.performed = true) → ∃ t, exec .halt s = .next t ∧ (t.score n).run = none ∧
      (∀ k, k ≠ n → t.score k = s.score k) ∧
      (t.mem, t.marks, t.gaps, t.dies, t.cores, t.stks, t.rows, t.accs, t.ctl, t.colls) =
        (s.mem, s.marks, s.gaps, s.dies, s.cores, s.stks, s.rows, s.accs, s.ctl, s.colls) ∧
      (∀ (ch : Nat) (r : RSlot), r ∈ mget (t.score n).channels ch [] → r.owner ≠ x.started ∨ ∃ y ∈ (s.score n).parked, y.started = x.started) ∧
      ∀ l, s.launch? x.launch = some l → x.sLevel = false → ∃ l', t.launch? x.launch = some l' ∧ l'.live = l.live - 1 ∧
        (l.ended = none → l.grid ≤ l.admitted → l.live ≤ 1 → l'.ended = some (if l.poisoned then .poisoned else .ok, 0)) ∧
        (l.ended ≠ none ∨ l.admitted < l.grid ∨ 1 < l.live → l'.ended = l.ended))

/-- R371, R376, R380, R397: RDS gives the special register of its code, unmarked; WRS writes $rerr, and every other code raises E_ILLEGAL;
SVR and SVW read and write the registers of the optical port, at S level only: a U-level instance raises E_PRIV, and a code that is none
E_ILLEGAL; a marked value ends the instance as poisoned. (SVR of a measurement register, whose value the spec does not give, stands in
the fibre's last measurement.) -/
def Obligations.StackSystem : Prop := ∀ (d a : CReg) (code : BitVec 8) (p : BitVec 12),
  let num (k : Nat) : Dword := BitVec.ofNat 64 k
  let special (s : State) (n : Nat) (x : Inst) : Dword := match code.toNat with
    | 0x00 => num n
    | 0x01 => num x.idx
    | 0x02 => num x.ninst
    | 0x03 => x.arg
    | 0x04 => num (s.stack (n / 4)).scCycles
    | 0x05 => num (s.stack (n / 4)).ticks
    | 0x06 => num ((s.score n).newHead x.pc (.rds d code) 0).rack
    | 0x07 => num (x.rerrCount * 256 + x.rerrStat)
    | 0x08 => num x.asid
    | 0x09 => num x.part
    | _ => if x.sLevel then 1 else 0
  let c := p.toNat
  let known : Prop := c = 0 ∨ c = 1 ∨ (16 ≤ c ∧ c < 22) ∨ (24 ≤ c ∧ c < 30) ∨ (32 ≤ c ∧ c < 38) ∨ (40 ≤ c ∧ c < 46) ∨ c = 48
  let writes (ok : Prop) (f : State → Nat → Nat → State) : Prop := ok → ∀ (s : State) (n : Nat) (x : Inst), SIssues s (.svw a p) n x →
    x.sLevel = true → x.gmark a = false → ∃ t, exec (.svw a p) s = .next t ∧ SGoes (f s (n / 4) (x.G a).toNat) t n x.on
  let word (v : Nat) : Word := BitVec.ofNat 32 v
  (code.toNat ≤ 10 → ∀ (s : State) (n : Nat) (x : Inst), SIssues s (.rds d code) n x →
    ∃ t y, exec (.rds d code) s = .next t ∧ SGoes s t n y ∧ y.took x.on d (special s n x) false) ∧
  (10 < code.toNat → SEnds (.rds d code) 0x01 fun _ _ _ => True) ∧
  (code.toNat = 7 → ∀ (s : State) (n : Nat) (x : Inst), SIssues s (.wrs a code) n x → x.gmark a = false → ∃ t, exec (.wrs a code) s = .next t ∧
    SGoes s t n { x.on with rerrCount := ((x.G a).extractLsb' 8 8).toNat, rerrStat := ((x.G a).extractLsb' 0 4).toNat }) ∧
  (code.toNat = 7 → SEnds (.wrs a code) 0 fun _ _ x => x.gmark a = true) ∧
  (code.toNat ≠ 7 → SEnds (.wrs a code) 0x01 fun _ _ _ => True) ∧
  (∀ (v : Stack → Nat), (c = 0 → v = fun k => laserCode k.laserHi * 4096 + laserCode k.laserLo * 1024 + k.lol) → (c = 1 → v = Stack.opevt) →
    (∀ f, c = 16 + f → f < 6 → v = fun k => (lget k.live f 0).toNat) → (∀ f, c = 24 + f → f < 6 → v = fun k => (lget k.laneen f 0).toNat) →
    (∀ f, c = 32 + f → f < 6 → v = fun k => (lget k.heat f 0).toNat) → (c = 48 → v = fun k => (if k.hiEn then 2 else 0) + if k.loEn then 1 else 0) →
    known → ¬(40 ≤ c ∧ c < 46) → Scalar (.svr d p) d (fun x => x.sLevel = true) (fun s n _ => num (v (s.stack (n / 4)))) fun _ => false) ∧
  (∀ f, c = 40 + f → f < 6 → ∀ (s : State) (n : Nat) (x : Inst), SIssues s (.svr d p) n x → x.sLevel = true →
    ∃ (t : State) (y : Inst) (m : Half16), exec (.svr d p) s = .next t ∧ SGoes (s.setStack (n / 4) fun k => { k with mpd := lmod k.mpd f fun _ => m }) t n y ∧
      (bitAt (s.stack (n / 4)).lol f = true → m = 0x8000) ∧
      ((s.stack (n / 4)).mpd.length = 6 → n < 4 * s.stks.length → y.took x.on d (num m.toNat) false)) ∧
  writes (c = 1) (fun s k v => s.setStack k fun t => { t with opevt := t.opevt &&& (255 - v % 256) }) ∧
  (∀ f, f < 6 → writes (c = 24 + f) (fun s k v => s.writeLaneen k f (word v)) ∧
    writes (c = 32 + f) (fun s k v => s.setStack k fun t => { t with heat := lmod t.heat f fun _ => BitVec.ofNat 12 v })) ∧
  writes (c = 48) (fun s k v => s.writeLaserctl k v) ∧
  writes (c = 0 ∨ (16 ≤ c ∧ c < 22) ∨ (40 ≤ c ∧ c < 46)) (fun s _ _ => s) ∧
  (¬known → SEnds (.svr d p) 0x01 (fun _ _ _ => True) ∧ SEnds (.svw a p) 0x01 fun _ _ _ => True) ∧
  (known → SEnds (.svr d p) 0x02 (fun _ _ x => x.sLevel = false) ∧ SEnds (.svw a p) 0x02 (fun _ _ x => x.sLevel = false) ∧
    SEnds (.svw a p) 0 fun _ _ x => x.sLevel = true ∧ x.gmark a = true)

/-- R371, R381 to R385: LDG, STG, AMO, SWADD and SWWAIT each make one access at their address, which passes the checks of R382; a load's
and an AMO's register waits for it; a store takes the low bytes of G[d] with its mark; SWADD adds as a release, SWWAIT asks as an
acquire and holds its instance where it is. A marked address ends the instance as poisoned, a thirty-third access waits, a misaligned
address raises E_ALIGN, one of 2^55 or more E_INVALID, a page of reach CORE or DIE E_PERM. FENCE and FENCE.SYS wait for what precedes,
or end at once: the failures of earlier stores go into $rerr, and FENCE.SYS records each failure since the last once more and gives G[d]
the first. (With no other fence in flight.) R371, R381: LDL reads its loft bytes into G[d], zero-extended, marked, and counted, if its
loft word is; STL writes the low bytes of G[d], which mark their word, or, when they are all of it, clear it. A marked address, a
misaligned one and one past the loft end the instance. -/
def Obligations.StackMemory : Prop :=
  (∀ (d a b : CReg) (w : CWidth) (c : Cls) (off : BitVec 12) (op : AmoOp) (wide u : Bool),
  let one (i : Instr) (o : Int) (size : Nat) (k : XKind) (cls : Cls) (d? : Option CReg) (stays : Bool) (kind : State → Inst → AKind) : Prop :=
    (∀ (s u : State) (n : Nat) (x : Inst) (leaf pa : Nat), SIssues s i n x → x.gmark a = false → s.roomFor n 1 → SMaps s u n x (x.addr a o) size k leaf pa →
      ∃ t, exec i s = .next t ∧ SAsked u t n (match d? with
        | some d => x.on.owes d s.nextId
        | none => if stays then x else x.on) [x.asks s n (kind s x) cls (x.addr a o) leaf pa size]) ∧
    (∀ (s : State) (n : Nat) (x : Inst), SIssues s i n x → x.gmark a = false →
      32 ≤ (s.accs.filter fun a => a.performed = false ∧ a.isFence = false ∧ a.who = .score n).length → ∃ t, exec i s = .next t ∧ SGoes s t n x) ∧
    SEnds i 0 (fun _ _ x => x.gmark a = true) ∧
    SEnds i 0x04 (fun s n x => x.gmark a = false ∧ s.roomFor n 1 ∧ x.addr a o % size ≠ 0) ∧
    SEnds i 0x05 (fun s n x => x.gmark a = false ∧ s.roomFor n 1 ∧ x.addr a o % size = 0 ∧ 2 ^ 55 ≤ x.addr a o) ∧
    SEnds i 0x07 (fun s n x => x.gmark a = false ∧ s.roomFor n 1 ∧ x.addr a o % size = 0 ∧ x.addr a o < 2 ^ 55 ∧
      ∃ u leaf pa, s.translate (.score n) x.asid (x.addr a o) k x.sec = (u, .ok leaf pa) ∧ pteReach leaf < 2 ∧ { u with scores := s.scores } = s)
  let bytes : Nat := match w with | .b8 => 1 | .b16 => 2 | .b32 => 4 | .b64 => 8
  let m : Nat := if wide then 8 else 4
  one (.ldg d a w c off) (off.toInt * bytes) bytes .load c (some d) false (fun s _ => .cLoad d.val false [] bytes s.nextId) ∧
  one (.stg d a w c off) (off.toInt * bytes) bytes .store c none false
    (fun _ x => .store (x.low d bytes) (List.replicate bytes (x.gmark d))) ∧
  one (.amo d a b op wide c u) 0 m .atomic c (some d) false (fun _ x => .cAmo d.val op u ((x.G b).toNat % 2 ^ (8 * m)) ((x.G d).toNat % 2 ^ (8 * m))
    (x.gmark b || decide (op = .cas) && x.gmark d)) ∧
  one (.swadd a b) 0 16 .store .rel none false (fun _ x => .swAdd ((x.G b).toNat % 2 ^ 32) (x.gmark b)) ∧
  one (.swwait a b) 0 16 .load .acq none true (fun _ x => .swWait ((x.G b).toNat % 2 ^ 32)) ∧
  ∀ (s : State) (n : Nat) (x : Inst) (sys : Bool), let i : Instr := if sys then .crevenFenceSys d else .crevenFence
    SIssues s i n x → (∀ f ∈ s.accs, f.isFence = false ∧ f.id < s.nextId) →
    let after (x : Inst) (sys : Bool) : Inst :=
      let bad := (x.late ++ if sys then x.fails ++ x.late else []).filter fun st => st ≠ .ok
      { x with late := [], fails := if sys then [] else x.fails ++ x.late,
               rerrCount := if bad = [] then x.rerrCount else min 255 (x.rerrCount + bad.length),
               rerrStat := (bad.getLast?.map RStat.code).getD x.rerrStat }
    ((∃ f ∈ s.accs, f.who = .score n ∧ f.performed = false ∧ f.isPagein = false) → ∃ t, exec i s = .next t ∧
      SAsked s t n (if sys then (after x.on false).owes d s.nextId else after x.on false)
        [x.asks s n (.fence sys (if sys then d.val else 0)) .rlx 0 0 0 0]) ∧
    ((∀ f ∈ s.accs, f.who = .score n → f.performed = true) → (∀ p ∈ x.pendG, p.2 < s.nextId) →
      ∃ t y, exec i s = .next t ∧ SAsked { s with nextId := s.nextId + 1, stamp := s.stamp + 1 } t n y [] ∧
        if sys then y.took (after x.on true) d (BitVec.ofNat 64 ((((x.fails ++ x.late).find? fun st => st ≠ .ok).map RStat.code).getD 0)) false
        else y = after x.on false)) ∧
  (∀ (d a : CReg) (w : CWidth) (off : BitVec 12),
  let m : Nat := match w with | .b8 => 1 | .b16 => 2 | .b32 => 4 | .b64 => 8
  let ea (x : Inst) : Nat := x.addr a (off.toInt * m)
  let ok (x : Inst) : Prop := x.gmark a = false ∧ ea x % m = 0 ∧ ea x < 0x40000
  let ends (i : Instr) : Prop := SEnds i 0 (fun _ _ x => x.gmark a = true) ∧ SEnds i 0x04 (fun _ _ x => x.gmark a = false ∧ ea x % m ≠ 0) ∧
    SEnds i 0x05 fun _ _ x => x.gmark a = false ∧ ea x % m = 0 ∧ 0x40000 ≤ ea x
  (∀ (s : State) (n : Nat) (x : Inst), SIssues s (.ldl d a w off) n x → ok x → ∃ t y v, exec (.ldl d a w off) s = .next t ∧
    SGoes (if ea x / 8 ∈ x.loftm then s.setStack (n / 4) fun k => { k with poisonCnt := k.poisonCnt + 1 } else s) t n y ∧
    y.took x.on d v (decide (ea x / 8 ∈ x.loftm)) ∧ v.toNat < 2 ^ (8 * m) ∧ ∀ i < m, v.extractLsb' (8 * i) 8 = mget x.loft (ea x + i) 0) ∧
  (∀ (s : State) (n : Nat) (x : Inst), SIssues s (.stl d a w off) n x → ok x → ∃ t y, exec (.stl d a w off) s = .next t ∧ SGoes s t n y ∧
    y = { x.on with loft := y.loft, loftm := y.loftm } ∧
    (∀ k, mget y.loft k 0 = if ea x ≤ k ∧ k < ea x + m then (x.G d).extractLsb' (8 * (k - ea x)) 8 else mget x.loft k 0) ∧
    ∀ k, k ∈ y.loftm ↔ if k = ea x / 8 then x.gmark d = true ∨ (k ∈ x.loftm ∧ m ≠ 8) else k ∈ x.loftm) ∧
  ends (.ldl d a w off) ∧ ends (.stl d a w off))

/-- R371, R386, R389 to R392: each vector instruction writes its enabled elements: integers modulo 2^e, with signed minimum and maximum;
floats rounded once; VFMA fused, with H[d] as the addend; VCVT converts element to element, or one half; VSPLAT puts the low bits of
G[a]. VCMP gives K[d] the condition of each enabled element and 0 elsewhere; VEXTR and KGET write a scalar, KSET a mask. k0 cannot be
written: E_ILLEGAL; an element past the type's last is E_ILLEGAL; a marked mask source ends the instance. -/
def Obligations.StackVectors : Prop := ∀ (d a b : CReg) (k kd : KReg) (ty dt : CTy) (hi : Bool) (idx : Fin 32) (cc : Sys2Proof.ICond),
  let e := ctyBits ty
  let B (v : Nat) : BitVec e := BitVec.ofNat e v
  let writes (i : Instr) (ty : CTy) (on : Inst → Nat → Prop) (val : Inst → Nat → Nat) (mark : Inst → Nat → Bool) : Prop :=
    ∀ (s : State) (n : Nat) (x : Inst), SIssues s i n x → ∃ t y, exec i s = .next t ∧ SGoes s t n y ∧ y.vtook x.on d ty (on x) (val x) (mark x)
  let op (i : Instr) (fma : Bool) (int : BitVec e → BitVec e → BitVec e → BitVec e) (flt : FFmt → Nat → Nat → Nat → Nat) : Prop :=
    writes i ty (fun x => x.on? k ty) (fun x j => match ctyFmt ty with
      | some f => flt f (x.E a e j) (x.E b e j) (x.E d e j)
      | none => (int (B (x.E a e j)) (B (x.E b e j)) (B (x.E d e j))).toNat) fun x j => x.M a e j || x.M b e j || (fma && x.M d e j)
  let rn (f : FFmt) (v : FVal) : Nat := f.round .rn false v
  let holds (p q : Nat) : Prop := match ctyFmt ty with
    | some f => fcondHolds (match cc with | .eq => FCond.eq | .ne => .ne | .lt => .lt | .le => .le | .gt => .gt | .ge => .ge) (f.decode p) (f.decode q) = true
    | none => match cc with
      | .eq => p = q | .ne => p ≠ q | .lt => (B p).toInt < (B q).toInt | .le => (B p).toInt ≤ (B q).toInt
      | .gt => (B q).toInt < (B p).toInt | .ge => (B q).toInt ≤ (B p).toInt
  let lo : Nat := if hi then (if e = 2 * ctyBits dt then ctyN ty else ctyN dt) else 0
  let q (j : Nat) : Nat := if e = 2 * ctyBits dt then j - lo else if ctyBits dt = 2 * e then j + lo else j
  let conv (q : Nat) : Nat :=
    let v : FVal := match ctyFmt ty with
      | some f => f.decode q
      | none => .fin (decide ((B q).toInt < 0)) (B q).toInt.natAbs 0
    match ctyFmt dt with
    | some f => rn f v
    | none => toIntFmt (ctyBits dt) false .rn v
  op (.vadd d a b k ty) false (fun x y _ => x + y) (fun f x y _ => rn f (FVal.add false (f.decode x) (f.decode y))) ∧
  op (.vsub d a b k ty) false (fun x y _ => x - y) (fun f x y _ => rn f (FVal.add false (f.decode x) (f.decode y).neg)) ∧
  op (.vmul d a b k ty) false (fun x y _ => x * y) (fun f x y _ => rn f (FVal.mul (f.decode x) (f.decode y))) ∧
  op (.vmin d a b k ty) false (fun x y _ => if y.toInt < x.toInt then y else x) (fun f x y _ => minMaxCode f false false x y) ∧
  op (.vmax d a b k ty) false (fun x y _ => if x.toInt < y.toInt then y else x) (fun f x y _ => minMaxCode f true false x y) ∧
  op (.vfma d a b k ty) true (fun x y z => x * y + z)
    (fun f x y z => rn f (FVal.add false (FVal.mul (f.decode x) (f.decode y)) (f.decode z))) ∧
  op (.vand d a b k ty) false (fun x y _ => x &&& y) (fun _ x y _ => x &&& y) ∧
  op (.vor d a b k ty) false (fun x y _ => x ||| y) (fun _ x y _ => x ||| y) ∧
  op (.vxor d a b k ty) false (fun x y _ => x ^^^ y) (fun _ x y _ => x ^^^ y) ∧
  (kd ≠ 0 → SEnds (.vcmp kd a b k ty cc) 0 fun _ _ x => ∃ j, x.on? k ty j ∧ (x.M a e j = true ∨ x.M b e j = true)) ∧
  (∀ (s : State) (n : Nat) (x : Inst), kd ≠ 0 → SIssues s (.vcmp kd a b k ty cc) n x → (∀ j, x.on? k ty j → x.M a e j = false ∧ x.M b e j = false) → ∃ t y, exec (.vcmp kd a b k ty cc) s = .next t ∧
    SGoes s t n y ∧ y = { x.on with k := y.k } ∧ (∀ r : KReg, r ≠ kd → y.kv r = x.kv r) ∧ y.kv kd < 2 ^ 64 ∧
    ∀ j < 64, (y.kv kd).testBit j = true ↔ x.on? k ty j ∧ holds (x.E a e j) (x.E b e j)) ∧
  (kd = 0 → SEnds (.vcmp kd a b k ty cc) 0x01 (fun _ _ _ => True) ∧ SEnds (.kset kd a) 0x01 fun _ _ _ => True) ∧
  (e = ctyBits dt ∨ e = 2 * ctyBits dt ∨ ctyBits dt = 2 * e → ∀ (s : State) (n : Nat) (x : Inst), SIssues s (.vcvt d a k dt ty hi) n x →
    ∃ t y, exec (.vcvt d a k dt ty hi) s = .next t ∧ SGoes s t n y ∧
      y.vtook x.on d dt (fun j => x.on? k dt j ∧ (e = 2 * ctyBits dt → lo ≤ j) ∧ q j < ctyN ty) (fun j => conv (x.E a e (q j))) fun j => x.M a e (q j)) ∧
  writes (.vsplat d a k ty) ty (fun x => x.on? k ty) (fun x _ => (x.G a).toNat) (fun x _ => x.gmark a) ∧
  (idx.val < ctyN ty → Scalar (.vextr d a idx ty) d (fun _ => True) (fun _ _ x => BitVec.ofNat 64 (x.E a e idx.val)) fun x => x.M a e idx.val) ∧
  (ctyN ty ≤ idx.val → SEnds (.vextr d a idx ty) 0x01 fun _ _ _ => True) ∧
  (∀ (s : State) (n : Nat) (x : Inst), kd ≠ 0 → SIssues s (.kset kd a) n x → x.gmark a = false → ∃ t y, exec (.kset kd a) s = .next t ∧
    SGoes s t n y ∧ y = { x.on with k := y.k } ∧ ∀ r : KReg, y.kv r = if r = kd then (x.G a).toNat else x.kv r) ∧
  (kd ≠ 0 → SEnds (.kset kd a) 0 fun _ _ x => x.gmark a = true) ∧
  Scalar (.kget d kd) d (fun _ => True) (fun _ _ x => if kd = 0 then BitVec.allOnes 64 else BitVec.ofNat 64 (x.kv kd)) fun _ => false

/-- R371, R386, R387: VLD and VST of the loft move the bytes of the enabled elements of their 64, with their marks; of global memory they
ask for the chunks of 16 bytes that hold enabled elements, a sector of 32 bytes that VST writes whole as one store. Marks of chunks that a
load will write whole go at once; the register waits. With no enabled element nothing happens. A marked base, a misaligned address, one
past the loft, E_PERM of a near page: the instance ends. R388: VGATH and VSCAT do the same for each enabled element at its own address, in
ascending order; the first element that faults, or whose index is marked, ends the instance, with those below it asked for. (With no fence
in flight.) -/
def Obligations.StackVectorAccesses : Prop := ∀ (d a b : CReg) (loft ord add : Bool) (ty : CTy) (k : KReg) (off : BitVec 8)
    (s : State) (n : Nat) (x : Inst),
  let e := ctyBits ty
  let m := e / 8
  let ve := x.addr a (64 * off.toInt)
  let xs : List Nat := (List.range (ctyN ty)).filter fun j => k = 0 ∨ (x.kv k).testBit j = true
  let cls : Cls := if ord then .ord else .rlx
  let still : Prop := (∀ f ∈ s.accs, f.isFence = false) ∧ s.nextId ∉ x.marking
  let word (va o : Nat) : Bool := decide ((va + o) / 8 ∈ x.loftm)
  let num (va o : Nat) : Nat := ((List.range m).map fun i => (mget x.loft (va + o + i) 0).toNat * 256 ^ i).sum
  let counted (any : Prop) (u : State) : Prop := (any → u = s.setStack (n / 4) fun q => { q with poisonCnt := q.poisonCnt + 1 }) ∧ (¬any → u = s)
  let clears (y : Inst) : Prop := ∀ c < 8, (y.hmarks d).testBit c = true ↔ (x.hmarks d).testBit c = true ∧ ∃ j < ctyN ty, j * e / 64 = c ∧ j ∉ xs
  let waits (y : Inst) (new : Nat) : Prop := (∀ r, r ≠ d → y.hmarks r = x.hmarks r) ∧ clears y ∧
    y = { x.on with hm := y.hm, pendH := x.pendH ++ (List.range new).map fun i => (d.val, s.nextId + i) }
  let byte (r : CReg) (o : Nat) : Byte := BitVec.ofNat 8 (x.hv r / 256 ^ o)
  let mark (r : CReg) (c : Nat) : Bool := (x.hmarks r).testBit c
  let ld : Instr := .vld d a loft ord ty k off
  let st : Instr := .vst d a loft ord ty k off
  let ends (i : Instr) : Prop := xs ≠ [] →
    SEnds i 0 (fun _ _ y => y = x ∧ x.gmark a = true) ∧
    SEnds i 0x04 (fun s n y => y = x ∧ x.gmark a = false ∧ (loft = true ∨ s.roomFor n 4) ∧ ve % 64 ≠ 0) ∧
    SEnds i 0x05 (fun s n y => y = x ∧ x.gmark a = false ∧ ve % 64 = 0 ∧ if loft then 0x40000 ≤ ve else s.roomFor n 4 ∧ 2 ^ 55 ≤ ve)
  (ends ld ∧ ends st) ∧
  (∀ i, i = ld ∨ i = st → SIssues s i n x → (xs = [] → ∃ t, exec i s = .next t ∧ SGoes s t n x.on) ∧
    (xs ≠ [] → x.gmark a = false → loft = false → 29 ≤ (s.accs.filter fun f => f.performed = false ∧ f.isFence = false ∧ f.who = .score n).length →
      ∃ t, exec i s = .next t ∧ SGoes s t n x)) ∧
  (xs ≠ [] → x.gmark a = false → loft = true → ve % 64 = 0 → ve < 0x40000 →
    (SIssues s ld n x → ∃ t y u, exec ld s = .next t ∧ SGoes u t n y ∧ counted (∃ j ∈ xs, word ve (j * m) = true) u ∧
      y.vtook x.on d ty (fun j => j ∈ xs) (fun j => num ve (j * m)) fun j => word ve (j * m)) ∧
    (SIssues s st n x → ∃ t y, exec st s = .next t ∧ SGoes s t n y ∧ y = { x.on with loft := y.loft, loftm := y.loftm } ∧
      (∀ q, mget y.loft q 0 = if ve ≤ q ∧ q < ve + 64 ∧ (q - ve) / m ∈ xs then byte d (q - ve) else mget x.loft q 0) ∧
      ∀ q, q ∈ y.loftm ↔ if ve / 8 ≤ q ∧ q < ve / 8 + 8 then
          ((∃ j ∈ xs, j * e / 64 = q - ve / 8) ∧ mark d (q - ve / 8) = true) ∨ (q ∈ x.loftm ∧ ∃ j < ctyN ty, j * e / 64 = q - ve / 8 ∧ j ∉ xs)
        else q ∈ x.loftm)) ∧
  (∀ (u : State) (leaf pa : Nat), xs ≠ [] → x.gmark a = false → loft = false → s.roomFor n 4 →
    (SIssues s ld n x → SMaps s u n x ve 64 .load leaf pa →
      let here (c : Nat) : List Nat := xs.filter fun j => j * e / 128 = c
      let cs : List Nat := (List.range 4).filter fun c => here c ≠ []
      ∃ t y, exec ld s = .next t ∧ waits y cs.length ∧ SAsked u t n y (cs.map fun c =>
        x.asks s n (.cLoad d.val true ((here c).map fun j => (j, j * m - 16 * c)) m s.nextId) cls (ve + 16 * c) leaf (pa + 16 * c) 16)) ∧
    (SIssues s st n x → SMaps s u n x ve 64 .store leaf pa →
      let bytes (lo w : Nat) : List (Nat × Byte × Bool) := ((List.range w).filter fun o => (lo + o) / m ∈ xs).map fun o => (o, byte d (lo + o), mark d ((lo + o) / 8))
      let half (h : Nat) : List Asked := if (bytes (32 * h) 32).length = 32 then
          [x.asks s n (.store ((bytes (32 * h) 32).map fun p => p.2.1) ((bytes (32 * h) 32).map fun p => p.2.2)) cls (ve + 32 * h) leaf (pa + 32 * h) 32]
        else ((List.range 2).filter fun c => bytes (32 * h + 16 * c) 16 ≠ []).map fun c =>
          x.asks s n (.cStore (bytes (32 * h + 16 * c) 16)) cls (ve + 32 * h + 16 * c) leaf (pa + 32 * h + 16 * c) 16
      ∃ t, exec st s = .next t ∧ SAsked u t n x.on (half 0 ++ half 1))) ∧
  (still → ty = .i32 ∨ ty = .i64 ∨ ty = .f32 ∨ ty = .f64 →
    let g : Instr := .vgath d a b k ty loft
    let c : Instr := .vscat d a b k ty loft add
    let va (j : Nat) : Nat := x.addr a ((x.E b e j * m : Nat) : Int)
    let marked (j : Nat) : Prop := x.M b e j = true
    let fits (j : Nat) : Prop := ¬marked j ∧ va j % m = 0 ∧ va j < 0x40000
    let asks (i : Instr) (leaf pa : Nat → Nat) (j : Nat) : Asked :=
      let v := x.E d e j
      x.asks s n (if i = g then .cLoad d.val true [(j, 0)] m s.nextId else if add then .cVadd ty v (x.M d e j)
        else .store ((List.range m).map fun i => BitVec.ofNat 8 (v / 256 ^ i)) (List.replicate m (x.M d e j))) .rlx (va j) (leaf j) (pa j) m
    let kind (i : Instr) : XKind := if i = g then .load else if add then .atomic else .store
    let stops (j : Nat) : Prop := j ∈ xs ∧ (marked j ∨ va j % m ≠ 0)
    (∀ i, i = g ∨ i = c → SIssues s i n x → (xs = [] → ∃ t, exec i s = .next t ∧ SGoes s t n x.on) ∧
      (xs ≠ [] → x.gmark a = false → loft = false → s.roomFor n xs.length →
        (∀ u leaf pa, (∀ j ∈ xs, ¬marked j) → SMapsAll n x m (kind i) u s (xs.map fun j => (va j, leaf j, pa j)) →
          ∃ t y, exec i s = .next t ∧ SAsked u t n y (xs.map (asks i leaf pa)) ∧ if i = g then waits y xs.length else y = x.on) ∧
        (∀ u leaf pa j, stops j → (∀ p ∈ xs, p < j → ¬marked p) →
          SMapsAll n x m (kind i) u s ((xs.filter fun p => p < j).map fun p => (va p, leaf p, pa p)) → ∃ t, exec i s = .next t ∧ Joined u t ((xs.filter fun p => p < j).map (asks i leaf pa)) ∧ (∀ y, (t.score n).run = some y → y.halting = true) ∧
          (x.sLevel = false → ∀ l, s.launch? x.launch = some l → l.ended = none → ∃ l', t.launch? x.launch = some l' ∧
            (marked j → l'.ended = some (.poisoned, 0)) ∧ (¬marked j → l'.ended = some (.fault, 4)))))) ∧
    (xs ≠ [] → SEnds g 0 (fun _ _ y => y = x ∧ x.gmark a = true) ∧ SEnds c 0 (fun _ _ y => y = x ∧ x.gmark a = true)) ∧
    (xs ≠ [] → x.gmark a = false → loft = true → (∀ j ∈ xs, fits j) →
      (SIssues s g n x → ∃ t y u, exec g s = .next t ∧ SAsked u t n y [] ∧ counted (∃ j ∈ xs, word (va j) 0 = true) u ∧
        y.vtook x.on d ty (fun j => j ∈ xs) (fun j => num (va j) 0) fun j => word (va j) 0) ∧
      (SIssues s c n x → ∃ t y, exec c s = .next t ∧ SAsked s t n y [] ∧ y = { x.on with loft := y.loft, loftm := y.loftm } ∧
        (∀ q, (∀ j ∈ xs, ¬(va j ≤ q ∧ q < va j + m)) → mget y.loft q 0 = mget x.loft q 0) ∧
        (∀ q j, j ∈ xs → va j ≤ q → q < va j + m → (∀ p ∈ xs, j < p → va p ≠ va j) → mget y.loft q 0 = byte d (j * m + (q - va j))) ∧
        ∀ q, q ∈ y.loftm ↔ (m = 4 ∧ (q ∈ x.loftm ∨ ∃ j ∈ xs, va j / 8 = q ∧ x.M d e j = true)) ∨ (m = 8 ∧
          ((q ∈ x.loftm ∧ ∀ j ∈ xs, va j / 8 ≠ q) ∨ ∃ j ∈ xs, va j / 8 = q ∧ x.M d e j = true ∧ ∀ p ∈ xs, j < p → va p / 8 ≠ q)))))

/-- R393, R394: PSEND takes its loft bytes and their marks, and the chunk travels while G[d] waits; a marked operand ends the instance,
a bad address, target or length raises E_INVALID, a U-level send to channel 6 or 7 E_PRIV; a fifth send waits; an unreachable device
gives 1 at once, which $rerr records. R395, R396: PRECV waits for the oldest slot of the channel that is its instance's, copies its
bytes and marks to the loft, frees it and writes G[d]. R394, R396: a chunk that arrives at its stack core goes, into a free slot of its
channel, to the instance, running or parked, of its level and partition that started earliest; with none it is refused, with no slot it
waits. The answer ends a send: 0, 3, or 2 after the timeout, in G[d], and in $rerr if it is not 0. R367, R373, R374, R398: an instance
starts, or a parked one goes on, once its stack core is free, S-level ones first; a U-level one is parked for an S-level one once its
sends and accesses are over, with its reservation cancelled. -/
def Obligations.StackCores : Prop :=
  (∀ (d a b c : CReg) (s : State) (n : Nat) (x : Inst),
  let la := (x.G a).toNat
  let tg := (x.G b).toNat
  let len := (x.G c).toNat
  let dev := tg % 4096
  let target := tg / 4096 % 64
  let ch := tg / 2 ^ 18
  let snd : Instr := .psend d a b c
  let rcv : Instr := .precv d a b
  let wrong (x : Inst) : Prop := (x.G a).toNat % 64 ≠ 0 ∨ 2 ^ 21 ≤ (x.G b).toNat ∨ (x.G c).toNat < 64 ∨ 4096 < (x.G c).toNat ∨ (x.G c).toNat % 64 ≠ 0 ∨
    0x40000 < (x.G a).toNat + (x.G c).toNat
  let user (x : Inst) (ch : Nat) : Prop := x.sLevel = false ∧ 6 ≤ ch
  let plain (x : Inst) : Prop := x.gmark a = false ∧ x.gmark b = false
  let chunk : Chunk := ⟨s.ctl.devnum, x.part, n, ch, x.sLevel, len, (List.range len).map fun i => mget x.loft (la + i) 0,
    (List.range (len / 8)).filter fun j => la / 8 + j ∈ x.loftm⟩
  let sent (hop : Option Nat) : PSend := ⟨s.nextId, d, x.started, chunk, dev, target, (s.stack (n / 4)).ticks, (s.stack (n / 4)).ftimeout, hop⟩
  let queued (s : State) (hop : Option Nat) : State := { s.setScore n fun k => { k with psends := k.psends ++ [sent hop] } with nextId := s.nextId + 1 }
  (SIssues s snd n x → plain x → x.gmark c = false → ¬wrong x → ¬user x ch →
    (4 ≤ (s.score n).psends.length → ∃ t, exec snd s = .next t ∧ SGoes s t n x) ∧
    ((s.score n).psends.length < 4 → s.localDev dev = true → ∃ t, exec snd s = .next t ∧ SGoes (queued s none) t n (x.on.owes d s.nextId)) ∧
    ((s.score n).psends.length < 4 → s.localDev dev = false → s.unreachable dev (target / 4) = true →
      (∀ p ∈ (s.score n).psends, p.id < s.nextId) → (∀ p ∈ x.pendG, p.2 < s.nextId) → ∃ t y, exec snd s = .next t ∧
        SGoes { s with nextId := s.nextId + 1 } t n y ∧ y.took { x.on with rerrCount := min 255 (x.rerrCount + 1), rerrStat := 1, fails := x.fails ++ [.peerLost] } d 1 false) ∧
    ((s.score n).psends.length < 4 → s.localDev dev = false → s.unreachable dev (target / 4) = false → ∃ t hop, exec snd s = .next t ∧
      SGoes { queued s hop with stks := t.stks } t n (x.on.owes d s.nextId))) ∧
  SEnds snd 0 (fun _ _ x => x.gmark a = true ∨ x.gmark b = true ∨ x.gmark c = true) ∧
  SEnds snd 0x05 (fun _ _ x => plain x ∧ x.gmark c = false ∧ wrong x) ∧
  SEnds snd 0x02 (fun _ _ x => plain x ∧ x.gmark c = false ∧ ¬wrong x ∧ user x ((x.G b).toNat / 2 ^ 18)) ∧
  (∀ slots : List RSlot, SIssues s rcv n x → plain x → la % 64 = 0 → la + 4096 ≤ 0x40000 → tg < 8 → ¬user x tg → mget (s.score n).channels tg [] = slots →
    ((∀ r ∈ slots, r.owner ≠ x.started) → ∃ t, exec rcv s = .next t ∧ SGoes s t n x) ∧
    ∀ r ∈ slots, r.owner = x.started → (∀ q ∈ slots, q.owner = x.started → q = r ∨ r.order < q.order) → r.chunk.bytes.length = r.chunk.len →
      ∃ t y, exec rcv s = .next t ∧
      SGoes (s.setScore n fun k => { k with channels := mset k.channels tg (slots.filter fun q => q.order ≠ r.order) }) t n y ∧
      y.took { x.on with loft := y.loft, loftm := y.loftm } d (BitVec.ofNat 64 (r.chunk.len * 2 ^ 18 + r.chunk.srcCore * 2 ^ 12 + r.chunk.srcDev)) false ∧
      (∀ q, mget y.loft q 0 = if la ≤ q ∧ q < la + r.chunk.len then r.chunk.bytes.getD (q - la) 0 else mget x.loft q 0) ∧
      (r.chunk.len % 8 = 0 → ∀ q, q ∈ y.loftm ↔ if la / 8 ≤ q ∧ q < la / 8 + r.chunk.len / 8 then q - la / 8 ∈ r.chunk.marks else q ∈ x.loftm)) ∧
  SEnds rcv 0 (fun _ _ x => ¬plain x) ∧
  SEnds rcv 0x05 (fun _ _ x => plain x ∧ ((x.G a).toNat % 64 ≠ 0 ∨ 0x40000 < (x.G a).toNat + 4096 ∨ 8 ≤ (x.G b).toNat)) ∧
  SEnds rcv 0x02 (fun _ _ x => plain x ∧ (x.G a).toNat % 64 = 0 ∧ (x.G a).toNat + 4096 ≤ 0x40000 ∧ (x.G b).toNat < 8 ∧ user x (x.G b).toNat)) ∧
  (∀ (s : State) (n : Nat),
  let k := s.score n
  let near (i : Inst) (c : Chunk) : Prop := i.halting = false ∧ i.sLevel = c.supervisor ∧ (c.supervisor = true ↔ 6 ≤ c.channel) ∧
    ((c.srcDev = 0xFFF ∨ c.srcDev = s.ctl.devnum) → i.part = c.srcPart) ∧ (¬(c.srcDev = 0xFFF ∨ c.srcDev = s.ctl.devnum) → ∃ e ∈ s.ctl.acl,
      e.2.getLsbD 63 = true ∧ e.2.getLsbD 40 = false ∧ (e.2.extractLsb' 48 12).toNat = c.srcDev ∧
      (e.2.getLsbD 41 = true ∨ (e.2.extractLsb' 42 6).toNat = c.srcPart) ∧ (e.2.extractLsb' 8 6).toNat = i.part)
  let all (m : Nat) : List Inst := (s.score m).run.toList ++ (s.score m).parked
  let first (i : Inst) (xs : List Inst) (p : Inst → Prop) : Prop := i ∈ xs ∧ p i ∧ ∀ q ∈ xs, p q → q = i ∨ i.started < q.started
  let slots (m : Nat) (c : Chunk) : List RSlot := mget (s.score m).channels c.channel []
  let taken (m : Nat) (c : Chunk) (i : Inst) : State := { s.setScore m fun k =>
    { k with channels := mset k.channels c.channel (slots m c ++ [⟨c, i.started, s.nextId⟩]) } with nextId := s.nextId + 1 }
  let free : Prop := (s.stack (n / 4)).alive = true ∧ (s.stack (n / 4)).scEn = true ∧ k.enabled = true ∧ k.run = none ∧ s.ctl.heartbeat = true ∧
    s.ctl.boot = .ready
  let without (i : Inst) (xs : List Inst) : List Inst := xs.filter fun q => q.started ≠ i.started
  (∀ c : Chunk, ((s.stack (n / 4)).alive = false ∨ s.ctl.boot ≠ .ready → exec (.psendChunkAccept n c) s = .next s) ∧
    ((s.stack (n / 4)).alive = true → s.ctl.boot = .ready →
      (∀ i, first i (all n) (fun i => near i c) →
        (4 ≤ (slots n c).length → exec (.psendChunkAccept n c) s = .next s) ∧
        ((slots n c).length < 4 → ∃ stks, exec (.psendChunkAccept n c) s = .next { (taken n c i).setCtl fun g =>
          { g with toPeer := g.toPeer ++ [(c.srcDev, [0])] } with stks := stks })) ∧
      ((∀ i ∈ all n, ¬near i c) → ∃ stks, exec (.psendChunkAccept n c) s = .next
        { (s.event 3 3 0 3 n (s.stack (n / 4)).ticks 0 (c.srcDev % 4096 + c.srcPart % 64 * 4096)).setCtl fun g =>
          { g with toPeer := g.toPeer ++ [(c.srcDev, [3])] } with stks := stks }))) ∧
  (∀ (p : PSend) (st : RStat) (x : Inst), p ∈ k.psends → (∀ q ∈ k.psends, q.id = p.id → q = p) → k.run = some x → x.started = p.inst → n < s.scores.length →
    let late : Prop := p.limit + p.sent ≤ (s.stack (n / 4)).ticks
    let ends (u : State) (st : RStat) : Prop := ∃ t y, exec (.psendStatus n p.id st) s = .next t ∧
      SGoes (u.setScore n fun k => { k with psends := k.psends.filter fun q => q.id ≠ p.id }) t n y ∧
      y.took { (if st = .ok then x else { x with rerrCount := min 255 (x.rerrCount + 1), rerrStat := st.code, fails := x.fails ++ [st] }) with
        pendG := x.pendG.filter fun q => q.2 ≠ p.id } p.dst (BitVec.ofNat 64 st.code) false
    let stays : Prop := exec (.psendStatus n p.id st) s = .next s
    let after : Prop := (late → ends s .timeout) ∧ (¬late → 0 < p.limit → stays)
    (s.localDev p.dev = false → (st ≠ .timeout → ends s st) ∧ (st = .timeout → after)) ∧
    -- the elder sends of the stack core to this channel are decided first
    let elder : Prop := ∃ q ∈ k.psends.takeWhile fun q => q.id != p.id, s.localDev q.dev = true ∧ q.target = p.target ∧ q.chunk.channel = p.chunk.channel
    (s.localDev p.dev = true → elder → stays) ∧
    (s.localDev p.dev = true → ¬elder → (s.stack (p.target / 4)).alive = false → after) ∧
    (s.localDev p.dev = true → ¬elder → (s.stack (p.target / 4)).alive = true → ((∀ i ∈ all p.target, ¬near i p.chunk) → ends s .remoteFault) ∧
      ∀ i, first i (all p.target) (fun i => near i p.chunk) →
        (4 ≤ (slots p.target p.chunk).length → after) ∧ ((slots p.target p.chunk).length < 4 → ends (taken p.target p.chunk i) .ok))) ∧
  (∀ (i : Inst) (pre post : List Inst), k.queue = pre ++ i :: post → (i.sLevel = true ∧ (∀ q ∈ pre, q.sLevel = false) ∨
      pre = [] ∧ (∀ q ∈ k.parked, s.partOut q.part = true) ∧ ∀ q ∈ k.queue, q.sLevel = false) → free →
    exec (.stackInstanceStart n) s = .next (s.setScore n fun k => { k with run := some i, queue := without i k.queue })) ∧
  (¬free → k.run = none → exec (.stackInstanceStart n) s = .next s ∧ exec (.stackCoreResume n) s = .next s) ∧
  (∀ i, first i k.parked (fun i => s.partOut i.part = false) → free → (∀ q ∈ k.queue, q.sLevel = false) →
    exec (.stackCoreResume n) s = .next (s.setScore n fun k => { k with run := some i, parked := without i k.parked })) ∧
  (∀ i : Inst, k.run = some i → i.sLevel = false → i.halting = false → ((∃ q ∈ k.queue, q.sLevel = true) ∨ s.partOut i.part = true) → k.parked.length < 3 →
    (k.psends ≠ [] ∨ (∃ a ∈ s.accs, a.who = .score n ∧ a.performed = false ∧ a.isWait = false) → exec (.stackCorePark n) s = .next s) ∧
    (k.psends = [] → (∀ a ∈ s.accs, a.who = .score n → a.performed = true ∨ a.isWait = true) → ∃ t k', exec (.stackCorePark n) s = .next t ∧
      (n < s.scores.length → t.score n = k') ∧ (∀ m, m ≠ n → t.score m = s.score m) ∧
      t.accs = s.accs.filter (fun a => ¬(a.isWait = true ∧ a.who = .score n)) ∧
      -- its context stands in a free slot of the stack core's save area
      (∃ j < 3, (∀ q ∈ k.parked, q.slot ≠ j) ∧ k'.parked = k.parked ++ [{ i with marking := [], slot := j }] ∧
        ((s.stack (n / 4)).frozen = [] →
          let base := n / 4 * 2 ^ 36 + (s.stack (n / 4)).scBase * 2 ^ 22 + n % 4 * 2 ^ 20 + j * 0x50000
          ∀ b, b < base ∨ base + 0x50000 ≤ b → t.byteAt b = s.byteAt b)) ∧
      k'.run = none ∧ k'.resv = none ∧ k'.satisfied = none ∧
      k'.rack = min 16384 (k.rack + ((k.resv.toList ++ k.satisfied.toList).map fun r => r.held).sum) ∧
      (k'.queue, k'.channels, k'.psends, k'.tlb, k'.enabled) = (k.queue, k.channels, k.psends, k.tlb, k.enabled))))

/-! ### Engine commands -/

/-- R286, R290 to R292, R344: a copy command acts once for its issue: its descriptor is read and passes the checks in order; then it is
the youngest of its core's queue and counts in COPY, with its sheds and slots resolved and its box bound. R292: without the role COPY it
raises E_ROLE; with an address that is no integer, or a poisoned descriptor, E_TAG; with an illegal one E_ILLEGAL; misaligned, E_ALIGN;
sheds out of the view E_INVALID or DETACHED; slots E_MANGER; a pen that is not initialised E_INVALID. R286, R400 to R402: COLL in the
same way, of a descriptor of 128 bytes; it counts in COLL, and its collective is under way. R402: a bad rank raises E_INVALID. R289:
WAITC waits while its class's counter is above n; then its threads go on, and take pR, false where a command counted since the last such
wait read a page that was not resident; a deferred fault whose command is counted is raised instead, with its status recorded (R298).
R361, R362: LAUNCH reads its packet, acquires, and what it sends pends on it; a misaligned address raises E_ALIGN. -/
def Obligations.EngineCommands : Prop :=
  (∀ (s : State) (h : Hdr) (g : Fin 16) (a b : Src) (si sd ra add : Bool) (ty : AddTy) (form : Fin 3)
    (c w : Nat) (wp : Warp) (pc l : Nat),
  let i : Instr := if form = 0 then .cpy h g a sd else if form = 1 then .cpyg h g a b si sd else .cpys h g a b si sd ra add ty
  let adds : Option AddTy := if form = 2 ∧ add = true then some ty else none
  let regs (x : Iss) (l : Nat) : Prop := x.int a 0 l ∧ (sd = false → x.int a 1 l)
  let list (x : Iss) (l : Nat) : Prop := form ≠ 0 → x.int b 0 l ∧ (si = false → x.int b 1 l)
  let idx (x : Iss) (l : Nat) : Nat := if form = 0 then 0 else if si then (x.val b 0 l).toNat else (x.val64 b l).toNat
  let role (x : Iss) (s : State) : Prop := ∃ g, x.inGroup g ∧ s.copyRole x.w.launch g
  let x := Iss.of s c w wp pc h
  (∀ u v bs sheds slots sync, Issues s i h c w wp pc → x.act.head? = some l → role x s → regs x l → list x l →
    (x.enters s).readDesc x h a sd 256 = (u, .ok bs false) →
    let d := descOf bs
    descLegal bs form.val adds = true → x.descAddr a sd % 64 = 0 → descAligned d form.val (idx x l) = true → u.copySheds x d form.val (idx x l) si = .ok sheds →
    u.copySlots x d form.val = .ok slots → u.copySync x d sheds = (v, .ok sync) → (d.penen = true → (v.pen? c wp.launch d.pen false).isSome = true) →
    let z : State × Option Nat := if d.penen then v.bindBox c wp.launch d.pen else (v, none)
    let k : CopyCmd :=
      { id := z.1.nextId, warp := w, launch := wp.launch, lanes := x.act, pc := pc, form := form.val, gran := g.val, desc := bs,
        idxAddr := idx x l, idxShed := form ≠ 0 && si, add := adds, ra := form = 2 && ra, sheds := sheds, slots := slots, pos := 0,
        marked := false, nonRes := false, penBox := z.2, filled := false, acqDie := x.acq.1, acqPkg := x.acq.2, asid := s.asidOf wp,
        sec := (s.core c).ctx.sec, sLevel := x.sup l, sync := sync, bytes := 0, stopped := true, waitPen := false, wait := none,
        drawn := 0, cover := [], fault := none }
    ∃ t, exec i s = .next t ∧ Commands s (z.1.setCtx c fun x => { x with copyQ := x.copyQ ++ [k] }).fresh t x
      { wp with copyOut := wp.copyOut ++ [⟨k.id, false, false⟩] }) ∧
  (let traps (cls : BitVec 6) (info : Nat) (bad : Iss → State → Nat → Prop) : Prop := Traps i cls (fun _ _ => BitVec.ofNat 16 info) fun x s _ =>
     ∃ l, x.act.head? = some l ∧ bad x s l
   let reads (x : Iss) (s : State) (l : Nat) (bs : List Byte) : Prop := role x s ∧ regs x l ∧ list x l ∧
     (x.enters s).readDesc x h a sd 256 = (x.enters s, .ok bs false)
   let sound (x : Iss) (s : State) (l : Nat) (bs : List Byte) : Prop := reads x s l bs ∧ descLegal bs form.val adds = true ∧
     x.descAddr a sd % 64 = 0 ∧ descAligned (descOf bs) form.val (idx x l) = true
   let shed (x : Iss) (s : State) (l : Nat) (bs : List Byte) : Except Flt (List (Nat × Nat)) := (x.enters s).copySheds x (descOf bs) form.val (idx x l) si
   traps 0x0A 0 (fun x s _ => ¬role x s) ∧
   traps 0x03 a.field (fun x s l => role x s ∧ ¬regs x l) ∧
   traps 0x03 b.field (fun x s l => role x s ∧ regs x l ∧ ¬list x l) ∧
   traps 0x03 a.field (fun x s l => role x s ∧ regs x l ∧ list x l ∧ ∃ bs, (x.enters s).readDesc x h a sd 256 = (x.enters s, .ok bs true)) ∧
   traps 0x01 0 (fun x s l => ∃ bs, reads x s l bs ∧ descLegal bs form.val adds = false) ∧
   traps 0x04 0 (fun x s l => ∃ bs, reads x s l bs ∧ descLegal bs form.val adds = true ∧
     (x.descAddr a sd % 64 ≠ 0 ∨ descAligned (descOf bs) form.val (idx x l) = false)) ∧
   traps 0x05 0 (fun x s l => ∃ bs, sound x s l bs ∧ shed x s l bs = .error (.of 0x05 0)) ∧
   traps 0x08 0 (fun x s l => ∃ bs, sound x s l bs ∧ shed x s l bs = .error (.of 0x08 0)) ∧
   traps 0x09 0 (fun x s l => ∃ bs sh, sound x s l bs ∧ shed x s l bs = .ok sh ∧ (x.enters s).copySlots x (descOf bs) form.val = .error (.of 0x09 0)) ∧
   traps 0x05 0 (fun x s l => ∃ bs sh sl sy, sound x s l bs ∧ shed x s l bs = .ok sh ∧ (x.enters s).copySlots x (descOf bs) form.val = .ok sl ∧
     (x.enters s).copySync x (descOf bs) sh = (x.enters s, .ok sy) ∧ (descOf bs).penen = true ∧ (x.enters s).pen? x.core x.w.launch (descOf bs).pen false = none))) ∧
  (∀ (s : State) (h : Hdr) (g : Fin 16) (a b : Src) (op : CollOp) (n : Fin 64) (cls : EngCls) (pr pd : Pred)
    (c w : Nat) (wp : Warp) (pc l : Nat),
  let x := Iss.of s c w wp pc h
  let role (x : Iss) (s : State) : Prop := ∃ g, x.inGroup g ∧ s.copyRole x.w.launch g
  let regs (x : Iss) (l : Nat) : Prop := x.int a 0 l ∧ x.int a 1 l ∧ x.int b 0 l
  let coll : Instr := .coll h g a b op
  (∀ u bs, Issues s coll h c w wp pc → x.act.head? = some l → role x s → regs x l → (x.enters s).readDesc x h a false 128 = (u, .ok bs false) →
    let d := cdescOf bs
    cdescLegal bs op = true → x.descAddr a false % 64 = 0 → cdescAligned d op = true → 1 ≤ d.nrank → d.nrank ≤ 256 → d.myrank < d.nrank →
    (d.penen = true → (u.pen? c wp.launch d.pen false).isSome = true) →
    let z : State × Option Nat := if d.penen then u.bindBox c wp.launch d.pen else (u, none)
    let k : CollCmd :=
      { id := z.1.nextId, core := c, warp := w, launch := wp.launch, lanes := x.act, pc := pc, op := op, gran := g.val,
        key := (x.val b 0 l).toNat, desc := bs, asid := s.asidOf wp, sec := (s.core c).ctx.sec, penBox := z.2, done := false,
        waitPen := false, filled := false, fault := none }
    ∃ t, exec coll s = .next t ∧
      Commands s ((({ z.1 with colls := z.1.colls ++ [k] }).setWarp c w fun v => v.counted .coll k.id).fresh.startColl k) t x
        { wp with collOut := wp.collOut ++ [⟨z.1.nextId, false, false⟩] }) ∧
  (let traps (cls : BitVec 6) (info : Nat) (bad : Iss → State → Nat → Prop) : Prop := Traps coll cls (fun _ _ => BitVec.ofNat 16 info) fun x s _ =>
     ∃ l, x.act.head? = some l ∧ bad x s l
   let reads (x : Iss) (s : State) (l : Nat) (bs : List Byte) : Prop := role x s ∧ regs x l ∧ (x.enters s).readDesc x h a false 128 = (x.enters s, .ok bs false)
   traps 0x0A 0 (fun x s _ => ¬role x s) ∧
   traps 0x03 a.field (fun x s l => role x s ∧ ¬(x.int a 0 l ∧ x.int a 1 l)) ∧
   traps 0x03 b.field (fun x s l => role x s ∧ x.int a 0 l ∧ x.int a 1 l ∧ ¬x.int b 0 l) ∧
   traps 0x01 0 (fun x s l => ∃ bs, reads x s l bs ∧ cdescLegal bs op = false) ∧
   traps 0x04 0 (fun x s l => ∃ bs, reads x s l bs ∧ cdescLegal bs op = true ∧
     (x.descAddr a false % 64 ≠ 0 ∨ cdescAligned (cdescOf bs) op = false)) ∧
   traps 0x05 0 (fun x s l => ∃ bs, reads x s l bs ∧ cdescLegal bs op = true ∧ x.descAddr a false % 64 = 0 ∧
     cdescAligned (cdescOf bs) op = true ∧ ((cdescOf bs).nrank < 1 ∨ 256 < (cdescOf bs).nrank ∨ (cdescOf bs).nrank ≤ (cdescOf bs).myrank))) ∧
  (let out (w : Warp) : List Outst := match cls with | .copy => w.copyOut | .matrix => w.matOut | .coll => w.collOut
   let ticks := (s.die (c / 8)).ticks
   let f (ds : List Deferred) (w : Warp) : Warp := { w with deferred := ds, nonRes := if cls = .copy then false else w.nonRes }
   let wc : Instr := .waitc h n cls pr
   let due (d : Deferred) : Prop := d ∈ wp.deferred ∧ d.cls = cls ∧ ∀ o ∈ out wp, o.cmd ≠ d.cmd
   Issues s wc h c w wp pc → x.act ≠ [] → (∀ th ∈ wp.threads, ∀ m p, th.st ≠ .engine cls m p) →
   (n.val < (out wp).length → ∃ t, exec wc s = .next t ∧ Moves s t x noReg [] fun l th =>
     if l ∈ x.act then { th with st := .engine cls n.val pr.val, waitSince := ticks } else th) ∧
   ((out wp).length ≤ n.val → (∀ d, ¬due d) → ∃ t, exec wc s = .next t ∧
     Moves (s.setWarp c w (f wp.deferred)) t { x with w := f wp.deferred x.w }
       (if cls = .copy then x.puts [] (fun _ => []) fun _ => some (pr, !wp.nonRes) else noReg) [] fun l th =>
         if l ∈ x.act then { th with st := .ready, waitSince := ticks } else th) ∧
   ∀ d, (out wp).length ≤ n.val → due d → (∀ e, due e → e = d ∨ d.cmd < e.cmd) → (∀ l ∈ x.act, x.caught s l) → pc + 8 < 2 ^ 64 → ∃ t, exec wc s = .next t ∧
     Moves (s.setWarp c w (f (wp.deferred.filter fun e => e ≠ d))) t { x with w := f (wp.deferred.filter fun e => e ≠ d) x.w } noReg [] fun l th =>
       if l ∈ x.act then
         { th with sLevel := true, st := .ready, pc := (s.asidRec (s.asidOf wp)).entry, epc := pc, waitSince := ticks,
                   fault := faultWord (BitVec.ofNat 6 d.code) 2 (BitVec.ofNat 4 d.status.code) 0,
                   fails := if d.status = .ok then th.fails else th.fails ++ [d.status],
                   rerrCount := if d.status = .ok then th.rerrCount else min 255 (th.rerrCount + 1),
                   rerrStat := if d.status = .ok then th.rerrStat else d.status.code }
       else th) ∧
  (let la : Instr := .launch h a pd
   let ints (x : Iss) (l : Nat) : Prop := x.int a 0 l ∧ x.int a 1 l ∧ x.int a 2 l
   (∀ u bs k, Issues s la h c w wp pc → a = .w k → x.act.head? = some l → ints x l → (x.val64 a l).toNat % 64 = 0 →
     (x.enters s).descGlobal x (x.ref l) .acq (x.addrNeed h a 2) (s.asidOf wp) (x.val64 a l).toNat 4 = (u, .ok bs false) → ∃ t, exec la s = .next t ∧
     Commands s { u with stamp := u.stamp + 1, nextId := u.nextId + 1 } t x { wp with pend := wp.pend ++
       [⟨u.nextId, .w (k.val + 3) :: (if pd = 7 then [] else [.p pd.val]), .launch bs (x.val a 2 l).toNat (k.val + 3) x.act u.nextId, []⟩] } ∧
     ∀ y th, u.xlFind (.thread (x.ref l)) (s.asidOf wp) (x.val64 a l).toNat = some y → 2 ≤ pteReach y.leaf → t.thread? (x.ref l) = some th →
       th.acqDie = u.stamp + 1 ∧ th.acqPkg = u.stamp + 1) ∧
   Traps la 0x04 (fun _ _ => 0) fun x _ _ => ∃ l, x.act.head? = some l ∧ ints x l ∧ (x.val64 a l).toNat % 64 ≠ 0))

/-! ### The events of engines -/

/-- R184, R286, R287, R289, R293, R295, R344: the copy engine pays for a chunk, moves its elements, and goes on; with too few bales it
waits. A command that has moved all leaves its queue, fills its box, and is counted, and the threads whose WAITC waited for it go on.
(Of a core that one context uses and of one command, from shed to shed, in bounds, whose elements are written apart.) R403: the
reductions of the collectives: integers modulo their width, with signed minimum and maximum; f32 and f64 rounded once for each
combination, in ascending rank; bf16 and f16 summed in FP32, and rounded once more at the end. R287, R404: a command whose results are
there is counted, one that failed with a deferred fault, and its box filled only without one; it waits for the ranks that it needs, and
until its instances have drawn their bales (R185). -/
def Obligations.EngineEvents : Prop :=
  (∀ (s : State) (c : Nat) (q : CopyCmd) (rest : List CopyCmd),
  let k := s.core c
  let d := descOf q.desc
  c < 64 → s.cores.length = 64 → s.dies.length = 8 → k.preempt = none → (∀ y ∈ k.ctxs.drop 1, y.copyQ = []) → k.ctx.copyQ = q :: rest →
  (∀ r ∈ rest, r.stopped = true ∧ r.id ≠ q.id) →
  (q.fault = none → q.pos < d.total → q.form = 0 → q.add = none → q.sync = .none → d.srck = 1 → d.dstk = 1 → d.swz = 0 → d.oob = 2 → d.trans = false →
    d.esize ∈ [1, 2, 4, 8, 16] →
    let n := min (d.total - q.pos) ((if q.gran = 1 then 2048 else 4096) / d.esize)
    let ix (j f : Nat) : Nat := f / ((d.dims.take j).map Dim.ext).prod % (d.dim j).ext
    let js := List.range d.dims.length
    let src (f : Nat) : Nat := (((d.src : Int) + (js.map fun j => ((d.dim j).origin + ix j f) * (d.dim j).ss).sum) % 2 ^ 32).toNat
    let dst (f : Nat) : Nat := (((d.dst : Int) + (js.map fun j => (ix j f : Int) * (d.dim j).ds).sum) % 2 ^ 32).toNat
    let mine (f : Nat) : Prop := q.pos ≤ f ∧ f < q.pos + n
    let byte (t : State) (sh o : Nat) : Byte := mget (t.shedOf (c / 8) sh).bytes o 0
    let price := (n * d.esize + 63) / 64 - q.drawn
    let alike (t : State) : Prop := (t.mem, t.marks, t.gaps, t.stks, t.scores, t.ctl, t.accs, t.colls, t.launches) =
      (s.mem, s.marks, s.gaps, s.stks, s.scores, s.ctl, s.accs, s.colls, s.launches) ∧ (∀ m, m ≠ c → t.core m = s.core m) ∧ ∀ m, m ≠ c / 8 → t.die m = s.die m
    k.satisfied = [] → k.resv = [] →
    (price ≤ k.rack → (s.die (c / 8)).ring.slewOk price = true → (∀ sh, (s.shedOf (c / 8) sh).marks = []) →
      ∀ sheds : Nat → Nat, (∀ f, mine f → src f % d.esize = 0 ∧ dst f % d.esize = 0 ∧ q.shedAt (src f) = some (sheds (src f / 65536)) ∧
        q.shedAt (dst f) = some (sheds (dst f / 65536))) →
      let to' (f : Nat) : Nat × Nat := (sheds (dst f / 65536), dst f % 65536)
      (∀ f g, mine f → mine g → to' f = to' g → f = g) → ∃ t, exec (.copyChunk c) s = .next t ∧ alike t ∧
        (t.core c).rack = k.rack - price ∧ (t.core c).ctx.warps = k.ctx.warps ∧ (t.core c).ctx.views = k.ctx.views ∧
        (∃ cov, (t.core c).ctx.copyQ =
          { q with pos := q.pos + n, bytes := q.bytes + n * d.esize, wait := none, stopped := false, drawn := 0, cover := cov } :: rest) ∧
        (∀ f, mine f → ∀ e < d.esize, byte t (to' f).1 ((to' f).2 + e) = byte s (sheds (src f / 65536)) (src f % 65536 + e)) ∧
        (∀ sh o, (∀ f, mine f → ∀ e < d.esize, (sh, o) ≠ ((to' f).1, (to' f).2 + e)) → byte t sh o = byte s sh o) ∧
        ∀ sh, (t.shedOf (c / 8) sh).marks = []) ∧
    (k.rack < price → (∀ f, mine f → q.shedAt (dst f) ≠ none) → ∃ t m, exec (.copyChunk c) s = .next t ∧ OnlyCore s t c ∧
      (t.core c).ctx.copyQ = { q with wait := some (m, price) } :: rest ∧
      (t.core c).rest = { k with ctx := { k.ctx with copyQ := (t.core c).ctx.copyQ } }.rest ∧ (t.core c).rack = k.rack)) ∧
  (∀ (wp : Warp) (os : List Outst), s.alone c q.launch → s.warp? c q.warp = some wp → wp.launch = q.launch →
    wp.copyOut = ⟨q.id, false, false⟩ :: os → (∀ o ∈ os, o.done = false ∧ o.cmd ≠ q.id) →
    let done (t : State) : Prop := (t.core c).ctx.copyQ = rest ∧
      let ds := match q.fault with
        | none => wp.deferred
        | some f => wp.deferred ++ [⟨.copy, f.1, f.2.1, f.2.2, q.pc, q.id⟩]
      let w' : Warp := { wp with copyOut := os, nonRes := wp.nonRes || q.nonRes, deferred := ds }
      ((∀ th ∈ wp.threads, ∀ n p, th.st = .engine .copy n p → n < os.length) → t.warp? c q.warp = some w') ∧
      ((∀ e ∈ ds, e.cls ≠ .copy) → (∃ th ∈ wp.threads, ∃ n p, th.st = .engine .copy n p ∧ os.length ≤ n) → ∃ w'', t.warp? c q.warp = some w'' ∧
        w''.copyOut = os ∧ w''.nonRes = false ∧ w''.threads.length = wp.threads.length ∧ (w''.v, w''.w) = (wp.v, wp.w) ∧
        ∀ l th, wp.thread? l = some th → l < 128 → (∀ n p, th.st = .engine .copy n p → os.length ≤ n → p < 8 →
            w''.thread? l = some { th with st := .ready } ∧
            w''.hold (.p p) l = if p = 7 then wp.hold (.p p) l else ⟨if wp.nonRes || q.nonRes then 0 else 1, .raw⟩) ∧
          ((∀ n p, th.st = .engine .copy n p → n < os.length) → w''.thread? l = some th))
    let stays (t : State) : Prop := (∀ j l, mget? (t.core j).ctx.views l ≠ none ↔ mget? (s.core j).ctx.views l ≠ none)
    (q.fault = none → q.pos < d.total → exec (.copyComplete c q.id) s = .next s) ∧
    ((q.fault ≠ none ∨ d.total ≤ q.pos) → (d.penen = false ∨ q.fault ≠ none ∨ s.alive q.launch = false) → (q.waitPen = false ∨ s.alive q.launch = false) →
      ∃ t, exec (.copyComplete c q.id) s = .next t ∧ OnlyCore s t c ∧ done t ∧ stays t) ∧
    (∀ b v p, q.fault = none → d.total ≤ q.pos → d.penen = true → d.pen < 32 → s.alive q.launch = true → q.waitPen = false → q.filled = false →
      q.penBox = some b → mget? k.ctx.views q.launch = some v → v.pens[d.pen]? = some p → p.claimQ = [] → p.takeQ = [] →
      (∀ x, p.boxes[b]? = some x → x.st = .claimed ∧ x.pend = false) →
      ∃ t v', exec (.copyComplete c q.id) s = .next t ∧ OnlyCore s t c ∧ done t ∧ mget? (t.core c).ctx.views q.launch = some v' ∧
        v'.pens = lmod v.pens d.pen fun p => { p with boxes := lmod p.boxes b (fun _ => ⟨.full, false, false⟩), claims := p.claims.filter (fun k => k ≠ b),
                                                      pub := msetD (0, 0) p.pub b (0, 0) }))) ∧
  ((∀ (v : Nat) (vs : List Nat),
    let fold (f : Nat → Nat → Nat) : Nat := vs.foldl f v
    let add (f : FFmt) (p q : Nat) : Nat := f.round .rn false (FVal.add false (f.decode p) (f.decode q))
    let sint (w p q : Nat) : Prop := (BitVec.ofNat w p).toInt < (BitVec.ofNat w q).toInt
    reduce 0 0 (v :: vs) = fold (add .f32) ∧ reduce 5 0 (v :: vs) = fold (add .f64) ∧
    (∀ w typ, (w = 32 ∧ typ = 3) ∨ (w = 64 ∧ typ = 4) → (∀ p ∈ v :: vs, p < 2 ^ w) → reduce typ 0 (v :: vs) = (v :: vs).sum % 2 ^ w ∧
      (∀ p ∈ v :: vs, ¬sint w p (reduce typ 1 (v :: vs)) ∧ ¬sint w (reduce typ 2 (v :: vs)) p) ∧
      reduce typ 1 (v :: vs) ∈ v :: vs ∧ reduce typ 2 (v :: vs) ∈ v :: vs) ∧
    (∀ f typ, (f = FFmt.bf16 ∧ typ = 1) ∨ (f = FFmt.f16 ∧ typ = 2) →
      reduce typ 0 (v :: vs) = f.round .rn false (FFmt.decode .f32 (vs.foldl (fun p q => FFmt.round .f32 .rn false (FVal.add false (FFmt.decode .f32 p) (f.decode q)))
        (FFmt.round .f32 .rn false (f.decode v))))) ∧
    ∀ f typ, (f = FFmt.f32 ∧ typ = 0) ∨ (f = FFmt.bf16 ∧ typ = 1) ∨ (f = FFmt.f16 ∧ typ = 2) ∨ (f = FFmt.f64 ∧ typ = 5) →
      reduce typ 1 (v :: vs) = fold (minMaxCode f false false) ∧ reduce typ 2 (v :: vs) = fold (minMaxCode f true false)) ∧
  ∀ (s : State) (q : CollCmd) (rest : List CollCmd) (wp : Warp) (os : List Outst) (peers : List (List (Byte × Bool))) (fail : Option RStat),
    let c := q.core
    let d := cdescOf q.desc
    let e : Instr := .collComplete c q.warp q.id peers fail
    c < 64 → s.cores.length = 64 → s.colls = q :: rest → (∀ r ∈ rest, r.id ≠ q.id) → s.alone c q.launch → s.warp? c q.warp = some wp → wp.launch = q.launch →
    wp.collOut = ⟨q.id, false, false⟩ :: os → (∀ o ∈ os, o.done = false ∧ o.cmd ≠ q.id) → (∀ th ∈ wp.threads, ∀ n p, th.st ≠ .engine .coll n p) →
    q.waitPen = false →
    let counted (u t : State) (fault : Option (Nat × RStat × Nat)) : Prop :=
      (t.mem, t.marks, t.gaps, t.dies, t.stks, t.rows, t.scores, t.ctl, t.accs, t.launches) =
        (u.mem, u.marks, u.gaps, u.dies, u.stks, u.rows, u.scores, u.ctl, u.accs, u.launches) ∧ t.colls = rest ∧ (∀ k, k ≠ c → t.core k = u.core k) ∧
      t.warp? c q.warp = some { wp with collOut := os, deferred := wp.deferred ++ (fault.toList.map fun f => ⟨.coll, f.1, f.2.1, f.2.2, q.pc, q.id⟩) }
    (q.done = true → (d.penen = false ∨ q.fault ≠ none ∨ q.filled = true ∨ s.alive q.launch = false) → ∃ t, exec e s = .next t ∧ counted s t q.fault) ∧
    (q.done = false → (fail = none ∨ fail = some .ok) → peers.length + 1 ≠ d.nrank → rowOp q.op = false → exec e s = .next s) ∧
    (q.done = false → (fail = none ∨ fail = some .ok) → s.collDrawn q.id = false → exec e s = .next s) ∧
    (∀ u v : State, q.done = false → fail = none ∨ fail = some .ok → d.penen = false → d.sync = 0 → s.collDrawn q.id = true →
      (rowOp q.op = true ∨ (peers.length + 1 = d.nrank ∧ ∀ p ∈ peers, p.length = d.count * d.esize)) → s.collRanks q d = (u, none) →
      u.collRun q d true peers = (v, none) → v.colls = s.colls → v.warp? c q.warp = some wp → ∃ t, exec e s = .next t ∧ counted (v.endColl q.id) t none) ∧
    (∀ st u, q.done = false → fail = some st → st ≠ .ok → d.sync = 0 → s.collRanks q d = (u, none) →
      let v := (u.collRun q d false peers).1
      v.colls = s.colls → v.warp? c q.warp = some wp → ∃ t, exec e s = .next t ∧ counted (v.endColl q.id) t (some (0x0D, st, 0))))

/-! ### Issue slots, waits and warps -/

/-- R84, R88, R183, R186: a free slot goes to the candidate with the earliest ready time, of equal ones, with no YIELD among them, to
the lowest number, and its word comes next; a warp whose escape counter is full makes an escape issue. One for which the rack has paid
in this cycle goes first. A head that only lacks bales begins to wait; the wait for another head, or at another price, ends with its
reservation. A busy slot, and one with no candidate, stays as it is. R84: an escape issue is the slot's warp's next word. R101: a nap
that is over leaves its thread READY, one that is not leaves it. R346: a thread that has waited on a sync word for longer than TICKS
leaves its wait and takes E_WATCHDOG, of KIND 3, at the waiting instruction. R57: a word that is no instruction raises E_ILLEGAL in its
whole issue set, and ends an instance of a stack core. R99, R220, R368: a warp whose threads have all exited, with no command, store or
GIVE of its own left, retires: its place is free, its slots begin their release, its launch has one less that lives, and ends with the
last, with a deferred fault that no thread is left to raise if the warp holds one; until then the warp stays. R190: a held core is
admitted in order from NEXTCORE while the turn's spending is below LIMIT, or the limiter is off, one in a cycle: its released warps are
ready in this cycle. -/
def Obligations.IssueEvents : Prop :=
  (∀ (s : State) (c q : Nat) (p : Nat × Warp) (sl : Slot),
  let k := s.core c
  let cs := s.candidates c q
  let none_short : Prop := ∀ r ∈ k.ctx.warps, r.1 / 16 = q → s.mayIssue c r.2 = true → ∀ pc i price, s.headOf c r.1 r.2 ≠ .short pc i price
  let pool (r : Nat × Warp) : Prop := r ∈ cs ∧ ((∃ g ∈ k.grants, g.1 = r.1) ∨ ∀ o ∈ cs, ∀ g ∈ k.grants, g.1 ≠ o.1)
  let e : Instr := .slotArbitration c q
  c < s.cores.length → k.slots[q]? = some sl →
  (sl.cur ≠ none ∨ s.now c < sl.freeAt → exec e s = .next s) ∧
  (sl.cur = none → sl.freeAt ≤ s.now c → none_short → cs = [] → exec e s = .next s) ∧
  (sl.cur = none → sl.freeAt ≤ s.now c → none_short → risingFrom 0 k.ctx.warps = true → pool p →
    (∀ r, pool r → p.2.readyAt ≤ r.2.readyAt) → (∀ r, pool r → r.2.readyAt = p.2.readyAt → p.1 ≤ r.1 ∧ r.2.ties = []) →
    exec e s = .next { (s.setCore c fun k =>
        { k with slots := lmod k.slots q fun y => { y with cur := some p.1 }, ctx := { k.ctx with warps := mmod k.ctx.warps p.1 fun w => { w with run := none } } }) with
      agenda := (if p.2.esc < 65536 then .word c p.1 else .ev (.escapeIssue c p.1)) :: s.agenda }) ∧
  (sl.cur = none → sl.freeAt ≤ s.now c → ∀ w pc i price, k.ctx.warps = [(w, p.2)] → w / 16 = q → s.mayIssue c p.2 = true →
    s.headOf c w p.2 = .short pc i price →
    let k0 : Core := if p.2.bwait = none then k else k.cancelResv (.warp w)
    let u : State := s.setCore c fun _ => { k0 with ctx := { k.ctx with warps := [(w, { p.2 with bwait := some ⟨s.now c, pc, i, price⟩ })] } }
    (∀ b, p.2.bwait = some b → (b.pc, b.word, b.price) ≠ (pc, i, price)) → u.candidates c q = [] → exec e s = .next u)) ∧
  ((∀ (s : State) (c w : Nat) (wp : Warp), s.warp? c w = some wp →
    (65536 ≤ wp.esc → ∀ sl, (s.core c).slots[w / 16]? = some sl → sl.cur = some w →
      exec (.escapeIssue c w) s = .next { s with agenda := .word c w :: s.agenda }) ∧
    (wp.esc < 65536 → exec (.escapeIssue c w) s = .next s)) ∧
  (∀ (s : State) (r : TRef) (th : Thread) (wp : Warp) (e : Nat), s.warp? r.core r.warp = some wp → wp.threads[r.lane]? = some th → th.st = .nap e →
    (s.now r.core < e → exec (.napExpiry r) s = .next s) ∧
    (e ≤ s.now r.core → ∃ t wp', exec (.napExpiry r) s = .next t ∧ OnlyCore s t r.core ∧
      t.core r.core = { s.core r.core with ctx := { (s.core r.core).ctx with warps := mset (s.core r.core).ctx.warps r.warp wp' } } ∧
      wp' = { wp with threads := lmod wp.threads r.lane fun _ => { th with st := .ready }, readyAt := wp'.readyAt, ties := wp'.ties } ∧
      ((∃ y ∈ wp.threads, y.st = .ready) → wp'.readyAt = wp.readyAt) ∧ ((∀ y ∈ wp.threads, y.st ≠ .ready) → wp'.readyAt = s.now r.core))) ∧
  (∀ (s : State) (r : TRef) (th : Thread) (wp : Warp) (id : Nat), s.warp? r.core r.warp = some wp → wp.threads[r.lane]? = some th → th.st = .sync id →
    th.sLevel = false → r.core < s.cores.length → 8 ≤ th.pc →
    let d := s.die (r.core / 8)
    let a := s.asidRec (s.asidOf wp)
    (d.watchdog = 0 ∨ d.ticks ≤ d.watchdog + th.waitSince → exec (.watchdogExpiry r) s = .next s) ∧
    (d.watchdog ≠ 0 → d.watchdog + th.waitSince < d.ticks → a.en = true → a.frame = 0 → ∃ t, exec (.watchdogExpiry r) s = .next t ∧
      t.accs = s.accs.filter (fun b => b.id ≠ id) ∧ (t.mem, t.marks, t.gaps, t.dies, t.stks, t.scores, t.ctl, t.launches) =
        (s.mem, s.marks, s.gaps, s.dies, s.stks, s.scores, s.ctl, s.launches) ∧ (∀ k, k ≠ r.core → t.core k = s.core k) ∧
      t.thread? r = some { th with sLevel := true, st := .ready, pc := a.entry, epc := th.pc - 8, fault := faultWord 0x0C 3 0 0 } ∧
      ∀ q, q.core = r.core → q ≠ r → t.thread? q = s.thread? q)) ∧
  (∀ (s : State) (word : Dword) (c w : Nat) (wp : Warp) (pc : Nat), s.turn = .warp c w → s.warp? c w = some wp → wp.issuePc = some pc →
    let x : Iss := Iss.of s c w wp pc ⟨false, 0, false, 7⟩
    (∀ l ∈ x.set, x.caught s l) → ∃ t, exec (.reservedEncoding word) s = .next t ∧
      Moves s t x noReg [] fun l th => if l ∈ x.set then x.handled s 0x01 0 th else th) ∧
  ∀ (word : Dword), SEnds (.reservedEncoding word) 0x01 fun _ _ _ => True) ∧
  ((∀ (s : State) (c w : Nat) (wp : Warp) (l : Launch), s.warp? c w = some wp → s.launch? wp.launch = some l → c < s.cores.length →
    let k := s.core c
    let over' : Prop := (∀ th ∈ wp.threads, th.st = .exited) ∧ wp.copyOut = [] ∧ wp.matOut = [] ∧ wp.collOut = [] ∧ wp.sq = [] ∧
      ∀ g ∈ (s.die (c / 8)).gives, ¬(g.core = c ∧ g.warp = w ∧ g.launch = wp.launch)
    (¬over' → exec (.warpRetire c w) s = .next s) ∧
    (over' → ∃ t l', exec (.warpRetire c w) s = .next t ∧ t.warp? c w = none ∧ (∀ v, v ≠ w → t.warp? c v = s.warp? c v) ∧
      (∀ j, j ≠ c → t.core j = s.core j) ∧ (t.mem, t.marks, t.gaps, t.dies, t.stks, t.rows, t.scores, t.colls, t.turn) =
        (s.mem, s.marks, s.gaps, s.dies, s.stks, s.rows, s.scores, s.colls, s.turn) ∧
      t.accs.map Acc.id = s.accs.map Acc.id ∧ t.launch? wp.launch = some l' ∧ l' = { l with live := l.live - 1, ended := l'.ended } ∧
      (∀ d, d ∈ wp.deferred → (∀ e ∈ wp.deferred, e = d ∨ d.cmd < e.cmd) → l.ended = none → l'.ended = some (.fault, d.code)) ∧
      (wp.deferred = [] → l'.ended = if l.ended = none ∧ l.grid ≤ l.admitted ∧ l.live ≤ 1 then some (if l.poisoned then .poisoned else .ok, 0) else l.ended) ∧
      ∀ v, mget? k.ctx.views wp.launch = some v → ∃ v', mget? (t.core c).ctx.views wp.launch = some v' ∧ v'.slots.length = v.slots.length ∧
        ∀ (n : Nat) (m m' : MSlot), v.slots[n]? = some m → v'.slots[n]? = some m' → (m'.bytes, m'.side, m'.marks) = (m.bytes, m.side, m.marks) ∧
          (m.st = .claimed w → m'.st = .free ∨ m'.st = .releasing s.nextId) ∧ (∀ u, m.st = .claimed u → u ≠ w → m'.st = m.st))) ∧
  ∀ (s : State) (k c : Nat),
    let r := (s.die k).ring
    let far (i : Nat) : Nat := (i + 8 - r.nextCore % 8) % 8
    (r.admitted = some s.clock → exec (.massReleaseAdmit k) s = .next s) ∧
    (r.step ≠ 0 → r.limit ≤ r.spent → exec (.massReleaseAdmit k) s = .next s) ∧
    ((∀ i < 8, i ∉ r.heldCores) → exec (.massReleaseAdmit k) s = .next s) ∧
    (r.admitted ≠ some s.clock → r.step = 0 ∨ r.spent < r.limit → c < 8 → c ∈ r.heldCores → (∀ i ∈ r.heldCores, i < 8 → far c ≤ far i) →
      exec (.massReleaseAdmit k) s = .next ((s.setCore (8 * k + c) fun x => { x with ctx := { x.ctx with warps := x.ctx.warps.map fun w =>
          (w.1, if w.2.held then { w.2 with held := false, readyAt := s.now (8 * k + c) } else w.2) } }).setDie k fun d =>
        { d with ring := { d.ring with heldCores := d.ring.heldCores.filter (fun i => i ≠ c), nextCore := (c + 1) % 8, admitted := some s.clock } })))

/-! ### Memory -/

/-- R276, R149, R252, R113: LOAD_RETURN performs a load on memory: its registers take the bytes at its place, little-endian, 4 to a
register, with the load's tag; one that a marked sector supplied a byte of is POISON, and the core counts a poison event; pR is true.
What another device answers lands in the same way. R323: a load that a device turns away, or that timed out (R319), leaves zeros with
the tag and a false pR, and its status in $rerr. An access that has to cross the yard is performed once it has (R407). R381, R371: a
stack core's load writes G[d], marked where a sector is. R218: a wait on a sync word whose generation is reached makes its thread READY;
one whose generation is not asks for it again. R308, R310: STORE_LEAVE_QUEUE takes the oldest store out of its warp's store queue; it is
sent. R269, R267: one to a page of CORE or DIE reach whose line its die cache holds is then performed there; for one whose line it does
not hold, ACCESS_ACKNOWLEDGED performs it in the die cache, on the line as its home holds it. ACCESS_ACKNOWLEDGED performs any other
store at the home slice: its bytes are in memory and all other bytes are as they were; a touched sector that receives a poisoned byte is
marked, one wholly written by clean bytes is not (R149); the bytes are dropped no more (R282), and the unit is dirty (R456). R323, R319,
R317: a store that a device turns away, or that timed out, writes nothing, and its status waits for a fence. R350: ATOMIC_PERFORM
updates its location, of 4 or 8 bytes, at its home: an integer sum modulo 2^w, a signed or unsigned minimum or maximum, a bitwise
operation, an exchange; ATOMCAS writes where the old bits equal the bits compared with; ATOM returns the old value. R351: binary32
additions of one warp access to a location apply in ascending lane order, each rounded once, and each lane returns the value before its
own. R354: a marked location keeps its value and its line is marked, ATOM returns POISON, and the poison counter of the core and the
error counter of the home stack rise. R353: PREDICTOR_DECAY takes 1 from every counter above 0; LINE_RECALL brings the bytes that a die
wrote on a borrowed line home, and its counter rises, up to 3; a line that is not borrowed stays. -/
def Obligations.MemoryEvents : Prop :=
  ((∀ (s : State) (a : Acc) (r : TRef) (wp : Warp) (d : Dst) (k : Nat) (tag : Tag) (pr : Pred) (lin : Nat) (bs : List Byte) (st : RStat),
    let names := dstNames d k
    Sole s a r wp → a.kind = .load names tag pr.val → a.size ≤ 16 → k = (a.size + 3) / 4 → (∀ u, d ≠ .w u) → (∀ v, d = .v v → v.val % k = 0) →
    -- the results: each register from its own 4 bytes
    let lands (t : State) (got : Nat → Nat → Prop) (ok : Bool) : Prop := s.sameRegs t r names a.lanes pr.val ∧
      (∀ l ∈ a.lanes, (∀ i m, names[i]? = some m → got i l) ∧ (pr.val ≠ 7 → t.reg r.core r.warp (.p pr.val) l = ⟨if ok then 1 else 0, .raw⟩))
    let tagOf (i : Nat) : Tag := if tag = .fp64l ∨ tag = .fp64h then (if i % 2 = 0 then .fp64l else .fp64h) else tag
    let reg (t : State) (i l : Nat) : Option Reg := (names[i]?).map fun m => t.reg r.core r.warp m l
    let fails (t : State) : Prop := Ended s t r wp (fun l th => if l ∈ a.lanes then
        a.tells (s.pubOf a) t.stamp s.nextId l { th with rerrCount := min 255 (th.rerrCount + 1), rerrStat := st.code, fails := th.fails ++ [st] } else th) ∧
      (t.mem, t.marks, t.gaps) = (s.mem, s.marks, s.gaps) ∧ lands t (fun i l => reg t i l = some ⟨0, tagOf i⟩) false
    (∀ rep, a.here s r lin → Uncached s r.core a.pa lin → ∃ t n, exec (.loadReturn a.id rep) s = .next t ∧ Ended s t r wp (a.tells (s.pubOf a) n s.nextId) ∧ s.stamp ≤ n ∧ n ≤ t.stamp ∧
      (t.mem, t.marks, t.gaps) = (s.mem, s.marks, s.gaps) ∧
      lands t (fun i l => (s.markedAt (lin + 4 * i) (min 4 (a.size - 4 * i)) → (reg t i l).map Reg.tag = some .poison) ∧
        (¬s.markedAt (lin + 4 * i) (min 4 (a.size - 4 * i)) →
          reg t i l = some ⟨BitVec.ofNat 32 (s.numAt (lin + 4 * i) (min 4 (a.size - 4 * i))), tagOf i⟩)) true ∧
      (s.markedAt lin a.size → names ≠ [] → (t.core r.core).poisonCnt = (s.core r.core).poisonCnt + 1) ∧
      (¬s.markedAt lin a.size → (t.core r.core).poisonCnt = (s.core r.core).poisonCnt)) ∧
    (a.dev ≠ none → s.crossed a = true → bs.length = a.size → ∃ t n, exec (.loadReturn a.id (.data bs false)) s = .next t ∧ Ended s t r wp (a.tells (s.pubOf a) n s.nextId) ∧
      (t.mem, t.marks, t.gaps) = (s.mem, s.marks, s.gaps) ∧
      lands t (fun i l => reg t i l = some ⟨BitVec.ofNat 32 (numOf ((bs.drop (4 * i)).take 4)), tagOf i⟩) true) ∧
    (a.dev ≠ none → s.crossed a = true → st = .peerLost ∨ st = .remoteFault → ∃ t, exec (.loadReturn a.id (.status st)) s = .next t ∧ fails t) ∧
    (a.dev ≠ none ∨ a.pa < 2 ^ 60 → st = .timeout → ∀ sent, a.sent = some sent → sent + a.limit ≤ (s.die (r.core / 8)).ticks →
      ∃ t, exec (.accessTimeout a.id) s = .next t ∧ fails t)) ∧
  (∀ (s : State) (a : Acc) (n : Nat) (x : Inst) (d : CReg) (g lin : Nat) (rep : Reply), s.accs = [a] → a.who = .score n → a.performed = false →
    a.kind = .cLoad d.val false [] 8 g → (s.score n).run = some x → n < s.scores.length → n / 4 < s.stks.length → g ∉ x.marking →
    a.dev = none → linOf a.pa = some lin → a.key = 0 → s.crossed a = true → Plain s lin a.size →
    ∃ t y, exec (.loadReturn a.id rep) s = .next t ∧ t.accs = [] ∧ (t.mem, t.marks, t.gaps, t.cores, t.dies, t.ctl) =
        (s.mem, s.marks, s.gaps, s.cores, s.dies, s.ctl) ∧ (∀ k, k ≠ n → t.score k = s.score k) ∧ (t.score n).rest = (s.score n).rest ∧
      (t.score n).run = some y ∧ y = { x with g := y.g, gm := y.gm, pendG := x.pendG.filter (fun p => p.2 ≠ a.id), marking := y.marking } ∧
      (∀ q : CReg, y.G q = if q = d ∧ d ≠ 0 then BitVec.ofNat 64 (s.numAt lin a.size) else x.G q) ∧
      (∀ q : CReg, y.gmark q = true ↔ if q = d ∧ d ≠ 0 then s.markedAt lin a.size else x.gmark q = true) ∧
      (s.markedAt lin a.size → (t.stack (n / 4)).poisonCnt = (s.stack (n / 4)).poisonCnt + 1) ∧
      (¬s.markedAt lin a.size → (t.stack (n / 4)).poisonCnt = (s.stack (n / 4)).poisonCnt)) ∧
  ∀ (s : State) (a : Acc) (r : TRef) (wp : Warp) (gen lin : Nat) (rep : Reply), Sole s a r wp → a.kind = .swWait gen → a.lanes = [r.lane] →
    (∀ th, wp.threads[r.lane]? = some th → th.st ≠ .exited) → a.here s r lin → Uncached s r.core a.pa lin → a.size = 16 →
    let ahead : BitVec 32 := BitVec.ofNat 32 (s.numAt (lin + 8) 4) - BitVec.ofNat 32 gen
    (0 ≤ ahead.toInt → ∃ t n, exec (.loadReturn a.id rep) s = .next t ∧ (t.mem, t.marks, t.gaps) = (s.mem, s.marks, s.gaps) ∧
      Ended s t r wp fun l th => a.tells (s.pubOf a) n s.nextId l (if l = r.lane then { th with st := .ready } else th)) ∧
    (ahead.toInt < 0 → exec (.loadReturn a.id rep) s = .next { s with accs := [{ a with out := false }] })) ∧
  (∀ (s : State) (a : Acc) (r : TRef) (wp : Warp) (bs : List Byte) (pois : List Bool) (lin : Nat),
  Sole s a r wp → a.kind = .store bs pois → bs.length = a.size → pois.length = a.size → 0 < a.size →
  let k := r.core / 8
  let line (held : Nat → Byte) (c : Copy) : Prop := ∀ i < 128, c.bytes.getD i 0 =
    if lin % 128 ≤ i ∧ i < lin % 128 + a.size then bs.getD (i - lin % 128) 0 else held i
  (a.queued = true → ∀ ids, wp.sq = a.id :: ids →
    (a.dev = none → linOf a.pa = some lin → (regionOf a.pa = 1 ∨ 2 ≤ a.reach ∨ mget? (s.die k).dc (a.pa / 128) = none) →
      ∃ t, exec (.storeLeaveQueue r.core r.warp) s = .next t ∧
      t.accs = [{ a with queued := false, sent := some (s.die k).ticks }] ∧ (t.mem, t.marks, t.gaps) = (s.mem, s.marks, s.gaps) ∧
      (∀ k v, (k, v) ≠ (r.core, r.warp) → t.warp? k v = s.warp? k v) ∧
      (t.warp? r.core r.warp).map (fun w => (w.sq, w.threads)) = some (ids, wp.threads)) ∧
    (∀ c0, a.dev = none → linOf a.pa = some lin → lin % 128 + a.size ≤ 128 → regionOf a.pa = 0 → a.reach ≤ 1 → k < s.dies.length →
      s.dieCopy k (a.pa / 128) a = some c0 → c0.bytes.length = 128 → ∃ t c, exec (.storeLeaveQueue r.core r.warp) s = .next t ∧
      t.accs = [] ∧ (t.mem, t.marks, t.gaps) = (s.mem, s.marks, s.gaps) ∧ (t.warp? r.core r.warp).map Warp.sq = some ids ∧
      mget? (t.die k).dc (a.pa / 128) = some c ∧ line (fun i => c0.bytes.getD i 0) c)) ∧
  (∀ rep, a.queued = false → a.here s r lin → Uncached s r.core a.pa lin → regionOf a.pa = 0 → a.reach ≤ 1 → k < s.dies.length →
    ∃ t c, exec (.accessAcknowledged a.id rep) s = .next t ∧ Ended s t r wp (fun _ th => th) ∧
    (t.mem, t.marks, t.gaps) = (s.mem, s.marks, s.gaps) ∧ mget? (t.die k).dc (a.pa / 128) = some c ∧
    line (fun i => s.byteAt (lin / 128 * 128 + i)) c) ∧
  (∀ rep, a.queued = false → a.here s r lin → Uncached s r.core a.pa lin → (regionOf a.pa = 1 ∨ 2 ≤ a.reach) →
    ∃ t, exec (.accessAcknowledged a.id rep) s = .next t ∧
    Ended s t r wp (fun _ th => th) ∧ s.stored t lin bs ∧
    (∀ q, q ∈ t.marks ↔ (∃ i, pois[i]? = some true ∧ (lin + i) / 32 = q) ∨ (q ∈ s.marks ∧ ∃ b, b / 32 = q ∧ ¬(lin ≤ b ∧ b < lin + a.size))) ∧
    (∀ b, inGap t.gaps b = true ↔ inGap s.gaps b = true ∧ ¬(lin ≤ b ∧ b < lin + a.size)) ∧
    lin / 2 ^ 16 % 2 ^ 20 ∉ (t.stack (lin / 2 ^ 36)).clean) ∧
  ∀ st, a.queued = false →
    let fails (t : State) : Prop := (t.mem, t.marks, t.gaps) = (s.mem, s.marks, s.gaps) ∧
      Ended s t r wp fun l th => if l ∈ a.lanes then { th with late := th.late ++ [st] } else th
    (a.dev ≠ none → s.crossed a = true → exec (.accessAcknowledged a.id (.status .timeout)) s = .next s) ∧
    (a.dev ≠ none → s.crossed a = true → st = .peerLost ∨ st = .remoteFault → ∃ t, exec (.accessAcknowledged a.id (.status st)) s = .next t ∧ fails t) ∧
    (a.dev ≠ none → s.crossed a = true → ∃ t, exec (.accessAcknowledged a.id (.status .ok)) s = .next t ∧ (t.mem, t.marks, t.gaps) = (s.mem, s.marks, s.gaps) ∧
      Ended s t r wp fun _ th => th) ∧
    (a.dev ≠ none ∨ a.pa < 2 ^ 60 → st = .timeout → ∀ sent, a.sent = some sent → sent + a.limit ≤ (s.die (r.core / 8)).ticks →
      ∃ t, exec (.accessTimeout a.id) s = .next t ∧ fails t)) ∧
  ((∀ (s : State) (a : Acc) (r : TRef) (wp : Warp) (op : AtomOp) (cas ra u wide : Bool) (ty : AType) (ret : Option (Fin 512))
    (xs : List ALane) (lin : Nat) (rep : Reply),
    Sole s a r wp → a.kind = .atomic op cas ra u wide (ret.map fun v => .v v.val) xs → a.here s r lin → Uncached s r.core a.pa lin → regionOf a.pa = 1 →
    a.size = (if wide then 8 else 4) → lin % a.size = 0 → a.lanes = xs.map ALane.lane → xs ≠ [] →
    (∀ x ∈ xs, x.pa = a.pa ∧ x.val < 2 ^ (8 * a.size) ∧ x.cmp < 2 ^ (8 * a.size) ∧ x.pois = false ∧
      x.ty = ty ∧ x.key = 0 ∧ x.reach = a.reach) → dieOf r.core < s.dies.length →
    homeOf lin < s.stks.length →
    let w := 8 * a.size
    let old := s.numAt lin a.size
    let returns (t : State) (x : ALane) (was : Nat) : Prop := ∀ v, ret = some v → t.reg r.core r.warp (.v v.val) x.lane = ⟨BitVec.ofNat 32 was, x.tag.1⟩ ∧
      (wide = true → t.reg r.core r.warp (.v (v.val + 1)) x.lane = ⟨BitVec.ofNat 32 (was / 2 ^ 32), x.tag.2⟩)
    let names : List RName := match ret with
      | some v => if wide then [.v v.val, .v (v.val + 1)] else [.v v.val]
      | none => []
    let ends (t : State) (pub : Nat → Acqs) : Prop := s.sameRegs t r names a.lanes 7 ∧ ∃ n, Ended s t r wp fun l => a.tells (pub l) n s.nextId l
    let was : Nat → Acqs := fun _ => s.pubOf a
    (∀ x, xs = [x] → ty = .int → ¬s.markedAt lin a.size →
      let less (p q : Nat) : Prop := if u then p < q else (BitVec.ofNat w p).toInt < (BitVec.ofNat w q).toInt
      let new (z : Nat) : Prop := if cas then z = (if old = x.cmp then x.val else old) else match op with
        | .add => z = (old + x.val) % 2 ^ w
        | .and => z = Nat.land old x.val
        | .or => z = Nat.lor old x.val
        | .xor => z = Nat.xor old x.val
        | .exch => z = x.val
        | .min => (less x.val old → z = x.val) ∧ (¬less x.val old → z = old)
        | .max => (less old x.val → z = x.val) ∧ (¬less old x.val → z = old)
      ∃ t z, exec (.atomicPerform a.id rep) s = .next t ∧ ends t was ∧ new z ∧ s.stored t lin (bytesAs a.size z) ∧ t.marks = s.marks ∧ returns t x old) ∧
    (ty = .f32 → op = .add → cas = false → ra = false → wide = false → ¬s.markedAt lin a.size →
      let adds (o : Nat) (x : ALane) : Nat := FFmt.round .f32 .rn false (FVal.add false (FFmt.decode .f32 o) (FFmt.decode .f32 x.val))
      ∃ t pub, exec (.atomicPerform a.id rep) s = .next t ∧ ends t pub ∧ s.stored t lin (bytesAs 4 (xs.foldl adds old)) ∧ t.marks = s.marks ∧
        ∀ i x, xs[i]? = some x → returns t x ((xs.take i).foldl adds old)) ∧
    (∀ x, xs = [x] → s.markedAt lin a.size → ∃ t, exec (.atomicPerform a.id rep) s = .next t ∧ ends t was ∧ t.mem = s.mem ∧
      (∀ q, q ∈ t.marks ↔ q ∈ s.marks ∨ q / 4 = lin / 128) ∧
      (∀ v, ret = some v → (t.reg r.core r.warp (.v v.val) x.lane).tag = .poison) ∧
      (t.core r.core).poisonCnt = (s.core r.core).poisonCnt + 1 ∧ (t.stack (homeOf lin)).uncorr = (s.stack (homeOf lin)).uncorr + 1)) ∧
  (∀ (s : State) (k : Nat), risingFrom 0 (s.die k).predictor = true → k < s.dies.length → ∃ t, exec (.predictorDecay k) s = .next t ∧
    t = { s with dies := t.dies } ∧ (∀ j, j ≠ k → t.die j = s.die j) ∧ t.die k = { s.die k with predictor := (t.die k).predictor } ∧
    ∀ e, mget (t.die k).predictor e 0 = mget (s.die k).predictor e 0 - 1) ∧
  ∀ (s : State) (k line lin : Nat) (c : Copy), mget? (s.die k).dc line = some c → k < s.dies.length → linOf (line * 128) = some lin → c.key = 0 →
    c.bytes.length = 128 → s.frozenAt lin = false → ∃ t, exec (.lineRecall k line) s = .next t ∧
    (c.borrowed = false → t = s) ∧
    (c.borrowed = true → (t.cores, t.rows, t.scores, t.ctl, t.launches, t.accs, t.agenda) = (s.cores, s.rows, s.scores, s.ctl, s.launches, s.accs, s.agenda) ∧
      (∀ b, t.byteAt b = if lin ≤ b ∧ b < lin + 128 ∧ c.dirty.testBit (b - lin) = true then c.bytes.getD (b - lin) 0 else s.byteAt b) ∧
      (∀ j, j ≠ k → t.die j = s.die j) ∧ mget? (t.die k).dc line = some { c with borrowed := false, dirty := 0 } ∧
      (∀ j, j ≠ line → mget? (t.die k).dc j = mget? (s.die k).dc j) ∧
      let e := Nat.xor (line % 256) (line / 256 % 256)
      ∀ q, mget (t.die k).predictor q 0 = if q = e then min 3 (mget (s.die k).predictor e 0 + 1) else mget (s.die k).predictor q 0))

/-! ### Pages -/

/-- R257: PAGE_WALK walks the tables for a miss of a core. An address with bits above 54, an invalid or a non-resident entry, and an
access that the leaf does not permit install nothing; else AC is set in the leaf, and D for a store, in memory where they were clear,
and the core and its die hold the translation. R25: without the control die there is no walk. R261: PAGEIN_REQUEST walks the page of a
request. A resident page completes the request, an entry that is invalid completes it with a poisoned unit, and a non-resident one
queues it. PAGEIN_COMPLETION completes a queued request, and all those for its page; each adds a unit to its sync word, poisoned where
the request is refused. -/
def Obligations.PageEvents : Prop :=
  (∀ (s : State) (asid : Nat) (va : Dword) (store : Bool) (die core : Nat),
  let c := 8 * die + core % 8
  let e : Instr := .pageWalk asid va store die core
  let kind : XKind := if store then .store else .load
  (2 ^ 55 ≤ va.toNat → exec e s = .next s) ∧
  (va.toNat < 2 ^ 55 → s.ctl.alive = false → exec e s = .next { s with walkLost := true }) ∧
  ∀ u found, va.toNat < 2 ^ 55 → s.ctl.alive = true → (∀ m ∈ s.walks, m.ticket ≠ s.ticket) → s.walk asid va.toNat = (u, found) →
    let nothing : Prop := ∃ t, exec e s = .next t ∧ t = { u with walks := t.walks }
    (found = .invalid ∨ found = .absent → nothing) ∧
    ∀ x place, found = .leaf x place →
      let bars : Prop := (pteSec x.leaf = true ∧ (s.core c).ctx.sec = false) ∨ kind.permitted x.leaf = false
      (bars → nothing) ∧
      (¬bars → c < u.cores.length → die < u.dies.length → Plain u place 8 →
        let leaf := Nat.lor x.leaf (2 ^ 9 + if store then 2 ^ 8 else 0)
        let y : Xl := { x with leaf := leaf }
        ∃ t, exec e s = .next t ∧ (t.core c).tlb = tlbPut (u.core c).tlb 4096 y ∧ (t.die die).tlb = tlbPut (u.die die).tlb 65536 y ∧
          (leaf = x.leaf → (t.mem, t.marks, t.gaps) = (u.mem, u.marks, u.gaps)) ∧ (leaf ≠ x.leaf → u.stored t place (bytesAs 8 leaf)) ∧
          (∀ k, k ≠ c → t.core k = u.core k) ∧ (t.scores, t.ctl, t.accs, t.launches) = (u.scores, u.ctl, u.accs, u.launches))) ∧
  (∀ (s : State),
  (∀ (p : PageIn) (rest : List PageIn) (a : Acc) (r : TRef) (u : State) (found : WRes), s.ctl.pageins = p :: rest → p.walked = false →
    (∀ q ∈ rest, q.id ≠ p.id) → s.walk p.asid p.va = (u, found) → u.ctl = s.ctl → u.accs = [a] → a.id = p.id → a.kind = .pagein →
    a.who = .thread r → u.barriersOn r.core = [] →
    let ends (bad : Bool) : Prop := ∃ t, exec (.pageinRequest p.id) s = .next t ∧ t.ctl = { s.ctl with pageins := rest } ∧ t.accs = [] ∧
      (p.sync = .none → (t.mem, t.marks, t.gaps) = (u.mem, u.marks, u.gaps)) ∧
      ∀ lin sec, p.sync = .home lin 0 sec → lin % 16 = 0 → Plain u lin 16 → u.gains t lin 1 bad
    (∀ x place, found = .leaf x place → ends false) ∧ (found = .invalid → ends true) ∧
    (found = .absent → ∃ t, exec (.pageinRequest p.id) s = .next t ∧ t.accs = [] ∧ (t.mem, t.marks, t.gaps) = (u.mem, u.marks, u.gaps) ∧
      t.ctl = { s.ctl with pageins := { p with walked := true } :: rest })) ∧
  ∀ (id : Nat) (ok : Bool), ((∀ p ∈ s.ctl.pageins, p.id = id → p.walked = false) → exec (.pageinCompletion id ok) s = .next s) ∧
    ∀ p ∈ s.ctl.pageins, p.id = id → p.walked = true → (∀ q ∈ s.ctl.pageins, q.id = id → q = p) →
      let same (q : PageIn) : Prop := q.walked = true ∧ q.asid = p.asid ∧ q.va / 2 ^ 16 = p.va / 2 ^ 16
      ∃ t, exec (.pageinCompletion id ok) s = .next t ∧ (∀ q, q ∈ t.ctl.pageins ↔ q ∈ s.ctl.pageins ∧ ¬same q) ∧
        (t.cores, t.accs, t.launches) = (s.cores, s.accs, s.launches) ∧
        ((∀ q ∈ s.ctl.pageins, same q → q.sync = .none) → t.mem = s.mem) ∧
        ∀ lin sec, (s.ctl.pageins.filter fun q => decide (same q)) = [p] → p.sync = .home lin 0 sec → lin % 16 = 0 → Plain s lin 16 →
          s.gains t lin 1 (!ok))

/-! ### Bales -/

/-- R178, R179, R189, R195: BALE_TURN hands min(ROWPART, ALLOW) to the row and begins a turn with the rest, with what was written for
it, and the die reports its warps' advice; R180: of a die that does not run, the ROWPART alone goes on. RING_VISIT gives the core of its
place its share: to its reservation, to its rack up to the cap, and what is left passes on; a disabled core is skipped with its share.
R180, R197: ROW_RING_TURN takes the row's whole pool, and ROW_RING_VISIT gives a stack core its share in the same way; one that is
disabled, or whose base die is lost, is skipped. R184, R186, R197: RESERVATION_GRANT gives a reservation of its price to the wait of a
core that has lasted 2,048 cycles and began first, of equal starts to the lowest warp and last to the copy engine, while the core's four
places are not taken; a stack core's one wait likewise. R192: a regulator's alarm puts its cores into half-column mode and is counted;
after the alarm has been clear for 4,096 ring cycles a core leaves the mode at a tile boundary. R191: a stretched core's next edge comes
later. -/
def Obligations.BaleEvents : Prop :=
  (∀ (s : State) (k : Nat), k < 8 → s.dies.length = 8 → s.cores.length = 64 → s.rows.length = 4 →
  let r := (s.die k).ring
  let part := min r.nextRowpart r.nextAllow
  (∃ t, exec (.baleTurn k) s = .next t ∧ t.cores = s.cores ∧ (∀ j, j ≠ k → t.die j = s.die j) ∧
    t.rows = lmod s.rows (k % 4) (fun q => { q with bank := q.bank + part }) ∧
    ((s.die k).st ≠ .up → t.dies = s.dies ∧ t.ctl = s.ctl) ∧
    ((s.die k).st = .up → (t.die k).ring = { r with
        allow := r.nextAllow, rowpart := r.nextRowpart, step := r.nextStep, massen := r.nextMassen, turn := r.turn + 1,
        pool := r.nextAllow - part, visit := 0, prevSpent := r.spent, spent := 0, limit := r.spent + r.nextStep } ∧
      mget t.ctl.advice k [] = [1, 2, 3].map fun (a : Nat) =>
        ((List.range 8).map fun c => ((s.core (8 * k + c)).ctx.warps.countP fun w => w.2.phase == a)).sum)) ∧
  ∀ j < 8, (s.die k).st = .up →
    let c := 8 * k + (r.turn + j) % 8
    let core := s.core c
    let share := (r.pool + (8 - j) - 1) / (8 - j)
    let total (u : State) : Nat := (u.core c).rack + (((u.core c).resv ++ (u.core c).satisfied).map Resv.held).sum + (u.die k).ring.pool
    ∃ t, exec (.ringVisit k j) s = .next t ∧ (∀ i, i ≠ c → t.core i = s.core i) ∧ (∀ i, i ≠ k → t.die i = s.die i) ∧
      t.die k = { s.die k with ring := { r with pool := (t.die k).ring.pool, visit := j + 1 } } ∧
      t.core c = { core with rack := (t.core c).rack, resv := (t.core c).resv, satisfied := (t.core c).satisfied } ∧
      (core.enabled = false → t.core c = core ∧ (t.die k).ring.pool = r.pool) ∧
      (core.enabled = true → core.resv = [] → t.core c = { core with rack := core.rack + roomFor core.rack share } ∧
        (t.die k).ring.pool = r.pool - roomFor core.rack share) ∧
      (core.enabled = true → ∀ v l, core.resv = v :: l → (∀ q ∈ l, q.held < q.amount) → share ≤ v.amount - v.held →
        (t.core c).rack = core.rack ∧ (t.die k).ring.pool = r.pool - share ∧
        (v.held + share < v.amount → (t.core c).resv = { v with held := v.held + share } :: l ∧ (t.core c).satisfied = core.satisfied) ∧
        (v.held + share = v.amount → l = [] → (t.core c).resv = [] ∧ (t.core c).satisfied = core.satisfied ++ [{ v with held := v.amount }])) ∧
      total t = total s) ∧
  (∀ (s : State) (row : Nat), row < 4 → s.rows.length = 4 → s.scores.length = 64 →
  let r := lget s.rows row ⟨0, 0, 0, 0⟩
  (exec (.rowRingTurn row) s = .next { s with rows := lmod s.rows row fun q => { q with pool := q.bank, bank := 0, turn := q.turn + 1, visit := 0 } }) ∧
  ∀ j < 16,
    let n := 16 * row + (r.turn + j) % 16
    let k := s.score n
    let share := (r.pool + (16 - j) - 1) / (16 - j)
    let on : Prop := k.enabled = true ∧ (s.stack (n / 4)).alive = true
    let took (k' : SCore) (given : Nat) : Prop := exec (.rowRingVisit row j) s = .next { s.setScore n (fun _ => k') with
      rows := lmod s.rows row fun q => { q with pool := q.pool - given, visit := j + 1 } }
    (¬on → took k 0) ∧
    (on → k.resv = none → took { k with rack := k.rack + roomFor k.rack share } (roomFor k.rack share)) ∧
    (on → ∀ v, k.resv = some v → share < v.amount - v.held → took { k with resv := some { v with held := v.held + share } } share) ∧
    (on → ∀ v, k.resv = some v → v.held ≤ v.amount → v.amount - v.held ≤ share →
      let rest := share - (v.amount - v.held)
      took { k with resv := none, satisfied := some { v with held := v.amount }, rack := k.rack + roomFor k.rack rest }
        (v.amount - v.held + roomFor k.rack rest))) ∧
  (∀ (s : State) (c : Nat), c < 64 → s.cores.length = 64 → s.scores.length = 64 →
  let k := s.core c
  let mine (p : Payer) : Prop := (∃ r ∈ k.resv, r.who = p) ∨ ∃ r ∈ k.satisfied, r.who = p
  let due (w : Nat) (st price : Nat) : Prop := ∃ wp b, (w, wp) ∈ k.ctx.warps ∧ wp.bwait = some b ∧ b.start = st ∧ b.price = price ∧
    st + 2048 ≤ k.cycles ∧ ¬mine (.warp w)
  let copy (st price : Nat) : Prop := ∃ q, s.copyHead c = some q ∧ q.wait = some (st, price) ∧ st + 2048 ≤ k.cycles ∧ ¬mine .copy
  let grants (p : Payer) (price : Nat) : Prop :=
    (k.resv.length < 4 → exec (.reservationGrant c) s = .next (s.setCore c fun k => { k with resv := k.resv ++ [⟨p, price, 0⟩] })) ∧
    (4 ≤ k.resv.length → exec (.reservationGrant c) s = .next s)
  (risingFrom 0 k.ctx.warps = true → (∀ w ∈ k.ctx.warps, w.1 < 64) →
    (∀ w st price, due w st price → (∀ v st' p, due v st' p → v = w ∨ st < st' ∨ (st = st' ∧ w < v)) → (∀ st' p, copy st' p → st ≤ st') →
      grants (.warp w) price) ∧
    (∀ st price, copy st price → (∀ v st' p, due v st' p → st < st') → grants .copy price) ∧
    ((∀ w st price, ¬due w st price) → (∀ st price, ¬copy st price) → exec (.reservationGrant c) s = .next s)) ∧
  (let q := s.score c
   let wait (b : BWait) : Prop := q.bwait = some b ∧ b.start + 2048 ≤ (s.stack (c / 4)).scCycles ∧ q.resv = none ∧ q.satisfied = none
   (∀ b, wait b → exec (.reservationGrant (64 + c)) s = .next (s.setScore c fun q => { q with resv := some ⟨.warp 0, b.price, 0⟩ })) ∧
   ((∀ b, ¬wait b) → exec (.reservationGrant (64 + c)) s = .next s)) ∧
  (∀ reg < 4, (reg ∈ s.ctl.alarmOn → exec (.regulatorAlarm reg) s = .next s) ∧ (reg ∉ s.ctl.alarmOn → exec (.regulatorAlarmClear reg) s = .next s) ∧
    (reg ∉ s.ctl.alarmOn → ∃ t, exec (.regulatorAlarm reg) s = .next t ∧ (∀ i, i ∈ t.ctl.alarmOn ↔ i = reg ∨ i ∈ s.ctl.alarmOn) ∧
      mget t.ctl.alarms reg 0 = mget s.ctl.alarms reg 0 + 1 ∧ (∀ i, t.core i = { s.core i with half := (t.core i).half }) ∧
      (∀ i < 64, (t.core i).half = if (s.core i).regulator = reg then true else (s.core i).half) ∧ s.tells t 8 0 0 7 reg) ∧
    (reg ∈ s.ctl.alarmOn → ∃ t, exec (.regulatorAlarmClear reg) s = .next t ∧ (∀ i, i ∈ t.ctl.alarmOn ↔ i ≠ reg ∧ i ∈ s.ctl.alarmOn) ∧
      mget t.ctl.alarmClear reg 0 = s.clock ∧ t.cores = s.cores ∧ s.tells t 8 1 0 7 reg)) ∧
  (let tile (m : MEngine) : Prop := ∃ x, m.cur = some x ∧ m.midTile = true
   let ended : Prop := k.half = true ∧ k.regulator ∉ s.ctl.alarmOn ∧ mget s.ctl.alarmClear k.regulator 0 + 4096 ≤ s.clock ∧ ¬tile k.ctx.mat ∧
     ∀ x, k.twin = .parked x → ¬tile x.mat
   (ended → exec (.halfColumnExit c) s = .next (s.setCore c fun k => { k with half := false })) ∧
   (¬ended → exec (.halfColumnExit c) s = .next s)) ∧
  exec (.droopStretch c) s = .next (s.setCore c fun k => { k with stretch := k.stretch + 1 }) ∧
  ({ k with stretch := k.stretch + 1 } : Core).edge = k)

/-! ### Launch queues -/

/-- R360, R359, R357: LAUNCH_APPEND answers the first row that applies: DISABLED where the package is not READY or the queue not
enabled, DENIED where no entry of the access-control table lets the agent in (R359), BADPACKET, FULL at 256 packets, else OK: the packet
is the queue's last, and has its next sequence number. A refused append changes the queue's LASTST and REFUSED alone. Without the
control die, and for a queue that does not exist, there is no append. R363: DEPENDENCE_POLL makes the oldest packet of a queue ready
where each of its sync words has reached its generation, or is not named; one that faults ends the launch before it starts, with FAULT
and the class in its queue's completion register and a record. R364: PRIORITY_RISE counts its whole 2^20 ticks of wait, PASSOVER_EXPIRY
marks one passed over for 2^20 ticks. R364, R365, R367: SCHEDULER_START starts the first candidate in rank order (priority, then age)
that can start and that no overdue candidate of its partition stands before: it leaves its queue and is a launch. Its grid is cut at
multiples of 1,024 threads into parts for dies that have room, which together hold each of its threads once; instance j of a stack-level
launch waits at stack core j mod 4 of its stack. R366, R79, R110: WARP_ADMISSION places the next warp of a die's first range that finds
a place, in a free place of its quadrant: thread i is thread lo + i of the grid, at the entry, at U level, READY, or EXITED past the
grid's end; its registers are zero but w0 and w1, which hold ARG. The range is shorter by a warp. Without a place there is none. R368:
LAUNCH_END ends a launch whose threads have all been admitted and have all exited: OK, or POISONED. One that has ended is halted: its
threads are EXITED. Once nothing of it is under way it is gone, its queue's completion register says how it ended, and a record says so. -/
def Obligations.SchedulerEvents : Prop :=
  (∀ (s : State) (src : Appender) (part queue : Nat) (pkt : List Byte),
  let n := 64 * part + queue
  let q := s.ctl.queueOf n
  let e : Instr := .launchAppend src part queue pkt
  let queue' (q' : Queue) : Control := { s.ctl with queues := mset s.ctl.queues n q' }
  let refuses (code : Nat) : Prop :=
    exec e s = .next { s with ctl := queue' { q with lastst := code, refused := min 65535 (q.refused + 1) } }
  let lets (v : Dword) : Prop := v.getLsbD 63 = true ∧ v.toNat / 2 ^ 8 % 64 = part ∧ (v.getLsbD 6 = true ∨ v.toNat % 64 = queue) ∧
    match src with
    | .grooms => True
    | .host => v.getLsbD 40 = true
    | .peer dev p => v.getLsbD 40 = false ∧ (v.toNat / 2 ^ 48 % 2 ^ 12 = dev ∨ (s.localDev (v.toNat / 2 ^ 48 % 2 ^ 12) = true ∧ s.localDev dev = true)) ∧
      (v.getLsbD 41 = true ∨ v.toNat / 2 ^ 42 % 64 = p)
  let admitted : Prop := src = .grooms ∨ (∃ dev, src = .peer dev part ∧ s.localDev dev = true) ∨ ∃ x ∈ s.ctl.acl, lets x.2
  (s.ctl.alive = false ∨ 64 ≤ part ∨ 64 ≤ queue → exec e s = .next s) ∧
  (s.ctl.alive = true → part < 64 → queue < 64 →
    (s.ctl.boot ≠ .ready ∨ q.en = false → refuses 3) ∧
    (s.ctl.boot = .ready → q.en = true →
      (¬admitted → refuses 2) ∧
      (admitted → lpktOk pkt = false → refuses 4) ∧
      (admitted → lpktOk pkt = true → 256 ≤ q.waiting.length → refuses 1) ∧
      (admitted → lpktOk pkt = true → q.waiting.length < 256 → ∃ t w, exec e s = .next t ∧
        (let q' : Queue := { q with lastst := 0, waiting := q.waiting ++ [w], nextSeq := (q.nextSeq + 1) % 2 ^ 32 }
         t = { s with ctl := { queue' q' with order := s.ctl.order + 1 } }) ∧
        w.pkt = pkt ∧ w.seq = q.nextSeq ∧ (w.host = true ↔ src = .host) ∧ w.tick = s.ctl.ticks ∧ w.order = s.ctl.order ∧ w.ready = false ∧
        w.overdue = false ∧ w.passed = 0 ∧ w.rise = 0)))) ∧
  (∀ (s : State) (part queue : Nat) (w : Waiting) (rest : List Waiting),
  let n := 64 * part + queue
  let q := s.ctl.queueOf n
  let p := lpktOf w.pkt
  let head (w' : Waiting) : Control := { s.ctl with queues := mset s.ctl.queues n { q with waiting := w' :: rest } }
  let becomes (e : Instr) (w' : Waiting) : Prop := exec e s = .next { s with ctl := head w' }
  q.waiting = w :: rest →
    becomes (.priorityRise part queue) { w with rise := (s.ctl.ticks - w.tick) / 2 ^ 20 } ∧
    becomes (.passoverExpiry part queue) { w with overdue := w.overdue || decide (2 ^ 20 ≤ w.passed) } ∧
    (p.dep0 = 0 → p.dep1 = 0 → becomes (.dependencePoll part queue) { w with ready := true, polled := s.ctl.ticks }) ∧
    (∀ u leaf pa lin, p.dep0 ≠ 0 → p.dep1 = 0 → s.ctlSync q.asid p.dep0 false = (u, .ok (leaf, pa)) → u.ctl = s.ctl →
      s.localDev (pteDev leaf) = true → pteKey leaf = 0 → linOf pa = some lin → lin % 16 = 0 → Plain u lin 16 →
      let ahead : BitVec 32 := BitVec.ofNat 32 (u.numAt (lin + 8) 4) - BitVec.ofNat 32 p.gen0
      exec (.dependencePoll part queue) s = .next { u with ctl := head { w with ready := decide (0 ≤ ahead.toInt), polled := s.ctl.ticks } }) ∧
    ∀ u c, p.dep0 ≠ 0 → p.done = 0 → queue < 64 → part < 64 → s.ctlSync q.asid p.dep0 false = (u, .error c) → u.ctl = s.ctl →
      ∃ t, exec (.dependencePoll part queue) s = .next t ∧ (t.mem, t.cores, t.launches) = (u.mem, u.cores, u.launches) ∧
        (t.ctl.queueOf n).waiting.map Waiting.seq = rest.map Waiting.seq ∧
        ((t.ctl.queueOf n).compSeq, (t.ctl.queueOf n).compFcode, (t.ctl.queueOf n).compStatus) = (w.seq, c, 4) ∧ s.tells t 1 4 part 6 queue) ∧
  (∀ (s : State) (pre post : List (Nat × Nat × Waiting)) (part queue : Nat) (w : Waiting),
  (∀ l ∈ s.launches, l.2.waitingPart = []) → s.dies.length = 8 → s.scores.length = 64 →
  let l := s.launchOf part queue w
  let p := lpktOf w.pkt
  let seqs (u : State) (n : Nat) : List Nat := (u.ctl.queueOf n).waiting.map Waiting.seq
  (s.ctl.boot ≠ .ready ∨ s.ctl.alive = false ∨ (∀ c ∈ s.ranked, s.canStart c.1 c.2.1 c.2.2 = false) → exec .schedulerStart s = .next s) ∧
  ((∀ q ∈ s.ctl.queues, ∀ w ∈ q.2.waiting, w.order < 2 ^ 64) → s.ranked.Pairwise fun a b =>
    b.2.2.effPrio < a.2.2.effPrio ∨ (a.2.2.effPrio = b.2.2.effPrio ∧ a.2.2.order ≤ b.2.2.order)) ∧
  (s.ctl.boot = .ready → s.ctl.alive = true → s.ranked = pre ++ (part, queue, w) :: post → queue < 64 →
    (∀ c ∈ pre, s.canStart c.1 c.2.1 c.2.2 = false ∧ (c.1 = part → c.2.2.overdue = false)) → s.canStart part queue w = true →
    ∃ t, exec .schedulerStart s = .next t ∧ t.launches = mset s.launches s.nextLaunch l ∧ t.nextLaunch = s.nextLaunch + 1 ∧
      (t.mem, t.cores, t.stks, t.accs) = (s.mem, s.cores, s.stks, s.accs) ∧
      seqs t (64 * part + queue) = (seqs s (64 * part + queue)).drop 1 ∧ (∀ n, n ≠ 64 * part + queue → t.ctl.queueOf n = s.ctl.queueOf n) ∧
      (p.level = false → t.scores = s.scores ∧ ∃ new : Nat → List Range, (∀ k < 8, t.die k = { s.die k with ranges := (s.die k).ranges ++ new k }) ∧
        (∀ k < 8, ∀ r ∈ new k, r.launch = s.nextLaunch ∧ r.lo < r.hi ∧ r.hi ≤ p.grid ∧ r.lo % 1024 = 0 ∧ 0 < s.capacity l.ask k) ∧
        ∀ i < p.grid, (((List.range 8).flatMap new).filter fun r => decide (r.lo ≤ i ∧ i < r.hi)).length = 1) ∧
      (p.level = true → p.grid ≤ 4 * p.named.length → t.dies = s.dies ∧ ∀ n < 64,
        let row (x : Inst) : Nat × Nat × Nat × Nat × Dword × Bool := (x.launch, x.idx, x.ninst, x.pc, x.arg, x.sLevel)
        (t.score n).queue.map row = (s.score n).queue.map row ++
          ((List.range p.grid).filter fun j => 4 * p.named.getD (j / 4) 0 + j % 4 == n).map fun j =>
            (s.nextLaunch, j, p.grid, p.entry, BitVec.ofNat 64 p.arg, false)))) ∧
  (∀ (s : State) (k : Nat), s.cores.length = 64 → s.dies.length = 8 →
  (s.nextAdmission k = none → exec (.warpAdmission k) s = .next s) ∧
  ∀ r l c quad, s.nextAdmission k = some (r, l, c, quad) → quad < 4 → c < 64 → (∃ n, n / 16 = quad ∧ s.warp? c n = none) →
    s.launch? l.id = some l →
    ∃ t n wp, exec (.warpAdmission k) s = .next t ∧ n / 16 = quad ∧ s.warp? c n = none ∧ t.warp? c n = some wp ∧
      (∀ c' n', (c', n') ≠ (c, n) → t.warp? c' n' = s.warp? c' n') ∧
      (t.mem, t.marks, t.stks, t.scores, t.ctl, t.accs) = (s.mem, s.marks, s.stks, s.scores, s.ctl, s.accs) ∧
      (wp.launch, wp.width, wp.vregs, wp.uregs, wp.threads.length) = (l.id, l.width, l.vregs, l.uregs, l.width) ∧
      (∀ i th, wp.threads[i]? = some th → th.tid = r.lo + i ∧ th.pc = l.entry ∧ th.sLevel = false ∧
        th.st = (if r.lo + i < l.grid then .ready else .exited) ∧ th.groups = [] ∧ th.rerrCount = 0) ∧
      (∀ m i, m ≠ .seed → m ≠ .p 7 → t.reg c n m i = if 8 ≤ l.uregs ∧ m = .w 0 then ⟨l.arg.extractLsb' 0 32, .i32⟩
        else if 8 ≤ l.uregs ∧ m = .w 1 then ⟨l.arg.extractLsb' 32 32, .i32⟩ else .zero) ∧
      (mget? (t.core c).ctx.views l.id).isSome = true ∧
      (∀ v, mget? (s.core c).ctx.views l.id = some v → mget? (t.core c).ctx.views l.id = some v) ∧
      (∀ q, q ∈ (t.die k).ranges ↔ (q ∈ (s.die k).ranges ∧ q ≠ r) ∨ (q = { r with lo := r.lo + l.width } ∧ r.lo + l.width < r.hi)) ∧
      t.launches = mset s.launches l.id { l with admitted := l.admitted + (min l.grid (r.lo + l.width) - r.lo), live := l.live + 1 }) ∧
  (∀ (s : State) (id : Nat) (st : LStat),
  (s.launch? id = none → exec (.launchEnd id st) s = .next s) ∧
  ∀ l, s.launch? id = some l →
    (l.ended = none → l.grid ≤ l.admitted → l.live = 0 →
      let how : LStat := if l.poisoned then .poisoned else .ok
      let ls := mset s.launches id { l with ended := some (how, 0) }
      exec (.launchEnd id st) s = .next { s with launches := ls, agenda := s.agenda ++ [.ev (.launchEnd id how)] }) ∧
    (l.ended = none → l.admitted < l.grid ∨ l.live ≠ 0 → exec (.launchEnd id st) s = .next s) ∧
    (l.ended ≠ none → s.ctl.alive = false → exec (.launchEnd id st) s = .next s) ∧
    ∀ e, l.ended = some e → s.ctl.alive = true → ∃ t, exec (.launchEnd id st) s = .next t ∧
      (∀ c w wp, t.warp? c w = some wp → wp.launch = id → ∀ th ∈ wp.threads, th.st = .exited) ∧
      (s.quiet id = true → l.done = 0 → l.queue < 64 → l.part < 64 → (∀ k < 8, ∀ x ∈ (s.die k).dc, x.2.launches.contains id = false) →
        t.launches = mdel s.launches id ∧ t.mem = s.mem ∧
        (let q := t.ctl.queueOf (64 * l.part + l.queue)
         (q.compSeq, q.compFcode, q.compStatus) = (l.seq, (if e.1 = .fault then e.2 else 0), e.1.code)) ∧
        s.tells t 1 e.1.code l.part 6 l.queue))

/-! ### Contexts -/

/-- R445, R449: PREEMPT_REQUEST asks a core that runs a partition with a valid save region, or none, to stop its warps. R447, R448,
R450: CONTEXT_SWAP, once they have stopped, makes the other twin's context of a partition ACTIVE, or a new empty one, and CPART names
the partition; each of its warps is as it was parked, and each outgoing warp is parked as it was. CONTEXT_RESTORE reads a saved context
into a FREE twin. TWIN_DRAIN_END saves a PARKED context whose engines have stopped, writing its save region alone. R462, R463, R464:
POWER_UP starts the package from its reset state, with the valid image of the higher version. Without one, or where the self-test fails,
it comes to its safe state: STATE and the stage and the code say so, no key slot is loaded, no path is up. Else it is READY, with the
enabled units that the image names. -/
def Obligations.ContextEvents : Prop :=
  (∀ (s : State) (c part : Nat), s.cores.length = 64 → c < 64 →
  let k := s.core c
  let may : Prop := s.ctl.alive = true ∧ (s.die (c / 8)).st = .up ∧ ∀ p, k.ctx.part = some p → (s.saveOf p).v = true
  let only (k' : Core) : State := s.setCore c fun _ => k'
  -- what a warp keeps while it is parked
  let kept (w w' : Warp) : Prop := (w'.launch, w'.width, w'.v, w'.w, w'.p, w'.sq, w'.copyOut, w'.matOut, w'.collOut, w'.gstat) =
      (w.launch, w.width, w.v, w.w, w.p, w.sq, w.copyOut, w.matOut, w.collOut, w.gstat) ∧
    w'.threads.map (fun th => (th.pc, th.sLevel, th.epc, th.fault, th.tid, th.seed, th.groups)) =
      w.threads.map fun th => (th.pc, th.sLevel, th.epc, th.fault, th.tid, th.seed, th.groups)
  let same (x y : Ctx) : Prop := x.views = y.views ∧ x.groups = y.groups ∧ x.mat = y.mat ∧
    ∀ w, (∀ wp, mget? y.warps w = some wp → ∃ wp', mget? x.warps w = some wp' ∧ kept wp wp') ∧ (mget? y.warps w = none → mget? x.warps w = none)
  let flips (x : Ctx) : Prop := (∀ wp ∈ x.warps, ∀ th ∈ wp.2.threads, ∀ g m p, th.st ≠ .engine g m p) → ∃ t, exec (.contextSwap c part) s = .next t ∧
    same (t.core c).ctx x ∧ (t.core c).ctx.part = some part ∧ (t.core c).preempt = none ∧ t.ctl.cpart? c = some part ∧
    (k.ctx.isEmpty = true → (t.core c).twin = .free) ∧ (k.ctx.isEmpty = false → ∃ y, (t.core c).twin = .parked y ∧ same y k.ctx) ∧
    (∀ j, j ≠ c → t.core j = s.core j) ∧ (t.mem, t.stks, t.scores, t.accs, t.launches) = (s.mem, s.stks, s.scores, s.accs, s.launches)
  let stopped : Prop := k.preempt ≠ none ∧ k.allStopped = true ∧ (s.saveOf part).v = true ∧ s.ctl.alive = true
  (may → exec (.preemptRequest c) s = .next (only { k with preempt := some k.ctx.part })) ∧
  (¬may → exec (.preemptRequest c) s = .next s) ∧
  (¬stopped → exec (.contextSwap c part) s = .next s) ∧
  (stopped → ∀ x, k.twin = .parked x ∨ k.twin = .staged x → x.part = some part → s.ctxDone c x = true → flips x) ∧
  (stopped → ∀ x, k.twin = .parked x → x.part ≠ some part ∨ s.ctxDone c x = false → exec (.contextSwap c part) s = .next s) ∧
  (stopped → k.twin = .free → mget? k.saved part = none → flips .empty) ∧
  (stopped → k.twin = .free → mget? k.saved part ≠ none → exec (.contextSwap c part) s = .next s) ∧
  (k.twin = .free → ∀ x, mget? k.saved part = some x →
    exec (.contextRestore c part) s = .next (only { k with twin := .staged x, saved := mdel k.saved part })) ∧
  (k.twin = .free → mget? k.saved part = none → exec (.contextRestore c part) s = .next s) ∧
  (∀ x, k.twin = .parked x → exec (.contextRestore c part) s = .next s) ∧
  ((∀ x, k.twin ≠ .parked x) → exec (.twinDrainEnd c) s = .next s) ∧
    ∀ x, k.twin = .parked x → (x.enginesStopped = false → exec (.twinDrainEnd c) s = .next s) ∧
      ∀ p, x.enginesStopped = true → x.part = some p → (∀ j, (s.stack j).frozen = []) → ∃ t, exec (.twinDrainEnd c) s = .next t ∧
        t.core c = { k with twin := .free, saved := mset k.saved p x } ∧ (∀ j, j ≠ c → t.core j = s.core j) ∧
        (t.ctl, t.dies, t.scores, t.accs, t.launches) = (s.ctl, s.dies, s.scores, s.accs, s.launches) ∧
        ∀ b, (∀ i < 0x600000, linOf ((s.saveOf p).base * 2 ^ 16 + 0x600000 * c + i) ≠ some b) → t.byteAt b = s.byteAt b) ∧
  (∀ (s : State) (fail : Option BootFail), s.ctl.images.length = 2 →
  ∃ t, exec (.powerUp fail) s = .next t ∧ t.ctl.images = s.ctl.images ∧ t.ctl.keys = [] ∧
    (t.mem, t.marks, t.gaps, t.launches, t.accs, t.colls, t.turn) = ([], [], [], [], [], [], .idle) ∧
    (∀ c, (t.core c).ctx = .empty ∧ (t.core c).rack = 0) ∧ (∀ j p, (t.path j p).st = .down) ∧
    ((∀ i ∈ s.ctl.images, i.valid = false) → (t.ctl.boot, t.ctl.stage, t.ctl.bootCode, t.ctl.accepted) = (.safe, 1, 1, none) ∧
      ∀ j < 16, (t.stack j).live = List.replicate 6 0) ∧
    ((∃ i ∈ s.ctl.images, i.valid = true) → ∃ n i, s.ctl.images[n]? = some i ∧ i.valid = true ∧
      (∀ j ∈ s.ctl.images, j.valid = true → j.version ≤ i.version) ∧ t.ctl.accepted = some n ∧
      (t.ctl.devnum, t.ctl.bridge, t.ctl.imageVersion, t.ctl.kwKey) = (i.devnum.toNat, i.bridge, i.version, i.kwKey) ∧
      (fail = none → (t.ctl.boot, t.ctl.stage, t.ctl.bootCode) = (.ready, 7, 0) ∧
        (∀ c < 64, (t.core c).enabled = (i.cores.getLsbD c && i.dies.getLsbD (c / 8))) ∧
        (∀ j < 8, (t.die j).st = if i.dies.getLsbD j then .up else .down) ∧
        (∀ n < 64, (t.score n).enabled = i.stackCores.getLsbD n) ∧ ∀ j < 16, (t.stack j).scEn = true) ∧
      ∀ f, fail = some f → (t.ctl.boot, t.ctl.stage, t.ctl.bootCode, t.ctl.bootUkind, t.ctl.bootUnit, t.ctl.bootDetail) =
        (.safe, f.stage.val, f.code.toNat, f.ukind.toNat, f.unit.toNat, f.detail.toNat)))

/-! ### Failures -/

/-- R25, R369, R451, R24: DIE_LOST of a die that works: it is lost, reset or powered down; its cores are as after reset, with one error
counted, but for what the control die holds of them; its launches with threads there end DIE_LOST; a record says so. STACK_LOST: the
stack's memory and paths are gone, its stack cores are as after reset, and every launch ends STACK_LOST. Of a unit that is lost, or does
not exist, nothing is lost again. R25: ATTACH_PORT_FAILURE and YARD_LINK_FAILURE are noted, counted at the stacks at their ends, and
recorded; no launch ends. CONTROL_DIE_FAILURE ends the control die's work; 1 ms after its last heartbeat, HEARTBEAT_TIMEOUT holds cores
and stack cores. R452, R453: CORRECTED_ERROR adds 1 to a counter of the core or the stack at which it arose, and changes no value.
UNCORRECTABLE_ERROR also poisons the register, the row, the bank word or the sector that it strikes; one of a stack's memory makes a
record. R456, R457, R405: SNAPSHOT_OPEN freezes every dirty unit of the range, which is dirty no more; with none the snapshot is over at
once, and a record says so; else an S-level instance of the snapshot's program waits at an enabled stack core. R458: SNAPSHOT_UNIT_COPY,
while it runs, writes the lowest frozen unit to the stream, a header of 64 bytes and its 64 KiB, and thaws it; a stream write that fails
ends the snapshot FAILED, and its units are dirty again. -/
def Obligations.FailureEvents : Prop :=
  (∀ (s : State) (k code : Nat), s.cores.length = 64 → s.dies.length = 8 → s.stks.length = 16 → s.scores.length = 64 →
  (8 ≤ k ∨ 3 ≤ code ∨ ((s.die k).st ≠ .up ∧ code = 0) → exec (.dieLost k code) s = .next s) ∧
  (k < 8 → code < 3 → ((s.die k).st = .up ∨ code ≠ 0) → ∃ t, exec (.dieLost k code) s = .next t ∧
    (t.die k).st = [.lost, .reset, .down].getD code .up ∧ ((t.die k).sheds, (t.die k).shedMap, (t.die k).dc, (t.die k).pens, (t.die k).ranges) = ([], [], [], [], []) ∧
    (t.die k).ring.nextRowpart = (s.die k).ring.nextRowpart ∧
    (∀ c, c / 8 = k → ((t.core c).enabled, (t.core c).uncorr, (t.core c).cycles, (t.core c).rack) = ((s.core c).enabled, 1, 0, 0) ∧
      (t.core c).ctx = { Ctx.empty with part := s.ctl.cpart? c } ∧ ((t.core c).twin, (t.core c).saved, (t.core c).l1) = (.free, [], [])) ∧
    (∀ i l, s.launch? i = some l → (∀ x ∈ s.launches, ∀ y ∈ s.launches, x.1 = y.1 → x = y) → (t.launch? i).map Launch.ended =
      some (if s.dieHolds k i = true ∧ l.ended = none then some (.dieLost, 0) else l.ended)) ∧
    ((∀ a ∈ s.accs, a.ofDie k = false) → (∀ p ∈ (s.die k).dc, p.2.borrowed = false) → t.mem = s.mem ∧ s.tells t 5 code 0 1 k ∧
      t.accs.map Acc.id = s.accs.map Acc.id ∧ (∀ c, c / 8 ≠ k → t.core c = s.core c) ∧ (t.stks, t.scores) = (s.stks, s.scores))) ∧
  (16 ≤ k ∨ (s.stack k).alive = false → exec (.stackLost k) s = .next s) ∧
  (k < 16 → (s.stack k).alive = true → ∃ t, exec (.stackLost k) s = .next t ∧ (t.stack k).alive = false ∧
    (t.stack k).uncorr = (s.stack k).uncorr + 1 ∧ (∀ p, (t.path k p).st = .down) ∧ (∀ j, j ≠ k → t.stack j = s.stack j) ∧
    (∀ n, n / 4 = k → t.score n = { SCore.reset with enabled := (s.score n).enabled }) ∧ (∀ n, n / 4 ≠ k → t.score n = s.score n) ∧
    (t.mem, t.cores, t.dies) = (s.mem, s.cores, s.dies) ∧ s.tells t 6 0 0 2 k ∧
    t.accs.map Acc.id = (s.accs.filter fun a => match a.who with
      | .score n => n / 4 != k
      | .thread _ => true).map Acc.id ∧
    ∀ i l, s.launch? i = some l → (∀ x ∈ s.launches, ∀ y ∈ s.launches, x.1 = y.1 → x = y) →
      (t.launch? i).map Launch.ended = some (if l.ended = none then some (.stackLost, 0) else l.ended))) ∧
  (∀ (s : State) (a b : Nat), s.stks.length = 16 → s.cores.length = 64 →
  let records (t : State) : Prop := (s.ctl.events.length < 4096 → ∃ r, t.ctl.events = s.ctl.events ++ [r]) ∧
    (4096 ≤ s.ctl.events.length → t.ctl.events = s.ctl.events ∧ t.ctl.drops = s.ctl.drops + 1)
  let goesOn (t : State) : Prop := records t ∧ (t.mem, t.dies, t.scores, t.launches) = (s.mem, s.dies, s.scores, s.launches) ∧
    t.accs.map Acc.id = s.accs.map Acc.id ∧ ∀ c, (t.core c).ctx = (s.core c).ctx
  (a < 8 → b < 4 → ∃ t, exec (.attachPortFailure a b) s = .next t ∧ goesOn t ∧
    (∀ p, p ∈ t.ctl.badPorts ↔ p = (a, b) ∨ p ∈ s.ctl.badPorts) ∧
    ∀ j < 16, (t.stack j).uncorr = (s.stack j).uncorr + if j = 4 * (a % 4) + b then 1 else 0) ∧
  (a < 16 → b < 16 → a ≠ b → ∃ t, exec (.yardLinkFailure a b) s = .next t ∧ goesOn t ∧
    (∀ p, p ∈ t.ctl.badLinks ↔ p = (min a b, max a b) ∨ p ∈ s.ctl.badLinks) ∧
    ∀ j < 16, (t.stack j).uncorr = (s.stack j).uncorr + if j = a ∨ j = b then 1 else 0) ∧
  (s.ctl.alive = false → exec .controlDieFailure s = .next s) ∧
  (s.ctl.alive = true → ∃ t, exec .controlDieFailure s = .next t ∧ t.ctl.alive = false ∧ records t ∧ t = { s with ctl := t.ctl }) ∧
  (let silent : Prop := s.ctl.alive = false ∧ 30 * s.ctl.ticks + 3000000 ≤ s.clock
   (silent → exec .heartbeatTimeout s = .next { s with ctl := { s.ctl with heartbeat := false } }) ∧
   (¬silent → exec .heartbeatTimeout s = .next s))) ∧
  (∀ (s : State), s.cores.length = 64 → s.stks.length = 16 → s.dies.length = 8 →
  let corr (c : Nat) (u : State) : State := u.setCore c fun k => { k with corr := k.corr + 1 }
  let unc (c : Nat) (u : State) : State := u.setCore c fun k => { k with uncorr := k.uncorr + 1 }
  (∀ p c, s.errAt p = .inl c → exec (.correctedError p) s = .next (corr c s)) ∧
  (∀ sec, exec (.correctedError (.memory sec)) s = .next (s.setStack (homeOf (32 * sec)) fun k => { k with corr := k.corr + 1 })) ∧
  (∀ (t : TRef) (c w n l i j : Nat), s.errAt (.vreg t n) = .inl t.core ∧ s.errAt (.ureg c w n) = .inl c ∧ s.errAt (.tileRow c l i j) = .inl c ∧
    s.errAt (.manger c l i j) = .inl c ∧ s.errAt (.l1 c n) = .inl c) ∧
  (∀ k n w, (∀ e ∈ (s.die k).shedMap, e.1 < 512) → ∃ c, s.errAt (.shedWord k n w) = .inl c ∧ c / 8 = k) ∧
  (∀ k n, ∃ c, s.errAt (.dieCache k n) = .inl c ∧ c / 8 = k) ∧
  (∀ (r : TRef) (n : Nat), s.warp? r.core r.warp ≠ none → r.core < 64 → r.lane < 128 → ∃ t v, exec (.uncorrectableError (.vreg r n)) s = .next t ∧
    (∀ m l, l < 128 → m ≠ .seed → t.reg r.core r.warp m l = if m = .v n ∧ l = r.lane then ⟨v, .poison⟩ else s.reg r.core r.warp m l) ∧
    (t.core r.core).uncorr = (s.core r.core).uncorr + 1 ∧ (∀ c w, (c, w) ≠ (r.core, r.warp) → t.warp? c w = s.warp? c w) ∧ t = { s with cores := t.cores }) ∧
  (∀ c w n, s.warp? c w ≠ none → c < 64 → ∃ t v, exec (.uncorrectableError (.ureg c w n)) s = .next t ∧
    (∀ m l, l < 128 → m ≠ .seed → t.reg c w m l = if m = .w n then ⟨v, .poison⟩ else s.reg c w m l) ∧
    (t.core c).uncorr = (s.core c).uncorr + 1 ∧ (∀ c' w', (c', w') ≠ (c, w) → t.warp? c' w' = s.warp? c' w') ∧ t = { s with cores := t.cores }) ∧
  (∀ k n w, k < 8 → ∃ t c, exec (.uncorrectableError (.shedWord k n w)) s = .next t ∧ s.errAt (.shedWord k n w) = .inl c ∧
    (∀ q, q ∈ (mget (t.die k).sheds n ⟨[], [], []⟩).marks ↔ q = w ∨ q ∈ (mget (s.die k).sheds n ⟨[], [], []⟩).marks) ∧
    (mget (t.die k).sheds n ⟨[], [], []⟩).bytes = (mget (s.die k).sheds n ⟨[], [], []⟩).bytes ∧ { t with dies := s.dies } = unc c s) ∧
  (∀ p c, (∀ r n, p ≠ .vreg r n) → (∀ c w n, p ≠ .ureg c w n) → s.errAt p = .inl c → exec (.uncorrectableError p) s = .next (unc c (s.errMark p))) ∧
  ∀ sec, ∃ t, exec (.uncorrectableError (.memory sec)) s = .next t ∧ t.mem = s.mem ∧ (∀ q, q ∈ t.marks ↔ q = sec ∨ q ∈ s.marks) ∧
    (t.stack (homeOf (32 * sec))).uncorr = (s.stack (homeOf (32 * sec))).uncorr + (if homeOf (32 * sec) < 16 then 1 else 0) ∧
    s.tells t 4 0 0 2 (homeOf (32 * sec) % 2048) ∧ (t.cores, t.dies, t.scores, t.launches) = (s.cores, s.dies, s.scores, s.launches)) ∧
  (∀ (s : State) (k : Nat), k < 16 → s.stks.length = 16 → s.scores.length = 64 →
  let q := s.stack k
  let dirty (u : Nat) : Prop := q.snapFirst ≤ u ∧ u ≤ q.snapLast ∧ u ∉ q.clean
  let others (t : State) : Prop := ∀ j, j ≠ k → t.stack j = s.stack j
  (q.alive = false ∨ q.snapSt = .copying → exec (.snapshotOpen k) s = .next s) ∧
  (q.alive = true → q.snapSt ≠ .copying → ∃ t, exec (.snapshotOpen k) s = .next t ∧ (t.mem, t.cores, t.dies) = (s.mem, s.cores, s.dies) ∧ others t ∧
    ((t.stack k).snapSeq, (t.stack k).snapCopied) = (q.snapSeq + 1, 0) ∧
    (∀ u, u ∈ (t.stack k).frozen ↔ dirty u) ∧ (∀ u, u ∈ (t.stack k).clean ↔ u ∈ q.clean ∨ dirty u) ∧
    ((∀ u, ¬dirty u) → (t.stack k).snapSt = .idle ∧ t.scores = s.scores ∧ s.tells t 9 0 0 2 k) ∧
    ((∃ u, dirty u) → (t.stack k).snapSt = .copying ∧ t.ctl = s.ctl ∧ ((∃ n, n / 4 = k ∧ (s.score n).enabled = true) →
      ∃ n y, n / 4 = k ∧ (s.score n).enabled = true ∧ t.score n = { s.score n with queue := (s.score n).queue ++ [y] } ∧
        (y.serve, y.sLevel) = (some .snapshot, true) ∧ ∀ j, j ≠ n → t.score j = s.score j))) ∧
  (∀ ok, q.frozen = [] ∨ q.alive = false ∨ s.snapRuns k = false → exec (.snapshotUnitCopy k ok) s = .next s) ∧
  ∀ u us ok, q.frozen = u :: us → q.alive = true → s.snapRuns k = true →
    (let fails : Prop := ∃ t, exec (.snapshotUnitCopy k ok) s = .next t ∧ t.mem = s.mem ∧ others t ∧ s.tells t 9 1 0 2 k ∧
       ((t.stack k).snapSt, (t.stack k).frozen) = (.failed, []) ∧ ∀ v, v ∈ (t.stack k).clean ↔ v ∈ q.clean ∧ v ∉ u :: us
     let away : Prop := q.snapDev ≠ 0xFFF ∧ q.snapDev ≠ s.ctl.devnum
     (away → ok = false ∨ 2 ^ 44 ≤ q.snapDst.toNat + 65600 * q.snapCopied → fails)) ∧
    ∀ lin, q.snapDev = 0xFFF ∨ q.snapDev = s.ctl.devnum → q.snapDst.toNat + 65600 * q.snapCopied = 2 ^ 42 + lin → lin + 65600 ≤ 2 ^ 40 →
      (∀ i < 65600, s.frozenAt (lin + i) = false) → (∀ j, (s.stack j).alive = true) →
      let image : List Byte := bytesAs 4 q.snapSeq.toNat ++ bytesAs 4 k ++ bytesAs 4 u ++ List.replicate 52 0 ++
        (List.range 65536).map fun i => s.byteAt (k * 2 ^ 36 + u * 2 ^ 16 + i)
      ∃ t, exec (.snapshotUnitCopy k ok) s = .next t ∧ s.stored t lin image ∧ (t.cores, t.dies, t.scores) = (s.cores, s.dies, s.scores) ∧
        (∀ v, v ∈ (t.stack k).frozen ↔ v ∈ us ∧ v ≠ u) ∧ (t.stack k).snapCopied = q.snapCopied + 1 ∧
        ((∀ v ∈ us, v = u) → (t.stack k).snapSt = .idle ∧ s.tells t 9 0 0 2 k) ∧
        ((∃ v ∈ us, v ≠ u) → (t.stack k).snapSt = q.snapSt ∧ t.ctl = s.ctl))

/-! ### Optical paths -/

/-- R418, R419, R424: FLIT_SEND fills a slot of a path: an idle flit where the path is held, or has 256 flits unacknowledged, or has
nothing to send; a replay where one is asked for, which REPLAYS counts; else a new flit, which is kept until it is acknowledged: the
next of the packet begun, else a REQ-1 flit that has waited 64 slots, else of MGMT, RSP, REQ-2, REQ-1 the first that has one. Each takes
the next counter and acknowledges what has come. KEY_FLIP goes over to the next key where one is installed; OLD_KEY_DISCARD ends the
4,096 slots of both. R419, R424, R425, R412: FLIT_RECEIVE takes a flit that verifies under the expected counter and a phase whose key is
held. Its ACK frees what it covers. One in sequence is accepted, and with the last of its packet the packet is delivered; one ahead of
it asks for a replay, and so does a flit that does not verify, which is counted; one that came before changes nothing. R420, R423, R425,
R426: PATH_DOWN takes down a path of which a flit has been resent 32 times, or which has no lane left in a direction, or which has no
key; KEY_EXHAUSTION one that has sent 2^32 slots under its key without a next one. Its flits are discarded, its counters stay, and a
record says so. PATH_UP brings a path up, under fresh keys, on the lanes that its sender may use and that have not gone dark. R421,
R422, R476: LOSS_OF_LIGHT and RESTRIPE set a direction's new lanes and the slot at which they apply, the first with a message to the
peer; loss of the last lane takes the path down. RESTRIPE_SWITCH applies them at their slot: the egress direction is held no longer, and
replays from the lowest NAK that it kept. LANE_RETURN starts the restripe that brings a lane back. Records say so (R422). R397, R421,
R411: LANEEN_WRITE and LASERCTL_WRITE are held by their registers; each path that uses a lane that they take out, and no other, starts a
restripe to its other lanes, and tells its peer. R422, R397: LASER_MODULE_FAILURE is noted in OPEVT and recorded; paths with lanes of
the module send idle flits alone until they are restriped, and those without another go down. R429: SAFE_STATE_REPORT makes a device
unreachable. R428, R359, R25: INBOUND_PACKET at its target: a device whose partition no entry of the access-control table lets in, an
address without memory behind it, and a key slot that does not serve the agent are refused, with a record and the answer REMOTE_FAULT.
Else the access is performed at the home slice and answered: a read with the bytes, a write, a sync-word add and an integer addition in
place. A packet for another device goes on to its second hop, or is discarded with a record. A lost stack, and a package without its
control die, answer nothing. -/
def Obligations.LinkEvents : Prop :=
  (∀ (s : State) (k p : Nat), k < 16 → p < 32 → s.stks.length = 16 → (s.stack k).paths.length = 32 →
  let x := s.path k p
  let q := x.queue
  let becomes (e : Instr) (y : Path) : Prop := exec e s = .next (s.setPath k p fun _ => y)
  let send : Instr := .flitSend ⟨k, p⟩
  let base : Path := { x with txCounter := x.txCounter + 1, sinceFlip := x.sinceFlip + 1, queue := q.map fun e => (e.1, e.2 + 1),
                              nakSlots := if x.nakSlots = 0 then 0 else x.nakSlots + 1 }
  let flit (f : Flit) (idle : Bool) (seq : Nat) : Prop := f.phase = x.txPhase ∧ f.counter = x.txCounter ∧ f.ack = (x.rxNext + 1023) % 1024 ∧
    f.intact = true ∧ f.zero = 0 ∧ f.idle = idle ∧ (idle = false → f.seq = seq) ∧ (f.nak = true ↔ 0 < x.nakSlots ∧ (x.nakSlots - 1) % 64 = 0)
  let idles : Prop := ∃ f, flit f true 0 ∧ becomes send { base with wire := some f }
  let sends (i : Nat) (b : FlitBody) : Prop := ∃ f, flit f false x.nextSeq ∧ f.body = b ∧ becomes send { base with
    wire := some f, queue := base.queue.eraseIdx i, mid := (if b.last then none else some b.vc), buffer := x.buffer ++ [⟨x.nextSeq, b, 0⟩],
    nextSeq := (x.nextSeq + 1) % 1024 }
  let starved (e : FlitBody × Nat) : Prop := e.1.vc = 0 ∧ 64 ≤ e.2
  (x.st = .down → exec send s = .next s) ∧
  (x.st ≠ .down → x.idleOnly = true → idles) ∧
  (x.st ≠ .down → x.idleOnly = false → x.resend = [] → 256 ≤ x.buffer.length ∨ q = [] → idles) ∧
  (x.st ≠ .down → x.idleOnly = false → ∀ seq rest b, x.resend = seq :: rest → x.buffer.find? (fun b => b.seq == seq) = some b →
    ∃ f, flit f false seq ∧ f.body = b.body ∧ becomes send { base with
      wire := some f, resend := rest, replays := min 65535 (x.replays + 1),
      buffer := x.buffer.map fun c => if c.seq = seq then { c with resent := c.resent + 1 } else c }) ∧
  (x.st ≠ .down → x.idleOnly = false → x.resend = [] → x.buffer.length < 256 → (∀ e ∈ q, e.1.vc ≤ 3) → ∀ i b n, q[i]? = some (b, n) →
    (∀ vc, x.mid = some vc → b.vc = vc → (∀ j < i, ∀ e, q[j]? = some e → e.1.vc ≠ vc) → sends i b) ∧
    (x.mid = none → starved (b, n) → (∀ j < i, ∀ e, q[j]? = some e → ¬starved e) → sends i b) ∧
    (x.mid = none → (∀ e ∈ q, ¬starved e) → (∀ e ∈ q, e.1.vc ≤ b.vc) → (∀ j < i, ∀ e, q[j]? = some e → e.1.vc ≠ b.vc) → sends i b)) ∧
  (let flips : Prop := x.st ≠ .down ∧ x.keyReady = true ∧ (x.flipped = false ∨ 8192 ≤ x.sinceFlip)
   (flips → becomes (.keyFlip ⟨k, p⟩) { x with txPhase := !x.txPhase, sinceFlip := 0, flipped := true, keyReady := false }) ∧
   (¬flips → exec (.keyFlip ⟨k, p⟩) s = .next s)) ∧
  (∀ n, x.both = some n → 4096 ≤ n → becomes (.oldKeyDiscard ⟨k, p⟩) { x with both := none, rxKey := false }) ∧
  ((∀ n, x.both = some n → n < 4096) → exec (.oldKeyDiscard ⟨k, p⟩) s = .next s)) ∧
  (∀ (s : State) (k p : Nat) (f : Flit), k < 16 → p < 32 → s.stks.length = 16 → (s.stack k).paths.length = 32 →
  let x := s.path k p
  let receives (y : Path) : Prop := exec (.flitReceive ⟨k, p⟩ f) s = .next (s.setPath k p fun _ => y)
  let good : Prop := f.intact = true ∧ f.zero = 0 ∧ f.counter = x.rxCounter ∧ (f.phase = x.rxPhase ∨ x.rxKey = true)
  let covered (seq : Nat) : Bool := decide ((f.ack + 1024 - seq % 1024) % 1024 < 512)
  let aged : Path := { x with rxCounter := x.rxCounter + 1, both := x.both.map fun n => n + 1 }
  let left : Path := { aged with buffer := x.buffer.filter (fun b => !covered b.seq), resend := x.resend.filter fun q => !covered q }
  let asks (y : Path) : Path := { y with nakSlots := if y.nakSlots = 0 then 1 else y.nakSlots }
  (x.st = .down → exec (.flitReceive ⟨k, p⟩ f) s = .next s) ∧
  (x.st ≠ .down → ¬good → receives (asks { aged with corrupt := min 65535 (x.corrupt + 1) })) ∧
  (x.st ≠ .down → good → f.phase = x.rxPhase → f.nak = false →
    (f.idle = true → receives left) ∧
    (f.idle = false → f.seq = x.rxNext → f.body.last = false →
      receives { left with rxNext := (x.rxNext + 1) % 1024, nakSlots := 0, partIn := x.partIn ++ [f.body] }) ∧
    (f.idle = false → f.seq = x.rxNext → f.body.last = true → receives { left with
      rxNext := (x.rxNext + 1) % 1024, nakSlots := 0, delivered := x.delivered ++ x.partIn.filter (fun b => b.vc == f.body.vc) ++ [f.body],
      partIn := x.partIn.filter fun b => b.vc != f.body.vc }) ∧
    (f.idle = false → f.seq ≠ x.rxNext → (f.seq + 1024 - x.rxNext % 1024) % 1024 < 512 → receives (asks left)) ∧
    (f.idle = false → f.seq ≠ x.rxNext → 512 ≤ (f.seq + 1024 - x.rxNext % 1024) % 1024 → receives left)) ∧
  (x.st ≠ .down → good → f.phase = x.rxPhase → f.nak = true → f.idle = true → x.idleOnly = false →
    receives { left with resend := left.buffer.map fun b => b.seq }) ∧
  (x.st ≠ .down → good → f.phase ≠ x.rxPhase → x.both = none → f.nak = false → f.idle = true →
    receives { left with rxPhase := f.phase, both := some 0 })) ∧
  (∀ (s : State) (k p : Nat), k < 16 → p < 32 → s.stks.length = 16 → (s.stack k).paths.length = 32 →
  let x := s.path k p
  let spent : Prop := x.st ≠ .down ∧ 2 ^ 32 ≤ x.sinceFlip ∧ x.keyReady = false
  let broken : Prop := x.st ≠ .down ∧ ((∃ b ∈ x.buffer, 32 ≤ b.resent) ∨ x.outLanes = 0 ∨ x.inLanes = 0)
  let fixed (t : State) : Prop := (t.mem, t.cores, t.dies, t.scores, t.launches, t.accs) = (s.mem, s.cores, s.dies, s.scores, s.launches, s.accs) ∧
    ∀ j q, (j, q) ≠ (k, p) → t.path j q = s.path j q
  let falls (e : Instr) : Prop := (∀ b ∈ x.queue, b.1.vc ≠ 3) → ∃ t, exec e s = .next t ∧ fixed t ∧ s.tells t 7 4 0 5 (32 * k + p) ∧
    t.path k p = { Path.reset with replays := x.replays, corrupt := x.corrupt, darkIn := x.darkIn, darkOut := x.darkOut, delivered := x.delivered }
  (broken ∨ spent → falls (.pathDown ⟨k, p⟩)) ∧ (¬(broken ∨ spent) → exec (.pathDown ⟨k, p⟩) s = .next s) ∧
  (spent → falls (.keyExhaustion ⟨k, p⟩)) ∧ (¬spent → exec (.keyExhaustion ⟨k, p⟩) s = .next s) ∧
  (let out := laneMinus p (s.usableLanes k p) x.darkOut
   let inn := laneMinus p (if s.ctl.boot = .safe then 1 else 2 ^ pathLanes p - 1) x.darkIn
   let may : Prop := s.loopback p = false ∧ x.st = .down ∧ (s.stack k).alive = true ∧ s.ctl.alive = true ∧ s.ctl.boot ≠ .running ∧ out ≠ 0 ∧ inn ≠ 0
   (may → s.ctl.mgmtWait = [] → ∃ t, exec (.pathUp ⟨k, p⟩) s = .next t ∧ fixed t ∧ s.tells t 7 5 0 5 (32 * k + p) ∧ t.path k p = { Path.reset with
     st := .up, outLanes := out, inLanes := inn, replays := x.replays, corrupt := x.corrupt, keyReady := true, rxKey := true, darkIn := x.darkIn,
     darkOut := x.darkOut, delivered := x.delivered }) ∧
   (¬may → exec (.pathUp ⟨k, p⟩) s = .next s))) ∧
  (∀ (s : State) (k p : Nat), k < 16 → p < 32 → s.stks.length = 16 → (s.stack k).paths.length = 32 →
  let x := s.path k p
  let id : PathId := ⟨k, p⟩
  let unit := 32 * k + p
  let lane (j : Nat) : Prop := j < pathLanes p
  let mask (n : Nat) (has : Nat → Prop) : Prop := ∀ j, n.testBit j = true ↔ lane j ∧ has j
  let fixed (t : State) : Prop := (t.mem, t.cores, t.dies, t.scores, t.launches, t.accs) = (s.mem, s.cores, s.dies, s.scores, s.launches, s.accs) ∧
    ∀ j q, (j, q) ≠ (k, p) → t.path j q = s.path j q
  (∀ e ∈ [Instr.lossOfLight id [] 0, .restripe id true [] 0, .restripeSwitch id, .laneReturn id 0], x.st = .down → exec e s = .next s) ∧
  (∀ lanes slot, x.st ≠ .down → lanes ≠ [] → x.pendIn = none → (∀ j ∈ lanes, lane j ∧ x.inLanes.testBit j = true) →
    let goes : Prop := ∀ j, lane j → x.inLanes.testBit j = true → j ∈ lanes
    (¬goes → ∃ t new, exec (.lossOfLight id lanes slot) s = .next t ∧ fixed t ∧ mask new (fun j => x.inLanes.testBit j = true ∧ j ∉ lanes) ∧
      s.tells t 7 1 0 5 unit ∧ ((t.path k p).st, (t.path k p).pendIn, (t.path k p).outLanes) = (.restriping, some (new, max slot (x.rxCounter + 256)), x.outLanes) ∧
      (∀ j, (t.path k p).darkIn.testBit j = true ↔ j ∈ lanes ∨ x.darkIn.testBit j = true) ∧
      (∃ b, (t.path k p).queue = x.queue ++ [(b, 0)] ∧ b.vc = 3) ∧ ∀ j ∈ lanes, (t.stack k).opevt.testBit (laneFibre p j) = true) ∧
    (goes → (∀ b ∈ x.queue, b.1.vc ≠ 3) → ∃ t, exec (.lossOfLight id lanes slot) s = .next t ∧ fixed t ∧ (t.path k p).st = .down)) ∧
  (∀ lanes slot, x.st ≠ .down → ∃ new, mask new (fun j => j ∈ lanes) ∧
    (x.pendIn = none → exec (.restripe id true lanes slot) s = .next (s.setPath k p fun _ => { x with st := .restriping, pendIn := some (new, slot) })) ∧
    (x.pendOut = none → ∃ dark, mask dark (fun j => (x.darkOut.testBit j = true ∨ x.outLanes.testBit j = true) ∧ j ∉ lanes) ∧
      exec (.restripe id false lanes slot) s = .next (s.setPath k p fun _ => { x with st := .restriping, pendOut := some (new, slot), darkOut := dark }))) ∧
  (∀ new slot, x.st ≠ .down → x.pendOut = some (new, slot) → x.pendIn = none → slot ≤ x.txCounter → new ≠ 0 → x.inLanes ≠ 0 →
    ∃ t, exec (.restripeSwitch id) s = .next t ∧ fixed t ∧ s.tells t 7 3 0 5 unit ∧ t.path k p = { x with
      st := .up, outLanes := new, pendOut := none, idleOnly := false, heldNak := none,
      resend := match x.heldNak with
        | none => x.resend
        | some n => (x.buffer.filter fun b => decide ((b.seq + 1024 - n % 1024) % 1024 < 512)).map fun b => b.seq }) ∧
  (∀ new slot, x.st ≠ .down → x.pendIn = some (new, slot) → x.pendOut = none → slot ≤ x.rxCounter → new ≠ 0 → x.outLanes ≠ 0 →
    ∃ t, exec (.restripeSwitch id) s = .next t ∧ fixed t ∧ s.tells t 7 3 0 5 unit ∧ t.path k p = { x with st := .up, inLanes := new, pendIn := none }) ∧
  ((∀ q, x.pendOut = some q → x.txCounter < q.2) → (∀ q, x.pendIn = some q → x.rxCounter < q.2) → exec (.restripeSwitch id) s = .next s) ∧
  ∀ j, x.st ≠ .down → lane j → x.darkIn.testBit j = true → x.outLanes.testBit j = true → x.pendIn = none → x.pendOut = none →
    ∃ t dark, exec (.laneReturn id j) s = .next t ∧ fixed t ∧ t.ctl = s.ctl ∧ mask dark (fun i => x.darkIn.testBit i = true ∧ i ≠ j) ∧
      t.path k p = { x with st := .restriping, pendIn := some (x.inLanes ||| 2 ^ j, x.rxCounter + 256), darkIn := dark }) ∧
  (∀ (s : State) (k : Nat), k < 16 → s.stks.length = 16 → (s.stack k).paths.length = 32 → (s.stack k).laneen.length = 6 →
  let aimed (p : Nat) : Nat := aim (s.path k p).outLanes (s.path k p).pendOut
  -- the lanes `gone` leave the egress direction of every path
  let leaves (t : State) (gone : Nat → Nat → Prop) : Prop := ∀ p < 32, aimed p < 2 ^ pathLanes p →
    let x := s.path k p
    let hit : Prop := x.st ≠ .down ∧ ∃ j, (aimed p).testBit j = true ∧ gone p j
    (¬hit → t.path k p = x) ∧
    (hit → ∃ new slot b, (∀ j, new.testBit j = true ↔ (aimed p).testBit j = true ∧ ¬gone p j) ∧ x.txCounter + 256 ≤ slot ∧ b.vc = 3 ∧
      t.path k p = { x with st := .restriping, pendOut := some (new, slot), queue := x.queue ++ [(b, 0)] })
  let fixed (t : State) : Prop := t = { s with stks := t.stks } ∧ ∀ j, j ≠ k → t.stack j = s.stack j
  (∀ f v, f < 6 → ∃ t, exec (.laneenWrite k f v) s = .next t ∧ fixed t ∧ (t.stack k).laneen = (s.stack k).laneen.set f v ∧
    leaves t fun p j => laneFibre p j = f ∧ v.toNat.testBit (s.laneWave p j) = false) ∧
  (∀ v : Dword, ∃ t, exec (.laserctlWrite k v) s = .next t ∧ fixed t ∧ ((t.stack k).loEn, (t.stack k).hiEn) = (v.getLsbD 0, v.getLsbD 1) ∧
    ((s.stack k).laserLo ≠ .failed → (t.stack k).laserLo = if v.getLsbD 0 then .on else .off) ∧
    ((s.stack k).laserHi ≠ .failed → (t.stack k).laserHi = if v.getLsbD 1 then .on else .off) ∧
    leaves t fun _ j => (if j % 2 = 1 then v.getLsbD 1 else v.getLsbD 0) = false) ∧
  (∀ hi, (if hi then (s.stack k).laserHi else (s.stack k).laserLo) ≠ .on → exec (.laserModuleFailure k hi) s = .next s) ∧
  (∀ hi, (if hi then (s.stack k).laserHi else (s.stack k).laserLo) = .on → (∀ p, ∀ b ∈ (s.path k p).queue, b.1.vc ≠ 3) → s.ctl.events.length < 4096 →
    let uses (p : Nat) (m : Bool) : Prop := ∃ j < 8, (s.path k p).outLanes.testBit j = true ∧ (j % 2 = 1 ↔ m = true)
    ∃ t r rest, exec (.laserModuleFailure k hi) s = .next t ∧ t.ctl.events = s.ctl.events ++ r :: rest ∧ r.w0.toNat / 2 ^ 48 % 2 ^ 16 = 0x702 ∧
      (if hi then (t.stack k).laserHi else (t.stack k).laserLo) = .failed ∧ (t.stack k).opevt.testBit (if hi then 7 else 6) = true ∧
      ∀ p < 32, (s.path k p).outLanes < 2 ^ pathLanes p →
        ((s.path k p).st = .down ∨ ((s.path k p).outLanes ≠ 0 ∧ ¬uses p hi) → t.path k p = s.path k p) ∧
        ((s.path k p).st ≠ .down → uses p hi → uses p (!hi) → t.path k p = { s.path k p with idleOnly := true }) ∧
        ((s.path k p).st ≠ .down → uses p hi → ¬uses p (!hi) → (t.path k p).st = .down)) ∧
  ∀ dev, ∃ t, exec (.safeStateReport dev) s = .next t ∧ t = { s with ctl := { s.ctl with safeDevs := t.ctl.safeDevs } } ∧
    ∀ d, d ∈ t.ctl.safeDevs ↔ d = dev ∨ d ∈ s.ctl.safeDevs) ∧
  (∀ (s : State) (k : Nat) (q : Packet), s.stks.length = 16 → k < 16 →
  let e : Instr := .inboundPacket k q
  let n := inboundBytes q.op
  let v (a : Dword) : Prop := a.getLsbD 63 = true ∧ a.getLsbD 40 = false ∧
    (a.toNat / 2 ^ 48 % 2 ^ 12 = q.src ∨ (s.localDev (a.toNat / 2 ^ 48 % 2 ^ 12) = true ∧ s.localDev q.src = true)) ∧
    (a.getLsbD 41 = true ∨ a.toNat / 2 ^ 42 % 64 = q.srcPart)
  let admitted : Prop := ∃ a ∈ s.ctl.acl, v a.2
  let there : Prop := q.pa < 2 ^ 43 ∧ regionFault q.pa n false (inboundAtomic q.op) = none ∧ s.keyRefused q.key (!q.nonSecure) = false
  let up : Prop := (s.stack k).alive = true ∧ s.ctl.boot = .ready
  let answers (t : State) (st : RStat) (bs : List Byte) : Prop := ∃ m, t.ctl.toPeer = s.ctl.toPeer ++ m ++ [(q.src, BitVec.ofNat 8 st.code :: bs)]
  let fixed (t : State) : Prop := (t.cores, t.scores, t.launches, t.accs) = (s.cores, s.scores, s.launches, s.accs)
  (¬up → exec e s = .next s) ∧
  (up → s.localDev q.dst = true → (∀ f, q.op ≠ .response f) → s.ctl.alive = false → exec e s = .next s) ∧
  (∀ f, s.localDev q.dst = true → q.op = .response f → exec e s = .next s) ∧
  (up → s.localDev q.dst = true → (∀ f, q.op ≠ .response f) → s.ctl.alive = true → ¬admitted ∨ ¬there →
    ∃ t, exec e s = .next t ∧ fixed t ∧ t.mem = s.mem ∧ s.tells t 3 RStat.remoteFault.code 0 2 k ∧ answers t .remoteFault [0]) ∧
  (up → s.localDev q.dst = true → s.ctl.alive = true → admitted → there → q.key = 0 → ∀ lin, linOf q.pa = some lin → Plain s lin n →
    (∀ z, q.op = .read z → ¬s.markedAt lin z → ∃ t, exec e s = .next t ∧ fixed t ∧ t.mem = s.mem ∧
      answers t .ok (0 :: (List.range z).map fun i => s.byteAt (lin + i))) ∧
    (∀ bs, q.op = .write bs false → ∃ t, exec e s = .next t ∧ fixed t ∧ s.stored t lin bs ∧ answers t .ok [0]) ∧
    (∀ x, q.op = .syncAdd x false → lin % 16 = 0 → x < 2 ^ 31 → ∃ t, exec e s = .next t ∧ fixed t ∧ s.gains t lin x false ∧ answers t .ok [0]) ∧
    (∀ x c, q.op = .atomic .add false true .u32 x c false → x < 2 ^ 32 → ¬s.markedAt lin 4 → ∃ t, exec e s = .next t ∧ fixed t ∧
      s.stored t lin (bytesAs 4 (s.numAt lin 4 + x)) ∧ answers t .ok (0 :: bytesAs 4 (s.numAt lin 4)))) ∧
  (up → s.localDev q.dst = false → q.leg = true → ∃ t, exec e s = .next t ∧ fixed t ∧ t.mem = s.mem ∧ s.tells t 3 RStat.timeout.code 0 2 k) ∧
  (up → s.localDev q.dst = false → q.leg = false → q.dst / 16 % 16 = s.ctl.devnum / 16 % 16 → (s.path k (q.dst % 16)).st ≠ .down →
    (s.stack k).paths.length = 32 → ∃ t bs, exec e s = .next t ∧ fixed t ∧ t.mem = s.mem ∧
      t.path k (q.dst % 16) = { s.path k (q.dst % 16) with queue := (s.path k (q.dst % 16)).queue ++ bs } ∧
      ∀ b ∈ bs, b.1.leg = true ∧ (b.1.dst, b.1.src, b.1.spart, b.1.ns) = (q.dst, q.src, q.srcPart, q.nonSecure)))

/-! ### The host, and the messages of the grooms -/

/-- R466, R467, R465: a message that the table does not open to peers is DENIED to them, and in the safe state only those that it names
are admitted (SAFE); either way nothing else happens. The mailbox's answer has the type, the status, and DONE, and raises vector 0; a
peer's goes to it. Without the control die there is no answer. MAILBOX_GO submits the mailbox's request unless BUSY or DONE: an unknown
type, or a header that is not in order, is refused; one that needs something from outside stays BUSY until that comes.
MAILBOX_DONE_CLEAR clears DONE. R467, R358, R178, R254, R438, R357, R359, R283, R285, R449: the messages that set up the machine, once
admitted: with fields in range each changes what it names, and is answered OK; with a field out of range it is answered BADARG, and
PART_SET, BUSY, where a core of its mask runs warps of another partition; then nothing else changes. R467, R265, R423, R434, R451, R453,
R454, R463, R477: the other messages, once admitted: KEY_LOAD and KEY_CLEAR change a key slot, EVENT_READ takes up to 7 records,
COUNTER_READ and REG_READ answer a register, and the first may clear it; HOST_XFER moves bytes between host memory and a stack; LINK_KEY
installs the next keys of a path; DIE_RESET resets a die, powers it down or brings it back as after reset; IMAGE_WRITE writes the copy
of the image that was not accepted; EVENT_FWD appends a peer's record. A field out of range is BADARG. R7, R178, R193, R319, R346, R358,
R399, R453: REGISTER_WRITE, a write of the control die: a field takes its part of the value, a timeout no less than 100; CPART of a core
that holds warps, and an offset that no register has, take nothing. R431, R432, R433, R465: BAR0_ACCESS opens the append windows and the
mailbox; other offsets read as zero and ignore writes. BAR2_ACCESS reaches this package's memory through an enabled window, as a
non-secure agent: a read completes with the bytes, a write is performed; through a window that is not enabled it is refused, with a
record, and a read with a completion without data. MSIX_UNMASK unmasks a vector, and sends what was pending. Without the host bridge, or
past a BAR's end, there is no access. -/
def Obligations.HostMessages : Prop :=
  (∀ (s : State),
  (∀ (src : MsgFrom) (part reg die a b c slot : Nat) (mask v w : Dword) (f g : Bool) (bs : List Byte) (root : BitVec 28) (blk : Block) (rep : Reply)
    (p : PathId) (img : Option Image) (rec : EvRec),
    let within : List (Instr × Nat) := [(.getStatus src, 1), (.partSet src part mask reg, 2), (.allowSet src die a b c f, 3), (.asidSet src a root f g, 4),
      (.handlerSet src a v w, 5), (.queueSet src part b f a, 6), (.aclSet src a v, 7), (.pinqSet src part a, 8), (.pinClear src part, 9),
      (.saveSet src part v, 10), (.keyLoad src slot f bs, 11), (.keyClear src slot, 12), (.eventRead src, 13), (.counterRead src blk a f, 14),
      (.dieReset src die a, 17), (.eventFwd src rec, 19), (.regRead src blk a, 20)]
    let outside : List (Instr × Nat) := [(.hostXfer src f a b c rep, 15), (.linkKey src p f, 16), (.imageWrite src a bs img, 18)]
    let barred (typ : Nat) : Option Nat := if src ≠ .mailbox ∧ typ ∉ [1, 15, 16, 19] then some 3
      else if s.ctl.boot = .safe ∧ typ ∉ [1, 13, 14, 18, 20] then some 5 else none
    ∀ e ∈ within ++ outside, (e ∈ outside → src = .mailbox → s.ctl.mbox.busy = true ∧ numOf (s.ctl.mbox.req.take 2) = e.2) →
      (s.ctl.alive = false → exec e.1 s = .next s) ∧
      ∀ code, s.ctl.alive = true → barred e.2 = some code → exec e.1 s = .next (s.reply src e.2 code [])) ∧
  (∀ typ st fields, typ < 2 ^ 16 → st < 2 ^ 8 →
    (∃ k, s.reply .mailbox typ st fields = { s with ctl := k } ∧ (k.mbox.done, k.mbox.busy, k.mbox.req) = (true, false, s.ctl.mbox.req) ∧
      k.mbox.ans.take 2 = bytesAs 2 typ ∧ (k.mbox.ans.drop 8).take 1 = [BitVec.ofNat 8 st] ∧
      (s.ctl.bridge = true → 0 ∈ s.ctl.msixEn → 0 ∉ s.ctl.msixMask → k.msixSent = s.ctl.msixSent ++ [0]) ∧
      (k.events, k.keys, k.queues, k.asids, k.cpart) = (s.ctl.events, s.ctl.keys, s.ctl.queues, s.ctl.asids, s.ctl.cpart)) ∧
    ∀ d, ∃ bs, (s.reply (.peer d) typ st fields).ctl.toPeer = s.ctl.toPeer ++ [(d, bs)] ∧ bs.take 2 = bytesAs 2 typ ∧
      (bs.drop 8).take 1 = [BitVec.ofNat 8 st] ∧ (s.reply (.peer d) typ st fields).mem = s.mem) ∧
  (let m := s.ctl.mbox
   let typ := numOf (m.req.take 2)
   let go (t : State) : Prop := exec .mailboxGo s = .next t
   let ready : Prop := m.busy = false ∧ m.done = false ∧ s.ctl.alive = true
   (¬ready → go s) ∧ (ready → typ = 0 ∨ 20 < typ → go (s.reply .mailbox typ 1 [])) ∧
   (ready → 1 ≤ typ → typ ≤ 20 → headerOk m.req = false → go (s.reply .mailbox typ 2 [])) ∧
   (ready → headerOk m.req = true → s.ctl.boot ≠ .safe → typ ∈ [15, 16, 18] → go { s with ctl := { s.ctl with mbox := { m with busy := true } } }) ∧
   (ready → headerOk m.req = true → typ = 1 → go (s.reply .mailbox 1 0 [s.ctl.bootStat, s.ctl.fabCfg, s.ctl.imageVersion, s.ctl.drops.toNat])) ∧
   exec .mailboxDoneClear s = .next { s with ctl := { s.ctl with mbox := { m with done := false } } })) ∧
  (∀ (s : State), s.ctl.alive = true → s.ctl.boot = .ready → s.dies.length = 8 → s.cores.length = 64 →
  let src : MsgFrom := .mailbox
  let does (e : Instr) (typ : Nat) (u : State) : Prop := exec e s = .next (u.reply src typ 0 [])
  let bad (e : Instr) (typ code : Nat) : Prop := exec e s = .next (s.reply src typ code [])
  let ctl (k : Control) : State := { s with ctl := k }
  exec (.getStatus src) s = .next (s.reply src 1 0 [s.ctl.bootStat, s.ctl.fabCfg, s.ctl.imageVersion, s.ctl.drops.toNat]) ∧
  (∀ part (mask : Dword) reg, let e : Instr := .partSet src part mask reg
    let busy : Prop := ∃ c < 64, mask.getLsbD c = true ∧ s.ctl.cpart? c ≠ some part ∧ (s.core c).ctx.warps ≠ []
    (64 ≤ part ∨ 4 ≤ reg → bad e 2 2) ∧ (part < 64 → reg < 4 → busy → bad e 2 4) ∧
    (part < 64 → reg < 4 → ¬busy → ∃ u, does e 2 u ∧ (u.mem, u.dies, u.scores, u.launches) = (s.mem, s.dies, s.scores, s.launches) ∧ ∀ c < 64,
      u.ctl.cpart? c = (if mask.getLsbD c then some part else s.ctl.cpart? c) ∧ u.ctl.regOf c = (if mask.getLsbD c then reg else s.ctl.regOf c) ∧
      (u.core c).ctx.part = (if mask.getLsbD c then some part else (s.core c).ctx.part) ∧
      (mask.getLsbD c = true → (s.core c).ctx.warps = [] → (u.core c).regulator = reg))) ∧
  (∀ die a r st m, let e : Instr := .allowSet src die a r st m
    let ok : Prop := die < 8 ∧ a < 2 ^ 18 ∧ r < 2 ^ 18 ∧ st < 2 ^ 18
    (ok → does e 3 (s.setDie die fun d => { d with ring := { d.ring with nextAllow := a, nextRowpart := r, nextStep := st, nextMassen := m } })) ∧
    (¬ok → bad e 3 2)) ∧
  (∀ asid (root : BitVec 28) sec v, let e : Instr := .asidSet src asid root sec v
    let old := s.asidRec asid
    let rec' : AsidRec := { old with root := root.toNat, sec := sec, v := v }
    let k : Control := { s.ctl with asids := mset s.ctl.asids asid rec' }
    (65536 ≤ asid ∨ 2 ^ 27 ≤ root.toNat → bad e 4 2) ∧
    (asid < 65536 → root.toNat < 2 ^ 27 → root.toNat = old.root → (v = true → old.v = true) → does e 4 (ctl k)) ∧
    (asid < 65536 → root.toNat < 2 ^ 27 → root.toNat ≠ old.root ∨ (v = true ∧ old.v = false) → ∃ r, r.asid = asid ∧
      does e 4 { s with ctl := { k with raises := k.raises ++ [r] }, nextId := s.nextId + 1, agenda := s.agenda ++ [.ev (.generationRaise asid)] })) ∧
  (∀ asid (entry frame : Dword), let e : Instr := .handlerSet src asid entry frame
    let ok : Prop := asid < 65536 ∧ entry.toNat < 2 ^ 55 ∧ entry.getLsbD 1 = false ∧ entry.getLsbD 2 = false ∧ frame.toNat < 2 ^ 55 ∧ frame.toNat % 2 ^ 24 = 0
    (ok → does e 5 (s.setAsid asid fun a => { a with entry := entry.toNat / 8 * 8, en := entry.getLsbD 0, frame := frame.toNat })) ∧ (¬ok → bad e 5 2)) ∧
  (∀ part queue en asid, let e : Instr := .queueSet src part queue en asid
    let q := s.ctl.queueOf (64 * part + queue)
    let ok : Prop := part < 64 ∧ queue < 64 ∧ asid < 65536
    let q' : Queue := { q with en := en, asid := asid, nextSeq := if en = true ∧ q.en = false then 0 else q.nextSeq }
    (ok → does e 6 (ctl { s.ctl with queues := mset s.ctl.queues (64 * part + queue) q' })) ∧ (¬ok → bad e 6 2)) ∧
  (∀ i (v : Dword), let e : Instr := .aclSet src i v
    let ok : Prop := i < 1024 ∧ v.extractLsb' 60 3 = 0 ∧ v.extractLsb' 14 26 = 0 ∧ v.getLsbD 7 = false
    (ok → does e 7 (ctl { s.ctl with acl := mset s.ctl.acl i v })) ∧ (¬ok → bad e 7 2)) ∧
  (∀ part quota, let e : Instr := .pinqSet src part quota
    (part < 64 → quota < 2 ^ 17 → does e 8 (ctl { s.ctl with pinq := mset s.ctl.pinq part (min 98304 quota) })) ∧
    (64 ≤ part ∨ 2 ^ 17 ≤ quota → bad e 8 2)) ∧
  (∀ part, let e : Instr := .pinClear src part
    (part < 64 → does e 9 { s with stks := s.stks.map fun t => { t with pins := t.pins.filter fun p => p.2 != part } }) ∧ (64 ≤ part → bad e 9 2)) ∧
  ∀ part (v : Dword), let e : Instr := .saveSet src part v
    let ok : Prop := part < 64 ∧ v.toNat < 2 ^ 62 ∧ v.extractLsb' 2 22 = 0
    let r : SaveReg := ⟨v.toNat / 2 ^ 36, v.toNat / 2 ^ 24 % 2 ^ 12, v.getLsbD 1, v.getLsbD 0⟩
    (ok → does e 10 (ctl { s.ctl with saves := mset s.ctl.saves part r })) ∧ (¬ok → bad e 10 2)) ∧
  (∀ (s : State), s.ctl.alive = true → s.ctl.boot = .ready → s.dies.length = 8 → s.cores.length = 64 →
  s.stks.length = 16 →
  let src : MsgFrom := .mailbox
  let does (e : Instr) (typ : Nat) (u : State) : Prop := exec e s = .next (u.reply src typ 0 [])
  let bad (e : Instr) (typ : Nat) : Prop := exec e s = .next (s.reply src typ 2 [])
  let ctl (k : Control) : State := { s with ctl := k }
  let asked (typ : Nat) : Prop := s.ctl.mbox.busy = true ∧ numOf (s.ctl.mbox.req.take 2) = typ
  (∀ slot sec w, let e : Instr := .keyLoad src slot sec w
    let ok (key : List Byte) : Prop := 1 ≤ slot ∧ slot < 4096 ∧ w.length = 72 ∧ key.take 32 ≠ key.drop 32
    (kwUnwrap s.ctl.kwKey w = none → bad e 11) ∧
    ∀ key, kwUnwrap s.ctl.kwKey w = some key → (ok key → does e 11 (ctl { s.ctl with keys := mset s.ctl.keys slot ⟨sec, key⟩ })) ∧ (¬ok key → bad e 11)) ∧
  (∀ slot, (1 ≤ slot → slot < 4096 → does (.keyClear src slot) 12 (ctl { s.ctl with keys := mdel s.ctl.keys slot })) ∧
    (slot = 0 ∨ 4096 ≤ slot → bad (.keyClear src slot) 12)) ∧
  (exec (.eventRead src) s = .next ((ctl { s.ctl with events := s.ctl.events.drop 7 }).reply src 13 0
    (((s.ctl.events.take 7).flatMap fun r => [r.w0.toNat, r.ticks.toNat, r.addr.toNat, r.detail.toNat]) ++ [s.ctl.drops.toNat]))) ∧
  (∀ k i f, k < 8 → i < 8 →
    let c := 8 * k + i
    let reads (j val : Nat) (z : Core → Core) : Prop := exec (.counterRead src (.die k) (0xA000 + 32 * i + 8 * j) f) s =
      .next ((if f then s.setCore c z else s).reply src 14 0 [val])
    reads 0 (s.core c).poisonCnt.toNat (fun k => { k with poisonCnt := 0 }) ∧ reads 1 (s.core c).mismatch.toNat (fun k => { k with mismatch := 0 }) ∧
    reads 2 ((s.core c).uncorr.toNat * 2 ^ 32 + (s.core c).corr.toNat) (fun k => { k with uncorr := 0, corr := 0 })) ∧
  (∀ b off f, isCounter b off = false → bad (.counterRead src b off f) 14) ∧
  (asked 15 → (s.ctl.bridge = false → ∀ th dev pa n r, bad (.hostXfer src th dev pa n r) 15) ∧
    ∀ dev lin n r, s.ctl.bridge = true → s.localDev dev = true → 0 < n → n ≤ 128 → Plain s lin n →
      let moved : Nat × List Byte := (2 ^ 64 + (2 ^ 42 + lin), (List.range n).map fun i => s.byteAt (lin + i))
      (exec (.hostXfer src true dev (2 ^ 42 + lin) n r) s = .next ((ctl { s.ctl with toHost := s.ctl.toHost ++ [moved] }).reply src 15 0 [])) ∧
      ∀ bs, bs.length = n → ∃ u, does (.hostXfer src false dev (2 ^ 42 + lin) n (.data bs false)) 15 u ∧ s.stored u lin bs ∧
        (u.cores, u.dies, u.scores, u.ctl, u.accs) = (s.cores, s.dies, s.scores, s.ctl, s.accs)) ∧
  (asked 16 → ∀ k p f, let e : Instr := .linkKey src ⟨k, p⟩ f
    let ok : Prop := f = true ∧ k < 16 ∧ p < 32 ∧ s.loopback p = false
    (ok → does e 16 (s.setPath k p fun x => { x with keyReady := true, rxKey := true })) ∧ (¬ok → bad e 16)) ∧
  (∀ k a, (8 ≤ k ∨ 3 ≤ a → bad (.dieReset src k a) 17) ∧
    (k < 8 → a < 2 → ∃ u, does (.dieReset src k a) 17 u ∧ (u.die k).st = (if a = 0 then .reset else .down) ∧ (u.die k).sheds = [] ∧
      ∀ c, c / 8 = k → (u.core c).ctx.warps = []) ∧
    (k < 8 → a = 2 → (∀ l ∈ s.launches, l.2.waitingPart = []) → ((s.die k).st = .up → does (.dieReset src k 2) 17 s) ∧
      ((s.die k).st ≠ .up → ∃ u, does (.dieReset src k 2) 17 u ∧ u.die k = { Die.reset with ring := { Ring.reset with base := s.clock } } ∧
        (∀ j, j ≠ k → u.die j = s.die j) ∧ (u.mem, u.cores, u.scores, u.launches) = (s.mem, s.cores, s.scores, s.launches)))) ∧
  (asked 18 → ∀ i bs img, (bs.length ≠ 224 → bad (.imageWrite src i bs img) 18) ∧
    ∀ a, bs.length = 224 → s.ctl.accepted = some a → a < 2 → s.ctl.images.length = 2 → ∃ k : Control, does (.imageWrite src i bs img) 18 (ctl k) ∧
      k = { s.ctl with images := k.images } ∧ k.images[a]? = s.ctl.images[a]? ∧
      k.images[1 - a]? = (s.ctl.images[1 - a]?).map fun i => img.getD { i with valid := false }) ∧
  (∀ rec, let e : Instr := .eventFwd src rec
    ∃ k : Control, does e 19 (ctl k) ∧ (s.ctl.events.length < 4096 → k.events = s.ctl.events ++ [rec]) ∧
      (4096 ≤ s.ctl.events.length → k.events = s.ctl.events ∧ k.drops = s.ctl.drops + 1)) ∧
  (∀ b off, (regReadable b off = true → exec (.regRead src b off) s = .next (s.reply src 20 0 [s.regValue b off])) ∧
    (regReadable b off = false → bad (.regRead src b off) 20)) ∧
  ∀ c < 64, s.ctl.cpart? c = none ∨ ∃ p, s.ctl.cpart? c = some p ∧ exec (.regRead src .control (0x610400 + 8 * c)) s = .next (s.reply src 20 0 [64 + p])) ∧
  (∀ (s : State) (v : Dword), s.dies.length = 8 → s.cores.length = 64 → s.stks.length = 16 →
  let writes (b : Block) (off : Nat) (u : State) : Prop := exec (.registerWrite b off v) s = .next u
  let x := v.toNat
  (∀ b off, s.ctl.alive = false → writes b off s) ∧
  (s.ctl.alive = true →
    (∀ k < 8, writes (.die k) 0x2000 (s.setDie k fun d => { d with ring := { d.ring with nextAllow := x % 2 ^ 18, nextRowpart := x / 2 ^ 32 % 2 ^ 18 } }) ∧
      writes (.die k) 0x2008 (s.setDie k fun d => { d with ring := { d.ring with nextStep := x % 2 ^ 18, nextMassen := v.getLsbD 32 } }) ∧
      writes (.die k) 0x6000 (s.setDie k fun d => { d with ftimeout := max 100 (x % 2 ^ 24) }) ∧
      writes (.die k) 0x7000 (s.setDie k fun d => { d with watchdog := x % 2 ^ 32 }) ∧
      writes (.die k) 0x7008 (s.setDie k fun d => { d with borrow := v.getLsbD 0 }) ∧
      ∀ i < 8, writes (.die k) (0xA000 + 32 * i) (s.setCore (8 * k + i) fun c => { c with poisonCnt := v.extractLsb' 0 32 })) ∧
    (∀ k < 16, writes (.base k) 0x6000 (s.setStack k fun t => { t with ftimeout := max 100 (x % 2 ^ 24) }) ∧
      writes (.base k) 0x8000 (s.setStack k fun t => { t with scBase := x / 2 ^ 22 % 2 ^ 14, scEn := v.getLsbD 0 }) ∧
      writes (.base k) 0xA008 (s.setStack k fun t => { t with uncorr := v.extractLsb' 32 32, corr := v.extractLsb' 0 32 })) ∧
    (∃ u, writes .control 0x3000 u ∧ ∀ c < 64, u.ctl.regOf c = (if c < 32 then x / 4 ^ c % 4 else s.ctl.regOf c) ∧
      ((s.core c).ctx.warps = [] → c < 32 → (u.core c).regulator = x / 4 ^ c % 4)) ∧
    (∀ c < 64, ((s.core c).ctx.warps ≠ [] → writes .control (0x610400 + 8 * c) s) ∧
      ((s.core c).ctx.warps = [] → ∃ u, writes .control (0x610400 + 8 * c) u ∧ u.ctl.cpart? c = (if v.getLsbD 6 then some (x % 2 ^ 6) else none) ∧
        u.regValue .control (0x610400 + 8 * c) = x % 2 ^ 7 ∧ (u.core c).ctx.part = u.ctl.cpart? c ∧ u.mem = s.mem)) ∧
    (∀ r < 4, writes .control (0x610000 + 8 * r) { s with ctl := { s.ctl with alarms := mset s.ctl.alarms r (v.extractLsb' 0 32) } }) ∧
    ∀ off, 0x622000 ≤ off → writes .control off s)) ∧
  (∀ (s : State),
  let k := s.ctl
  let up : Prop := k.alive = true ∧ (k.bridge = true ∨ (k.boot = .safe ∧ k.accepted = none))
  let ctl (k : Control) : State := { s with ctl := k }
  let completes (e : Instr) (off : Nat) (bs : List Byte) : Prop := exec e s = .next (ctl { k with toHost := k.toHost ++ [(off, bs)] })
  (∀ off w n r, (¬up ∨ 2 ^ 26 ≤ off → exec (.bar0Access off w) s = .next s) ∧ (¬up ∨ 2 ^ 38 ≤ off → exec (.bar2Access off n w r) s = .next s)) ∧
  (up → (∀ part queue bs, part < 64 → queue < 64 →
      exec (.bar0Access (0x400000 + 0x4000 * part + 64 * queue) (some bs)) s = exec (.launchAppend .host part queue bs) s) ∧
    (∀ j bs, j + bs.length ≤ 256 → k.mbox.req.length = 256 → ∃ q, exec (.bar0Access (0x621000 + j) (some bs)) s =
        .next (ctl { k with mbox := { k.mbox with req := q } }) ∧ q.length = 256 ∧
      ∀ i < 256, q[i]? = if j ≤ i ∧ i < j + bs.length then bs[i - j]? else k.mbox.req[i]?) ∧
    exec (.bar0Access 0x621200 (some (bytesAs 8 1))) s = exec .mailboxGo s ∧
    (k.mbox.done = true → exec (.bar0Access 0x621200 (some (bytesAs 8 4))) s = exec .mailboxDoneClear s) ∧
    (∀ i < 32, k.mbox.ans.length = 256 → completes (.bar0Access (0x621100 + 8 * i) none) (0x621100 + 8 * i) ((k.mbox.ans.drop (8 * i)).take 8)) ∧
    (∀ off, off < 0x621000 ∨ (0x621208 ≤ off ∧ off < 2 ^ 26) → completes (.bar0Access off none) off (List.replicate 8 0)) ∧
    (∀ off bs, off < 0x400000 ∨ (0x621208 ≤ off ∧ off < 2 ^ 26) → exec (.bar0Access off (some bs)) s = .next s) ∧
    ∀ off n w r, off < 2 ^ 38 → let v := mget k.hostwin (off / 2 ^ 36) (0 : Dword)
      (k.boot ≠ .ready ∨ v.getLsbD 63 = false → ∃ t code, exec (.bar2Access off n w r) s = .next t ∧ t = ctl t.ctl ∧ s.tells t 0x0B (code % 256) 0 4 0 ∧
        t.ctl.toHost = k.toHost ++ if w = none then [(off, [])] else []) ∧
      ∀ lin, k.boot = .ready → v.getLsbD 63 = true → s.localDev (v.toNat / 2 ^ 44 % 2 ^ 12) = true → 0 < n → Plain s lin n →
        v.toNat / 2 ^ 36 % 2 ^ 8 * 2 ^ 36 + off % 2 ^ 36 = 2 ^ 42 + lin →
        (w = none → completes (.bar2Access off n w r) off ((List.range n).map fun i => s.byteAt (lin + i))) ∧
        ∀ bs, w = some bs → bs.length = n → ∃ t, exec (.bar2Access off n w r) s = .next t ∧ s.stored t lin bs ∧
          (t.cores, t.dies, t.scores, t.ctl, t.accs) = (s.cores, s.dies, s.scores, s.ctl, s.accs)) ∧
  ∀ v, let shown : Control := { k with msixMask := markOut k.msixMask v, msixPend := markOut k.msixPend v }
    let sends : Prop := v ∈ k.msixPend ∧ k.bridge = true ∧ v ∈ k.msixEn
    (sends → exec (.msixUnmask v) s = .next (ctl { shown with msixSent := k.msixSent ++ [v] })) ∧ (¬sends → exec (.msixUnmask v) s = .next (ctl shown)))

/-! ### Words, steps, reset, and what every step keeps -/

/-- R28, R66 to R72, R376: a few words written out from the spec's encodings decode to the instructions that they stand for: one or more
of each format. -/
def Obligations.DecodeWords : Prop :=
  let h : Hdr := ⟨false, 0, false, 7⟩
  let q (w : Dword) (i : Instr) : Prop := (decodeQuatin w).toOption = some i
  q 0x00E0_6000_0708_2840 (.reorder h (.v 7) (.v 32) (.w 4) false) ∧
  q 0x24E0_20A0_0000_000A (.call { h with stall := 2 } (.v 40) 10) ∧
  q 0x00FF_0000_0000_0005 (.trap h 5) ∧ q 0x00FF_2000_0000_0020 (.eret h true) ∧
  q 0x00E2_0018_0702_0050 (.iadd h (.v 6) (.v 7) (.v 8) .i16x2 false true) ∧
  q 0x00EA_0028_1400_0A50 (.cvt h (.v 10) (.v 20) .e4m3x4 .f32 false .rn false true) ∧
  q 0x4018_2048_0041_4340 (.pairedWord ⟨false, 0⟩ (.iadd 4 9) (.mov 5 13)) ∧
  q 0x60F0_0001_C041_2112 (.ld h (.v 7) (.v 4) .none .acq .b32 .fp32 1 2) ∧
  q 0x60F0_1003_0180_4002 (.st h (.v 12) (.v 24) .none .rlx .b128 2) ∧
  q 0x60F0_8001_4090_2102 (.lds h (.v 5) (.v 9) .b32 .fp32 2) ∧
  q 0x60F0_B0A1_285A_1900 (.give h (.w 4) (.w 5) (.w 6) 2) ∧
  q 0x6053_0100_8021_F000 (.mma { h with pred := 2 } 1 0 2 0 .e4m3 .e2m1 false 0xF true 0) ∧
  q 0x00EE_5042_8400_0800 (.trd h (.v 16) 2 (.w 4)) ∧ q 0x00EC_1014_0000_0000 (.rdrack h (.v 5)) ∧
  q 0x00EC_0000_0000_0020 (.phase h .m) ∧
  (decodeCreven 0x1861_C001).toOption = some (.ldg 3 1 .b64 .rlx 1) ∧ (decodeCreven 0x9040_0845).toOption = some (.vfma 2 0 1 0 .f32)

/-- R26, R28, R57, R375, R376: the decoder and the encoder agree: a word that decodes is the encoding of its instruction, and the encoding of
a well-formed instruction, with every operand at every value that it admits, decodes to it. -/
def Obligations.DecodeAndEncodeAgree : Prop :=
  (∀ w i, decodeQuatin w = .ok i → i.wf = true ∧ encode i = some w.toNat) ∧
  (∀ w i, decodeCreven w = .ok i → i.wf = true ∧ encode i = some w.toNat) ∧
  (∀ i h n, i.wf = true → hdrOf i = some h → encode i = some n → n < 2 ^ 64 ∧ decodeQuatin (BitVec.ofNat 64 n) = .ok i) ∧
  (∀ i n, i.wf = true → hdrOf i = none → encode i = some n → n < 2 ^ 32 ∧ decodeCreven (BitVec.ofNat 32 n) = .ok i) ∧
  ∀ i j n, i.wf = true → j.wf = true → (hdrOf i).isSome = (hdrOf j).isSome → encode i = some n → encode j = some n → i = j

/-- R27, R57, R82, R375: a step whose turn is a warp's runs the instruction that the bytes at its issue PC decode to, on a page that a
cached translation or a walk gives and permits; one whose turn is a stack core's runs that of the 4 bytes at its PC; one whose turn is an
event's runs it. What a step adds: it leaves no turn behind, and takes a new ticket. (The agenda of turns is the model's, and so is the
form of the reads of memory that hold no dropped byte and are not held elsewhere: log entries 2 and 7.) -/
def Obligations.StepRuns : Prop := ∀ (s t : State) (rest : List Todo),
  let s0 : State := { s with agenda := rest }
  let done (t : State) : State := { t with turn := .idle, ticket := s.ticket + 1 }
  -- plain memory of this package, and its bytes, in the state after the translation
  let plain (u : State) (leaf pa lin : Nat) : Prop := u.localDev (pteDev leaf) = true ∧ linOf pa = some lin ∧ pteKey leaf = 0 ∧
    2 ≤ pteReach leaf ∧ (u.stack (homeOf lin)).alive = true ∧ u.gaps = []
  let bytes (u : State) (lin n : Nat) : Nat := numOf ((upFrom lin n).map u.byteAt)
  (∀ c w wp pc u leaf pa lin i, s.agenda = .word c w :: rest → s.warp? c w = some wp → wp.issuePc = some pc →
    s0.translate (.engine c) (s.asidOf wp) pc .fetch (s.core c).ctx.sec = (u, .ok leaf pa) → plain u leaf pa lin →
    decodeQuatin (BitVec.ofNat 64 (bytes u lin 8)) = .ok i →
    exec i { u with turn := .warp c w } = .next t → t.walkLost = false → step s = .next (done t)) ∧
  (∀ n x u leaf pa lin i, s.agenda = .sword n :: rest → (s.score n).run = some x → x.serve = none →
    s0.translate (.score n) x.asid x.pc .fetch x.sec = (u, .ok leaf pa) → plain u leaf pa lin →
    decodeCreven (BitVec.ofNat 32 (bytes u lin 4)) = .ok i →
    exec i { u with turn := .score n } = .next t → t.walkLost = false → step s = .next (done t)) ∧
  (∀ i, s.agenda = .ev i :: rest → exec i { s0 with turn := .idle } = .next t → t.walkLost = false → step s = .next (done t))

/-- R178, R181, R200, R283, R319, R346, R353, R399, R456, R464: what the spec's registers read after reset, as the register maps give it,
racks are empty and nothing is resident; and what every step keeps holds there. -/
def Obligations.ResetValues : Prop :=
  let s := State.reset
  (∀ k < 8, s.regValue (.die k) 0x2000 = 33350 + 2048 * 2 ^ 32 ∧ s.regValue (.die k) 0x2008 = 4168 + 2 ^ 32 ∧
    s.regValue (.die k) 0x4000 = 0 ∧ s.regValue (.die k) 0x5000 = 512 ∧ s.regValue (.die k) 0x6000 = 6400 ∧
    s.regValue (.die k) 0x7000 = 0x01000000 ∧ s.regValue (.die k) 0x7008 = 1 ∧ s.regValue (.die k) 0xA000 = 0) ∧
  (∀ k < 16, s.regValue (.base k) 0x6000 = 6400 ∧ s.regValue (.base k) 0x8000 = 0 ∧ s.regValue (.base k) 0xA000 = 0) ∧
  (∀ c < 64, (s.core c).rack = 0 ∧ (s.core c).ctx.warps = [] ∧ (s.core c).regulator = c / 16) ∧
  s.regValue .control 0x620000 = 0 ∧ s.regValue .control 0x200000 = 0 ∧ s.memOk = true ∧ s.whole = true

/-- R11, R18: from every state whose memory is in canonical form and which has all its parts, every step that answers a next state answers
one of that kind. (The canonical form is the model's, log entry 1.) -/
def Obligations.StepKeeps : Prop := ∀ s t : State, s.memOk = true → s.whole = true → step s = .next t → t.memOk = true ∧ t.whole = true
end

