-- ==== Sys2Proof/Laws/State.lean ====
section
/-! SUPPORT. The fields of a state after each of its named updates, and lists and maps after one write. -/

namespace Sys2Proof.Machine

/-! ### Lists and maps -/

@[simp] theorem lmod_length {α : Type} (xs : List α) (i : Nat) (f : α → α) : (lmod xs i f).length = xs.length := by
  induction xs generalizing i with
  | nil => rfl
  | cons x xs ih => cases i <;> simp [lmod, ih]

theorem lget_lmod {α : Type} (xs : List α) (i j : Nat) (f : α → α) (d : α) (h : j < xs.length) :
    lget (lmod xs i f) j d = if i = j then f (lget xs j d) else lget xs j d := by
  induction xs generalizing i j with
  | nil => simp at h
  | cons x xs ih =>
    cases i <;> cases j <;> simp_all [lmod, lget]

theorem lget_lmod_ne {α : Type} (xs : List α) (i j : Nat) (f : α → α) (d : α) (h : i ≠ j) :
    lget (lmod xs i f) j d = lget xs j d := by
  induction xs generalizing i j with
  | nil => rfl
  | cons x xs ih =>
    cases i <;> cases j <;> simp_all [lmod, lget]

@[simp] theorem mget?_mset {α : Type} (m : List (Nat × α)) (i j : Nat) (x : α) :
    mget? (mset m i x) j = if i = j then some x else mget? m j := by
  induction m with
  | nil => simp [mset, mget?]
  | cons p m ih =>
    obtain ⟨k, y⟩ := p
    simp only [mset]
    split
    · simp [mget?]
    · split
      · subst_vars; simp only [mget?]; split <;> simp_all
      · simp only [mget?, ih]; split <;> split <;> simp_all

@[simp] theorem mget_mset {α : Type} (m : List (Nat × α)) (i j : Nat) (x d : α) :
    mget (mset m i x) j d = if i = j then x else mget m j d := by
  simp only [mget, mget?_mset]; split <;> rfl

@[simp] theorem mget?_mmod {α : Type} (m : List (Nat × α)) (i j : Nat) (f : α → α) :
    mget? (mmod m i f) j = if i = j then (mget? m i).map f else mget? m j := by
  by_cases h : i = j
  · subst h
    cases hm : mget? m i <;> simp [mmod, hm]
  · cases hm : mget? m i <;> simp [mmod, hm, h]

/-! ### The fields of a state -/

@[simp] theorem State.setCore_mem (s : State) (c : Nat) (f : Core → Core) : (s.setCore c f).mem = s.mem := rfl
@[simp] theorem State.setCore_marks (s : State) (c : Nat) (f : Core → Core) : (s.setCore c f).marks = s.marks := rfl
@[simp] theorem State.setCore_gaps (s : State) (c : Nat) (f : Core → Core) : (s.setCore c f).gaps = s.gaps := rfl
@[simp] theorem State.setCore_dies (s : State) (c : Nat) (f : Core → Core) : (s.setCore c f).dies = s.dies := rfl
@[simp] theorem State.setCore_stks (s : State) (c : Nat) (f : Core → Core) : (s.setCore c f).stks = s.stks := rfl
@[simp] theorem State.setCore_rows (s : State) (c : Nat) (f : Core → Core) : (s.setCore c f).rows = s.rows := rfl
@[simp] theorem State.setCore_scores (s : State) (c : Nat) (f : Core → Core) : (s.setCore c f).scores = s.scores := rfl
@[simp] theorem State.setCore_ctl (s : State) (c : Nat) (f : Core → Core) : (s.setCore c f).ctl = s.ctl := rfl
@[simp] theorem State.setCore_launches (s : State) (c : Nat) (f : Core → Core) : (s.setCore c f).launches = s.launches := rfl
@[simp] theorem State.setCore_nextLaunch (s : State) (c : Nat) (f : Core → Core) : (s.setCore c f).nextLaunch = s.nextLaunch := rfl
@[simp] theorem State.setCore_accs (s : State) (c : Nat) (f : Core → Core) : (s.setCore c f).accs = s.accs := rfl
@[simp] theorem State.setCore_colls (s : State) (c : Nat) (f : Core → Core) : (s.setCore c f).colls = s.colls := rfl
@[simp] theorem State.setCore_penRels (s : State) (c : Nat) (f : Core → Core) : (s.setCore c f).penRels = s.penRels := rfl
@[simp] theorem State.setCore_agenda (s : State) (c : Nat) (f : Core → Core) : (s.setCore c f).agenda = s.agenda := rfl
@[simp] theorem State.setCore_turn (s : State) (c : Nat) (f : Core → Core) : (s.setCore c f).turn = s.turn := rfl
@[simp] theorem State.setCore_clock (s : State) (c : Nat) (f : Core → Core) : (s.setCore c f).clock = s.clock := rfl
@[simp] theorem State.setCore_nextId (s : State) (c : Nat) (f : Core → Core) : (s.setCore c f).nextId = s.nextId := rfl
@[simp] theorem State.setCore_stamp (s : State) (c : Nat) (f : Core → Core) : (s.setCore c f).stamp = s.stamp := rfl
@[simp] theorem State.setCore_ticket (s : State) (c : Nat) (f : Core → Core) : (s.setCore c f).ticket = s.ticket := rfl
@[simp] theorem State.setCore_walkLost (s : State) (c : Nat) (f : Core → Core) : (s.setCore c f).walkLost = s.walkLost := rfl
@[simp] theorem State.setCore_walks (s : State) (c : Nat) (f : Core → Core) : (s.setCore c f).walks = s.walks := rfl
@[simp] theorem State.setCore_penPhase (s : State) (c : Nat) (f : Core → Core) : (s.setCore c f).penPhase = s.penPhase := rfl
@[simp] theorem State.setCore_yard (s : State) (c : Nat) (f : Core → Core) : (s.setCore c f).yard = s.yard := rfl

@[simp] theorem State.setDie_mem (s : State) (k : Nat) (f : Die → Die) : (s.setDie k f).mem = s.mem := rfl
@[simp] theorem State.setDie_marks (s : State) (k : Nat) (f : Die → Die) : (s.setDie k f).marks = s.marks := rfl
@[simp] theorem State.setDie_gaps (s : State) (k : Nat) (f : Die → Die) : (s.setDie k f).gaps = s.gaps := rfl
@[simp] theorem State.setDie_cores (s : State) (k : Nat) (f : Die → Die) : (s.setDie k f).cores = s.cores := rfl
@[simp] theorem State.setDie_stks (s : State) (k : Nat) (f : Die → Die) : (s.setDie k f).stks = s.stks := rfl
@[simp] theorem State.setDie_rows (s : State) (k : Nat) (f : Die → Die) : (s.setDie k f).rows = s.rows := rfl
@[simp] theorem State.setDie_scores (s : State) (k : Nat) (f : Die → Die) : (s.setDie k f).scores = s.scores := rfl
@[simp] theorem State.setDie_ctl (s : State) (k : Nat) (f : Die → Die) : (s.setDie k f).ctl = s.ctl := rfl
@[simp] theorem State.setDie_launches (s : State) (k : Nat) (f : Die → Die) : (s.setDie k f).launches = s.launches := rfl
@[simp] theorem State.setDie_nextLaunch (s : State) (k : Nat) (f : Die → Die) : (s.setDie k f).nextLaunch = s.nextLaunch := rfl
@[simp] theorem State.setDie_accs (s : State) (k : Nat) (f : Die → Die) : (s.setDie k f).accs = s.accs := rfl
@[simp] theorem State.setDie_colls (s : State) (k : Nat) (f : Die → Die) : (s.setDie k f).colls = s.colls := rfl
@[simp] theorem State.setDie_penRels (s : State) (k : Nat) (f : Die → Die) : (s.setDie k f).penRels = s.penRels := rfl
@[simp] theorem State.setDie_agenda (s : State) (k : Nat) (f : Die → Die) : (s.setDie k f).agenda = s.agenda := rfl
@[simp] theorem State.setDie_turn (s : State) (k : Nat) (f : Die → Die) : (s.setDie k f).turn = s.turn := rfl
@[simp] theorem State.setDie_clock (s : State) (k : Nat) (f : Die → Die) : (s.setDie k f).clock = s.clock := rfl
@[simp] theorem State.setDie_nextId (s : State) (k : Nat) (f : Die → Die) : (s.setDie k f).nextId = s.nextId := rfl
@[simp] theorem State.setDie_stamp (s : State) (k : Nat) (f : Die → Die) : (s.setDie k f).stamp = s.stamp := rfl
@[simp] theorem State.setDie_ticket (s : State) (k : Nat) (f : Die → Die) : (s.setDie k f).ticket = s.ticket := rfl
@[simp] theorem State.setDie_walkLost (s : State) (k : Nat) (f : Die → Die) : (s.setDie k f).walkLost = s.walkLost := rfl
@[simp] theorem State.setDie_walks (s : State) (k : Nat) (f : Die → Die) : (s.setDie k f).walks = s.walks := rfl
@[simp] theorem State.setDie_penPhase (s : State) (k : Nat) (f : Die → Die) : (s.setDie k f).penPhase = s.penPhase := rfl
@[simp] theorem State.setDie_yard (s : State) (k : Nat) (f : Die → Die) : (s.setDie k f).yard = s.yard := rfl

@[simp] theorem State.setStack_mem (s : State) (k : Nat) (f : Stack → Stack) : (s.setStack k f).mem = s.mem := rfl
@[simp] theorem State.setStack_marks (s : State) (k : Nat) (f : Stack → Stack) : (s.setStack k f).marks = s.marks := rfl
@[simp] theorem State.setStack_gaps (s : State) (k : Nat) (f : Stack → Stack) : (s.setStack k f).gaps = s.gaps := rfl
@[simp] theorem State.setStack_cores (s : State) (k : Nat) (f : Stack → Stack) : (s.setStack k f).cores = s.cores := rfl
@[simp] theorem State.setStack_dies (s : State) (k : Nat) (f : Stack → Stack) : (s.setStack k f).dies = s.dies := rfl
@[simp] theorem State.setStack_rows (s : State) (k : Nat) (f : Stack → Stack) : (s.setStack k f).rows = s.rows := rfl
@[simp] theorem State.setStack_scores (s : State) (k : Nat) (f : Stack → Stack) : (s.setStack k f).scores = s.scores := rfl
@[simp] theorem State.setStack_ctl (s : State) (k : Nat) (f : Stack → Stack) : (s.setStack k f).ctl = s.ctl := rfl
@[simp] theorem State.setStack_launches (s : State) (k : Nat) (f : Stack → Stack) : (s.setStack k f).launches = s.launches := rfl
@[simp] theorem State.setStack_nextLaunch (s : State) (k : Nat) (f : Stack → Stack) : (s.setStack k f).nextLaunch = s.nextLaunch := rfl
@[simp] theorem State.setStack_accs (s : State) (k : Nat) (f : Stack → Stack) : (s.setStack k f).accs = s.accs := rfl
@[simp] theorem State.setStack_colls (s : State) (k : Nat) (f : Stack → Stack) : (s.setStack k f).colls = s.colls := rfl
@[simp] theorem State.setStack_penRels (s : State) (k : Nat) (f : Stack → Stack) : (s.setStack k f).penRels = s.penRels := rfl
@[simp] theorem State.setStack_agenda (s : State) (k : Nat) (f : Stack → Stack) : (s.setStack k f).agenda = s.agenda := rfl
@[simp] theorem State.setStack_turn (s : State) (k : Nat) (f : Stack → Stack) : (s.setStack k f).turn = s.turn := rfl
@[simp] theorem State.setStack_clock (s : State) (k : Nat) (f : Stack → Stack) : (s.setStack k f).clock = s.clock := rfl
@[simp] theorem State.setStack_nextId (s : State) (k : Nat) (f : Stack → Stack) : (s.setStack k f).nextId = s.nextId := rfl
@[simp] theorem State.setStack_stamp (s : State) (k : Nat) (f : Stack → Stack) : (s.setStack k f).stamp = s.stamp := rfl
@[simp] theorem State.setStack_ticket (s : State) (k : Nat) (f : Stack → Stack) : (s.setStack k f).ticket = s.ticket := rfl
@[simp] theorem State.setStack_walkLost (s : State) (k : Nat) (f : Stack → Stack) : (s.setStack k f).walkLost = s.walkLost := rfl
@[simp] theorem State.setStack_walks (s : State) (k : Nat) (f : Stack → Stack) : (s.setStack k f).walks = s.walks := rfl
@[simp] theorem State.setStack_penPhase (s : State) (k : Nat) (f : Stack → Stack) : (s.setStack k f).penPhase = s.penPhase := rfl
@[simp] theorem State.setStack_yard (s : State) (k : Nat) (f : Stack → Stack) : (s.setStack k f).yard = s.yard := rfl

@[simp] theorem State.setScore_mem (s : State) (n : Nat) (f : SCore → SCore) : (s.setScore n f).mem = s.mem := rfl
@[simp] theorem State.setScore_marks (s : State) (n : Nat) (f : SCore → SCore) : (s.setScore n f).marks = s.marks := rfl
@[simp] theorem State.setScore_gaps (s : State) (n : Nat) (f : SCore → SCore) : (s.setScore n f).gaps = s.gaps := rfl
@[simp] theorem State.setScore_cores (s : State) (n : Nat) (f : SCore → SCore) : (s.setScore n f).cores = s.cores := rfl
@[simp] theorem State.setScore_dies (s : State) (n : Nat) (f : SCore → SCore) : (s.setScore n f).dies = s.dies := rfl
@[simp] theorem State.setScore_stks (s : State) (n : Nat) (f : SCore → SCore) : (s.setScore n f).stks = s.stks := rfl
@[simp] theorem State.setScore_rows (s : State) (n : Nat) (f : SCore → SCore) : (s.setScore n f).rows = s.rows := rfl
@[simp] theorem State.setScore_ctl (s : State) (n : Nat) (f : SCore → SCore) : (s.setScore n f).ctl = s.ctl := rfl
@[simp] theorem State.setScore_launches (s : State) (n : Nat) (f : SCore → SCore) : (s.setScore n f).launches = s.launches := rfl
@[simp] theorem State.setScore_nextLaunch (s : State) (n : Nat) (f : SCore → SCore) : (s.setScore n f).nextLaunch = s.nextLaunch := rfl
@[simp] theorem State.setScore_accs (s : State) (n : Nat) (f : SCore → SCore) : (s.setScore n f).accs = s.accs := rfl
@[simp] theorem State.setScore_colls (s : State) (n : Nat) (f : SCore → SCore) : (s.setScore n f).colls = s.colls := rfl
@[simp] theorem State.setScore_penRels (s : State) (n : Nat) (f : SCore → SCore) : (s.setScore n f).penRels = s.penRels := rfl
@[simp] theorem State.setScore_agenda (s : State) (n : Nat) (f : SCore → SCore) : (s.setScore n f).agenda = s.agenda := rfl
@[simp] theorem State.setScore_turn (s : State) (n : Nat) (f : SCore → SCore) : (s.setScore n f).turn = s.turn := rfl
@[simp] theorem State.setScore_clock (s : State) (n : Nat) (f : SCore → SCore) : (s.setScore n f).clock = s.clock := rfl
@[simp] theorem State.setScore_nextId (s : State) (n : Nat) (f : SCore → SCore) : (s.setScore n f).nextId = s.nextId := rfl
@[simp] theorem State.setScore_stamp (s : State) (n : Nat) (f : SCore → SCore) : (s.setScore n f).stamp = s.stamp := rfl
@[simp] theorem State.setScore_ticket (s : State) (n : Nat) (f : SCore → SCore) : (s.setScore n f).ticket = s.ticket := rfl
@[simp] theorem State.setScore_walkLost (s : State) (n : Nat) (f : SCore → SCore) : (s.setScore n f).walkLost = s.walkLost := rfl
@[simp] theorem State.setScore_walks (s : State) (n : Nat) (f : SCore → SCore) : (s.setScore n f).walks = s.walks := rfl
@[simp] theorem State.setScore_penPhase (s : State) (n : Nat) (f : SCore → SCore) : (s.setScore n f).penPhase = s.penPhase := rfl
@[simp] theorem State.setScore_yard (s : State) (n : Nat) (f : SCore → SCore) : (s.setScore n f).yard = s.yard := rfl

@[simp] theorem State.setCtl_mem (s : State) (f : Control → Control) : (s.setCtl f).mem = s.mem := rfl
@[simp] theorem State.setCtl_marks (s : State) (f : Control → Control) : (s.setCtl f).marks = s.marks := rfl
@[simp] theorem State.setCtl_gaps (s : State) (f : Control → Control) : (s.setCtl f).gaps = s.gaps := rfl
@[simp] theorem State.setCtl_cores (s : State) (f : Control → Control) : (s.setCtl f).cores = s.cores := rfl
@[simp] theorem State.setCtl_dies (s : State) (f : Control → Control) : (s.setCtl f).dies = s.dies := rfl
@[simp] theorem State.setCtl_stks (s : State) (f : Control → Control) : (s.setCtl f).stks = s.stks := rfl
@[simp] theorem State.setCtl_rows (s : State) (f : Control → Control) : (s.setCtl f).rows = s.rows := rfl
@[simp] theorem State.setCtl_scores (s : State) (f : Control → Control) : (s.setCtl f).scores = s.scores := rfl
@[simp] theorem State.setCtl_launches (s : State) (f : Control → Control) : (s.setCtl f).launches = s.launches := rfl
@[simp] theorem State.setCtl_nextLaunch (s : State) (f : Control → Control) : (s.setCtl f).nextLaunch = s.nextLaunch := rfl
@[simp] theorem State.setCtl_accs (s : State) (f : Control → Control) : (s.setCtl f).accs = s.accs := rfl
@[simp] theorem State.setCtl_colls (s : State) (f : Control → Control) : (s.setCtl f).colls = s.colls := rfl
@[simp] theorem State.setCtl_penRels (s : State) (f : Control → Control) : (s.setCtl f).penRels = s.penRels := rfl
@[simp] theorem State.setCtl_agenda (s : State) (f : Control → Control) : (s.setCtl f).agenda = s.agenda := rfl
@[simp] theorem State.setCtl_turn (s : State) (f : Control → Control) : (s.setCtl f).turn = s.turn := rfl
@[simp] theorem State.setCtl_clock (s : State) (f : Control → Control) : (s.setCtl f).clock = s.clock := rfl
@[simp] theorem State.setCtl_nextId (s : State) (f : Control → Control) : (s.setCtl f).nextId = s.nextId := rfl
@[simp] theorem State.setCtl_stamp (s : State) (f : Control → Control) : (s.setCtl f).stamp = s.stamp := rfl
@[simp] theorem State.setCtl_ticket (s : State) (f : Control → Control) : (s.setCtl f).ticket = s.ticket := rfl
@[simp] theorem State.setCtl_walkLost (s : State) (f : Control → Control) : (s.setCtl f).walkLost = s.walkLost := rfl
@[simp] theorem State.setCtl_walks (s : State) (f : Control → Control) : (s.setCtl f).walks = s.walks := rfl
@[simp] theorem State.setCtl_penPhase (s : State) (f : Control → Control) : (s.setCtl f).penPhase = s.penPhase := rfl
@[simp] theorem State.setCtl_yard (s : State) (f : Control → Control) : (s.setCtl f).yard = s.yard := rfl

@[simp] theorem State.setLaunch_mem (s : State) (l : Nat) (f : Launch → Launch) : (s.setLaunch l f).mem = s.mem := rfl
@[simp] theorem State.setLaunch_marks (s : State) (l : Nat) (f : Launch → Launch) : (s.setLaunch l f).marks = s.marks := rfl
@[simp] theorem State.setLaunch_gaps (s : State) (l : Nat) (f : Launch → Launch) : (s.setLaunch l f).gaps = s.gaps := rfl
@[simp] theorem State.setLaunch_cores (s : State) (l : Nat) (f : Launch → Launch) : (s.setLaunch l f).cores = s.cores := rfl
@[simp] theorem State.setLaunch_dies (s : State) (l : Nat) (f : Launch → Launch) : (s.setLaunch l f).dies = s.dies := rfl
@[simp] theorem State.setLaunch_stks (s : State) (l : Nat) (f : Launch → Launch) : (s.setLaunch l f).stks = s.stks := rfl
@[simp] theorem State.setLaunch_rows (s : State) (l : Nat) (f : Launch → Launch) : (s.setLaunch l f).rows = s.rows := rfl
@[simp] theorem State.setLaunch_scores (s : State) (l : Nat) (f : Launch → Launch) : (s.setLaunch l f).scores = s.scores := rfl
@[simp] theorem State.setLaunch_ctl (s : State) (l : Nat) (f : Launch → Launch) : (s.setLaunch l f).ctl = s.ctl := rfl
@[simp] theorem State.setLaunch_nextLaunch (s : State) (l : Nat) (f : Launch → Launch) : (s.setLaunch l f).nextLaunch = s.nextLaunch := rfl
@[simp] theorem State.setLaunch_accs (s : State) (l : Nat) (f : Launch → Launch) : (s.setLaunch l f).accs = s.accs := rfl
@[simp] theorem State.setLaunch_colls (s : State) (l : Nat) (f : Launch → Launch) : (s.setLaunch l f).colls = s.colls := rfl
@[simp] theorem State.setLaunch_penRels (s : State) (l : Nat) (f : Launch → Launch) : (s.setLaunch l f).penRels = s.penRels := rfl
@[simp] theorem State.setLaunch_agenda (s : State) (l : Nat) (f : Launch → Launch) : (s.setLaunch l f).agenda = s.agenda := rfl
@[simp] theorem State.setLaunch_turn (s : State) (l : Nat) (f : Launch → Launch) : (s.setLaunch l f).turn = s.turn := rfl
@[simp] theorem State.setLaunch_clock (s : State) (l : Nat) (f : Launch → Launch) : (s.setLaunch l f).clock = s.clock := rfl
@[simp] theorem State.setLaunch_nextId (s : State) (l : Nat) (f : Launch → Launch) : (s.setLaunch l f).nextId = s.nextId := rfl
@[simp] theorem State.setLaunch_stamp (s : State) (l : Nat) (f : Launch → Launch) : (s.setLaunch l f).stamp = s.stamp := rfl
@[simp] theorem State.setLaunch_ticket (s : State) (l : Nat) (f : Launch → Launch) : (s.setLaunch l f).ticket = s.ticket := rfl
@[simp] theorem State.setLaunch_walkLost (s : State) (l : Nat) (f : Launch → Launch) : (s.setLaunch l f).walkLost = s.walkLost := rfl
@[simp] theorem State.setLaunch_walks (s : State) (l : Nat) (f : Launch → Launch) : (s.setLaunch l f).walks = s.walks := rfl
@[simp] theorem State.setLaunch_penPhase (s : State) (l : Nat) (f : Launch → Launch) : (s.setLaunch l f).penPhase = s.penPhase := rfl
@[simp] theorem State.setLaunch_yard (s : State) (l : Nat) (f : Launch → Launch) : (s.setLaunch l f).yard = s.yard := rfl

@[simp] theorem State.setCtx_mem (s : State) (c : Nat) (f : Ctx → Ctx) : (s.setCtx c f).mem = s.mem := rfl
@[simp] theorem State.setCtx_marks (s : State) (c : Nat) (f : Ctx → Ctx) : (s.setCtx c f).marks = s.marks := rfl
@[simp] theorem State.setCtx_gaps (s : State) (c : Nat) (f : Ctx → Ctx) : (s.setCtx c f).gaps = s.gaps := rfl
@[simp] theorem State.setCtx_dies (s : State) (c : Nat) (f : Ctx → Ctx) : (s.setCtx c f).dies = s.dies := rfl
@[simp] theorem State.setCtx_stks (s : State) (c : Nat) (f : Ctx → Ctx) : (s.setCtx c f).stks = s.stks := rfl
@[simp] theorem State.setCtx_rows (s : State) (c : Nat) (f : Ctx → Ctx) : (s.setCtx c f).rows = s.rows := rfl
@[simp] theorem State.setCtx_scores (s : State) (c : Nat) (f : Ctx → Ctx) : (s.setCtx c f).scores = s.scores := rfl
@[simp] theorem State.setCtx_ctl (s : State) (c : Nat) (f : Ctx → Ctx) : (s.setCtx c f).ctl = s.ctl := rfl
@[simp] theorem State.setCtx_launches (s : State) (c : Nat) (f : Ctx → Ctx) : (s.setCtx c f).launches = s.launches := rfl
@[simp] theorem State.setCtx_nextLaunch (s : State) (c : Nat) (f : Ctx → Ctx) : (s.setCtx c f).nextLaunch = s.nextLaunch := rfl
@[simp] theorem State.setCtx_accs (s : State) (c : Nat) (f : Ctx → Ctx) : (s.setCtx c f).accs = s.accs := rfl
@[simp] theorem State.setCtx_colls (s : State) (c : Nat) (f : Ctx → Ctx) : (s.setCtx c f).colls = s.colls := rfl
@[simp] theorem State.setCtx_penRels (s : State) (c : Nat) (f : Ctx → Ctx) : (s.setCtx c f).penRels = s.penRels := rfl
@[simp] theorem State.setCtx_agenda (s : State) (c : Nat) (f : Ctx → Ctx) : (s.setCtx c f).agenda = s.agenda := rfl
@[simp] theorem State.setCtx_turn (s : State) (c : Nat) (f : Ctx → Ctx) : (s.setCtx c f).turn = s.turn := rfl
@[simp] theorem State.setCtx_clock (s : State) (c : Nat) (f : Ctx → Ctx) : (s.setCtx c f).clock = s.clock := rfl
@[simp] theorem State.setCtx_nextId (s : State) (c : Nat) (f : Ctx → Ctx) : (s.setCtx c f).nextId = s.nextId := rfl
@[simp] theorem State.setCtx_stamp (s : State) (c : Nat) (f : Ctx → Ctx) : (s.setCtx c f).stamp = s.stamp := rfl
@[simp] theorem State.setCtx_ticket (s : State) (c : Nat) (f : Ctx → Ctx) : (s.setCtx c f).ticket = s.ticket := rfl
@[simp] theorem State.setCtx_walkLost (s : State) (c : Nat) (f : Ctx → Ctx) : (s.setCtx c f).walkLost = s.walkLost := rfl
@[simp] theorem State.setCtx_walks (s : State) (c : Nat) (f : Ctx → Ctx) : (s.setCtx c f).walks = s.walks := rfl
@[simp] theorem State.setCtx_penPhase (s : State) (c : Nat) (f : Ctx → Ctx) : (s.setCtx c f).penPhase = s.penPhase := rfl
@[simp] theorem State.setCtx_yard (s : State) (c : Nat) (f : Ctx → Ctx) : (s.setCtx c f).yard = s.yard := rfl

@[simp] theorem State.setWarp_mem (s : State) (c w : Nat) (f : Warp → Warp) : (s.setWarp c w f).mem = s.mem := rfl
@[simp] theorem State.setWarp_marks (s : State) (c w : Nat) (f : Warp → Warp) : (s.setWarp c w f).marks = s.marks := rfl
@[simp] theorem State.setWarp_gaps (s : State) (c w : Nat) (f : Warp → Warp) : (s.setWarp c w f).gaps = s.gaps := rfl
@[simp] theorem State.setWarp_dies (s : State) (c w : Nat) (f : Warp → Warp) : (s.setWarp c w f).dies = s.dies := rfl
@[simp] theorem State.setWarp_stks (s : State) (c w : Nat) (f : Warp → Warp) : (s.setWarp c w f).stks = s.stks := rfl
@[simp] theorem State.setWarp_rows (s : State) (c w : Nat) (f : Warp → Warp) : (s.setWarp c w f).rows = s.rows := rfl
@[simp] theorem State.setWarp_scores (s : State) (c w : Nat) (f : Warp → Warp) : (s.setWarp c w f).scores = s.scores := rfl
@[simp] theorem State.setWarp_ctl (s : State) (c w : Nat) (f : Warp → Warp) : (s.setWarp c w f).ctl = s.ctl := rfl
@[simp] theorem State.setWarp_launches (s : State) (c w : Nat) (f : Warp → Warp) : (s.setWarp c w f).launches = s.launches := rfl
@[simp] theorem State.setWarp_nextLaunch (s : State) (c w : Nat) (f : Warp → Warp) : (s.setWarp c w f).nextLaunch = s.nextLaunch := rfl
@[simp] theorem State.setWarp_accs (s : State) (c w : Nat) (f : Warp → Warp) : (s.setWarp c w f).accs = s.accs := rfl
@[simp] theorem State.setWarp_colls (s : State) (c w : Nat) (f : Warp → Warp) : (s.setWarp c w f).colls = s.colls := rfl
@[simp] theorem State.setWarp_penRels (s : State) (c w : Nat) (f : Warp → Warp) : (s.setWarp c w f).penRels = s.penRels := rfl
@[simp] theorem State.setWarp_agenda (s : State) (c w : Nat) (f : Warp → Warp) : (s.setWarp c w f).agenda = s.agenda := rfl
@[simp] theorem State.setWarp_turn (s : State) (c w : Nat) (f : Warp → Warp) : (s.setWarp c w f).turn = s.turn := rfl
@[simp] theorem State.setWarp_clock (s : State) (c w : Nat) (f : Warp → Warp) : (s.setWarp c w f).clock = s.clock := rfl
@[simp] theorem State.setWarp_nextId (s : State) (c w : Nat) (f : Warp → Warp) : (s.setWarp c w f).nextId = s.nextId := rfl
@[simp] theorem State.setWarp_stamp (s : State) (c w : Nat) (f : Warp → Warp) : (s.setWarp c w f).stamp = s.stamp := rfl
@[simp] theorem State.setWarp_ticket (s : State) (c w : Nat) (f : Warp → Warp) : (s.setWarp c w f).ticket = s.ticket := rfl
@[simp] theorem State.setWarp_walkLost (s : State) (c w : Nat) (f : Warp → Warp) : (s.setWarp c w f).walkLost = s.walkLost := rfl
@[simp] theorem State.setWarp_walks (s : State) (c w : Nat) (f : Warp → Warp) : (s.setWarp c w f).walks = s.walks := rfl
@[simp] theorem State.setWarp_penPhase (s : State) (c w : Nat) (f : Warp → Warp) : (s.setWarp c w f).penPhase = s.penPhase := rfl
@[simp] theorem State.setWarp_yard (s : State) (c w : Nat) (f : Warp → Warp) : (s.setWarp c w f).yard = s.yard := rfl

@[simp] theorem State.setThread_mem (s : State) (t : TRef) (f : Thread → Thread) : (s.setThread t f).mem = s.mem := rfl
@[simp] theorem State.setThread_marks (s : State) (t : TRef) (f : Thread → Thread) : (s.setThread t f).marks = s.marks := rfl
@[simp] theorem State.setThread_gaps (s : State) (t : TRef) (f : Thread → Thread) : (s.setThread t f).gaps = s.gaps := rfl
@[simp] theorem State.setThread_dies (s : State) (t : TRef) (f : Thread → Thread) : (s.setThread t f).dies = s.dies := rfl
@[simp] theorem State.setThread_stks (s : State) (t : TRef) (f : Thread → Thread) : (s.setThread t f).stks = s.stks := rfl
@[simp] theorem State.setThread_rows (s : State) (t : TRef) (f : Thread → Thread) : (s.setThread t f).rows = s.rows := rfl
@[simp] theorem State.setThread_scores (s : State) (t : TRef) (f : Thread → Thread) : (s.setThread t f).scores = s.scores := rfl
@[simp] theorem State.setThread_ctl (s : State) (t : TRef) (f : Thread → Thread) : (s.setThread t f).ctl = s.ctl := rfl
@[simp] theorem State.setThread_launches (s : State) (t : TRef) (f : Thread → Thread) : (s.setThread t f).launches = s.launches := rfl
@[simp] theorem State.setThread_nextLaunch (s : State) (t : TRef) (f : Thread → Thread) : (s.setThread t f).nextLaunch = s.nextLaunch := rfl
@[simp] theorem State.setThread_accs (s : State) (t : TRef) (f : Thread → Thread) : (s.setThread t f).accs = s.accs := rfl
@[simp] theorem State.setThread_colls (s : State) (t : TRef) (f : Thread → Thread) : (s.setThread t f).colls = s.colls := rfl
@[simp] theorem State.setThread_penRels (s : State) (t : TRef) (f : Thread → Thread) : (s.setThread t f).penRels = s.penRels := rfl
@[simp] theorem State.setThread_agenda (s : State) (t : TRef) (f : Thread → Thread) : (s.setThread t f).agenda = s.agenda := rfl
@[simp] theorem State.setThread_turn (s : State) (t : TRef) (f : Thread → Thread) : (s.setThread t f).turn = s.turn := rfl
@[simp] theorem State.setThread_clock (s : State) (t : TRef) (f : Thread → Thread) : (s.setThread t f).clock = s.clock := rfl
@[simp] theorem State.setThread_nextId (s : State) (t : TRef) (f : Thread → Thread) : (s.setThread t f).nextId = s.nextId := rfl
@[simp] theorem State.setThread_stamp (s : State) (t : TRef) (f : Thread → Thread) : (s.setThread t f).stamp = s.stamp := rfl
@[simp] theorem State.setThread_ticket (s : State) (t : TRef) (f : Thread → Thread) : (s.setThread t f).ticket = s.ticket := rfl
@[simp] theorem State.setThread_walkLost (s : State) (t : TRef) (f : Thread → Thread) : (s.setThread t f).walkLost = s.walkLost := rfl
@[simp] theorem State.setThread_walks (s : State) (t : TRef) (f : Thread → Thread) : (s.setThread t f).walks = s.walks := rfl
@[simp] theorem State.setThread_penPhase (s : State) (t : TRef) (f : Thread → Thread) : (s.setThread t f).penPhase = s.penPhase := rfl
@[simp] theorem State.setThread_yard (s : State) (t : TRef) (f : Thread → Thread) : (s.setThread t f).yard = s.yard := rfl

@[simp] theorem State.setView_mem (s : State) (c l : Nat) (f : View → View) : (s.setView c l f).mem = s.mem := rfl
@[simp] theorem State.setView_marks (s : State) (c l : Nat) (f : View → View) : (s.setView c l f).marks = s.marks := rfl
@[simp] theorem State.setView_gaps (s : State) (c l : Nat) (f : View → View) : (s.setView c l f).gaps = s.gaps := rfl
@[simp] theorem State.setView_dies (s : State) (c l : Nat) (f : View → View) : (s.setView c l f).dies = s.dies := rfl
@[simp] theorem State.setView_stks (s : State) (c l : Nat) (f : View → View) : (s.setView c l f).stks = s.stks := rfl
@[simp] theorem State.setView_rows (s : State) (c l : Nat) (f : View → View) : (s.setView c l f).rows = s.rows := rfl
@[simp] theorem State.setView_scores (s : State) (c l : Nat) (f : View → View) : (s.setView c l f).scores = s.scores := rfl
@[simp] theorem State.setView_ctl (s : State) (c l : Nat) (f : View → View) : (s.setView c l f).ctl = s.ctl := rfl
@[simp] theorem State.setView_launches (s : State) (c l : Nat) (f : View → View) : (s.setView c l f).launches = s.launches := rfl
@[simp] theorem State.setView_nextLaunch (s : State) (c l : Nat) (f : View → View) : (s.setView c l f).nextLaunch = s.nextLaunch := rfl
@[simp] theorem State.setView_accs (s : State) (c l : Nat) (f : View → View) : (s.setView c l f).accs = s.accs := rfl
@[simp] theorem State.setView_colls (s : State) (c l : Nat) (f : View → View) : (s.setView c l f).colls = s.colls := rfl
@[simp] theorem State.setView_penRels (s : State) (c l : Nat) (f : View → View) : (s.setView c l f).penRels = s.penRels := rfl
@[simp] theorem State.setView_agenda (s : State) (c l : Nat) (f : View → View) : (s.setView c l f).agenda = s.agenda := rfl
@[simp] theorem State.setView_turn (s : State) (c l : Nat) (f : View → View) : (s.setView c l f).turn = s.turn := rfl
@[simp] theorem State.setView_clock (s : State) (c l : Nat) (f : View → View) : (s.setView c l f).clock = s.clock := rfl
@[simp] theorem State.setView_nextId (s : State) (c l : Nat) (f : View → View) : (s.setView c l f).nextId = s.nextId := rfl
@[simp] theorem State.setView_stamp (s : State) (c l : Nat) (f : View → View) : (s.setView c l f).stamp = s.stamp := rfl
@[simp] theorem State.setView_ticket (s : State) (c l : Nat) (f : View → View) : (s.setView c l f).ticket = s.ticket := rfl
@[simp] theorem State.setView_walkLost (s : State) (c l : Nat) (f : View → View) : (s.setView c l f).walkLost = s.walkLost := rfl
@[simp] theorem State.setView_walks (s : State) (c l : Nat) (f : View → View) : (s.setView c l f).walks = s.walks := rfl
@[simp] theorem State.setView_penPhase (s : State) (c l : Nat) (f : View → View) : (s.setView c l f).penPhase = s.penPhase := rfl
@[simp] theorem State.setView_yard (s : State) (c l : Nat) (f : View → View) : (s.setView c l f).yard = s.yard := rfl

@[simp] theorem State.fresh_mem (s : State)  : (s.fresh ).mem = s.mem := rfl
@[simp] theorem State.fresh_marks (s : State)  : (s.fresh ).marks = s.marks := rfl
@[simp] theorem State.fresh_gaps (s : State)  : (s.fresh ).gaps = s.gaps := rfl
@[simp] theorem State.fresh_cores (s : State)  : (s.fresh ).cores = s.cores := rfl
@[simp] theorem State.fresh_dies (s : State)  : (s.fresh ).dies = s.dies := rfl
@[simp] theorem State.fresh_stks (s : State)  : (s.fresh ).stks = s.stks := rfl
@[simp] theorem State.fresh_rows (s : State)  : (s.fresh ).rows = s.rows := rfl
@[simp] theorem State.fresh_scores (s : State)  : (s.fresh ).scores = s.scores := rfl
@[simp] theorem State.fresh_ctl (s : State)  : (s.fresh ).ctl = s.ctl := rfl
@[simp] theorem State.fresh_launches (s : State)  : (s.fresh ).launches = s.launches := rfl
@[simp] theorem State.fresh_nextLaunch (s : State)  : (s.fresh ).nextLaunch = s.nextLaunch := rfl
@[simp] theorem State.fresh_accs (s : State)  : (s.fresh ).accs = s.accs := rfl
@[simp] theorem State.fresh_colls (s : State)  : (s.fresh ).colls = s.colls := rfl
@[simp] theorem State.fresh_penRels (s : State)  : (s.fresh ).penRels = s.penRels := rfl
@[simp] theorem State.fresh_agenda (s : State)  : (s.fresh ).agenda = s.agenda := rfl
@[simp] theorem State.fresh_turn (s : State)  : (s.fresh ).turn = s.turn := rfl
@[simp] theorem State.fresh_clock (s : State)  : (s.fresh ).clock = s.clock := rfl
@[simp] theorem State.fresh_stamp (s : State)  : (s.fresh ).stamp = s.stamp := rfl
@[simp] theorem State.fresh_ticket (s : State)  : (s.fresh ).ticket = s.ticket := rfl
@[simp] theorem State.fresh_walkLost (s : State)  : (s.fresh ).walkLost = s.walkLost := rfl
@[simp] theorem State.fresh_walks (s : State)  : (s.fresh ).walks = s.walks := rfl
@[simp] theorem State.fresh_penPhase (s : State)  : (s.fresh ).penPhase = s.penPhase := rfl
@[simp] theorem State.fresh_yard (s : State)  : (s.fresh ).yard = s.yard := rfl

@[simp] theorem State.tickStamp_mem (s : State)  : (s.tickStamp ).mem = s.mem := rfl
@[simp] theorem State.tickStamp_marks (s : State)  : (s.tickStamp ).marks = s.marks := rfl
@[simp] theorem State.tickStamp_gaps (s : State)  : (s.tickStamp ).gaps = s.gaps := rfl
@[simp] theorem State.tickStamp_cores (s : State)  : (s.tickStamp ).cores = s.cores := rfl
@[simp] theorem State.tickStamp_dies (s : State)  : (s.tickStamp ).dies = s.dies := rfl
@[simp] theorem State.tickStamp_stks (s : State)  : (s.tickStamp ).stks = s.stks := rfl
@[simp] theorem State.tickStamp_rows (s : State)  : (s.tickStamp ).rows = s.rows := rfl
@[simp] theorem State.tickStamp_scores (s : State)  : (s.tickStamp ).scores = s.scores := rfl
@[simp] theorem State.tickStamp_ctl (s : State)  : (s.tickStamp ).ctl = s.ctl := rfl
@[simp] theorem State.tickStamp_launches (s : State)  : (s.tickStamp ).launches = s.launches := rfl
@[simp] theorem State.tickStamp_nextLaunch (s : State)  : (s.tickStamp ).nextLaunch = s.nextLaunch := rfl
@[simp] theorem State.tickStamp_accs (s : State)  : (s.tickStamp ).accs = s.accs := rfl
@[simp] theorem State.tickStamp_colls (s : State)  : (s.tickStamp ).colls = s.colls := rfl
@[simp] theorem State.tickStamp_penRels (s : State)  : (s.tickStamp ).penRels = s.penRels := rfl
@[simp] theorem State.tickStamp_agenda (s : State)  : (s.tickStamp ).agenda = s.agenda := rfl
@[simp] theorem State.tickStamp_turn (s : State)  : (s.tickStamp ).turn = s.turn := rfl
@[simp] theorem State.tickStamp_clock (s : State)  : (s.tickStamp ).clock = s.clock := rfl
@[simp] theorem State.tickStamp_nextId (s : State)  : (s.tickStamp ).nextId = s.nextId := rfl
@[simp] theorem State.tickStamp_ticket (s : State)  : (s.tickStamp ).ticket = s.ticket := rfl
@[simp] theorem State.tickStamp_walkLost (s : State)  : (s.tickStamp ).walkLost = s.walkLost := rfl
@[simp] theorem State.tickStamp_walks (s : State)  : (s.tickStamp ).walks = s.walks := rfl
@[simp] theorem State.tickStamp_penPhase (s : State)  : (s.tickStamp ).penPhase = s.penPhase := rfl
@[simp] theorem State.tickStamp_yard (s : State)  : (s.tickStamp ).yard = s.yard := rfl

/-! ### The parts of a state -/

theorem State.core_setCore (s : State) (c d : Nat) (f : Core → Core) (h : d < s.cores.length) :
    (s.setCore c f).core d = if c = d then f (s.core d) else s.core d := lget_lmod s.cores c d f _ h

theorem State.core_setCore_ne (s : State) (c d : Nat) (f : Core → Core) (h : c ≠ d) : (s.setCore c f).core d = s.core d :=
  lget_lmod_ne s.cores c d f _ h

@[simp] theorem State.core_setDie (s : State) (k c : Nat) (f : Die → Die) : (s.setDie k f).core c = s.core c := rfl
@[simp] theorem State.core_setStack (s : State) (k c : Nat) (f : Stack → Stack) : (s.setStack k f).core c = s.core c := rfl
@[simp] theorem State.core_setScore (s : State) (n c : Nat) (f : SCore → SCore) : (s.setScore n f).core c = s.core c := rfl
@[simp] theorem State.core_setCtl (s : State) (f : Control → Control) (c : Nat) : (s.setCtl f).core c = s.core c := rfl
@[simp] theorem State.die_setCore (s : State) (k c : Nat) (f : Core → Core) : (s.setCore c f).die k = s.die k := rfl
@[simp] theorem State.die_setCtl (s : State) (f : Control → Control) (k : Nat) : (s.setCtl f).die k = s.die k := rfl
@[simp] theorem State.stack_setCore (s : State) (k c : Nat) (f : Core → Core) : (s.setCore c f).stack k = s.stack k := rfl
@[simp] theorem State.stack_setCtl (s : State) (f : Control → Control) (k : Nat) : (s.setCtl f).stack k = s.stack k := rfl
@[simp] theorem State.score_setCore (s : State) (n c : Nat) (f : Core → Core) : (s.setCore c f).score n = s.score n := rfl
@[simp] theorem State.score_setCtl (s : State) (f : Control → Control) (n : Nat) : (s.setCtl f).score n = s.score n := rfl

theorem State.score_setScore (s : State) (c d : Nat) (f : SCore → SCore) (h : d < s.scores.length) :
    (s.setScore c f).score d = if c = d then f (s.score d) else s.score d := lget_lmod s.scores c d f _ h
theorem State.stack_setStack (s : State) (c d : Nat) (f : Stack → Stack) (h : d < s.stks.length) :
    (s.setStack c f).stack d = if c = d then f (s.stack d) else s.stack d := lget_lmod s.stks c d f _ h
theorem State.die_setDie (s : State) (c d : Nat) (f : Die → Die) (h : d < s.dies.length) :
    (s.setDie c f).die d = if c = d then f (s.die d) else s.die d := lget_lmod s.dies c d f _ h

/-- A warp after a write of a warp: of the one named, its new value; of any other, what it was. -/
theorem State.warp?_setWarp (s : State) (c w d v : Nat) (f : Warp → Warp) (h : d < s.cores.length) :
    (s.setWarp c w f).warp? d v = if c = d ∧ w = v then (s.warp? d v).map f else s.warp? d v := by
  simp only [State.warp?, State.setWarp, State.core_setCore s c d _ h]
  by_cases hc : c = d
  · subst hc
    by_cases hw : w = v
    · subst hw; simp
    · simp [hw]
  · simp [hc]

end Sys2Proof.Machine
end

