-- ==== Sys2Proof/Laws/Memory.lean ====
section
/-! SUPPORT. Memory: every operation keeps its canonical form, and a byte written reads as written while every other byte reads as
before. -/

namespace Sys2Proof.Machine

/-! ### The canonical form -/

theorem rising_mono {α : Type} (m : List (Nat × α)) (lo lo' : Nat) (h : lo' ≤ lo) (hr : risingFrom lo m = true) :
    risingFrom lo' m = true := by
  cases m with
  | nil => rfl
  | cons p m =>
    obtain ⟨k, y⟩ := p
    simp only [risingFrom, Bool.and_eq_true, decide_eq_true_eq] at *
    exact ⟨by omega, hr.2⟩

theorem rising_mset {α : Type} (m : List (Nat × α)) (lo i : Nat) (x : α) (hi : lo ≤ i) (hr : risingFrom lo m = true) :
    risingFrom lo (mset m i x) = true := by
  induction m generalizing lo with
  | nil => simp [mset, risingFrom, hi]
  | cons p m ih =>
    obtain ⟨k, y⟩ := p
    simp only [risingFrom, Bool.and_eq_true, decide_eq_true_eq] at hr
    simp only [mset]
    split
    · simp only [risingFrom, Bool.and_eq_true, decide_eq_true_eq]
      exact ⟨hi, by omega, hr.2⟩
    · split
      · subst_vars; simp only [risingFrom, Bool.and_eq_true, decide_eq_true_eq]; exact ⟨hi, hr.2⟩
      · simp only [risingFrom, Bool.and_eq_true, decide_eq_true_eq]
        exact ⟨hr.1, ih _ (by omega) hr.2⟩

theorem rising_mdel {α : Type} (m : List (Nat × α)) (lo i : Nat) (hr : risingFrom lo m = true) :
    risingFrom lo (mdel m i) = true := by
  induction m generalizing lo with
  | nil => rfl
  | cons p m ih =>
    obtain ⟨k, y⟩ := p
    simp only [risingFrom, Bool.and_eq_true, decide_eq_true_eq] at hr
    simp only [mdel]
    split
    · exact rising_mono _ (k + 1) lo (by omega) (ih _ hr.2)
    · simp only [risingFrom, Bool.and_eq_true, decide_eq_true_eq]
      exact ⟨hr.1, ih _ hr.2⟩

theorem all_mset {α : Type} (m : List (Nat × α)) (i : Nat) (x : α) (P : Nat × α → Bool) (hm : m.all P = true) (hx : P (i, x) = true) :
    (mset m i x).all P = true := by
  induction m with
  | nil => simp [mset, hx]
  | cons p m ih =>
    obtain ⟨k, y⟩ := p
    simp only [List.all_cons, Bool.and_eq_true] at hm
    simp only [mset]
    split
    · simp [hx, hm.1, hm.2]
    · split
      · simp [hx, hm.2]
      · simp [hm.1, ih hm.2]

theorem all_mdel {α : Type} (m : List (Nat × α)) (i : Nat) (P : Nat × α → Bool) (hm : m.all P = true) : (mdel m i).all P = true := by
  induction m with
  | nil => rfl
  | cons p m ih =>
    simp only [List.all_cons, Bool.and_eq_true] at hm
    simp only [mdel]
    split
    · exact ih hm.2
    · simp only [List.all_cons, Bool.and_eq_true]
      exact ⟨hm.1, ih hm.2⟩

theorem memWf_nil : memWf [] = true := rfl

theorem memWf_memSet (m : List Host.Cell) (a : Nat) (b : Byte) (h : memWf m = true) : memWf (memSet m a b) = true := by
  simp only [memSet]
  split
  · rename_i ha
    simp only [memWf, Bool.and_eq_true] at h ⊢
    simp only [msetD]
    split
    · exact ⟨rising_mdel _ _ _ h.1, all_mdel _ _ _ h.2⟩
    · rename_i hb
      exact ⟨rising_mset _ _ _ _ (Nat.zero_le _) h.1, all_mset _ _ _ _ h.2 (by simp only [Bool.and_eq_true, decide_eq_true_eq, bne_iff_ne]; exact ⟨hb, ha⟩)⟩
  · exact h

theorem memWf_memWrite (m : List Host.Cell) (a : Nat) (bs : List Byte) (h : memWf m = true) : memWf (memWrite m a bs) = true := by
  induction bs generalizing m a with
  | nil => exact h
  | cons b bs ih => exact ih _ _ (memWf_memSet m a b h)

/-! ### Reading after writing -/

theorem mget?_below {α : Type} (m : List (Nat × α)) (lo i : Nat) (hr : risingFrom lo m = true) (h : i < lo) : mget? m i = none := by
  induction m generalizing lo with
  | nil => rfl
  | cons p m ih =>
    obtain ⟨k, y⟩ := p
    simp only [risingFrom, Bool.and_eq_true, decide_eq_true_eq] at hr
    simp only [mget?]
    split
    · omega
    · exact ih (k + 1) hr.2 (by omega)

/-- A key looked up after one is dropped, and after one is written that may be the default. -/
theorem mget?_mdel {α : Type} (m : List (Nat × α)) (i j : Nat) : mget? (mdel m i) j = if i = j then none else mget? m j := by
  induction m with
  | nil => simp [mdel, mget?]
  | cons p m ih =>
    obtain ⟨k, y⟩ := p
    simp only [mdel]
    split
    · subst_vars
      simp only [ih, mget?]
      split <;> simp_all
    · simp only [mget?, ih]
      split <;> split <;> simp_all

theorem mget_msetD {α : Type} [DecidableEq α] (d : α) (m : List (Nat × α)) (i j : Nat) (x : α) :
    mget (msetD d m i x) j d = if i = j then x else mget m j d := by
  simp only [mget, msetD]
  split
  · subst_vars
    rw [mget?_mdel]
    split <;> simp_all
  · rw [mget?_mset]
    split <;> simp_all

/-- A byte after one byte is written. -/
theorem memGet_memSet (m : List Host.Cell) (a c : Nat) (b : Byte) (ha : a < 2 ^ 40) :
    memGet (memSet m a b) c = if a = c then b else memGet m c := by
  simp only [memGet, memSet, if_pos ha, mget_msetD]

/-- A byte outside the bytes written reads as before. -/
theorem memGet_memWrite_outside (m : List Host.Cell) (a c : Nat) (bs : List Byte)
    (hc : c < a ∨ a + bs.length ≤ c) : memGet (memWrite m a bs) c = memGet m c := by
  induction bs generalizing m a with
  | nil => rfl
  | cons b bs ih =>
    simp only [List.length_cons] at hc
    simp only [memWrite]
    rw [ih _ _ (by omega)]
    by_cases ha : a < 2 ^ 40
    · rw [memGet_memSet m a c b ha, if_neg (by omega)]
    · rw [memSet, if_neg ha]

/-- A byte written reads as written. -/
theorem memGet_memWrite_inside (m : List Host.Cell) (a i : Nat) (bs : List Byte) (hi : i < bs.length)
    (ha : a + bs.length ≤ 2 ^ 40) : memGet (memWrite m a bs) (a + i) = lget bs i 0 := by
  induction bs generalizing m a i with
  | nil => simp at hi
  | cons b bs ih =>
    simp only [List.length_cons] at hi ha
    simp only [memWrite]
    cases i with
    | zero =>
      rw [memGet_memWrite_outside _ _ _ _ (by omega)]
      simp [memGet_memSet m a a b (by omega), lget]
    | succ i =>
      have := ih (memSet m a b) (a + 1) i (by omega) (by omega)
      rw [show a + (i + 1) = a + 1 + i by omega, this]
      simp [lget]

@[simp] theorem upFrom_length (a n : Nat) : (upFrom a n).length = n := by
  induction n generalizing a with
  | zero => rfl
  | succ n ih => simp [upFrom, ih]

theorem mem_upFrom (a n x : Nat) : x ∈ upFrom a n ↔ a ≤ x ∧ x < a + n := by
  induction n generalizing a with
  | zero => simp [upFrom]; try omega
  | succ n ih => simp only [upFrom, List.mem_cons, ih]; omega

theorem upFrom_getElem? (a n i : Nat) (h : i < n) : (upFrom a n)[i]? = some (a + i) := by
  induction n generalizing a i with
  | zero => omega
  | succ n ih =>
    cases i with
    | zero => simp [upFrom]
    | succ i => simp only [upFrom, List.getElem?_cons_succ, ih (a + 1) i (by omega)]; congr 1; omega

@[simp] theorem memRead_length (m : List Host.Cell) (a n : Nat) : (memRead m a n).length = n := by simp [memRead]

/-- Bytes read back are the bytes written. -/
theorem memRead_memWrite (m : List Host.Cell) (a : Nat) (bs : List Byte) (ha : a + bs.length ≤ 2 ^ 40) :
    memRead (memWrite m a bs) a bs.length = bs := by
  apply List.ext_getElem?
  intro i
  by_cases hi : i < bs.length
  · have := memGet_memWrite_inside m a i bs hi ha
    simp only [memRead, List.getElem?_map, upFrom_getElem? a _ i hi, Option.map_some, this, lget]
    simp [hi]
  · rw [List.getElem?_eq_none (by simpa using hi), List.getElem?_eq_none (by simpa using hi)]

/-! ### Little-endian numbers (R3) -/

@[simp] theorem bytesOf_length (n x : Nat) : (bytesOf n x).length = n := by
  induction n generalizing x with
  | zero => rfl
  | succ n ih => simp [bytesOf, ih]

theorem numOf_bytesOf (n x : Nat) : numOf (bytesOf n x) = x % 256 ^ n := by
  induction n generalizing x with
  | zero => simp [bytesOf, numOf, Nat.mod_one]
  | succ n ih =>
    simp only [bytesOf, numOf, ih, BitVec.toNat_ofNat]
    rw [show (256 : Nat) ^ (n + 1) = 256 * 256 ^ n by rw [Nat.pow_succ, Nat.mul_comm], Nat.mod_mul]

/-! ### The home slice -/

/-- Putting bytes keeps the canonical form of memory. -/
theorem homePut_memOk (s : State) (lin slot : Nat) (bs : List Byte) (pois : List Bool) (h : memWf s.mem = true) :
    memWf (s.homePut lin slot bs pois).mem = true := by
  simp only [State.homePut]
  split
  · exact h
  · simp only
    split
    · exact memWf_memWrite _ _ _ h
    · split
      · exact h
      · exact memWf_memWrite _ _ _ h

/-- An unencrypted write changes the bytes written and no other. -/
theorem homePut_plain (s : State) (lin : Nat) (bs : List Byte) (pois : List Bool) :
    (s.homePut lin 0 bs pois).mem = memWrite s.mem lin bs := by simp [State.homePut]

end Sys2Proof.Machine
end

