-- ==== Sys2Proof/Laws/Issue.lean ====
section
/-! SUPPORT. The issue of a Quatin word: what `issue` answers when the word executes, what the parts of an issue leave as it was,
and what the body of a computing instruction puts into registers. -/

namespace Sys2Proof.Machine

/-! ### What an issue does not touch -/

theorem State.core_setCore_eq (s : State) (c d : Nat) (f : Core → Core) :
    (s.setCore c f).core d = if c = d ∧ d < s.cores.length then f (s.core d) else s.core d := by
  by_cases h : d < s.cores.length
  · rw [State.core_setCore s c d f h]; simp [h]
  · have : (s.setCore c f).core d = s.core d := by simp [State.core, State.setCore, lget, h]
    simp [this, h]

theorem State.die_setDie_eq (s : State) (c d : Nat) (f : Die → Die) :
    (s.setDie c f).die d = if c = d ∧ d < s.dies.length then f (s.die d) else s.die d := by
  by_cases h : d < s.dies.length
  · rw [State.die_setDie s c d f h]; simp [h]
  · have : (s.setDie c f).die d = s.die d := by simp [State.die, State.setDie, lget, h]
    simp [this, h]

/-- A warp that is there is on a core that is there. -/
theorem State.warp?_core_lt {s : State} {c w : Nat} {wp : Warp} (h : s.warp? c w = some wp) : c < s.cores.length := by
  by_contra hn
  simp [State.warp?, State.core, lget, hn, Core.reset, Ctx.empty, mget?] at h

theorem Elsewhere.refl (s : State) (c w : Nat) : Elsewhere s s c w :=
  ⟨⟨rfl, rfl, rfl⟩, ⟨rfl, rfl, rfl⟩, ⟨rfl, rfl, rfl⟩, ⟨rfl, rfl, rfl, rfl⟩, ⟨rfl, rfl, rfl, rfl, rfl⟩, ⟨rfl, rfl, rfl⟩,
    fun _ => rfl, fun _ => rfl, fun _ _ => rfl, fun _ _ _ => rfl⟩

theorem Elsewhere.trans {s t u : State} {c w : Nat} (h : Elsewhere s t c w) (g : Elsewhere t u c w) : Elsewhere s u c w where
  memory := by simp [g.memory, h.memory]
  stores := by simp [g.stores, h.stores]
  control := by simp [g.control, h.control]
  flight := by simp [g.flight, h.flight]
  clocks := by simp [g.clocks, h.clocks]
  walks := by simp [g.walks, h.walks]
  die k := (g.die k).trans (h.die k)
  core k := (g.core k).trans (h.core k)
  cores k hk := (g.cores k hk).trans (h.cores k hk)
  warps k v hk := (g.warps k v hk).trans (h.warps k v hk)

theorem Elsewhere.setWarp (s : State) (c w : Nat) (f : Warp → Warp) : Elsewhere s (s.setWarp c w f) c w where
  memory := ⟨rfl, rfl, rfl⟩
  stores := ⟨rfl, rfl, rfl⟩
  control := ⟨rfl, rfl, rfl⟩
  flight := ⟨rfl, rfl, rfl, rfl⟩
  clocks := ⟨rfl, rfl, rfl, rfl, rfl⟩
  walks := ⟨rfl, rfl, rfl⟩
  die _ := rfl
  core k := by
    simp only [State.setWarp, State.core_setCore_eq]
    split <;> rfl
  cores k hk := by
    simp only [State.setWarp, State.core_setCore_eq]
    simp [Ne.symm hk]
  warps k v hk := by
    by_cases h : k < s.cores.length
    · rw [State.warp?_setWarp s c w k v f h]
      have : ¬(c = k ∧ w = v) := fun e => hk (by rw [e.1, e.2])
      simp [this]
    · have : (s.setWarp c w f).core k = s.core k := by simp [State.setWarp, State.core_setCore_eq, h]
      simp [State.warp?, this]

/-- An update of a core that changes its account of bales and its slots alone. -/
structure Account (f : Core → Core) : Prop where
  rest : ∀ k, (f k).rest = k.rest
  warps : ∀ k, (f k).ctx = k.ctx

theorem Elsewhere.account (s : State) (c w : Nat) {f : Core → Core} (hf : Account f) : Elsewhere s (s.setCore c f) c w where
  memory := ⟨rfl, rfl, rfl⟩
  stores := ⟨rfl, rfl, rfl⟩
  control := ⟨rfl, rfl, rfl⟩
  flight := ⟨rfl, rfl, rfl, rfl⟩
  clocks := ⟨rfl, rfl, rfl, rfl, rfl⟩
  walks := ⟨rfl, rfl, rfl⟩
  die _ := rfl
  core k := by
    rw [State.core_setCore_eq]
    split
    · exact hf.rest _
    · rfl
  cores k hk := by rw [State.core_setCore_eq]; simp [Ne.symm hk]
  warps k v hk := by
    simp only [State.warp?, State.core_setCore_eq]
    split
    · rw [hf.warps]
    · rfl

theorem State.warp?_account (s : State) (c k v : Nat) {f : Core → Core} (hf : Account f) : (s.setCore c f).warp? k v = s.warp? k v := by
  simp only [State.warp?, State.core_setCore_eq]
  split
  · rw [hf.warps]
  · rfl

theorem Core.cancelResv_account (p : Payer) : Account fun k => k.cancelResv p := by
  constructor <;> intro k <;> simp only [Core.cancelResv] <;> split <;> rfl

theorem Account.comp {f g : Core → Core} (hf : Account f) (hg : Account g) : Account fun k => f (g k) :=
  ⟨fun k => (hf.rest _).trans (hg.rest k), fun k => (hf.warps _).trans (hg.warps k)⟩

theorem Elsewhere.spend (s : State) (c w k : Nat) (f : Nat → Nat) : Elsewhere s (s.spend k f) c w where
  memory := ⟨rfl, rfl, rfl⟩
  stores := ⟨rfl, rfl, rfl⟩
  control := ⟨rfl, rfl, rfl⟩
  flight := ⟨rfl, rfl, rfl, rfl⟩
  clocks := ⟨rfl, rfl, rfl, rfl, rfl⟩
  walks := ⟨rfl, rfl, rfl⟩
  die j := by
    rw [State.spend, State.die_setDie_eq]
    split <;> rfl
  core _ := rfl
  cores _ _ := rfl
  warps _ _ _ := rfl

/-- What a payment does to the account of the core that pays it. -/
theorem State.pay_account (s : State) (c n : Nat) (p : Payer) :
    ∃ u f, s.pay c p n = State.setCore u c f ∧ Account f ∧ (u = s ∨ ∃ g, u = s.spend c g) := by
  unfold State.pay
  extract_lets k
  split
  · exact ⟨_, _, rfl, ⟨fun _ => rfl, fun _ => rfl⟩, .inr ⟨_, rfl⟩⟩
  · split
    · exact ⟨_, _, rfl, Account.comp (f := fun k => k.cancelResv p) (g := fun k => { k with grants := k.grants.filter fun g => p != .warp g.1 })
        (Core.cancelResv_account p) ⟨fun _ => rfl, fun _ => rfl⟩, .inl rfl⟩
    · exact ⟨_, _, rfl, Account.comp (f := fun k => k.cancelResv p) (g := fun k => { k with rack := k.rack - n })
        (Core.cancelResv_account p) ⟨fun _ => rfl, fun _ => rfl⟩, .inr ⟨_, rfl⟩⟩

theorem Elsewhere.pay (s : State) (c w n : Nat) (p : Payer) : Elsewhere s (s.pay c p n) c w := by
  obtain ⟨u, f, e, hf, rfl | ⟨g, rfl⟩⟩ := s.pay_account c n p
  · rw [e]; exact .account _ c w hf
  · rw [e]; exact (Elsewhere.spend s c w c g).trans (.account _ c w hf)

theorem State.warp?_pay (s : State) (c n k v : Nat) (p : Payer) : (s.pay c p n).warp? k v = s.warp? k v := by
  obtain ⟨u, f, e, hf, rfl | ⟨g, rfl⟩⟩ := s.pay_account c n p <;> rw [e, State.warp?_account _ _ _ _ hf]
  rfl

theorem Elsewhere.fresh (s : State) (c w : Nat) : Elsewhere s s.fresh c w :=
  ⟨⟨rfl, rfl, rfl⟩, ⟨rfl, rfl, rfl⟩, ⟨rfl, rfl, rfl⟩, ⟨rfl, rfl, rfl, rfl⟩, ⟨rfl, rfl, rfl, rfl, rfl⟩, ⟨rfl, rfl, rfl⟩,
    fun _ => rfl, fun _ => rfl, fun _ _ => rfl, fun _ _ _ => rfl⟩

/-! ### The parts of an issue -/

/-- The warp of an issue with its old values pruned; its price paid; its program counters advanced (R83). -/
def State.opened (s : State) (x : Iss) (i : Instr) : State :=
  let s0 := s.setWarp x.core x.warp fun _ => x.w
  let p := s0.price x i
  if p = 0 then s0.advance x
  else (s0.pay x.core (.warp x.warp) p).advance x

/-- The end of an issue. -/
def State.ended (x : Iss) (i : Instr) (h : Hdr) (e : Eff) : State := (e.s.taintStep x i h).finish x h e.stop

theorem State.core_ctx_setWarp (s : State) (c w k : Nat) (f : Warp → Warp) :
    ((s.setWarp c w f).core k).ctx = { (s.core k).ctx with warps := ((s.setWarp c w f).core k).ctx.warps } := by
  simp only [State.setWarp, State.core_setCore_eq]
  split <;> rfl

/-- The price does not look at the issuing warp's state in the core. -/
theorem State.price_setWarp (s : State) (x : Iss) (i : Instr) (c w : Nat) (f : Warp → Warp) : (s.setWarp c w f).price x i = s.price x i := by
  have hg : ∀ k, ((s.setWarp c w f).core k).ctx.groups = (s.core k).ctx.groups := fun k => by rw [State.core_ctx_setWarp]
  have hv : ∀ k, ((s.setWarp c w f).core k).ctx.views = (s.core k).ctx.views := fun k => by rw [State.core_ctx_setWarp]
  have ht : ∀ h, (s.setWarp c w f).gtable h = s.gtable h := by
    intro h
    simp only [State.gtable]
    split
    · exact hg _
    · rfl
    · rfl
  have hr : ∀ l h, (s.setWarp c w f).rolesOf l h = s.rolesOf l h := fun l h => by simp only [State.rolesOf, State.group?, ht]
  have hw : (s.setWarp c w f).viewOf x = s.viewOf x := by simp only [State.viewOf, State.view?, hv]
  have hm : ∀ t a b, (s.setWarp c w f).mmaCheck x t a b = s.mmaCheck x t a b := fun t a b => by
    simp only [State.mmaCheck, State.matrixGroup, hr, hw]
  simp only [State.price]
  split
  · rfl
  · split
    · rw [hm]
    · rfl

/-- Nor does paying look at it. -/
theorem State.canPay_setWarp (s : State) (c w p : Nat) (f : Warp → Warp) (y : Payer) :
    (s.setWarp c w f).canPay c y p = s.canPay c y p := by
  simp only [State.canPay, State.setWarp, State.core_setCore_eq]
  by_cases h : c < s.cores.length
  · simp [h]
    rfl
  · simp [h]

/-- What `issue` answers when the word executes. -/
theorem issue_next {s : State} {i : Instr} {h : Hdr} {c w : Nat} {wp : Warp} {pc : Nat} (hI : Issues s i h c w wp pc)
    (body : Iss → State → Eff) :
    issue i s body = .next (State.ended (Iss.of s c w wp pc h) i h
      (body (Iss.of s c w wp pc h) (s.opened (Iss.of s c w wp pc h) i))) := by
  simp only [issue, hI.turn, hI.hdr, hI.warp, hI.head]
  congr 1
  unfold State.issueAt
  extract_lets now wp1 set u x0 s0 trapOn x price e1 e2
  have hxe : x = Iss.of s c w wp pc h := rfl
  have h1 : wordOk wp1 i = true := hI.word
  have h2 : blocked wp1 u h = false := hI.free
  have h3 : s0.wordWaits i x0 = false := by
    have := hI.gate
    cases i <;> first | rfl | exact this
  have h4 : (wp1.sbcheck && (predName h.pred).any (wp1.earlyName now)) = false := by
    cases e : wp1.sbcheck
    · rfl
    · exact hI.guard e
  have h6 : (wp1.engFull u.eng && !x.act.isEmpty) = false := by
    cases ea : x.act.isEmpty
    · have : wp1.engFull u.eng = false := hI.room (by rw [← hxe]; intro hn; simp [hn] at ea)
      simp [this]
    · simp
  simp only [h1, h2, h3, h4, h6, Bool.not_true, Bool.false_eq_true, if_false, Bool.or_self]
  have h5 : (if (wp1.sbcheck && !x.act.isEmpty) = true then earlySrc wp1 now u else none) = none := by
    cases e : wp1.sbcheck
    · rfl
    · cases ea : x.act.isEmpty
      · exact hI.early e (by rw [← hxe]; intro hn; simp [hn] at ea)
      · rfl
  rw [h5]
  simp only
  have hp : price = s.price x i := State.price_setWarp _ _ _ _ _ _
  have hpay : s0.canPay c (.warp w) price = true := by
    rw [State.canPay_setWarp, hp]; exact hI.pays
  by_cases hz : price = 0
  · rw [if_pos hz]
    simp only [State.ended, State.opened]
    rw [← hxe]
    show _ = ((body x (if price = 0 then _ else _)).s.taintStep x i h).finish x h (body x (if price = 0 then _ else _)).stop
    rw [if_pos hz]
  · rw [if_neg hz]
    simp only [hpay, Bool.not_true, Bool.false_eq_true, if_false, State.ended, State.opened]
    rw [← hxe]
    show _ = ((body x (if price = 0 then _ else _)).s.taintStep x i h).finish x h (body x (if price = 0 then _ else _)).stop
    rw [if_neg hz]

/-! ### What the parts of an issue do to its warp -/

/-- From `s` to `t` an issue of warp `w` of core `c` changes the warp by `g`, and nothing else that `Elsewhere` names. -/
structure OnWarp (s t : State) (c w : Nat) (g : Warp → Warp) : Prop where
  warp : t.warp? c w = (s.warp? c w).map g
  rest : Elsewhere s t c w

theorem OnWarp.refl (s : State) (c w : Nat) : OnWarp s s c w id := ⟨by simp, .refl s c w⟩

theorem OnWarp.trans {s t u : State} {c w : Nat} {f g : Warp → Warp} (h : OnWarp s t c w f) (k : OnWarp t u c w g) :
    OnWarp s u c w (g ∘ f) := ⟨by rw [k.warp, h.warp, Option.map_map], h.rest.trans k.rest⟩

theorem OnWarp.setWarp (s : State) (c w : Nat) (f : Warp → Warp) : OnWarp s (s.setWarp c w f) c w f := by
  refine ⟨?_, .setWarp s c w f⟩
  by_cases h : c < s.cores.length
  · simp [State.warp?_setWarp s c w c w f h]
  · have hn : s.warp? c w = none := by
      cases e : s.warp? c w with
      | none => rfl
      | some x => exact absurd (State.warp?_core_lt e) h
    have : (s.setWarp c w f).core c = s.core c := by simp [State.setWarp, State.core_setCore_eq, h]
    rw [hn]
    simpa [State.warp?, this] using hn

theorem OnWarp.account (s : State) (c w : Nat) {f : Core → Core} (hf : Account f) : OnWarp s (s.setCore c f) c w id :=
  ⟨by simp [State.warp?_account s c c w hf], .account s c w hf⟩

theorem OnWarp.pay (s : State) (c w n : Nat) (p : Payer) : OnWarp s (s.pay c p n) c w id :=
  ⟨by simp [State.warp?_pay], .pay s c w n p⟩

/-- The warp of an issue after its program counters advance. -/
def Iss.gone (x : Iss) (w : Warp) : Warp :=
  { w with threads := x.set.foldl (fun ths l => lmod ths l fun t => { t with pc := (x.pc + 8) % 2 ^ 64, lastIssue := x.now }) w.threads,
           ties := [],
           run := some ((x.pc + 8) % 2 ^ 64, (match w.run with | some r => r.2 | none => 0) + 1) }

theorem opened_onWarp (s : State) (x : Iss) (i : Instr) : OnWarp s (s.opened x i) x.core x.warp (x.gone ∘ fun _ => x.w) := by
  unfold State.opened
  extract_lets s0 p
  have h0 : OnWarp s s0 x.core x.warp fun _ => x.w := .setWarp s _ _ _
  clear_value s0 p
  split
  · exact h0.trans (.setWarp _ _ _ _)
  · have h1 := h0.trans (.pay _ x.core x.warp p (.warp x.warp))
    exact h1.trans (.setWarp _ _ _ _)

/-- A warp without its registers and what its issues and runs count. -/
def Warp.rest (w : Warp) : Warp :=
  { w with v := [], w := [], p := [], fresh := [], taint := [], esc := 0, readyAt := 0, nextIssue := 0, run := none, ties := [],
           bwait := none }

/-- Registers, threads and the rest are the same. -/
structure Warp.Near (a b : Warp) : Prop where
  rest : b.rest = a.rest
  v : b.v = a.v
  w : b.w = a.w
  p : b.p = a.p

theorem Warp.Near.hold {a b : Warp} (h : Warp.Near a b) (n : RName) (l : Nat) : b.hold n l = a.hold n l := by
  cases n with
  | seed =>
    have : b.threads = a.threads := by
      show b.rest.threads = a.rest.threads
      rw [h.rest]
    simp [Warp.hold, this]
  | _ => simp [Warp.hold, h.v, h.w, h.p]

theorem Warp.Near.refl (a : Warp) : Warp.Near a a := ⟨rfl, rfl, rfl, rfl⟩

theorem Warp.Near.trans {a b c : Warp} (h : Warp.Near a b) (k : Warp.Near b c) : Warp.Near a c :=
  ⟨k.rest.trans h.rest, k.v.trans h.v, k.w.trans h.w, k.p.trans h.p⟩

theorem Warp.Near.setTaint (w : Warp) (n : RName) (l : Nat) (t : Taint) : Warp.Near w (w.setTaint n l t) := by
  simp only [Warp.setTaint]
  split <;> exact ⟨rfl, rfl, rfl, rfl⟩

theorem Warp.Near.foldl {α : Type} (xs : List α) {f : Warp → α → Warp} (h : ∀ w a, Warp.Near w (f w a)) (w : Warp) :
    Warp.Near w (xs.foldl f w) := by
  induction xs generalizing w with
  | nil => exact .refl w
  | cons a xs ih => exact (h w a).trans (ih _)

theorem taintStep_onWarp (s : State) (x : Iss) (i : Instr) (h : Hdr) :
    ∃ g, (∀ w, Warp.Near w (g w)) ∧ OnWarp s (s.taintStep x i h) x.core x.warp g := by
  unfold State.taintStep
  split
  · exact ⟨_, Warp.Near.refl, .refl s _ _⟩
  · refine ⟨_, ?_, .setWarp s _ _ _⟩
    intro w
    have h1 : ∀ (ts : List (Nat × Taint)) (all : Taint) (xs : List RName), Warp.Near w (xs.foldl (fun w n => match n with
        | .w _ => w.setTaint n 0 all
        | _ => ts.foldl (fun w t => w.setTaint n t.1 (if crossLane i then all else t.2)) w) w) := fun ts all xs => by
      refine Warp.Near.foldl _ (fun w n => ?_) w
      cases n with
      | w _ => exact .setTaint _ _ _ _
      | _ => exact Warp.Near.foldl _ (fun w t => .setTaint _ _ _ _) _
    cases i with
    | wrspec _ r _ =>
      refine (h1 _ _ _).trans (Warp.Near.foldl _ (fun w t => ?_) _)
      cases specTaintKey r t.1
      · exact .refl _
      · exact ⟨rfl, rfl, rfl, rfl⟩
    | _ => exact h1 _ _ _

theorem finish_onWarp (s : State) (x : Iss) (h : Hdr) (e : RunStop) (wp : Warp) (hw : s.warp? x.core x.warp = some wp) :
    ∃ wp', Warp.Near wp wp' ∧ OnWarp s (s.finish x h e) x.core x.warp fun _ => wp' := by
  have key : ∀ (w' : Warp) (slot : Slot → Slot), OnWarp s ((s.setWarp x.core x.warp fun _ => w').setCore x.core fun k =>
      Core.cancelResv { k with slots := lmod k.slots (x.warp / 16) slot } (.warp x.warp)) x.core x.warp fun _ => w' := fun w' slot =>
    (OnWarp.setWarp s x.core x.warp fun _ => w').trans (.account _ _ _
      (Account.comp (f := fun k => k.cancelResv (.warp x.warp)) (g := fun k => { k with slots := lmod k.slots (x.warp / 16) slot })
        (Core.cancelResv_account _) ⟨fun _ => rfl, fun _ => rfl⟩))
  unfold State.finish
  simp only [hw]
  refine ⟨_, ?_, key _ _⟩
  exact ⟨rfl, rfl, rfl, rfl⟩

/-- From the body of an issue to its end: the warp keeps its registers, its threads and the rest. -/
theorem ended_onWarp (x : Iss) (i : Instr) (h : Hdr) (e : Eff) (wp : Warp) (hw : e.s.warp? x.core x.warp = some wp) :
    ∃ wp', Warp.Near wp wp' ∧ OnWarp e.s (State.ended x i h e) x.core x.warp fun _ => wp' := by
  obtain ⟨g, hg, h1⟩ := taintStep_onWarp e.s x i h
  have hw1 : (e.s.taintStep x i h).warp? x.core x.warp = some (g wp) := by rw [h1.warp, hw]; rfl
  obtain ⟨wp', hn, h2⟩ := finish_onWarp (e.s.taintStep x i h) x h e.stop _ hw1
  exact ⟨wp', (hg wp).trans hn, h1.trans h2⟩

/-! ### What results put into registers -/

/-- A value on its way to register `n` of lane `l`; a uniform register is one for all lanes (R111). -/
def Wb.Hits (v : Wb) (n : RName) (l : Nat) : Prop := v.name = n ∧ (v.lane = l ∨ ∃ i, n = .w i)

/-- A value in range: it is for a register, its lane is one of a warp's, and a predicate is one of p0 to p6, with a bit. -/
structure Wb.Fits (v : Wb) : Prop where
  seed : v.name ≠ .seed
  lane : v.lane < 128
  pred : ∀ k, v.name = .p k → k < 7 ∧ ∃ b : Bool, v.reg = ⟨if b then 1 else 0, .raw⟩

theorem Warp.writeFixed_rest (w : Warp) (n : RName) (l : Nat) (r : Reg) (k : Nat) (hn : n ≠ .seed) :
    (w.writeFixed n l r k).rest = w.rest := by
  cases n with
  | seed => exact absurd rfl hn
  | _ =>
    simp only [Warp.writeFixed, Warp.write, Warp.rest]
    try (split <;> rfl)

theorem Warp.writeFixed_hold_ne (w : Warp) (v : Wb) (k : Nat) (n : RName) (l : Nat) (hs : n ≠ .seed) (hl : l < 128)
    (hn : ∀ k, n = .p k → k < 8) (hv : v.Fits) (hh : ¬ v.Hits n l) : (w.writeFixed v.name v.lane v.reg k).hold n l = w.hold n l := by
  obtain ⟨name, lane, reg⟩ := v
  have h1 := hv.lane
  simp only [Wb.Hits, not_and_or, not_or, not_exists] at hh
  cases name with
  | v i =>
    cases n with
    | v j =>
      simp only [Warp.writeFixed, Warp.write, Warp.hold, mget_mset]
      simp only [RName.v.injEq, reduceCtorEq, not_false_eq_true, implies_true, and_true] at hh
      rw [if_neg (by simp only at h1; omega)]
    | w j => rfl
    | p j => rfl
    | seed => exact absurd rfl hs
  | w i =>
    cases n with
    | seed => exact absurd rfl hs
    | v j => rfl
    | w j =>
      simp only [Warp.writeFixed, Warp.write, Warp.hold, mget_mset]
      simp only [RName.w.injEq] at hh
      rw [if_neg fun e => hh.elim (fun k => k e) fun k => k.2 j rfl]
    | p j => rfl
  | p i =>
    have hi := (hv.pred i rfl).1
    cases n with
    | seed => exact absurd rfl hs
    | v j => simp only [Warp.writeFixed, Warp.write, Warp.hold]; split <;> rfl
    | w j => simp only [Warp.writeFixed, Warp.write, Warp.hold]; split <;> rfl
    | p j =>
      have hj := hn j rfl
      simp only [RName.p.injEq, reduceCtorEq, not_false_eq_true, implies_true, and_true] at hh
      have h7 : ¬ i = 7 := by omega
      have hk : ¬ lane * 8 + i = l * 8 + j := by simp only at h1; omega
      simp only [Warp.writeFixed, Warp.write, Warp.hold, if_neg h7, mget_mset, if_neg hk]
  | seed => exact absurd rfl hv.seed

theorem Warp.writeFixed_hold (w : Warp) (v : Wb) (k : Nat) (n : RName) (l : Nat) (hv : v.Fits) (hh : v.Hits n l) :
    (w.writeFixed v.name v.lane v.reg k).hold n l = v.reg := by
  obtain ⟨name, lane, reg⟩ := v
  obtain ⟨rfl, hh⟩ := hh
  cases name with
  | v i => simp only [reduceCtorEq, exists_false, or_false] at hh; subst hh; simp [Warp.writeFixed, Warp.write, Warp.hold]
  | w i => simp [Warp.writeFixed, Warp.write, Warp.hold]
  | p i =>
    obtain ⟨hi, b, hb⟩ := hv.pred i rfl
    simp only [reduceCtorEq, exists_false, or_false] at hh
    simp only at hb
    subst hh hb
    have : i ≠ 7 := by omega
    cases b <;> simp [Warp.writeFixed, Warp.write, Warp.hold, this]
  | seed => exact absurd rfl hv.seed

/-- Writing a list of values with fixed latency. -/
def Warp.writeAll (w : Warp) (f : Wb → Nat) (vals : List Wb) : Warp :=
  vals.foldl (fun w v => w.writeFixed v.name v.lane v.reg (f v)) w

theorem Warp.writeAll_rest (w : Warp) (f : Wb → Nat) (vals : List Wb) (hv : ∀ v ∈ vals, v.Fits) :
    (w.writeAll f vals).rest = w.rest := by
  induction vals generalizing w with
  | nil => rfl
  | cons v vs ih =>
    simp only [List.mem_cons, forall_eq_or_imp] at hv
    exact (ih _ hv.2).trans (w.writeFixed_rest _ _ _ _ hv.1.seed)

theorem Warp.writeAll_hold_ne (w : Warp) (f : Wb → Nat) (vals : List Wb) (n : RName) (l : Nat) (hs : n ≠ .seed) (hl : l < 128)
    (hn : ∀ k, n = .p k → k < 8) (hv : ∀ v ∈ vals, v.Fits) (hh : ∀ v ∈ vals, ¬ v.Hits n l) :
    (w.writeAll f vals).hold n l = w.hold n l := by
  induction vals generalizing w with
  | nil => rfl
  | cons v vs ih =>
    simp only [List.mem_cons, forall_eq_or_imp] at hv hh
    exact (ih _ hv.2 hh.2).trans (w.writeFixed_hold_ne v _ n l hs hl hn hv.1 hh.1)

theorem Warp.writeAll_hold (w : Warp) (f : Wb → Nat) (vals : List Wb) (n : RName) (l : Nat) (r : Reg) (hs : n ≠ .seed)
    (hl : l < 128) (hn : ∀ k, n = .p k → k < 8) (hv : ∀ v ∈ vals, v.Fits) (hh : ∃ v ∈ vals, v.Hits n l) (hr : ∀ v ∈ vals, v.Hits n l → v.reg = r) :
    (w.writeAll f vals).hold n l = r := by
  induction vals generalizing w with
  | nil => simp at hh
  | cons v vs ih =>
    simp only [List.mem_cons, forall_eq_or_imp] at hv hr
    by_cases h : ∃ v ∈ vs, v.Hits n l
    · exact ih _ hv.2 h hr.2
    · push Not at h
      have h1 : v.Hits n l := by
        obtain ⟨u, hu, hu'⟩ := hh
        rcases List.mem_cons.mp hu with rfl | hu
        · exact hu'
        · exact absurd hu' (h u hu)
      exact (Warp.writeAll_hold_ne _ f vs n l hs hl hn hv.2 h).trans ((w.writeFixed_hold v _ n l hv.1 h1).trans (hr.1 h1))

/-! ### Lookups -/

theorem lookup_mem {α β : Type} [DecidableEq α] (m : List (α × β)) (n : α) (r : β) (h : m.lookup n = some r) : (n, r) ∈ m := by
  induction m with
  | nil => simp at h
  | cons p m ih =>
    obtain ⟨k, v⟩ := p
    simp only [List.lookup_cons] at h
    split at h
    · rename_i e
      simp only [beq_iff_eq] at e
      simp only [Option.some.injEq] at h
      subst e h
      exact List.mem_cons_self
    · exact List.mem_cons_of_mem _ (ih h)

theorem lookup_of_mem {α β : Type} [DecidableEq α] (as : List α) (bs : List β) (n : α) (r : β) (hd : as.Nodup)
    (h : (n, r) ∈ as.zip bs) : (as.zip bs).lookup n = some r := by
  induction as generalizing bs with
  | nil => simp at h
  | cons a as ih =>
    cases bs with
    | nil => simp at h
    | cons b bs =>
      simp only [List.zip_cons_cons, List.mem_cons, Prod.mk.injEq] at h
      simp only [List.nodup_cons] at hd
      simp only [List.zip_cons_cons, List.lookup_cons]
      rcases h with ⟨rfl, rfl⟩ | h
      · simp
      · have hne : n ≠ a := fun e => hd.1 (e ▸ (List.of_mem_zip h).1)
        simp only [beq_eq_false_iff_ne.mpr hne]
        exact ih bs hd.2 h

theorem upFrom_ge (a n i : Nat) (h : i ∈ upFrom a n) : a ≤ i ∧ i < a + n := by
  induction n generalizing a with
  | zero => simp [upFrom] at h
  | succ n ih =>
    simp only [upFrom, List.mem_cons] at h
    rcases h with rfl | h
    · omega
    · have := ih _ h; omega

theorem upFrom_nodup (a n : Nat) : (upFrom a n).Nodup := by
  induction n generalizing a with
  | zero => simp [upFrom]
  | succ n ih =>
    simp only [upFrom, List.nodup_cons]
    exact ⟨fun h => by have := upFrom_ge _ _ _ h; omega, ih _⟩

theorem dstNames_nodup (d : Dst) (k : Nat) : (dstNames d k).Nodup := by
  cases d with
  | v i => exact (upFrom_nodup _ _).map (fun _ _ h => by simpa using h)
  | w i => exact (upFrom_nodup _ _).map (fun _ _ h => by simpa using h)
  | discard => exact List.nodup_nil

/-- The lanes of an issue are lanes of a warp (R78). -/
theorem Warp.readyLanes_lt (w : Warp) (p : Nat × Thread) (h : p ∈ w.readyLanes) : p.1 < 128 := by
  have h1 := (List.of_mem_zip (List.mem_of_mem_filter h)).1
  have := upFrom_ge _ _ _ h1
  omega

theorem Iss.set_lt {s : State} {c w : Nat} {wp : Warp} {pc : Nat} {h : Hdr} {l : Nat} (hl : l ∈ (Iss.of s c w wp pc h).set) : l < 128 := by
  obtain ⟨p, hp, rfl⟩ := List.mem_map.mp hl
  exact Warp.readyLanes_lt _ p (List.mem_of_mem_filter hp)

theorem Iss.act_set {s : State} {c w : Nat} {wp : Warp} {pc : Nat} {h : Hdr} {l : Nat} (hl : l ∈ (Iss.of s c w wp pc h).act) :
    l ∈ (Iss.of s c w wp pc h).set := List.mem_of_mem_filter hl

/-! ### Results of the threads -/

/-- A thread's result without fault, poison event or new seed. -/
def LaneRes.clean (val : List Reg) (pr : Option (Pred × Bool)) : LaneRes := ⟨val, pr.toList, false, none, none⟩

theorem foldl_same {α β : Type} (f : β → α → β) (xs : List α) (b : β) (h : ∀ b, ∀ a ∈ xs, f b a = b) : xs.foldl f b = b := by
  induction xs generalizing b with
  | nil => rfl
  | cons a xs ih =>
    simp only [List.foldl_cons, h b a List.mem_cons_self]
    exact ih b fun b a ha => h b a (List.mem_cons_of_mem _ ha)

theorem commit_clean (s : State) (x : Iss) (lat : Lat) (names : List RName) (rs : List (Nat × LaneRes))
    (h : ∀ r ∈ rs, r.2.pois = false ∧ r.2.fault = none ∧ r.2.seed = none) :
    s.commit x lat names rs = ⟨s.putRegs x lat (writesOf names rs), .go⟩ := by
  have hp : (rs.filter fun r => r.2.fault.isNone && r.2.pois) = [] := by
    rw [List.filter_eq_nil_iff]
    intro r hr
    simp [(h r hr).1]
  have ha : (rs.any fun r => r.2.fault.isSome) = false := by
    rw [List.any_eq_false]
    intro r hr
    simp [(h r hr).2.1]
  simp only [State.commit, hp, ha, State.poison, List.length_nil, if_true, Bool.false_eq_true, if_false]
  rw [foldl_same _ rs _ fun b r hr => by simp only [(h r hr).2.1]]

/-- The values that clean results put, one by one. -/
theorem mem_writesOf (d : Dst) (k : Nat) (act : List Nat) (val : Nat → List Reg) (pr : Nat → Option (Pred × Bool)) (v : Wb)
    (hlen : ∀ l ∈ act, (val l).length = k) :
    v ∈ writesOf (dstNames d k) (act.map fun l => (l, LaneRes.clean (val l) (pr l))) ↔
      (∃ i, d = .v i ∧ v.lane ∈ act ∧ (v.name, v.reg) ∈ (dstNames d k).zip (val v.lane)) ∨
      (∃ i m, d = .w i ∧ v.lane = 0 ∧ act.head? = some m ∧ (v.name, v.reg) ∈ (dstNames d k).zip (val m)) ∨
      (∃ q b, pr v.lane = some (q, b) ∧ v.lane ∈ act ∧ q.val ≠ 7 ∧ v.name = .p q.val ∧ v.reg = ⟨if b then 1 else 0, .raw⟩) := by
  have hpr : v ∈ (((act.map fun l => (l, LaneRes.clean (val l) (pr l))).filter fun r => r.2.fault.isNone).flatMap fun r =>
      (r.2.preds.filter fun p => p.1.val != 7).map fun p => (⟨.p p.1.val, r.1, ⟨if p.2 then 1 else 0, .raw⟩⟩ : Wb)) ↔
      ∃ q b, pr v.lane = some (q, b) ∧ v.lane ∈ act ∧ q.val ≠ 7 ∧ v.name = .p q.val ∧ v.reg = ⟨if b then 1 else 0, .raw⟩ := by
    obtain ⟨name, lane, reg⟩ := v
    simp only [LaneRes.clean, List.mem_flatMap, List.mem_filter, List.mem_map, Wb.mk.injEq, bne_iff_ne]
    constructor
    · rintro ⟨r, ⟨⟨l, hl, rfl⟩, -⟩, ⟨q, b⟩, ⟨hq, h7⟩, rfl, rfl, rfl⟩
      exact ⟨q, b, Option.mem_toList.mp hq, hl, h7, rfl, rfl⟩
    · rintro ⟨q, b, hq, hl, h7, rfl, rfl⟩
      exact ⟨_, ⟨⟨lane, hl, rfl⟩, rfl⟩, (q, b), ⟨Option.mem_toList.mpr hq, h7⟩, rfl, rfl, rfl⟩
  unfold writesOf
  extract_lets ok isW regs preds seeds
  have hseeds : seeds = [] := by
    refine List.flatMap_eq_nil_iff.mpr fun r hr => ?_
    obtain ⟨l, -, rfl⟩ := List.mem_map.mp (List.mem_of_mem_filter hr)
    rfl
  have hok : k ≠ 0 → ok = act.map fun l => (l, LaneRes.clean (val l) (pr l)) := by
    intro hk
    refine List.filter_eq_self.mpr fun r hr => ?_
    obtain ⟨l, hl, rfl⟩ := List.mem_map.mp hr
    have := hlen l hl
    cases e : val l with
    | nil => simp [e] at this; omega
    | cons => rfl
  have hregs : v ∈ regs ↔ (∃ i, d = .v i ∧ v.lane ∈ act ∧ (v.name, v.reg) ∈ (dstNames d k).zip (val v.lane)) ∨
      (∃ i m, d = .w i ∧ v.lane = 0 ∧ act.head? = some m ∧ (v.name, v.reg) ∈ (dstNames d k).zip (val m)) := by
    obtain ⟨name, lane, reg⟩ := v
    cases k with
    | zero => cases d <;> simp [regs, dstNames, upFrom]
    | succ k =>
      simp only [regs, hok (Nat.succ_ne_zero k)]
      cases d with
      | discard => simp [dstNames]
      | v i =>
        have hw : isW = false := rfl
        simp only [hw, Bool.false_eq_true, if_false, List.mem_flatMap, List.mem_map, Wb.mk.injEq, Prod.exists, LaneRes.clean]
        constructor
        · rintro ⟨l, r, ⟨m, hm, hr⟩, n, g, hz, rfl, rfl, rfl⟩
          cases hr
          exact .inl ⟨i, rfl, hm, hz⟩
        · rintro (⟨_, -, hl, hz⟩ | ⟨_, _, e, _⟩)
          · exact ⟨lane, _, ⟨lane, hl, rfl⟩, name, reg, hz, rfl, rfl, rfl⟩
          · cases e
      | w i =>
        have hw : isW = true := rfl
        simp only [hw, if_true]
        cases act with
        | nil => simp
        | cons m act =>
          simp only [List.map_cons, List.take_succ_cons, List.take_zero, List.flatMap_cons, List.flatMap_nil, List.append_nil,
            List.mem_map, Wb.mk.injEq, Prod.exists, LaneRes.clean, List.head?_cons, Option.some.injEq]
          constructor
          · rintro ⟨n, g, hz, rfl, rfl, rfl⟩
            exact .inr ⟨i, m, rfl, rfl, rfl, hz⟩
          · rintro (⟨_, e, _⟩ | ⟨_, _, -, rfl, rfl, hz⟩)
            · cases e
            · exact ⟨name, reg, hz, rfl, rfl, rfl⟩
  rw [hseeds, List.append_nil, List.mem_append, hregs, or_assoc]
  exact or_congr Iff.rfl (or_congr Iff.rfl hpr)

/-- The registers of a destination are vector or uniform registers, as the destination is. -/
theorem dstNames_cases (d : Dst) (k : Nat) (m : RName) (hm : m ∈ dstNames d k) :
    (∃ i, d = .v i ∧ ∃ j, m = .v j) ∨ (∃ i, d = .w i ∧ ∃ j, m = .w j) := by
  cases d with
  | v i => obtain ⟨j, -, rfl⟩ := List.mem_map.mp hm; exact .inl ⟨i, rfl, j, rfl⟩
  | w i => obtain ⟨j, -, rfl⟩ := List.mem_map.mp hm; exact .inr ⟨i, rfl, j, rfl⟩
  | discard => simp [dstNames] at hm

/-- What clean results put is in range. -/
theorem writesOf_fits {x : Iss} (hact : ∀ l ∈ x.act, l < 128) (d : Dst) (k : Nat) (val : Nat → List Reg) (pr : Nat → Option (Pred × Bool))
    (hlen : ∀ l ∈ x.act, (val l).length = k) :
    ∀ v ∈ writesOf (dstNames d k) (x.act.map fun l => (l, LaneRes.clean (val l) (pr l))), v.Fits := by
  have hmem := fun v => mem_writesOf d k x.act val pr v hlen
  intro v hv
  rcases (hmem v).mp hv with ⟨i, rfl, hl, hz⟩ | ⟨i, m, rfl, h0, -, hz⟩ | ⟨q, b, -, hl, h7, hq, hr⟩
  · have := dstNames_cases _ k _ (List.of_mem_zip hz).1
    refine ⟨fun e => by simp [e] at this, hact _ hl, fun k hk => by simp [hk] at this⟩
  · have := dstNames_cases _ k _ (List.of_mem_zip hz).1
    refine ⟨fun e => by simp [e] at this, by omega, fun k hk => by simp [hk] at this⟩
  · refine ⟨by simp [hq], hact _ hl, fun k hk => ?_⟩
    have : q.val = k := by simpa [hk] using hq.symm
    exact ⟨by omega, b, hr⟩

/-- What clean results put, as `Iss.puts` says it. -/
theorem writesOf_puts {x : Iss} (hact : ∀ l ∈ x.act, l < 128) (d : Dst) (k : Nat) (val : Nat → List Reg) (pr : Nat → Option (Pred × Bool))
    (hlen : ∀ l ∈ x.act, (val l).length = k) (w : Warp) (f : Wb → Nat) (n : RName) (l : Nat) (hs : n ≠ .seed)
    (hl : l < 128) (hn : ∀ k, n = .p k → k < 8) :
    (w.writeAll f (writesOf (dstNames d k) (x.act.map fun l => (l, LaneRes.clean (val l) (pr l))))).hold n l =
      (x.puts (dstNames d k) val pr n l).getD (w.hold n l) := by
  have hmem := fun v => mem_writesOf d k x.act val pr v hlen
  have hname := dstNames_cases d k
  have hfit := writesOf_fits hact d k val pr hlen
  have hnd := dstNames_nodup d k
  have hhit : ∀ v ∈ writesOf (dstNames d k) (x.act.map fun l => (l, LaneRes.clean (val l) (pr l))), v.Hits n l →
      x.puts (dstNames d k) val pr n l = some v.reg := by
    intro v hv ⟨hvn, hvl⟩
    rcases (hmem v).mp hv with ⟨i, rfl, hla, hz⟩ | ⟨i, m, rfl, h0, hm, hz⟩ | ⟨q, b, hp, hla, h7, hq, hr⟩
    · obtain ⟨_, e, j, hj⟩ | ⟨_, e, _⟩ := hname _ (List.of_mem_zip hz).1
      · rw [hvn] at hj hz
        subst hj
        simp only [reduceCtorEq, exists_false, or_false] at hvl
        rw [hvl] at hla hz
        simp only [Iss.puts, if_pos hla]
        exact lookup_of_mem _ _ _ _ hnd hz
      · cases e
    · obtain ⟨_, e, _⟩ | ⟨_, e, j, hj⟩ := hname _ (List.of_mem_zip hz).1
      · cases e
      · rw [hvn] at hj hz
        subst hj
        simp only [Iss.puts, hm, Option.bind_some]
        exact lookup_of_mem _ _ _ _ hnd hz
    · rw [hvn] at hq
      subst hq
      simp only [reduceCtorEq, exists_false, or_false] at hvl
      rw [hvl] at hp hla
      simp [Iss.puts, hla, hp, h7, hr]
  cases e : x.puts (dstNames d k) val pr n l with
  | none =>
    refine Warp.writeAll_hold_ne w f _ n l hs hl hn hfit fun v hv hh => ?_
    rw [hhit v hv hh] at e
    cases e
  | some r =>
    refine Warp.writeAll_hold w f _ n l r hs hl hn hfit ?_ fun v hv hh => by simpa [e] using (hhit v hv hh).symm
    cases n with
    | v i =>
      simp only [Iss.puts] at e
      split at e
      · rename_i hla
        have hz := lookup_mem _ _ _ e
        obtain ⟨j, rfl, _⟩ | ⟨_, _, _, e2⟩ := hname _ (List.of_mem_zip hz).1
        · exact ⟨⟨.v i, l, r⟩, (hmem _).mpr (.inl ⟨j, rfl, hla, hz⟩), rfl, .inl rfl⟩
        · cases e2
      · cases e
    | w i =>
      simp only [Iss.puts, Option.bind_eq_some_iff] at e
      obtain ⟨m, hm, e⟩ := e
      have hz := lookup_mem _ _ _ e
      obtain ⟨_, _, _, e2⟩ | ⟨j, rfl, _⟩ := hname _ (List.of_mem_zip hz).1
      · cases e2
      · exact ⟨⟨.w i, 0, r⟩, (hmem _).mpr (.inr (.inl ⟨j, m, rfl, rfl, hm, hz⟩)), rfl, .inr ⟨i, rfl⟩⟩
    | p i =>
      simp only [Iss.puts] at e
      split at e
      · rename_i hla
        simp only [Option.bind_eq_some_iff] at e
        obtain ⟨⟨q, b⟩, hq, e⟩ := e
        simp only at e
        split at e
        · rename_i h
          obtain ⟨rfl, h7⟩ := h
          simp only [Option.some.injEq] at e
          exact ⟨⟨.p q.val, l, r⟩, (hmem _).mpr (.inr (.inr ⟨q, b, hq, hla, h7, rfl, e.symm⟩)), rfl, .inl rfl⟩
        · cases e
      · cases e
    | seed => exact absurd rfl hs

/-! ### The whole issue of an instruction that computes thread by thread -/

theorem lmod_getElem? {α : Type} (xs : List α) (i j : Nat) (f : α → α) : (lmod xs i f)[j]? = if i = j then xs[j]?.map f else xs[j]? := by
  induction xs generalizing i j with
  | nil => simp [lmod]
  | cons x xs ih =>
    cases i with
    | zero => cases j <;> simp [lmod]
    | succ i =>
      cases j with
      | zero => simp [lmod]
      | succ j => simp [lmod, ih]

theorem foldl_lmod_getElem? {α : Type} (ls : List Nat) (xs : List α) (j : Nat) (f : α → α) (hf : ∀ a, f (f a) = f a) :
    (ls.foldl (fun xs l => lmod xs l f) xs)[j]? = if j ∈ ls then xs[j]?.map f else xs[j]? := by
  induction ls generalizing xs with
  | nil => simp
  | cons l ls ih =>
    simp only [List.foldl_cons, ih, lmod_getElem?, List.mem_cons]
    by_cases h : l = j
    · subst h
      by_cases h2 : l ∈ ls <;> simp [h2, Function.comp_def, hf]
    · by_cases h2 : j ∈ ls <;> simp [h2, h, Ne.symm h]

theorem Iss.gone_thread? (x : Iss) (w : Warp) (l : Nat) : (x.gone w).thread? l =
    if l ∈ x.set then (w.thread? l).map fun t => { t with pc := (x.pc + 8) % 2 ^ 64, lastIssue := x.now } else w.thread? l :=
  foldl_lmod_getElem? x.set w.threads l _ fun _ => rfl

/-- A warp that only went on, and took registers and pending results. -/
theorem WarpGoesOn.of_rest {x : Iss} {a wp' : Warp} {ths : List Thread} {th : Nat → Thread → Thread}
    (ha : a.rest = { (x.gone x.w).rest with pend := a.pend, threads := ths }) (hn : Warp.Near a wp')
    (ht : ∀ l, ths[l]? = ((x.gone x.w).thread? l).map (th l)) : WarpGoesOn x wp' th ∧ wp'.pend = a.pend := by
  have h : wp'.rest = { (x.gone x.w).rest with pend := a.pend, threads := ths } := hn.rest.trans ha
  have q {α : Type} (f : Warp → α) : f wp'.rest = f { (x.gone x.w).rest with pend := a.pend, threads := ths } := by rw [h]
  refine ⟨⟨?_, ?_, ?_, fun l => ?_⟩, q fun w => w.pend⟩
  · exact ⟨q fun w => w.width, q fun w => w.launch, q fun w => w.vregs, q fun w => w.uregs⟩
  · exact ⟨q fun w => w.sq, q fun w => w.copyOut, q fun w => w.matOut, q fun w => w.collOut, q fun w => w.deferred, q fun w => w.nonRes⟩
  · exact ⟨q fun w => w.gstat, q fun w => w.phase, q fun w => w.sbcheck, q fun w => w.held⟩
  · rw [Iss.after, ← x.gone_thread? x.w l]
    exact (q fun w => w.thread? l).trans (ht l)

theorem State.reg_eq {s : State} {c w : Nat} {wp : Warp} (h : s.warp? c w = some wp) (n : RName) (l : Nat) : s.reg c w n l = wp.hold n l := by
  simp [State.reg, h]

/-- From the state in which the body of an issue starts to its end, for a body that only puts registers and pending results and acts
on the threads of its warp. -/
theorem moves_of_body {s : State} {i : Instr} {h : Hdr} {c w : Nat} {wp : Warp} {pc : Nat} (hI : Issues s i h c w wp pc) (e : Eff)
    (g : Warp → Warp) (put : RName → Nat → Option Reg) (more : List Pend) (th : Nat → Thread → Thread) (fs : List Thread → List Thread)
    (he : OnWarp (s.opened (Iss.of s c w wp pc h) i) e.s c w g)
    (hg : ∀ v, (g v).rest = { v.rest with pend := v.pend ++ more, threads := fs v.threads })
    (hp : ∀ v n l, n ≠ .seed → l < 128 → (∀ k, n = .p k → k < 8) → (g v).hold n l = (put n l).getD (v.hold n l))
    (ht : ∀ xs l, (fs xs)[l]? = xs[l]?.map (th l)) :
    Moves s (State.ended (Iss.of s c w wp pc h) i h e) (Iss.of s c w wp pc h) put more th := by
  have ho := opened_onWarp s (Iss.of s c w wp pc h) i
  set x := Iss.of s c w wp pc h with hx
  have hwo : (s.opened x i).warp? c w = some (x.gone x.w) := by
    have := ho.warp
    simp only [show x.core = c from rfl, show x.warp = w from rfl, hI.warp, Option.map_some] at this
    exact this
  have hwe : e.s.warp? c w = some (g (x.gone x.w)) := by rw [he.warp, hwo]; rfl
  obtain ⟨wp', hn, h2⟩ := ended_onWarp x i h e _ hwe
  have hwt : (State.ended x i h e).warp? c w = some wp' := by
    have := h2.warp
    simp only [show x.core = c from rfl, show x.warp = w from rfl, hwe, Option.map_some] at this
    exact this
  have hgp : (g (x.gone x.w)).pend = (x.gone x.w).pend ++ more := congrArg Warp.pend (hg (x.gone x.w))
  have hgr : (g (x.gone x.w)).rest = { (x.gone x.w).rest with pend := (g (x.gone x.w)).pend, threads := fs (x.gone x.w).threads } := by
    rw [hg, hgp]
  have hgo := WarpGoesOn.of_rest (x := x) (a := g (x.gone x.w)) (wp' := wp') (th := th) hgr hn fun l => ht _ l
  refine ⟨fun n l hs hl hk => ?_, ⟨wp', hwt, hgo.1, ?_⟩, (ho.rest.trans he.rest).trans h2.rest⟩
  · show (State.ended x i h e).reg c w n l = (put n l).getD (s.reg c w n l)
    rw [State.reg_eq hwt, State.reg_eq hI.warp, hn.hold, hp _ n l hs hl hk]
    cases n with
    | seed => exact absurd rfl hs
    | _ => rfl
  · exact hgo.2.trans hgp

theorem lands_of_body {s : State} {i : Instr} {h : Hdr} {c w : Nat} {wp : Warp} {pc : Nat} (hI : Issues s i h c w wp pc) (e : Eff)
    (g : Warp → Warp) (put : RName → Nat → Option Reg) (more : List Pend)
    (he : OnWarp (s.opened (Iss.of s c w wp pc h) i) e.s c w g)
    (hg : ∀ v, (g v).rest = { v.rest with pend := v.pend ++ more })
    (hp : ∀ v n l, n ≠ .seed → l < 128 → (∀ k, n = .p k → k < 8) → (g v).hold n l = (put n l).getD (v.hold n l)) :
    Lands s (State.ended (Iss.of s c w wp pc h) i h e) (Iss.of s c w wp pc h) put more :=
  moves_of_body hI e g put more _ (fun xs => xs) he hg hp fun xs l => by simp

theorem State.opened_nextId (s : State) (x : Iss) (i : Instr) : (s.opened x i).nextId = s.nextId := by
  simp only [State.opened]
  split
  · rfl
  · obtain ⟨u, f, e, -, rfl | ⟨g, rfl⟩⟩ := (s.setWarp x.core x.warp fun _ => x.w).pay_account x.core
      ((s.setWarp x.core x.warp fun _ => x.w).price x i) (.warp x.warp) <;> rw [e] <;> rfl

/-- An instruction that computes in each thread, with fixed latency: it lands the registers of its threads. -/
theorem perLane_lands {s : State} {i : Instr} {h : Hdr} {c w : Nat} {wp : Warp} {pc : Nat} (hI : Issues s i h c w wp pc)
    (lat : Nat) (d : Dst) (n : Nat) (f : Iss → Nat → LaneRes) (val : Nat → List Reg) (pr : Nat → Option (Pred × Bool))
    (hf : ∀ l ∈ (Iss.of s c w wp pc h).act, f (Iss.of s c w wp pc h) l = LaneRes.clean (val l) (pr l))
    (hlen : ∀ l ∈ (Iss.of s c w wp pc h).act, (val l).length = n) :
    ∃ t, issue i s (perLane (.fixed lat) (dstNames d n) f) = .next t ∧
      Lands s t (Iss.of s c w wp pc h) ((Iss.of s c w wp pc h).puts (dstNames d n) val pr) [] := by
  refine ⟨_, issue_next hI _, ?_⟩
  set x := Iss.of s c w wp pc h with hx
  have hact : ∀ l ∈ x.act, l < 128 := fun l hl => Iss.set_lt (Iss.act_set hl)
  have hmap : (x.act.map fun l => (l, f x l)) = x.act.map fun l => (l, LaneRes.clean (val l) (pr l)) :=
    List.map_congr_left fun l hl => by rw [hf l hl]
  have hb : perLane (.fixed lat) (dstNames d n) f x (s.opened x i) =
      ⟨(s.opened x i).putRegs x (.fixed lat) (writesOf (dstNames d n) (x.act.map fun l => (l, LaneRes.clean (val l) (pr l)))), .go⟩ := by
    unfold perLane
    rw [hmap]
    refine commit_clean _ _ _ _ _ fun r hr => ?_
    obtain ⟨l, -, rfl⟩ := List.mem_map.mp hr
    exact ⟨rfl, rfl, rfl⟩
  rw [hb]
  refine lands_of_body hI _ _ _ [] (OnWarp.setWarp _ _ _ _) (fun v => ?_) fun v m l hs hl hk => ?_
  · refine (Warp.writeAll_rest v (fun v => x.now + lat + (match v.name with | .w _ => x.w.width / 32 - 1 | _ => 0)) _
      (writesOf_fits hact d n val pr hlen)).trans ?_
    simp [Warp.rest]
  · exact writesOf_puts hact d n val pr hlen v (fun v => x.now + lat + (match v.name with | .w _ => x.w.width / 32 - 1 | _ => 0)) m l hs hl hk

/-- The same with variable latency: the registers of its threads wait for their landing (R44). -/
theorem perLane_awaits {s : State} {i : Instr} {h : Hdr} {c w : Nat} {wp : Warp} {pc : Nat} (hI : Issues s i h c w wp pc)
    (names : List RName) (f : Iss → Nat → LaneRes)
    (hf : ∀ l ∈ (Iss.of s c w wp pc h).act, (f (Iss.of s c w wp pc h) l).pois = false ∧ (f (Iss.of s c w wp pc h) l).fault = none ∧
      (f (Iss.of s c w wp pc h) l).seed = none) :
    ∃ t, issue i s (perLane .var names f) = .next t ∧
      Lands s t (Iss.of s c w wp pc h) noReg
        (match writesOf names ((Iss.of s c w wp pc h).act.map fun l => (l, f (Iss.of s c w wp pc h) l)) with
        | [] => []
        | v :: vs => [⟨s.nextId, ((v :: vs).map fun v => v.name).eraseDups, .ready, v :: vs⟩]) := by
  refine ⟨_, issue_next hI _, ?_⟩
  set x := Iss.of s c w wp pc h with hx
  have hb : perLane .var names f x (s.opened x i) = ⟨(s.opened x i).putRegs x .var (writesOf names (x.act.map fun l => (l, f x l))), .go⟩ := by
    refine commit_clean _ _ _ _ _ fun r hr => ?_
    obtain ⟨l, hl, rfl⟩ := List.mem_map.mp hr
    exact hf l hl
  rw [hb]
  cases e : writesOf names (x.act.map fun l => (l, f x l)) with
  | nil =>
    refine lands_of_body hI _ id _ _ (.refl _ _ _) (fun v => ?_) fun v m l hs hl hk => rfl
    simp [Warp.rest]
  | cons v vs =>
    have hid := State.opened_nextId s x i
    refine lands_of_body hI _ (fun w => { w with pend := w.pend ++ [⟨s.nextId, ((v :: vs).map fun v => v.name).eraseDups, .ready, v :: vs⟩] })
      _ _ ?_ (fun v => rfl) fun v m l hs hl hk => ?_
    · simp only [State.putRegs, List.isEmpty_cons, Bool.false_eq_true, if_false, hid]
      have h1 := OnWarp.setWarp (s.opened x i) c w
        (fun w => { w with pend := w.pend ++ [⟨s.nextId, ((v :: vs).map fun v => v.name).eraseDups, .ready, v :: vs⟩] })
      exact ⟨h1.warp, h1.rest.trans (.fresh _ c w)⟩
    · cases m <;> rfl

/-! ### From the result of one thread to `Computes` and `Decides` -/

theorem Computes.of_perLane {i : Instr} {d : Dst} {n : Nat} {ok : Iss → Nat → Prop} {res : Iss → Nat → List Reg → Prop} (lat : Nat)
    (f : Iss → Nat → LaneRes) (he : ∀ s, exec i s = issue i s (perLane (.fixed lat) (dstNames d n) f))
    (hf : ∀ x l, ok x l → ∃ v, v.length = n ∧ res x l v ∧ f x l = LaneRes.clean v none) : Computes i d n ok res := by
  intro s h c w wp pc hI hok
  choose! val hval using fun l (hl : l ∈ (Iss.of s c w wp pc h).act) => hf _ l (hok l hl)
  obtain ⟨t, ht, hL⟩ := perLane_lands hI lat d n f val (fun _ => none) (fun l hl => (hval l hl).2.2) fun l hl => (hval l hl).1
  exact ⟨t, val, (he s).trans ht, fun l hl => ⟨(hval l hl).1, (hval l hl).2.1⟩, hL⟩

theorem Decides.of_perLane {i : Instr} {pd : Pred} {ok : Iss → Nat → Prop} {res : Iss → Nat → Bool} (lat : Nat)
    (f : Iss → Nat → LaneRes) (he : ∀ s, exec i s = issue i s (perLane (.fixed lat) [] f))
    (hf : ∀ x l, ok x l → f x l = LaneRes.flag pd (res x l)) : Decides i pd ok res := by
  intro s h c w wp pc hI hok
  obtain ⟨t, ht, hL⟩ := perLane_lands hI lat .discard 0 f (fun _ => []) (fun l => some (pd, res (Iss.of s c w wp pc h) l))
    (fun l hl => hf _ l (hok l hl)) fun _ _ => rfl
  exact ⟨t, (he s).trans ht, hL⟩

theorem Opd.fits.ok {o : Opd} {tags : List Tag} (h : o.fits tags) : o.ok tags = true ∧ o.pois = false := by
  rcases h with h | ⟨h, hp⟩
  · simp [Opd.ok, Opd.pois, h]
  · simp [Opd.ok, Opd.pois, h, hp]

/-- The checks of R113 pass when every source fits. -/
theorem checkTags_good (srcs : List (Opd × List Tag)) (h : ∀ p ∈ srcs, p.1.fits p.2) : checkTags srcs = .good := by
  have h1 : (srcs.any fun p => p.1.pois) = false := by
    rw [List.any_eq_false]
    intro p hp
    simp [(h p hp).ok.2]
  have h2 : (srcs.find? fun p => !p.1.ok p.2) = none := by
    rw [List.find?_eq_none]
    intro p hp
    simp [(h p hp).ok.1]
  simp [checkTags, h1, h2]

theorem computed_good (x : Iss) (names : List RName) (l : Nat) (srcs : List (Opd × List Tag)) (f : Unit → List Reg)
    (h : ∀ p ∈ srcs, p.1.fits p.2) : computed x names l srcs f = LaneRes.clean (f ()) none := by
  rw [computed, checkTags_good srcs h]
  rfl

theorem compared_good (pd : Pred) (srcs : List (Opd × List Tag)) (f : Unit → Bool) (h : ∀ p ∈ srcs, p.1.fits p.2) :
    compared pd srcs f = LaneRes.flag pd (f ()) := by
  rw [compared, checkTags_good srcs h]

/-- A source that is no POISON satisfies the check of any tag. -/
theorem Iss.plain.fits {x : Iss} {a : Src} {k l : Nat} (h : x.plain a k l) : (x.src a k l).fits anyTag := by
  rcases h with h | h
  · exact .inl h
  · refine .inr ⟨?_, h⟩
    cases e : (x.src a k l).tag <;> simp_all [anyTag]

/-- An instruction of two 32-bit sources. -/
theorem Computes.op2 {i : Instr} {d : Dst} {ok : Iss → Nat → Prop} {res : Iss → Nat → List Reg → Prop} (lat : Nat) (tags : List Tag)
    (tag : Tag) (oa ob : Iss → Nat → Opd) (f : Word → Word → Word)
    (he : ∀ s, exec i s = issue i s (Machine.op2 lat d tags tag oa ob f))
    (ha : ∀ x l, ok x l → (oa x l).fits tags ∧ (ob x l).fits tags)
    (hr : ∀ x l, ok x l → res x l [⟨f (oa x l).val (ob x l).val, tag⟩]) : Computes i d 1 ok res :=
  .of_perLane lat _ he fun x l h => ⟨_, rfl, hr x l h, computed_good x _ l _ _ (by simpa using ha x l h)⟩

/-- An instruction of one 32-bit source. -/
theorem Computes.op1 {i : Instr} {d : Dst} {ok : Iss → Nat → Prop} {res : Iss → Nat → List Reg → Prop} (lat : Nat) (tags : List Tag)
    (tag : Tag) (oa : Iss → Nat → Opd) (f : Word → Word) (he : ∀ s, exec i s = issue i s (Machine.op1 lat d tags tag oa f))
    (ha : ∀ x l, ok x l → (oa x l).fits tags) (hr : ∀ x l, ok x l → res x l [⟨f (oa x l).val, tag⟩]) : Computes i d 1 ok res :=
  .of_perLane lat _ he fun x l h => ⟨_, rfl, hr x l h, computed_good x _ l _ _ (by simpa using ha x l h)⟩

end Sys2Proof.Machine
end

