-- ==== Sys2Proof/Laws/Keep.lean ====
section
/-! SUPPORT. Two relations between a state and one that follows from it: `Same`, memory and the number of the package's parts
are as they were; `Keeps`, a canonical memory stays so and a whole package whole. Their closure under record updates, folds and
case splits; the files `Laws/Keep…` say of every operation of the model that it stands in one of them. -/

namespace Sys2Proof.Machine

/-- Memory, its poison marks and dropped bytes, and the numbers of units are unchanged. -/
structure Same (b t : State) : Prop where
  mem : t.mem = b.mem
  marks : t.marks = b.marks
  gaps : t.gaps = b.gaps
  cores : t.cores.length = b.cores.length
  dies : t.dies.length = b.dies.length
  stks : t.stks.length = b.stks.length
  rows : t.rows.length = b.rows.length
  scores : t.scores.length = b.scores.length

/-- A canonical memory stays canonical, and a package that has its parts keeps them. -/
structure Keeps (b t : State) : Prop where
  mem : memWf b.mem = true → memWf t.mem = true
  whole : b.whole = true → t.whole = true

theorem Same.rfl {b : State} : Same b b := ⟨Eq.refl _, Eq.refl _, Eq.refl _, Eq.refl _, Eq.refl _, Eq.refl _, Eq.refl _, Eq.refl _⟩
theorem Keeps.rfl {b : State} : Keeps b b := ⟨id, id⟩

/-- What `State.whole` says, as equations. -/
theorem State.whole_iff (s : State) : s.whole = true ↔
    s.cores.length = 64 ∧ s.dies.length = 8 ∧ s.stks.length = 16 ∧ s.rows.length = 4 ∧ s.scores.length = 64 := by
  simp [State.whole, and_assoc]

theorem State.whole_of_eq {s t : State} (hc : t.cores.length = s.cores.length) (hd : t.dies.length = s.dies.length)
    (hk : t.stks.length = s.stks.length) (hr : t.rows.length = s.rows.length) (hn : t.scores.length = s.scores.length) :
    t.whole = s.whole := by simp [State.whole, hc, hd, hk, hr, hn]

theorem Same.keeps {b t : State} (h : Same b t) : Keeps b t :=
  ⟨fun hb => h.mem ▸ hb, fun hb => (State.whole_of_eq h.cores h.dies h.stks h.rows h.scores).trans hb⟩

theorem Keeps.trans {b s t : State} (h : Keeps b s) (g : Keeps s t) : Keeps b t :=
  ⟨fun hb => g.mem (h.mem hb), fun hb => g.whole (h.whole hb)⟩

theorem Keeps.step {b s t : State} (h : Keeps b s) (g : Same s t) : Keeps b t := h.trans g.keeps

/-- An update of fields other than memory that keeps the number of every unit. -/
theorem Same.upd {b x : State} {c : List Core} {d : List Die} {k : List Stack} {r : List RowRing} {n : List SCore}
    {ctl : Control} {l : List (Nat × Launch)} {nl : Nat} {a : List Acc} {co : List CollCmd} {pr : List PenRel}
    {ag : List Todo} {tu : Turn} {cl ni st ti : Nat} {wl : Bool}
    {wm : List WalkMemo} {pp : List (Nat × Nat)} {y : Yard} (h : Same b x) (hc : c.length = x.cores.length)
    (hd : d.length = x.dies.length) (hk : k.length = x.stks.length) (hr : r.length = x.rows.length)
    (hn : n.length = x.scores.length) :
    Same b ⟨x.mem, x.marks, x.gaps, c, d, k, r, n, ctl, l, nl, a, co, pr, ag, tu, cl, ni, st, ti, wl, wm, pp, y⟩ :=
  ⟨h.mem, h.marks, h.gaps, hc.trans h.cores, hd.trans h.dies, hk.trans h.stks, hr.trans h.rows, hn.trans h.scores⟩

theorem Keeps.upd {b x : State} {mk : List Nat} {gp : List Gap} {c : List Core} {d : List Die} {k : List Stack}
    {r : List RowRing} {n : List SCore} {ctl : Control} {l : List (Nat × Launch)} {nl : Nat} {a : List Acc}
    {co : List CollCmd} {pr : List PenRel} {ag : List Todo} {tu : Turn} {cl ni st ti : Nat} {wl : Bool}
    {wm : List WalkMemo} {pp : List (Nat × Nat)} {y : Yard} (h : Keeps b x)
    (hc : c.length = x.cores.length) (hd : d.length = x.dies.length) (hk : k.length = x.stks.length)
    (hr : r.length = x.rows.length) (hn : n.length = x.scores.length) :
    Keeps b ⟨x.mem, mk, gp, c, d, k, r, n, ctl, l, nl, a, co, pr, ag, tu, cl, ni, st, ti, wl, wm, pp, y⟩ :=
  ⟨h.mem, fun hb => (State.whole_of_eq hc hd hk hr hn).trans (h.whole hb)⟩

/-- A state is the record of its own fields: a goal that this closes is no update. -/
theorem Same.probe {b x : State} (h : Same b x) :
    Same b ⟨x.mem, x.marks, x.gaps, x.cores, x.dies, x.stks, x.rows, x.scores, x.ctl, x.launches, x.nextLaunch, x.accs, x.colls,
      x.penRels, x.agenda, x.turn, x.clock, x.nextId, x.stamp, x.ticket, x.walkLost, x.walks,
      x.penPhase, x.yard⟩ := h

theorem Keeps.probe {b x : State} (h : Keeps b x) :
    Keeps b ⟨x.mem, x.marks, x.gaps, x.cores, x.dies, x.stks, x.rows, x.scores, x.ctl, x.launches, x.nextLaunch, x.accs, x.colls,
      x.penRels, x.agenda, x.turn, x.clock, x.nextId, x.stamp, x.ticket, x.walkLost, x.walks,
      x.penPhase, x.yard⟩ := h

theorem Same.ite {b s t : State} {c : Prop} [Decidable c] (hs : c → Same b s) (ht : ¬c → Same b t) :
    Same b (if c then s else t) := by split <;> simp_all

theorem Keeps.ite {b s t : State} {c : Prop} [Decidable c] (hs : c → Keeps b s) (ht : ¬c → Keeps b t) :
    Keeps b (if c then s else t) := by split <;> simp_all

theorem Same.fold {α : Type} {b s : State} {f : State → α → State} {l : List α} (hf : ∀ s x, Same b s → Same b (f s x))
    (h : Same b s) : Same b (l.foldl f s) := by
  induction l generalizing s with
  | nil => exact h
  | cons x l ih => exact ih (hf s x h)

theorem Keeps.fold {α : Type} {b s : State} {f : State → α → State} {l : List α} (hf : ∀ s x, Keeps b s → Keeps b (f s x))
    (h : Keeps b s) : Keeps b (l.foldl f s) := by
  induction l generalizing s with
  | nil => exact h
  | cons x l ih => exact ih (hf s x h)

/-- The same of a state that comes with a value. -/
def SameP {β : Type} (b : State) (p : State × β) : Prop := Same b p.1
def KeepsP {β : Type} (b : State) (p : State × β) : Prop := Keeps b p.1

theorem SameP.mk {β : Type} {b s : State} {r : β} (h : Same b s) : SameP b (s, r) := h
theorem SameP.fst {β : Type} {b : State} {p : State × β} (h : SameP b p) : Same b p.1 := h
theorem SameP.ite {β : Type} {b : State} {p q : State × β} {c : Prop} [Decidable c] (hp : c → SameP b p) (hq : ¬c → SameP b q) :
    SameP b (if c then p else q) := by split <;> simp_all
theorem SameP.fold {α β : Type} {b : State} {p : State × β} {f : State × β → α → State × β} {l : List α}
    (hf : ∀ s r x, Same b s → SameP b (f (s, r) x)) (h : SameP b p) : SameP b (l.foldl f p) := by
  induction l generalizing p with
  | nil => exact h
  | cons x l ih => exact ih (hf p.1 p.2 x h)
theorem Same.ofEq {β : Type} {b s : State} {p : State × β} {r : β} (e : p = (s, r)) (h : SameP b p) : Same b s := by
  rw [e] at h; exact h

theorem KeepsP.mk {β : Type} {b s : State} {r : β} (h : Keeps b s) : KeepsP b (s, r) := h
theorem KeepsP.fst {β : Type} {b : State} {p : State × β} (h : KeepsP b p) : Keeps b p.1 := h
theorem KeepsP.ite {β : Type} {b : State} {p q : State × β} {c : Prop} [Decidable c] (hp : c → KeepsP b p) (hq : ¬c → KeepsP b q) :
    KeepsP b (if c then p else q) := by split <;> simp_all
theorem KeepsP.fold {α β : Type} {b : State} {p : State × β} {f : State × β → α → State × β} {l : List α}
    (hf : ∀ s r x, Keeps b s → KeepsP b (f (s, r) x)) (h : KeepsP b p) : KeepsP b (l.foldl f p) := by
  induction l generalizing p with
  | nil => exact h
  | cons x l ih => exact ih (hf p.1 p.2 x h)
theorem Keeps.ofEq {β : Type} {b s : State} {p : State × β} {r : β} (e : p = (s, r)) (h : KeepsP b p) : Keeps b s := by
  rw [e] at h; exact h

/-- A pair is the pair of its own parts: a goal that these close is no pair written out. -/
theorem SameP.probe {β : Type} {b : State} {p : State × β} (h : SameP b p) : SameP b (p.1, p.2) := h
theorem KeepsP.probe {β : Type} {b : State} {p : State × β} (h : KeepsP b p) : KeepsP b (p.1, p.2) := h

/-- The same of the effect of a body. -/
def SameE (b : State) (e : Eff) : Prop := Same b e.s
def KeepsE (b : State) (e : Eff) : Prop := Keeps b e.s

theorem SameE.mk {b s : State} {r : RunStop} (h : Same b s) : SameE b ⟨s, r⟩ := h
theorem SameE.go {b s : State} (h : Same b s) : SameE b (.go s) := h
theorem SameE.s {b : State} {e : Eff} (h : SameE b e) : Same b e.s := h
theorem SameE.ite {b : State} {p q : Eff} {c : Prop} [Decidable c] (hp : c → SameE b p) (hq : ¬c → SameE b q) :
    SameE b (if c then p else q) := by split <;> simp_all
theorem KeepsE.mk {b s : State} {r : RunStop} (h : Keeps b s) : KeepsE b ⟨s, r⟩ := h
theorem KeepsE.go {b s : State} (h : Keeps b s) : KeepsE b (.go s) := h
theorem KeepsE.s {b : State} {e : Eff} (h : KeepsE b e) : Keeps b e.s := h
theorem KeepsE.ite {b : State} {p q : Eff} {c : Prop} [Decidable c] (hp : c → KeepsE b p) (hq : ¬c → KeepsE b q) :
    KeepsE b (if c then p else q) := by split <;> simp_all

/-- The same of a state that may be missing. -/
def SameO (b : State) (o : Option State) : Prop := ∀ t, o = some t → Same b t
def KeepsO (b : State) (o : Option State) : Prop := ∀ t, o = some t → Keeps b t

theorem SameO.none {b : State} : SameO b none := fun _ h => nomatch h
theorem KeepsO.none {b : State} : KeepsO b none := fun _ h => nomatch h
theorem SameO.some {b t : State} (h : Same b t) : SameO b (some t) := fun _ e => Option.some.inj e ▸ h
theorem KeepsO.some {b t : State} (h : Keeps b t) : KeepsO b (some t) := fun _ e => Option.some.inj e ▸ h
theorem Same.ofO {b s : State} {o : Option State} (e : o = .some s) (h : SameO b o) : Same b s := h s e
theorem Keeps.ofO {b s : State} {o : Option State} (e : o = .some s) (h : KeepsO b o) : Keeps b s := h s e

/-- The same of the outcome of a meaning. -/
def SameX (b : State) (o : Out) : Prop := ∀ t, o = .next t → Same b t
def KeepsX (b : State) (o : Out) : Prop := ∀ t, o = .next t → Keeps b t

theorem SameX.next {b t : State} (h : Same b t) : SameX b (.next t) := fun _ e => (Host.Outcome.next.inj e) ▸ h
theorem KeepsX.next {b t : State} (h : Keeps b t) : KeepsX b (.next t) := fun _ e => (Host.Outcome.next.inj e) ▸ h
theorem SameX.fault {b : State} {f : Fault} : SameX b (.fault f) := fun _ e => nomatch e
theorem KeepsX.fault {b : State} {f : Fault} : KeepsX b (.fault f) := fun _ e => nomatch e
theorem SameX.refused {b : State} {f : Refusal} : SameX b (.refused f) := fun _ e => nomatch e
theorem KeepsX.refused {b : State} {f : Refusal} : KeepsX b (.refused f) := fun _ e => nomatch e
theorem SameX.keeps {b : State} {o : Out} (h : SameX b o) : KeepsX b o := fun t e => (h t e).keeps

theorem SameE.probe {b : State} {e : Eff} (h : SameE b e) : SameE b ⟨e.s, e.stop⟩ := h
theorem KeepsE.probe {b : State} {e : Eff} (h : KeepsE b e) : KeepsE b ⟨e.s, e.stop⟩ := h

/-- The same of what a Creven word comes to. -/
def CRes.state : CRes → State
  | .go s => s
  | .jump s _ => s
  | .wait s => s
  | .fault s _ => s
  | .poisoned s => s
  | .done s => s

def SameC (b : State) (r : CRes) : Prop := Same b r.state
def KeepsC (b : State) (r : CRes) : Prop := Keeps b r.state

theorem SameC.go {b s : State} (h : Same b s) : SameC b (.go s) := h
theorem SameC.jump {b s : State} {n : Nat} (h : Same b s) : SameC b (.jump s n) := h
theorem SameC.wait {b s : State} (h : Same b s) : SameC b (.wait s) := h
theorem SameC.fault {b s : State} {n : Nat} (h : Same b s) : SameC b (.fault s n) := h
theorem SameC.poisoned {b s : State} (h : Same b s) : SameC b (.poisoned s) := h
theorem SameC.done {b s : State} (h : Same b s) : SameC b (.done s) := h
theorem SameC.ite {b : State} {p q : CRes} {c : Prop} [Decidable c] (hp : c → SameC b p) (hq : ¬c → SameC b q) :
    SameC b (if c then p else q) := by split <;> simp_all

theorem KeepsC.go {b s : State} (h : Keeps b s) : KeepsC b (.go s) := h
theorem KeepsC.jump {b s : State} {n : Nat} (h : Keeps b s) : KeepsC b (.jump s n) := h
theorem KeepsC.wait {b s : State} (h : Keeps b s) : KeepsC b (.wait s) := h
theorem KeepsC.fault {b s : State} {n : Nat} (h : Keeps b s) : KeepsC b (.fault s n) := h
theorem KeepsC.poisoned {b s : State} (h : Keeps b s) : KeepsC b (.poisoned s) := h
theorem KeepsC.done {b s : State} (h : Keeps b s) : KeepsC b (.done s) := h
theorem KeepsC.ite {b : State} {p q : CRes} {c : Prop} [Decidable c] (hp : c → KeepsC b p) (hq : ¬c → KeepsC b q) :
    KeepsC b (if c then p else q) := by split <;> simp_all

theorem SameO.ite {b : State} {p q : Option State} {c : Prop} [Decidable c] (hp : c → SameO b p) (hq : ¬c → SameO b q) :
    SameO b (if c then p else q) := by split <;> simp_all
theorem KeepsO.ite {b : State} {p q : Option State} {c : Prop} [Decidable c] (hp : c → KeepsO b p) (hq : ¬c → KeepsO b q) :
    KeepsO b (if c then p else q) := by split <;> simp_all
theorem SameX.ite {b : State} {p q : Out} {c : Prop} [Decidable c] (hp : c → SameX b p) (hq : ¬c → SameX b q) :
    SameX b (if c then p else q) := by split <;> simp_all
theorem KeepsX.ite {b : State} {p q : Out} {c : Prop} [Decidable c] (hp : c → KeepsX b p) (hq : ¬c → KeepsX b q) :
    KeepsX b (if c then p else q) := by split <;> simp_all

theorem KeepsP.step {β : Type} {b s : State} {p : State × β} (h : Keeps b s) (g : SameP s p) : KeepsP b p := Keeps.step h g
theorem KeepsE.step {b s : State} {e : Eff} (h : Keeps b s) (g : SameE s e) : KeepsE b e := Keeps.step h g
theorem KeepsO.step {b s : State} {o : Option State} (h : Keeps b s) (g : SameO s o) : KeepsO b o :=
  fun t e => Keeps.step h (g t e)
theorem KeepsX.step {b s : State} {o : Out} (h : Keeps b s) (g : SameX s o) : KeepsX b o := fun t e => Keeps.step h (g t e)

/-- The same of a chunk on its way to a channel. -/
def SameK (b : State) (r : ChunkRes) : Prop := ∀ t, r = .taken t → Same b t

theorem SameK.refused {b : State} : SameK b .refused := fun _ e => nomatch e
theorem SameK.full {b : State} : SameK b .full := fun _ e => nomatch e
theorem SameK.taken {b t : State} (h : Same b t) : SameK b (.taken t) := fun _ e => (ChunkRes.taken.inj e) ▸ h
theorem Same.ofK {b s : State} {r : ChunkRes} (e : r = .taken s) (h : SameK b r) : Same b s := h s e

end Sys2Proof.Machine
end

