-- ==== Sys2Proof/Tests/Slice0.lean ====
section
/-! SUPPORT. The model's own tests: words written out from the spec's encodings, ill-formed terms that the checks refuse, one small
step of a few instructions, and states that meet the hypotheses of the statements. A comment over a witness names the statements whose
hypotheses it meets. -/

namespace Sys2Proof.Tests

open Sys2Proof Sys2Proof.Machine

/-- The header of a word with guard p7, no stall count and B = 0 (R28). -/
def h7 : Hdr := ⟨false, 0, false, 7⟩

/-! ### A small package -/

/-- A launch of four threads, in a warp of 32 lanes, at 0x1000. -/
def la1 : Launch :=
  { id := 1, part := 0, queue := 0, seq := 0, asid := 1, sec := false, stackLevel := false, entry := 0x1000, arg := 0, width := 32,
    vregs := 64, uregs := 16, sheds := 2, esheds := 1, manger := 4, tiles := 2, cpens := 2, dpens := 1, grid := 4, prio := 0, order := 0,
    done := 0, host := false, admitted := 4, live := 1, poisoned := false, waitingPart := [], ended := none }

/-- A leaf of the page of this package's memory at 0, of reach PACKAGE, that may be read and written; and its translation. -/
def leaf0 : Nat := 0x14D
def xl0 : Xl := ⟨1, 0, 0, .page, leaf0⟩

/-- A core group's handle. -/
def g1 : Nat := 0x10000

/-- A thread of it, and its warp: v0 is POISON, v1 to v3 are FP32, every other register of v and w zero, but w2, which is 256, and w4, which is 1. -/
def th1 (l : Nat) : Thread := { Thread.new la1 l 0 0 with lastPage := some xl0 }
def wp1 : Warp :=
  { Warp.new la1 0 0 0 0 with
    threads := (upFrom 0 32).map th1, w := [(2, ⟨256, .i32⟩), (4, ⟨1, .i32⟩)],
    v := (upFrom 0 4).map (fun l => (l, ⟨0, .poison⟩)) ++
      (upFrom 128 4 ++ upFrom 256 4 ++ upFrom 384 4).map fun l => (l, ⟨0, .fp32⟩) }

/-- What its launch holds on the core. -/
def pen1 : Pen := { phys := 0, boxes := List.replicate 2 ⟨.empty, false, false⟩, cp := 0, tp := 0, claimQ := [], takeQ := [], order := [], claims := [], pub := [] }
def view1 : View :=
  { sheds := [0, 1], slots := (upFrom 0 4).map fun k => ⟨k, if k = 3 then .free else .claimed 0, [], [], []⟩,
    tiles := [⟨0, .claimed allHandle, [], [], []⟩, ⟨1, .free, [], [], []⟩], pens := [pen1, { pen1 with boxes := [] }], allRes := .count, allPenErr := false }

/-- The package with that warp alone on core 0, which has bales, and whose turn it is. -/
def pack (f : State → State) (w : Warp) : State := f <|
  (({ State.reset with turn := .warp 0 0, launches := [(1, la1)] }.setCore 0 fun k =>
    { k with rack := 4096,
             ctx := { k.ctx with part := some 0, warps := [(0, w)], views := [(1, view1)], groups := ⟨[(0, ⟨1, 5, ⟨true, true, true⟩, .count, false⟩)], [(0, 1)]⟩ } }).setDie 0
    fun d => { d with shedMap := [(0, ⟨1, .attached, false, false, 7, 0, (0, 0)⟩), (1, ⟨1, .empty, false, false, 0, 0, (0, 0)⟩)] }).setCtl
    fun k => { k with asids := [(1, ⟨0, 0, false, true, 0x2000, true, 0⟩)], boot := .ready }

def issuesB (s : State) (i : Instr) (h : Hdr) (c w : Nat) (wp : Warp) (pc : Nat) : Bool :=
  s.turn == .warp c w && (s.warp? c w == some wp) && (wp.issuePc == some pc) && hdrOf i == some h && wordOk wp i &&
  !blocked wp (useOf (wp.width / 32) i) h && !s.wordWaits i (Iss.of s c w wp pc h) && !wp.sbcheck &&
  !(wp.prune (s.now c)).engFull (useOf (wp.width / 32) i).eng && s.canPay c (.warp w) (s.price (Iss.of s c w wp pc h) i)

theorem issues_of {s : State} {i : Instr} {h : Hdr} {c w : Nat} {wp : Warp} {pc : Nat} (e : issuesB s i h c w wp pc = true) :
    Issues s i h c w wp pc := by
  simp only [issuesB, Bool.and_eq_true, beq_iff_eq, Bool.not_eq_true'] at e
  obtain ⟨⟨⟨⟨⟨⟨⟨⟨⟨h1, h2⟩, h3⟩, h4⟩, h5⟩, h6⟩, h7⟩, h8⟩, h9⟩, h10⟩ := e
  exact ⟨h1, h2, h3, h4, h5, h6, h7, by simp [h8], fun _ => h9, by simp [h8], h10⟩

/-- The word is well-formed and issues for the threads of the lanes `ls`. -/
def goes (s : State) (w : Warp) (ls : List Nat) (i : Instr) : Bool :=
  !ls.isEmpty && i.wf && issuesB s i h7 0 0 w 0x1000 && ((Iss.of s 0 0 w 0x1000 h7).act == ls)

/-- Each of the words `is`, all well-formed, issues in state `s`, for some threads; each of them meets `P`, and the issue meets `Q`. -/
def Meets (s : State) (is : List Instr) (P : Iss → Nat → Prop) (Q : Iss → Prop := fun _ => True) : Prop :=
  ∀ i ∈ is, ∃ h c w wp pc, Issues s i h c w wp pc ∧ (Iss.of s c w wp pc h).act ≠ [] ∧ Q (Iss.of s c w wp pc h) ∧
    ∀ l ∈ (Iss.of s c w wp pc h).act, P (Iss.of s c w wp pc h) l

theorem meets (w : Warp) (ls : List Nat) {s : State} {is : List Instr} {P : Iss → Nat → Prop} {Q : Iss → Prop}
    (e : is.all (goes s w ls) = true) (p : ∀ l ∈ ls, P (Iss.of s 0 0 w 0x1000 h7) l) (q : Q (Iss.of s 0 0 w 0x1000 h7)) : Meets s is P Q := by
  intro i hi
  have h := List.all_eq_true.1 e i hi
  simp only [goes, Bool.and_eq_true, beq_iff_eq, Bool.not_eq_true', List.isEmpty_eq_false_iff] at h
  exact ⟨h7, 0, 0, w, 0x1000, issues_of h.1.2, by simpa [h.2] using h.1.1.1, q, by simpa [h.2] using p⟩

/-- Threads that run. -/
abbrev four : List Nat := [0, 1, 2, 3]

def st1 : State := pack id wp1
abbrev x1 : Iss := Iss.of st1 0 0 wp1 0x1000 h7

/-- Sources: zero and one as constants, and POISON. -/
abbrev z : Src := .k .zero
abbrev o : Src := .k .ione
abbrev p : Src := .v 0
abbrev f : Src := .v 1

/-- The same in registers: zero, one, and an FP32 pair. -/
abbrev wz : Src := .w 12
abbrev wo : Src := .w 4
abbrev ff : Src := .v 2

abbrev d4 : Dst := .v 4

/-! ### Words of the spec's encodings -/

/-- The decoder reads a Quatin word, or a Creven word, as an instruction; or refuses it. -/
abbrev reads (w : Nat) (i : Instr) : Prop := (decodeQuatin (BitVec.ofNat 64 w)).toOption = some i
abbrev sreads (w : Nat) (i : Instr) : Prop := (decodeCreven (BitVec.ofNat 32 w)).toOption = some i
abbrev refused (w : Nat) : Prop := (decodeQuatin (BitVec.ofNat 64 w)).toOption = none
abbrev srefused (w : Nat) : Prop := (decodeCreven (BitVec.ofNat 32 w)).toOption = none

/-- F3, FI and FE words with guard p7, by the fields of R31 to R34: the third source of a four-operand form is at [13:4]. -/
abbrev f3 (op d a b mod : Nat) : Nat := 0b0111 * 2 ^ 53 + op * 2 ^ 44 + d * 2 ^ 34 + a * 2 ^ 24 + b * 2 ^ 14 + mod
abbrev fi (op d a imm : Nat) : Nat := 0b01 * 2 ^ 61 + 0b0111 * 2 ^ 53 + op * 2 ^ 44 + d * 2 ^ 34 + a * 2 ^ 24 + imm
abbrev fe (op gran x y low : Nat) : Nat := 0b11 * 2 ^ 61 + 0b0111 * 2 ^ 53 + op * 2 ^ 44 + gran * 2 ^ 40 + x * 2 ^ 30 + y * 2 ^ 20 + low

-- The words of R120 and of the worked encoding of the chapter on instruction words, and that of R69's branch
theorem test_decode_iadd : reads (0b0111 * 2 ^ 53 + 0x020 * 2 ^ 44 + 6 * 2 ^ 34 + 7 * 2 ^ 24 + 8 * 2 ^ 14 + 0x50)
    (.iadd h7 (.v 6) (.v 7) (.v 8) .i16x2 false true) := by decide
theorem test_decode_guard : reads 0x0942005014054000 (.iadd ⟨false, 4, true, 2⟩ (.v 20) (.v 20) (.v 21) .i32 false false) := by decide
theorem test_decode_bra : reads 0xA0E0100000FFFFFD (.bra ⟨true, 0, false, 7⟩ 0xFFFFFD) := by decide

-- R68, R119: control, integers, logic, moves, predicates, lanes; 640 is w0, 1022 laneid, 1008 zero and, as a destination, the discard
theorem test_decode_integers : reads (f3 0x001 0 4 0 0) (.brx h7 (.v 4)) ∧ reads (f3 0x004 0 0 0 0) (.exit h7) ∧
    reads (f3 0x024 1 2 3 (640 * 2 ^ 4)) (.imad h7 (.v 1) (.v 2) (.v 3) (.w 0)) ∧ reads (f3 0x028 5 6 1022 0) (.and h7 (.v 5) (.v 6) (.k .laneid)) ∧
    reads (f3 0x034 5 6 7 0b100000) (.bfx h7 (.v 5) (.v 6) (.v 7) true) ∧ reads (f3 0x010 4 8 0 0b0100000) (.mov h7 (.v 4) (.v 8) .b64) := by and_intros <;> decide +kernel
theorem test_decode_predicates : reads (f3 0x040 0 1 2 (0b011 * 2 ^ 9 + 1 * 2 ^ 8 + 0b010 * 2 ^ 5)) (.icmp h7 3 (.v 1) (.v 2) true .lt) ∧
    reads (f3 0x042 0 0 0 (1 * 2 ^ 11 + 2 * 2 ^ 8 + 3 * 2 ^ 5)) (.por h7 1 2 3) ∧
    reads (f3 0x048 1008 0 0 (5 * 2 ^ 11 + 0b01 * 2 ^ 5)) (.vote h7 .discard 5 .any) ∧
    reads (f3 0x049 1 2 3 (0b101 * 2 ^ 7 + 0b11 * 2 ^ 5)) (.shfl h7 (.v 1) (.v 2) (.v 3) 5 .xor) ∧ reads (f3 0x04A 1 2 641 0) (.bcast h7 (.v 1) (.v 2) (.w 1)) := by
  and_intros <;> decide
theorem test_decode_immediates : reads (fi 0x010 3 0 0xFFFFFF) (.movi h7 (.v 3) 0xFFFFFF) ∧ reads (fi 0x020 3 4 7) (.iaddImm h7 (.v 3) (.v 4) 7) ∧
    reads (fi 0x031 3 4 7) (.shrImm h7 (.v 3) (.v 4) 7) ∧ reads (fi 0x003 0 0 9) (.nap h7 9) := by and_intros <;> decide

-- R68, R76: floating point, with ftz at [3], rounding at [2:0] and sat at [4]
theorem test_decode_floats : reads (f3 0x080 1 2 3 0b01001) (.fadd h7 (.v 1) (.v 2) (.v 3) .rz true false) ∧
    reads (f3 0x083 1 2 3 (4 * 2 ^ 4 + 0b1010)) (.ffma h7 (.v 1) (.v 2) (.v 3) (.v 4) .ru true) ∧
    reads (f3 0x098 4 6 1008 0b011) (.dadd h7 (.v 4) (.v 6) (.k .zero) .rd false) ∧ reads (f3 0x090 1 2 3 0b10000) (.hadd2 h7 (.v 1) (.v 2) (.v 3) .rn false true) ∧
    reads (f3 0x08A 1 2 0 0) (.fsqrt h7 (.v 1) (.v 2) .rn false) ∧ reads (f3 0x08E 1 2 0 0b1000) (.fcos h7 (.v 1) (.v 2) true) := by and_intros <;> decide +kernel

-- R68, R330: groups, pens, sheds, tiles, fences; and words that the chapters give
theorem test_decode_groups : reads 0x60F130A0BF200440 (.join h7 (.w 2) (.k .ineg1) .wide ⟨false, false, true⟩) ∧ reads 0x00F1100282000000 (.gsync h7 (.w 2)) ∧
    reads (f3 0x112 0 640 641 0) (.pinit h7 (.w 0) (.w 1)) ∧ reads (f3 0x113 9 640 0 0) (.pclaim h7 (.v 9) (.w 0)) ∧
    reads (f3 0x0D0 1 2 0 0) (.shmap h7 (.v 1) (.v 2)) ∧ reads (f3 0x0E1 0 644 0 0) (.mrel h7 (.w 4)) ∧ reads (f3 0x0E7 9 0 0 0) (.mstat h7 (.v 9)) ∧
    reads (f3 0x100 0 0 0 0) (.fence h7) := by and_intros <;> decide +kernel
theorem test_decode_engines : reads 0x60F1000200422000 (.atom h7 (.v 8) (.v 4) .ar .b32 false .add false) ∧
    reads 0x60F204A100000000 (.cpy h7 4 (.w 4) false) ∧ reads 0x00F200000000023C (.waitc h7 2 .matrix 7) ∧
    reads 0x60F230A128600000 (.coll h7 0 (.w 4) (.w 6) .allreduce) ∧ reads 0x60F400A200000080 (.launch h7 (.w 8) 1) := by and_intros <;> decide
theorem test_decode_memory : reads 0x60F1800128600040 (.pagein h7 (.v 4) (.w 6) 0x40) ∧ reads 0x00EF002804000000 (.probe h7 (.v 10) (.v 4) false) ∧
    reads 0x60F301200425F180 (.mma h7 1 2 0 4 .e4m3 .e4m3 false 0xF true 3) ∧
    reads (fe 0x112 0 8 4 (0b011 * 2 ^ 15 + 0b011 * 2 ^ 12 + 0b100 * 2 ^ 8)) (.red h7 (.v 8) (.v 4) .rel .b64 false .or false) ∧
    reads (fe 0x106 0 640 4 0) (.unpin h7 (.w 0) (.v 4)) := by and_intros <;> decide

-- R35, R53: the no-op word is two NOP halves
theorem test_decode_nop : reads 0x4000000000000000 (.pairedWord ⟨false, 0⟩ .nop .nop) := by decide

-- R375, R376 and their chapter: Creven words
theorem test_decode_creven : sreads 0x481FFFF8 (.jal 0 0x1FFFF8) ∧ sreads (1 * 2 ^ 26 + 1 * 2 ^ 21 + 2 * 2 ^ 16 + 3 * 2 ^ 11 + 2) (.mul 1 2 3) ∧
    sreads (0x03 * 2 ^ 26 + 1 * 2 ^ 21 + 2 * 2 ^ 16 + 1 * 2 ^ 6 + 5) (.shri 1 2 5) ∧ sreads (0x0A * 2 ^ 26 + 1 * 2 ^ 21 + 2 * 2 ^ 16 + 3 * 2 ^ 11 + 0b0011111) (.amo 1 2 3 .cas true .acq false) ∧
    sreads (0x0E * 2 ^ 26 + 1 * 2 ^ 21 + 2 * 2 ^ 16 + 9) (.beq 1 2 9) ∧ sreads (0x19 * 2 ^ 26 + 4 * 2 ^ 21 + 1 * 2 ^ 16 + 2 * 2 ^ 11 + 3 * 2 ^ 6) (.psend 4 1 2 3) := by and_intros <;> decide

-- R57, R67: a word of zeros, unassigned codes, a constant as a destination, a reserved register field, a reserved modifier value, a nonzero unused bit
theorem test_decode_refuses : refused 0 ∧ refused (f3 0x1FF 0 0 0 0) ∧ refused (fi 0x02B 0 0 0) ∧ refused (fe 0x1FF 0 0 0 0) ∧ refused (f3 0x020 1009 0 0 0) ∧
    refused (f3 0x020 0 704 0 0) ∧ refused (f3 0x020 0 0 0 0b11000000) ∧ refused (f3 0x02C 0 0 1 0) ∧ refused (f3 0x080 1 2 3 0b101) ∧
    refused (fe 0x140 1 648 0 0) ∧ refused (0x14 * 2 ^ 22 + 2 ^ 62) ∧ srefused (0x3F * 2 ^ 26) ∧ srefused (1 * 2 ^ 26 + 11) := by and_intros <;> decide

/-! ### Terms that the checks refuse -/

/-- No word of the list is well-formed. -/
abbrev illFormed (is : List Instr) : Prop := (is.all fun i => !i.wf) = true

-- R50, R51, R119: pairs, quads, uniform operands
theorem test_ill_formed_registers : illFormed [.brx h7 (.v 1), .callx h7 (.w 2) (.v 2), .ret h7 o, .call h7 (.v 3) 0, .reorder h7 z (.w 0) (.w 2) false,
    .mov h7 (.v 1) (.v 2) .b64, .mov h7 (.v 4) (.v 6) .b128, .imadw h7 (.v 1) z z z false, .iadd64 h7 (.v 4) (.v 5) z false false, .bcast h7 d4 z (.v 1),
    .lea h7 (.v 4) (.v 1) z false 0, .rdspec h7 (.v 1) .tid, .wrspec h7 .tid z, .bfxImm h7 d4 z 0x40, .launch h7 (.w 6) 0, .join h7 (.v 2) o .core ⟨true, false, false⟩,
    .join h7 (.w 2) o .core ⟨false, false, false⟩, .leave h7 (.v 1), .gsync h7 (.k .laneid), .pinit h7 (.v 1) o, .pclaim h7 d4 (.v 1), .pfill h7 z (.v 1),
    .ptake h7 d4 (.v 1), .pfree h7 (.v 1) z, .pquery h7 d4 (.v 1), .raisegen h7 (.v 1), .mrel h7 (.v 1), .trel h7 (.v 1), .give h7 z (.v 1) z 0] := by decide
-- R119, R155, R165, R168: pairs of binary64, formats and groups of conversions
theorem test_ill_formed_floats : illFormed [.fmin h7 (.v 1) (.v 2) (.v 4) .f64 false, .fmax h7 (.v 2) o (.v 4) .f64 false, .fcmp h7 0 (.v 1) (.v 2) true .eq false,
    .dadd h7 (.v 2) (.v 4) o .rn false, .dmul h7 (.v 3) (.v 4) (.v 6) .rn false, .dfma h7 (.v 2) (.v 4) (.v 6) (.v 7) .rn false,
    .cvt h7 d4 z .e8m0x4 .f32 false .rn false false, .cvt h7 d4 z .f16x2 .f32 false .rn false false, .cvts h7 d4 ff .f32 .f32 false false false,
    .scale h7 (.v 3) z z .i .f64 .rn false, .quant h7 d4 z (.v 2) false] := by decide
-- R205, R209, R234, R259, R273, R274, R287, R290, R347, R400: memory, engines
theorem test_ill_formed_memory : illFormed [.ld h7 (.w 4) wz .none .rlx .b32 .raw 0 0, .ld h7 d4 z .none .rlx .b32 .raw 0 0, .ld h7 d4 wz .none .rel .b32 .raw 0 0,
    .st h7 (.v 4) (.v 5) .none .rlx .b32 0, .st h7 (.v 4) wz .none .acq .b32 0, .ldw h7 d4 (.v 4) .none .rlx .b32 .raw 0 0, .pref h7 z .none .die 0, .discard h7 z (.v 5),
    .pin h7 z z 0, .unpin h7 z z, .lds h7 d4 z .b32 .raw 0, .sts h7 (.v 5) (.v 1) .b64 0, .ldst h7 (.v 6) (.v 1) .raw 0, .atom h7 z wz .rlx .b32 false .add false,
    .atom h7 (.v 4) wz .ord .b32 false .add false, .atom h7 (.v 4) wz .rlx .b8 false .add false, .atom h7 (.v 4) wz .rlx .b64 true .add false,
    .atom h7 (.v 4) wz .rlx .b32 false .xor true, .atomcas h7 z wz z .rlx .b32, .red h7 z wz .rlx .b32 false .exch false, .syncwInit h7 z z false 0,
    .syncwAdd h7 z z true 0, .syncwWait h7 (.v 5) z false 0, .pagein h7 wz o 0, .probe h7 .discard wz false, .mzero h7 0 0 false, .trd h7 d4 0 z, .twr h7 0 (.v 4) z,
    .mma h7 0 0 2 1 .fp16 .fp16 false 0xF false 0, .mma h7 0 0 2 0 .fp16 .fp16 false 0 false 0, .mma h7 0 0 2 0 .fp16 .fp16 false 0xF false 3,
    .cpy h7 0 (.v 4) false, .cpyg h7 0 wz (.v 4) false false, .cpys h7 0 wz wz false false true false .u32, .coll h7 0 wz (.v 4) .gather] := by decide
-- R54, R72: pairs of halves; R376 to R392: Creven words
theorem test_ill_formed_pairs : illFormed [.pairedWord ⟨false, 0⟩ (.mov 4 9) (.mov 4 13), .pairedWord ⟨false, 0⟩ (.mov 4 9) (.mov 5 4),
    .pairedWord ⟨false, 0⟩ (.iadd 1 5) (.iadd 2 9)] := by decide
theorem test_ill_formed_creven : illFormed [.ldg 1 2 .b64 .rel 0, .stg 1 2 .b64 .acq 0, .amo 1 2 3 .add true .ord false, .amo 1 2 3 .add true .rlx true,
    .vld 1 2 true true .i32 0 0, .vst 1 2 true true .i32 0 0, .vgath 1 2 3 0 .i8 false, .vscat 1 2 3 0 .i32 true true, .vcvt 1 2 0 .i64 .i8 false, .vextr 1 2 16 .i32] := by
  decide

/-! ### Words that issue, and what they read -/

/-- What the constants are to every instruction: integers, floating-point values of each format, never POISON. -/
abbrev konsts (x : Iss) (l : Nat) : Prop :=
  x.int z 0 l ∧ x.int z 1 l ∧ x.int o 0 l ∧ x.int o 1 l ∧ x.plain z 0 l ∧ x.plain o 0 l ∧ x.holds z 0 l [.i16x2, .raw] ∧ x.holds z 0 l [.fp32] ∧
  x.holds z 0 l [.fp64l] ∧ x.holds z 1 l [.fp64h] ∧ x.holds z 0 l [.e8m0x4] ∧ (x.src f 0 l).tag = .fp32 ∧ (x.src p 0 l).tag = .poison ∧ (x.src p 0 l).konst = false

/-- What those registers are. -/
abbrev regs (x : Iss) (l : Nat) : Prop :=
  x.int wz 0 l ∧ x.int wz 1 l ∧ x.int wo 0 l ∧ x.int wo 1 l ∧ x.val64 wz l = 0 ∧ x.holds ff 0 l [.fp32] ∧ x.holds ff 1 l [.fp32]

abbrev consts (x : Iss) (l : Nat) : Prop := konsts x l ∧ regs x l

theorem consts_hold : ∀ l ∈ four, consts x1 l := fun l hl =>
  ⟨(by decide : ∀ l ∈ four, konsts x1 l) l hl, (by decide : ∀ l ∈ four, regs x1 l) l hl⟩

-- IntegerElements, ProductsAndAddresses, BitwiseAndShifts, BitFieldsAndCounts
theorem meets_integers : Meets st1 [.iadd h7 d4 z z .i32 false false, .isub h7 d4 z o .i8x4 true true, .imin h7 d4 z o .i16x2 true,
    .imax h7 (.w 4) z o .i32 false, .iabs h7 d4 z .i32, .ineg h7 d4 z .i8x4, .iaddImm h7 d4 z 1, .iminImm h7 d4 z 1, .imaxImm h7 d4 z 1,
    .imul h7 d4 z o, .imulImm h7 d4 z 1, .imulh h7 d4 z o true, .imad h7 d4 z o z, .imadw h7 d4 z o z false, .iadd64 h7 d4 z o false true,
    .lea h7 d4 z o true 7, .and h7 d4 z o, .andImm h7 d4 z 1, .or h7 d4 z o, .orImm h7 d4 z 1, .xor h7 d4 z o, .xorImm h7 d4 z 1,
    .andn h7 d4 z o, .not h7 d4 z, .shl h7 d4 z o, .shlImm h7 d4 z 1, .shr h7 d4 z o, .shrImm h7 d4 z 1, .sar h7 d4 z o, .sarImm h7 d4 z 1,
    .rotl h7 d4 z o, .rotlImm h7 d4 z 1, .bfx h7 d4 z o true, .bfxImm h7 d4 z 1, .bfi h7 d4 z o z, .popc h7 d4 z, .clz h7 d4 z,
    .brev h7 .discard z] consts :=
  meets wp1 four (by decide) consts_hold trivial

-- Movement, PredicatesAndVotes, FloatArithmetic, PackedHalves, FloatOrder, FunctionsOfSpecialSources
theorem meets_floats : Meets st1 [.mov h7 (.v 8) p .b128, .mov h7 d4 z .b64, .sel h7 d4 p f 0 true, .movi h7 d4 1, .movhi h7 d4 z 1, .bcast h7 d4 p z,
    .shfl h7 d4 p z 0 .up, .icmp h7 0 z o true .lt, .pand h7 7 0 1, .por h7 0 0 1, .pxor h7 0 0 1, .pnot h7 0 1, .vote h7 d4 0 .ballot,
    .vote h7 .discard 0 .eq, .fadd h7 d4 z z .rd false true, .fsub h7 d4 z f .rn true false, .fmul h7 d4 f f .rz false false,
    .ffma h7 d4 f f z .ru false, .faddImm h7 d4 f 1, .fmulImm h7 d4 f 1, .dadd h7 d4 z z .rn false, .dmul h7 d4 z z .rn false,
    .dfma h7 d4 z z z .rn false, .hadd2 h7 d4 z z .rn false true, .hmul2 h7 d4 z z .rn false true, .hfma2 h7 d4 z z z .rn false,
    .fmin h7 d4 f f .f32 false, .fmax h7 d4 z z .f64 false, .fcmp h7 0 f f false .nan false, .frcp h7 d4 f .rn false, .frsq h7 d4 f false,
    .fsqrt h7 d4 f .rn false, .fexp2 h7 d4 f false, .flog2 h7 d4 f false, .fsin h7 d4 f false, .fcos h7 d4 f true] consts :=
  meets wp1 four (by decide) consts_hold trivial

-- Conversions, PackingAndScaling, BlockFormats, PairedWords, SpecialRegisters, ThreadsStopAndWait, and the sources of PoisonAndTagFaults
theorem meets_others : Meets st1 [.cvt h7 d4 ff .f16x2 .f32 false .rn false false, .cvts h7 d4 ff .f16x2 .f32 true false true, .pack h7 d4 z o .lo,
    .unpack h7 d4 p .swap, .retag h7 d4 p .raw, .scale h7 d4 z z .i .f64 .rn false, .blkscale h7 d4 z .e4m3, .quant h7 d4 z o false,
    .rdspec h7 d4 .tid, .rdspec h7 .discard .rack, .rdspec h7 (.w 4) .gen, .rdrack h7 d4, .wrspec h7 .seed z, .wrspec h7 .rerr z,
    .wrspec h7 .sbcheck z, .phase h7 .m, .nap h7 0, .nap h7 9, .yield h7, .exit h7, .imad h7 d4 p f z, .iadd h7 d4 p z .i32 false false,
    .bra h7 2, .call h7 d4 2, .brx h7 wz, .ret h7 wz, .callx h7 .discard wz] consts :=
  meets wp1 four (by decide) consts_hold trivial

-- PackedHalves: the format that constants fix; Conversions: sources that are constants
theorem meets_formats : ∀ l ∈ four, ([x1.src z 0 l, x1.src (.k .hone2) 0 l].all fun o => o.konst) = true ∧
    (([x1.src z 0 l, x1.src (.k .bone2) 0 l].map fun o => o.tag).filter fun g => g == .fp16x2 || g == .bf16x2).head?.getD .fp16x2 = .bf16x2 ∧
    x1.holds z 0 l [(cfmtTags .f32).getD 0 .raw] := by decide

-- PairedWords: halves that raise nothing and read no POISON
def pair1 : Instr := .pairedWord ⟨false, 0⟩ (.iadd 5 6) (.movi 7 1)
theorem meets_paired : ∃ hd, hdrOf pair1 = some hd ∧ issuesB st1 pair1 hd 0 0 wp1 0x1000 = true ∧ ∀ l ∈ [0, 1, 2, 3],
    (halfLane (Iss.of st1 0 0 wp1 0x1000 hd) (.iadd 5 6) l).fault = none ∧ (halfLane (Iss.of st1 0 0 wp1 0x1000 hd) (.iadd 5 6) l).pois = false :=
  ⟨⟨false, 0, false, 7⟩, by decide⟩

/-! ### Traps, memory and sheds -/

-- a handler without a frame area catches each thread
theorem caught1 : ∀ l ∈ four, x1.caught st1 l := fun l hl => ⟨by decide, by decide, (by decide : ∀ l ∈ four, x1.sup l = false) l hl⟩

-- ControlTransfer, PoisonAndTagFaults: what raises a fault where there is a handler
theorem meets_traps : Meets st1 [.trap h7 5, .brkpt h7, .eret h7 true, .bra h7 (-0x201), .call h7 d4 (-0x201), .brx h7 ff, .ret h7 wo, .callx h7 d4 wo,
    .rdspec h7 d4 .fault, .imad h7 d4 z f z, .raisegen h7 z] fun x l => x.caught st1 l ∧ ¬x.int f 0 l ∧ x.plain f 0 l ∧ ¬x.int ff 0 l ∧
      (BitVec.ofNat 64 x.pc + (-0x201 : BitVec 24).signExtend 64 * 8).extractLsb' 55 9 ≠ 0 ∧ x.int wo 0 l ∧ x.int wo 1 l ∧ (x.val64 wo l).extractLsb' 0 3 ≠ 0 :=
  meets wp1 four (by decide) (fun l hl => ⟨caught1 l hl, by revert l; decide⟩) trivial

-- PoisonAndTagFaults: a thread that reads POISON beside one that raises E_TAG and one that computes
def wpMixed : Warp := { wp1 with v := [(0, ⟨0, .poison⟩), (1, ⟨0, .fp32⟩)] }
theorem meets_threads_that_differ : Meets (pack id wpMixed) [.imad h7 d4 p z o] (fun x l => x.plain p 0 l → ¬x.int p 0 l → x.caught (pack id wpMixed) l) :=
  meets wpMixed four (by decide) (fun l hl _ _ => ⟨by decide, by decide, by revert l; decide⟩) trivial

-- FaultsWithoutHandler: no handler; a thread at S level; a handler with a frame area
def noHandler (s : State) : State := s.setCtl fun k => { k with asids := [] }
def framed (s : State) : State := s.setCtl fun k => { k with asids := [(1, ⟨0, 0, false, true, 0x2000, true, 0x40⟩)] }
def one (w : Warp) (f : Thread → Thread) : Warp := { w with threads := (w.threads.take 1).map f ++ (w.threads.drop 1).map fun t => { t with st := .exited } }
def wpS : Warp := one wp1 fun t => { t with sLevel := true }
def wpU : Warp := one wp1 id
theorem meets_fault_ends_launch : Meets (pack noHandler wp1) [.trap h7 5] (fun x l => x.sup l = false ∧ (State.asidRec (pack noHandler wp1) 1).en = false) ∧
    Meets (pack id wpS) [.trap h7 5, .eret h7 false, .rdspec h7 d4 .fault] (fun x l => x.sup l = true) :=
  ⟨meets wp1 four (by decide) (by decide) trivial, meets wpS [0] (by decide) (by decide) trivial⟩

theorem maps_of (s : State) (w : Warp) (ls : List Nat) (va : Nat)
    (e : ls.all (fun l => [4, 8, 16, 128].all fun n => [XKind.load, .store, .atomic].all fun k => decide (va % n = 0) &&
      ((s.xlFind (.thread ((Iss.of s 0 0 w 0x1000 h7).ref l)) (s.asidOf (Iss.of s 0 0 w 0x1000 h7).w) va) == some xl0) &&
      s.targetFault leaf0 va n ((Iss.of s 0 0 w 0x1000 h7).sup l) (k == .atomic) == none) = true)
    (l : Nat) (hl : l ∈ ls) (n : Nat) (hn : n ∈ [4, 8, 16, 128]) (k : XKind) (hk : k ∈ [XKind.load, .store, .atomic]) (hv : va < 2 ^ 16) :
    Maps s (Iss.of s 0 0 w 0x1000 h7) l va n k (k == .atomic) leaf0 va := by
  have h := List.all_eq_true.1 (List.all_eq_true.1 (List.all_eq_true.1 e l hl) n hn) k hk
  simp only [Bool.and_eq_true, beq_iff_eq, decide_eq_true_eq] at h
  refine ⟨by omega, h.1.1, ⟨xl0, h.1.2, by simp [Xl.leafFor, xl0], fun h => absurd h (by decide), ?_, fun _ => by decide⟩, ?_, h.2⟩
  · exact (by decide : ∀ k ∈ [XKind.load, .store, .atomic], k.permitted xl0.leaf = true) k hk
  · rw [show pteFrame leaf0 = 0 by decide]; omega

/-- An access of `n` bytes at 0 of a lane passes every check. -/
abbrev there (s : State) (x : Iss) (l : Nat) : Prop :=
  ∀ n ∈ [4, 8, 16, 128], ∀ k ∈ [XKind.load, .store, .atomic], Maps s x l 0 n k (k == .atomic) leaf0 0

theorem there1 : ∀ l ∈ four, there st1 x1 l := fun l hl n hn k hk => maps_of st1 wp1 four 0 (by decide) l hl n hn k hk (by decide)

-- LoadsAndStoresAreAsked, LoadsOfKnownBytes, Atomics, SyncWords, CachesAndPins, PagesAndGenerations
theorem meets_accesses : Meets st1 [.ld h7 d4 wz .none .ord .b128 .raw 0 0, .st h7 p wz .none .rel .b32 0, .ldw h7 (.w 4) (.w 6) .none .acq .b32 .i32 7 0,
    .atom h7 wo wz .rlx .b32 false .min true, .red h7 o wz .rlx .b64 false .xor false, .atomcas h7 wo wz o .rlx .b32,
    .syncwInit h7 wz o false 0, .syncwAdd h7 wz o false 0, .syncwWait h7 wz o false 0,
    .discard h7 (.w 2) wz, .unpin h7 (.w 2) wz, .pref h7 wz .none .die 0, .pagein h7 wz z 0, .pagein h7 wz (.w 6) 0, .probe h7 d4 wz false,
    .cpy h7 0 wz false, .launch h7 (.w 8) 7, .fence h7, .fenceSys h7 0] fun x l => consts x l ∧ there st1 x l ∧ x.int (.w 6) 0 l ∧ x.int (.w 6) 1 l ∧ x.int (.w 8) 3 l ∧ x.int (.w 2) 0 l ∧
      pagesOf 0 (x.val (.w 2) 0 l).toNat = [(0, 256)] ∧ st1.xlFind (.thread (x.ref l)) (st1.asidOf x.w) 0 = some xl0 :=
  meets wp1 four (by decide) (fun l hl => ⟨consts_hold l hl, there1 l hl, by revert l; decide⟩) trivial

-- LoadsOfKnownBytes: a misaligned address, and a POISON one; Atomics: .ra of integers
theorem meets_loads_that_ask_nothing : Meets st1 [.ld h7 d4 wo .none .rlx .b32 .raw 0 0, .ld h7 d4 p .none .rlx .b32 .raw 0 0, .atom h7 wo wz .rlx .b32 true .add false]
    fun x l => (x.int wo 0 l ∧ x.int wo 1 l ∧ (x.val64 wo l).toNat % 4 ≠ 0) ∧ x.caught st1 l ∧ ¬x.plain p 0 l :=
  meets wp1 four (by decide) (fun l hl => ⟨by revert l; decide, caught1 l hl, by revert l; decide⟩) trivial

-- CachesAndPins: PIN of one thread; FaultsWithoutHandler: a frame at 0x40
theorem meets_one_thread : Meets (pack id wpU) [.pin h7 (.w 2) wz 0, .yield h7] (fun x l => there (pack id wpU) x l ∧ x.int (.w 2) 0 l) (fun x => x.act = [0]) ∧
    Meets (pack framed wpU) [.trap h7 5] (fun x l => Maps (pack framed wpU) x l 0x40 8 .store false leaf0 0x40) fun x => x.act = [0] :=
  ⟨meets wpU [0] (by decide) (fun l hl => ⟨fun n hn k hk => maps_of _ wpU [0] 0 (by decide) l hl n hn k hk (by decide), by revert l; decide⟩)
      (by decide),
   meets wpU [0] (by decide) (fun l hl => ⟨by decide, by decide, ⟨xl0, by revert l; decide, rfl, by decide, by decide, by decide⟩, rfl,
     by revert l; decide⟩) (by decide)⟩

-- ShedReads, ShedStores, SyncWords: slot 0 of the launch's view is shed 7 of the die
theorem meets_sheds : Meets st1 [.lds h7 d4 wz .b32 .raw 0, .sts h7 o wz .b64 0, .ldst h7 d4 wz .fp16x2 0, .syncwInit h7 wz o true 0, .syncwAdd h7 wz o true 0,
    .syncwWait h7 wz o true 0] (fun x l => x.int wz 0 l ∧ Scratch st1 x (x.val wz 0 l) 16 7 0 ∧ x.first st1 7 ∧ st1.shedClean 0 7 0 16) :=
  meets wp1 four (by decide) (fun l hl => ⟨by revert l; decide, ⟨by revert l; decide, by revert l; decide,
    ⟨0, ⟨1, .attached, false, false, 7, 0, (0, 0)⟩, by revert l; decide, rfl, .inl rfl⟩⟩, fun a ha => absurd ha List.not_mem_nil, by unfold State.shedClean; decide⟩) trivial

/-! ### Groups, engines, pens -/

theorem inGroup_of {x : Iss} {g : Nat} (e : (!x.act.isEmpty && x.act.all fun l => ((x.w.thread? l).bind fun t => t.groups.head?) == some g) = true) :
    x.inGroup g := by
  simp only [Bool.and_eq_true, Bool.not_eq_true', List.isEmpty_eq_false_iff, List.all_eq_true, beq_iff_eq, Option.bind_eq_some_iff] at e
  exact ⟨e.1, e.2⟩

/-- Threads of ALL, and of the core's group. -/
def wpG : Warp := { wp1 with threads := wp1.threads.map fun t => { t with groups := [allHandle] } }
def wpK : Warp := { wp1 with threads := wp1.threads.map fun t => { t with groups := [g1] } }
def stG : State := pack id wpG
def stK : State := pack id wpK

-- RolesClaimAndRelease, MatrixCommands, MatrixStatus, EngineCommands: threads of ALL, tile register 0 and slots 0 to 2 held
theorem meets_matrix : Meets stG [.mclaim h7 d4 none, .mclaim h7 d4 (some 3), .tclaim h7 d4 (some 1), .mrel h7 o, .trel h7 z, .mzero h7 0 0xF true,
    .twr h7 0 p z, .trd h7 (.v 8) 0 z, .mma h7 0 0 2 0 .fp16 .fp16 false 0xF false 0, .mma h7 0 1 2 0 .fp16 .fp16 false 0xF false 0,
    .mclaim h7 d4 (some 9), .tclaim h7 d4 (some 9), .cpy h7 0 wz true, .cpyg h7 0 wz wz true true, .coll h7 0 wz z .gather, .waitc h7 0 .copy 1]
    (fun x l => x.int z 0 l ∧ x.int wz 0 l ∧ x.int wz 1 l ∧ x.caught stG l) fun x => x.inGroup allHandle ∧ stG.matrixRole 1 allHandle ∧ stG.copyRole 1 allHandle ∧
      stG.view? 0 1 = some view1 ∧ x.act.head? = some 0 :=
  meets wpG four (by decide) (fun l hl => ⟨by revert l; decide, by revert l; decide, by revert l; decide, ⟨by decide, by decide, by revert l; decide⟩⟩)
    ⟨inGroup_of (by decide), .inl rfl, .inl rfl, by decide, by decide⟩

-- RolesClaimAndRelease: a number that is free, one that is not, and one that is held, when the effect is settled
theorem meets_settles : stG.view? 0 1 = some view1 ∧ (view1.slots.map MSlot.st)[3]? = some .free ∧ (view1.slots.map MSlot.st)[1]? = some (.claimed 0) ∧
    (view1.tiles.map Tile.st)[1]? = some .free ∧ (view1.tiles.map Tile.st)[0]? = some (.claimed allHandle) ∧ stG.cores.length = 64 ∧
    (stG.core 0).ctx.matCmds = [] := by decide

-- MatrixStatus, Groups: the group of a record
theorem meets_group : Meets stK [.mstat h7 d4, .resmode h7 .off, .shmap h7 d4 z, .leave h7 (.k .zero), .gsync h7 (.k .zero), .join h7 (.w 8) (.k .ione) .core ⟨true, true, true⟩]
    (fun x l => x.int z 0 l ∧ x.caught stK l) fun x => x.inGroup g1 ∧ stK.group? 1 g1 = some ⟨1, 5, ⟨true, true, true⟩, .count, false⟩ ∧ x.act.head? = some 0 ∧
      (x.val o 0 0).toNat = 1 ∧ handleClass g1 = 0 ∧ handleScope g1 = 0 :=
  meets wpK four (by decide) (fun l hl => ⟨by revert l; decide, ⟨by decide, by decide, by revert l; decide⟩⟩)
    ⟨inGroup_of (by decide), by decide, by decide, by decide, by decide, by decide⟩

/-- Its handle stands in w6, and its identifier in w7. -/
def wpH : Warp := { wpK with w := [(6, ⟨0x10000, .i32⟩), (7, ⟨5, .i32⟩)] }
theorem alone_of {s : State} {c l : Nat} (e : (s.core c).ctxs.drop 1 = []) : s.alone c l := fun y hy => by simp [e] at hy
theorem meets_leave : Meets (pack id wpH) [.leave h7 (.w 6), .gsync h7 (.w 6), .join h7 (.w 8) (.w 7) .core ⟨true, true, true⟩, .join h7 (.w 8) (.w 7) .core ⟨true, false, true⟩]
    (fun x l => x.int (.w 6) 0 l ∧ (x.val (.w 6) 0 l).toNat = g1 ∧ x.int (.w 7) 0 l ∧ (x.val (.w 7) 0 l).toNat = 5 ∧ ∃ th, x.w.thread? l = some th ∧ g1 ∈ th.groups)
    fun x => x.act.head? = some 0 ∧ (pack id wpH).cores.length = 64 ∧ (pack id wpH).alone 0 1 ∧ (pack id wpH).accs = [] ∧ x.w.threads.length ≤ 128 ∧ g1 ≠ allHandle :=
  meets wpH four (by decide) (fun l hl => ⟨by revert l; decide, by revert l; decide, by revert l; decide, by revert l; decide,
    ⟨{ th1 l with groups := [g1] }, by revert l; decide, List.mem_singleton_self _⟩⟩)
    ⟨by decide, by decide, alone_of (by decide), by decide, by decide, by decide⟩

-- Pens: pen 0 of the core is initialised, pen 1 is not
theorem meets_pens : Meets st1 [.pinit h7 z o, .pclaim h7 d4 z, .ptake h7 (.w 4) z, .pfill h7 z z, .pfree h7 z z, .pquery h7 d4 z, .pinit h7 z z, .pclaim h7 d4 o]
    (fun x l => x.int z 0 l ∧ x.int o 0 l ∧ x.caught st1 l) fun x => x.act.head? = some 0 ∧ (x.val o 0 0).toNat = 1 ∧ (st1.pensOf 0 1 false)[0]? = some pen1 ∧
      (st1.pensOf 0 1 false)[1]? = some { pen1 with boxes := [] } ∧ st1.alone 0 1 ∧ st1.cores.length = 64 ∧ st1.dies.length = 8 ∧ st1.view? 0 1 ≠ none :=
  meets wp1 four (by decide) (fun l hl => ⟨by revert l; decide, by revert l; decide, caught1 l hl⟩)
    ⟨by decide, by decide, by decide, by decide, alone_of (by decide), by decide, by decide, by decide⟩

-- GivingShedBytes: slot 0 is ATTACHED, slot 1 EMPTY
theorem meets_give : Meets st1 [.give h7 z z o 0, .give h7 o z z 7] (fun x l => x.int z 0 l ∧ x.int o 0 l) fun x => x.act.head? = some 0 ∧
    st1.shedSlot 0 1 (x.val z 0 0).toNat = some (0, ⟨1, .attached, false, false, 7, 0, (0, 0)⟩) ∧
    st1.shedSlot 0 1 (x.val o 0 0).toNat = some (1, ⟨1, .empty, false, false, 0, 0, (0, 0)⟩) ∧ st1.shedCount 0 1 ≠ 0 :=
  meets wp1 four (by decide) (by decide) (by decide)

-- ThreadsStopAndWait: EXIT of threads of no group; REORDER by all threads of the launch on the core. SpecialRegisters
theorem meets_stops : Meets st1 [.exit h7, .reorder h7 z (.v 4) wz false] (fun x l => (x.src z 0 l).tag = .raw ∨ (x.src z 0 l).konst = true) fun x =>
    (∀ r ∈ (st1.core 0).ctx.reorder, r.launch ≠ 1) ∧ (∀ l ∈ x.act, ∀ th, x.w.thread? l = some th → th.groups = []) ∧ risingFrom 0 (st1.core 0).ctx.warps = true ∧
    (x.src z 0 0).tag ∈ [.raw, .i32] ∧ x.pair wz 0 = 0 ∧ x.act = x.set :=
  meets wp1 four (by decide) (by decide) (by decide)

/-! ### Stack cores -/

/-- An instance: g1 = 64, g2 = 1, g3 = 0 and marked, h1 = 0 and marked, k1 = 5; every other register 0. -/
def in1 : Inst :=
  { serve := none, launch := 2, idx := 0, ninst := 1, arg := 0, asid := 1, part := 0, sec := false, sLevel := false, pc := 0x1000, g := [(1, 64), (2, 1)],
    gm := [3], h := [], hm := [(1, 1)], k := [(1, 5)], loft := [], loftm := [], rerrCount := 0, rerrStat := 0, fails := [], late := [], pendG := [],
    pendH := [], marking := [], started := 0, halting := false, slot := 0 }

/-- Page tables of address space 1, in frames 1 to 3 (in stacks 1 to 3), which map the page at 0 to itself. -/
def tables (s : State) : State :=
  { s with mem := [⟨2 ^ 36 + 0x1000, 1⟩, ⟨2 ^ 36 + 0x1004, 0x20⟩, ⟨2 ^ 37 + 0x2000, 1⟩, ⟨2 ^ 37 + 0x2004, 0x30⟩,
      ⟨3 * 2 ^ 36 + 0x3000, 0x4D⟩, ⟨3 * 2 ^ 36 + 0x3001, 3⟩],
           ctl := { s.ctl with asids := [(1, ⟨1, 0, false, true, 0x2000, true, 0⟩)], boot := .ready } }

/-- The package with that instance on stack core 0, whose turn it is. -/
def sc (x : Inst) : State := tables ({ State.reset with turn := .score 0, launches := [(2, { la1 with id := 2, stackLevel := true })] }.setScore 0 fun k =>
  { k with rack := 4096, run := some x })

def sissuesB (s : State) (n : Nat) (x : Inst) (i : Instr) : Bool :=
  s.turn == .score n && (s.score n).run == some x && !x.halting && !s.scoreWaits n && !x.blocked i && i.wf &&
    (((s.score n).newHead x.pc i (x.price i)).pay (x.price i)).isSome

/-- Each of the words `is` issues on stack core 0, for instance `x`, which meets `P`. -/
def SMeets (x : Inst) (is : List Instr) (P : State → Prop) : Prop := ∀ i ∈ is, SIssues (sc x) i 0 x ∧ P (sc x)

theorem smeets {x : Inst} {is : List Instr} {P : State → Prop} (e : is.all (sissuesB (sc x) 0 x) = true) (p : P (sc x)) : SMeets x is P := by
  intro i hi
  have h := List.all_eq_true.1 e i hi
  simp only [sissuesB, Bool.and_eq_true, beq_iff_eq, Bool.not_eq_true', Option.isSome_iff_ne_none] at h
  obtain ⟨⟨⟨⟨⟨⟨h1, h2⟩, h3⟩, h4⟩, h5⟩, _⟩, h6⟩ := h
  exact ⟨⟨h1, h2, h3, h4, h5, h6⟩, p⟩

-- StackScalars, StackBranches, StackSystem
theorem meets_scalars : SMeets in1 [.add 1 2 3, .sub 1 2 3, .mul 0 2 3, .crevenAnd 1 2 3, .crevenOr 1 2 3, .crevenXor 1 2 3, .crevenShl 1 2 1, .crevenShr 1 2 1,
    .crevenSar 1 2 1, .slt 1 2 3, .sltu 1 2 3, .addi 1 2 3, .shli 1 2 63, .shri 1 2 3, .sari 1 2 3, .ori 1 2 3, .lui 0 0x8000, .beq 1 2 3, .bne 1 3 2, .blt 1 2 3,
    .bge 1 2 3, .jal 4 3, .jalr 4 1, .jalr 4 2, .jalr 4 3, .halt, .rds 4 7, .rds 4 11, .wrs 1 7, .wrs 3 7, .wrs 1 0, .svr 4 0, .svw 1 48, .svr 4 2]
    fun _ => in1.gmark 1 = false ∧ in1.gmark 2 = false ∧ in1.gmark 3 = true ∧ (in1.G 1).toNat % 4 = 0 ∧ (in1.G 1).toNat < 2 ^ 55 ∧ (in1.G 2).toNat % 4 ≠ 0 :=
  smeets (by decide) (by decide)

-- StackSystem: an instance at S level
def inS : Inst := { in1 with sLevel := true }
theorem meets_supervisor : SMeets inS [.svr 4 0, .svw 1 48, .svw 3 48, .svr 4 16, .svw 1 24, .svr 4 40, .svr 4 2] fun _ =>
    inS.gmark 1 = false ∧ inS.gmark 3 = true := smeets (by decide) (by decide)

-- StackVectors
theorem meets_vectors : SMeets in1 [.vadd 2 3 4 1 .i8, .vsub 2 3 4 0 .f32, .vmul 2 3 4 0 .f64, .vmin 2 3 4 0 .i64, .vmax 2 3 4 0 .i16, .vfma 2 3 4 0 .f32,
    .vand 2 3 4 0 .i32, .vor 2 3 4 0 .i32, .vxor 2 3 4 0 .i32, .vcmp 1 3 4 0 .i32 .lt, .vcmp 1 1 4 0 .i32 .lt, .vcmp 0 3 4 0 .i32 .lt, .vcvt 2 3 0 .f32 .f16 true,
    .vsplat 2 1 0 .i32, .vextr 2 3 15 .i32, .kset 1 1, .kset 1 3, .kset 0 1, .kget 4 1] fun _ => in1.M 1 32 0 = true ∧ in1.M 3 32 0 = false ∧
    in1.gmark 1 = false ∧ in1.gmark 3 = true := smeets (by decide) (by decide)

theorem meets_no_element : SIssues (sc in1) (.vextr 2 3 16 .i32) 0 in1 := ⟨by decide, by decide, by decide, by decide, by decide, by decide⟩

-- StackMemory, StackVectorAccesses: addresses 0 (g4) and 64 (g1), marked (g3), odd (g2)
theorem meets_stack_memory : SMeets in1 [.ldg 5 4 .b64 .rlx 0, .stg 1 4 .b32 .rel 0, .amo 5 4 2 .cas true .rlx false, .swadd 4 2, .swwait 4 2, .ldg 5 3 .b8 .rlx 0,
    .stg 5 2 .b32 .rlx 0, .crevenFence, .crevenFenceSys 5, .ldl 5 1 .b64 0, .stl 3 1 .b8 0, .ldl 5 2 .b32 0, .stl 5 3 .b8 0, .vld 2 1 true false .i32 1 0,
    .vst 2 4 false true .i32 1 0, .vgath 2 4 5 0 .i32 true, .vscat 2 4 5 1 .i32 false true, .vld 2 2 true false .i32 0 0] fun s => in1.gmark 4 = false ∧
    in1.addr 4 0 = 0 ∧ in1.addr 1 0 = 64 ∧ s.accs = [] ∧ (s.translate (.score 0) 1 0 .load false).2 = .ok 0x34D 0 ∧
    (s.translate (.score 0) 1 0 .atomic false).2 = .ok 0x34D 0 ∧ pteReach 0x34D = 2 ∧ s.targetFault 0x34D 0 16 false false = none :=
  smeets (by decide) (by decide)

theorem meets_stack_place : SMaps (sc in1) ((sc in1).translate (.score 0) 1 0 .store false).1 0 in1 0 16 .store 0x34D 0 :=
  ⟨by decide, Prod.ext rfl (by decide), by decide, by decide⟩

-- StackCores: a chunk sent to channel 0 of stack core 0, and one received
def inP : Inst := { in1 with g := [(1, 64), (2, 1), (4, 0xFFF)] }
def ch1 : Chunk := ⟨0xFFF, 0, 0, 0, false, 64, List.replicate 64 7, []⟩
theorem meets_chunks : SMeets inP [.psend 5 1 4 1, .psend 5 2 4 1, .psend 5 3 4 1, .precv 5 1 6, .precv 5 2 6, .precv 5 3 6] fun s =>
    inP.gmark 4 = false ∧ (inP.G 4).toNat = 0xFFF ∧ s.localDev 0xFFF = true ∧ (inP.G 1).toNat = 64 ∧ (s.score 0).psends = [] ∧
    ch1.bytes.length = ch1.len ∧ (inP.G 6).toNat = 0 := smeets (by decide) (by decide)

/-! ### One step of a few instructions: the values are those of the spec's examples -/

/-- A warp of one thread with given registers, and a register after the instruction. -/
def holds (rs : List (RName × Reg)) : Warp := rs.foldl (fun w r => w.write r.1 0 r.2) wpU
def after (w : Warp) (i : Instr) : Option Warp :=
  match exec i (pack id w) with
  | .next t => t.warp? 0 0
  | _ => none
abbrev gives (rs : List (RName × Reg)) (i : Instr) (n : RName) (r : Reg) : Prop := ((after (holds rs) i).map fun w => w.hold n 0) = some r

-- R121's example; R124's example; R125's MOVI and MOVHI; R122 in both halves; R165's example
theorem test_iadd_saturates : gives [(.v 7, ⟨0x7FF00010, .i16x2⟩), (.v 8, ⟨0x0020FFF0, .i16x2⟩)] (.iadd h7 (.v 6) (.v 7) (.v 8) .i16x2 false true) (.v 6)
    ⟨0x7FFF0000, .i16x2⟩ := by decide +kernel
theorem test_iadd_unsigned : gives [(.v 7, ⟨0x7FF00010, .i16x2⟩), (.v 8, ⟨0x0020FFF0, .i16x2⟩)] (.iadd h7 (.v 6) (.v 7) (.v 8) .i16x2 true true) (.v 6)
    ⟨0x8010FFFF, .i16x2⟩ := by decide +kernel
theorem test_bfx : gives [(.v 7, ⟨0xDEADBEEF, .i32⟩), (.v 8, ⟨0x0C08, .i32⟩)] (.bfx h7 (.v 6) (.v 7) (.v 8) true) (.v 6) ⟨0xFFFFFDBE, .raw⟩ := by decide +kernel
theorem test_movhi : gives [(.v 6, ⟨0x78, .i32⟩)] (.movhi h7 (.v 6) (.v 6) 0x123456) (.v 6) ⟨0x12345678, .i32⟩ := by decide +kernel
theorem test_imadw : gives [(.v 7, ⟨0xFFFFFFFF, .i32⟩)] (.imadw h7 (.v 4) (.v 7) (.v 7) (.k .zero) true) (.v 5) ⟨0xFFFFFFFE, .i32⟩ := by decide +kernel
theorem test_cvt : gives [(.v 20, ⟨0x43FA0000, .fp32⟩), (.v 21, ⟨0xC0533333, .fp32⟩), (.v 22, ⟨0x3A83126F, .fp32⟩), (.v 23, ⟨0x7FC00000, .fp32⟩)]
    (.cvt h7 (.v 10) (.v 20) .e4m3x4 .f32 false .rn false true) (.v 10) ⟨0x7F01C57E, .e4m3x4⟩ := by decide +kernel

-- R148: POISON is written where a source is POISON. R439: a trap's thread stands at the handler, at S level, and EPC holds the word's address
theorem test_poison_spreads : ((after (holds [(.v 7, ⟨1, .poison⟩)]) (.fadd h7 (.v 6) (.v 7) f .rn false false)).map fun w => (w.hold (.v 6) 0).tag) = some .poison := by
  decide +kernel
theorem test_trap_enters_handler : ((after wpU (.trap h7 5)).bind fun w => (w.thread? 0).map fun t => (t.pc, t.sLevel, t.epc)) = some (0x2000, true, 0x1000) := by
  decide +kernel

-- R377, R379: a product's low 64 bits; the link of JAL is the next word's address
theorem test_creven : (match exec (.mul 4 1 1) (sc in1) with | .next t => ((t.score 0).run.map fun x => (x.G 4).toNat) | _ => none) = some 4096 ∧
    (match exec (.jal 4 0x1FFFF8) (sc in1) with | .next t => ((t.score 0).run.map fun x => ((x.G 4).toNat, x.pc)) | _ => none) = some (0x1004, 0xFE0) := by decide +kernel

/-! ### Events -/

-- ResultsLand: a result for v4 pends in lane 0
def wpR : Warp := { wp1 with pend := [⟨9, [.v 4], .ready, [⟨.v 4, 0, ⟨7, .i32⟩⟩]⟩] }
theorem meets_result : (pack id wpR).warp? 0 0 = some wpR ∧ wpR.pend.find? (fun q => q.id == 9) = some ⟨9, [.v 4], .ready, [⟨.v 4, 0, ⟨7, .i32⟩⟩]⟩ := by decide

-- GivingShedBytes: a GIVE of slot 0 whose drain has ended, a cycle later
def give0 : Give := ⟨0, 0, 1, 0, 0, 1, 0, four, 0, 1⟩
def stGive : State := pack (fun s => ({ s with clock := 1, nextId := 1 }).setDie 0 fun d => { d with
  gives := [give0], shedMap := [(0, ⟨1, .draining, false, false, 7, 0, (0, 0)⟩), (1, ⟨1, .empty, true, false, 0, 0, (0, 0)⟩)] }) wp1
theorem meets_give_end : (stGive.die 0).gives.find? (fun q => q.core == 0 && q.warp == 0 && stGive.giveDone 0 q) = some give0 ∧
    mget? (stGive.die 0).shedMap 0 = some ⟨1, .draining, false, false, 7, 0, (0, 0)⟩ ∧ stGive.warp? 0 0 = some wp1 := by decide

-- SyncWords: one thread, a word of shed 7 with nothing outstanding; and a word at place 0
theorem meets_sync_word : Meets (pack id wpU) [.syncwInit h7 wz o true 0, .syncwAdd h7 wz o true 0]
    (fun x l => l < 32 ∧ x.int wz 0 l ∧ x.int o 0 l ∧ Scratch (pack id wpU) x (x.val wz 0 l) 16 7 0) (fun x => x.act = [0] ∧ (pack id wpU).accs = [] ∧
      (pack id wpU).marks = [] ∧ (pack id wpU).gaps = [] ∧ ((pack id wpU).stack 0).alive = true ∧ ∀ d ∈ (pack id wpU).dies, d.dc = []) :=
  meets wpU [0] (by decide) (fun l hl => ⟨by revert l; decide, by revert l; decide, by revert l; decide, ⟨by revert l; decide, by revert l; decide,
    ⟨0, ⟨1, .attached, false, false, 7, 0, (0, 0)⟩, by revert l; decide, rfl, .inl rfl⟩⟩⟩) (by decide)

-- PagesAndGenerations: a RAISEGEN by a thread at S level; a raise that has nothing to wait for
theorem meets_raise : Meets (pack id wpS) [.raisegen h7 o] (fun x l => x.sup l = true ∧ x.int o 0 l ∧ (x.val o 0 l).toNat % 2 ^ 16 = (pack id wpS).asidOf x.w) ∧
    ((pack (fun s => s.setCtl fun k => { k with raises := [⟨0, 1, [], 0, 0, 0⟩] }) wp1).ctl.raises = [⟨0, 1, [], 0, 0, 0⟩]) :=
  ⟨meets wpS [0] (by decide) (by decide) trivial, by decide⟩

-- MatrixEngine: an MZERO at the head of ALL's queue, and an MMA under way with its blocks before it
def mz : MCmd := ⟨5, 0, 1, 0, .mzero [0, 1] true, 0, []⟩
def mm : MCmd := ⟨5, 0, 1, 0, .mma 0 1 .fp16 .fp16 false [0, 1] false 0 0 .count, 0, []⟩
def wpE : Warp := { wpG with matOut := [⟨5, false, false⟩] }
def engine (m : MEngine) : State := pack (fun s => s.setCtx 0 fun k => { k with mat := m }) wpE
def stQ : State := engine ⟨[(queueKey 1 allHandle, [mz])], 0, none, false⟩
def stB : State := engine ⟨[], 0, some (queueKey 1 allHandle, mm), false⟩
theorem meets_engine : stQ.alone 0 1 ∧ stQ.warp? 0 0 = some wpE ∧ (stQ.core 0).ctx.behind mz = false ∧ risingFrom 0 (stQ.core 0).ctx.mat.queues = true ∧
    mget? (stQ.core 0).ctx.views 1 = some view1 ∧ stB.alone 0 1 ∧ (stB.core 0).ctx.mat.cur = some (queueKey 1 allHandle, mm) ∧
    (∀ r ∈ [0, 1], view1.rowTag 0 r ≠ .poison) ∧ ∀ n ∈ [0, 1, 2], (view1.slot n).marks = [] :=
  ⟨alone_of (by decide), by decide, by decide, by decide, by decide, alone_of (by decide), by decide, by decide, by decide⟩

-- StackCores: an instance waits in the queue of a stack core that is free; one at U level runs while one at S level waits
def free1 : State := sc in1 |>.setScore 0 fun k => { k with run := none, queue := [in1] }
def park1 : State := sc in1 |>.setScore 0 fun k => { k with queue := [{ inS with serve := some .housekeeping }] }
theorem meets_instances : (free1.stack 0).alive = true ∧ (free1.score 0).enabled = true ∧ (free1.score 0).run = none ∧ free1.ctl.heartbeat = true ∧ free1.ctl.boot = .ready ∧
    (park1.score 0).run = some in1 ∧ in1.sLevel = false ∧ (park1.score 0).psends = [] ∧ park1.accs = [] ∧ (park1.score 0).parked.length < 3 := by decide

-- EngineEvents: a copy of 1 byte from shed 7 to shed 7, 16 bytes further, of one dimension; then at its end
def descBytes : List Byte :=
  List.replicate 8 0 ++ 16 :: List.replicate 15 0 ++ [0x88, 2, 4] ++ List.replicate 13 0 ++ 1 :: List.replicate 7 0 ++ 1 :: List.replicate 207 0
def cpy1 : CopyCmd :=
  { id := 3, warp := 0, launch := 1, lanes := four, pc := 0x1000, form := 0, gran := 0, desc := descBytes, idxAddr := 0, idxShed := false, add := none, ra := false,
    sheds := [(0, 7)], slots := [], pos := 0, marked := false, nonRes := false, penBox := none, filled := false, acqDie := 0, acqPkg := 0, asid := 1, sec := false,
    sLevel := false, sync := .none, bytes := 0, stopped := true, waitPen := false, wait := none, drawn := 0, cover := [], fault := none }
def wpC : Warp := { wp1 with copyOut := [⟨3, false, false⟩] }
def stC (q : CopyCmd) : State := pack (fun s => s.setCtx 0 fun k => { k with copyQ := [q] }) wpC
def dsc1 : Desc := descOf descBytes
theorem meets_copy : ((stC cpy1).core 0).ctx.copyQ = [cpy1] ∧ ((stC cpy1).core 0).preempt = none ∧ (stC cpy1).warp? 0 0 = some wpC ∧
    ((stC cpy1).die 0).ring.slewOk 1 = true ∧ ((stC cpy1).core 0).rack = 4096 := ⟨rfl, by decide, by decide, by decide, by decide⟩
theorem meets_descriptor : (dsc1.total, dsc1.srck, dsc1.dstk, dsc1.swz, dsc1.oob, dsc1.trans, dsc1.esize, dsc1.src, dsc1.dst) = (1, 1, 1, 0, 2, false, 1, 0, 16) ∧
    cpy1.shedAt 0 = some 7 ∧ cpy1.shedAt 16 = some 7 := ⟨by rfl, by rfl, by rfl⟩

-- EngineEvents: a collective whose results are there
def col1 : CollCmd := ⟨3, 0, 0, 1, four, 0x1000, .gather, 0, 0, List.replicate 128 0, 1, false, none, true, false, false, none⟩
def wpL : Warp := { wp1 with collOut := [⟨3, false, false⟩] }
def stL : State := pack (fun s => { s with colls := [col1] }) wpL
theorem meets_collective : stL.colls = [col1] ∧ stL.warp? 0 0 = some wpL ∧ stL.alone 0 1 ∧ (cdescOf col1.desc).penen = false ∧
    (∀ th ∈ wpL.threads, th.st = .ready ∨ th.st = .exited) := ⟨by decide, by decide, alone_of (by decide), by decide, by decide⟩

-- IssueEvents: a free slot with no candidate, an escape counter that is full, a nap that is over, a wait for longer than TICKS, a word that is none, and
-- a warp that is over
def wpN (f : Thread → Thread) : Warp := { one wp1 f with esc := 65536 }
def stN (t : TSt) : State := pack (fun s => (s.setDie 0 fun d => { d with ticks := 2 ^ 30 }).setCore 0 fun k => { k with cycles := 10 }) (wpN fun th => { th with st := t })
theorem meets_issue_events : (st1.core 0).slots[1]? = some ⟨none, 0⟩ ∧ st1.candidates 0 1 = [] ∧ st1.warp? 0 0 = some wp1 ∧
    (stN (.nap 10)).warp? 0 0 = some (wpN fun th => { th with st := .nap 10 }) ∧ (stN (.nap 10)).now 0 = 10 ∧
    ((stN (.sync 4)).die 0).watchdog + 0 < ((stN (.sync 4)).die 0).ticks ∧ ((stN (.sync 4)).asidRec 1).en = true ∧
    (∀ th ∈ (wpN fun th => { th with st := .exited }).threads, th.st = .exited) ∧ (stN .exited).launch? 1 = some la1 ∧ (∀ l ∈ four, x1.sup l = false) := by decide

/-! ### Events of memory, bales, launches, contexts, failures, links, the host -/

-- MemoryEvents: a load, a store and an addition of 4 bytes at place 0, whose request and response have crossed the yard, alone in flight
def acc1 (k : AKind) : Acc :=
  { id := 3, who := .thread ⟨0, 0, 0⟩, lanes := [0], kind := k, cls := .rlx, hint := .none, reach := 2, dev := none, pa := 2 ^ 42, size := 4, key := 0,
    stable := false, secAgent := false, asid := 1, launch := 1, va := 0, queued := false, performed := false, sent := some 0, limit := 6400, lost := false,
    need := 0, hop := none, out := true }
def stA (k : AKind) : State := pack (fun s => { s with accs := [acc1 k], nextId := 4 }) wp1
def kinds : List AKind := [.load [.v 4] .raw 7, .store [1, 2, 3, 4] (List.replicate 4 false), .atomic .add false false true false (some (.v 4))
  [⟨0, 2 ^ 42, 1, 0, false, .int, (.i32, .i32), 2, 0, false⟩]]
theorem plain1 (k : AKind) : Plain (stA k) 0 4 :=
  ⟨by decide, ⟨by decide, rfl⟩, fun j hj c hc => (by
    have h : (st1.die j).dc = [] := (by decide : ∀ i < 8, (st1.die i).dc = []) j hj
    rw [show (stA k).die j = st1.die j from rfl, h] at hc
    cases hc), rfl, fun _ _ => rfl⟩
theorem meets_access (k : AKind) (h : (stA k).crossed (acc1 k) = true) : Sole (stA k) (acc1 k) ⟨0, 0, 0⟩ wp1 ∧ (acc1 k).here (stA k) ⟨0, 0, 0⟩ 0 ∧
    Uncached (stA k) 0 (2 ^ 42) 0 :=
  ⟨⟨rfl, rfl, ⟨rfl, rfl⟩, rfl, rfl, alone_of rfl, (by decide : 0 < st1.cores.length), (by decide : [0].Nodup ∧ ∀ l ∈ [0], l < 128),
      (by decide : st1.barriersOn 0 = [])⟩,
    ⟨rfl, (by decide : linOf (2 ^ 42) = some 0), rfl, plain1 k, h⟩,
    ⟨rfl, (by decide : mget? (st1.die (dieOf 0)).dc (2 ^ 42 / 128) = none ∧ mget? (st1.die (dieOf 0)).dc (intOf 0 / 128) = none),
      (by decide : (st1.die (dieOf 0)).dc.length < 524288)⟩⟩
theorem meets_accesses_crossed : ∀ k ∈ kinds, (stA k).crossed (acc1 k) = true := by decide

-- PageEvents: a walk that finds a leaf; a request for its page, with its access
def stP : State := pack (fun s => { tables s with accs := [{ acc1 .pagein with reach := 0 }] }) wp1
def pagein1 : PageIn := ⟨3, 1, 0, .none, false, false, ⟨0, 0, 0⟩⟩
theorem meets_walk : (tables st1).ctl.alive = true ∧ (∀ m ∈ (tables st1).walks, m.ticket ≠ (tables st1).ticket) ∧
    ((tables st1).walk 1 0).2 = .leaf ⟨1, 0, 0, .page, 0x34D⟩ (3 * 2 ^ 36 + 0x3000) := by decide

-- BaleEvents: a wait that has lasted 2,048 cycles
def wpB : Warp := { wp1 with bwait := some ⟨0, 0x1000, .yield h7, 5000⟩ }
theorem meets_wait : ((pack (fun s => s.setCore 0 fun k => { k with cycles := 2048 }) wpB).core 0).ctx.warps = [(0, wpB)] ∧
    risingFrom 0 ((pack id wpB).core 0).ctx.warps = true ∧ (0 : Nat) ∉ (pack id wpB).ctl.alarmOn ∧ (pack id wpB).rows.length = 4 := by decide

-- SchedulerEvents: a packet of one thread that is a queue's oldest and may start; a range that has a place; a launch that is over
def pkt1 : List Byte := [0, 0x10] ++ List.replicate 14 0 ++ [1] ++ List.replicate 7 0 ++ [8] ++ List.replicate 39 0
def wait1 : Waiting := ⟨pkt1, 0, false, 0, 0, 0, 0, false, true, 0⟩
def queue1 : Queue := { en := true, asid := 1, lastst := 0, refused := 0, nextSeq := 1, waiting := [wait1], compSeq := 0, compFcode := 0, compStatus := 0 }
def stS : State := pack (fun s => s.setCtl fun k => { k with queues := [(0, queue1)], cpart := (upFrom 0 64).map fun c => (c, true, 0) }) wp1
theorem meets_appends : stS.ctl.alive = true ∧ stS.ctl.boot = .ready ∧ (stS.ctl.queueOf 0).en = true ∧ lpktOk pkt1 = true ∧ (stS.ctl.queueOf 0).waiting = [wait1] ∧
    (lpktOf pkt1).dep0 = 0 ∧ (lpktOf pkt1).dep1 = 0 := by decide
theorem meets_starts : stS.ranked = [(0, 0, wait1)] ∧ (∀ l ∈ stS.launches, l.2.waitingPart = []) ∧
    (∀ q ∈ stS.ctl.queues, ∀ w ∈ q.2.waiting, w.order < 2 ^ 64) := by decide
def stE (e : Option (LStat × Nat)) : State := { State.reset with launches := [(1, { la1 with live := 0, ended := e })] }
theorem meets_launch_end : (stE none).launch? 1 = some { la1 with live := 0, ended := none } ∧ (stE (some (.ok, 0))).quiet 1 = true ∧
    ∀ k < 8, ∀ x ∈ ((stE (some (.ok, 0))).die k).dc, x.2.launches.contains 1 = false := by decide

-- ContextEvents: a core that is asked for another partition, with no warp and a free twin, and the partition's save region
def stX : State := { State.reset with ctl := { Control.reset with saves := [(0, ⟨16, 0, false, true⟩), (1, ⟨32, 0, false, true⟩)], boot := .ready } } |>.setCore 0 fun k =>
  { k with preempt := some none }
theorem meets_contexts : (stX.core 0).preempt ≠ none ∧ (stX.core 0).allStopped = true ∧ (stX.saveOf 1).v = true ∧ stX.ctl.alive = true ∧ (stX.core 0).twin = .free ∧
    mget? (stX.core 0).saved 1 = none ∧ State.reset.ctl.images.length = 2 ∧ ∃ i ∈ State.reset.ctl.images, i.valid = true :=
  ⟨by decide, by decide, by decide, by decide, by decide, by decide, by decide, imageReset, by decide, by decide⟩

-- FailureEvents: every part of the package works; a snapshot of two units whose program's instance runs
def stF : State := (State.reset.setStack 0 fun t => { t with frozen := [0, 1], snapSt := .copying, snapDst := 2 ^ 42 + 2 ^ 36 }).setScore 0 fun k =>
  { k with run := some { inS with serve := some .snapshot } }
theorem meets_failures : (State.reset.die 0).st = .up ∧ (State.reset.stack 0).alive = true ∧ State.reset.ctl.alive = true ∧ State.reset.cores.length = 64 ∧
    State.reset.dies.length = 8 ∧ State.reset.stks.length = 16 ∧ State.reset.scores.length = 64 ∧ (stF.stack 0).frozen = [0, 1] ∧ stF.snapRuns 0 = true ∧
    (stF.stack 0).snapDst.toNat = 2 ^ 42 + 2 ^ 36 ∧ st1.warp? 0 0 ≠ none := by decide

-- LinkEvents: a path that is up, with a flit to send, one unacknowledged, one asked for again, and a pending switch
def body1 : FlitBody := ⟨1, true, 0, false, false, 1, 0, 0, 0⟩
def path1 : Path := { Path.reset with st := .up, outLanes := 3, inLanes := 3, queue := [(body1, 64)], buffer := [⟨0, body1, 0⟩], nextSeq := 1, keyReady := true, rxKey := true }
def stO (p : Path) : State := State.reset.setPath 0 0 fun _ => p
def flit1 : Flit := ⟨false, 0, 0, false, false, 0, true, 0, body1⟩
theorem meets_links : (stO path1).path 0 0 = path1 ∧ ((stO path1).stack 0).paths.length = 32 ∧ (stO { path1 with resend := [0] }).path 0 0 = { path1 with resend := [0] } ∧
    (flit1.intact = true ∧ flit1.zero = 0 ∧ flit1.counter = path1.rxCounter ∧ flit1.phase = path1.rxPhase ∧ flit1.seq = path1.rxNext) ∧
    ((stO path1).stack 0).laneen.length = 6 ∧ ((stO path1).stack 0).laserHi = .on := by decide
def acl1 (s : State) : State := { s with ctl := { s.ctl with boot := .ready, acl := [(0, 0x8001020000000000)] } }
def pk1 : Packet := ⟨0xFFF, 1, 0, false, true, 2 ^ 42, 0, .read 8⟩
theorem meets_inbound : (acl1 State.reset).localDev pk1.dst = true ∧ (∃ a ∈ (acl1 State.reset).ctl.acl, a.2.getLsbD 63 = true ∧ a.2.getLsbD 40 = false ∧
    a.2.toNat / 2 ^ 48 % 2 ^ 12 = pk1.src ∧ a.2.getLsbD 41 = true) ∧ regionFault pk1.pa 8 false false = none ∧ linOf pk1.pa = some 0 :=
  ⟨by decide, ⟨_, List.mem_singleton_self _, by decide⟩, by decide, by decide⟩

-- HostMessages: the mailbox with a GET_STATUS, of a package that is READY with its host bridge
def mbox1 (s : State) : State := { s with ctl := { s.ctl with boot := .ready, bridge := true, mbox := ⟨1 :: List.replicate 255 0, List.replicate 256 0, false, false⟩ } }
theorem meets_messages : headerOk (mbox1 State.reset).ctl.mbox.req = true ∧ (mbox1 State.reset).ctl.mbox.req.length = 256 ∧ (mbox1 State.reset).ctl.alive = true ∧
    (mbox1 State.reset).ctl.boot = .ready ∧ (mbox1 State.reset).ctl.bridge = true ∧ numOf ((mbox1 State.reset).ctl.mbox.req.take 2) = 1 :=
  ⟨by decide, show (1 :: List.replicate 255 0 : List Byte).length = 256 by rw [List.length_cons, List.length_replicate], by decide, by decide, by decide, by decide⟩

-- StepRuns: the word of R120 stands at 0x1000, which a walk of the tables gives to a fetch
def iadd0 : Nat := 0b0111 * 2 ^ 53 + 0x020 * 2 ^ 44 + 6 * 2 ^ 34 + 7 * 2 ^ 24 + 8 * 2 ^ 14 + 0x50
def code1 : List Host.Cell :=
  (bytesAs 8 iadd0).zipIdx.filterMap (fun p => if p.1 = 0 then none else some ⟨2 ^ 36 + p.2, p.1⟩) ++ [⟨2 ^ 36 + 0x1000, 1⟩, ⟨2 ^ 36 + 0x1004, 0x20⟩,
    ⟨2 ^ 37 + 0x2000, 1⟩, ⟨2 ^ 37 + 0x2004, 0x30⟩, ⟨3 * 2 ^ 36 + 0x3000, 0x5D⟩, ⟨3 * 2 ^ 36 + 0x3001, 3⟩]
def stW : State := { tables st1 with agenda := [.word 0 0], turn := .idle, mem := code1 }
theorem meets_step : stW.warp? 0 0 = some wp1 ∧ wp1.issuePc = some 0x1000 ∧ (State.translate { stW with agenda := [] } (.engine 0) 1 0x1000 .fetch false).2 = .ok 0x35D 0x1000 ∧
    linOf 0x1000 = some (2 ^ 36) ∧ decodeQuatin (BitVec.ofNat 64 (numOf ((upFrom (2 ^ 36) 8).map stW.byteAt))) = .ok (.iadd h7 (.v 6) (.v 7) (.v 8) .i16x2 false true) := by
  decide

-- StepKeeps: what every step keeps holds after reset
theorem reset_kept : State.reset.memOk = true ∧ State.reset.whole = true := by decide

end Sys2Proof.Tests
end

section
/-! Every operation of the model keeps the canonical form of memory and the parts of the package (R11, R18): `Keeps.<f>` says it of
the operation `f`, from a state `s` that the state `b` leads to with both kept. The proofs follow the definitions: a leaf names the
operations that the definition chains, outermost last; `put` is a record update that keeps the number of every unit, `cond` an `if`,
`foldl` a fold, and `eq ‹_›` the state of a pair that a `match` has taken apart. Memory is written by `homePut` alone. -/

namespace Sys2Proof.Machine

set_option autoImplicit true
-- seven hundred short proofs, one after another: a thread for each would not fit the memory limit
set_option Elab.async false

/-! ### Closure -/

theorem KeepsP.eq {β : Type} {b s : State} {p : State × β} {r : β} (h : KeepsP b p) (e : p = (s, r)) : Keeps b s := .ofEq e h
theorem KeepsO.eq {b s : State} {o : Option State} (h : KeepsO b o) (e : o = .some s) : Keeps b s := h s e
theorem Keeps.cond {b s t : State} {c : Prop} [Decidable c] (h : Keeps b s) (g : Keeps b t) :
    Keeps b (if c then s else t) :=
  .ite (fun _ => h) fun _ => g
theorem KeepsP.cond {β : Type} {b : State} {s t : State × β} {c : Prop} [Decidable c] (h : KeepsP b s) (g : KeepsP b t) :
    KeepsP b (if c then s else t) :=
  .ite (fun _ => h) fun _ => g
theorem KeepsE.cond {b : State} {s t : Eff} {c : Prop} [Decidable c] (h : KeepsE b s) (g : KeepsE b t) :
    KeepsE b (if c then s else t) :=
  .ite (fun _ => h) fun _ => g
theorem KeepsO.cond {b : State} {s t : Option State} {c : Prop} [Decidable c] (h : KeepsO b s) (g : KeepsO b t) :
    KeepsO b (if c then s else t) :=
  .ite (fun _ => h) fun _ => g
theorem KeepsX.cond {b : State} {s t : Out} {c : Prop} [Decidable c] (h : KeepsX b s) (g : KeepsX b t) :
    KeepsX b (if c then s else t) :=
  .ite (fun _ => h) fun _ => g
theorem KeepsC.cond {b : State} {s t : CRes} {c : Prop} [Decidable c] (h : KeepsC b s) (g : KeepsC b t) :
    KeepsC b (if c then s else t) :=
  .ite (fun _ => h) fun _ => g
theorem Keeps.foldl {α : Type} {b s : State} {f : State → α → State} {l : List α} (h : Keeps b s) (hf : ∀ s x, Keeps b s → Keeps b (f s x)) :
    Keeps b (l.foldl f s) :=
  .fold hf h
theorem KeepsP.foldl {α β : Type} {b : State} {p : State × β} {f : State × β → α → State × β} {l : List α} (h : KeepsP b p)
    (hf : ∀ q x, KeepsP b q → KeepsP b (f q x)) : KeepsP b (l.foldl f p) := .fold (fun _ _ x h => hf _ x h) h
theorem Keeps.put {b x : State} {mk : List Nat} {gp : List Gap} {c : List Core} {d : List Die} {k : List Stack}
    {r : List RowRing} {n : List SCore} {ctl : Control} {l : List (Nat × Launch)} {nl : Nat} {a : List Acc}
    {co : List CollCmd} {pr : List PenRel} {ag : List Todo} {tu : Turn} {cl ni st ti : Nat} {wl : Bool}
    {wm : List WalkMemo} {pp : List (Nat × Nat)} {y : Yard} (h : Keeps b x)
    (hc : c.length = x.cores.length := by simp) (hd : d.length = x.dies.length := by simp) (hk : k.length = x.stks.length := by simp)
    (hr : r.length = x.rows.length := by simp) (hn : n.length = x.scores.length := by simp) :
    Keeps b ⟨x.mem, mk, gp, c, d, k, r, n, ctl, l, nl, a, co, pr, ag, tu, cl, ni, st, ti, wl, wm, pp, y⟩ := h.upd hc hd hk hr hn

/-! ### Parts of the state and memory -/

theorem Keeps.setCore (h : Keeps b s) : Keeps b (s.setCore c f) := h.put

theorem Keeps.setDie (h : Keeps b s) : Keeps b (s.setDie k f) := h.put

theorem Keeps.setStack (h : Keeps b s) : Keeps b (s.setStack k f) := h.put

theorem Keeps.setScore (h : Keeps b s) : Keeps b (s.setScore n f) := h.put

theorem Keeps.setCtl (h : Keeps b s) : Keeps b (s.setCtl f) := h.put

theorem Keeps.setAsid (h : Keeps b s) : Keeps b (s.setAsid a f) := h.setCtl

theorem Keeps.homePut (h : Keeps b s) : Keeps b (s.homePut lin slot bs pois) := by
  refine ⟨fun hb => homePut_memOk s lin slot bs pois (h.mem hb), fun hb => ?_⟩
  rw [State.whole_of_eq (s := s)]
  · exact h.whole hb
  all_goals simp only [State.homePut]; split <;> simp

theorem Keeps.event (h : Keeps b s) : Keeps b (s.event typ code part ukind unit ticks addr detail) := by
  dsimp only [State.event]
  exact h.setCtl

theorem Keeps.stackUncorr (h : Keeps b s) : Keeps b (s.stackUncorr k) := h.setStack

theorem Keeps.atomFail (h : Keeps b s) : Keeps b (s.atomFail lin) := h.stackUncorr.put

theorem Keeps.snapFail (h : Keeps b s) : Keeps b (s.snapFail k) := h.setStack.event

theorem Keeps.snapDone (h : Keeps b s) : Keeps b (s.snapDone k u) := h.setStack.event.cond h.setStack

theorem Keeps.snapOne (h : Keeps b s) (hwr : ∀ s p bs ms, Keeps b s → Keeps b (wr s p bs ms)) : Keeps b (State.snapOne wr s k u) := by
  dsimp only [State.snapOne]
  refine .cond ?_ (h.snapFail.cond h.snapDone)
  split
  exacts [h.snapFail, (h.foldl fun _ _ h' => hwr _ _ _ _ h').snapDone.cond h.snapFail]

theorem Keeps.homeWriteF (h : Keeps b s) : Keeps b (State.homeWriteF fuel s lin slot bs pois) := by
  induction fuel generalizing s lin slot bs pois with
  | zero => exact h.homePut
  | succ n ih => exact h.homePut.cond (h.snapOne fun _ _ _ _ h' => ih h').homePut

theorem Keeps.homeWrite (h : Keeps b s) : Keeps b (s.homeWrite lin slot bs pois) := h.homeWriteF

theorem Keeps.writeBack (h : Keeps b s) : Keeps b (s.writeBack line c) := by
  dsimp only [State.writeBack]
  split
  exacts [h, h.cond (h.homeWrite.cond (h.foldl fun _ _ h2 => h2.homeWrite.cond h2))]

theorem Keeps.recallLine (h : Keeps b s) : Keeps b (s.recallLine k line) := by
  dsimp only [State.recallLine]
  split
  exacts [h, h.writeBack.setDie.cond h]

theorem Keeps.recallAll (h : Keeps b s) : Keeps b (s.recallAll line but) := h.foldl fun _ _ h1 => h1.cond h1.recallLine

theorem Keeps.recallLin (h : Keeps b s) : Keeps b (s.recallLin lin but) := h.recallAll

theorem Keeps.readHome (h : Keeps b s) : KeepsP b (s.readHome lin n slot but) := .mk h.recallLin

theorem Keeps.writeHome (h : Keeps b s) : Keeps b (s.writeHome lin slot bs pois but) := h.recallLin.homeWrite

/-! ### Translation -/

theorem Keeps.readPte (h : Keeps b s) : KeepsP b (s.readPte frame i) := by
  dsimp only [State.readPte]
  split
  exacts [.mk h, KeepsP.cond (.mk h) (KeepsP.cond (.mk h.readHome.fst.stackUncorr) (.mk h.readHome.fst))]

theorem Keeps.walk3 (h : Keeps b s) : KeepsP b (s.walk3 asid gen frame va) := by
  dsimp only [State.walk3]
  split
  · exact .mk (h.readPte.eq ‹_›)
  · have h2 := h.readPte.eq ‹_›
    refine KeepsP.cond (.mk h2) (KeepsP.cond (.mk h2) (KeepsP.cond (KeepsP.cond (.mk h2) (.mk h2)) ?_))
    split
    · exact .mk (h2.readPte.eq ‹_›)
    · have h4 := h2.readPte.eq ‹_›
      exact KeepsP.cond (.mk h4) (.mk h4)

theorem Keeps.walk (h : Keeps b s) : KeepsP b (s.walk asid va) := by
  dsimp only [State.walk]
  split
  · exact .mk (h.readPte.eq ‹_›)
  · have h2 := h.readPte.eq ‹_›
    refine KeepsP.cond (.mk h2) (KeepsP.cond (.mk h2) ?_)
    split
    · exact .mk (h2.readPte.eq ‹_›)
    · have h4 := h2.readPte.eq ‹_›
      exact KeepsP.cond (.mk h4) (KeepsP.cond (KeepsP.cond (.mk h4) (.mk h4)) (KeepsP.cond (.mk h4) h4.walk3))

theorem Keeps.setThread (h : Keeps b s) : Keeps b (s.setThread t f) := h.setCore

theorem Keeps.xlInstall (h : Keeps b s) : Keeps b (s.xlInstall v x) := by
  dsimp only [State.xlInstall]
  split
  exacts [h.setCore.setDie, h.setCore.setDie, h.setScore, h]

theorem Keeps.xlTouch (h : Keeps b s) : Keeps b (s.xlTouch v x) := by
  dsimp only [State.xlTouch]
  split
  exacts [h.setThread, h]

theorem Keeps.walkOnce (h : Keeps b s) : KeepsP b (s.walkOnce asid va) := by
  dsimp only [State.walkOnce]
  split
  exacts [.mk h, .mk h.walk.fst.put]

theorem Keeps.xlWalk (h : Keeps b s) : KeepsP b (s.xlWalk v asid va k sec) := by
  dsimp only [State.xlWalk]
  refine KeepsP.cond (.mk h.put) ?_
  split
  · exact .mk (h.walkOnce.eq ‹_›)
  · exact .mk (h.walkOnce.eq ‹_›)
  · have h2 := h.walkOnce.eq ‹_›
    exact KeepsP.cond (.mk h2) (KeepsP.cond (.mk h2) (.mk (h2.cond h2.writeHome).xlInstall.xlTouch))

theorem Keeps.translate (h : Keeps b s) : KeepsP b (s.translate v asid va k sec) := by
  dsimp only [State.translate]
  refine KeepsP.cond (.mk h) ?_
  split
  exacts [h.xlWalk, KeepsP.cond h.xlWalk (KeepsP.cond (.mk h) (KeepsP.cond (.mk h.xlTouch) h.xlWalk))]

/-! ### System registers -/

theorem Keeps.endParts (h : Keeps b s) : Keeps b (s.endParts old) := h.cond h.put

theorem Keeps.applyRegulator (h : Keeps b s) : Keeps b (s.applyRegulator c) := h.setCore.cond h

theorem Keeps.postRaise (h : Keeps b s) : Keeps b (s.postRaise asid) := h.setCtl.put

theorem Keeps.writeAsid (h : Keeps b s) : Keeps b (s.writeAsid a root sec v) := h.setAsid.postRaise.cond h.setAsid

theorem Keeps.writeQueue (h : Keeps b s) : Keeps b (s.writeQueue n en asid) := h.setCtl

theorem Keeps.regWriteCtl (h : Keeps b s) : Keeps b (s.regWriteCtl b' off v) := by
  dsimp only [State.regWriteCtl]
  split
  · exact h.setStack.cond (h.setStack.cond (h.setStack.cond (h.setStack.cond h)))
  · refine h.setDie.cond (h.setDie.cond (h.setDie.cond (h.setDie.cond (h.setDie.cond (Keeps.cond ?_ h)))))
    split
    exacts [h.setCore, h.setCore, h.setCore, h]
  · exact (h.setCtl.foldl fun _ _ h1 => h1.applyRegulator).cond ((h.setCtl.foldl fun _ _ h1 => h1.applyRegulator).cond
      (h.writeAsid.cond (h.setCtl.cond (h.writeQueue.cond (h.setCtl.cond (h.setAsid.cond
      (h.setCtl.cond (h.setCtl.cond (h.setCtl.cond ((h.cond h.setCtl.setCore.endParts).cond h))))))))))

theorem Keeps.startServe (h : Keeps b s) : Keeps b (s.startServe k i) := by
  dsimp only [State.startServe]
  split
  exacts [h.setScore.put, h]

theorem Keeps.snapOpen (h : Keeps b s) : Keeps b (s.snapOpen k) := h.cond (h.setStack.event.cond h.setStack.startServe)

theorem Keeps.mboxWrite (h : Keeps b s) : Keeps b (s.mboxWrite off v) :=
  h.setCtl.cond (((h.setCtl.cond h).put.cond (h.setCtl.cond h)).cond h)

theorem Keeps.regWriteThread (h : Keeps b s) : Keeps b (s.regWriteThread b' off v) := by
  dsimp only [State.regWriteThread]
  split
  exacts [h.mboxWrite, h]

theorem Keeps.regWriteScore (h : Keeps b s) : Keeps b (s.regWriteScore b' off v) := by
  dsimp only [State.regWriteScore]
  split
  exacts [(h.setStack.snapOpen.cond h.setStack).cond (h.setStack.cond (h.setStack.cond h)), h.mboxWrite, h]

theorem Keeps.setPath (h : Keeps b s) : Keeps b (s.setPath k p f) := h.setStack

theorem Keeps.enqueue (h : Keeps b s) : Keeps b (s.enqueue k p fs) := h.setPath

theorem Keeps.sendTo (h : Keeps b s) : KeepsP b (s.sendTo k dev fs fixed) := by
  dsimp only [State.sendTo]
  split
  · exact .mk h.enqueue
  · split
    exacts [.mk h, .mk h.setStack.enqueue]

theorem Keeps.sendMgmt (h : Keeps b s) : Keeps b (s.sendMgmt k dev fs) := by
  dsimp only [State.sendMgmt]
  refine h.enqueue.cond ?_
  split
  exacts [h.setStack.enqueue, h.setCtl]

theorem Keeps.retryMgmt (h : Keeps b s) : Keeps b s.retryMgmt := by
  dsimp only [State.retryMgmt]
  refine h.setCtl.foldl fun _ _ h1 => ?_
  split
  exacts [h1, h1.sendMgmt]

/-! ### Warps, threads and registers -/

theorem Keeps.setWarp (h : Keeps b s) : Keeps b (s.setWarp c w f) := h.setCore

theorem Keeps.setCtx (h : Keeps b s) : Keeps b (s.setCtx c f) := h.setCore

theorem Keeps.poison (h : Keeps b s) : Keeps b (s.poison c n) := h.cond h.setCore

theorem Keeps.setLaunch (h : Keeps b s) : Keeps b (s.setLaunch l f) := h.put

theorem Keeps.post (h : Keeps b s) : Keeps b (s.post e) := h.put

theorem Keeps.endLaunch (h : Keeps b s) : Keeps b (s.endLaunch l st fcode) := by
  dsimp only [State.endLaunch]
  split
  exacts [h, h.cond h.setLaunch.post]

theorem Keeps.setView (h : Keeps b s) : Keeps b (s.setView c l f) := h.setCtx

theorem Keeps.fresh (h : Keeps b s) : Keeps b s.fresh := h.put

theorem Keeps.tickStamp (h : Keeps b s) : Keeps b s.tickStamp := h.put

theorem Keeps.wake (h : Keeps b s) : Keeps b (s.wake t) := h.setWarp

theorem Keeps.putRegs (h : Keeps b s) : Keeps b (s.putRegs x lat vals) := by
  dsimp only [State.putRegs]
  split
  exacts [h.setWarp, h.cond h.setWarp.fresh]

theorem Keeps.pushAcc (h : Keeps b s) : Keeps b (s.pushAcc a) := h.put

theorem Keeps.pushStore (h : Keeps b s) : Keeps b (s.pushStore t a) := h.pushAcc.setWarp

theorem Keeps.breakRun (h : Keeps b s) : Keeps b (s.breakRun c w) := h.setWarp.setCore

theorem Keeps.takeFault (h : Keeps b s) : Keeps b (s.takeFault t pc f) := by
  dsimp only [State.takeFault]
  split
  · exact h
  · split
    · exact h
    · refine h.setThread.endLaunch.cond (h.setThread.endLaunch.cond (h.setThread.setThread.cond ?_))
      split
      · have h4 := h.setThread.translate.eq ‹_›
        exact h4.endLaunch.cond h4.pushStore.pushStore.pushStore.pushStore.setThread
      · exact (h.setThread.translate.eq ‹_›).endLaunch

theorem Keeps.returnFault (h : Keeps b s) : Keeps b (s.returnFault t next) := h.setThread

theorem Keeps.takeFaults (h : Keeps b s) : Keeps b (s.takeFaults x lanes f) := h.foldl fun _ _ h1 => h1.takeFault

theorem Keeps.spend (h : Keeps b s) : Keeps b (s.spend c f) := h.setDie

theorem Keeps.pay (h : Keeps b s) : Keeps b (s.pay c p price) := by
  dsimp only [State.pay]
  split
  exacts [h.spend.setCore, h.setCore.cond h.spend.setCore]

theorem Keeps.grant (h : Keeps b s) : Keeps b (s.grant c w price) := h.spend.setCore

theorem Keeps.ungrant (h : Keeps b s) : Keeps b (s.ungrant c) := h.cond h.spend.setCore

theorem Keeps.advance (h : Keeps b s) : Keeps b (s.advance x) := h.setWarp

theorem Keeps.finish (h : Keeps b s) : Keeps b (s.finish x hd e) := by
  dsimp only [State.finish]
  split
  exacts [h, h.setWarp.setCore]

/-! ### Results of the threads -/

theorem Keeps.commit (h : Keeps b s) : KeepsE b (s.commit x lat names rs) := by
  dsimp only [State.commit]
  refine .mk (h.putRegs.poison.foldl fun _ _ h1 => ?_)
  split
  exacts [h1.takeFault, h1]

theorem Keeps.perLane (h : Keeps b s) : KeepsE b (perLane lat names f x s) := h.commit

theorem Keeps.faultAll (h : Keeps b s) : KeepsE b (faultAll f x s) := .mk h.takeFaults

/-! ### The issue of a Quatin word -/

theorem Keeps.setGtable (h : Keeps b s) : Keeps b (s.setGtable hd f) := by
  dsimp only [State.setGtable]
  split
  exacts [h.setCtx, h.setDie, h.setCtl]

theorem Keeps.endBWait (h : Keeps b s) : Keeps b (s.endBWait c w) := h.setWarp.setCore

theorem Keeps.noteWait (h : Keeps b s) : Keeps b (s.noteWait c w pc i price) := by
  dsimp only [State.noteWait]
  split
  exacts [h.cond h.endBWait.setWarp, h.setWarp]

theorem Keeps.taintStep (h : Keeps b s) : Keeps b (s.taintStep x i hd) := h.cond h.setWarp

theorem Keeps.taintDst (h : Keeps b s) : Keeps b (s.taintDst x names ts) := h.cond h.setWarp

theorem Keeps.issueAt (h : Keeps b s) (hbody : ∀ x0 s, Keeps b s → KeepsE b (body x0 s)) : Keeps b (s.issueAt i hd c w wp0 pc body) := by
  dsimp only [State.issueAt]
  refine h.setWarp.advance.takeFaults.finish.cond (h.setWarp.breakRun.cond (h.setWarp.advance.takeFaults.finish.cond
    (h.setWarp.breakRun.cond ?_)))
  split
  exacts [h.setWarp.advance.takeFaults.finish, (hbody _ _ h.setWarp.advance).s.taintStep.finish.cond
    (h.setWarp.breakRun.noteWait.cond (hbody _ _ h.setWarp.pay.advance).s.taintStep.finish)]

theorem Keeps.issue (h : Keeps b s) (hbody : ∀ x0 s, Keeps b s → KeepsE b (body x0 s)) : KeepsX b (issue i s body) := by
  dsimp only [Machine.issue]
  split
  · split
    · exact .fault
    · split
      exacts [.next h, .next (h.issueAt (fun _ _ h7 => hbody _ _ h7))]
  · exact .fault

/-! ### Integer instructions -/

theorem Keeps.op2 (h : Keeps b s) : KeepsE b (op2 lat d tags tag oa ob f a s) := h.perLane

theorem Keeps.op1 (h : Keeps b s) : KeepsE b (op1 lat d tags tag oa f a s) := h.perLane

theorem Keeps.elemArith (h : Keeps b s) : KeepsE b (elemArith d oa ob e u sat f a s) := h.op2

theorem Keeps.bitwise (h : Keeps b s) : KeepsE b (bitwise d oa ob f a s) := h.op2

theorem Keeps.execRdspec (h : Keeps b s) : KeepsX b (execRdspec hd d r s) := by
  dsimp only [Machine.execRdspec]
  refine h.issue (fun _ _ h2 => KeepsE.cond ?_ h2.perLane)
  split
  exacts [h2, KeepsE.cond h2 (.go h2.setWarp.fresh)]

theorem Keeps.execWrspec (h : Keeps b s) : KeepsX b (execWrspec hd r a s) := by
  dsimp only [Machine.execWrspec]
  refine h.issue (fun _ _ h2 => Keeps.commit ?_)
  split
  exacts [((h2.setWarp.cond h2).foldl fun _ _ h4 => h4.setThread).setWarp, (h2.setWarp.cond h2).foldl fun _ _ h3 => h3.setThread]

/-! ### Floating point -/

theorem Keeps.f32op2 (h : Keeps b s) : KeepsE b (f32op2 d oa ob r ftz sat f a s) := h.op2

theorem Keeps.minMax (h : Keeps b s) : KeepsE b (minMax d a c f mx ftz x s) := by
  dsimp only [Machine.minMax]
  split <;> exact h.perLane

theorem Keeps.f32un (h : Keeps b s) : KeepsE b (f32un lat d a f a' s) := h.op1

theorem Keeps.packed (h : Keeps b s) : KeepsE b (packed d srcs r ftz sat f a s) := h.perLane

theorem Keeps.f64op (h : Keeps b s) : KeepsE b (f64op d srcs r ftz f a s) := h.perLane

/-! ### Groups, barriers and pens -/

theorem Keeps.mapCtxs (h : Keeps b s) : Keeps b (s.mapCtxs c f) := h.setCore

theorem Keeps.modWarp (h : Keeps b s) : Keeps b (s.modWarp c w launch f) := h.mapCtxs

theorem Keeps.modThread (h : Keeps b s) : Keeps b (s.modThread t launch f) := h.modWarp

theorem Keeps.modView (h : Keeps b s) : Keeps b (s.modView c l f) := h.mapCtxs

theorem Keeps.wakeAny (h : Keeps b s) : Keeps b (s.wakeAny t launch resident) := h.wake.cond h.modThread

theorem Keeps.publish (h : Keeps b s) : Keeps b (s.publish die place size a) := h.setDie

theorem Keeps.unpublish (h : Keeps b s) : Keeps b (s.unpublish place size) := h.foldl fun _ _ h1 => h1.publish

theorem Keeps.holdReleased (h : Keeps b s) : Keeps b (s.holdReleased k ths) := (h.foldl fun _ _ h1 => h1.setWarp).setDie.post.cond h

theorem Keeps.releaseThreads (h : Keeps b s) : Keeps b (s.releaseThreads launch hd ts) :=
  (h.tickStamp.foldl fun _ _ h2 => h2.modThread.wakeAny).foldl fun _ _ h2 => h2.holdReleased

theorem Keeps.tryBarrier (h : Keeps b s) : Keeps b (s.tryBarrier launch hd) :=
  h.cond (h.releaseThreads.cond ((h.foldl fun _ _ h2 => h2.modThread).foldl fun _ _ h2 => h2.post))

theorem Keeps.execWideBarrierCompletion (h : Keeps b s) : KeepsX b (execWideBarrierCompletion launch index die s) := .next h.releaseThreads

theorem Keeps.tryBarriers (h : Keeps b s) : Keeps b (s.tryBarriers launch hs) := h.foldl fun _ _ h2 => h2.tryBarrier

theorem Keeps.dissolve (h : Keeps b s) : Keeps b (s.dissolve launch hd) := h.setGtable.foldl fun _ _ h2 => h2.modView.mapCtxs

theorem Keeps.leaveGroup (h : Keeps b s) : Keeps b (s.leaveGroup t launch hd) :=
  h.modThread.cond (h.modThread.tryBarrier.cond h.modThread.dissolve)

theorem Keeps.exitThread (h : Keeps b s) : Keeps b (s.exitThread t launch) := by
  dsimp only [State.exitThread]
  split
  exacts [h, (h.setThread.foldl fun _ _ h2 => h2.leaveGroup).setThread.tryBarrier]

theorem Keeps.once (h : Keeps b s) (hf : ∀ x0 x1 s, Keeps b s → KeepsE b (f x0 x1 s)) : KeepsE b (once names ops f x s) := by
  dsimp only [Machine.once]
  refine KeepsE.cond h ?_
  split
  exacts [.go h.commit.s.poison, h.faultAll, hf _ _ _ h]

theorem Keeps.giveAll (h : Keeps b s) : KeepsE b (s.giveAll x names v) := h.commit

theorem Keeps.addGroup (h : Keeps b s) : Keeps b (s.addGroup x hd) := h.foldl fun _ _ h2 => h2.setThread

theorem Keeps.joinOld (h : Keeps b s) : KeepsP b (s.joinOld x g r hd) := KeepsP.cond (.mk h) (KeepsP.cond (.mk h) (.mk h.addGroup))

theorem Keeps.joinNew (h : Keeps b s) : KeepsP b (s.joinNew x ident c r i) := KeepsP.cond (.mk h) (.mk h.setGtable.addGroup)

theorem Keeps.join (h : Keeps b s) : KeepsP b (s.join x ident c r) := by
  dsimp only [State.join]
  refine KeepsP.cond (KeepsP.cond (.mk h.addGroup) (.mk h)) ?_
  split
  · exact h.joinOld
  · split
    exacts [.mk h, h.joinNew]

theorem Keeps.waitAll (h : Keeps b s) : Keeps b (s.waitAll x st) := h.foldl fun _ _ h1 => h1.setThread

theorem Keeps.execMassReleaseAdmit (h : Keeps b s) : KeepsX b (execMassReleaseAdmit die s) := by
  dsimp only [Machine.execMassReleaseAdmit]
  refine KeepsX.cond (.next h) ?_
  split
  exacts [.next h, .next h.setCtx.setDie]

theorem Keeps.setPens (h : Keeps b s) : Keeps b (s.setPens core' launch die f) := h.setDie.cond h.modView

theorem Keeps.setPen (h : Keeps b s) : Keeps b (s.setPen core' launch n f) := h.setPens

theorem Keeps.servePen (h : Keeps b s) : Keeps b (s.servePen launch n w box) := by
  dsimp only [State.servePen]
  split
  · exact h.tickStamp.modWarp.foldl fun _ _ h1 => h1.modThread.wakeAny
  · split <;> exact h.mapCtxs.put.post

theorem Keeps.servePens (h : Keeps b s) : Keeps b (State.servePens fuel s c launch n) := by
  induction fuel generalizing s with
  | zero => exact h
  | succ k ih =>
    dsimp only [State.servePens]
    split
    · exact h
    · split
      · exact ih h.setPen.servePen
      · split
        exacts [h, ih h.setPen.servePen]

theorem Keeps.serve (h : Keeps b s) : Keeps b (s.serve core' launch n) := by
  dsimp only [State.serve]
  split
  exacts [h, h.servePens]

theorem Keeps.setBox (h : Keeps b s) : Keeps b (s.setBox core' launch n box fill pub) := h.setPen.serve

theorem Keeps.penOp (h : Keeps b s) (hf : ∀ x0 x1 x2 x3 s, Keeps b s → KeepsE b (f x0 x1 x2 x3 s)) : KeepsE b (penOp names ops init f a s)
    := by
  dsimp only [Machine.penOp]
  refine h.once (fun _ _ _ h2 => ?_)
  split
  exacts [h2.faultAll, hf _ _ _ _ _ h2]

theorem Keeps.penGrant (h : Keeps b s) : KeepsE b (penGrant take d x n p s) :=
  KeepsE.cond (h.tickStamp.setPen.foldl fun _ _ h1 => h1.setThread).serve.giveAll (.go h.fresh.setPen.setWarp.waitAll)

theorem Keeps.penRelease (h : Keeps b s) : KeepsE b (penRelease fill x n p vs s) := KeepsE.cond h.faultAll (.go h.setPen.put)

theorem Keeps.execPenBoxReleaseComplete (h : Keeps b s) : KeepsX b (execPenBoxReleaseComplete launch place pen box s) := by
  dsimp only [Machine.execPenBoxReleaseComplete]
  split
  exacts [.next h, KeepsX.cond (.next h) (.next h.put.setBox)]

theorem Keeps.penUsed (h : Keeps b s) : Keeps b (s.penUsed core' engine) := h.put

theorem Keeps.engineFree (h : Keeps b s) : KeepsO b (s.engineFree core' launch pen) := by
  dsimp only [State.engineFree]
  split
  · exact KeepsO.none
  · split
    exacts [KeepsO.none, KeepsO.cond KeepsO.none (KeepsO.some h.setBox)]

theorem Keeps.withdraw (h : Keeps b s) : Keeps b (s.withdraw t launch st) := by
  dsimp only [State.withdraw]
  split
  exacts [h.setPen.setWarp, h.setCtx, h.put, h]

theorem Keeps.execWatchdogExpiry (h : Keeps b s) : KeepsX b (execWatchdogExpiry t s) := by
  dsimp only [Machine.execWatchdogExpiry]
  split
  · refine KeepsX.cond (.next h) ?_
    split
    exacts [.next h.withdraw.wake.takeFault.tryBarrier, .next h.withdraw.wake.takeFault]
  · exact .next h

/-! ### Accesses in flight -/

theorem Keeps.dieRoom (h : Keeps b s) : Keeps b (s.dieRoom k line) := by
  dsimp only [State.dieRoom]
  refine h.cond ?_
  split
  exacts [h.writeBack.setDie, h]

theorem Keeps.l1Put (h : Keeps b s) : Keeps b (s.l1Put core' line c) := h.setCore

theorem Keeps.dieFill (h : Keeps b s) : KeepsP b (s.dieFill k line lin a keep) := by
  dsimp only [State.dieFill]
  refine .mk ((Keeps.setDie ?_).recallAll.tickStamp.dieRoom.setDie.cond (Keeps.setDie ?_).recallAll.tickStamp)
  · split
    exacts [h.writeBack, h]
  · split
    exacts [h.writeBack, h]

theorem Keeps.coreReadFor (h : Keeps b s) : KeepsP b (s.coreReadFor core' a lin acq) := by
  dsimp only [State.coreReadFor]
  split
  · exact .mk h.setCore
  · refine .mk (((KeepsP.fst ?_).tickStamp.cond (KeepsP.fst ?_)).l1Put.cond ((KeepsP.fst ?_).tickStamp.cond (KeepsP.fst ?_)))
    · split
      exacts [.mk h.setDie, h.dieFill]
    · split
      exacts [.mk h.setDie, h.dieFill]
    · split
      exacts [.mk h.setDie, h.dieFill]
    · split
      exacts [.mk h.setDie, h.dieFill]

theorem Keeps.coreRead (h : Keeps b s) : KeepsP b (s.coreRead core' a lin) := h.coreReadFor

theorem Keeps.readNow (h : Keeps b s) : KeepsP b (s.readNow a) := by
  dsimp only [State.readNow]
  split
  · exact .mk h
  · refine KeepsP.cond ?_ ?_
    · split <;> exact .mk h
    · split
      · exact .mk h
      · split
        exacts [.mk h.readHome.fst, KeepsP.cond (.mk h.coreRead.fst) (.mk h.tickStamp.readHome.fst)]

theorem Keeps.homeDiscard (h : Keeps b s) : Keeps b (s.homeDiscard lin) := by
  dsimp only [State.homeDiscard]
  refine (h.foldl fun _ _ h1 => ?_).put.homeWrite.put
  split
  exacts [h1.writeBack, h1]

theorem Keeps.homeFrom (h : Keeps b s) : Keeps b (s.homeFrom k lin key bs pois) := by
  dsimp only [State.homeFrom]
  split
  · exact h.writeHome
  · split
    exacts [h.setDie.cond h.writeHome, h.writeHome]

theorem Keeps.wrote (h : Keeps b s) : Keeps b (s.wrote a lane rmw) := by
  dsimp only [State.wrote]
  split
  exacts [h, h.cond h.publish]

theorem Keeps.shedWrite (h : Keeps b s) : Keeps b (s.shedWrite die shed off bs pois) := h.setDie

theorem Keeps.shedSync (h : Keeps b s) : Keeps b (s.shedSync die shed off f) := h.shedWrite

theorem Keeps.shedSyncAt (h : Keeps b s) : Keeps b (s.shedSyncAt place f) := h.shedSync

theorem Keeps.flushLine (h : Keeps b s) : Keeps b (s.flushLine k line) := by
  dsimp only [State.flushLine]
  split
  exacts [h, h.writeBack.setDie]

theorem Keeps.homeSync (h : Keeps b s) : Keeps b (s.homeSync lin key k f) := by
  dsimp only [State.homeSync]
  refine h.cond (Keeps.readHome ?_).fst.homeWrite
  split
  exacts [h.flushLine, h]

theorem Keeps.waitWord (h : Keeps b s) : KeepsP b (s.waitWord a) := by
  dsimp only [State.waitWord]
  split
  · exact .mk h
  · split
    · refine .mk (Keeps.readHome ?_).fst
      split
      exacts [h.flushLine, h]
    · exact .mk h

theorem Keeps.execSyncWordAdd (h : Keeps b s) : KeepsX b (execSyncWordAdd loc units s) := by
  dsimp only [Machine.execSyncWordAdd]
  refine .next ?_
  split
  exacts [h.shedSync, h.homeSync]

theorem Keeps.modLanes (h : Keeps b s) : Keeps b (s.modLanes a f) := by
  dsimp only [State.modLanes]
  split
  exacts [h.foldl fun _ _ h2 => h2.modThread, h]

theorem Keeps.failLanes (h : Keeps b s) : Keeps b (s.failLanes a lanes st) := by
  dsimp only [State.failLanes]
  split
  exacts [h.foldl fun _ _ h2 => h2.modThread, h]

theorem Keeps.failStore (h : Keeps b s) : Keeps b (s.failStore a st) := by
  dsimp only [State.failStore]
  split
  exacts [h.failLanes, h.setScore]

theorem Keeps.endFence (h : Keeps b s) : Keeps b (s.endFence f sys pd) := by
  dsimp only [State.endFence]
  split
  exacts [h.put.tickStamp.modThread.modWarp.cond h.put.tickStamp.modThread, h.put.tickStamp.setScore]

theorem Keeps.endFences (h : Keeps b s) : Keeps b s.endFences := by
  dsimp only [State.endFences]
  refine h.foldl fun _ _ h1 => ?_
  split
  exacts [h1.endFence.cond h1, h1]

theorem Keeps.depart (h : Keeps b s) : KeepsP b (s.depart a) := by
  dsimp only [State.depart]
  split
  exacts [.mk h, KeepsP.cond (.mk h) (.mk h.sendTo.fst)]

theorem Keeps.sendReady (h : Keeps b s) : Keeps b s.sendReady := h.foldl fun _ _ h1 => h1.cond h1.depart.fst.put

theorem Keeps.pruneReads (h : Keeps b s) : Keeps b s.pruneReads := h.put

theorem Keeps.landPends (h : Keeps b s) : Keeps b (s.landPends core' warp launch) := h.modWarp

theorem Keeps.retryBarriers (h : Keeps b s) : Keeps b (s.retryBarriers a) := by
  dsimp only [State.retryBarriers]
  split
  exacts [h, h.foldl fun _ _ h2 => h2.tryBarrier]

theorem Keeps.settle (h : Keeps b s) : Keeps b (s.settle a) := by
  dsimp only [State.settle]
  refine Keeps.retryBarriers ?_
  split
  exacts [h.pruneReads.endFences.sendReady.landPends, h.pruneReads.endFences.sendReady]

theorem Keeps.complete (h : Keeps b s) : Keeps b (s.complete a) := (h.put.cond h.put).settle

theorem Keeps.afterIssue (h : Keeps b s) : Keeps b (s.afterIssue core' warp launch) := h.endFences.sendReady.landPends

/-! ### The yard -/

theorem Keeps.inject (h : Keeps b s) : Keeps b (s.inject ch src dst acc n back) := by
  dsimp only [State.inject]
  split
  exacts [h, h.put]

theorem Keeps.yardCycle (h : Keeps b s) : Keeps b s.yardCycle := h.put.foldl fun _ _ h1 => h1.inject.cond h1

theorem Keeps.heartbeats (h : Keeps b s) : Keeps b s.heartbeats := (h.foldl fun _ _ h1 => h1.inject).cond h

theorem Keeps.mendYard (h : Keeps b s) : Keeps b s.mendYard := h.put

theorem Keeps.request (h : Keeps b s) : Keeps b (s.request a) := h.cond (h.foldl fun _ _ h1 => h1.inject).put

theorem Keeps.askAgain (h : Keeps b s) : Keeps b (s.askAgain id') := h.put

/-! ### Loads, stores and atomics -/

theorem Keeps.target (h : Keeps b s) : KeepsP b (s.target t asid va size k atomic') := by
  dsimp only [State.target]
  split
  · exact .mk (h.translate.eq ‹_›)
  · exact .mk (h.translate.eq ‹_›)
  · split <;> exact .mk (h.translate.eq ‹_›)

theorem Keeps.addrOf (h : Keeps b s) : KeepsP b (s.addrOf x a l off size k atomic') := by
  dsimp only [State.addrOf]
  split
  exacts [.mk h, .mk h, KeepsP.cond (.mk h) h.target]

theorem Keeps.memLanes (h : Keeps b s) (hf : ∀ x0 s x2, Keeps b s → KeepsP b (f x0 s x2)) : KeepsE b (memLanes names f x s) := by
  dsimp only [Machine.memLanes]
  refine .mk (((KeepsP.foldl (.mk h.fresh) fun _ _ h2 => .mk (hf _ _ _ h2.fst).fst).fst.cond
    (KeepsP.foldl (.mk h.fresh) fun _ _ h2 => .mk (hf _ _ _ h2.fst).fst).fst.setWarp).putRegs.poison.foldl fun _ _ h2 => ?_).afterIssue
  split
  exacts [h2.takeFault, h2]

theorem Keeps.execLd (h : Keeps b s) : KeepsX b (execLd hd d a hint c w t pr off s) := by
  dsimp only [Machine.execLd]
  refine h.issue (fun _ _ h3 => h3.memLanes (fun _ _ _ h4 => ?_))
  split
  exacts [.mk (h4.addrOf.eq ‹_›), .mk (h4.addrOf.eq ‹_›), .mk (h4.addrOf.eq ‹_›), .mk (h4.addrOf.eq ‹_›).pushAcc]

theorem Keeps.execLdw (h : Keeps b s) : KeepsX b (execLdw hd d a hint c w t pr off s) := by
  dsimp only [Machine.execLdw]
  refine h.issue (fun _ _ h3 => KeepsE.cond h3 ?_)
  split
  · exact (h3.fresh.addrOf.eq ‹_›).faultAll
  · exact .go (h3.fresh.addrOf.eq ‹_›).commit.s.putRegs.poison
  · exact .go (h3.fresh.addrOf.eq ‹_›).commit.s.putRegs
  · have h5 := h3.fresh.addrOf.eq ‹_›
    exact .go (h5.pushAcc.cond h5.pushAcc.setWarp).afterIssue

theorem Keeps.execSt (h : Keeps b s) : KeepsX b (execSt hd d a hint c w off s) := by
  dsimp only [Machine.execSt]
  refine h.issue (fun _ _ h3 => h3.memLanes (fun _ _ _ h4 => ?_))
  split
  exacts [.mk (h4.addrOf.eq ‹_›), .mk (h4.addrOf.eq ‹_›), .mk (h4.addrOf.eq ‹_›), .mk (h4.addrOf.eq ‹_›).pushStore]

theorem Keeps.prefetch (h : Keeps b s) : Keeps b (s.prefetch t asid va lvl) := by
  dsimp only [State.prefetch]
  split
  · have h2 := h.translate.eq ‹_›
    split
    · refine h2.cond ((KeepsP.fst ?_).cond (((KeepsP.fst ?_).tickStamp.cond (KeepsP.fst ?_)).l1Put.cond
        ((KeepsP.fst ?_).tickStamp.cond (KeepsP.fst ?_))))
      · split
        exacts [.mk h2, h2.dieFill]
      · split
        exacts [.mk h2, h2.dieFill]
      · split
        exacts [.mk h2, h2.dieFill]
      · split
        exacts [.mk h2, h2.dieFill]
      · split
        exacts [.mk h2, h2.dieFill]
    · exact h2
  · exact h.translate.eq ‹_›

theorem Keeps.execPref (h : Keeps b s) : KeepsX b (execPref hd a hint lvl off s) := by
  dsimp only [Machine.execPref]
  refine h.issue (fun _ _ h3 => h3.memLanes (fun _ _ _ h4 => ?_))
  split
  exacts [.mk h4, .mk h4, .mk h4.prefetch]

theorem Keeps.targets (h : Keeps b s) : KeepsP b (s.targets t asid k pages) := KeepsP.foldl (.mk h) fun _ _ h1 => .mk h1.fst.target.fst

theorem Keeps.execDiscard (h : Keeps b s) : KeepsX b (execDiscard hd b' a s) := by
  dsimp only [Machine.execDiscard]
  refine h.issue (fun _ _ h2 => .mk (h2.memLanes (fun _ _ _ h3 => ?_)).s)
  split
  · exact .mk h3
  · split
    · exact .mk h3.targets.fst
    · refine .mk (h3.targets.fst.foldl fun _ _ h6 => ?_)
      split
      exacts [h6.pushStore, h6]

theorem Keeps.pinLines (h : Keeps b s) : KeepsO b (s.pinLines part lins) :=
  KeepsO.cond (KeepsO.some (h.foldl fun _ _ h1 => h1.setStack)) KeepsO.none

theorem Keeps.execPin (h : Keeps b s) : KeepsX b (execPin hd b' a pd s) := by
  dsimp only [Machine.execPin]
  refine h.issue (fun _ _ h2 => h2.memLanes (fun _ _ _ h3 => ?_))
  split
  · exact .mk h3
  · refine KeepsP.cond (.mk h3.targets.fst) ?_
    split
    · exact .mk h3.targets.fst
    · split
      exacts [.mk (h3.targets.fst.pinLines.eq ‹_›), .mk h3.targets.fst]

theorem Keeps.execUnpin (h : Keeps b s) : KeepsX b (execUnpin hd b' a s) := by
  dsimp only [Machine.execUnpin]
  refine h.issue (fun _ _ h2 => h2.memLanes (fun _ _ _ h3 => ?_))
  split
  · exact .mk h3
  · split
    exacts [.mk h3.targets.fst, .mk (h3.targets.fst.foldl fun _ _ h6 => h6.setStack)]

theorem Keeps.pushFence (h : Keeps b s) : Keeps b (s.pushFence t sys pd) := h.pushAcc.setThread

theorem Keeps.atomLane (h : Keeps b s) : KeepsP b (atomLane op cas wide ra v a c x s l) := by
  dsimp only [Machine.atomLane]
  split
  · exact .mk h
  · exact .mk h
  · split
    · exact .mk h
    · refine KeepsP.cond (.mk h) ?_
      split <;> exact .mk (h.addrOf.eq ‹_›)

theorem Keeps.atomic (h : Keeps b s) : KeepsX b (atomic i op cas v a c cls wide ra u ret s) := by
  dsimp only [Machine.atomic]
  refine h.issue (fun _ _ h1 => .mk ((((KeepsP.foldl (.mk h1.fresh) fun _ _ h2 => .mk h2.fst.atomLane.fst).fst.foldl fun _ _ h2 => ?_).cond
    ((KeepsP.foldl (.mk h1.fresh) fun _ _ h2 => .mk h2.fst.atomLane.fst).fst.foldl fun _ _ h2 => ?_).setWarp).putRegs.poison.foldl fun _ _
    h2 => h2.takeFault).afterIssue)
  · split
    exacts [h2, h2.pushAcc]
  · split
    exacts [h2, h2.pushAcc]

theorem Keeps.landLoad (h : Keeps b s) : Keeps b (s.landLoad a names t pr f) := by
  dsimp only [State.landLoad]
  split
  exacts [h, h.modWarp.poison.cond h.modWarp]

theorem Keeps.landRows (h : Keeps b s) : Keeps b (s.landRows a names t col places) := by
  dsimp only [State.landRows]
  split
  exacts [h, h.modWarp.poison]

theorem Keeps.failLoad (h : Keeps b s) : Keeps b (s.failLoad a names t pr st) := by
  dsimp only [State.failLoad]
  split
  exacts [h, h.modWarp.modLanes]

theorem Keeps.acquired (h : Keeps b s) : Keeps b (s.acquired a) := h.tickStamp.modLanes.cond h

theorem Keeps.landCreven (h : Keeps b s) : Keeps b (s.landCreven n a d vec elems eb grp f) := h.setScore.cond h.setScore.setStack.setScore

theorem Keeps.failCreven (h : Keeps b s) : Keeps b (s.failCreven n a d vec elems eb grp st) := h.landCreven.setScore

theorem Keeps.finishRead (h : Keeps b s) : Keeps b (s.finishRead a r) := by
  dsimp only [State.finishRead]
  split
  · split
    exacts [h.landLoad.acquired.complete, h.failLoad.acquired.complete]
  · split
    exacts [h.landCreven.complete, h.failCreven.complete, h]
  · exact h

theorem Keeps.endWait (h : Keeps b s) : Keeps b (s.endWait a) := by
  dsimp only [State.endWait]
  split
  exacts [h.acquired.complete.wakeAny, h.acquired.complete.setScore]

theorem Keeps.pollAgain (h : Keeps b s) : Keeps b (s.pollAgain a st) := by
  dsimp only [State.pollAgain]
  split
  exacts [h.put.modLanes.setScore.sendReady, h.put.modLanes.sendReady]

theorem Keeps.poll (h : Keeps b s) : Keeps b (s.poll a gen r) := by
  dsimp only [State.poll]
  refine Keeps.cond ?_ (h.cond (h.pollAgain.cond (h.waitWord.fst.endWait.cond h.waitWord.fst.askAgain)))
  split
  exacts [h, h.pollAgain, h.endWait.cond h.askAgain]

theorem Keeps.execLoadReturn (h : Keeps b s) : KeepsX b (execLoadReturn id' r s) := by
  dsimp only [Machine.execLoadReturn]
  split
  · exact .next h
  · refine KeepsX.cond (.next h) (KeepsX.cond (.next h.request) ?_)
    split
    · exact .next h.poll
    · exact .next h.landRows.complete
    · refine KeepsX.cond ?_ (KeepsX.cond (.next h) (KeepsX.cond (.next h.finishRead) (.next h.readNow.fst.finishRead)))
      split
      exacts [.next h, .next h.finishRead, .next h.tickStamp.finishRead]

theorem Keeps.performInDie (h : Keeps b s) : Keeps b (s.performInDie k lin a bs pois) := by
  dsimp only [State.performInDie]
  refine (KeepsP.fst ?_).tickStamp.setDie.wrote
  split
  exacts [.mk h, h.dieFill]

theorem Keeps.passCaches (h : Keeps b s) : Keeps b (s.passCaches core' a bs pois) := h.setCore.cond h.setCore.tickStamp.setDie

theorem Keeps.leaveQueue (h : Keeps b s) : Keeps b (s.leaveQueue core' warp launch a) := by
  dsimp only [State.leaveQueue]
  split
  · refine h.modWarp.depart.fst.put.settle.cond ?_
    split
    exacts [h.modWarp.depart.fst.put.passCaches.settle, h.modWarp.depart.fst.put.passCaches.performInDie.complete.cond
      h.modWarp.depart.fst.put.passCaches.settle]
  · exact h.modWarp.depart.fst.put.settle

theorem Keeps.execStoreLeaveQueue (h : Keeps b s) : KeepsX b (execStoreLeaveQueue core' warp s) := by
  dsimp only [Machine.execStoreLeaveQueue]
  split
  · exact .next h
  · split
    exacts [.next h, KeepsX.cond (.next h.leaveQueue) (.next h)]

theorem Keeps.performStore (h : Keeps b s) : Keeps b (s.performStore a) := by
  dsimp only [State.performStore]
  split
  · split
    · exact h.shedWrite
    · refine Keeps.cond ?_ h
      split
      exacts [h.regWriteScore, h.regWriteThread, h]
  · refine Keeps.cond ?_ h.homeFrom
    split
    exacts [h.performInDie, h.homeFrom]
  · exact h.foldl fun _ _ h3 => h3.homeFrom
  · exact h.foldl fun _ _ h2 => h2.homeDiscard
  · split
    exacts [h.shedSyncAt.wrote, h]
  · split
    exacts [h.shedSyncAt.wrote, h]
  · exact h.homeSync.wrote
  · exact h.homeSync.wrote
  · exact h.readHome.fst.homeWrite.cond (h.readHome.fst.atomFail.cond h.readHome.fst.homeWrite)
  · exact h

theorem Keeps.execAccessAcknowledged (h : Keeps b s) : KeepsX b (execAccessAcknowledged id' r s) := by
  dsimp only [Machine.execAccessAcknowledged]
  split
  · exact .next h
  · refine KeepsX.cond (.next h) (KeepsX.cond (.next h.request) (KeepsX.cond ?_ (KeepsX.cond (.next h)
      (KeepsX.cond (.next h.failStore.complete) (.next h.performStore.complete)))))
    split
    exacts [.next h, .next h.failStore.complete, .next h.complete]

theorem Keeps.atomRead (h : Keeps b s) : KeepsP b (s.atomRead a) := by
  dsimp only [State.atomRead]
  split
  · exact .mk h
  · split
    · exact h.readHome
    · refine KeepsP.cond h.flushLine.readHome (.mk (KeepsP.fst ?_).setDie)
      split
      exacts [.mk h, h.dieFill]

theorem Keeps.atomWrite (h : Keeps b s) : Keeps b (s.atomWrite a bs pois) := by
  dsimp only [State.atomWrite]
  split
  · exact h
  · split
    · refine Keeps.writeHome ?_
      split
      exacts [h.setCore, h]
    · split
      · refine Keeps.writeHome ?_
        split
        exacts [h.setCore, h]
      · refine (Keeps.tickStamp ?_).setDie
        split
        exacts [h.setCore, h]

theorem Keeps.atomMarked (h : Keeps b s) : Keeps b (s.atomMarked a) := by
  dsimp only [State.atomMarked]
  split
  · exact h
  · split
    · refine Keeps.atomFail ?_
      split
      exacts [h.setCore, h]
    · refine (Keeps.stackUncorr ?_).setDie.cond (Keeps.atomFail ?_)
      · split
        exacts [h.setCore, h]
      · split
        exacts [h.setCore, h]

theorem Keeps.atomOne (h : Keeps b s) : KeepsP b (s.atomOne a op cas u x) :=
  KeepsP.cond (.mk h.atomRead.fst.atomWrite) (KeepsP.cond (.mk h.atomRead.fst.atomMarked)
    (KeepsP.cond (.mk h.atomRead.fst) (.mk h.atomRead.fst.atomWrite.wrote)))

theorem Keeps.atomSum (h : Keeps b s) : KeepsP b (s.atomSum a lanes) := by
  dsimp only [State.atomSum]
  split
  exacts [.mk h, KeepsP.cond (KeepsP.foldl (.mk h) fun _ _ h1 => .mk h1.fst.atomOne.fst)
    (.mk (h.atomRead.fst.atomWrite.foldl fun _ _ h1 => h1.wrote))]

theorem Keeps.atomAll (h : Keeps b s) : KeepsP b (s.atomAll a op cas ra u lanes) := by
  dsimp only [State.atomAll]
  refine KeepsP.foldl (.mk h) fun _ _ h1 => .mk (KeepsP.fst ?_)
  split
  exacts [.mk h1.fst.atomOne.fst, h1.fst.atomSum]

theorem Keeps.landAtomic (h : Keeps b s) : Keeps b (s.landAtomic a wide ret rs) := by
  dsimp only [State.landAtomic]
  split
  · exact h
  · split
    exacts [h.poison, h.poison.tickStamp.modWarp]

theorem Keeps.acquiredLanes (h : Keeps b s) : Keeps b (s.acquiredLanes a lanes rs) := by
  dsimp only [State.acquiredLanes]
  split
  exacts [h, h.cond (h.tickStamp.foldl fun _ _ h2 => h2.modThread)]

theorem Keeps.failAtomic (h : Keeps b s) : Keeps b (s.failAtomic a st) := by
  dsimp only [State.failAtomic]
  split
  exacts [h.landAtomic.failStore.complete, h.failCreven.complete, h]

theorem Keeps.performLanes (h : Keeps b s) : Keeps b (s.performLanes a op cas ra u wide ret lanes) :=
  h.atomAll.fst.landAtomic.failLanes.acquiredLanes.complete.cond h.atomAll.fst.landAtomic.failLanes.acquiredLanes.put

theorem Keeps.execAtomicPerform (h : Keeps b s) : KeepsX b (execAtomicPerform id' r s) := by
  dsimp only [Machine.execAtomicPerform]
  split
  · exact .next h
  · refine KeepsX.cond (.next h) (KeepsX.cond (.next h.request) (KeepsX.cond ?_ ?_))
    · split
      · exact .next h
      · exact .next h.failAtomic
      · split
        exacts [.next h.landAtomic.acquiredLanes.complete, .next h.landCreven.complete, .next h]
    · split
      exacts [.next h.performLanes, KeepsX.cond (.next h) (KeepsX.cond (.next h.failAtomic)
        (.next (h.atomOne.fst.setScore.cond h.atomOne.fst).landCreven.complete)), .next h]

theorem Keeps.execAccessTimeout (h : Keeps b s) : KeepsX b (execAccessTimeout id' s) := by
  dsimp only [Machine.execAccessTimeout]
  split
  · exact .next h
  · refine KeepsX.cond (.next h) ?_
    split
    exacts [.next h.finishRead, .next h.finishRead, .next h.failAtomic, .next h.failAtomic, .next h.pollAgain, .next h.failStore.complete]

/-! ### Fetching a word -/

theorem Keeps.fetch (h : Keeps b s) : KeepsP b (s.fetch v k asid va n sec) := by
  dsimp only [State.fetch]
  split
  · exact .mk (h.translate.eq ‹_›)
  · exact .mk (h.translate.eq ‹_›)
  · have h2 := h.translate.eq ‹_›
    refine KeepsP.cond (.mk h2) (KeepsP.cond (.mk h2) ?_)
    split <;> exact .mk h2

theorem Keeps.fetchInstr (h : Keeps b s) : KeepsP b (s.fetchInstr core' wp pc) := by
  dsimp only [State.fetchInstr]
  split <;> exact .mk (h.fetch.eq ‹_›)

theorem Keeps.noteFetch (h : Keeps b s) : Keeps b (s.noteFetch core' w pc wp st) := h.cond (h.foldl fun _ _ h1 => h1.setThread)

/-! ### Transfers, REORDER, traps, issue slots -/

theorem Keeps.reorderDone (h : Keeps b s) : Keeps b (s.reorderDone core' r) :=
  (h.foldl fun _ _ h1 => h1.setWarp).poison.foldl fun _ _ h1 => h1.setThread.wake

theorem Keeps.tryReorder (h : Keeps b s) : Keeps b (s.tryReorder core' launch) := by
  dsimp only [State.tryReorder]
  split
  exacts [h, h.cond h.reorderDone.setCtx]

theorem Keeps.leaveReorder (h : Keeps b s) : Keeps b (s.leaveReorder t launch) := h.setCtx.tryReorder

theorem Keeps.quit (h : Keeps b s) : Keeps b (s.quit t launch) := h.exitThread.leaveReorder

theorem Keeps.transfer (h : Keeps b s) : KeepsE b (transfer link target' x s) :=
  .mk ((((h.putRegs.foldl fun _ _ h1 => h1.setThread).poison.foldl fun _ _ h1 => h1.quit).cond
    ((h.putRegs.foldl fun _ _ h1 => h1.setThread).poison.foldl fun _ _ h1 => h1.quit).setLaunch).foldl fun _ _ h1 => h1.takeFault)

theorem Keeps.execReorder (h : Keeps b s) : KeepsX b (execReorder hd a b' c desc s) := by
  dsimp only [Machine.execReorder]
  refine h.issue (fun _ _ h2 => ?_)
  split
  exacts [KeepsE.cond (.mk h2.takeFaults) (.mk (h2.setCtx.waitAll.foldl fun _ _ h4 => h4.takeFault).tryReorder), KeepsE.cond
    (.mk h2.takeFaults) (KeepsE.cond (.mk (h2.foldl fun _ _ h4 => h4.takeFault)) (.mk
    ((h2.setCtx.waitAll.foldl fun _ _ h4 => h4.takeFault).tryReorder.cond (h2.setCtx.waitAll.foldl fun _ _ h4 => h4.takeFault))))]

theorem Keeps.grantSlot (h : Keeps b s) : Keeps b (s.grantSlot core' quad w t) := h.setCore.setWarp.put

theorem Keeps.noteShort (h : Keeps b s) : Keeps b (s.noteShort core' quad) := h.foldl fun _ _ h1 => h1.noteWait

theorem Keeps.execSlotArbitration (h : Keeps b s) : KeepsX b (execSlotArbitration core' quad s) := by
  dsimp only [Machine.execSlotArbitration]
  refine KeepsX.cond (.next h) ?_
  split
  exacts [.next h.noteShort, KeepsX.cond (.next h.noteShort.grantSlot) (.next h.noteShort.grantSlot)]

theorem Keeps.execEscapeIssue (h : Keeps b s) : KeepsX b (execEscapeIssue core' warp s) := by
  dsimp only [Machine.execEscapeIssue]
  split
  exacts [.next h, KeepsX.cond (.next h) (.next h.put)]

theorem Keeps.execNapExpiry (h : Keeps b s) : KeepsX b (execNapExpiry t s) := by
  dsimp only [Machine.execNapExpiry]
  split
  · exact .next h
  · split
    exacts [KeepsX.cond (.next h.wake) (.next h), .next h]

/-! ### Engine commands -/

theorem Keeps.engineSettle (h : Keeps b s) : KeepsP b (s.engineSettle core' warp c) := by
  dsimp only [State.engineSettle]
  split
  · exact .mk h
  · refine KeepsP.cond (.mk h) ?_
    split
    exacts [.mk ((h.foldl fun _ _ h3 => h3.wake).setWarp.foldl fun _ _ h3 => h3.setThread.takeFault), .mk
      (h.foldl fun _ _ h3 => h3.wake).setWarp]

theorem Keeps.engineDone (h : Keeps b s) : Keeps b (s.engineDone core' warp launch c cmd nonRes) := by
  dsimp only [State.engineDone]
  split
  exacts [h.modWarp.engineSettle.fst.cond h.modWarp, h.modWarp]

theorem Keeps.settleEngines (h : Keeps b s) : Keeps b (s.settleEngines core') :=
  h.foldl fun _ _ h1 => h1.foldl fun _ _ h2 => h2.engineSettle.fst

/-! ### Bales -/

theorem Keeps.tileEnd (h : Keeps b s) : Keeps b (s.tileEnd core') := h.post.cond h

/-! ### Pages and generations -/

theorem Keeps.syncAdd (h : Keeps b s) : Keeps b (s.syncAdd place die units pois) := by
  dsimp only [State.syncAdd]
  split
  exacts [h, h, h.shedSync, h.cond h.homeSync]

theorem Keeps.syncTarget (h : Keeps b s) : KeepsP b (s.syncTarget t asid va store) := by
  dsimp only [State.syncTarget]
  refine KeepsP.cond (.mk h) ?_
  split
  exacts [.mk (h.target.eq ‹_›), h.target]

theorem Keeps.execPagein (h : Keeps b s) : KeepsX b (execPagein hd a b' off s) := by
  dsimp only [Machine.execPagein]
  refine h.issue (fun _ _ h2 => h2.memLanes (fun _ _ _ h3 => ?_))
  split
  · exact .mk h3
  · exact .mk h3
  · refine KeepsP.cond (.mk h3) ?_
    split
    · exact .mk h3.pushAcc.setCtl
    · split
      exacts [.mk (h3.syncTarget.eq ‹_›).pushAcc.setCtl, .mk (h3.syncTarget.eq ‹_›), .mk (h3.syncTarget.eq ‹_›)]

theorem Keeps.pageinUnit (h : Keeps b s) : Keeps b (s.pageinUnit p pois) := h.syncAdd

theorem Keeps.execPageinRequest (h : Keeps b s) : KeepsX b (execPageinRequest id' s) := by
  dsimp only [Machine.execPageinRequest]
  split
  · exact .next h
  · split
    · have h3 := h.walk.eq ‹_›
      refine .next ?_
      split
      exacts [h3.setCtl.pageinUnit.complete, h3.setCtl.pageinUnit]
    · have h3 := h.walk.eq ‹_›
      refine .next ?_
      split
      exacts [h3.setCtl.pageinUnit.complete, h3.setCtl.pageinUnit]
    · have h3 := h.walk.eq ‹_›
      refine .next ?_
      split
      exacts [h3.setCtl.complete, h3.setCtl]

theorem Keeps.execPageinCompletion (h : Keeps b s) : KeepsX b (execPageinCompletion id' ok s) := by
  dsimp only [Machine.execPageinCompletion]
  split
  exacts [.next h, .next (h.setCtl.foldl fun _ _ h2 => h2.pageinUnit)]

theorem Keeps.probePage (h : Keeps b s) : KeepsP b (s.probe t asid va walk') := by
  dsimp only [State.probe]
  refine KeepsP.cond (.mk h) ?_
  split
  · exact .mk h
  · split <;> exact .mk (h.walk.eq ‹_›)

theorem Keeps.execProbe (h : Keeps b s) : KeepsX b (execProbe hd d a walk' s) := by
  dsimp only [Machine.execProbe]
  refine h.issue (fun _ _ h2 => (KeepsP.foldl (.mk h2) fun _ _ h3 => ?_).fst.commit)
  split
  exacts [.mk h3.fst, .mk h3.fst, .mk h3.fst.probePage.fst]

theorem Keeps.execRaisegen (h : Keeps b s) : KeepsX b (execRaisegen hd a s) := by
  dsimp only [Machine.execRaisegen]
  refine h.issue (fun _ _ h2 => KeepsE.cond (KeepsE.cond (.go h2.takeFaults) ?_) (.mk (KeepsE.cond (.go h2.takeFaults) ?_).s))
  · split
    exacts [.go h2.takeFaults.poison, h2.takeFaults.faultAll, KeepsE.cond h2.takeFaults.faultAll (.go h2.takeFaults.setCtl.put)]
  · split
    exacts [.go h2.takeFaults.poison, h2.takeFaults.faultAll, KeepsE.cond h2.takeFaults.faultAll (.go h2.takeFaults.setCtl.put)]

theorem Keeps.dropXl (h : Keeps b s) : Keeps b (s.dropXl asid) := h.put

theorem Keeps.execGenerationRaise (h : Keeps b s) : KeepsX b (execGenerationRaise asid s) := by
  dsimp only [Machine.execGenerationRaise]
  split
  exacts [.next h, .next (h.setAsid.setCtl.dropXl.cond h.setAsid.setCtl)]

/-! ### Sheds -/

theorem Keeps.shedTaint (h : Keeps b s) : Keeps b (s.shedTaint die shed off n t) := h.cond h.setDie

theorem Keeps.ldsBody (h : Keeps b s) : KeepsE b (ldsBody hd d a w t off uni x s) := by
  dsimp only [Machine.ldsBody]
  refine .mk (h.memLanes (fun _ _ _ h2 => ?_)).s.taintDst
  split
  exacts [.mk h2, .mk h2, KeepsP.cond (.mk h2.pushAcc) (KeepsP.cond (.mk h2) (.mk h2))]

theorem Keeps.stsBody (h : Keeps b s) : KeepsE b (stsBody hd d a w off x s) := by
  dsimp only [Machine.stsBody]
  refine h.memLanes (fun _ _ _ h2 => ?_)
  split
  exacts [.mk h2, .mk h2, KeepsP.cond (.mk h2.shedTaint.pushAcc) (.mk h2.shedTaint.shedWrite)]

theorem Keeps.ldstBody (h : Keeps b s) : KeepsE b (ldstBody hd d a t off uni x s) := by
  dsimp only [Machine.ldstBody]
  refine .mk (h.memLanes (fun _ _ _ h2 => ?_)).s.taintDst
  split
  · exact .mk h2
  · refine KeepsP.cond (.mk h2.pushAcc) ?_
    split <;> exact .mk h2

theorem Keeps.setEntry (h : Keeps b s) : Keeps b (s.setEntry die key f) := h.setDie

theorem Keeps.giveRefused (h : Keeps b s) : Keeps b (s.giveRefused x pd st) := h.setWarp.putRegs

theorem Keeps.execGive (h : Keeps b s) : KeepsX b (execGive hd a b' c pd s) := by
  dsimp only [Machine.execGive]
  refine h.issue (fun _ _ h2 => KeepsE.cond h2 ?_)
  split
  · exact .go h2.giveRefused.poison
  · exact h2.faultAll
  · split
    exacts [.go h2.giveRefused, .go h2.setEntry.setEntry.setWarp.fresh.setDie]

theorem Keeps.execGiveDrainEnd (h : Keeps b s) : KeepsX b (execGiveDrainEnd core' warp s) := by
  dsimp only [Machine.execGiveDrainEnd]
  split
  · exact .next h
  · split
    exacts [.next h, .next h.setEntry.setEntry.setDie.modWarp]

theorem Keeps.syncAddr (h : Keeps b s) : KeepsP b (s.syncAddr x a l scratch off store) := by
  dsimp only [State.syncAddr]
  refine KeepsP.cond ?_ ?_
  · split <;> exact .mk h
  · split
    · exact .mk h
    · exact .mk h
    · split <;> exact .mk (h.syncTarget.eq ‹_›)

theorem Keeps.syncLane (h : Keeps b s) (hact : ∀ x0 s x2 x3 x4, Keeps b s → Keeps b (act x0 s x2 x3 x4)) : KeepsP b
    (syncLane a b' scratch off store act x s l) := by
  dsimp only [Machine.syncLane]
  split
  · exact .mk h
  · exact .mk h
  · refine KeepsP.cond (.mk h) ?_
    split
    exacts [.mk (h.syncAddr.eq ‹_›), .mk (h.syncAddr.eq ‹_›), .mk (hact _ _ _ _ _ (h.syncAddr.eq ‹_›))]

theorem Keeps.syncStore (h : Keeps b s) : Keeps b (s.syncStore x l at' kind cls) := by
  dsimp only [State.syncStore]
  split
  exacts [h.pushAcc.cond h.performStore, h.pushStore]

theorem Keeps.syncWait (h : Keeps b s) : Keeps b (s.syncWait x l at' gen) := h.pushAcc.setThread

theorem Keeps.syncBody (h : Keeps b s) : KeepsE b (syncBody i a s) := by
  dsimp only [Machine.syncBody]
  split
  exacts [h.memLanes (fun _ _ _ h2 => h2.syncLane (fun _ _ _ _ _ h3 => h3.syncStore)), h.memLanes
    (fun _ _ _ h2 => h2.syncLane (fun _ _ _ _ _ h3 => h3.syncStore)), h.memLanes (fun _ _ _ h2 => h2.syncLane
    (fun _ _ _ _ _ h3 => h3.cond h3.syncWait)), h]

theorem Keeps.scratchBody (h : Keeps b s) : KeepsE b (scratchBody i uni a s) := by
  dsimp only [Machine.scratchBody]
  split
  exacts [h.ldsBody, h.stsBody, h.ldstBody, h.syncBody]

theorem Keeps.passes (h : Keeps b s) : KeepsE b (passes i x s) := KeepsE.cond h.scratchBody (.mk h.scratchBody.s.setCore)

theorem Keeps.runPass (h : Keeps b s) : Keeps b (s.runPass c q) := by
  dsimp only [State.runPass]
  split
  · exact h
  · split
    exacts [h.setCore, h.setCore.cond ((h.setCore.scratchBody.s.cond h.setCore.scratchBody.s.setCore).breakRun.cond
      (h.setCore.scratchBody.s.cond h.setCore.scratchBody.s.setCore))]

theorem Keeps.execSyncwInit (h : Keeps b s) : KeepsX b (execSyncwInit hd a c scratch off s) := by
  dsimp only [Machine.execSyncwInit]
  split
  exacts [h.issue fun _ _ h1 => h1.passes, h.issue fun _ _ h1 => h1.syncBody]

theorem Keeps.execSyncwAdd (h : Keeps b s) : KeepsX b (execSyncwAdd hd a c scratch off s) := by
  dsimp only [Machine.execSyncwAdd]
  split
  exacts [h.issue fun _ _ h1 => h1.passes, h.issue fun _ _ h1 => h1.syncBody]

theorem Keeps.execSyncwWait (h : Keeps b s) : KeepsX b (execSyncwWait hd a c scratch off s) := by
  dsimp only [Machine.execSyncwWait]
  split
  exacts [h.issue fun _ _ h1 => h1.passes, h.issue fun _ _ h1 => h1.syncBody]

/-! ### Manger slots, tile registers, the matrix engine -/

theorem Keeps.setGroup (h : Keeps b s) : Keeps b (s.setGroup launch hd f) := h.setGtable.cond h

theorem Keeps.setRes (h : Keeps b s) : Keeps b (s.setRes core' launch hd m) := h.modView.cond h.setGroup

theorem Keeps.clearPenErr (h : Keeps b s) : Keeps b (s.clearPenErr core' launch hd) := h.modView.cond h.setGroup

theorem Keeps.settleLater (h : Keeps b s) : Keeps b (s.settleLater x act) := h.setCtx.fresh

theorem Keeps.claimLater (h : Keeps b s) : KeepsE b (claimLater d x act s) := .go (h.cond h.setWarp).settleLater

theorem Keeps.execMclaim (h : Keeps b s) : KeepsX b (execMclaim hd d slot s) := by
  dsimp only [Machine.execMclaim]
  refine h.issue (fun _ _ h2 => h2.once (fun _ _ _ h3 => ?_))
  split
  exacts [h3.faultAll, KeepsE.cond h3.faultAll h3.claimLater]

theorem Keeps.execTclaim (h : Keeps b s) : KeepsX b (execTclaim hd d tile s) := by
  dsimp only [Machine.execTclaim]
  refine h.issue (fun _ _ h2 => h2.once (fun _ _ _ h3 => ?_))
  split
  exacts [h3.faultAll, KeepsE.cond h3.faultAll h3.claimLater]

theorem Keeps.execMrel (h : Keeps b s) : KeepsX b (execMrel hd a s) := by
  dsimp only [Machine.execMrel]
  refine h.issue (fun _ _ h2 => KeepsE.cond h2 ?_)
  split
  exacts [h2.faultAll, h2.once (fun _ _ _ h5 => KeepsE.cond h5.faultAll (.go h5.settleLater))]

theorem Keeps.execTrel (h : Keeps b s) : KeepsX b (execTrel hd a s) := by
  dsimp only [Machine.execTrel]
  refine h.issue (fun _ _ h2 => KeepsE.cond h2 ?_)
  split
  exacts [h2.faultAll, h2.once (fun _ _ _ h4 => KeepsE.cond h4.faultAll (.go h4.settleLater))]

theorem Keeps.enqueueMat (h : Keeps b s) : Keeps b (s.enqueueMat x g tile kind) := h.setWarp.settleLater

theorem Keeps.execMzero (h : Keeps b s) : KeepsX b (execMzero hd t mask int s) := by
  dsimp only [Machine.execMzero]
  refine h.issue (fun _ _ h2 => h2.once (fun _ _ _ h3 => ?_))
  split
  exacts [h3.faultAll, KeepsE.cond h3.faultAll (.go h3.enqueueMat)]

theorem Keeps.execMma (h : Keeps b s) : KeepsX b (execMma hd g t ma mb fa fb sp mask pf pen s) := by
  dsimp only [Machine.execMma]
  refine h.issue (fun _ _ h2 => h2.once (fun _ _ _ h3 => ?_))
  split
  exacts [h3.faultAll, .go h3.enqueueMat]

theorem Keeps.claimDone (h : Keeps b s) : Keeps b (s.claimDone core' e r) := h.setWarp

theorem Keeps.settleOne (h : Keeps b s) : Keeps b (s.settleOne core' e) := by
  dsimp only [State.settleOne]
  split
  · split
    exacts [h.claimDone, h.setView.claimDone]
  · split
    exacts [h.claimDone, h.setView.claimDone]
  · exact h.setView.setCtx.cond h
  · exact h.setView.setCtx.cond h
  · exact h.setCtx
  · exact h.setRes

theorem Keeps.settleCore (h : Keeps b s) : Keeps b (s.settleCore core') := h.foldl fun _ _ h1 => h1.setCtx.settleOne

theorem Keeps.execTrd (h : Keeps b s) : KeepsX b (execTrd hd d t a s) := by
  dsimp only [Machine.execTrd]
  refine h.issue (fun _ _ h2 => KeepsE.cond h2 ?_)
  split
  · exact h2.faultAll
  · refine KeepsE.cond h2.faultAll ?_
    split
    · exact h2.faultAll
    · exact h2.commit
    · split
      exacts [.go h2.setWarp.fresh, h2]

theorem Keeps.execTwr (h : Keeps b s) : KeepsX b (execTwr hd t a b' s) := by
  dsimp only [Machine.execTwr]
  refine h.issue (fun _ _ h2 => KeepsE.cond h2 ?_)
  split
  · exact h2.faultAll
  · refine KeepsE.cond h2.faultAll ?_
    split
    exacts [h2.faultAll, .go h2.poison, .mk (h2.cond h2.enqueueMat).takeFaults]

theorem Keeps.execResmode (h : Keeps b s) : KeepsX b (execResmode hd m s) := by
  dsimp only [Machine.execResmode]
  refine h.issue (fun _ _ h2 => h2.once (fun _ _ _ h3 => ?_))
  split
  exacts [h3.faultAll, .go h3.settleLater]

theorem Keeps.execMstat (h : Keeps b s) : KeepsX b (execMstat hd d s) := by
  dsimp only [Machine.execMstat]
  refine h.issue (fun _ _ h2 => KeepsE.cond h2 ?_)
  split
  · split
    exacts [.mk h2.giveAll.s.clearPenErr, h2.giveAll]
  · exact h2.faultAll

theorem Keeps.modMat (h : Keeps b s) : Keeps b (s.modMat core' f) := h.mapCtxs

theorem Keeps.matDone (h : Keeps b s) : Keeps b (s.matDone core' m) := h.mapCtxs.engineDone

theorem Keeps.execMatrixEngineServe (h : Keeps b s) : KeepsX b (execMatrixEngineServe core' s) := by
  dsimp only [Machine.execMatrixEngineServe]
  refine KeepsX.cond (.next h) ?_
  split
  · exact .next h
  · split
    exacts [.next h.setCtx, .next h.setCtx.setCtx.matDone, .next h.setCtx.setCtx.poison.matDone]

theorem Keeps.execMmaBlockEnd (h : Keeps b s) : KeepsX b (execMmaBlockEnd core' mismatches s) := by
  dsimp only [Machine.execMmaBlockEnd]
  split
  · exact .next h
  · split
    exacts [.next h, KeepsX.cond (.next h) (.next (h.modMat.poison.cond h.modMat.poison.setCore))]

theorem Keeps.setPenErr (h : Keeps b s) : Keeps b (s.setPenErr core' launch hd) := h.modView.cond (h.modMat.cond h.setGroup)

theorem Keeps.execMmaPenFree (h : Keeps b s) : KeepsX b (execMmaPenFree core' s) := by
  dsimp only [Machine.execMmaPenFree]
  split
  · exact .next h
  · split
    · exact .next h
    · refine KeepsX.cond (.next h) ?_
      split
      · refine KeepsX.cond (.next h.modMat) ?_
        split
        exacts [.next (h.modMat.engineFree.eq ‹_›).penUsed, .next h.modMat.setPenErr.penUsed]
      · exact .next h.modMat

theorem Keeps.execMmaComplete (h : Keeps b s) : KeepsX b (execMmaComplete core' s) := by
  dsimp only [Machine.execMmaComplete]
  split
  · exact .next h
  · split
    exacts [.next h, KeepsX.cond (.next h) (.next h.matDone.tileEnd)]

/-! ### The copy engine -/

theorem Keeps.engineRead (h : Keeps b s) : KeepsP b (s.engineRead core' a acq key) := by
  dsimp only [State.engineRead]
  refine KeepsP.cond (KeepsP.cond (.mk h) ?_) (KeepsP.cond ?_ (KeepsP.cond (.mk h) (KeepsP.cond (.mk h) ?_)))
  · split <;> exact .mk h
  · split <;> exact .mk h
  · split
    exacts [.mk h, KeepsP.cond (.mk h.coreReadFor.fst) (.mk h.readHome.fst)]

theorem Keeps.descGlobal (h : Keeps b s) : KeepsP b (s.descGlobal x t cls need asid va n) := by
  induction n generalizing s va with
  | zero => exact .mk h
  | succ n ih =>
    dsimp only [State.descGlobal]
    split
    · exact .mk (h.target.eq ‹_›)
    · exact .mk (h.target.eq ‹_›)
    · exact .mk (h.target.eq ‹_›)
    · have ha := h.target.eq ‹_›
      split <;> rename_i hr
      · refine .mk (KeepsP.eq (ih ?_) hr)
        split
        exacts [(ha.engineRead.eq ‹_›).setThread, ha.engineRead.eq ‹_›]
      · refine ih ?_
        split
        exacts [(ha.engineRead.eq ‹_›).setThread, ha.engineRead.eq ‹_›]

theorem Keeps.readDesc (h : Keeps b s) : KeepsP b (s.readDesc x hd a inShed n) := by
  dsimp only [State.readDesc]
  refine KeepsP.cond ?_ ?_
  · split
    · exact .mk h
    · exact .mk h
    · refine KeepsP.cond (.mk h) ?_
      split <;> exact .mk h
  · split
    exacts [.mk (h.descGlobal.eq ‹_›), h.descGlobal]

theorem Keeps.copySync (h : Keeps b s) : KeepsP b (s.copySync x d sheds) := by
  dsimp only [State.copySync]
  refine KeepsP.cond (.mk h) (KeepsP.cond ?_ ?_)
  · split <;> exact .mk h
  · split <;> exact .mk (h.syncTarget.eq ‹_›)

theorem Keeps.bindBox (h : Keeps b s) : KeepsP b (s.bindBox core' launch pen) := by
  dsimp only [State.bindBox]
  split
  · exact .mk h
  · split
    exacts [.mk h, .mk h.setPen]

theorem Keeps.copyIssue (h : Keeps b s) : KeepsE b (copyIssue hd form gran a b' si sd ra add x s) := by
  dsimp only [Machine.copyIssue]
  refine KeepsE.cond h (KeepsE.cond h.faultAll ?_)
  split
  · exact h.faultAll
  · split
    · exact (h.readDesc.eq ‹_›).faultAll
    · have h4 := h.readDesc.eq ‹_›
      refine KeepsE.cond h4.faultAll (KeepsE.cond h4.faultAll (KeepsE.cond h4.faultAll ?_))
      split
      · exact h4.faultAll
      · split
        · exact h4.faultAll
        · split
          · exact (h4.copySync.eq ‹_›).faultAll
          · have h8 := h4.copySync.eq ‹_›
            exact KeepsE.cond h8.faultAll (.go (KeepsP.cond h8.bindBox (.mk h8)).fst.setCtx.setWarp.fresh)

theorem Keeps.copyXl (h : Keeps b s) : KeepsP b (s.copyXl core' c va size k atomic') := by
  dsimp only [State.copyXl]
  split
  · exact .mk (h.translate.eq ‹_›)
  · exact .mk (h.translate.eq ‹_›)
  · split <;> exact .mk (h.translate.eq ‹_›)

theorem Keeps.copyRead (h : Keeps b s) : KeepsP b (s.copyRead core' c va size key) := by
  dsimp only [State.copyRead]
  split
  · exact .mk (h.copyXl.eq ‹_›)
  · exact .mk (h.copyXl.eq ‹_›)
  · have h2 := h.copyXl.eq ‹_›
    split <;> exact .mk (h2.engineRead.eq ‹_›)

theorem Keeps.indexAt (h : Keeps b s) : KeepsP b (s.indexAt core' c i) := by
  dsimp only [State.indexAt]
  refine KeepsP.cond (.mk h) (KeepsP.cond ?_ ?_)
  · split <;> exact .mk h
  · split <;> exact .mk (h.copyRead.eq ‹_›)

theorem Keeps.copyElem (h : Keeps b s) : KeepsP b (s.copyElem c q d f) := by
  dsimp only [State.copyElem]
  split
  · exact .mk (h.indexAt.eq ‹_›)
  · have h2 := h.indexAt.eq ‹_›
    refine .cond (.mk h2) ?_
    split <;> rename_i hv <;> have h3 := KeepsP.eq (.cond (.mk h2) (.cond (by split <;> exact .mk h2) h2.copyRead)) hv
    · exact .mk h3
    · split
      · split <;> exact .mk h3
      · exact .mk h3
      · split
        · exact .mk (h3.copyXl.eq ‹_›)
        · exact .mk (h3.copyXl.eq ‹_›)
        · have h4 := h3.copyXl.eq ‹_›
          refine .cond (.cond (.mk h4) ?_) ?_
          · split <;> exact .mk h4
          · split
            exacts [.mk h4, .cond (.mk h4) (.cond (.mk h4) (.mk h4))]

theorem Keeps.copyPlan (h : Keeps b s) : KeepsP b (s.copyPlan c q d fuel f room) := by
  induction fuel generalizing s f room with
  | zero => exact .mk h
  | succ n ih => exact .cond (.mk h) (.mk (ih h.copyElem.fst).fst)

theorem Keeps.copyPut (h : Keeps b s) : Keeps b (s.copyPut k lin key bs pois) := h.writeHome.tickStamp.setDie.foldl fun _ _ h1 => h1.setCore

theorem Keeps.dropLine (h : Keeps b s) : Keeps b (s.dropLine k lin) := h.flushLine.foldl fun _ _ h1 => h1.setCore

theorem Keeps.copyAdd (h : Keeps b s) : Keeps b (s.copyAdd k lin key n ty ra vals) := by
  dsimp only [State.copyAdd]
  exact (h.dropLine.readHome.fst.foldl fun _ _ h1 => h1.atomFail).cond ((h.dropLine.readHome.fst.cond
    h.dropLine.readHome.fst.homeWrite).foldl fun _ _ h1 => h1.atomFail)

theorem Keeps.copyWrite (h : Keeps b s) : KeepsP b (s.copyWrite core' c d all els) := by
  dsimp only [State.copyWrite]
  split
  · exact .mk (h.foldl fun _ _ h2 => h2.copyAdd)
  · refine .mk ((((h.foldl fun _ _ h2 => ?_).foldl fun _ _ h2 => h2.copyPut).foldl fun _ _ h2 => h2.shedWrite).foldl fun _ _ h2 =>
      h2.modView)
    split
    exacts [h2.regWriteThread, h2]

theorem Keeps.modCopy (h : Keeps b s) : Keeps b (s.modCopy core' id' f) := h.mapCtxs

theorem Keeps.copyNext (h : Keeps b s) : KeepsP b (s.copyNext core' c) := h.copyPlan

theorem Keeps.copyDraw (h : Keeps b s) : Keeps b (s.copyDraw core' id' price) :=
  h.setCore.pay.modCopy.cond (h.setCore.cond h.setCore.setCore).modCopy

theorem Keeps.execCopyChunk (h : Keeps b s) : KeepsX b (execCopyChunk core' s) := by
  dsimp only [Machine.execCopyChunk]
  split
  · exact .next h
  · refine KeepsX.cond (.next h.copyDraw) ?_
    split
    exacts [.next (h.copyNext.fst.cond h.copyNext.fst.copyDraw).copyWrite.fst.modCopy, .next
      (h.copyNext.fst.cond h.copyNext.fst.copyDraw).copyWrite.fst.syncAdd.modCopy]

theorem Keeps.engineFill (h : Keeps b s) : KeepsP b (s.engineFill core' launch pen cmd bound) := by
  dsimp only [State.engineFill]
  split
  · exact KeepsP.cond (.mk h.setBox) (.mk h.setPen)
  · split
    exacts [.mk h, KeepsP.cond (.mk h.setPen.serve) (.mk h.setPen)]

theorem Keeps.execCopyComplete (h : Keeps b s) : KeepsX b (execCopyComplete core' id' s) := by
  dsimp only [Machine.execCopyComplete]
  split
  · exact .next h
  · refine KeepsX.cond (.next h) (KeepsX.cond (.next (KeepsP.cond (.mk h.engineFill.fst.penUsed) (.mk h)).fst.modCopy)
      (.next (Keeps.engineDone ?_)))
    split
    exacts [(KeepsP.cond (.mk h.engineFill.fst.penUsed) (.mk h)).fst.mapCtxs, (KeepsP.cond (.mk h.engineFill.fst.penUsed)
      (.mk h)).fst.mapCtxs.modWarp]

theorem Keeps.execReservationGrant (h : Keeps b s) : KeepsX b (execReservationGrant core' s) := by
  dsimp only [Machine.execReservationGrant]
  refine KeepsX.cond ?_ ?_
  · split
    exacts [.next h.setScore, .next h]
  · split
    exacts [.next h, KeepsX.cond (.next h) (.next h.setCore)]

/-! ### Collectives -/

theorem Keeps.stackXl (h : Keeps b s) : KeepsP b (s.stackXl v asid va size k sec sLevel) := by
  dsimp only [State.stackXl]
  split
  · exact .mk (h.translate.eq ‹_›)
  · exact .mk (h.translate.eq ‹_›)
  · have h2 := h.translate.eq ‹_›
    refine KeepsP.cond (.mk h2) ?_
    split <;> exact .mk h2

theorem Keeps.collPlace (h : Keeps b s) : KeepsP b (s.collPlace c va size k) := by
  dsimp only [State.collPlace]
  split
  · exact .mk (h.stackXl.eq ‹_›)
  · have h2 := h.stackXl.eq ‹_›
    refine KeepsP.cond (.mk h2) ?_
    split
    exacts [.mk h2, KeepsP.cond (.mk h2) (KeepsP.cond (.mk h2) (.mk h2))]

theorem Keeps.collRead (h : Keeps b s) : KeepsP b (s.collRead c va n) := by
  dsimp only [State.collRead]
  split
  · exact .mk (h.collPlace.eq ‹_›)
  · have h2 := h.collPlace.eq ‹_›
    exact .mk (h2.readHome.fst.setStack.cond h2.readHome.fst)
  · exact .mk (h.collPlace.eq ‹_›)
  · exact .mk (h.collPlace.eq ‹_›)

theorem Keeps.collWrite (h : Keeps b s) : KeepsP b (s.collWrite c va n e) := by
  dsimp only [State.collWrite]
  split
  exacts [.mk (h.collPlace.eq ‹_›), .mk (h.collPlace.eq ‹_›).dropLine.writeHome, .mk (h.collPlace.eq ‹_›).regWriteScore, .mk
    (h.collPlace.eq ‹_›)]

theorem Keeps.collEach (h : Keeps b s) (hf : ∀ s i, Keeps b s → KeepsP b (f s i)) : KeepsP b (s.collEach on f l) := by
  induction l generalizing s with
  | nil => exact .mk h
  | cons i l ih =>
    dsimp only [State.collEach]
    split
    exacts [.cond (.mk (ih ((hf _ _ h).eq ‹_›)).fst) (.mk ((hf _ _ h).eq ‹_›)), ih ((hf _ _ h).eq ‹_›)]

theorem Keeps.collPut (h : Keeps b s) : KeepsP b (s.collPut c all va n e) := by
  dsimp only [State.collPut]
  refine KeepsP.cond h.collWrite ?_
  split
  exacts [.mk (h.collRead.eq ‹_›), (h.collRead.eq ‹_›).collWrite]

theorem Keeps.collRun (h : Keeps b s) : KeepsP b (s.collRun c d all peers) := by
  dsimp only [State.collRun]
  split
  · refine h.collEach (fun _ _ h2 => ?_)
    split
    exacts [.mk (h2.collRead.eq ‹_›), (h2.collRead.eq ‹_›).collPut]
  · refine h.collEach (fun _ _ h2 => ?_)
    split
    exacts [.mk (h2.collRead.eq ‹_›), (h2.collRead.eq ‹_›).collPut]
  · refine h.collEach (fun _ _ h2 => ?_)
    split
    exacts [.mk (h2.collRead.eq ‹_›), (h2.collRead.eq ‹_›).collEach (fun _ _ h4 => h4.collPut)]
  · refine h.collEach (fun _ _ h1 => ?_)
    split
    · exact .mk (h1.collRead.eq ‹_›)
    · have h3 := h1.collRead.eq ‹_›
      refine h3.collEach (fun _ _ h4 => KeepsP.cond ?_ ?_)
      · split
        exacts [.mk (h4.collRead.eq ‹_›), (h4.collRead.eq ‹_›).collPut]
      · split
        · exact .mk (h4.collRead.eq ‹_›)
        · have h6 := h4.collRead.eq ‹_›
          split
          exacts [.mk (h6.collRead.eq ‹_›), (h6.collRead.eq ‹_›).collPut]

theorem Keeps.collRanks (h : Keeps b s) : KeepsP b (s.collRanks c d) := by
  dsimp only [State.collRanks]
  refine KeepsP.cond (.mk h) (h.collEach (fun _ _ h1 => ?_))
  split <;> exact .mk (h1.collRead.eq ‹_›)

theorem Keeps.startColl (h : Keeps b s) : Keeps b (s.startColl c) := h.foldl fun _ _ h1 => h1.startServe

theorem Keeps.endColl (h : Keeps b s) : Keeps b (s.endColl id') := h.put

theorem Keeps.collFault (h : Keeps b s) : Keeps b (s.collFault c cls) := h.event

theorem Keeps.collSync (h : Keeps b s) : Keeps b (s.collSync c d pois) := by
  dsimp only [State.collSync]
  refine h.cond ?_
  split
  · have h2 := h.stackXl.eq ‹_›
    refine Keeps.syncAdd ?_
    split
    exacts [h2.flushLine, h2]
  · exact h.stackXl.eq ‹_›

theorem Keeps.modColl (h : Keeps b s) : Keeps b (s.modColl id' f) := h.put

theorem Keeps.collIssue (h : Keeps b s) : KeepsE b (collIssue hd gran a b' op x s) := by
  dsimp only [Machine.collIssue]
  refine KeepsE.cond h (KeepsE.cond h.faultAll ?_)
  split
  · exact h.faultAll
  · split
    · exact (h.readDesc.eq ‹_›).faultAll
    · have h4 := h.readDesc.eq ‹_›
      exact KeepsE.cond h4.faultAll (KeepsE.cond h4.faultAll (KeepsE.cond h4.faultAll
        (KeepsE.cond h4.faultAll (KeepsE.cond h4.faultAll (.go (KeepsP.cond h4.bindBox (.mk h4)).fst.put.setWarp.fresh.startColl)))))

theorem Keeps.execCollComplete (h : Keeps b s) : KeepsX b (execCollComplete c w n peers fail s) := by
  unfold Machine.execCollComplete
  split
  · exact .next h
  · extract_lets d bad enough res s0 c0 work s1 c1 fills r src s2 s3
    have hres : KeepsP b res := by
      dsimp only [res, bad]
      split
      · exact .mk (h.collRanks.eq ‹_›).collFault
      · have h1 := h.collRanks.eq ‹_›
        split
        · exact .mk h1.collRun.fst
        · split
          exacts [.mk (h1.collRun.eq ‹_›), .mk h1.collRun.fst.collFault]
    have hw : KeepsP b work := .cond (.mk h) (.mk hres.fst.endColl.collSync.modColl)
    have hr : KeepsP b r := .cond hw.fst.engineFill (.mk hw.fst)
    have h2 : Keeps b s2 := by
      dsimp only [s2, src]
      exact hr.fst.put
    have h3 : Keeps b s3 := by
      dsimp only [s3]
      split
      exacts [h2, h2.modWarp]
    exact .cond (.next h) (.cond (.next h) (.cond (.next hr.fst.modColl) (.next h3.engineDone)))

/-! ### Launches -/

theorem Keeps.append (h : Keeps b s) : KeepsP b (s.append src part queue pkt) :=
  KeepsP.cond (.mk h) (KeepsP.cond (.mk h.setCtl) (.mk h.setCtl.setCtl))

theorem Keeps.ctlSync (h : Keeps b s) : KeepsP b (s.ctlSync asid va store) := by
  dsimp only [State.ctlSync]
  split
  · exact .mk (h.translate.eq ‹_›)
  · exact .mk (h.translate.eq ‹_›)
  · split <;> exact .mk (h.translate.eq ‹_›)

theorem Keeps.depReached (h : Keeps b s) : KeepsP b (s.depReached asid va gen) := by
  dsimp only [State.depReached]
  refine KeepsP.cond (.mk h) ?_
  split
  · exact .mk (h.ctlSync.eq ‹_›)
  · have h2 := h.ctlSync.eq ‹_›
    refine KeepsP.cond (.mk h2) ?_
    split
    exacts [.mk h2, KeepsP.cond (.mk h2) (.mk h2.readHome.fst)]

theorem Keeps.depsReached (h : Keeps b s) : KeepsP b (s.depsReached asid p) := by
  dsimp only [State.depsReached]
  split
  · exact .mk (h.depReached.eq ‹_›)
  · have h2 := h.depReached.eq ‹_›
    split <;> exact .mk (h2.depReached.eq ‹_›)

theorem Keeps.addDone (h : Keeps b s) : Keeps b (s.addDone part queue seq asid done' pois) := by
  dsimp only [State.addDone]
  refine h.cond ?_
  split
  · have h2 := h.ctlSync.eq ‹_›
    refine Keeps.syncAdd ?_
    split
    exacts [h2.foldl fun _ _ h4 => h4.flushLine, h2]
  · exact (h.ctlSync.eq ‹_›).event

theorem Keeps.reportEnd (h : Keeps b s) : Keeps b (s.reportEnd part queue seq asid done' host st fcode) :=
  h.setCtl.addDone.event.setCtl.cond h.setCtl.addDone.event

theorem Keeps.modQueue (h : Keeps b s) : Keeps b (s.modQueue part queue f) := by
  dsimp only [State.modQueue]
  exact h.setCtl

theorem Keeps.modHead (h : Keeps b s) : Keeps b (s.modHead part queue f) := h.modQueue

theorem Keeps.dropHead (h : Keeps b s) : Keeps b (s.dropHead part queue) := h.modQueue.modHead

theorem Keeps.execDependencePoll (h : Keeps b s) : KeepsX b (execDependencePoll part queue s) := by
  dsimp only [Machine.execDependencePoll]
  split
  · exact .next h
  · split
    exacts [.next (h.depsReached.eq ‹_›).modHead, .next (h.depsReached.eq ‹_›).dropHead.reportEnd]

theorem Keeps.addRanges (h : Keeps b s) : Keeps b (s.addRanges l rs) := h.foldl fun _ _ h1 => h1.setDie

theorem Keeps.resplit (h : Keeps b s) : Keeps b s.resplit :=
  h.foldl fun _ _ h1 => h1.cond (h1.cond (h1.foldl fun _ _ h2 => h2.addRanges).setLaunch)

theorem Keeps.startLaunch (h : Keeps b s) : Keeps b (s.startLaunch part queue w) :=
  (h.dropHead.put.foldl fun _ _ h1 => h1.setScore).put.cond h.dropHead.put.addRanges

theorem Keeps.execSchedulerStart (h : Keeps b s) : KeepsX b (execSchedulerStart s) := by
  dsimp only [Machine.execSchedulerStart]
  refine KeepsX.cond (.next h) ?_
  split
  exacts [.next h.resplit, .next h.resplit.startLaunch]

theorem Keeps.allotCore (h : Keeps b s) : Keeps b (s.allotCore l c) := h.cond h.setDie.setCtx

theorem Keeps.allotDie (h : Keeps b s) : Keeps b (s.allotDie l k) := h.cond h.setDie

theorem Keeps.execWarpAdmission (h : Keeps b s) : KeepsX b (execWarpAdmission die s) := by
  dsimp only [Machine.execWarpAdmission]
  split
  · exact .next h
  · split
    exacts [.next h, .next h.tickStamp.allotDie.allotCore.setCtx.setDie.setLaunch]

theorem Keeps.tryEnd (h : Keeps b s) : Keeps b (s.tryEnd l) := by
  dsimp only [State.tryEnd]
  split
  exacts [h, h.endLaunch.cond h]

theorem Keeps.orphan (h : Keeps b s) : Keeps b (s.orphan core' warp launch) := h.put

theorem Keeps.dropWarp (h : Keeps b s) : Keeps b (s.dropWarp core' warp w) := h.orphan.setView.fresh.setCtx.setCore.applyRegulator

theorem Keeps.execWarpRetire (h : Keeps b s) : KeepsX b (execWarpRetire core' warp s) := by
  dsimp only [Machine.execWarpRetire]
  split
  · exact .next h
  · refine KeepsX.cond (.next h) (.next ?_)
    split
    exacts [h.dropWarp.setLaunch.endLaunch, h.dropWarp.setLaunch.tryEnd]

theorem Keeps.reapScore (h : Keeps b s) : Keeps b (s.reapScore n) := by
  dsimp only [State.reapScore]
  split
  exacts [h.setScore.cond h, h]

theorem Keeps.haltLaunch (h : Keeps b s) : Keeps b (s.haltLaunch l) :=
  (h.foldl fun _ _ h1 => h1.mapCtxs.setCore.setCore).put.setLaunch.foldl fun _ _ h1 => h1.reapScore

theorem Keeps.endCaches (h : Keeps b s) : Keeps b (s.endCaches k l) :=
  (h.foldl fun _ _ h1 => h1.writeBack.setDie.cond h1).setDie.foldl fun _ _ h1 => h1.setCore

theorem Keeps.returnCore (h : Keeps b s) : Keeps b (s.returnCore l c) := by
  dsimp only [State.returnCore]
  refine h.cond ?_
  split
  exacts [h.mapCtxs, h.setDie.mapCtxs.applyRegulator]

theorem Keeps.returnDie (h : Keeps b s) : Keeps b (s.returnDie l k) := h.cond h.setDie

theorem Keeps.returnHeld (h : Keeps b s) : Keeps b (s.returnHeld l) := by
  dsimp only [State.returnHeld]
  exact ((h.foldl fun _ _ h1 => h1.returnCore).foldl fun _ _ h1 => h1.returnDie).setCtl.cond
    ((h.foldl fun _ _ h1 => h1.returnCore).foldl fun _ _ h1 => h1.returnDie)

theorem Keeps.execLaunchEnd (h : Keeps b s) : KeepsX b (execLaunchEnd launch x s) := by
  dsimp only [Machine.execLaunchEnd]
  split
  · exact .next h
  · split
    exacts [.next h.tryEnd, KeepsX.cond (.next h) (KeepsX.cond (.next h.haltLaunch.returnHeld)
      (.next (h.haltLaunch.returnHeld.foldl fun _ _ h3 => h3.endCaches).put.reportEnd))]

theorem Keeps.execLaunch (h : Keeps b s) : KeepsX b (execLaunch hd a pd s) := by
  dsimp only [Machine.execLaunch]
  refine h.issue (fun _ _ h2 => KeepsE.cond h2 ?_)
  split
  · exact .go h2.poison
  · exact h2.faultAll
  · refine KeepsE.cond h2.faultAll ?_
    split
    · exact (h2.descGlobal.eq ‹_›).faultAll
    · have h5 := h2.descGlobal.eq ‹_›
      exact KeepsE.cond h5.faultAll (.go h5.tickStamp.setThread.setWarp.fresh)

theorem Keeps.sendPacket (h : Keeps b s) : KeepsP b (s.sendPacket part target' pkt) :=
  KeepsP.cond (KeepsP.cond (.mk h) h.append) (KeepsP.cond (.mk h) (.mk h))

theorem Keeps.landPend (h : Keeps b s) : Keeps b (s.landPend core' warp launch id' vals) := h.modWarp

theorem Keeps.execVariableLatencyWrite (h : Keeps b s) : KeepsX b (execVariableLatencyWrite core' warp id' s) := by
  dsimp only [Machine.execVariableLatencyWrite]
  split
  · exact .next h
  · refine KeepsX.cond (.next h) ?_
    split
    exacts [.next h.landPend, .next h.landPend.modWarp.mapCtxs, .next h.landPend, .next h.sendPacket.fst.landPend, .next h]

/-! ### Optical paths -/

theorem Keeps.noteLive (h : Keeps b s) : Keeps b (s.noteLive k p) := h.setStack

theorem Keeps.linkEvent (h : Keeps b s) : Keeps b (s.linkEvent k p code lanes) := h.event

theorem Keeps.downPath (h : Keeps b s) : Keeps b (s.downPath k p) := by
  dsimp only [State.downPath]
  refine h.setPath.noteLive.linkEvent.foldl fun _ _ h1 => ?_
  split
  exacts [h1, h1.sendMgmt]

theorem Keeps.execPathDown (h : Keeps b s) : KeepsX b (execPathDown p s) := .next (h.downPath.cond h)

theorem Keeps.execFlitSend (h : Keeps b s) : KeepsX b (execFlitSend p s) := .next (h.cond h.setPath)

theorem Keeps.execKeyFlip (h : Keeps b s) : KeepsX b (execKeyFlip p s) := .next (h.setPath.cond h)

theorem Keeps.execOldKeyDiscard (h : Keeps b s) : KeepsX b (execOldKeyDiscard p s) := .next (h.setPath.cond h)

theorem Keeps.restripeMsg (h : Keeps b s) : Keeps b (s.restripeMsg k p) := h.enqueue

theorem Keeps.execRestripeSwitch (h : Keeps b s) : KeepsX b (execRestripeSwitch p s) :=
  KeepsX.cond (.next h) (.next (((h.setPath.noteLive.linkEvent.cond h.setPath.noteLive).linkEvent.cond
    (h.setPath.noteLive.linkEvent.cond h.setPath.noteLive)).downPath.cond ((h.setPath.noteLive.linkEvent.cond
    h.setPath.noteLive).linkEvent.cond (h.setPath.noteLive.linkEvent.cond h.setPath.noteLive))))

theorem Keeps.removeLanes (h : Keeps b s) : Keeps b (s.removeLanes k gone) := h.foldl fun _ _ h1 => h1.cond h1.setPath.restripeMsg

theorem Keeps.writeLaneen (h : Keeps b s) : Keeps b (s.writeLaneen k f v) := h.setStack.removeLanes

theorem Keeps.writeLaserctl (h : Keeps b s) : Keeps b (s.writeLaserctl k v) := h.setStack.removeLanes

theorem Keeps.answerTo (h : Keeps b s) : Keeps b (s.answerTo k q st bs pois) := by
  dsimp only [State.answerTo]
  exact h.sendTo.fst.setCtl

theorem Keeps.inboundEvent (h : Keeps b s) : Keeps b (s.inboundEvent k q st) := h.event

theorem Keeps.inboundUpdate (h : Keeps b s) : KeepsP b (s.inboundUpdate lin key n f poisoned') := by
  dsimp only [State.inboundUpdate]
  refine KeepsP.cond (.mk h.readHome.fst.homeWrite) (KeepsP.cond (.mk h.readHome.fst.atomFail) ?_)
  split
  exacts [.mk h.readHome.fst.homeWrite, .mk h.readHome.fst]

theorem Keeps.performInbound (h : Keeps b s) : Keeps b (s.performInbound k q lin) := by
  dsimp only [State.performInbound]
  split
  · exact h.readHome.fst.answerTo
  · exact h.writeHome.answerTo
  · exact h.inboundUpdate.fst.answerTo
  · exact h.inboundUpdate.fst.answerTo
  · refine (h.foldl fun _ _ h2 => ?_).answerTo
    split
    exacts [h2.homeDiscard, h2]
  · exact h.homeSync.answerTo
  · exact h.homeSync.answerTo
  · exact h

theorem Keeps.execInboundPacket (h : Keeps b s) : KeepsX b (execInboundPacket stack q s) := by
  dsimp only [Machine.execInboundPacket]
  refine KeepsX.cond (.next h) (KeepsX.cond ?_ (KeepsX.cond (.next h) (KeepsX.cond (.next h)
    (KeepsX.cond (.next h.inboundEvent.answerTo) (KeepsX.cond (.next h.inboundEvent.answerTo)
    (KeepsX.cond (.next h.inboundEvent.answerTo) ?_))))))
  · split
    exacts [.next (h.cond h.enqueue), .next h.inboundEvent]
  · split
    exacts [.next h.inboundEvent.answerTo, KeepsX.cond (.next h.performInbound) (.next h.inboundEvent)]

/-! ### Stack cores -/

theorem Keeps.modInst (h : Keeps b s) : Keeps b (s.modInst n f) := h.setScore

theorem Keeps.stackFault (h : Keeps b s) : Keeps b (s.stackFault n x cls) := (h.event.modInst.cond h.event.modInst.endLaunch).reapScore

theorem Keeps.stackPoisoned (h : Keeps b s) : Keeps b (s.stackPoisoned n x) := (h.modInst.cond h.modInst.endLaunch).reapScore

theorem Keeps.endInstance (h : Keeps b s) : Keeps b (s.endInstance n x) := h.setScore.cond h.setScore.setLaunch.tryEnd

theorem KeepsC.settle (h : KeepsC b r) : Keeps b (r.settle n x) := by
  cases r with
  | go | jump => exact Keeps.setScore h
  | wait => exact h
  | fault => exact Keeps.stackFault h
  | poisoned => exact Keeps.stackPoisoned h
  | done => exact Keeps.endInstance h

theorem KeepsC.paid (h : KeepsC b r) : KeepsC b (r.paid n price) := by
  cases r with
  | wait => exact h
  | _ => exact Keeps.setScore h

theorem Keeps.stackIssueAt (h : Keeps b s) (hbody : ∀ x0 x1 s, Keeps b s → KeepsC b (body x0 x1 s)) : Keeps b (s.stackIssueAt n x i body) :=
  h.cond (h.setScore.setScore.cond (hbody _ _ _ h.setScore).paid.settle)

theorem Keeps.stackIssue (h : Keeps b s) (hbody : ∀ x0 x1 s, Keeps b s → KeepsC b (body x0 x1 s)) : KeepsX b (stackIssue i s body) := by
  dsimp only [Machine.stackIssue]
  split
  · split
    exacts [.fault, .next (h.cond (h.stackIssueAt (fun _ _ _ h4 => hbody _ _ _ h4)))]
  · exact .fault

theorem Keeps.galu (h : Keeps b s) : KeepsX b (galu i d a b' f s) := h.stackIssue (fun _ _ _ h1 => KeepsC.go h1.modInst)

theorem Keeps.gimm (h : Keeps b s) : KeepsX b (gimm i d a f s) := h.stackIssue (fun _ _ _ h1 => KeepsC.go h1.modInst)

theorem Keeps.execAdd (h : Keeps b s) : KeepsX b (execAdd d a b' s) := h.galu

theorem Keeps.execSub (h : Keeps b s) : KeepsX b (execSub d a b' s) := h.galu

theorem Keeps.execMul (h : Keeps b s) : KeepsX b (execMul d a b' s) := h.galu

theorem Keeps.execCrevenAnd (h : Keeps b s) : KeepsX b (execCrevenAnd d a b' s) := h.galu

theorem Keeps.execCrevenOr (h : Keeps b s) : KeepsX b (execCrevenOr d a b' s) := h.galu

theorem Keeps.execCrevenXor (h : Keeps b s) : KeepsX b (execCrevenXor d a b' s) := h.galu

theorem Keeps.execCrevenShl (h : Keeps b s) : KeepsX b (execCrevenShl d a b' s) := h.galu

theorem Keeps.execCrevenShr (h : Keeps b s) : KeepsX b (execCrevenShr d a b' s) := h.galu

theorem Keeps.execCrevenSar (h : Keeps b s) : KeepsX b (execCrevenSar d a b' s) := h.galu

theorem Keeps.execSlt (h : Keeps b s) : KeepsX b (execSlt d a b' s) := h.galu

theorem Keeps.execSltu (h : Keeps b s) : KeepsX b (execSltu d a b' s) := h.galu

theorem Keeps.execAddi (h : Keeps b s) : KeepsX b (execAddi d a imm s) := h.gimm

theorem Keeps.execShli (h : Keeps b s) : KeepsX b (execShli d a n s) := h.gimm

theorem Keeps.execShri (h : Keeps b s) : KeepsX b (execShri d a n s) := h.gimm

theorem Keeps.execSari (h : Keeps b s) : KeepsX b (execSari d a n s) := h.gimm

theorem Keeps.execOri (h : Keeps b s) : KeepsX b (execOri d a imm s) := h.gimm

theorem Keeps.execLui (h : Keeps b s) : KeepsX b (execLui d imm s) := h.stackIssue (fun _ _ _ h1 => KeepsC.go h1.modInst)

theorem Keeps.gbranch (h : Keeps b s) : KeepsX b (gbranch i a b' off c s) :=
  h.stackIssue (fun _ _ _ h1 => KeepsC.cond (KeepsC.poisoned h1) (KeepsC.cond (KeepsC.jump h1) (KeepsC.go h1)))

theorem Keeps.execBeq (h : Keeps b s) : KeepsX b (execBeq a b' off s) := h.gbranch

theorem Keeps.execBne (h : Keeps b s) : KeepsX b (execBne a b' off s) := h.gbranch

theorem Keeps.execBlt (h : Keeps b s) : KeepsX b (execBlt a b' off s) := h.gbranch

theorem Keeps.execBge (h : Keeps b s) : KeepsX b (execBge a b' off s) := h.gbranch

theorem Keeps.execJal (h : Keeps b s) : KeepsX b (execJal d off s) := h.stackIssue (fun _ _ _ h1 => KeepsC.jump h1.modInst)

theorem Keeps.execJalr (h : Keeps b s) : KeepsX b (execJalr d a s) :=
  h.stackIssue (fun _ _ _ h1 => KeepsC.cond (KeepsC.poisoned h1) (KeepsC.cond (KeepsC.fault h1)
    (KeepsC.cond (KeepsC.fault h1) (KeepsC.jump h1.modInst))))

theorem Keeps.execHalt (h : Keeps b s) : KeepsX b (execHalt s) :=
  h.stackIssue (fun _ _ _ h1 => KeepsC.cond (KeepsC.wait h1) (KeepsC.done h1.modInst))

theorem Keeps.execRds (h : Keeps b s) : KeepsX b (execRds d code s) := by
  dsimp only [Machine.execRds]
  refine h.stackIssue (fun _ _ _ h1 => ?_)
  split
  exacts [KeepsC.fault h1, KeepsC.go h1.modInst]

theorem Keeps.execWrs (h : Keeps b s) : KeepsX b (execWrs a code s) :=
  h.stackIssue (fun _ _ _ h1 => KeepsC.cond (KeepsC.fault h1) (KeepsC.cond (KeepsC.poisoned h1) (KeepsC.go h1.modInst)))

theorem Keeps.measure (h : Keeps b s) : Keeps b (s.measure k f) := h.setStack

theorem Keeps.execSvr (h : Keeps b s) : KeepsX b (execSvr d code s) :=
  h.stackIssue (fun _ _ _ h1 => KeepsC.cond (KeepsC.fault h1) (KeepsC.cond (KeepsC.fault h1) (KeepsC.go (h1.measure.cond h1).modInst)))

theorem Keeps.writePort (h : Keeps b s) : Keeps b (s.writePort k code v) :=
  h.setStack.cond (h.writeLaneen.cond (h.setStack.cond (h.writeLaserctl.cond h)))

theorem Keeps.execSvw (h : Keeps b s) : KeepsX b (execSvw a code s) :=
  h.stackIssue (fun _ _ _ h1 => KeepsC.cond (KeepsC.fault h1) (KeepsC.cond (KeepsC.fault h1)
    (KeepsC.cond (KeepsC.poisoned h1) (KeepsC.go h1.writePort))))

theorem Keeps.cAddr (h : Keeps b s) : KeepsP b (s.cAddr n x va size k) := KeepsP.cond (.mk h) h.stackXl

theorem Keeps.afterCreven (h : Keeps b s) : Keeps b s.afterCreven := h.endFences.sendReady

theorem Keeps.gaccess (h : Keeps b s) : KeepsX b (gaccess i a off size k cls d kind s) := by
  dsimp only [Machine.gaccess]
  refine h.stackIssue (fun _ _ _ h1 => KeepsC.cond (KeepsC.poisoned h1) (KeepsC.cond (KeepsC.wait h1) ?_))
  split
  · exact KeepsC.fault (h1.cAddr.eq ‹_›)
  · have h3 := h1.cAddr.eq ‹_›
    refine KeepsC.go (Keeps.afterCreven ?_)
    split
    exacts [h3.pushAcc.modInst, h3.pushAcc]

theorem Keeps.execLdg (h : Keeps b s) : KeepsX b (execLdg d a w c off s) := by
  dsimp only [Machine.execLdg]
  exact h.gaccess

theorem Keeps.execStg (h : Keeps b s) : KeepsX b (execStg d a w c off s) := by
  dsimp only [Machine.execStg]
  exact h.gaccess

theorem Keeps.countMark (h : Keeps b s) : Keeps b (s.countMark n bad) := h.setStack.cond h

theorem Keeps.execLdl (h : Keeps b s) : KeepsX b (execLdl d a w off s) := by
  dsimp only [Machine.execLdl]
  refine h.stackIssue (fun _ _ _ h1 => KeepsC.cond (KeepsC.poisoned h1) ?_)
  split
  exacts [KeepsC.fault h1, KeepsC.go h1.modInst.countMark]

theorem Keeps.execStl (h : Keeps b s) : KeepsX b (execStl d a w off s) := by
  dsimp only [Machine.execStl]
  refine h.stackIssue (fun _ _ _ h1 => KeepsC.cond (KeepsC.poisoned h1) ?_)
  split
  exacts [KeepsC.fault h1, KeepsC.go h1.modInst]

theorem Keeps.execAmo (h : Keeps b s) : KeepsX b (execAmo d a b' op wide c u s) := by
  dsimp only [Machine.execAmo]
  exact h.gaccess

theorem Keeps.execSwadd (h : Keeps b s) : KeepsX b (execSwadd a b' s) := h.gaccess

theorem Keeps.execSwwait (h : Keeps b s) : KeepsX b (execSwwait a b' s) := by
  dsimp only [Machine.execSwwait]
  refine h.stackIssue (fun _ _ _ h1 => KeepsC.cond (KeepsC.poisoned h1) (KeepsC.cond (KeepsC.wait h1) ?_))
  split
  exacts [KeepsC.fault (h1.cAddr.eq ‹_›), KeepsC.wait (h1.cAddr.eq ‹_›).pushAcc.afterCreven]

theorem Keeps.pushCFence (h : Keeps b s) : Keeps b (s.pushCFence n x sys d) := h.pushAcc.modInst

theorem Keeps.execCrevenFence (h : Keeps b s) : KeepsX b (execCrevenFence s) :=
  h.stackIssue (fun _ _ _ h1 => KeepsC.go h1.pushCFence.afterCreven)

theorem Keeps.execCrevenFenceSys (h : Keeps b s) : KeepsX b (execCrevenFenceSys d s) :=
  h.stackIssue (fun _ _ _ h1 => KeepsC.go h1.pushCFence.modInst.afterCreven)

theorem Keeps.valu (h : Keeps b s) : KeepsX b (valu i op d a b' k t s) := h.stackIssue (fun _ _ _ h1 => KeepsC.go h1.modInst)

theorem Keeps.execVcmp (h : Keeps b s) : KeepsX b (execVcmp d a b' k ty c s) :=
  h.stackIssue (fun _ _ _ h1 => KeepsC.cond (KeepsC.fault h1) (KeepsC.cond (KeepsC.poisoned h1) (KeepsC.go h1.modInst)))

theorem Keeps.execVcvt (h : Keeps b s) : KeepsX b (execVcvt d a k dt st hi s) := h.stackIssue (fun _ _ _ h2 => KeepsC.go h2.modInst)

theorem Keeps.execVsplat (h : Keeps b s) : KeepsX b (execVsplat d a k ty s) := h.stackIssue (fun _ _ _ h1 => KeepsC.go h1.modInst)

theorem Keeps.execVextr (h : Keeps b s) : KeepsX b (execVextr d a idx ty s) :=
  h.stackIssue (fun _ _ _ h1 => KeepsC.cond (KeepsC.fault h1) (KeepsC.go h1.modInst))

theorem Keeps.execKset (h : Keeps b s) : KeepsX b (execKset d a s) :=
  h.stackIssue (fun _ _ _ h1 => KeepsC.cond (KeepsC.fault h1) (KeepsC.cond (KeepsC.poisoned h1) (KeepsC.go h1.modInst)))

theorem Keeps.execKget (h : Keeps b s) : KeepsX b (execKget d a s) := h.stackIssue (fun _ _ _ h1 => KeepsC.go h1.modInst)

theorem Keeps.vblock (h : Keeps b s) (hinLoft : ∀ x0 x1 x2 x3 s, Keeps b s → Keeps b (inLoft x0 x1 x2 x3 s))
    (hglobal : ∀ x0 x1 x2 x3 x4 x5 s, Keeps b s → Keeps b (global x0 x1 x2 x3 x4 x5 s)) : KeepsX b
    (vblock i a loft ty k off kind inLoft global s) := by
  dsimp only [Machine.vblock]
  refine h.stackIssue (fun _ _ _ h3 => KeepsC.cond (KeepsC.go h3) (KeepsC.cond (KeepsC.poisoned h3)
    (KeepsC.cond ?_ (KeepsC.cond (KeepsC.wait h3) ?_))))
  · split
    exacts [KeepsC.fault h3, KeepsC.go (hinLoft _ _ _ _ _ h3)]
  · split
    exacts [KeepsC.fault (h3.cAddr.eq ‹_›), KeepsC.go (hglobal _ _ _ _ _ _ _ (h3.cAddr.eq ‹_›)).afterCreven]

theorem Keeps.execVld (h : Keeps b s) : KeepsX b (execVld d a loft ord ty k off s) := by
  dsimp only [Machine.execVld]
  exact h.vblock (fun _ _ _ _ _ h1 => h1.modInst.countMark) (fun _ _ _ _ _ _ _ h1 => h1.modInst.foldl fun _ _ h2 => h2.pushAcc.modInst)

theorem Keeps.execVst (h : Keeps b s) : KeepsX b (execVst d a loft ord ty k off s) := by
  dsimp only [Machine.execVst]
  exact h.vblock (fun _ _ _ _ _ h1 => h1.foldl fun _ _ h2 => h2.modInst) (fun _ _ _ _ _ _ _ h1 => h1.foldl fun _ _ h2 => h2.pushAcc.cond
    (h2.foldl fun _ _ h3 => h3.cond h3.pushAcc))

theorem Keeps.velems (h : Keeps b s) (hloft : ∀ n x j va s, Keeps b s → Keeps b (fl n x j va s))
    (hglob : ∀ n x g j va lf pa s, Keeps b s → Keeps b (fg n x g j va lf pa s)) (hbefore : ∀ n x els s, Keeps b s → Keeps b (fb n x els s))
      :
    KeepsX b (velems i a a' k ty loft kind fl fg fb s) := by
  unfold Machine.velems
  refine h.stackIssue fun n x t h1 => .cond (.go h1) (.cond (.poisoned h1) (.cond (.wait h1) ?_))
  extract_lets grp r s1
  have hr : KeepsP b r := by
    refine .foldl (.mk (hbefore _ _ _ _ h1)) fun q j hq => ?_
    split
    · refine .cond (.mk hq.fst) (.cond ?_ ?_)
      · split
        exacts [.mk hq.fst, .mk (hloft _ _ _ _ _ hq.fst)]
      · split
        exacts [.mk (hq.fst.cAddr.eq ‹_›), .mk (hglob _ _ _ _ _ _ _ _ (hq.fst.cAddr.eq ‹_›))]
    · exact hq
  split
  exacts [.go hr.fst.afterCreven, .fault hr.fst.afterCreven, .poisoned hr.fst.afterCreven]

theorem Keeps.execVgath (h : Keeps b s) : KeepsX b (execVgath d a b' k ty loft s) := by
  dsimp only [Machine.execVgath]
  exact h.velems (fun _ _ _ _ _ h1 => h1.modInst.countMark) (fun _ _ _ _ _ _ _ _ h1 => h1.pushAcc.modInst) (fun _ _ _ _ h1 => h1.modInst)

theorem Keeps.execVscat (h : Keeps b s) : KeepsX b (execVscat d a b' k ty loft add s) := by
  dsimp only [Machine.execVscat]
  exact h.velems (fun _ _ _ _ _ h1 => h1.modInst) (fun _ _ _ _ _ _ _ _ h1 => h1.pushAcc) (fun _ _ _ _ h1 => h1)

theorem Keeps.sendStatus (h : Keeps b s) : Keeps b (s.sendStatus score c st) := by
  dsimp only [State.sendStatus]
  exact h.sendTo.fst.setCtl

/-- A chunk that is taken goes into a slot of its target. -/
theorem Keeps.acceptChunk (h : Keeps b s) (e : s.acceptChunk n c = .taken t) : Keeps b t := by
  dsimp only [State.acceptChunk] at e
  split at e
  · cases e
  · split at e
    · cases e
    · cases e
      exact h.setScore.fresh

theorem Keeps.execPsendChunkAccept (h : Keeps b s) : KeepsX b (execPsendChunkAccept score c s) := by
  dsimp only [Machine.execPsendChunkAccept]
  refine .cond (.next h) ?_
  split
  exacts [.next h, .next (h.acceptChunk ‹_›).sendStatus, .next h.event.sendStatus]

theorem Keeps.endSend (h : Keeps b s) : Keeps b (s.endSend n p st) := h.setScore

theorem Keeps.execPsendStatus (h : Keeps b s) : KeepsX b (execPsendStatus score n st s) := by
  dsimp only [Machine.execPsendStatus]
  split
  · exact .next h
  · refine .cond (.cond (.next h) (.cond (.next (h.endSend.cond h)) ?_)) (.cond (.next (h.endSend.cond h)) (.next h.endSend))
    split
    exacts [.next h.endSend, .next (h.acceptChunk ‹_›).endSend, .next (h.endSend.cond h)]

theorem Keeps.execPsend (h : Keeps b s) : KeepsX b (execPsend d a b' c s) :=
  h.stackIssue (fun _ _ _ h1 => KeepsC.cond (KeepsC.poisoned h1) (KeepsC.cond (KeepsC.fault h1)
    (KeepsC.cond (KeepsC.fault h1) (KeepsC.cond (KeepsC.wait h1) (KeepsC.cond (KeepsC.go h1.fresh.setScore)
    (KeepsC.cond (KeepsC.go h1.fresh.setScore.endSend) (KeepsC.go h1.sendTo.fst.fresh.setScore)))))))

theorem Keeps.execPrecv (h : Keeps b s) : KeepsX b (execPrecv d a b' s) := by
  dsimp only [Machine.execPrecv]
  refine h.stackIssue (fun _ _ _ h1 => KeepsC.cond (KeepsC.poisoned h1) (KeepsC.cond (KeepsC.fault h1) (KeepsC.cond (KeepsC.fault h1) ?_)))
  split
  exacts [KeepsC.wait h1, KeepsC.go h1.setScore.modInst]

theorem Keeps.execReservedEncoding (h : Keeps b s) : KeepsX b (execReservedEncoding word s) := by
  dsimp only [Machine.execReservedEncoding]
  split
  · split
    exacts [.fault, .next (h.cond h.stackFault)]
  · split
    · exact .fault
    · split
      exacts [.next h, .next h.setWarp.advance.takeFaults.finish]
  · exact .fault

theorem Keeps.execStackInstanceStart (h : Keeps b s) : KeepsX b (execStackInstanceStart score s) := by
  dsimp only [Machine.execStackInstanceStart]
  refine KeepsX.cond (.next h.reapScore) ?_
  split
  exacts [.next h.reapScore, .next h.reapScore.setScore]

theorem Keeps.saveBytes (h : Keeps b s) : Keeps b (s.saveBytes n slot) := h.foldl fun _ _ h1 => h1.homeWrite

theorem Keeps.execStackCorePark (h : Keeps b s) : KeepsX b (execStackCorePark score s) :=
  KeepsX.cond (.next h) (.next h.put.saveBytes.setScore)

theorem Keeps.execStackCoreResume (h : Keeps b s) : KeepsX b (execStackCoreResume score s) := by
  dsimp only [Machine.execStackCoreResume]
  refine KeepsX.cond (.next h.reapScore) ?_
  split
  exacts [.next h.reapScore, .next h.reapScore.setScore]

theorem Keeps.drawSome (h : Keeps b s) : Keeps b (s.drawSome n) := h.setScore

theorem Keeps.serveWork (h : Keeps b s) : Keeps b (s.serveWork n x sv) := by
  dsimp only [State.serveWork]
  split
  · exact h.setScore
  · split <;> exact h.setScore.setScore
  · exact h.setScore.drawSome.cond h.setScore.endInstance
  · exact h.setScore.drawSome.cond h.setScore.endInstance

theorem Keeps.startHouse (h : Keeps b s) : Keeps b (s.startHouse n) := h.cond h.setScore.put

/-! ### Contexts, failures, snapshots -/

theorem Keeps.flip (h : Keeps b s) : Keeps b (s.flip core' part x) := h.setCore.setCtl.setDie.settleEngines.applyRegulator

theorem Keeps.execContextSwap (h : Keeps b s) : KeepsX b (execContextSwap core' part s) := by
  dsimp only [Machine.execContextSwap]
  refine KeepsX.cond (.next h) ?_
  split <;> exact .next (h.setCore.flip.cond h.setCore)

theorem Keeps.drainBytes (h : Keeps b s) : Keeps b (s.drainBytes c part) := by
  unfold State.drainBytes
  refine h.cond (h.foldl fun _ _ h1 => ?_)
  dsimp only
  split
  exacts [h1, h1.homeWrite]

theorem Keeps.execTwinDrainEnd (h : Keeps b s) : KeepsX b (execTwinDrainEnd core' s) := by
  dsimp only [Machine.execTwinDrainEnd]
  split
  · refine KeepsX.cond (.next h) ?_
    split
    exacts [.next h, .next h.drainBytes.setCore]
  · exact .next h

theorem Keeps.execContextRestore (h : Keeps b s) : KeepsX b (execContextRestore core' part s) := by
  dsimp only [Machine.execContextRestore]
  split
  exacts [.next h.setCore, .next h]

theorem Keeps.lostAcc (h : Keeps b s) : Keeps b (s.lostAcc k a) := by
  dsimp only [State.lostAcc]
  refine h.cond ?_
  split
  exacts [h.atomAll.fst, h.performStore.cond h]

theorem Keeps.loseDie (h : Keeps b s) : Keeps b (s.loseDie k code) := by
  dsimp only [State.loseDie]
  exact ((((((h.foldl fun _ _ h1 => h1.endLaunch.cond h1).foldl fun _ _ h1 => h1.setLaunch).foldl fun _ _ h1 => h1.lostAcc).put.foldl fun _
    _ h1 => h1.recallLine).foldl fun _ _ h1 => h1.setCore).setDie.foldl fun _ _ h1 => h1.applyRegulator).event.mendYard

theorem Keeps.restoreDie (h : Keeps b s) : Keeps b (s.restoreDie k) := h.cond h.setDie.put

theorem Keeps.failRecord (h : Keeps b s) : Keeps b s.failRecord := h.event

theorem Keeps.execHeartbeatTimeout (h : Keeps b s) : KeepsX b (execHeartbeatTimeout s) := KeepsX.cond (.next h.setCtl) (.next h)

theorem Keeps.unstuck (h : Keeps b s) (hnew : Keeps b new) : Keeps b (s.unstuck new) := h.put.cond hnew

theorem Keeps.execCorrectedError (h : Keeps b s) : KeepsX b (execCorrectedError p s) := by
  dsimp only [Machine.execCorrectedError]
  refine .next ?_
  split
  exacts [h.setCore, h.setStack]

theorem Keeps.errMark (h : Keeps b s) : Keeps b (s.errMark p) := by
  dsimp only [State.errMark]
  split
  exacts [h.setWarp, h.setWarp, h.modView, h.modView, h.setDie, h.setCore, h.setDie, h.put]

theorem Keeps.execUncorrectableError (h : Keeps b s) : KeepsX b (execUncorrectableError p s) := by
  dsimp only [Machine.execUncorrectableError]
  refine .next ?_
  split
  exacts [h.errMark.stackUncorr.event, h.errMark.setCore, h.errMark.stackUncorr]

theorem Keeps.execSnapshotUnitCopy (h : Keeps b s) : KeepsX b (execSnapshotUnitCopy stack ok s) := by
  dsimp only [Machine.execSnapshotUnitCopy]
  split
  exacts [.next h, KeepsX.cond (.next h) (KeepsX.cond (.next h.snapFail) (.next (h.snapOne (fun _ _ _ _ h2 => h2.homeWrite))))]

/-! ### Power-up, the host, messages -/

theorem Keeps.enterSafe (h : Keeps b s) : Keeps b (s.enterSafe stage code ukind unit detail) := h.setCtl.put

theorem Keeps.enterReady (h : Keeps b s) : Keeps b (s.enterReady i) := by
  refine ⟨h.mem, fun hb => ?_⟩
  obtain ⟨hc, hd, hk, hr, hn⟩ := s.whole_iff.1 (h.whole hb)
  simp [State.whole_iff, State.enterReady, hc, hd, hk, hr, hn]

theorem Keeps.powerUp {b s : State} {ctl : Control} : Keeps b { State.reset with agenda := s.agenda, ticket := s.ticket, ctl := ctl } :=
  ⟨fun _ => memWf_nil, fun _ => by simp [State.whole_iff, State.reset]⟩

theorem Keeps.execPowerUp : KeepsX b (execPowerUp fail s) := by
  have h0 : Keeps b { State.reset with agenda := s.agenda, ticket := s.ticket, ctl := { Control.reset with images := s.ctl.images } } :=
    .powerUp
  dsimp only [Machine.execPowerUp]
  split
  · exact .next h0.enterSafe
  · split
    exacts [.next h0.setCtl.enterSafe, .next h0.setCtl.enterReady]

theorem Keeps.complete? (h : Keeps b s) : Keeps b (s.complete? off bs) := h.setCtl

theorem Keeps.hostLocal (h : Keeps b s) : KeepsP b (s.hostLocal pa size write) := by
  dsimp only [State.hostLocal]
  split
  · exact .mk h
  · refine KeepsP.cond (.mk h) (KeepsP.cond (.mk h) ?_)
    split
    exacts [.mk (h.foldl fun _ _ h2 => h2.writeHome), .mk (KeepsP.foldl (.mk h) fun _ _ h2 => .mk h2.fst.readHome.fst).fst]

theorem Keeps.execBar2Access (h : Keeps b s) : KeepsX b (execBar2Access off size write r s) := by
  dsimp only [Machine.execBar2Access]
  refine KeepsX.cond (.next h) (KeepsX.cond (.next (h.event.cond h.event.complete?)) ?_)
  split
  exacts [.next (KeepsP.cond h.hostLocal (KeepsP.cond (.mk h) (.mk h))).fst, .next
    ((KeepsP.cond h.hostLocal (KeepsP.cond (.mk h) (.mk h))).fst.event.cond (KeepsP.cond h.hostLocal
    (KeepsP.cond (.mk h) (.mk h))).fst.event.complete?), .next ((KeepsP.cond h.hostLocal (KeepsP.cond (.mk h) (.mk h))).fst.cond
    (KeepsP.cond h.hostLocal (KeepsP.cond (.mk h) (.mk h))).fst.complete?)]

theorem Keeps.reply (h : Keeps b s) : Keeps b (s.reply src typ st fields) := by
  dsimp only [State.reply]
  split
  exacts [h.setCtl, h.setCtl.sendMgmt]

theorem Keeps.handle (h : Keeps b s) (hf : ∀ s, Keeps b s → KeepsP b (f s)) : Keeps b (s.handle src typ f) :=
  h.cond (h.reply.cond (h.reply.cond ((hf _ h).fst.reply.cond h.reply)))

theorem Keeps.checked (h : Keeps b s) (hf : ∀ s, Keeps b s → Keeps b (f s)) : KeepsP b (checked ok f s) :=
  KeepsP.cond (.mk (hf _ h)) (.mk h)

theorem Keeps.getStatus (h : Keeps b s) : KeepsP b s.getStatus := .mk h

theorem Keeps.partSet (h : Keeps b s) : KeepsP b (s.partSet part mask reg) :=
  KeepsP.cond (.mk h) (KeepsP.cond (.mk h) (.mk ((h.foldl fun _ _ h1 => h1.setCtl.setCore).foldl fun _ _ h1 => h1.applyRegulator).endParts))

theorem Keeps.allowSet (h : Keeps b s) : KeepsP b (s.allowSet die allow rowpart step' massen) :=
  h.checked (fun _ h1 => h1.regWriteCtl.regWriteCtl)

theorem Keeps.asidSet (h : Keeps b s) : KeepsP b (s.asidSet asid root sec v) := h.checked (fun _ h1 => h1.writeAsid)

theorem Keeps.handlerSet (h : Keeps b s) : KeepsP b (s.handlerSet asid entry frame) := h.checked (fun _ h1 => h1.regWriteCtl.regWriteCtl)

theorem Keeps.queueSet (h : Keeps b s) : KeepsP b (s.queueSet part queue en asid) := h.checked (fun _ h1 => h1.writeQueue)

theorem Keeps.aclSet (h : Keeps b s) : KeepsP b (s.aclSet index value) := h.checked (fun _ h1 => h1.regWriteCtl)

theorem Keeps.pinqSet (h : Keeps b s) : KeepsP b (s.pinqSet part quota) := h.checked (fun _ h1 => h1.regWriteCtl)

theorem Keeps.pinClear (h : Keeps b s) : KeepsP b (s.pinClear part) := h.checked (fun _ h1 => h1.put)

theorem Keeps.saveSet (h : Keeps b s) : KeepsP b (s.saveSet part value) := h.checked (fun _ h1 => h1.regWriteCtl)

theorem Keeps.keyLoad (h : Keeps b s) : KeepsP b (s.keyLoad slot sec wrapped) := by
  rw [State.keyLoad]
  split
  exacts [.mk h, h.checked fun _ h1 => h1.setCtl]

theorem Keeps.keyClear (h : Keeps b s) : KeepsP b (s.keyClear slot) := h.checked (fun _ h1 => h1.setCtl)

theorem Keeps.eventRead (h : Keeps b s) : KeepsP b s.eventRead := .mk h.setCtl

theorem Keeps.counterRead (h : Keeps b s) : KeepsP b (s.counterRead b' off clear) := KeepsP.cond (.mk (h.regWriteCtl.cond h)) (.mk h)

theorem Keeps.hostMove (h : Keeps b s) : KeepsP b (s.hostMove toHost dev pa len r) := by
  dsimp only [State.hostMove]
  refine KeepsP.cond (.mk h) (KeepsP.cond (KeepsP.cond ?_ ?_) (KeepsP.cond (.mk h) ?_))
  · split
    exacts [.mk (h.hostLocal.eq ‹_›).complete?, .mk h]
  · split
    · split
      exacts [.mk (h.hostLocal.eq ‹_›), .mk h]
    · exact .mk h
  · split
    exacts [.mk (h.complete?.cond h), .mk h, .mk h]

theorem Keeps.dieReset (h : Keeps b s) : KeepsP b (s.dieReset die action) :=
  h.checked (fun _ h1 => h1.restoreDie.resplit.cond h1.loseDie.resplit)

theorem Keeps.regRead (h : Keeps b s) : KeepsP b (s.regRead b' off) := KeepsP.cond (.mk h) (.mk h)

theorem Keeps.dispatch (h : Keeps b s) : KeepsP b (s.dispatch typ bs) := by
  dsimp only [State.dispatch]
  split
  · exact h.getStatus
  · exact h.partSet
  · exact h.allowSet
  · exact h.asidSet
  · exact h.handlerSet
  · exact h.queueSet
  · exact h.aclSet
  · exact h.pinqSet
  · exact h.pinClear
  · exact h.saveSet
  · exact h.keyLoad
  · exact h.keyClear
  · exact h.eventRead
  · split
    exacts [h.counterRead, .mk h]
  · exact h.dieReset
  · exact .mk h.setCtl
  · split
    exacts [h.regRead, .mk h]
  · exact .mk h

theorem Keeps.submit (h : Keeps b s) : Keeps b s.submit :=
  h.cond (h.reply.cond (h.reply.cond (h.reply.cond (h.setCtl.cond (h.handle (fun _ h1 => h1.dispatch))))))

theorem Keeps.clearDone (h : Keeps b s) : Keeps b s.clearDone := h.setCtl

theorem Keeps.bar0Write (h : Keeps b s) : Keeps b (s.bar0Write off bs) := by
  dsimp only [State.bar0Write]
  split
  exacts [h.append.fst, h.setCtl.cond (((h.submit.cond h).clearDone.cond (h.submit.cond h)).cond h)]

theorem Keeps.execBar0Access (h : Keeps b s) : KeepsX b (execBar0Access off write s) := by
  dsimp only [Machine.execBar0Access]
  refine KeepsX.cond (.next h) ?_
  split
  exacts [.next h.bar0Write, .next h.complete?]

/-! ### One arm for every instruction -/

/-- Every Quatin instruction keeps the canonical form of memory and the parts of the package. -/
theorem Keeps.execQuatin (h : Keeps b s) (q : hdrOf i = some hd) : KeepsX b (exec i s) := by
  cases i with
  | brx | callx | ret | bra | call => exact h.issue fun _ _ h1 => h1.transfer
  | exit => exact h.issue fun _ _ h1 => .mk (h1.foldl fun _ _ h3 => h3.quit)
  | yield => exact h.issue fun _ _ h1 => KeepsE.cond h1 (.mk h1.setWarp)
  | reorder => exact h.execReorder
  | mov | sel | imad | imadw | iadd64 | bfi | icmp | pand | por | pxor | pnot | vote | shfl | bcast | lea | ffma | fcmp | cvt | cvts | pack
    | unpack | retag | scale | blkscale | quant | rdrack | movi =>
    exact h.issue fun _ _ h1 => h1.perLane
  | imin | imax | iadd | isub | iminImm | imaxImm | iaddImm => exact h.issue fun _ _ h1 => h1.elemArith
  | iabs | ineg | not | popc | clz | brev | movhi => exact h.issue fun _ _ h1 => h1.op1
  | imul | imulh | imulImm => exact h.issue fun _ _ h1 => h1.op2
  | and | or | xor | andn | shl | shr | sar | rotl | bfx | andImm | orImm | xorImm | shlImm | shrImm | sarImm | rotlImm | bfxImm =>
    exact h.issue fun _ _ h1 => h1.bitwise
  | rdspec => exact h.execRdspec
  | wrspec => exact h.execWrspec
  | fadd | fsub | fmul | faddImm | fmulImm => exact h.issue fun _ _ h1 => h1.f32op2
  | fmin | fmax => exact h.issue fun _ _ h1 => h1.minMax
  | frcp | frsq | fsqrt | fexp2 | flog2 | fsin | fcos => exact h.issue fun _ _ h1 => h1.f32un
  | hadd2 | hmul2 | hfma2 => exact h.issue fun _ _ h1 => h1.packed
  | dadd | dmul | dfma => exact h.issue fun _ _ h1 => h1.f64op
  | phase => exact h.issue fun _ _ h1 => KeepsE.cond h1 (.go h1.setWarp)
  | shmap => exact h.issue fun _ _ h1 => (h1.tickStamp.foldl fun _ _ h3 => h3.setThread).perLane
  | syncwInit => exact h.execSyncwInit
  | syncwAdd => exact h.execSyncwAdd
  | syncwWait => exact h.execSyncwWait
  | mclaim => exact h.execMclaim
  | mrel => exact h.execMrel
  | tclaim => exact h.execTclaim
  | trel => exact h.execTrel
  | mzero => exact h.execMzero
  | trd => exact h.execTrd
  | twr => exact h.execTwr
  | mstat => exact h.execMstat
  | resmode => exact h.execResmode
  | probe => exact h.execProbe
  | raisegen => exact h.execRaisegen
  | fence | fenceSys => exact h.issue fun _ _ h1 => h1.memLanes (fun _ _ _ h3 => .mk h3.pushFence)
  | leave => exact h.issue fun _ _ h1 => h1.once (fun _ _ _ h3 => KeepsE.cond h3.faultAll (.go (h3.foldl fun _ _ h4 => h4.leaveGroup)))
  | gsync => exact h.issue fun _ _ h1 => h1.once (fun _ _ _ h3 => KeepsE.cond h3.faultAll (.go h3.waitAll.tryBarrier))
  | pinit => exact h.issue fun _ _ h1 => h1.penOp (fun _ _ _ _ _ h3 => KeepsE.cond h3.faultAll (.go h3.setPen))
  | pclaim | ptake => exact h.issue fun _ _ h1 => h1.penOp (fun _ _ _ _ _ h3 => h3.penGrant)
  | pfill | pfree => exact h.issue fun _ _ h1 => h1.penOp (fun _ _ _ _ _ h3 => h3.penRelease)
  | pquery => exact h.issue fun _ _ h1 => h1.penOp (fun _ _ _ _ _ h3 => h3.giveAll)
  | waitc => exact h.issue fun _ _ h1 => KeepsE.cond h1 (.mk h1.waitAll.engineSettle.fst)
  | trap | brkpt => exact h.issue fun _ _ h1 => KeepsE.cond h1 h1.faultAll
  | eret => exact h.issue fun _ _ h1 => .mk (h1.foldl fun _ _ h3 => h3.returnFault).takeFaults
  | nap => exact h.issue fun _ _ h1 => KeepsE.cond h1 (.go (h1.foldl fun _ _ h3 => h3.setThread))
  | pairedWord => exact h.issue fun _ _ h1 => h1.commit.s.commit.s.commit
  | ld => exact h.execLd
  | st => exact h.execSt
  | ldw => exact h.execLdw
  | pref => exact h.execPref
  | discard => exact h.execDiscard
  | pin => exact h.execPin
  | unpin => exact h.execUnpin
  | lds | sts | ldst => exact h.issue fun _ _ h1 => h1.passes
  | give => exact h.execGive
  | atom | atomcas | red => exact h.atomic
  | join => exact h.issue fun _ _ h1 => h1.once (fun _ _ _ h3 => h3.join.fst.giveAll)
  | pagein => exact h.execPagein
  | cpy | cpyg | cpys => exact h.issue fun _ _ h1 => h1.copyIssue
  | coll => exact h.issue fun _ _ h1 => h1.collIssue
  | mma => exact h.execMma
  | launch => exact h.execLaunch
  | _ => cases q

/-- So does every Creven instruction and every event. -/
theorem Keeps.execOther (h : Keeps b s) (q : hdrOf i = none) : KeepsX b (exec i s) := by
  cases i with
  | add => exact h.execAdd
  | sub => exact h.execSub
  | mul => exact h.execMul
  | crevenAnd => exact h.execCrevenAnd
  | crevenOr => exact h.execCrevenOr
  | crevenXor => exact h.execCrevenXor
  | crevenShl => exact h.execCrevenShl
  | crevenShr => exact h.execCrevenShr
  | crevenSar => exact h.execCrevenSar
  | slt => exact h.execSlt
  | sltu => exact h.execSltu
  | addi => exact h.execAddi
  | shli => exact h.execShli
  | shri => exact h.execShri
  | sari => exact h.execSari
  | ori => exact h.execOri
  | lui => exact h.execLui
  | ldg => exact h.execLdg
  | stg => exact h.execStg
  | ldl => exact h.execLdl
  | stl => exact h.execStl
  | amo => exact h.execAmo
  | swadd => exact h.execSwadd
  | swwait => exact h.execSwwait
  | crevenFence => exact h.execCrevenFence
  | crevenFenceSys => exact h.execCrevenFenceSys
  | beq => exact h.execBeq
  | bne => exact h.execBne
  | blt => exact h.execBlt
  | bge => exact h.execBge
  | jal => exact h.execJal
  | jalr => exact h.execJalr
  | halt => exact h.execHalt
  | rds => exact h.execRds
  | wrs => exact h.execWrs
  | svr => exact h.execSvr
  | svw => exact h.execSvw
  | psend => exact h.execPsend
  | precv => exact h.execPrecv
  | vld => exact h.execVld
  | vst => exact h.execVst
  | vgath => exact h.execVgath
  | vscat => exact h.execVscat
  | vadd | vsub | vmul | vmin | vmax | vfma | vand | vor | vxor => exact h.valu
  | vcmp => exact h.execVcmp
  | vcvt => exact h.execVcvt
  | vsplat => exact h.execVsplat
  | vextr => exact h.execVextr
  | kset => exact h.execKset
  | kget => exact h.execKget
  | slotArbitration => exact h.execSlotArbitration
  | escapeIssue => exact h.execEscapeIssue
  | variableLatencyWrite => exact h.execVariableLatencyWrite
  | napExpiry => exact h.execNapExpiry
  | warpRetire => exact h.execWarpRetire
  | watchdogExpiry => exact h.execWatchdogExpiry
  | reservedEncoding => exact h.execReservedEncoding
  | giveDrainEnd => exact h.execGiveDrainEnd
  | wideBarrierCompletion => exact h.execWideBarrierCompletion
  | massReleaseAdmit => exact h.execMassReleaseAdmit
  | penBoxReleaseComplete => exact h.execPenBoxReleaseComplete
  | copyChunk => exact h.execCopyChunk
  | copyComplete => exact h.execCopyComplete
  | collComplete => exact h.execCollComplete
  | matrixEngineServe => exact h.execMatrixEngineServe
  | mmaBlockEnd => exact h.execMmaBlockEnd
  | mmaPenFree => exact h.execMmaPenFree
  | mmaComplete => exact h.execMmaComplete
  | loadReturn => exact h.execLoadReturn
  | storeLeaveQueue => exact h.execStoreLeaveQueue
  | accessAcknowledged => exact h.execAccessAcknowledged
  | accessTimeout => exact h.execAccessTimeout
  | psendStatus => exact h.execPsendStatus
  | predictorDecay => exact .next h.setDie
  | generationRaise => exact h.execGenerationRaise
  | baleTurn => exact .next (h.put.setDie.setCtl.cond h.put)
  | ringVisit => exact KeepsX.cond (.next h) (.next h.setCore.setDie)
  | rowRingTurn => exact .next h.put
  | rowRingVisit => exact KeepsX.cond (.next h) (.next h.setScore.put)
  | reservationGrant => exact h.execReservationGrant
  | halfColumnExit => exact .next (h.setCore.cond h)
  | dependencePoll => exact h.execDependencePoll
  | priorityRise | passoverExpiry => exact .next h.modHead
  | warpAdmission => exact h.execWarpAdmission
  | powerUp => exact Keeps.execPowerUp
  | launchEnd _ st => exact h.execLaunchEnd (x := st)
  | syncWordAdd => exact h.execSyncWordAdd
  | atomicPerform => exact h.execAtomicPerform
  | pageinRequest => exact h.execPageinRequest
  | lineRecall => exact .next h.recallLine
  | pageWalk => exact KeepsX.cond (.next h) (.next h.xlWalk.fst)
  | pageinCompletion => exact h.execPageinCompletion
  | regulatorAlarm => exact KeepsX.cond (.next h) (.next h.setCtl.put.event)
  | regulatorAlarmClear => exact KeepsX.cond (.next h) (.next h.setCtl.event)
  | droopStretch => exact .next h.setCore
  | schedulerStart => exact h.execSchedulerStart
  | launchAppend => exact .next (h.append.fst.cond h)
  | stackInstanceStart => exact h.execStackInstanceStart
  | twinDrainEnd => exact h.execTwinDrainEnd
  | stackCoreResume => exact h.execStackCoreResume
  | preemptRequest => exact KeepsX.cond (.next h.setCore) (.next h)
  | contextSwap => exact h.execContextSwap
  | contextRestore => exact h.execContextRestore
  | stackCorePark => exact h.execStackCorePark
  | dieLost => exact KeepsX.cond (.next h) (.next h.loseDie.resplit)
  | stackLost =>
    exact KeepsX.cond (.next h) (.next ((h.foldl fun _ _ h1 => h1.endLaunch).setStack.foldl fun _ _ h1 => h1.setScore).put.event.mendYard)
  | attachPortFailure => exact .next (h.setCtl.stackUncorr.foldl fun _ _ h1 => h1.setCore).failRecord.mendYard
  | yardLinkFailure => exact .next h.setCtl.stackUncorr.stackUncorr.failRecord.mendYard
  | heartbeatTimeout => exact h.execHeartbeatTimeout
  | controlDieFailure => exact .next (h.failRecord.setCtl.cond h)
  | correctedError => exact h.execCorrectedError
  | uncorrectableError => exact h.execUncorrectableError
  | snapshotOpen => exact KeepsX.cond (.next h.snapOpen) (.next h)
  | snapshotUnitCopy => exact h.execSnapshotUnitCopy
  | psendChunkAccept => exact h.execPsendChunkAccept
  | flitSend => exact h.execFlitSend
  | flitReceive | restripe => exact .next (h.cond h.setPath)
  | pathDown => exact h.execPathDown
  | pathUp => exact KeepsX.cond (.next h) (.next h.setPath.setCtl.noteLive.linkEvent.retryMgmt)
  | lossOfLight =>
    exact KeepsX.cond (.next h) (.next (h.setPath.setStack.linkEvent.downPath.cond h.setPath.setStack.linkEvent.setPath.restripeMsg))
  | laserModuleFailure => exact KeepsX.cond (.next h) (.next (h.setStack.event.foldl fun _ _ h1 => h1.downPath.cond h1))
  | restripeSwitch => exact h.execRestripeSwitch
  | laneReturn => exact KeepsX.cond (.next h) (.next h.setPath.setStack)
  | keyFlip => exact h.execKeyFlip
  | oldKeyDiscard => exact h.execOldKeyDiscard
  | keyExhaustion => exact .next (h.downPath.cond h)
  | laneenWrite => exact .next h.writeLaneen
  | laserctlWrite => exact .next h.writeLaserctl
  | inboundPacket => exact h.execInboundPacket
  | safeStateReport | msixUnmask => exact .next h.setCtl
  | bar0Access => exact h.execBar0Access
  | bar2Access => exact h.execBar2Access
  | mailboxGo => exact .next h.submit
  | mailboxDoneClear => exact .next h.clearDone
  | getStatus => exact .next (h.handle (fun _ h1 => h1.getStatus))
  | partSet => exact .next (h.handle (fun _ h1 => h1.partSet))
  | allowSet => exact .next (h.handle (fun _ h1 => h1.allowSet))
  | asidSet => exact .next (h.handle (fun _ h1 => h1.asidSet))
  | handlerSet => exact .next (h.handle (fun _ h1 => h1.handlerSet))
  | queueSet => exact .next (h.handle (fun _ h1 => h1.queueSet))
  | aclSet => exact .next (h.handle (fun _ h1 => h1.aclSet))
  | pinqSet => exact .next (h.handle (fun _ h1 => h1.pinqSet))
  | pinClear => exact .next (h.handle (fun _ h1 => h1.pinClear))
  | saveSet => exact .next (h.handle (fun _ h1 => h1.saveSet))
  | keyLoad => exact .next (h.handle (fun _ h1 => h1.keyLoad))
  | keyClear => exact .next (h.handle (fun _ h1 => h1.keyClear))
  | eventRead => exact .next (h.handle (fun _ h1 => h1.eventRead))
  | counterRead => exact .next (h.handle (fun _ h1 => h1.counterRead))
  | hostXfer => exact .next ((h.handle (fun _ h1 => h1.hostMove)).cond h)
  | linkKey => exact .next ((h.handle (fun _ h1 => h1.checked (fun _ h2 => h2.setPath))).cond h)
  | dieReset => exact .next (h.handle (fun _ h1 => h1.dieReset))
  | imageWrite => exact .next ((h.handle (fun _ h1 => h1.checked (fun _ h2 => h2.setCtl))).cond h)
  | eventFwd => exact .next (h.handle (fun _ h1 => .mk h1.setCtl))
  | regRead => exact .next (h.handle (fun _ h1 => h1.regRead))
  | registerWrite => exact .next (h.regWriteCtl.cond h)
  | _ => cases q

theorem Keeps.exec (h : Keeps b s) : KeepsX b (exec i s) := by
  cases q : hdrOf i with
  | some hd => exact h.execQuatin q
  | none => exact h.execOther q

/-! ### The clock and the cycle of a core -/

theorem Keeps.fetchFault (h : Keeps b s) : Keeps b (s.fetchFault c w pc cls wp) := h.setWarp.advance.takeFaults.finish

theorem Keeps.clocks (h : Keeps b s) : Keeps b s.clocks := h.put

theorem Keeps.settleDue (h : Keeps b s) : Keeps b s.settleDue := h.foldl fun _ _ h1 => h1.cond h1.settleCore

theorem Keeps.countPassed (h : Keeps b s) : Keeps b s.countPassed := h.cond (h.foldl fun _ _ h1 => h1.cond h1.modHead)

theorem Keeps.endStrayRun (h : Keeps b s) : Keeps b (s.endStrayRun c q) := by
  dsimp only [State.endStrayRun]
  split
  · exact h
  · split
    exacts [h.setCore, h.cond h.setWarp.setCore]

theorem Keeps.endStaleWaits (h : Keeps b s) : Keeps b (s.endStaleWaits c) := by
  dsimp only [State.endStaleWaits]
  refine h.foldl fun _ _ h1 => ?_
  split
  · exact h1
  · split
    exacts [h1.cond h1.endBWait, h1.endBWait]

theorem Keeps.serveQuad (h : Keeps b s) : Keeps b (s.serveQuad c q) := by
  dsimp only [State.serveQuad]
  split
  · exact h.noteShort
  · split
    exacts [h.noteShort.setCore.grant, h.noteShort.setCore]

theorem Keeps.serveCopy (h : Keeps b s) : Keeps b (s.serveCopy c) := by
  dsimp only [State.serveCopy]
  split
  exacts [h.cond h.copyDraw, h]

theorem Keeps.serveCore (h : Keeps b s) : Keeps b (s.serveCore c) :=
  (h.ungrant.foldl fun _ _ h1 => h1.endStrayRun).endStaleWaits.foldl fun _ _ h1 => h1.serveCopy.cond h1.serveQuad

theorem Keeps.runCore (h : Keeps b s) : Keeps b (s.runCore c) := h.cond h.serveCore.put

theorem Keeps.tick (h : Keeps b s) : Keeps b s.tick :=
  ((h.clocks.heartbeats.cond h.clocks).yardCycle.cond (h.clocks.heartbeats.cond h.clocks)).countPassed.settleDue.put

/-! ### What comes next -/

/-- The same of every step of a list. -/
def KeepsL (l : List (State → Out)) : Prop := ∀ f ∈ l, ∀ b s, Keeps b s → KeepsX b (f s)

theorem KeepsL.nil : KeepsL [] := fun _ h => nomatch h

theorem KeepsL.one (h : ∀ b s, Keeps b s → KeepsX b (f s)) : KeepsL [f] := fun _ hg => List.mem_singleton.1 hg ▸ h

theorem KeepsL.append (h : KeepsL l) (g : KeepsL r) : KeepsL (l ++ r) := fun f hf => (List.mem_append.1 hf).elim (h f) (g f)

theorem KeepsL.cond [Decidable c] (h : KeepsL l) (g : KeepsL r) : KeepsL (if c then l else r) := by
  split
  exacts [h, g]

theorem KeepsL.flatMap {α : Type} {l : List α} {g : α → List (State → Out)} (h : ∀ x, KeepsL (g x)) :
    KeepsL (l.flatMap g) := fun f hf =>
  let ⟨x, _, hx⟩ := List.mem_flatMap.1 hf
  h x f hx

theorem KeepsL.map {α : Type} {l : List α} {g : α → State → Out} (h : ∀ x b s, Keeps b s → KeepsX b (g x s)) :
    KeepsL (l.map g) := fun _ hf =>
  let ⟨x, _, hx⟩ := List.mem_map.1 hf
  hx ▸ h x

theorem KeepsL.filterMap {α : Type} {l : List α} {g : α → Option (State → Out)} (h : ∀ x, KeepsL (g x).toList) :
    KeepsL (l.filterMap g) := fun f hf =>
  let ⟨x, _, hx⟩ := List.mem_filterMap.1 hf
  h x f (by simp [hx])

theorem KeepsL.take (h : KeepsL l) : KeepsL (l.take n) := fun f hf => h f (List.mem_of_mem_take hf)

theorem KeepsL.accSteps : KeepsL (State.accSteps s) := by
  refine .flatMap fun a => .cond .nil (.cond ?_ (.cond ?_ ?_))
  · exact .cond (.one fun _ _ h => h.execAtomicPerform) .nil
  · exact .cond (.one fun _ _ h => h.execLoadReturn) .nil
  · exact .cond (.one fun _ _ h => h.execAccessAcknowledged) .nil

theorem KeepsL.coreSteps : KeepsL (State.coreSteps s c) := by
  refine .append (.append (.append (.append (.append (.append ?stores ?pends) ?chunk) ?copies) ?mat) ?drain) ?bars
  case stores =>
    refine .filterMap fun w => ?_
    split
    · split
      exacts [.one fun _ _ h => h.execStoreLeaveQueue, .nil]
    · exact .nil
  case pends => exact .flatMap fun w => .map fun p _ _ h => h.execVariableLatencyWrite
  case chunk =>
    split
    exacts [.cond (.one fun _ _ h => h.execCopyChunk) .nil, .nil]
  case copies => exact .map fun q _ _ h => h.execCopyComplete
  case mat =>
    split
    · exact .cond (.one fun _ _ h => h.execMatrixEngineServe) .nil
    · split
      · exact .nil
      · exact .cond (.cond (.one fun _ _ h => h.execMmaBlockEnd) .nil)
          (.cond (.cond (.one fun _ _ h => h.execMmaPenFree) .nil) (.one fun _ _ h => h.execMmaComplete))
  case drain =>
    split
    exacts [.cond (.one fun _ _ h => h.execTwinDrainEnd) .nil, .nil]
  case bars =>
    refine .take (.flatMap fun w => .filterMap fun t => ?_)
    split
    · split
      exacts [.one fun _ _ h => h.execWideBarrierCompletion, .nil]
    · exact .nil

theorem KeepsL.dieSteps : KeepsL (State.dieSteps s k) :=
  .append (.cond .nil (.one fun _ _ h => h.execWarpAdmission)) (.map fun _ _ _ h => h.execGiveDrainEnd)

theorem KeepsL.pathSteps : KeepsL (State.pathSteps s k) := by
  refine .flatMap fun p => .cond .nil (.append (.append (.append (.append ?send ?switch) ?flip) ?discard) ?down)
  case send => exact .one fun _ _ h => h.execFlitSend
  case switch => exact .cond (.one fun _ _ h => h.execRestripeSwitch) .nil
  case flip => exact .cond (.one fun _ _ h => h.execKeyFlip) .nil
  case discard => exact .cond (.one fun _ _ h => h.execOldKeyDiscard) .nil
  case down => exact .cond (.one fun _ _ h => h.execPathDown) .nil

theorem KeepsL.stackSteps : KeepsL (State.stackSteps s k) := by
  refine .append (.append (.cond (.one fun _ _ h => h.execSnapshotUnitCopy) .nil) pathSteps)
    (.flatMap fun n => .append (.append (.append (.append ?park ?start) ?resume) ?sends) ?house)
  case park => exact .cond (.one fun _ _ h => h.execStackCorePark) .nil
  case start => exact .cond .nil (.one fun _ _ h => h.execStackInstanceStart)
  case resume => exact .cond .nil (.one fun _ _ h => h.execStackCoreResume)
  case sends => exact .map fun p _ _ h => h.execPsendStatus
  case house => exact .cond (.one fun _ _ h => .next h.startHouse) .nil

theorem KeepsL.otherSteps : KeepsL (State.otherSteps s) := by
  refine .append (.append (.cond (.append (.append (.append (.append ?polls ?start) ?ends) ?raises) ?pageins) ?beat) ?boxes) ?colls
  case polls =>
    refine .filterMap fun q => ?_
    split
    · split
      exacts [.one fun _ _ h => h.execDependencePoll, .nil]
    · exact .nil
  case start => exact .cond (.one fun _ _ h => h.execSchedulerStart) .nil
  case ends => exact .map fun l _ _ h => h.execLaunchEnd
  case raises => exact .map fun r _ _ h => h.execGenerationRaise
  case pageins => exact .map fun p _ _ h => h.execPageinRequest
  case beat => exact .one fun _ _ h => h.execHeartbeatTimeout
  case boxes => exact .map fun r _ _ h => h.execPenBoxReleaseComplete
  case colls => exact .map fun c _ _ h => h.execCollComplete

theorem KeepsL.enabled : KeepsL (State.enabled s) :=
  .append (.append (.append (.append accSteps (.flatMap fun _ => coreSteps)) (.flatMap fun _ => dieSteps)) (.flatMap fun _ => stackSteps))
    otherSteps

theorem KeepsX.ofMap {o : Option (State → Out)} (h : Keeps b s) (ho : ∀ f, o = some f → KeepsX b (f s)) :
    KeepsX b ((o.map fun f => f s).getD (.next s)) := by
  cases o with
  | none => exact .next h
  | some f => exact ho f (Eq.refl _)

theorem Keeps.choose (h : Keeps b s) : KeepsX b s.choose := by
  dsimp only [State.choose]
  split
  · refine .next ?_
    split
    exacts [h.tick, h.put]
  · refine KeepsX.ofMap h fun f hf => ?_
    exact KeepsL.enabled f (List.mem_of_getElem? hf) b s h

theorem Keeps.runWord (h : Keeps b s) : KeepsX b (s.runWord c w) := by
  dsimp only [State.runWord]
  split
  · exact .next h
  · split
    · exact .next h.breakRun
    · split
      exacts [.next (h.fetchInstr.eq ‹_›).fetchFault, (h.fetchInstr.eq ‹_›).noteFetch.put.exec]

theorem Keeps.runStack (h : Keeps b s) : KeepsX b (s.runStack n) := by
  dsimp only [State.runStack]
  split
  · exact .next h
  · split
    · exact .next h.serveWork
    · split
      · exact .next (h.fetch.eq ‹_›).stackFault
      · have h1 := h.fetch.eq ‹_›
        exact (h1.cond h1.setScore).put.exec

/-- The end of a step keeps what the state before it and the outcome keep. -/
theorem Keeps.closeStep (h : Keeps b s) (ho : KeepsX b o) : KeepsX b (closeStep s o) := by
  cases o with
  | next t => exact .next (h.unstuck (ho t (Eq.refl _))).put
  | fault => exact .fault
  | refused => exact .refused

/-- Every step keeps the canonical form of memory and the parts of the package. -/
theorem Keeps.ofStep : KeepsX s (Machine.step s) := by
  unfold Machine.step
  split
  · exact Keeps.closeStep (.put .rfl) (.exec (.put .rfl))
  · exact Keeps.closeStep (.put .rfl) (.runWord (.put .rfl))
  · exact Keeps.closeStep (.put .rfl) (.next (.runCore (.put .rfl)))
  · exact Keeps.closeStep (.put .rfl) (.next (.runPass (.put .rfl)))
  · exact Keeps.closeStep (.put .rfl) (.runStack (.put .rfl))
  · exact Keeps.closeStep .rfl (.choose .rfl)

end Sys2Proof.Machine

/-- Settles O60, by a lemma for every operation of the model: memory is written at the home slice alone, and no list of units changes its
length. -/
theorem stepKeeps : Obligations.StepKeeps := fun _ t hm hw e =>
  let k := Sys2Proof.Machine.Keeps.ofStep t e
  ⟨k.mem hm, k.whole hw⟩
end

section
/-! The events of failures, errors and snapshots (R25, R369, R451 to R458), for O53. Each section states what one kind of event leaves as it
was, as a frame, and then what the event does. -/

namespace Sys2Proof.Machine

/-! ### Event records, the yard and the ends of launches -/

/-- Noting a record changes nothing of the control die but its ring of events, its message signals and the copies for the bridge device. -/
theorem State.event_ctl (s : State) (typ code part ukind unit ticks addr detail : Nat) :
    ∃ e d p m o, (s.event typ code part ukind unit ticks addr detail).ctl =
      { s.ctl with events := e, drops := d, msixPend := p, msixSent := m, toPeer := o } := by
  simp only [State.event, State.setCtl, Control.appendRec, Control.msix]
  repeat' split
  all_goals exact ⟨_, _, _, _, _, rfl⟩

@[simp] theorem Control.msix_events (k : Control) (v : Nat) : (k.msix v).events = k.events := by
  simp only [Control.msix]; split <;> [rfl; split <;> rfl]

@[simp] theorem Control.msix_drops (k : Control) (v : Nat) : (k.msix v).drops = k.drops := by
  simp only [Control.msix]; split <;> [rfl; split <;> rfl]

theorem Control.appendRec_room (k : Control) (r : EvRec) (h : k.events.length < 4096) : (k.appendRec r).events = k.events ++ [r] := by
  simp only [Control.appendRec, if_neg (Nat.not_le.2 h)]
  split <;> simp

theorem Control.appendRec_full (k : Control) (r : EvRec) (h : 4096 ≤ k.events.length) :
    (k.appendRec r).events = k.events ∧ (k.appendRec r).drops = k.drops + 1 := by
  simp [Control.appendRec, h]

/-- The record that `State.event` notes. -/
def State.record (s : State) (typ code part ukind unit ticks addr detail : Nat) : EvRec :=
  ⟨BitVec.ofNat 64 (typ * 2 ^ 56 + code % 256 * 2 ^ 48 + s.ctl.devnum % 4096 * 2 ^ 36 + part % 64 * 2 ^ 30 + ukind % 8 * 2 ^ 27
    + unit % 2048 * 2 ^ 16), BitVec.ofNat 64 ticks, BitVec.ofNat 64 addr, BitVec.ofNat 64 detail⟩

/-- What the ring of events holds after a record: it has joined, or been dropped and counted. -/
theorem State.event_events (s : State) (typ code part ukind unit ticks addr detail : Nat) :
    (s.ctl.events.length < 4096 → (s.event typ code part ukind unit ticks addr detail).ctl.events =
      s.ctl.events ++ [s.record typ code part ukind unit ticks addr detail]) ∧
    (4096 ≤ s.ctl.events.length → (s.event typ code part ukind unit ticks addr detail).ctl.events = s.ctl.events ∧
      (s.event typ code part ukind unit ticks addr detail).ctl.drops = s.ctl.drops + 1) := by
  have same : (s.event typ code part ukind unit ticks addr detail).ctl.events =
      (s.ctl.appendRec (s.record typ code part ukind unit ticks addr detail)).events ∧
    (s.event typ code part ukind unit ticks addr detail).ctl.drops =
      (s.ctl.appendRec (s.record typ code part ukind unit ticks addr detail)).drops := by
    simp only [State.event, State.setCtl, State.record]
    split <;> exact ⟨rfl, rfl⟩
  exact ⟨fun h => same.1.trans (s.ctl.appendRec_room _ h), fun h =>
    ⟨same.1.trans (s.ctl.appendRec_full _ h).1, same.2.trans (s.ctl.appendRec_full _ h).2⟩⟩

theorem State.event_tells (s : State) {typ code part kind : Nat} (unit ticks addr detail : Nat) (ht : typ < 256) (hc : code < 256)
    (hp : part < 64) (hk : kind < 8) :
    s.tells (s.event typ code part kind unit ticks addr detail) typ code part kind (unit % 2048) := by
  refine ⟨fun h => ⟨_, (s.event_events ..).1 h, ?_⟩, (s.event_events ..).2⟩
  have hd : s.ctl.devnum % 4096 < 4096 := Nat.mod_lt _ (by decide)
  have hu : unit % 2048 < 2048 := Nat.mod_lt _ (by decide)
  simp only [State.record, BitVec.toNat_ofNat, Nat.mod_eq_of_lt hc, Nat.mod_eq_of_lt hp, Nat.mod_eq_of_lt hk]
  generalize s.ctl.devnum % 4096 = dev at hd
  generalize unit % 2048 = u at hu
  omega

theorem State.event_tells_unit (s : State) {typ code part kind unit : Nat} (ticks addr detail : Nat) (ht : typ < 256) (hc : code < 256)
    (hp : part < 64) (hk : kind < 8) (hu : unit < 2048) :
    s.tells (s.event typ code part kind unit ticks addr detail) typ code part kind unit := by
  have h := s.event_tells unit ticks addr detail ht hc hp hk
  rwa [Nat.mod_eq_of_lt hu] at h

/-- Whether a record has been told depends on the rings of events alone. -/
theorem State.tells_of_events {s u t v : State} {typ code part kind unit : Nat} (h : u.tells t typ code part kind unit)
    (he : u.ctl.events = s.ctl.events) (hd : u.ctl.drops = s.ctl.drops) (hv : v.ctl = t.ctl) : s.tells v typ code part kind unit := by
  simpa only [State.tells, he, hd, hv] using h

@[simp] theorem State.mendYard_ids (s : State) : s.mendYard.accs.map Acc.id = s.accs.map Acc.id := by
  simp only [State.mendYard, List.map_map]
  refine List.map_congr_left fun a _ => ?_
  simp only [Function.comp]
  split <;> rfl

/-- A fold keeps what each of its steps keeps. -/
theorem foldl_keep {α β γ : Type} (g : β → γ) {f : β → α → β} (h : ∀ b a, g (f b a) = g b) (l : List α) (b : β) :
    g (l.foldl f b) = g b := by
  induction l generalizing b with
  | nil => rfl
  | cons a l ih => exact (ih _).trans (h b a)

theorem mget?_mem {α : Type} {m : List (Nat × α)} {i : Nat} {x : α} (h : mget? m i = some x) : (i, x) ∈ m := by
  induction m with
  | nil => simp [mget?] at h
  | cons p m ih =>
    obtain ⟨k, y⟩ := p
    simp only [mget?] at h
    split at h
    · simp_all
    · exact List.mem_cons_of_mem _ (ih h)

/-- How each launch has ended. -/
def State.ends (s : State) (i : Nat) : Option (Option (LStat × Nat)) := (s.launch? i).map Launch.ended

theorem State.ends_setLaunch (s : State) (l : Nat) {f : Launch → Launch} (hf : ∀ x, (f x).ended = x.ended) :
    (s.setLaunch l f).ends = s.ends := by
  funext i
  simp only [State.ends, State.launch?, State.setLaunch, mget?_mmod]
  split
  · subst_vars
    rw [Option.map_map]
    exact congrArg (Option.map · _) (funext hf)
  · rfl

theorem State.endLaunch_eq (s : State) (l : Nat) (st : LStat) (n : Nat) :
    ∃ ls ag, s.endLaunch l st n = { s with launches := ls, agenda := ag } := by
  simp only [State.endLaunch]
  split
  · exact ⟨_, _, rfl⟩
  · split
    exacts [⟨_, _, rfl⟩, ⟨_, _, rfl⟩]

theorem State.endLaunch_live {s : State} {l : Nat} {x : Launch} (hl : s.launch? l = some x) (hx : x.ended = none) (st : LStat) (n : Nat) :
    s.endLaunch l st n = (s.setLaunch l fun x => { x with ended := some (st, n) }).post (.launchEnd l st) := by
  simp [State.endLaunch, hl, hx]

theorem State.endLaunch_over {s : State} {l : Nat} (h : ∀ x, s.launch? l = some x → x.ended ≠ none) (st : LStat) (n : Nat) :
    s.endLaunch l st n = s := by
  simp only [State.endLaunch]
  cases hl : s.launch? l with
  | none => rfl
  | some x => exact if_pos (Option.isSome_iff_ne_none.2 (h x hl))

/-- A launch ends of the first cause that arises (R368). -/
theorem State.ends_endLaunch (s : State) (l i : Nat) (st : LStat) (n : Nat) :
    (s.endLaunch l st n).ends i = if i = l then (s.ends i).map fun e => some (e.getD (st, n)) else s.ends i := by
  by_cases h : ∀ x, s.launch? l = some x → x.ended ≠ none
  · rw [State.endLaunch_over h]
    split
    · subst_vars
      cases hl : s.launch? i with
      | none => simp [State.ends, hl]
      | some x =>
        obtain ⟨e, he⟩ := Option.ne_none_iff_exists'.1 (h x hl)
        simp [State.ends, hl, he]
    · rfl
  · simp only [not_forall, not_not] at h
    obtain ⟨x, hl, hx⟩ := h
    rw [State.endLaunch_live hl hx]
    dsimp only [State.ends, State.launch?, State.post, State.setLaunch] at hl ⊢
    rw [mget?_mmod]
    by_cases h : i = l
    · subst h
      simp [hl, hx]
    · rw [if_neg h, if_neg (Ne.symm h)]

/-- What a launch that ends for a cause has ended of, and one that does not. -/
def endOf (c : Bool) (st : LStat) (e : Option (LStat × Nat)) : Option (LStat × Nat) := if c then some (e.getD (st, 0)) else e

theorem endOf_eq (c : Bool) (st : LStat) (e : Option (LStat × Nat)) :
    endOf c st e = if c = true ∧ e = none then some (st, 0) else e := by
  cases c <;> cases e <;> simp [endOf]

theorem endOf_endOf (c d : Bool) (st : LStat) (e : Option (LStat × Nat)) : endOf d st (endOf c st e) = endOf (c || d) st e := by
  cases c <;> cases d <;> simp [endOf]

theorem State.ends_endIf (s : State) (c : Bool) (l i : Nat) (st : LStat) :
    (if c then s.endLaunch l st 0 else s).ends i = (s.ends i).map (endOf (c && l == i) st) := by
  cases c with
  | false => exact Option.map_id'.symm
  | true =>
    rw [if_pos rfl, s.ends_endLaunch]
    by_cases h : i = l
    · subst h
      rw [if_pos rfl, beq_self_eq_true]
      rfl
    · rw [if_neg h, show (true && l == i) = false by simpa using Ne.symm h]
      exact Option.map_id'.symm

/-- The launches of a list that satisfy a condition end, where the condition speaks of the cores alone: no other part but the agenda
changes. -/
theorem endAll (l : List (Nat × Launch)) (s : State) (st : LStat) (P : State → Nat → Bool) (Q : Nat → Bool)
    (hP : ∀ u, u.cores = s.cores → P u = Q) :
    (∃ ls ag, l.foldl (fun u p => if P u p.1 then u.endLaunch p.1 st 0 else u) s = { s with launches := ls, agenda := ag }) ∧
    ∀ i, (l.foldl (fun u p => if P u p.1 then u.endLaunch p.1 st 0 else u) s).ends i =
      (s.ends i).map (endOf (l.any fun p => Q p.1 && p.1 == i) st) := by
  induction l generalizing s with
  | nil => exact ⟨⟨_, _, rfl⟩, fun i => Option.map_id'.symm⟩
  | cons p l ih =>
    obtain ⟨ls, ag, hs⟩ : ∃ ls ag, (if P s p.1 then s.endLaunch p.1 st 0 else s) = { s with launches := ls, agenda := ag } := by
      split
      exacts [s.endLaunch_eq p.1 st 0, ⟨_, _, rfl⟩]
    obtain ⟨⟨ls', ag', hl⟩, hends⟩ := ih { s with launches := ls, agenda := ag } hP
    rw [List.foldl_cons, hs]
    refine ⟨⟨ls', ag', hl⟩, fun i => ?_⟩
    rw [hends, ← hs, s.ends_endIf, Option.map_map, hP s rfl, List.any_cons]
    exact congrArg (Option.map · _) (funext fun e => endOf_endOf ..)

/-! ### Errors (R452, R453) -/

theorem Warp.hold_write_v (w : Warp) (i l : Nat) (r : Reg) (m : RName) (j : Nat) (hl : l < 128) (hj : j < 128) :
    (w.write (.v i) l r).hold m j = if m = .v i ∧ j = l then r else w.hold m j := by
  cases m with
  | v n =>
    simp only [Warp.write, Warp.hold, mget_mset, RName.v.injEq]
    by_cases h : i * 128 + l = n * 128 + j
    · rw [if_pos h, if_pos (by omega)]
    · rw [if_neg h, if_neg (by omega)]
  | w n => simp [Warp.write, Warp.hold]
  | p n => exact (if_neg (by simp)).symm
  | seed => simp [Warp.write, Warp.hold]

theorem Warp.hold_write_w (w : Warp) (i l : Nat) (r : Reg) (m : RName) (j : Nat) :
    (w.write (.w i) l r).hold m j = if m = .w i then r else w.hold m j := by
  cases m with
  | v n => simp [Warp.write, Warp.hold]
  | w n => simp [Warp.write, Warp.hold, eq_comm]
  | p n => exact (if_neg (by simp)).symm
  | seed => simp [Warp.write, Warp.hold]

theorem State.warp?_setCore (s : State) (c k v : Nat) {f : Core → Core} (hf : ∀ x, (f x).ctx = x.ctx) :
    (s.setCore c f).warp? k v = s.warp? k v := by
  simp only [State.warp?, State.core_setCore_eq]
  split
  exacts [congrArg (fun x : Ctx => mget? x.warps v) (hf _), rfl]

/-- A register file is written and an error counted at its core: nothing else changes. -/
theorem strike_warp (s : State) (c w : Nat) (f : Warp → Warp) {wp : Warp} (hw : s.warp? c w = some wp) :
    let t := (s.setWarp c w f).setCore c fun k => k.addUncorr 1
    (∀ m l, t.reg c w m l = (f wp).hold m l) ∧ (t.core c).uncorr = (s.core c).uncorr + 1 ∧
      (∀ c' w', (c', w') ≠ (c, w) → t.warp? c' w' = s.warp? c' w') ∧ t = { s with cores := t.cores } := by
  have hc := State.warp?_core_lt hw
  refine ⟨fun m l => ?_, ?_, fun c' w' hn => ?_, rfl⟩
  · refine State.reg_eq ?_ m l
    rw [State.warp?_setCore _ _ _ _ (f := fun k => k.addUncorr 1) fun _ => rfl, State.warp?_setWarp s c w c w f hc, hw]
    simp
  · rw [State.core_setCore _ _ _ _ (hc.trans_eq (lmod_length ..).symm), if_pos rfl, State.setWarp, State.core_setCore _ _ _ _ hc,
      if_pos rfl]
    rfl
  · rw [State.warp?_setCore _ _ _ _ (f := fun k => k.addUncorr 1) fun _ => rfl]
    exact (Elsewhere.setWarp s c w f).warps c' w' hn

theorem uncorrectableVreg (s : State) (r : TRef) (n : Nat) (hw : s.warp? r.core r.warp ≠ none) (hl : r.lane < 128) :
    ∃ t v, exec (.uncorrectableError (.vreg r n)) s = .next t ∧
    (∀ m l, l < 128 → m ≠ .seed → t.reg r.core r.warp m l = if m = .v n ∧ l = r.lane then ⟨v, .poison⟩ else s.reg r.core r.warp m l) ∧
    (t.core r.core).uncorr = (s.core r.core).uncorr + 1 ∧ (∀ c w, (c, w) ≠ (r.core, r.warp) → t.warp? c w = s.warp? c w) ∧
    t = { s with cores := t.cores } := by
  obtain ⟨wp, hwp⟩ := Option.ne_none_iff_exists'.1 hw
  obtain ⟨hreg, rest⟩ := strike_warp s r.core r.warp
    (fun w => w.write (.v n) r.lane ⟨Config.undef s.ticket (rkey (.v n) r.lane), .poison⟩) hwp
  refine ⟨_, Config.undef s.ticket (rkey (.v n) r.lane), rfl, fun m l h _ => ?_, rest⟩
  rw [State.reg_eq hwp]
  exact (hreg m l).trans (Warp.hold_write_v _ _ _ _ _ _ hl h)

theorem uncorrectableUreg (s : State) (c w n : Nat) (hw : s.warp? c w ≠ none) :
    ∃ t v, exec (.uncorrectableError (.ureg c w n)) s = .next t ∧
    (∀ m l, l < 128 → m ≠ .seed → t.reg c w m l = if m = .w n then ⟨v, .poison⟩ else s.reg c w m l) ∧
    (t.core c).uncorr = (s.core c).uncorr + 1 ∧ (∀ c' w', (c', w') ≠ (c, w) → t.warp? c' w' = s.warp? c' w') ∧
    t = { s with cores := t.cores } := by
  obtain ⟨wp, hwp⟩ := Option.ne_none_iff_exists'.1 hw
  obtain ⟨hreg, rest⟩ := strike_warp s c w (fun x => x.write (.w n) 0 ⟨Config.undef s.ticket (rkey (.w n) 0), .poison⟩) hwp
  refine ⟨_, Config.undef s.ticket (rkey (.w n) 0), rfl, fun m l _ _ => ?_, rest⟩
  rw [State.reg_eq hwp]
  exact (hreg m l).trans (Warp.hold_write_w ..)

theorem mem_markIn (l : List Nat) (x y : Nat) : y ∈ markIn l x ↔ y = x ∨ y ∈ l := by
  induction l with
  | nil => simp [markIn]
  | cons z l ih =>
    simp only [markIn]
    split
    · simp
    · split
      · subst_vars; simp
      · rw [List.mem_cons, ih, List.mem_cons]; tauto

theorem mem_foldl_markIn (us l : List Nat) (y : Nat) : y ∈ us.foldl markIn l ↔ y ∈ l ∨ y ∈ us := by
  induction us generalizing l with
  | nil => simp
  | cons u us ih => rw [List.foldl_cons, ih, mem_markIn, List.mem_cons]; tauto

theorem mem_markOut (l : List Nat) (x y : Nat) : y ∈ markOut l x ↔ y ∈ l ∧ y ≠ x := by simp [markOut]

/-- The core at which an error of a die is counted is one of the die's. -/
theorem State.errCore_div (s : State) (k : Nat) (n : Option Nat) (h : ∀ e ∈ (s.die k).shedMap, e.1 < 512) : s.errCore k n / 8 = k := by
  simp only [State.errCore]
  split
  · rename_i e he
    obtain ⟨m, -, hm⟩ := Option.bind_eq_some_iff.1 he
    have := h e (List.mem_of_find?_eq_some hm)
    omega
  · omega

theorem State.errCore_none_div (s : State) (k : Nat) : s.errCore k none / 8 = k := by
  simp only [State.errCore, Option.bind_none]
  omega

/-- An error of an array of a core or a die is counted at its core. -/
theorem uncorrectable_inl (s : State) (p : ErrPlace) (c : Nat) (h : s.errAt p = .inl c) :
    exec (.uncorrectableError p) s = .next ((s.errMark p).setCore c fun k => { k with uncorr := k.uncorr + 1 }) := by
  cases p with
  | memory sec => simp [State.errAt] at h
  | _ =>
    injection h with h
    subst h
    rfl

theorem uncorrectableShed (s : State) (k n w : Nat) (hd : s.dies.length = 8) (hk : k < 8) :
    ∃ t c, exec (.uncorrectableError (.shedWord k n w)) s = .next t ∧ s.errAt (.shedWord k n w) = .inl c ∧
    (∀ q, q ∈ (mget (t.die k).sheds n ⟨[], [], []⟩).marks ↔ q = w ∨ q ∈ (mget (s.die k).sheds n ⟨[], [], []⟩).marks) ∧
    (mget (t.die k).sheds n ⟨[], [], []⟩).bytes = (mget (s.die k).sheds n ⟨[], [], []⟩).bytes ∧
    { t with dies := s.dies } = s.setCore c fun k => { k with uncorr := k.uncorr + 1 } := by
  refine ⟨_, s.errCore k (some n), uncorrectable_inl s _ _ rfl, rfl, ?_⟩
  have hdie := State.die_setDie s k k (fun d =>
    { d with sheds := mset d.sheds n { mget d.sheds n ⟨[], [], []⟩ with marks := markIn (mget d.sheds n ⟨[], [], []⟩).marks w } })
    (hd.symm ▸ hk)
  rw [if_pos rfl] at hdie
  refine ⟨fun q => ?_, ?_, rfl⟩ <;> rw [State.die_setCore, State.errMark, hdie, mget_mset, if_pos rfl]
  exact mem_markIn ..

theorem State.stackUncorr_uncorr (s : State) (k j : Nat) (hs : s.stks.length = 16) (hj : j < 16) :
    ((s.stackUncorr k).stack j).uncorr = (s.stack j).uncorr + if j = k then 1 else 0 := by
  rw [State.stackUncorr, State.stack_setStack s k j _ (hs.symm ▸ hj)]
  by_cases h : j = k
  · rw [if_pos h.symm, if_pos h]
  · rw [if_neg (Ne.symm h), if_neg h]; simp

theorem State.stackUncorr_beyond (s : State) (k : Nat) (h : s.stks.length ≤ k) : (s.stackUncorr k).stack k = s.stack k := by
  have : ¬ k < s.stks.length := by omega
  simp [State.stackUncorr, State.setStack, State.stack, lget, this]

theorem uncorrectableMemory (s : State) (sec : Nat) (hs : s.stks.length = 16) :
    ∃ t, exec (.uncorrectableError (.memory sec)) s = .next t ∧ t.mem = s.mem ∧ (∀ q, q ∈ t.marks ↔ q = sec ∨ q ∈ s.marks) ∧
    (t.stack (homeOf (32 * sec))).uncorr = (s.stack (homeOf (32 * sec))).uncorr + (if homeOf (32 * sec) < 16 then 1 else 0) ∧
    s.tells t 4 0 0 2 (homeOf (32 * sec) % 2048) ∧ (t.cores, t.dies, t.scores, t.launches) = (s.cores, s.dies, s.scores, s.launches) := by
  refine ⟨_, rfl, rfl, fun q => mem_markIn .., ?_, ?_, rfl⟩
  · change ((s.stackUncorr (homeOf (32 * sec))).stack (homeOf (32 * sec))).uncorr = _
    split
    · rw [State.stackUncorr_uncorr s _ _ hs ‹_›, if_pos rfl]
    · rw [State.stackUncorr_beyond s _ (by omega)]; simp
  · exact State.tells_of_events (State.event_tells _ _ _ _ _ (by decide) (by decide) (by decide) (by decide)) rfl rfl rfl

/-! ### Ports, links and the control die (R25) -/

/-- From `s` to `t` the ring of events has received a record, or dropped and counted it. -/
def State.records (s t : State) : Prop :=
  (s.ctl.events.length < 4096 → ∃ r, t.ctl.events = s.ctl.events ++ [r]) ∧
    (4096 ≤ s.ctl.events.length → t.ctl.events = s.ctl.events ∧ t.ctl.drops = s.ctl.drops + 1)

theorem State.records_of_event {s t u : State} {typ code part kind unit ticks addr detail : Nat}
    (ht : t.ctl = (u.event typ code part kind unit ticks addr detail).ctl) (he : u.ctl.events = s.ctl.events)
    (hd : u.ctl.drops = s.ctl.drops) : s.records t := by
  obtain ⟨room, full⟩ := u.event_events typ code part kind unit ticks addr detail
  rw [he, hd] at full
  rw [he] at room
  exact ⟨fun h => ⟨_, ht ▸ room h⟩, fun h => ht ▸ full h⟩

/-- From `s` to `t` a failure is recorded and the work goes on: no memory, die, stack core, launch, access or thread changes. -/
def State.goesOn (s t : State) : Prop :=
  s.records t ∧ (t.mem, t.dies, t.scores, t.launches) = (s.mem, s.dies, s.scores, s.launches) ∧
    t.accs.map Acc.id = s.accs.map Acc.id ∧ ∀ c, (t.core c).ctx = (s.core c).ctx

/-- What follows when a failure has been noted at the control die and counted at cores and stacks. -/
theorem goesOn_of_noted {s u : State} (he : u.ctl.events = s.ctl.events) (hd : u.ctl.drops = s.ctl.drops)
    (hm : (u.mem, u.dies, u.scores, u.launches) = (s.mem, s.dies, s.scores, s.launches)) (ha : u.accs = s.accs)
    (hc : ∀ c, (u.core c).ctx = (s.core c).ctx) : s.goesOn u.failRecord.mendYard :=
  ⟨State.records_of_event rfl he hd, hm, (State.mendYard_ids _).trans (congrArg _ ha), hc⟩

theorem State.failRecord_bad (u : State) :
    u.failRecord.mendYard.ctl.badPorts = u.ctl.badPorts ∧ u.failRecord.mendYard.ctl.badLinks = u.ctl.badLinks := by
  obtain ⟨e, d, p, m, o, h⟩ := u.event_ctl (Config.choice u.ticket (2 ^ 46 + 0) % 256) (Config.choice u.ticket (2 ^ 46 + 1)) 0
    (Config.choice u.ticket (2 ^ 46 + 2)) (Config.choice u.ticket (2 ^ 46 + 3)) u.ctl.ticks (Config.choice u.ticket (2 ^ 46 + 4))
    (Config.choice u.ticket (2 ^ 46 + 5))
  have hp := congrArg Control.badPorts h
  have hl := congrArg Control.badLinks h
  exact ⟨hp, hl⟩

theorem mem_noted {α : Type} [BEq α] [LawfulBEq α] (l : List α) (a p : α) : p ∈ (if l.contains a then l else a :: l) ↔ p = a ∨ p ∈ l := by
  split
  · have : a ∈ l := List.contains_iff_mem.1 ‹_›
    exact ⟨.inr, fun h => h.elim (fun e => e ▸ this) id⟩
  · exact List.mem_cons

/-- Errors counted at cores: a fold that writes each of them changes no other part of the state, and no context. -/
theorem foldl_addUncorr (l : List Nat) (s : State) (n : State → Nat → Nat) :
    ∃ cs, l.foldl (fun (u : State) c => u.setCore c fun x => x.addUncorr (n u c)) s = { s with cores := cs } ∧
      ∀ c, (({ s with cores := cs } : State).core c).ctx = (s.core c).ctx := by
  induction l generalizing s with
  | nil => exact ⟨_, rfl, fun _ => rfl⟩
  | cons a l ih =>
    obtain ⟨cs, hl, hc⟩ := ih (s.setCore a fun x => x.addUncorr (n s a))
    refine ⟨cs, hl, fun c => (hc c).trans ?_⟩
    rw [State.core_setCore_eq]
    split <;> rfl

theorem attachPort_goesOn (s : State) (a b : Nat) (hs : s.stks.length = 16) (hb : b < 4) :
    ∃ t, exec (.attachPortFailure a b) s = .next t ∧ s.goesOn t ∧ (∀ p, p ∈ t.ctl.badPorts ↔ p = (a, b) ∨ p ∈ s.ctl.badPorts) ∧
      ∀ j < 16, (t.stack j).uncorr = (s.stack j).uncorr + if j = 4 * (a % 4) + b then 1 else 0 := by
  let s1 := s.setCtl fun k => { k with badPorts := if k.badPorts.contains (a, b) then k.badPorts else (a, b) :: k.badPorts }
  let s2 := s1.stackUncorr (stackAt (a % 4) (b % 4))
  obtain ⟨cs, hcs, hctx⟩ := foldl_addUncorr (upFrom (8 * a) 8) s2 fun u c => Config.choice u.ticket (2 ^ 47 + c) % 2
  have he : exec (.attachPortFailure a b) s = .next ({ s2 with cores := cs } : State).failRecord.mendYard := by
    rw [← hcs]
    rfl
  refine ⟨_, he, goesOn_of_noted rfl rfl rfl rfl hctx, fun p => ?_, fun j hj => ?_⟩
  · rw [(State.failRecord_bad _).1]
    exact mem_noted ..
  · refine (State.stackUncorr_uncorr s1 _ j hs hj).trans ?_
    rw [stackAt, Nat.mod_eq_of_lt hb]
    rfl

theorem yardLink_goesOn (s : State) (a b : Nat) (hs : s.stks.length = 16) (hab : a ≠ b) :
    ∃ t, exec (.yardLinkFailure a b) s = .next t ∧ s.goesOn t ∧
      (∀ p, p ∈ t.ctl.badLinks ↔ p = (min a b, max a b) ∨ p ∈ s.ctl.badLinks) ∧
      ∀ j < 16, (t.stack j).uncorr = (s.stack j).uncorr + if j = a ∨ j = b then 1 else 0 := by
  refine ⟨_, rfl, goesOn_of_noted rfl rfl rfl rfl fun _ => rfl, fun p => ?_, fun j hj => ?_⟩
  · rw [(State.failRecord_bad _).2]
    exact mem_noted ..
  · refine (State.stackUncorr_uncorr _ b j ((lmod_length ..).trans hs) hj).trans ?_
    rw [State.stackUncorr_uncorr (s.setCtl _) a j hs hj, State.stack_setCtl]
    by_cases ha : j = a
    · have : j ≠ b := fun e => hab (ha.symm.trans e)
      simp [ha, hab]
    · simp [ha]

theorem controlDieFailure_ends (s : State) (h : s.ctl.alive = true) : ∃ t, exec .controlDieFailure s = .next t ∧ t.ctl.alive = false ∧
    s.records t ∧ t = { s with ctl := t.ctl } := by
  refine ⟨s.failRecord.setCtl fun k => { k with alive := false }, congrArg Host.Outcome.next (if_pos h), rfl, ?_, rfl⟩
  exact State.records_of_event (u := s) (t := s.failRecord) rfl rfl rfl

/-! ### The loss of a base die (R25) -/

theorem foldl_setScore (f : SCore → SCore) (hf : ∀ x, f (f x) = f x) (l : List Nat) (s : State) :
    ∃ ns, l.foldl (fun (u : State) n => u.setScore n f) s = { s with scores := ns } ∧ ns.length = s.scores.length ∧
      ∀ n, ({ s with scores := ns } : State).score n = if n ∈ l ∧ n < s.scores.length then f (s.score n) else s.score n := by
  induction l generalizing s with
  | nil => exact ⟨_, rfl, rfl, fun n => by simp⟩
  | cons a l ih =>
    obtain ⟨ns, hl, hn, hs⟩ := ih (s.setScore a f)
    refine ⟨ns, hl, hn.trans (lmod_length ..), fun n => (hs n).trans ?_⟩
    have hlen : (s.setScore a f).scores.length = s.scores.length := lmod_length ..
    rw [hlen]
    by_cases h : n < s.scores.length
    · rw [State.score_setScore s a n f h]
      by_cases ha : a = n <;> by_cases hm : n ∈ l <;> simp [ha, hm, h, hf, Ne.symm]
    · have : (s.setScore a f).score n = s.score n := by simp [State.score, State.setScore, lget, h]
      simp [h, this]

theorem State.any_key {s : State} {i : Nat} {l : Launch} (h : s.launch? i = some l) : s.launches.any (fun p => p.1 == i) = true :=
  List.any_eq_true.2 ⟨(i, l), mget?_mem h, by simp⟩

theorem stackLost_loses (s : State) (k : Nat) (hstk : s.stks.length = 16) (hsc : s.scores.length = 64) (hk : k < 16)
    (ha : (s.stack k).alive = true) : ∃ t, exec (.stackLost k) s = .next t ∧ (t.stack k).alive = false ∧
    (t.stack k).uncorr = (s.stack k).uncorr + 1 ∧ (∀ p, (t.path k p).st = .down) ∧ (∀ j, j ≠ k → t.stack j = s.stack j) ∧
    (∀ n, n / 4 = k → t.score n = { SCore.reset with enabled := (s.score n).enabled }) ∧ (∀ n, n / 4 ≠ k → t.score n = s.score n) ∧
    (t.mem, t.cores, t.dies) = (s.mem, s.cores, s.dies) ∧ s.tells t 6 0 0 2 k ∧
    t.accs.map Acc.id = (s.accs.filter fun a => match a.who with
      | .score n => n / 4 != k
      | .thread _ => true).map Acc.id ∧
    ∀ i l, s.launch? i = some l → (t.launch? i).map Launch.ended = some (if l.ended = none then some (.stackLost, 0) else l.ended) := by
  obtain ⟨⟨ls, ag, hl⟩, hends⟩ := endAll s.launches s .stackLost (fun _ _ => true) (fun _ => true) fun _ _ => rfl
  simp only [if_true, Bool.true_and] at hl hends
  let lose (t : Stack) : Stack := { t with alive := false, uncorr := t.uncorr + 1, paths := t.paths.map fun _ => .reset }
  let s2 := ({ s with launches := ls, agenda := ag } : State).setStack k lose
  obtain ⟨ns, hns, -, hscore⟩ := foldl_setScore (fun k => { SCore.reset with enabled := k.enabled }) (fun _ => rfl) (upFrom (4 * k) 4) s2
  let s4 : State := { s2 with scores := ns, accs := s.accs.filter fun a => match a.who with
      | .score n => !(n / 4 == k)
      | .thread _ => true }
  have he : exec (.stackLost k) s = .next (s4.event 6 0 0 2 k s4.ctl.ticks 0 k).mendYard := by
    change execStackLost k s = _
    rw [execStackLost, if_neg (by simp [ha]; omega), hl]
    dsimp only
    rw [hns]
    rfl
  have hstack (j : Nat) : (s4.event 6 0 0 2 k s4.ctl.ticks 0 k).mendYard.stack j = if k = j then lose (s.stack j) else s.stack j := by
    change s2.stack j = _
    by_cases hj : k = j
    · subst hj
      rw [State.stack_setStack _ _ _ _ (hstk.symm ▸ hk)]
      rfl
    · rw [if_neg hj]
      exact lget_lmod_ne _ _ _ _ _ hj
  refine ⟨_, he, ?_, ?_, fun p => ?_, fun j hj => ?_, fun n hn => ?_, fun n hn => ?_, rfl, ?_, State.mendYard_ids _, fun i l hi => ?_⟩
  · rw [hstack, if_pos rfl]
  · rw [hstack, if_pos rfl]
  · rw [State.path, hstack, if_pos rfl]
    simp only [lose, lget, List.getElem?_map]
    cases (s.stack k).paths[p]? <;> rfl
  · rw [hstack, if_neg (Ne.symm hj)]
  · refine (hscore n).trans (if_pos ⟨(mem_upFrom ..).2 (by omega), ?_⟩)
    exact hsc.symm ▸ (by omega : n < 64)
  · exact (hscore n).trans (if_neg fun h => hn (by have := (mem_upFrom ..).1 h.1; omega))
  · exact State.tells_of_events (s4.event_tells_unit _ _ _ (by decide) (by decide) (by decide) (by decide) (by omega)) rfl rfl rfl
  · have h := hends i
    rw [hl, State.any_key hi, show s.ends i = some l.ended by rw [State.ends, hi]; rfl] at h
    refine h.trans ?_
    simp only [Option.map_some, endOf_eq, true_and]

/-! ### The open of a snapshot (R456, R457, R405) -/

/-- The dirty units of the range that a snapshot copies. -/
def Stack.dirtyUnits (t : Stack) : List Nat :=
  (upFrom t.snapFirst (t.snapLast + 1 - t.snapFirst)).filter fun u => !t.clean.contains u

theorem Stack.mem_dirtyUnits (t : Stack) (u : Nat) : u ∈ t.dirtyUnits ↔ t.snapFirst ≤ u ∧ u ≤ t.snapLast ∧ u ∉ t.clean := by
  simp only [Stack.dirtyUnits, List.mem_filter, mem_upFrom, Bool.not_eq_true', List.contains_eq_mem, decide_eq_false_iff_not, ← and_assoc]
  exact and_congr_left fun _ => by omega

/-- A stack whose snapshot opens with these units to copy. -/
def Stack.freeze (us : List Nat) (t : Stack) : Stack :=
  { t with snapSeq := t.snapSeq + 1, frozen := us, clean := us.foldl markIn t.clean, snapCopied := 0,
           snapSt := if us.isEmpty then .idle else .copying }

theorem State.snapOpen_eq (s : State) (k : Nat) (hk : k < s.stks.length) (h : (s.stack k).snapSt ≠ .copying) :
    ∃ u : State, u.stack k = (s.stack k).freeze (s.stack k).dirtyUnits ∧ (∀ j, j ≠ k → u.stack j = s.stack j) ∧
      u = { s with stks := u.stks } ∧ s.snapOpen k = if (s.stack k).dirtyUnits.isEmpty then u.event 9 0 0 2 k (s.stack k).ticks 0
        ((s.stack k).snapSeq + 1).toNat
        else u.startServe k (Inst.maelyon .snapshot 0 0 0 true) := by
  refine ⟨s.setStack k (Stack.freeze (s.stack k).dirtyUnits), ?_, fun j hj => ?_, rfl, if_neg h⟩
  · rw [State.stack_setStack _ _ _ _ hk, if_pos rfl]
  · exact lget_lmod_ne _ _ _ _ _ hj.symm

/-- A stack that works has a stack core for the snapshot's program if one of its stack cores is enabled. -/
theorem State.serveCore?_some {s : State} {k : Nat} (ha : (s.stack k).alive = true) (hn : ∃ n, n / 4 = k ∧ (s.score n).enabled = true) :
    ∃ n, s.serveCore? k = some n ∧ n / 4 = k ∧ (s.score n).enabled = true := by
  obtain ⟨m, hm, he⟩ := hn
  let on := (upFrom (4 * k) 4).filter fun n => (s.stack k).alive && (s.score n).enabled
  have hmem (n : Nat) : n ∈ on ↔ n / 4 = k ∧ (s.score n).enabled = true := by
    simp only [on, List.mem_filter, mem_upFrom, ha, Bool.true_and]
    exact and_congr_left fun _ => by omega
  have hpos : 0 < on.length := List.length_pos_of_mem ((hmem m).2 ⟨hm, he⟩)
  have hlt : Config.choice s.ticket (2 ^ 36 + k) % max 1 on.length < on.length :=
    (Nat.mod_lt _ (by omega)).trans_eq (by omega)
  exact ⟨on[_], List.getElem?_eq_getElem hlt, (hmem _).1 (List.getElem_mem hlt)⟩

theorem State.startServe_eq (s : State) (k : Nat) (i : Nat → Inst) :
    ∃ ns m, s.startServe k i = { s with scores := ns, nextId := m } := by
  simp only [State.startServe]
  split
  exacts [⟨_, _, rfl⟩, ⟨_, _, rfl⟩]

theorem snapshotOpen_freezes (s : State) (k : Nat) (hk : k < 16) (hs : s.stks.length = 16) (hn : s.scores.length = 64)
    (ha : (s.stack k).alive = true) (hc : (s.stack k).snapSt ≠ .copying) :
    let q := s.stack k
    let dirty (u : Nat) : Prop := q.snapFirst ≤ u ∧ u ≤ q.snapLast ∧ u ∉ q.clean
    ∃ t, exec (.snapshotOpen k) s = .next t ∧ (t.mem, t.cores, t.dies) = (s.mem, s.cores, s.dies) ∧ (∀ j, j ≠ k → t.stack j = s.stack j) ∧
    ((t.stack k).snapSeq, (t.stack k).snapCopied) = (q.snapSeq + 1, 0) ∧
    (∀ u, u ∈ (t.stack k).frozen ↔ dirty u) ∧ (∀ u, u ∈ (t.stack k).clean ↔ u ∈ q.clean ∨ dirty u) ∧
    ((∀ u, ¬dirty u) → (t.stack k).snapSt = .idle ∧ t.scores = s.scores ∧ s.tells t 9 0 0 2 k) ∧
    ((∃ u, dirty u) → (t.stack k).snapSt = .copying ∧ t.ctl = s.ctl ∧ ((∃ n, n / 4 = k ∧ (s.score n).enabled = true) →
      ∃ n y, n / 4 = k ∧ (s.score n).enabled = true ∧ t.score n = { s.score n with queue := (s.score n).queue ++ [y] } ∧
        (y.serve, y.sLevel) = (some .snapshot, true) ∧ ∀ j, j ≠ n → t.score j = s.score j)) := by
  intro q dirty
  have hdirty (u : Nat) : u ∈ q.dirtyUnits ↔ dirty u := q.mem_dirtyUnits u
  obtain ⟨v, hvk, hvj, hv, hopen⟩ := s.snapOpen_eq k (hs.symm ▸ hk) hc
  have hexec : exec (.snapshotOpen k) s = .next (s.snapOpen k) := if_pos ha
  have hclean (u : Nat) : u ∈ (q.freeze q.dirtyUnits).clean ↔ u ∈ q.clean ∨ dirty u :=
    (mem_foldl_markIn ..).trans (or_congr_right (hdirty u))
  cases he : q.dirtyUnits.isEmpty with
  | true =>
    rw [hopen, if_pos he] at hexec
    have hnone : ∀ u, ¬dirty u := fun u h => by
      have := (hdirty u).2 h
      rw [List.isEmpty_iff.1 he] at this
      cases this
    have hstack (a b c d e f g h j : Nat) : (v.event a b c d e f g h).stack j = v.stack j := rfl
    refine ⟨_, hexec, by rw [hv]; rfl, hvj, ?_, ?_, ?_, fun _ => ⟨?_, by rw [hv]; rfl, ?_⟩, fun ⟨u, h⟩ => absurd h (hnone u)⟩
    · rw [hstack, hvk]; rfl
    · rw [hstack, hvk]; exact hdirty
    · rw [hstack, hvk]; exact hclean
    · rw [hstack, hvk]; exact if_pos he
    · exact State.tells_of_events (v.event_tells_unit _ _ _ (by decide) (by decide) (by decide) (by decide) (by omega)) (by rw [hv])
        (by rw [hv]) rfl
  | false =>
    rw [hopen, if_neg (by simp [q] at he ⊢; exact he)] at hexec
    obtain ⟨ns, m, hserve⟩ := v.startServe_eq k (Inst.maelyon .snapshot 0 0 0 true)
    have hstack (j : Nat) : (v.startServe k (Inst.maelyon .snapshot 0 0 0 true)).stack j = v.stack j := by rw [hserve]; rfl
    have hsome : ∃ u, dirty u := by
      obtain ⟨u, hu⟩ := List.exists_mem_of_ne_nil _ (List.isEmpty_eq_false_iff.1 he)
      exact ⟨u, (hdirty u).1 hu⟩
    refine ⟨_, hexec, by rw [hserve, hv], fun j hj => (hstack j).trans (hvj j hj), ?_, ?_, ?_, fun h => absurd hsome (by simpa using h),
      fun _ => ⟨?_, by rw [hserve, hv], fun hon => ?_⟩⟩
    · rw [hstack, hvk]; rfl
    · rw [hstack, hvk]; exact hdirty
    · rw [hstack, hvk]; exact hclean
    · rw [hstack, hvk]; exact if_neg (by simp [q] at he ⊢; exact he)
    · have hscore (n : Nat) : v.score n = s.score n := by rw [hv]; rfl
      obtain ⟨n, hcore, hnk, hne⟩ := State.serveCore?_some (s := v) (k := k) (by rw [hvk]; exact ha) (by simpa only [hscore] using hon)
      have hnl : n < v.scores.length := by rw [hv]; simp only [hn]; omega
      refine ⟨n, Inst.maelyon .snapshot 0 0 0 true v.nextId, hnk, hscore n ▸ hne, ?_, rfl, fun j hj => ?_⟩
      · rw [State.startServe, hcore]
        refine (State.score_setScore v n n _ hnl).trans ?_
        rw [if_pos rfl, hscore]
      · rw [State.startServe, hcore]
        exact (lget_lmod_ne _ _ _ _ _ hj.symm).trans (hscore j)

/-! ### The copy of a unit of a snapshot (R458) -/

theorem linOf_home (x : Nat) (h : x < 2 ^ 40) : linOf (2 ^ 42 + x) = some x := by
  have hr : regionOf (2 ^ 42 + x) = 1 := by
    rw [regionOf, if_neg (by omega), fld]
    omega
  have hf : fld (2 ^ 42 + x) 41 40 = 0 := by
    simp only [fld]
    omega
  have hx : fld (2 ^ 42 + x) 39 0 = x := by
    change (2 ^ 42 + x) / 1 % 2 ^ 40 = x
    omega
  rw [linOf, if_neg fun h => absurd (hr.symm.trans h.1) (by decide), if_pos ⟨hr, hf⟩, hx]

theorem memWrite_append (m : List Host.Cell) (a : Nat) (bs cs : List Byte) :
    memWrite m a (bs ++ cs) = memWrite (memWrite m a bs) (a + bs.length) cs := by
  induction bs generalizing m a with
  | nil => rfl
  | cons b bs ih =>
    simp only [List.cons_append, memWrite, List.length_cons, ih]
    congr 1
    omega

theorem linPieces_nil (pa : Nat) (ms : List Bool) (fuel : Nat) : linPieces pa [] ms fuel = some [] := by
  cases fuel <;> rfl

/-- A range inside the package's own memory is cut into pieces that lie in it and write what the whole writes. -/
theorem linPieces_home (fuel lin : Nat) (bs : List Byte) (ms : List Bool) (hl : lin + bs.length ≤ 2 ^ 40)
    (hf : bs.length + lin % 128 ≤ 128 * fuel) : ∃ ps, linPieces (2 ^ 42 + lin) bs ms fuel = some ps ∧
      (∀ p ∈ ps, lin ≤ p.1 ∧ p.1 < lin + bs.length) ∧ ∀ m, ps.foldl (fun m p => memWrite m p.1 p.2.1) m = memWrite m lin bs := by
  induction fuel generalizing lin bs ms with
  | zero =>
    have : bs = [] := List.eq_nil_of_length_eq_zero (by omega)
    exact ⟨[], rfl, by simp, fun m => by rw [this]; rfl⟩
  | succ fuel ih =>
    by_cases hb : bs = []
    · subst hb
      exact ⟨[], linPieces_nil .., by simp, fun _ => rfl⟩
    · have hpos : 0 < bs.length := List.length_pos_of_ne_nil hb
      let n := min bs.length (128 - lin % 128)
      have hn : 0 < n ∧ n ≤ bs.length ∧ (n < bs.length → (lin + n) % 128 = 0) := by simp only [n]; omega
      obtain ⟨ps, hps, hin, hw⟩ : ∃ ps, linPieces (2 ^ 42 + (lin + n)) (bs.drop n) (ms.drop n) fuel = some ps ∧
          (∀ p ∈ ps, lin + n ≤ p.1 ∧ p.1 < lin + n + (bs.drop n).length) ∧
          ∀ m, ps.foldl (fun m p => memWrite m p.1 p.2.1) m = memWrite m (lin + n) (bs.drop n) := by
        by_cases hd : n < bs.length
        · refine ih (lin + n) (bs.drop n) (ms.drop n) ?_ ?_ <;> rw [List.length_drop]
          · omega
          · have := hn.2.2 hd
            simp only [n] at this ⊢
            omega
        · rw [List.drop_eq_nil_of_le (by omega)]
          exact ⟨[], linPieces_nil .., by simp, fun _ => rfl⟩
      refine ⟨(lin, bs.take n, ms.take n) :: ps, ?_, fun p hp => ?_, fun m => ?_⟩
      · rw [linPieces, if_neg (by simpa using hb), linOf_home lin (by omega)]
        simp only [Nat.add_assoc, n] at hps ⊢
        rw [hps]
      · rw [List.length_drop] at hin
        obtain rfl | hp := List.mem_cons.1 hp
        · exact ⟨Nat.le_refl _, by simp only; omega⟩
        · have := hin p hp
          omega
      · rw [List.foldl_cons, hw]
        conv_rhs => rw [← List.take_append_drop n bs, memWrite_append, List.length_take, Nat.min_eq_left hn.2.1]

/-- Bytes put into memory under no key change it and the dirty units of a stack alone. -/
structure Puts (s t : State) : Prop where
  rest : (t.cores, t.dies, t.scores, t.ctl) = (s.cores, s.dies, s.scores, s.ctl)
  stack : ∀ j, ∃ c, t.stack j = { s.stack j with clean := c }
  number : t.stks.length = s.stks.length

theorem Puts.trans {s t u : State} (h : Puts s t) (g : Puts t u) : Puts s u := by
  refine ⟨g.rest.trans h.rest, fun j => ?_, g.number.trans h.number⟩
  obtain ⟨c, hc⟩ := h.stack j
  obtain ⟨d, hd⟩ := g.stack j
  exact ⟨d, by rw [hd, hc]⟩

theorem Puts.homePut (s : State) (lin : Nat) (bs : List Byte) (ms : List Bool) : Puts s (s.homePut lin 0 bs ms) := by
  have h : ¬(0 ≠ 0 ∧ (s.keyOf 0).isNone = true) := fun h => h.1 rfl
  rw [State.homePut, if_neg h]
  refine ⟨rfl, fun j => ?_, lmod_length ..⟩
  by_cases hj : homeOf lin = j
  · by_cases hl : j < s.stks.length
    · exact ⟨_, (lget_lmod _ _ _ _ _ hl).trans (if_pos hj)⟩
    · exact ⟨_, by simp [State.stack, lget, hl]; rfl⟩
  · exact ⟨_, lget_lmod_ne _ _ _ _ _ hj⟩

theorem Puts.frozenAt {s t : State} (h : Puts s t) (lin : Nat) : t.frozenAt lin = s.frozenAt lin := by
  obtain ⟨c, hc⟩ := h.stack (homeOf lin)
  rw [State.frozenAt, hc]
  rfl

/-- A write to a unit that is not frozen is not held. -/
theorem State.homeWrite_free {s : State} {lin : Nat} (h : s.frozenAt lin = false) (slot : Nat) (bs : List Byte) (ms : List Bool) :
    s.homeWrite lin slot bs ms = s.homePut lin slot bs ms := by
  rw [State.homeWrite, State.homeWriteF]
  exact if_pos (by rw [State.frozenAt] at h; rw [h]; rfl)

/-- Pieces written to units that are not frozen. -/
theorem writePieces (ps : List (Nat × List Byte × List Bool)) (s : State) (h : ∀ p ∈ ps, s.frozenAt p.1 = false) :
    let t := ps.foldl (fun (u : State) p => u.homeWrite p.1 0 p.2.1 p.2.2) s
    Puts s t ∧ t.mem = ps.foldl (fun m p => memWrite m p.1 p.2.1) s.mem := by
  induction ps generalizing s with
  | nil => exact ⟨⟨rfl, fun _ => ⟨_, rfl⟩, rfl⟩, rfl⟩
  | cons p ps ih =>
    have hp := Puts.homePut s p.1 p.2.1 p.2.2
    rw [List.foldl_cons, State.homeWrite_free (h p List.mem_cons_self)]
    obtain ⟨hput, hmem⟩ := ih (s.homePut p.1 0 p.2.1 p.2.2) fun q hq => (hp.frozenAt q.1).trans (h q (List.mem_cons_of_mem _ hq))
    exact ⟨hp.trans hput, hmem.trans (by rw [homePut_plain, List.foldl_cons])⟩

theorem stored_of_memWrite {s t : State} {lin : Nat} {bs : List Byte} (h : t.mem = memWrite s.mem lin bs) (hl : lin + bs.length ≤ 2 ^ 40) :
    s.stored t lin bs := by
  intro b
  rw [State.byteAt, h]
  split
  · obtain ⟨i, rfl⟩ := Nat.exists_eq_add_of_le (‹_ ∧ _› : lin ≤ b ∧ _).1
    rw [memGet_memWrite_inside _ _ _ _ (by omega) hl, Nat.add_sub_cancel_left]
    rfl
  · exact memGet_memWrite_outside _ _ _ _ (by omega)

theorem bytesOf_eq (n x : Nat) : bytesOf n x = bytesAs n x := by
  induction n generalizing x with
  | zero => rfl
  | succ n ih =>
    rw [bytesOf, ih, bytesAs, bytesAs, List.range_succ_eq_map, List.map_cons, List.map_map, Nat.pow_zero, Nat.div_one]
    refine congrArg _ (List.map_congr_left fun i _ => ?_)
    simp [Nat.div_div_eq_div_mul, Nat.pow_succ']

theorem bytesOf_zero (n : Nat) : bytesOf n 0 = List.replicate n 0 := by
  induction n with
  | zero => rfl
  | succ n ih => rw [bytesOf, List.replicate_succ]; exact congrArg _ ih

theorem upFrom_eq (a n : Nat) : upFrom a n = (List.range n).map fun i => a + i := by
  induction n generalizing a with
  | zero => rfl
  | succ n ih =>
    rw [upFrom, ih, List.range_succ_eq_map, List.map_cons, List.map_map]
    exact congrArg _ (List.map_congr_left fun i _ => by simp; omega)

/-- The image of a unit: a header of 64 bytes, and its 64 KiB. -/
theorem State.snapImage_eq (s : State) (k u : Nat) (hk : k < 16) : (s.snapImage k u).1 =
    bytesAs 4 (s.stack k).snapSeq.toNat ++ bytesAs 4 k ++ bytesAs 4 u ++ List.replicate 52 0 ++
      (List.range 65536).map fun i => s.byteAt (k * 2 ^ 36 + u * 2 ^ 16 + i) := by
  have hh : bytesOf 4 k = [BitVec.ofNat 8 k] ++ bytesOf 3 0 := by
    rw [bytesOf, Nat.div_eq_of_lt (by omega)]
    rfl
  rw [State.snapImage, ← bytesOf_eq, ← bytesOf_eq, ← bytesOf_eq, ← bytesOf_zero, hh, memRead, upFrom_eq, List.map_map]
  simp only [List.append_assoc]
  rfl

theorem State.snapImage_length (s : State) (k u : Nat) : (s.snapImage k u).1.length = 65600 := by
  simp only [State.snapImage, List.length_append, bytesOf_length, memRead_length, List.length_cons, List.length_nil]

/-- A snapshot whose stream fails is over, and its units are dirty again. -/
theorem snapFail_fails (s : State) (k : Nat) (hk : k < 16) (hs : s.stks.length = 16) :
    (s.snapFail k).mem = s.mem ∧ (∀ j, j ≠ k → (s.snapFail k).stack j = s.stack j) ∧ s.tells (s.snapFail k) 9 1 0 2 k ∧
      (((s.snapFail k).stack k).snapSt, ((s.snapFail k).stack k).frozen) = (.failed, []) ∧
      ∀ v, v ∈ ((s.snapFail k).stack k).clean ↔ v ∈ (s.stack k).clean ∧ v ∉ (s.stack k).frozen := by
  have hstack : (s.snapFail k).stack k =
      { s.stack k with snapSt := .failed, clean := (s.stack k).clean.filter (fun u => !(s.stack k).frozen.contains u), frozen := [] } :=
    (State.stack_setStack s k k _ (hs.symm ▸ hk)).trans (if_pos rfl)
  refine ⟨rfl, fun j hj => lget_lmod_ne _ _ _ _ _ hj.symm, ?_, by rw [hstack], fun v => by rw [hstack]; simp⟩
  exact State.tells_of_events (State.event_tells_unit (s.setStack k _) _ _ _ (by decide) (by decide) (by decide) (by decide) (by omega)) rfl
    rfl rfl

/-- After a unit has been copied it is frozen no more; after the last one the snapshot is over, and a record says so. -/
theorem snapDone_thaws (s : State) (k u : Nat) (hk : k < 16) (hs : s.stks.length = 16) :
    let t := s.snapDone k u
    (t.mem, t.cores, t.dies, t.scores) = (s.mem, s.cores, s.dies, s.scores) ∧
      (∀ v, v ∈ (t.stack k).frozen ↔ v ∈ (s.stack k).frozen ∧ v ≠ u) ∧ (t.stack k).snapCopied = (s.stack k).snapCopied + 1 ∧
      ((∀ v ∈ (s.stack k).frozen, v = u) → (t.stack k).snapSt = .idle ∧ s.tells t 9 0 0 2 k) ∧
      ((∃ v ∈ (s.stack k).frozen, v ≠ u) → (t.stack k).snapSt = (s.stack k).snapSt ∧ t.ctl = s.ctl) := by
  intro t
  let last := (markOut (s.stack k).frozen u).isEmpty
  let thaw (t : Stack) : Stack :=
    { t with frozen := markOut t.frozen u, snapCopied := t.snapCopied + 1, snapSt := if last then .idle else t.snapSt }
  have hthaw : (s.setStack k thaw).stack k = thaw (s.stack k) := (State.stack_setStack s k k _ (hs.symm ▸ hk)).trans (if_pos rfl)
  have hlast : last = true ↔ ∀ v ∈ (s.stack k).frozen, v = u := by
    simp only [last, List.isEmpty_iff, List.eq_nil_iff_forall_not_mem, mem_markOut, not_and, not_not]
  have ht : t = if last then (s.setStack k thaw).event 9 0 0 2 k (s.stack k).ticks 0 (s.stack k).snapSeq.toNat else s.setStack k thaw := rfl
  have hstack : t.stack k = thaw (s.stack k) := by
    refine Eq.trans ?_ hthaw
    rw [ht]
    split <;> rfl
  refine ⟨?_, fun v => ?_, ?_, fun h => ⟨?_, ?_⟩, fun ⟨v, hv, hne⟩ => ?_⟩
  · rw [ht]
    split <;> rfl
  · rw [hstack]
    exact mem_markOut ..
  · rw [hstack]
  · rw [hstack]
    exact if_pos (hlast.2 h)
  · rw [ht, if_pos (hlast.2 h)]
    exact State.tells_of_events (State.event_tells_unit (s.setStack k thaw) _ _ _ (by decide) (by decide) (by decide) (by decide)
      (by omega))
      rfl rfl rfl
  · have hl : ¬last = true := fun h => hne (hlast.1 h v hv)
    rw [hstack, ht, if_neg hl]
    exact ⟨if_neg hl, rfl⟩

/-- The copy of the lowest frozen unit, while the snapshot's program runs. -/
theorem snapshotUnitCopy_eq (s : State) (k u : Nat) (us : List Nat) (ok : Bool) (hf : (s.stack k).frozen = u :: us)
    (ha : (s.stack k).alive = true) (hr : s.snapRuns k = true) : exec (.snapshotUnitCopy k ok) s =
      if !ok && (s.stack k).snapDev != 0xFFF && (s.stack k).snapDev != s.ctl.devnum then .next (s.snapFail k)
      else .next (State.snapOne (fun s p bs ms => s.homeWrite p 0 bs ms) s k u) := by
  change execSnapshotUnitCopy k ok s = _
  simp [execSnapshotUnitCopy, hf, ha, hr]

theorem snapshotUnitCopy_rests (s : State) (k : Nat) (ok : Bool)
    (h : (s.stack k).frozen = [] ∨ (s.stack k).alive = false ∨ s.snapRuns k = false) : exec (.snapshotUnitCopy k ok) s = .next s := by
  change execSnapshotUnitCopy k ok s = _
  rw [execSnapshotUnitCopy]
  split
  · rfl
  · rename_i u us hf
    refine if_pos ?_
    obtain h | h | h := h
    · exact absurd (hf.symm.trans h) (by simp)
    · simp [h]
    · simp [h]

/-- A stream on another device that does not answer, or that lies outside its memory, fails. -/
theorem snapshotUnitCopy_away (s : State) (k u : Nat) (us : List Nat) (ok : Bool) (hf : (s.stack k).frozen = u :: us)
    (ha : (s.stack k).alive = true) (hr : s.snapRuns k = true) (hd : (s.stack k).snapDev ≠ 0xFFF ∧ (s.stack k).snapDev ≠ s.ctl.devnum)
    (h : ok = false ∨ 2 ^ 44 ≤ (s.stack k).snapDst.toNat + 65600 * (s.stack k).snapCopied) :
    exec (.snapshotUnitCopy k ok) s = .next (s.snapFail k) := by
  rw [snapshotUnitCopy_eq s k u us ok hf ha hr]
  by_cases ho : ok = false
  · exact if_pos (by simp [ho, hd.1, hd.2])
  · rw [if_neg (by simp [ho]), State.snapOne, if_neg (by simp [hd.1, hd.2]), if_pos (h.resolve_left ho)]

/-- A unit that is copied to the memory of the package. -/
theorem snapshotUnitCopy_home (s : State) (k u : Nat) (us : List Nat) (ok : Bool) (hk : k < 16) (hs : s.stks.length = 16)
    (hf : (s.stack k).frozen = u :: us) (ha : (s.stack k).alive = true) (hr : s.snapRuns k = true) (lin : Nat)
    (hd : (s.stack k).snapDev = 0xFFF ∨ (s.stack k).snapDev = s.ctl.devnum)
    (hdst : (s.stack k).snapDst.toNat + 65600 * (s.stack k).snapCopied = 2 ^ 42 + lin) (hl : lin + 65600 ≤ 2 ^ 40)
    (hfree : ∀ i < 65600, s.frozenAt (lin + i) = false) (halive : ∀ j, (s.stack j).alive = true) :
    ∃ t, exec (.snapshotUnitCopy k ok) s = .next t ∧ s.stored t lin (s.snapImage k u).1 ∧
      (t.cores, t.dies, t.scores) = (s.cores, s.dies, s.scores) ∧
        (∀ v, v ∈ (t.stack k).frozen ↔ v ∈ us ∧ v ≠ u) ∧ (t.stack k).snapCopied = (s.stack k).snapCopied + 1 ∧
        ((∀ v ∈ us, v = u) → (t.stack k).snapSt = .idle ∧ s.tells t 9 0 0 2 k) ∧
        ((∃ v ∈ us, v ≠ u) → (t.stack k).snapSt = (s.stack k).snapSt ∧ t.ctl = s.ctl) := by
  have hlen := s.snapImage_length k u
  obtain ⟨ps, hps, hin, hw⟩ := linPieces_home 1100 lin (s.snapImage k u).1 (s.snapImage k u).2 (hlen.symm ▸ hl) (by omega)
  obtain ⟨hput, hmem⟩ := writePieces ps s fun p hp => by
    obtain ⟨hlo, hhi⟩ := hin p hp
    rw [← Nat.add_sub_cancel' hlo]
    exact hfree _ (by omega)
  let v := ps.foldl (fun (u : State) p => u.homeWrite p.1 0 p.2.1 p.2.2) s
  have hexec : exec (.snapshotUnitCopy k ok) s = .next (v.snapDone k u) := by
    rw [snapshotUnitCopy_eq s k u us ok hf ha hr, if_neg (by rcases hd with h | h <;> simp [h]), State.snapOne, if_pos hd, hdst]
    dsimp only
    rw [hps]
    exact congrArg _ (if_pos (by simp [halive]))
  obtain ⟨c, hc⟩ := hput.stack k
  obtain ⟨hrest, hfrozen, hcopied, hlast, hmore⟩ := snapDone_thaws v k u hk (hput.number.trans hs)
  have hcores := hput.rest
  simp only [Prod.mk.injEq] at hcores hrest
  obtain ⟨hvc, hvd, hvs, hvctl⟩ := hcores
  obtain ⟨htm, htc, htd, hts⟩ := hrest
  have hus (w : Nat) : w ∈ (v.stack k).frozen ↔ w = u ∨ w ∈ us := by
    rw [hc]
    exact hf ▸ List.mem_cons
  refine ⟨_, hexec, stored_of_memWrite (htm.trans (hmem.trans (hw _))) (hlen.symm ▸ hl), ?_, fun w => ?_, ?_, fun h => ?_, fun h => ?_⟩
  · rw [htc, htd, hts, hvc, hvd, hvs]
  · rw [hfrozen, hus]
    tauto
  · rw [hcopied, hc]
  · obtain ⟨hst, htell⟩ := hlast fun w hw => ((hus w).1 hw).elim id (h w)
    exact ⟨hst, State.tells_of_events htell (congrArg Control.events hvctl) (congrArg Control.drops hvctl) rfl⟩
  · obtain ⟨w, hw, hne⟩ := h
    obtain ⟨hst, hctl⟩ := hmore ⟨w, (hus w).2 (.inr hw), hne⟩
    exact ⟨hst.trans (by rw [hc]), hctl.trans hvctl⟩

/-! ### What an access of a lost die leaves as it was -/

/-- The launches, the entries of CPART, the number of cores and dies, which cores are enabled, and the rings are as they were. -/
structure Calm (b t : State) : Prop where
  launches : t.launches = b.launches
  cpart : t.ctl.cpart = b.ctl.cpart
  cores : t.cores.length = b.cores.length
  dies : t.dies.length = b.dies.length
  enabled : ∀ c, (t.core c).enabled = (b.core c).enabled
  ring : ∀ k, (t.die k).ring = (b.die k).ring

/-- The same of a state that comes with a value. -/
def CalmP {β : Type} (b : State) (p : State × β) : Prop := Calm b p.1

section
set_option autoImplicit true

theorem Calm.refl : Calm b b := ⟨rfl, rfl, rfl, rfl, fun _ => rfl, fun _ => rfl⟩

theorem Calm.cond {b s t : State} {c : Prop} [Decidable c] (h : Calm b s) (g : Calm b t) : Calm b (if c then s else t) := by
  split
  exacts [h, g]

theorem CalmP.cond {β : Type} {b : State} {s t : State × β} {c : Prop} [Decidable c] (h : CalmP b s) (g : CalmP b t) :
    CalmP b (if c then s else t) := by
  split
  exacts [h, g]

theorem CalmP.mk {β : Type} {b s : State} {x : β} (h : Calm b s) : CalmP b (s, x) := h

theorem CalmP.fst {β : Type} {b : State} {p : State × β} (h : CalmP b p) : Calm b p.1 := h

theorem CalmP.foldl {α β : Type} {b : State} {p : State × β} {f : State × β → α → State × β} {l : List α} (h : CalmP b p)
    (hf : ∀ q x, CalmP b q → CalmP b (f q x)) : CalmP b (l.foldl f p) :=
  List.foldlRecOn (motive := CalmP b) _ _ h fun q hq x _ => hf q x hq

theorem Calm.foldl {α : Type} {b s : State} {f : State → α → State} {l : List α} (h : Calm b s)
    (hf : ∀ s x, Calm b s → Calm b (f s x)) : Calm b (l.foldl f s) :=
  List.foldlRecOn (motive := Calm b) _ _ h fun q hq x _ => hf q x hq

/-- An update of other parts of the state. -/
theorem Calm.put {b x : State} {m : List Host.Cell} {mk : List Nat} {gp : List Gap} {k : List Stack}
    {r : List RowRing} {n : List SCore} {nl : Nat} {a : List Acc} {co : List CollCmd} {pr : List PenRel} {ag : List Todo} {tu : Turn}
    {cl ni st ti : Nat} {wl : Bool} {wm : List WalkMemo} {pp : List (Nat × Nat)} {y : Yard} (h : Calm b x) :
    Calm b ⟨m, mk, gp, x.cores, x.dies, k, r, n, x.ctl, x.launches, nl, a, co, pr, ag, tu, cl, ni, st, ti, wl, wm, pp, y⟩ :=
  ⟨h.launches, h.cpart, h.cores, h.dies, h.enabled, h.ring⟩

theorem Calm.setCore (h : Calm b s) (hf : ∀ x, (f x).enabled = x.enabled := by exact fun _ => rfl) : Calm b (s.setCore c f) := by
  refine ⟨h.launches, h.cpart, (lmod_length ..).trans h.cores, h.dies, fun d => ?_, h.ring⟩
  rw [State.core_setCore_eq]
  split
  exacts [(hf _).trans (h.enabled d), h.enabled d]

theorem Calm.setDie (h : Calm b s) (hf : ∀ x, (f x).ring = x.ring := by exact fun _ => rfl) : Calm b (s.setDie k f) := by
  refine ⟨h.launches, h.cpart, h.cores, (lmod_length ..).trans h.dies, h.enabled, fun d => ?_⟩
  rw [State.die_setDie_eq]
  split
  exacts [(hf _).trans (h.ring d), h.ring d]

theorem Calm.setStack (h : Calm b s) : Calm b (s.setStack k f) := h.put

theorem Calm.setScore (h : Calm b s) : Calm b (s.setScore k f) := h.put

theorem Calm.setCtl (h : Calm b s) (hf : ∀ x, (f x).cpart = x.cpart := by exact fun _ => rfl) : Calm b (s.setCtl f) :=
  ⟨h.launches, (hf _).trans h.cpart, h.cores, h.dies, h.enabled, h.ring⟩

theorem Calm.homePut (h : Calm b s) : Calm b (s.homePut lin slot bs pois) := h.cond h.put

theorem Calm.event (h : Calm b s) : Calm b (s.event typ code part ukind unit ticks addr detail) := by
  obtain ⟨e, d, p, m, o, he⟩ := s.event_ctl typ code part ukind unit ticks addr detail
  exact ⟨h.launches, by rw [he]; exact h.cpart, h.cores, h.dies, h.enabled, h.ring⟩

theorem Calm.stackUncorr (h : Calm b s) : Calm b (s.stackUncorr k) := h.setStack

theorem Calm.atomFail (h : Calm b s) : Calm b (s.atomFail lin) := h.stackUncorr.put

theorem Calm.snapFail (h : Calm b s) : Calm b (s.snapFail k) := h.setStack.event

theorem Calm.snapDone (h : Calm b s) : Calm b (s.snapDone k u) := h.setStack.event.cond h.setStack

theorem Calm.snapOne (h : Calm b s) (hwr : ∀ s p bs ms, Calm b s → Calm b (wr s p bs ms)) : Calm b (State.snapOne wr s k u) := by
  dsimp only [State.snapOne]
  refine .cond ?_ (h.snapFail.cond h.snapDone)
  split
  exacts [h.snapFail, (h.foldl fun _ _ h' => hwr _ _ _ _ h').snapDone.cond h.snapFail]

theorem Calm.homeWriteF (h : Calm b s) : Calm b (State.homeWriteF fuel s lin slot bs pois) := by
  induction fuel generalizing s lin slot bs pois with
  | zero => exact h.homePut
  | succ n ih => exact h.homePut.cond (h.snapOne fun _ _ _ _ h' => ih h').homePut

theorem Calm.homeWrite (h : Calm b s) : Calm b (s.homeWrite lin slot bs pois) := h.homeWriteF

theorem Calm.writeBack (h : Calm b s) : Calm b (s.writeBack line c) := by
  dsimp only [State.writeBack]
  split
  exacts [h, h.cond (h.homeWrite.cond (h.foldl fun _ _ h2 => h2.homeWrite.cond h2))]

theorem Calm.recallLine (h : Calm b s) : Calm b (s.recallLine k line) := by
  dsimp only [State.recallLine]
  split
  exacts [h, h.writeBack.setDie.cond h]

theorem Calm.recallAll (h : Calm b s) : Calm b (s.recallAll line but) := h.foldl fun _ _ h1 => h1.cond h1.recallLine

theorem Calm.recallLin (h : Calm b s) : Calm b (s.recallLin lin but) := h.recallAll

theorem Calm.readHome (h : Calm b s) : CalmP b (s.readHome lin n slot but) := .mk h.recallLin

theorem Calm.writeHome (h : Calm b s) : Calm b (s.writeHome lin slot bs pois but) := h.recallLin.homeWrite

theorem Calm.startServe (h : Calm b s) : Calm b (s.startServe k i) := by
  dsimp only [State.startServe]
  split
  exacts [h.setScore.put, h]

theorem Calm.snapOpen (h : Calm b s) : Calm b (s.snapOpen k) := h.cond (h.setStack.event.cond h.setStack.startServe)

theorem Calm.mboxWrite (h : Calm b s) : Calm b (s.mboxWrite off v) := h.setCtl.cond (((h.setCtl.cond h).put.cond (h.setCtl.cond h)).cond h)

theorem Calm.regWriteThread (h : Calm b s) : Calm b (s.regWriteThread b' off v) := by
  dsimp only [State.regWriteThread]
  split
  exacts [h.mboxWrite, h]

theorem Calm.regWriteScore (h : Calm b s) : Calm b (s.regWriteScore b' off v) := by
  dsimp only [State.regWriteScore]
  split
  exacts [(h.setStack.snapOpen.cond h.setStack).cond (h.setStack.cond (h.setStack.cond h)), h.mboxWrite, h]

theorem Calm.tickStamp (h : Calm b s) : Calm b s.tickStamp := h.put

theorem Calm.publish (h : Calm b s) : Calm b (s.publish die place size a) := h.setDie

theorem Calm.dieRoom (h : Calm b s) : Calm b (s.dieRoom k line) := by
  dsimp only [State.dieRoom]
  refine h.cond ?_
  split
  exacts [h.writeBack.setDie, h]

theorem Calm.dieFill (h : Calm b s) : CalmP b (s.dieFill k line lin a keep) := by
  dsimp only [State.dieFill]
  refine .mk ((Calm.setDie ?_).recallAll.tickStamp.dieRoom.setDie.cond (Calm.setDie ?_).recallAll.tickStamp)
  · split
    exacts [h.writeBack, h]
  · split
    exacts [h.writeBack, h]

/-- What every core and every die drops of its caches. -/
theorem Calm.map (h : Calm b s) {f : Core → Core} {g : Die → Die} (hf : ∀ x, (f x).enabled = x.enabled) (hg : ∀ x, (g x).ring = x.ring) :
    Calm b { s with cores := s.cores.map f, dies := s.dies.map g } := by
  refine ⟨h.launches, h.cpart, (List.length_map ..).trans h.cores, (List.length_map ..).trans h.dies, fun c => ?_, fun k => ?_⟩
  · refine Eq.trans ?_ (h.enabled c)
    simp only [State.core, lget, List.getElem?_map]
    cases s.cores[c]? with
    | none => rfl
    | some x => exact hf x
  · refine Eq.trans ?_ (h.ring k)
    simp only [State.die, lget, List.getElem?_map]
    cases s.dies[k]? with
    | none => rfl
    | some x => exact hg x

theorem Calm.homeDiscard (h : Calm b s) : Calm b (s.homeDiscard lin) := by
  dsimp only [State.homeDiscard]
  refine Calm.put (Calm.homeWrite (Calm.map (h.foldl fun _ _ h1 => ?_) (fun _ => rfl) fun _ => rfl))
  split
  exacts [h1.writeBack, h1]

theorem Calm.homeFrom (h : Calm b s) : Calm b (s.homeFrom k lin key bs pois) := by
  dsimp only [State.homeFrom]
  split
  · exact h.writeHome
  · split
    exacts [h.setDie.cond h.writeHome, h.writeHome]

theorem Calm.wrote (h : Calm b s) : Calm b (s.wrote a lane rmw) := by
  dsimp only [State.wrote]
  split
  exacts [h, h.cond h.publish]

theorem Calm.shedWrite (h : Calm b s) : Calm b (s.shedWrite die shed off bs pois) := h.setDie

theorem Calm.shedSync (h : Calm b s) : Calm b (s.shedSync die shed off f) := h.shedWrite

theorem Calm.shedSyncAt (h : Calm b s) : Calm b (s.shedSyncAt place f) := h.shedSync

theorem Calm.flushLine (h : Calm b s) : Calm b (s.flushLine k line) := by
  dsimp only [State.flushLine]
  split
  exacts [h, h.writeBack.setDie]

theorem Calm.homeSync (h : Calm b s) : Calm b (s.homeSync lin key k f) := by
  dsimp only [State.homeSync]
  refine h.cond (Calm.readHome ?_).fst.homeWrite
  split
  exacts [h.flushLine, h]

theorem Calm.performInDie (h : Calm b s) : Calm b (s.performInDie k lin a bs pois) := by
  dsimp only [State.performInDie]
  refine (CalmP.fst ?_).tickStamp.setDie.wrote
  split
  exacts [.mk h, h.dieFill]

theorem Calm.performStore (h : Calm b s) : Calm b (s.performStore a) := by
  dsimp only [State.performStore]
  split
  · split
    · exact h.shedWrite
    · refine Calm.cond ?_ h
      split
      exacts [h.regWriteScore, h.regWriteThread, h]
  · refine Calm.cond ?_ h.homeFrom
    split
    exacts [h.performInDie, h.homeFrom]
  · exact h.foldl fun _ _ h3 => h3.homeFrom
  · exact h.foldl fun _ _ h2 => h2.homeDiscard
  · split
    exacts [h.shedSyncAt.wrote, h]
  · split
    exacts [h.shedSyncAt.wrote, h]
  · exact h.homeSync.wrote
  · exact h.homeSync.wrote
  · exact h.readHome.fst.homeWrite.cond (h.readHome.fst.atomFail.cond h.readHome.fst.homeWrite)
  · exact h

theorem Calm.atomRead (h : Calm b s) : CalmP b (s.atomRead a) := by
  dsimp only [State.atomRead]
  split
  · exact .mk h
  · split
    · exact h.readHome
    · refine CalmP.cond h.flushLine.readHome (.mk (CalmP.fst ?_).setDie)
      split
      exacts [.mk h, h.dieFill]

theorem Calm.atomWrite (h : Calm b s) : Calm b (s.atomWrite a bs pois) := by
  dsimp only [State.atomWrite]
  split
  · exact h
  · split
    · refine Calm.writeHome ?_
      split
      exacts [h.setCore, h]
    · split
      · refine Calm.writeHome ?_
        split
        exacts [h.setCore, h]
      · refine (Calm.tickStamp ?_).setDie
        split
        exacts [h.setCore, h]

theorem Calm.atomMarked (h : Calm b s) : Calm b (s.atomMarked a) := by
  dsimp only [State.atomMarked]
  split
  · exact h
  · split
    · refine Calm.atomFail ?_
      split
      exacts [h.setCore, h]
    · refine (Calm.stackUncorr ?_).setDie.cond (Calm.atomFail ?_)
      · split
        exacts [h.setCore, h]
      · split
        exacts [h.setCore, h]

theorem Calm.atomOne (h : Calm b s) : CalmP b (s.atomOne a op cas u x) :=
  CalmP.cond (.mk h.atomRead.fst.atomWrite) (CalmP.cond (.mk h.atomRead.fst.atomMarked)
    (CalmP.cond (.mk h.atomRead.fst) (.mk h.atomRead.fst.atomWrite.wrote)))

theorem Calm.atomSum (h : Calm b s) : CalmP b (s.atomSum a lanes) := by
  dsimp only [State.atomSum]
  split
  exacts [.mk h, CalmP.cond (CalmP.foldl (.mk h) fun _ _ h1 => .mk h1.fst.atomOne.fst)
    (.mk (h.atomRead.fst.atomWrite.foldl fun _ _ h1 => h1.wrote))]

theorem Calm.atomAll (h : Calm b s) : CalmP b (s.atomAll a op cas ra u lanes) := by
  dsimp only [State.atomAll]
  refine CalmP.foldl (.mk h) fun _ _ h1 => .mk (CalmP.fst ?_)
  split
  exacts [.mk h1.fst.atomOne.fst, h1.fst.atomSum]

theorem Calm.lostAcc (h : Calm b s) : Calm b (s.lostAcc k a) := by
  dsimp only [State.lostAcc]
  refine h.cond ?_
  split
  exacts [h.atomAll.fst, h.performStore.cond h]

end
/-! ### Grids split afresh (R369) -/

/-- A share of a grid goes to a die that has room. -/
theorem mem_splitGrid {caps : List Nat} {lo hi : Nat} {r : Nat × Nat × Nat} (h : r ∈ splitGrid caps lo hi) : 0 < lget caps r.1 0 := by
  refine List.foldlRecOn (motive := fun acc : Nat × List (Nat × Nat × Nat) => ∀ r ∈ acc.2, 0 < lget caps r.1 0) _ _ (by simp)
    (fun acc hacc p hp r hr => ?_) r h
  have share : 0 < lget caps p.1 0 := by
    obtain ⟨q, hq, rfl⟩ := List.mem_map.1 hp
    simpa using (List.mem_filter.1 (List.of_mem_zip hq).2).2
  dsimp only at hr
  split at hr
  · obtain hr | hr := List.mem_append.1 hr
    · exact hacc r hr
    · exact List.mem_singleton.1 hr ▸ share
  · exact hacc r hr

theorem State.capacity_up {s : State} {a : Ask} {k : Nat} (h : 0 < s.capacity a k) : (s.die k).st = .up := by
  by_contra hn
  rw [State.capacity, if_pos (by simp [hn])] at h
  exact absurd h (Nat.lt_irrefl 0)

theorem lget_capacities {s : State} {a : Ask} {j : Nat} (h : 0 < lget ((upFrom 0 8).map fun k => s.capacity a k) j 0) :
    (s.die j).st = .up := by
  by_cases hj : j < 8
  · rw [lget, List.getElem?_map, upFrom_getElem? 0 8 j hj, Nat.zero_add] at h
    exact State.capacity_up h
  · rw [lget, List.getElem?_eq_none (by simpa using hj)] at h
    exact absurd h (Nat.lt_irrefl 0)

/-- Parts of grids have gone to dies that work: no other part of the state changes, no other die, and no launch ends. -/
structure Splits (s t : State) : Prop where
  eq : ∃ ds ls, t = { s with dies := ds, launches := ls }
  ends : t.ends = s.ends
  die : ∀ j, (s.die j).st ≠ .up → t.die j = s.die j

theorem Splits.refl (s : State) : Splits s s := ⟨⟨_, _, rfl⟩, rfl, fun _ _ => rfl⟩

theorem Splits.trans {s t u : State} (h : Splits s t) (g : Splits t u) : Splits s u := by
  obtain ⟨ds, ls, rfl⟩ := h.eq
  obtain ⟨ds', ls', rfl⟩ := g.eq
  refine ⟨⟨_, _, rfl⟩, g.ends.trans h.ends, fun j hj => ?_⟩
  have hs := h.die j hj
  exact (g.die j (hs ▸ hj)).trans hs

theorem Splits.addRanges {s u : State} (h : Splits s u) (l : Nat) (rs : List (Nat × Nat × Nat)) (hr : ∀ r ∈ rs, (s.die r.1).st = .up) :
    Splits s (u.addRanges l rs) := by
  refine List.foldlRecOn (motive := Splits s) _ _ h fun v hv r hmem => ?_
  obtain ⟨ds, ls, rfl⟩ := hv.eq
  refine ⟨⟨_, _, rfl⟩, hv.ends, fun j hj => ?_⟩
  have hne : r.1 ≠ j := fun e => hj (e ▸ hr r hmem)
  exact (lget_lmod_ne _ _ _ _ _ hne).trans (hv.die j hj)

theorem Splits.resplit (s : State) : Splits s s.resplit := by
  refine List.foldlRecOn (motive := Splits s) _ _ (.refl s) fun u hu p _ => hu.trans ?_
  dsimp only
  split
  · exact .refl u
  · split
    · exact .refl u
    · exact Splits.trans
        (List.foldlRecOn (motive := Splits u) _ _ (.refl u) fun v hv w _ => hv.addRanges _ _ fun r hr => lget_capacities (mem_splitGrid hr))
        ⟨⟨_, _, rfl⟩, State.ends_setLaunch _ _ fun _ => rfl, fun _ _ => rfl⟩

/-! ### Cores written one by one -/

/-- A fold that writes each core of a list once, by what the control die says. -/
theorem foldl_setCore (G : State → Nat → Core → Core) (F : Nat → Core → Core) (l : List Nat) (hl : l.Nodup) (s : State)
    (hG : ∀ u c, u.ctl = s.ctl → G u c = F c) : ∃ cs, l.foldl (fun (u : State) c => u.setCore c (G u c)) s = { s with cores := cs } ∧
      ∀ c, ({ s with cores := cs } : State).core c = if c ∈ l ∧ c < s.cores.length then F c (s.core c) else s.core c := by
  induction l generalizing s with
  | nil => exact ⟨_, rfl, fun c => by simp⟩
  | cons a l ih =>
    obtain ⟨ha, hl⟩ := List.nodup_cons.1 hl
    obtain ⟨cs, hfold, hcore⟩ := ih hl (s.setCore a (G s a)) hG
    refine ⟨cs, hfold, fun c => (hcore c).trans ?_⟩
    rw [State.core_setCore_eq, hG s a rfl, show (s.setCore a (F a)).cores.length = s.cores.length from lmod_length ..]
    by_cases hc : c = a
    · subst hc
      simp [ha]
    · simp [hc, Ne.symm hc]

theorem lmod_congr {α : Type} {xs : List α} {i : Nat} {f g : α → α} (h : ∀ x, xs[i]? = some x → f x = g x) : lmod xs i f = lmod xs i g := by
  induction xs generalizing i with
  | nil => rfl
  | cons x xs ih =>
    cases i with
    | zero => exact congrArg (· :: xs) (h x rfl)
    | succ i => exact congrArg (x :: ·) (ih h)

theorem lmod_id {α : Type} (xs : List α) (i : Nat) : lmod xs i id = xs := by
  induction xs generalizing i with
  | nil => rfl
  | cons x xs ih =>
    cases i with
    | zero => rfl
    | succ i => exact congrArg (x :: ·) (ih i)

/-- A core whose regulator takes a value, if no warp is resident. -/
def Core.regulated (r : Nat) (alarm : Bool) (k : Core) : Core :=
  if k.ctx.warps.isEmpty then { k with regulator := r, half := k.half || alarm } else k

theorem State.applyRegulator_eq (s : State) (c : Nat) :
    s.applyRegulator c = s.setCore c (Core.regulated (s.ctl.regOf c) (s.ctl.alarmOn.contains (s.ctl.regOf c))) := by
  have hcore {x : Core} (h : s.cores[c]? = some x) : s.core c = x := by simp [State.core, lget, h]
  simp only [State.applyRegulator]
  split
  · exact congrArg (fun cs => ({ s with cores := cs } : State))
      (lmod_congr fun x hx => (if_pos (by rw [← hcore hx]; assumption)).symm)
  · refine Eq.trans ?_ (congrArg (fun cs => ({ s with cores := cs } : State))
      (lmod_congr (f := id) fun x hx => (if_neg (by rw [← hcore hx]; assumption)).symm))
    rw [lmod_id]

theorem Core.regulated_same (r : Nat) (alarm : Bool) (k : Core) : ((k.regulated r alarm).enabled, (k.regulated r alarm).uncorr,
    (k.regulated r alarm).cycles, (k.regulated r alarm).rack) = (k.enabled, k.uncorr, k.cycles, k.rack) ∧
    (k.regulated r alarm).ctx = k.ctx ∧
    ((k.regulated r alarm).twin, (k.regulated r alarm).saved, (k.regulated r alarm).l1) = (k.twin, k.saved, k.l1) := by
  rw [Core.regulated]
  split <;> exact ⟨rfl, rfl, rfl⟩

/-! ### The loss of a compute die (R25, R369, R451) -/

/-- The launches with threads on a die that is lost end. -/
def State.endOn (s : State) (k : Nat) : State :=
  s.launches.foldl (fun s p => if s.dieHolds k p.1 then s.endLaunch p.1 .dieLost 0 else s) s

/-- The parts of grids that the die had wait again. -/
def State.unsplit (s : State) (k : Nat) : State :=
  (s.die k).ranges.foldl (fun (s : State) r => s.setLaunch r.launch fun l => { l with waitingPart := l.waitingPart ++ [(r.lo, r.hi)] }) s

/-- What the die had in flight. -/
def State.dropFlight (s : State) (k : Nat) : State :=
  let s3 := (s.accs.filter fun a => a.ofDie k).foldl (fun s a => s.lostAcc k a) s
  let trim (r : Raise) : Raise := { r with ths := r.ths.filter fun t => dieOf t.core != k }
  let s4 : State := { s3 with accs := s3.accs.filter (fun a => !a.ofDie k),
                              penRels := s3.penRels.filter (fun r => dieOf r.core != k),
                              ctl := { s3.ctl with raises := s3.ctl.raises.map trim } }
  ((s4.die k).dc.filter fun p => p.2.borrowed).foldl (fun (s : State) p => s.recallLine k p.1) s4

/-- The state in which a lost die's cores are. -/
def State.loseCores (s : State) (k : Nat) : State :=
  (upFrom (8 * k) 8).foldl (fun (s : State) c => s.setCore c fun x => (x.lost c (s.ctl.cpart? c)).addUncorr 1) s

/-- A lost die's cores take their regulators. -/
def State.regulateCores (s : State) (k : Nat) : State := (upFrom (8 * k) 8).foldl (fun (s : State) c => s.applyRegulator c) s

/-- What a die is after it has been lost, reset or powered down. -/
def Die.gone (code : Nat) (d : Die) : Die :=
  { Die.reset with st := if code = 0 then .lost else if code = 1 then .reset else .down, ring := d.ring.lost }

theorem State.loseDie_eq (s : State) (k code : Nat) : s.loseDie k code =
    let u := ((((s.endOn k).unsplit k).dropFlight k).loseCores k).setDie k (Die.gone code)
    ((u.regulateCores k).event 5 code 0 1 k u.ctl.ticks 0 k).mendYard := rfl

theorem State.dieHolds_cores {s u : State} (h : u.cores = s.cores) (k : Nat) : u.dieHolds k = s.dieHolds k := by
  funext i
  simp only [State.dieHolds, State.core, h]

theorem State.endOn_ends (s : State) (k : Nat) : (∃ ls ag, s.endOn k = { s with launches := ls, agenda := ag }) ∧
    ∀ i, (s.endOn k).ends i = (s.ends i).map (endOf (s.launches.any fun p => s.dieHolds k p.1 && p.1 == i) .dieLost) :=
  endAll s.launches s .dieLost (fun u => u.dieHolds k) (s.dieHolds k) fun _ hu => State.dieHolds_cores hu k

theorem State.unsplit_eq (s : State) (k : Nat) : (∃ ls, s.unsplit k = { s with launches := ls }) ∧ (s.unsplit k).ends = s.ends := by
  rw [State.unsplit]
  generalize (s.die k).ranges = l
  induction l generalizing s with
  | nil => exact ⟨⟨_, rfl⟩, rfl⟩
  | cons r l ih =>
    obtain ⟨⟨ls, h⟩, he⟩ := ih (s.setLaunch r.launch fun l => { l with waitingPart := l.waitingPart ++ [(r.lo, r.hi)] })
    exact ⟨⟨ls, h⟩, he.trans (s.ends_setLaunch r.launch fun _ => rfl)⟩

theorem State.dropFlight_calm (s : State) (k : Nat) : Calm s (s.dropFlight k) := by
  refine Calm.foldl ?_ fun _ _ h => h.recallLine
  have h : Calm s ((s.accs.filter fun a => a.ofDie k).foldl (fun s a => s.lostAcc k a) s) := Calm.refl.foldl fun _ _ h => h.lostAcc
  exact ⟨h.launches, h.cpart, h.cores, h.dies, h.enabled, h.ring⟩

/-- A die with nothing in flight, and nothing borrowed. -/
theorem State.dropFlight_idle {s : State} {k : Nat} (ha : ∀ a ∈ s.accs, a.ofDie k = false)
    (hb : ∀ p ∈ (s.die k).dc, p.2.borrowed = false) :
    ∃ pr rs, s.dropFlight k = { s with penRels := pr, ctl := { s.ctl with raises := rs } } := by
  have h1 : (s.accs.filter fun a => a.ofDie k) = [] := List.filter_eq_nil_iff.2 fun a h => by simp [ha a h]
  have h2 : (s.accs.filter fun a => !a.ofDie k) = s.accs := List.filter_eq_self.2 fun a h => by simp [ha a h]
  have h3 : ((s.die k).dc.filter fun p => p.2.borrowed) = [] := List.filter_eq_nil_iff.2 fun p h => by simp [hb p h]
  simp only [State.dropFlight, h1, List.foldl_nil, h2, State.die] at h3 ⊢
  rw [h3]
  exact ⟨_, _, rfl⟩

theorem State.loseCores_length (s : State) (k : Nat) : (s.loseCores k).cores.length = s.cores.length :=
  foldl_keep (fun u : State => u.cores.length) (fun _ _ => lmod_length ..) _ s

theorem State.loseCores_eq (s : State) (k : Nat) : ∃ cs, s.loseCores k = { s with cores := cs } ∧
    ∀ c, (s.loseCores k).core c = if c ∈ upFrom (8 * k) 8 ∧ c < s.cores.length then ((s.core c).lost c (s.ctl.cpart? c)).addUncorr 1
      else s.core c := by
  obtain ⟨cs, h, hc⟩ := foldl_setCore (fun u c x => (x.lost c (u.ctl.cpart? c)).addUncorr 1)
    (fun c x => (x.lost c (s.ctl.cpart? c)).addUncorr 1) (upFrom (8 * k) 8) (upFrom_nodup _ _) s fun _ _ hu => by rw [hu]
  exact ⟨cs, h, fun c => (congrArg (State.core · c) h).trans (hc c)⟩

theorem State.regulateCores_eq (s : State) (k : Nat) : ∃ cs, s.regulateCores k = { s with cores := cs } ∧
    ∀ c, (s.regulateCores k).core c = if c ∈ upFrom (8 * k) 8 ∧ c < s.cores.length then
      (s.core c).regulated (s.ctl.regOf c) (s.ctl.alarmOn.contains (s.ctl.regOf c)) else s.core c := by
  obtain ⟨cs, h, hc⟩ := foldl_setCore (fun u c => Core.regulated (u.ctl.regOf c) (u.ctl.alarmOn.contains (u.ctl.regOf c)))
    (fun c => Core.regulated (s.ctl.regOf c) (s.ctl.alarmOn.contains (s.ctl.regOf c))) (upFrom (8 * k) 8) (upFrom_nodup _ _) s
    fun _ _ hu => by rw [hu]
  have h' : s.regulateCores k = { s with cores := cs } := by
    rw [← h, State.regulateCores]
    simp only [State.applyRegulator_eq]
  exact ⟨cs, h', fun c => (congrArg (State.core · c) h').trans (hc c)⟩

theorem dieLost_idle (s : State) (k code : Nat) (h : 8 ≤ k ∨ 3 ≤ code ∨ ((s.die k).st ≠ .up ∧ code = 0)) :
    exec (.dieLost k code) s = .next s := if_pos h

/-- The states that lead from a die to its loss: `v` when its launches have ended and what it had in flight has gone, `u` when its cores
are as after reset, `t` at the end. -/
structure Loses (s v u t : State) (k code : Nat) : Prop where
  flight : ∃ ls ag, v = ({ s with launches := ls, agenda := ag } : State).dropFlight k
  ends : ∀ i, v.ends i = (s.ends i).map (endOf (s.launches.any fun p => s.dieHolds k p.1 && p.1 == i) .dieLost)
  calm : ∀ c, (v.core c).enabled = (s.core c).enabled
  cpart : v.ctl.cpart = s.ctl.cpart
  cores : v.cores.length = s.cores.length
  ring : ((v.die k).ring = (s.die k).ring)
  lost : ∃ cs, u = { v with cores := cs, dies := u.dies }
  core : ∀ c, u.core c = if c ∈ upFrom (8 * k) 8 ∧ c < v.cores.length then
    (((v.core c).lost c (v.ctl.cpart? c)).addUncorr 1).regulated (v.ctl.regOf c) (v.ctl.alarmOn.contains (v.ctl.regOf c)) else v.core c
  die : k < 8 → u.die k = Die.gone code (v.die k)
  splits : Splits (u.event 5 code 0 1 k u.ctl.ticks 0 k).mendYard t

theorem loseDie_loses (s : State) (k code : Nat) (hd : s.dies.length = 8) : ∃ v u, Loses s v u (s.loseDie k code).resplit k code := by
  obtain ⟨⟨ls, ag, hon⟩, hends⟩ := s.endOn_ends k
  obtain ⟨⟨ls', hun⟩, hends'⟩ := (s.endOn k).unsplit_eq k
  have hflight : (s.endOn k).unsplit k = { s with launches := ls', agenda := ag } := by rw [hun, hon]
  have calm := State.dropFlight_calm ((s.endOn k).unsplit k) k
  generalize hv : ((s.endOn k).unsplit k).dropFlight k = v at calm
  obtain ⟨cs, hlose, hcore⟩ := v.loseCores_eq k
  let w := (v.loseCores k).setDie k (Die.gone code)
  obtain ⟨cs', hreg, hcore'⟩ := w.regulateCores_eq k
  have hw : w.cores.length = v.cores.length := v.loseCores_length k
  have hctl : w.ctl = v.ctl := by
    change (v.loseCores k).ctl = v.ctl
    rw [hlose]
  refine ⟨v, w.regulateCores k, ⟨ls', ag, hv.symm.trans (by rw [hflight])⟩, fun i => ?_, fun c => ?_, ?_, ?_, ?_, ⟨cs', ?_⟩, fun c => ?_,
    fun hk => ?_, ?_⟩
  · rw [show v.ends i = ((s.endOn k).unsplit k).ends i by rw [State.ends, State.ends, State.launch?, State.launch?, calm.launches], hends',
      hends]
  · rw [calm.enabled c, hflight]
    rfl
  · rw [calm.cpart, hflight]
  · rw [calm.cores, hflight]
  · rw [calm.ring k, hflight]
    rfl
  · rw [hreg]
    change ({ (v.loseCores k).setDie k (Die.gone code) with cores := cs' } : State) = _
    rw [hlose]
    rfl
  · rw [hcore' c, hw, hctl]
    change (if _ then ((v.loseCores k).core c).regulated _ _ else (v.loseCores k).core c) = _
    rw [hcore c]
    split <;> rfl
  · rw [hreg]
    change w.die k = _
    have : (v.loseCores k).die k = v.die k := by rw [hlose]; rfl
    refine (State.die_setDie (v.loseCores k) k k _ ?_).trans ((if_pos rfl).trans (congrArg _ this))
    rw [hlose]
    change k < v.dies.length
    rw [calm.dies, hflight]
    exact hd.symm ▸ hk
  · rw [State.loseDie_eq, hv]
    have : (w.regulateCores k).ctl = w.ctl := by rw [hreg]
    rw [this]
    exact Splits.resplit _

theorem Die.gone_eq (code : Nat) (d : Die) (hc : code < 3) : (d.gone code).st = [DieSt.lost, .reset, .down].getD code .up ∧
    ((d.gone code).sheds, (d.gone code).shedMap, (d.gone code).dc, (d.gone code).pens, (d.gone code).ranges) = ([], [], [], [], []) ∧
    (d.gone code).ring.nextRowpart = d.ring.nextRowpart ∧ (d.gone code).st ≠ .up := by
  refine ⟨?_, rfl, rfl, ?_⟩
  · obtain rfl | rfl | rfl : code = 0 ∨ code = 1 ∨ code = 2 := by omega
    all_goals rfl
  · change (if code = 0 then DieSt.lost else if code = 1 then .reset else .down) ≠ .up
    split
    · decide
    · split <;> decide

/-- A core of a lost die, with its regulator. -/
theorem Core.lost_eq (k : Core) (c : Nat) (part : Option Nat) (r : Nat) (alarm : Bool) :
    let t := ((k.lost c part).addUncorr 1).regulated r alarm
    (t.enabled, t.uncorr, t.cycles, t.rack) = (k.enabled, 1, 0, 0) ∧ t.ctx = { Ctx.empty with part := part } ∧
      (t.twin, t.saved, t.l1) = (.free, [], []) :=
  Core.regulated_same r alarm _

section
variable {s v u t : State} {k code : Nat}

theorem Loses.die_gone (h : Loses s v u t k code) (hk : k < 8) (hc : code < 3) : t.die k = Die.gone code (v.die k) :=
  (h.splits.die k (by rw [show (u.event 5 code 0 1 k u.ctl.ticks 0 k).mendYard.die k = u.die k from rfl, h.die hk];
                      exact (Die.gone_eq code _ hc).2.2.2)).trans (h.die hk)

/-- The cores, and what lies beyond the dies and the launches, are those of `u` at the end. -/
theorem Loses.after (h : Loses s v u t k code) : t.cores = u.cores ∧ (t.mem, t.stks, t.scores) = (v.mem, v.stks, v.scores) ∧
    t.accs.map Acc.id = v.accs.map Acc.id ∧ t.ctl = (u.event 5 code 0 1 k u.ctl.ticks 0 k).ctl ∧ u.ctl = v.ctl := by
  obtain ⟨ds, ls, ht⟩ := h.splits.eq
  obtain ⟨cs, hu⟩ := h.lost
  refine ⟨by rw [ht]; rfl, ?_, ?_, by rw [ht]; rfl, by rw [hu]⟩
  · rw [ht]
    change (u.mem, u.stks, u.scores) = _
    rw [hu]
  · rw [ht]
    refine (State.mendYard_ids _).trans ?_
    change u.accs.map Acc.id = _
    rw [hu]

theorem Loses.core_eq (h : Loses s v u t k code) (c : Nat) : t.core c = u.core c := by
  rw [State.core, State.core, h.after.1]

theorem Loses.core_gone (h : Loses s v u t k code) (hs : s.cores.length = 64) (hk : k < 8) {c : Nat} (hc : c / 8 = k) :
    ((t.core c).enabled, (t.core c).uncorr, (t.core c).cycles, (t.core c).rack) = ((s.core c).enabled, 1, 0, 0) ∧
      (t.core c).ctx = { Ctx.empty with part := s.ctl.cpart? c } ∧
      ((t.core c).twin, (t.core c).saved, (t.core c).l1) = (.free, [], []) := by
  have hin : c ∈ upFrom (8 * k) 8 ∧ c < v.cores.length := ⟨(mem_upFrom ..).2 (by omega), by rw [h.cores, hs]; omega⟩
  rw [h.core_eq, h.core, if_pos hin, ← h.calm c, show s.ctl.cpart? c = v.ctl.cpart? c by simp only [Control.cpart?, h.cpart]]
  exact Core.lost_eq ..

theorem Loses.launch_ended (h : Loses s v u t k code) {i : Nat} {l : Launch} (hl : s.launch? i = some l) : (t.launch? i).map Launch.ended =
    some (if s.dieHolds k i = true ∧ l.ended = none then some (.dieLost, 0) else l.ended) := by
  have hu : u.launches = v.launches := by
    obtain ⟨cs, hu⟩ := h.lost
    rw [hu]
  have hany : (s.launches.any fun p => s.dieHolds k p.1 && p.1 == i) = s.dieHolds k i := by
    rw [Bool.eq_iff_iff, List.any_eq_true]
    constructor
    · rintro ⟨p, -, hp⟩
      obtain ⟨hh, he⟩ := Bool.and_eq_true_iff.1 hp
      rwa [eq_of_beq he] at hh
    · exact fun hh => ⟨(i, l), mget?_mem hl, by simp [hh]⟩
  calc (t.launch? i).map Launch.ended = u.ends i := congrFun h.splits.ends i
    _ = v.ends i := by rw [State.ends, State.ends, State.launch?, State.launch?, hu]
    _ = (some l.ended).map (endOf (s.dieHolds k i) .dieLost) := by rw [h.ends i, hany, State.ends, hl]; rfl
    _ = _ := congrArg some (endOf_eq ..)

theorem Loses.idle (h : Loses s v u t k code) (hk : k < 8) (hc : code < 3) (ha : ∀ a ∈ s.accs, a.ofDie k = false)
    (hb : ∀ p ∈ (s.die k).dc, p.2.borrowed = false) : t.mem = s.mem ∧ s.tells t 5 code 0 1 k ∧
      t.accs.map Acc.id = s.accs.map Acc.id ∧ (∀ c, c / 8 ≠ k → t.core c = s.core c) ∧ (t.stks, t.scores) = (s.stks, s.scores) := by
  obtain ⟨ls, ag, hv⟩ := h.flight
  obtain ⟨pr, rs, hidle⟩ := State.dropFlight_idle (s := { s with launches := ls, agenda := ag }) ha hb
  rw [hidle] at hv
  obtain ⟨-, hrest, hids, hctl, huv⟩ := h.after
  simp only [Prod.mk.injEq] at hrest
  obtain ⟨hm, hst, hsc⟩ := hrest
  refine ⟨by rw [hm, hv], ?_, by rw [hids, hv], fun c hn => ?_, by rw [hst, hsc, hv]⟩
  · exact State.tells_of_events (u.event_tells_unit _ _ _ (by decide) (by omega) (by decide) (by decide) (by omega)) (by rw [huv, hv])
      (by rw [huv, hv]) hctl
  · have : ¬(c ∈ upFrom (8 * k) 8 ∧ c < v.cores.length) := fun hin => hn (by have := (mem_upFrom ..).1 hin.1; omega)
    rw [h.core_eq, h.core, if_neg this, hv]
    rfl

end

theorem dieLost_loses (s : State) (k code : Nat) (hdies : s.dies.length = 8) (hk : k < 8) (hc : code < 3)
    (hup : (s.die k).st = .up ∨ code ≠ 0) : ∃ t, exec (.dieLost k code) s = .next t ∧ ∃ v u, Loses s v u t k code := by
  have he : exec (.dieLost k code) s = .next (s.loseDie k code).resplit := by
    refine if_neg ?_
    rintro (h | h | ⟨h, h0⟩)
    · omega
    · omega
    · exact hup.elim h fun h' => h' h0
  exact ⟨_, he, loseDie_loses s k code hdies⟩

end Sys2Proof.Machine

open Sys2Proof Sys2Proof.Machine

/-- Settles O53, event by event: what each failure names is a field of the state that its event makes, and the rest is a frame: a
record changes the ring of events alone, `endLaunch` launches and the agenda, `mendYard` the yard, `resplit` the ranges of dies that
work; what a lost die has in flight is performed by operations that are `Calm`. -/
theorem failureEvents : Obligations.FailureEvents := by
  refine ⟨fun s k code hcores hdies hstks hscores => ⟨dieLost_idle s k code, fun hk hc hup => ?_, fun h => ?_, fun hk ha => ?_⟩,
    fun s a b hstks hcores => ⟨fun _ hb => attachPort_goesOn s a b hstks hb, fun _ _ hab => yardLink_goesOn s a b hstks hab, fun h => ?_,
      controlDieFailure_ends s, fun h => if_pos ⟨by rw [h.1]; rfl, h.2⟩, fun h => if_neg fun hn => h ⟨by simpa using hn.1, hn.2⟩⟩,
    fun s hcores hstks hdies => ⟨fun p c h => ?_, fun _ => rfl, fun _ _ _ _ _ _ _ => ⟨rfl, rfl, rfl, rfl, rfl⟩,
      fun k n _ h => ⟨_, rfl, s.errCore_div k (some n) h⟩, fun k _ => ⟨_, rfl, s.errCore_none_div k⟩,
      fun r n hw _ hl => uncorrectableVreg s r n hw hl, fun c w n hw _ => uncorrectableUreg s c w n hw,
      fun k n w hk => uncorrectableShed s k n w hdies hk, fun p c _ _ h => uncorrectable_inl s p c h,
      fun sec => uncorrectableMemory s sec hstks⟩,
    fun s k hk hstks hscores => ⟨fun h => ?_, snapshotOpen_freezes s k hk hstks hscores, snapshotUnitCopy_rests s k,
      fun u us ok hf ha hr => ⟨fun hd h => ?_, fun lin hd hdst hl hfree halive => ?_⟩⟩⟩
  · obtain ⟨t, he, v, u, h⟩ := dieLost_loses s k code hdies hk hc hup
    obtain ⟨hst, hempty, hring, -⟩ := Die.gone_eq code (v.die k) hc
    rw [← h.die_gone hk hc] at hst hempty hring
    exact ⟨t, he, hst, hempty, hring.trans (congrArg Ring.nextRowpart h.ring), fun c => h.core_gone hcores hk,
      fun i l hl _ => h.launch_ended hl, h.idle hk hc⟩
  · exact if_pos (by simpa using h)
  · obtain ⟨t, he, h1, h2, h3, h4, h5, h6, h7, h8, h9, h10⟩ := stackLost_loses s k hstks hscores hk ha
    exact ⟨t, he, h1, h2, h3, h4, h5, h6, h7, h8, h9, fun i l hi _ => h10 i l hi⟩
  · exact congrArg Host.Outcome.next (if_neg (by simp [h]))
  · change execCorrectedError p s = _
    rw [execCorrectedError, h]
  · change execSnapshotOpen k s = _
    rw [execSnapshotOpen]
    split
    · rw [State.snapOpen, if_pos (h.resolve_left (by simp_all))]
    · rfl
  · obtain ⟨hmem, hothers, htell, hst, hclean⟩ := snapFail_fails s k hk hstks
    exact ⟨_, snapshotUnitCopy_away s k u us ok hf ha hr hd h, hmem, hothers, htell, hst, fun v => hf ▸ hclean v⟩
  · rw [← s.snapImage_eq k u hk]
    exact snapshotUnitCopy_home s k u us ok hk hstks hf ha hr lin hd hdst hl hfree halive
end

section
/-! What the decoders read from a word and the encoders write into it (R26 to R35, R57, R66 to R72, R375, R376),
  for O57. A word that
decodes is its fields put together, which is what the encoder writes; and some word holds the fields of any instruction,
  and decodes to
it, so that the word that the encoder writes for it, which can be no other, does too. -/

namespace Sys2Proof

/-! ### Fields of a number -/

/-- A number without its low bits. -/
def shifted (x k : Nat) : Nat := x / 2 ^ k

theorem shifted_zero (x : Nat) : shifted x 0 = x := by simp [shifted]

theorem shifted_of_lt {x k : Nat} (h : x < 2 ^ k) : shifted x k = 0 := Nat.div_eq_of_lt h

/-- A field is what the bits from its lowest on hold, less what those above it hold. -/
theorem cast_fld {x hi lo : Nat} (h : lo ≤ hi + 1) :
    ((fld x hi lo : Nat) : Int) = shifted x lo - 2 ^ (hi + 1 - lo) * shifted x (hi + 1) := by
  obtain ⟨k, hk⟩ := Nat.exists_eq_add_of_le h
  have : fld x hi lo + 2 ^ (hi + 1 - lo) * shifted x (hi + 1) = shifted x lo := by
    rw [fld, shifted, shifted, hk, Nat.add_sub_cancel_left, Nat.pow_add, ← Nat.div_div_eq_div_mul, Nat.mod_add_div]
  rw [← this]
  push_cast
  ring

theorem fld_lt (x hi lo : Nat) : fld x hi lo < 2 ^ (hi + 1 - lo) := Nat.mod_lt _ (Nat.two_pow_pos _)

theorem fld_lt_of {x hi lo n : Nat} (h : hi + 1 - lo = n) : fld x hi lo < 2 ^ n := h ▸ fld_lt x hi lo

theorem bitAt_eq (x i : Nat) : bitAt x i = (fld x i i == 1) := by simp [bitAt, fld]

theorem b2n_bitAt (x i : Nat) : b2n (bitAt x i) = fld x i i := by
  have h := fld_lt_of (x := x) (hi := i) (lo := i) (n := 1) (by omega)
  rw [bitAt_eq]
  interval_cases fld x i i <;> rfl

theorem bitAt_eq_true {x i : Nat} : bitAt x i = true ↔ fld x i i = 1 := by rw [bitAt_eq, beq_iff_eq]

theorem bit_ne_one {x i : Nat} : ¬fld x i i = 1 ↔ fld x i i = 0 := by
  have h := fld_lt_of (x := x) (hi := i) (lo := i) (n := 1) (by omega)
  omega

theorem val_ofNat_fld {n : Nat} [NeZero n] {x hi lo : Nat} (h : 2 ^ (hi + 1 - lo) ≤ n) : (Fin.ofNat n (fld x hi lo)).val = fld x
  hi lo :=
  Nat.mod_eq_of_lt ((fld_lt x hi lo).trans_le h)

theorem val_ofNat_of_le_two {n : Nat} (h : n ≤ 2) : (Fin.ofNat 3 n).val = n := Nat.mod_eq_of_lt (Nat.lt_succ_of_le h)

theorem toNat_ofNat_fld {n x hi lo : Nat} (h : hi + 1 - lo ≤ n) : (BitVec.ofNat n (fld x hi lo)).toNat = fld x hi lo := by
  rw [BitVec.toNat_ofNat]
  exact Nat.mod_eq_of_lt ((fld_lt x hi lo).trans_le (Nat.pow_le_pow_right (by decide) h))

/-! ### What a decoder answers -/

theorem dec_bind_ok {α β : Type} {r : Dec α} {f : α → Dec β} {y : β} : (r >>= f) = .ok y ↔ ∃ v, r = .ok v ∧ f v = .ok y := by
  cases r <;> simp [bind, Except.bind]

theorem dec_pure_ok {α : Type} {v y : α} : (pure v : Dec α) = .ok y ↔ v = y := by simp [pure, Except.pure]

theorem dec_ite_ok {α : Type} {c : Prop} [Decidable c] {r r' : Dec α} {y : α} :
    (if c then r else r') = .ok y ↔ (c ∧ r = .ok y) ∨ (¬c ∧ r' = .ok y) := by
  split <;> simp_all

theorem unused_ok {x : Nat} {l : List (Nat × Nat)} {u : Unit} : unused x l = .ok u ↔ ∀ p ∈ l,
  fld x p.1 p.2 = 0 := by simp [unused]

theorem onlyRn_ok {n : Nat} {u : Unit} : onlyRn n = .ok u ↔ n = 0 := by simp [onlyRn]

theorem noGranule_ok {x : Nat} {u : Unit} : noGranule x = .ok u ↔ fld x 43 40 = 0 := by simp [noGranule]

theorem checked_ok {r : Dec Instr} {i : Instr} : checked r = .ok i ↔ i.wf = true ∧ r = .ok i := by
  cases r with
  | error e => simp [checked]
  | ok j =>
    simp only [checked, Except.ok.injEq]
    constructor
    · intro h
      split at h
      · cases h; exact ⟨‹_›, rfl⟩
      · cases h
    · rintro ⟨hw, rfl⟩
      rw [if_pos hw]

/-! ### Register fields (R47 to R49) -/

theorem konstOf_konstCode (c : Konst) : konstOf (konstCode c) = c := by cases c <;> rfl

theorem konstCode_lt (c : Konst) : konstCode c < 16 := by cases c <;> decide

theorem konstCode_konstOf {n : Nat} (h : n < 16) : konstCode (konstOf n) = n := by decide +revert

theorem Src.code_lt (a : Src) : a.code < 1024 := by
  cases a with
  | v n => exact n.isLt.trans (by decide)
  | w n => have := n.isLt; simp only [Src.code]; omega
  | k c => have := konstCode_lt c; simp only [Src.code]; omega

theorem Dst.code_lt (d : Dst) : d.code < 1024 := by
  cases d with
  | v n => exact n.isLt.trans (by decide)
  | w n => have := n.isLt; simp only [Dst.code]; omega
  | discard => decide

theorem decSrc_code (a : Src) : decSrc a.code = .ok a := by
  cases a with
  | v n => simp [Src.code, decSrc]
  | w n =>
    have : ¬640 + n.val < 640 := by omega
    have : 640 + n.val < 704 := by omega
    simp [Src.code, decSrc, *]
  | k c =>
    have := konstCode_lt c
    simp only [Src.code, decSrc, Nat.add_sub_cancel_left, konstOf_konstCode]
    rw [if_neg (by omega), if_neg (by omega), if_neg (by omega)]

theorem code_of_decSrc {n : Nat} {a : Src} (hn : n < 1024) (h : decSrc n = .ok a) : a.code = n := by
  unfold decSrc at h
  split at h
  · cases h; simpa [Src.code]
  split at h
  · cases h; simp only [Src.code, Fin.ofNat]; omega
  split at h
  · cases h
  · cases h
    simp only [Src.code, konstCode_konstOf (show n - 1008 < 16 by omega)]
    omega

theorem decSrc_fld {x hi lo : Nat} {a : Src} (h : hi + 1 - lo = 10) : decSrc (fld x hi lo) = .ok a ↔ a.code = fld x hi lo :=
  ⟨code_of_decSrc (fld_lt_of h), fun e => e ▸ decSrc_code a⟩

theorem decDst_code (d : Dst) : decDst d.code = .ok d := by
  cases d with
  | v n => simp [Dst.code, decDst]
  | w n =>
    have : ¬640 + n.val < 640 := by omega
    have : 640 + n.val < 704 := by omega
    simp [Dst.code, decDst, *]
  | discard => rfl

theorem code_of_decDst {n : Nat} {d : Dst} (h : decDst n = .ok d) : d.code = n := by
  unfold decDst at h
  split at h
  · cases h; simpa [Dst.code]
  split at h
  · cases h; simp only [Dst.code, Fin.ofNat]; omega
  split at h
  · cases h
  split at h
  · cases h; simp [Dst.code, *]
  · cases h

theorem decDst_ok {n : Nat} {d : Dst} : decDst n = .ok d ↔ d.code = n := ⟨code_of_decDst, fun e => e ▸ decDst_code d⟩

/-! ### Coded fields -/

/-- A coded field answers the value whose code it holds, if one has that code. -/
theorem dec_codes :
    (∀ n e, decElem n = .ok e ↔ e.code = n) ∧ (∀ n e, decICond n = .ok e ↔ e.code = n) ∧ (∀ n e,
      decFCond n = .ok e ↔ e.code = n) ∧
    (∀ n e, decRnd n = .ok e ↔ e.code = n) ∧ (∀ n e, decVFmt n = .ok e ↔ e.code = n) ∧ (∀ n e, decCFmt n = .ok e ↔ e.code = n) ∧
    (∀ n e, decTag n = .ok e ↔ e.code = n) ∧ (∀ n e, decWidth n = .ok e ↔ e.code = n) ∧ (∀ n e, decCls n = .ok e ↔ e.code = n) ∧
    (∀ n e, decHint n = .ok e ↔ e.code = n) ∧ (∀ n e, decMFmt n = .ok e ↔ e.code = n) ∧ (∀ n e, decAtom n = .ok e ↔ e.code = n) ∧
    (∀ n e, decAddTy n = .ok e ↔ e.code = n) ∧ (∀ n e, decColl n = .ok e ↔ e.code = n) ∧ (∀ n e, decGrp n = .ok e ↔ e.code = n) ∧
    (∀ n e, decEng n = .ok e ↔ e.code = n) ∧ (∀ n e, decSpec n = .ok e ↔ e.code = n) ∧ (∀ n e, decMovW n = .ok e ↔ e.code = n) ∧
    (∀ n e, decPack n = .ok e ↔ e.code = n) ∧ (∀ n e, decUnpack n = .ok e ↔ e.code = n) ∧ (∀ n e,
      decScale n = .ok e ↔ e.code = n) ∧
    (∀ n e, decBlk n = .ok e ↔ e.code = n) ∧ (∀ n e, decPhase n = .ok e ↔ e.code = n) ∧ (∀ n e, decRes n = .ok e ↔ e.code = n) ∧
    (∀ n e, decLvl n = .ok e ↔ e.code = n) := by
  and_intros
  all_goals
    intro n e
    refine ⟨fun h => ?_, fun h => h ▸ ?_⟩
    · dsimp only [decElem, decICond, decFCond, decRnd, decVFmt, decCFmt, decTag, decWidth, decCls, decHint, decMFmt, decAtom,
      decAddTy,
        decColl, decGrp, decEng, decSpec, decMovW, decPack, decUnpack, decScale, decBlk, decPhase, decRes, decLvl] at h
      split at h <;> cases h <;> rfl
    · cases e <;> rfl

/-- The classes of LDG and STG, of which each takes three (R381). -/
theorem decLdCls_ok {n : Nat} {c : Cls} : decLdCls n = .ok c ↔ c.forLoad = true ∧ ldClsCode c = n := by
  constructor
  · intro h
    unfold decLdCls at h
    split at h <;> cases h <;> exact ⟨rfl, rfl⟩
  · rintro ⟨h, rfl⟩
    exact match c, h with
      | .rlx, _ | .ord, _ | .acq, _ => rfl

theorem decStCls_ok {n : Nat} {c : Cls} : decStCls n = .ok c ↔ c.forStore = true ∧ stClsCode c = n := by
  constructor
  · intro h
    unfold decStCls at h
    split at h <;> cases h <;> exact ⟨rfl, rfl⟩
  · rintro ⟨h, rfl⟩
    exact match c, h with
      | .rlx, _ | .ord, _ | .rel, _ => rfl

/-- A coded field in which every code has a value. -/
theorem code_of_total :
    (∀ n < 4, (decVote n).code = n) ∧ (∀ n < 4, (decShfl n).code = n) ∧ (∀ n < 8, (decCTy n).code = n) ∧
    (∀ n < 4, (decCWidth n).code = n) ∧ (∀ n < 8, (decAmoOp n).code = n) ∧ ∀ n < 4, amoClsCode (decAmoCls n) = n := by
  decide

/-- The same of a field of that width. -/
theorem code_of_fld {x hi lo : Nat} :
    (hi + 1 - lo = 2 → (decVote (fld x hi lo)).code = fld x hi lo) ∧ (hi + 1 - lo = 2 → (decShfl (fld x hi lo)).code = fld x hi
      lo) ∧
    (hi + 1 - lo = 3 → (decCTy (fld x hi lo)).code = fld x hi lo) ∧ (hi + 1 - lo = 2 → (decCWidth (fld x hi lo)).code = fld x hi
      lo) ∧
    (hi + 1 - lo = 3 → (decAmoOp (fld x hi lo)).code = fld x hi lo) ∧
    (hi + 1 - lo = 2 → amoClsCode (decAmoCls (fld x hi lo)) = fld x hi lo) := by
  obtain ⟨hv, hs, ht, hw, ho, hc⟩ := code_of_total
  exact ⟨fun h => hv _ (fld_lt_of h), fun h => hs _ (fld_lt_of h), fun h => ht _ (fld_lt_of h), fun h => hw _ (fld_lt_of h),
    fun h => ho _ (fld_lt_of h), fun h => hc _ (fld_lt_of h)⟩


/-! ### A word that decodes is the encoding of its instruction -/

/-- The decoder of Quatin words before the operand checks (R28). -/
def decWord (x : Nat) : Dec Instr :=
  match fld x 62 61 with
  | 0 => decF3 x
  | 1 => decFI x
  | 2 => decFP x
  | _ => decFE x

theorem decodeQuatin_eq (w : Dword) : decodeQuatin w = checked (decWord w.toNat) := rfl

/-- What the fields above the opcode say of the bits there: the issue fields, read and written again, are those bits but for the
space. -/
theorem header_terms {x sp : Nat} (hx : x < 2 ^ 64) (hs : fld x 62 61 = sp) :
    (encHdr (decHdr x) : Int) = 2 ^ 53 * shifted x 53 - 2 ^ 61 * sp ∧ (shifted x 61 : Int) - 4 * shifted x 63 = sp ∧
    (shifted x 64 : Int) = 0 := by
  have h64 := shifted_of_lt hx
  subst hs
  simp only [encHdr, decHdr, b2n_bitAt]
  rw [val_ofNat_fld (by decide), val_ofNat_fld (by decide)]
  push_cast
  simp (disch := decide) only [cast_fld, Nat.reduceAdd, Nat.reduceSub, h64]
  omega

theorem encHalf_of_decHalf {y : Nat} {k : Half} (hy : y < 2 ^ 29) (h : decHalf y = .ok k) : encHalf k = y := by
  have h29 := shifted_of_lt hy
  clear hy
  unfold decHalf at h
  split at h
  all_goals
    revert h
    simp only [dec_bind_ok, dec_pure_ok, unused_ok, dec_codes, List.forall_mem_cons, exists_const, forall_exists_index, and_imp,
      reduceCtorEq, false_imp_iff]
  all_goals
    intros
    subst_vars
    rw [← Int.ofNat_inj] at *
    simp (disch := decide) only [encHalf, encHalfF, b2n_bitAt, val_ofNat_fld, toNat_ofNat_fld, Int.natCast_add, Int.natCast_mul,
      Int.natCast_pow, Int.cast_ofNat_Int, cast_fld, shifted_zero, Nat.reduceAdd, Nat.reduceSub] at *
    omega

theorem code_none : Hint.none.code = 0 := rfl

theorem encode_of_decFP {x : Nat} {i : Instr} (hx : x < 2 ^ 64) (hs : fld x 62 61 = 2) (h : decFP x = .ok i) :
    encode i = some x := by
  simp only [decFP, dec_bind_ok, dec_pure_ok] at h
  obtain ⟨p, hp, q, hq, rfl⟩ := h
  have hp := encHalf_of_decHalf (fld_lt x 57 29) hp
  have hq := encHalf_of_decHalf (fld_lt x 28 0) hq
  have h64 := shifted_of_lt hx
  refine congrArg some ?_
  rw [← Int.ofNat_inj] at *
  push_cast [b2n_bitAt, hp, hq]
  simp (disch := decide) only [val_ofNat_fld, cast_fld, shifted_zero, Nat.reduceAdd, Nat.reduceSub] at *
  omega

/-! The fields that an arm of a decoder reads are, as integers, differences of what the bits from their ends on hold, and sum to
the word. -/

theorem encode_of_decF3 {x : Nat} {i : Instr} (hx : x < 2 ^ 64) (hs : fld x 62 61 = 0) (h : decF3 x = .ok i) :
    encode i = some x := by
  obtain ⟨hh, hs, h64⟩ := header_terms hx hs
  clear hx
  unfold decF3 at h
  split at h
  all_goals
    revert h
    simp (disch := decide) only [f3dab, f3da, f3fp, f3fma, f3un, f3fn, f3d, f3a, f3b, f3c, dec_bind_ok, dec_pure_ok, dec_ite_ok,
      unused_ok, onlyRn_ok, dec_codes, decDst_ok, decSrc_fld, bitAt_eq_true, List.forall_mem_cons, List.not_mem_nil,
      false_imp_iff, implies_true, or_imp, exists_const, and_true, forall_exists_index, and_imp, reduceCtorEq]
  all_goals
    repeat' apply And.intro
  all_goals
    intros
    subst_vars
    refine congrArg some ?_
    rw [← Int.ofNat_inj] at *
    simp (disch := decide) only [encF3, encF3c, encFp, b2n_bitAt, decPred, val_ofNat_fld, toNat_ofNat_fld, code_of_fld,
      Int.natCast_add, Int.natCast_mul, Int.natCast_pow, Int.cast_ofNat_Int, cast_fld, shifted_zero, Nat.reduceAdd,
      Nat.reduceSub] at *
    omega

theorem encode_of_decFI {x : Nat} {i : Instr} (hx : x < 2 ^ 64) (hs : fld x 62 61 = 1) (h : decFI x = .ok i) :
    encode i = some x := by
  obtain ⟨hh, hs, h64⟩ := header_terms hx hs
  clear hx
  unfold decFI at h
  split at h
  all_goals
    revert h
    simp (disch := decide) only [fidai, imm24, f3d, f3a, dec_bind_ok, dec_pure_ok, unused_ok, decDst_ok, decSrc_fld,
      List.forall_mem_cons, List.not_mem_nil, false_imp_iff, implies_true, exists_const, and_true, forall_exists_index, and_imp,
      reduceCtorEq]
  all_goals
    intros
    subst_vars
    refine congrArg some ?_
    rw [← Int.ofNat_inj] at *
    simp (disch := decide) only [encFI, toNat_ofNat_fld, Int.natCast_add, Int.natCast_mul, Int.natCast_pow, Int.cast_ofNat_Int,
      cast_fld, shifted_zero, Nat.reduceAdd, Nat.reduceSub] at *
    omega

theorem encode_of_decFE {x : Nat} {i : Instr} (hx : x < 2 ^ 64) (hs : fld x 62 61 = 3) (h : decFE x = .ok i) :
    encode i = some x := by
  obtain ⟨hh, hs, h64⟩ := header_terms hx hs
  clear hx
  unfold decFE at h
  split at h
  all_goals
    revert h
    simp (disch := decide) only [fe1d, fe1, fe2, fe3, feHint, feCls, feWidth, dec_bind_ok, dec_pure_ok, dec_ite_ok, unused_ok,
      noGranule_ok, dec_codes, decDst_ok, decSrc_fld, List.forall_mem_cons, List.not_mem_nil, false_imp_iff, implies_true,
      or_imp, exists_const, and_true, forall_exists_index, and_imp, reduceCtorEq]
  all_goals
    intros
    subst_vars
    refine congrArg some ?_
    rw [← Int.ofNat_inj] at *
    simp (disch := first | decide | assumption) only [encFE, encAcc, code_none, b2n_bitAt, decPred, val_ofNat_fld,
      val_ofNat_of_le_two, toNat_ofNat_fld, Int.natCast_add, Int.natCast_mul, Int.natCast_pow, Int.cast_ofNat_Int, cast_fld,
      shifted_zero, Nat.reduceAdd, Nat.reduceSub] at *
    omega

theorem encode_of_decWord {x : Nat} {i : Instr} (hx : x < 2 ^ 64) (h : decWord x = .ok i) : encode i = some x := by
  have h4 : fld x 62 61 < 4 := fld_lt x 62 61
  unfold decWord at h
  split at h
  case h_1 hs => exact encode_of_decF3 hx hs h
  case h_2 hs => exact encode_of_decFI hx hs h
  case h_3 hs => exact encode_of_decFP hx hs h
  case h_4 h0 h1 h2 => exact encode_of_decFE hx (by grind) h

theorem encode_of_decC {x : Nat} {i : Instr} (hx : x < 2 ^ 32) (h : decC x = .ok i) : encode i = some x := by
  have h32 := shifted_of_lt hx
  clear hx
  unfold decC at h
  repeat' split at h
  any_goals simp only [bitAt_eq_true, bit_ne_one] at *
  all_goals
    revert h
    simp (disch := decide) only [dec_bind_ok, dec_pure_ok, unused_ok, dec_codes, decLdCls_ok, decStCls_ok, List.forall_mem_cons,
      List.not_mem_nil, false_imp_iff, implies_true, and_true, exists_const, forall_exists_index, and_imp, reduceCtorEq]
  all_goals
    intros
    subst_vars
    refine congrArg some ?_
    rw [← Int.ofNat_inj] at *
    simp (disch := decide) only [encR, encI, cd, ca, cb, ck, cty, b2n_bitAt, val_ofNat_fld, toNat_ofNat_fld, code_of_fld,
      Int.natCast_add, Int.natCast_mul, Int.natCast_pow, Int.cast_ofNat_Int, cast_fld, shifted_zero, Nat.reduceAdd,
      Nat.reduceSub] at *
    omega

/-! ### Words that hold given fields -/

/-- The bits of a number from `p` on hold the listed values, each up to the bit that stands with it. -/
def HoldsFields (x p : Nat) : List (Nat × Nat) → Prop
  | [] => True
  | (hi, v) :: l => fld x hi p = v % 2 ^ (hi + 1 - p) ∧ HoldsFields x (hi + 1) l

/-- The number that holds the listed values from bit `p` on. -/
def placeFields (p : Nat) : List (Nat × Nat) → Nat
  | [] => 0
  | (hi, v) :: l => v % 2 ^ (hi + 1 - p) + 2 ^ (hi + 1 - p) * placeFields (hi + 1) l

/-- The fields of a list lie one above the other, from bit `p` up to bit `q`. -/
def fieldsAscend (p : Nat) : List (Nat × Nat) → Nat → Bool
  | [], q => p == q
  | (hi, _) :: l, q => decide (p ≤ hi + 1) && fieldsAscend (hi + 1) l q

theorem ascends_cons {p hi v q : Nat} {l : List (Nat × Nat)} :
    fieldsAscend p ((hi, v) :: l) q = true ↔ p ≤ hi + 1 ∧ fieldsAscend (hi + 1) l q = true := by simp [fieldsAscend]

theorem place_lt {p q : Nat} {l : List (Nat × Nat)} (h : fieldsAscend p l q) : p ≤ q ∧ placeFields p l < 2 ^ (q - p) := by
  induction l generalizing p with
  | nil =>
    obtain rfl : p = q := by simpa [fieldsAscend] using h
    exact ⟨le_rfl, by simp [placeFields]⟩
  | cons f l ih =>
    obtain ⟨hp, hl⟩ := ascends_cons.mp h
    obtain ⟨hq, hlt⟩ := ih hl
    refine ⟨hp.trans hq, ?_⟩
    rw [placeFields, show q - p = (f.1 + 1 - p) + (q - (f.1 + 1)) by omega, Nat.pow_add]
    calc f.2 % 2 ^ (f.1 + 1 - p) + 2 ^ (f.1 + 1 - p) * placeFields (f.1 + 1) l
        < 2 ^ (f.1 + 1 - p) * (placeFields (f.1 + 1) l + 1) := by
          have := Nat.mod_lt f.2 (Nat.two_pow_pos (f.1 + 1 - p))
          rw [Nat.mul_add_one]
          omega
      _ ≤ 2 ^ (f.1 + 1 - p) * 2 ^ (q - (f.1 + 1)) := Nat.mul_le_mul_left _ hlt

theorem holds_of_shifted {x p q : Nat} {l : List (Nat × Nat)} (h : fieldsAscend p l q) (hx : shifted x p = placeFields p l) :
    HoldsFields x p l := by
  induction l generalizing p with
  | nil => trivial
  | cons f l ih =>
    obtain ⟨hp, hl⟩ := ascends_cons.mp h
    have hm := Nat.mod_lt f.2 (Nat.two_pow_pos (f.1 + 1 - p))
    rw [placeFields] at hx
    refine ⟨?_, ih hl ?_⟩
    · rw [fld, ← shifted, hx, Nat.add_mul_mod_self_left, Nat.mod_mod]
    · have hs : shifted x (f.1 + 1) = shifted x p / 2 ^ (f.1 + 1 - p) := by
        rw [shifted, shifted, Nat.div_div_eq_div_mul, ← Nat.pow_add, Nat.add_sub_cancel' hp]
      rw [hs, hx, Nat.add_mul_div_left _ _ (Nat.two_pow_pos _), Nat.div_eq_of_lt hm, Nat.zero_add]

theorem holds_place {q : Nat} {l : List (Nat × Nat)} (h : fieldsAscend 0 l q) : HoldsFields (placeFields 0 l) 0 l :=
  holds_of_shifted h (shifted_zero _)

theorem ascends_append {p q r : Nat} {l m : List (Nat × Nat)} (h : fieldsAscend p l q) (hm : fieldsAscend q m r) :
    fieldsAscend p (l ++ m) r := by
  induction l generalizing p with
  | nil =>
    obtain rfl : p = q := by simpa [fieldsAscend] using h
    exact hm
  | cons f l ih =>
    obtain ⟨hp, hl⟩ := ascends_cons.mp h
    exact ascends_cons.mpr ⟨hp, ih hl⟩

theorem holds_append {x p q : Nat} {l m : List (Nat × Nat)} (h : fieldsAscend p l q) (hx : HoldsFields x p (l ++ m)) :
    HoldsFields x p l ∧ HoldsFields x q m := by
  induction l generalizing p with
  | nil =>
    obtain rfl : p = q := by simpa [fieldsAscend] using h
    exact ⟨trivial, hx⟩
  | cons f l ih =>
    obtain ⟨hf, hr⟩ := hx
    obtain ⟨hl, hm⟩ := ih (ascends_cons.mp h).2 hr
    exact ⟨⟨hf, hl⟩, hm⟩

/-- The fields of a half, of which `l` lists those below the opcode (R35). -/
def halfWord (op : Nat) (l : List (Nat × Nat)) : List (Nat × Nat) := l ++ [(28, op)]

/-- The fields of a half (R72). -/
def Half.layout : Half → List (Nat × Nat)
  | .nop => halfWord 0x00 [(21, 0)]
  | .mov d s => halfWord 0x01 [(5, 0), (13, s), (21, d)]
  | .movi d k => halfWord 0x02 [(5, k.toNat), (13, 0), (21, d)]
  | .iadd d s => halfWord 0x03 [(5, 0), (13, s), (21, d)]
  | .isub d s => halfWord 0x04 [(5, 0), (13, s), (21, d)]
  | .imin d s => halfWord 0x05 [(5, 0), (13, s), (21, d)]
  | .imax d s => halfWord 0x06 [(5, 0), (13, s), (21, d)]
  | .and d s => halfWord 0x07 [(5, 0), (13, s), (21, d)]
  | .or d s => halfWord 0x08 [(5, 0), (13, s), (21, d)]
  | .xor d s => halfWord 0x09 [(5, 0), (13, s), (21, d)]
  | .not d s => halfWord 0x0A [(5, 0), (13, s), (21, d)]
  | .ineg d s => halfWord 0x0B [(5, 0), (13, s), (21, d)]
  | .shl d s n => halfWord 0x0C [(4, n), (5, 0), (13, s), (21, d)]
  | .shr d s n => halfWord 0x0D [(4, n), (5, 0), (13, s), (21, d)]
  | .sar d s n => halfWord 0x0E [(4, n), (5, 0), (13, s), (21, d)]
  | .fadd d s r z => halfWord 0x0F [(1, r.code), (2, b2n z), (5, 0), (13, s), (21, d)]
  | .fmul d s r z => halfWord 0x10 [(1, r.code), (2, b2n z), (5, 0), (13, s), (21, d)]
  | .fmin d s => halfWord 0x11 [(5, 0), (13, s), (21, d)]
  | .fmax d s => halfWord 0x12 [(5, 0), (13, s), (21, d)]
  | .retag d s t => halfWord 0x13 [(3, t.code), (5, 0), (13, s), (21, d)]

/-- The fields of an F3, FI or FE word, of which `l` lists those below the opcode (R28, R31). -/
def quatinWord (h : Hdr) (space op : Nat) (l : List (Nat × Nat)) : List (Nat × Nat) :=
  l ++ [(52, op), (55, h.pred), (56, b2n h.neg), (60, h.stall), (62, space), (63, b2n h.last)]

/-- The fields of a Creven word, of which `l` lists those below the opcode (R375). -/
def crevenWord (op : Nat) (l : List (Nat × Nat)) : List (Nat × Nat) := l ++ [(31, op)]

/-! The fields of an instruction's word, unused ones too, from bit 0 up: each as its top bit and its value. -/

/-- Of an F3 word (R68). -/
def Instr.f3Fields : Instr → Option (List (Nat × Nat))
  | .brx h a => some (quatinWord h 0 0x001 [(23, 0), (33, a.code), (43, 0)])
  | .callx h d a => some (quatinWord h 0 0x002 [(23, 0), (33, a.code), (43, d.code)])
  | .ret h a => some (quatinWord h 0 0x003 [(23, 0), (33, a.code), (43, 0)])
  | .exit h => some (quatinWord h 0 0x004 [(43, 0)])
  | .yield h => some (quatinWord h 0 0x005 [(43, 0)])
  | .reorder h a b c desc =>
    some (quatinWord h 0 0x006 [(0, b2n desc), (3, 0), (13, c.code), (23, b.code), (33, a.code), (43, 0)])
  | .mov h d a w => some (quatinWord h 0 0x010 [(4, 0), (6, w.code), (23, 0), (33, a.code), (43, d.code)])
  | .sel h d a b p neg => some (quatinWord h 0 0x011 [(9, 0), (10, b2n neg), (13, p), (23, b.code), (33, a.code), (43, d.code)])
  | .imin h d a b e u =>
    some (quatinWord h 0 0x012 [(4, 0), (5, b2n u), (7, e.code), (13, 0), (23, b.code), (33, a.code), (43, d.code)])
  | .imax h d a b e u =>
    some (quatinWord h 0 0x013 [(4, 0), (5, b2n u), (7, e.code), (13, 0), (23, b.code), (33, a.code), (43, d.code)])
  | .iabs h d a e => some (quatinWord h 0 0x014 [(5, 0), (7, e.code), (23, 0), (33, a.code), (43, d.code)])
  | .ineg h d a e => some (quatinWord h 0 0x015 [(5, 0), (7, e.code), (23, 0), (33, a.code), (43, d.code)])
  | .iadd h d a b e u s =>
    some (quatinWord h 0 0x020 [(3, 0), (4, b2n s), (5, b2n u), (7, e.code), (13, 0), (23, b.code), (33, a.code), (43, d.code)])
  | .isub h d a b e u s =>
    some (quatinWord h 0 0x021 [(3, 0), (4, b2n s), (5, b2n u), (7, e.code), (13, 0), (23, b.code), (33, a.code), (43, d.code)])
  | .imul h d a b => some (quatinWord h 0 0x022 [(13, 0), (23, b.code), (33, a.code), (43, d.code)])
  | .imulh h d a b u => some (quatinWord h 0 0x023 [(4, 0), (5, b2n u), (13, 0), (23, b.code), (33, a.code), (43, d.code)])
  | .imad h d a b c => some (quatinWord h 0 0x024 [(3, 0), (13, c.code), (23, b.code), (33, a.code), (43, d.code)])
  | .imadw h d a b c u => some (quatinWord h 0 0x025 [(0, b2n u), (3, 0), (13, c.code), (23, b.code), (33, a.code), (43, d.code)])
  | .iadd64 h d a b u s =>
    some (quatinWord h 0 0x026 [(3, 0), (4, b2n s), (5, b2n u), (13, 0), (23, b.code), (33, a.code), (43, d.code)])
  | .and h d a b => some (quatinWord h 0 0x028 [(13, 0), (23, b.code), (33, a.code), (43, d.code)])
  | .or h d a b => some (quatinWord h 0 0x029 [(13, 0), (23, b.code), (33, a.code), (43, d.code)])
  | .xor h d a b => some (quatinWord h 0 0x02A [(13, 0), (23, b.code), (33, a.code), (43, d.code)])
  | .andn h d a b => some (quatinWord h 0 0x02B [(13, 0), (23, b.code), (33, a.code), (43, d.code)])
  | .not h d a => some (quatinWord h 0 0x02C [(23, 0), (33, a.code), (43, d.code)])
  | .shl h d a b => some (quatinWord h 0 0x030 [(13, 0), (23, b.code), (33, a.code), (43, d.code)])
  | .shr h d a b => some (quatinWord h 0 0x031 [(13, 0), (23, b.code), (33, a.code), (43, d.code)])
  | .sar h d a b => some (quatinWord h 0 0x032 [(13, 0), (23, b.code), (33, a.code), (43, d.code)])
  | .rotl h d a b => some (quatinWord h 0 0x033 [(13, 0), (23, b.code), (33, a.code), (43, d.code)])
  | .bfx h d a b s => some (quatinWord h 0 0x034 [(4, 0), (5, b2n s), (13, 0), (23, b.code), (33, a.code), (43, d.code)])
  | .bfi h d a b c => some (quatinWord h 0 0x035 [(3, 0), (13, c.code), (23, b.code), (33, a.code), (43, d.code)])
  | .popc h d a => some (quatinWord h 0 0x036 [(23, 0), (33, a.code), (43, d.code)])
  | .clz h d a => some (quatinWord h 0 0x037 [(23, 0), (33, a.code), (43, d.code)])
  | .brev h d a => some (quatinWord h 0 0x038 [(23, 0), (33, a.code), (43, d.code)])
  | .icmp h pd a b u c =>
    some (quatinWord h 0 0x040 [(4, 0), (7, c.code), (8, b2n u), (11, pd), (13, 0), (23, b.code), (33, a.code), (43, 0)])
  | .pand h pd p q => some (quatinWord h 0 0x041 [(4, 0), (7, q), (10, p), (13, pd), (43, 0)])
  | .por h pd p q => some (quatinWord h 0 0x042 [(4, 0), (7, q), (10, p), (13, pd), (43, 0)])
  | .pxor h pd p q => some (quatinWord h 0 0x043 [(4, 0), (7, q), (10, p), (13, pd), (43, 0)])
  | .pnot h pd p => some (quatinWord h 0 0x044 [(7, 0), (10, p), (13, pd), (43, 0)])
  | .vote h d p m => some (quatinWord h 0 0x048 [(4, 0), (6, m.code), (10, 0), (13, p), (33, 0), (43, d.code)])
  | .shfl h d a b seg m =>
    some (quatinWord h 0 0x049 [(4, 0), (6, m.code), (9, seg), (13, 0), (23, b.code), (33, a.code), (43, d.code)])
  | .bcast h d a b => some (quatinWord h 0 0x04A [(13, 0), (23, b.code), (33, a.code), (43, d.code)])
  | .lea h d a b u sh =>
    some (quatinWord h 0 0x04B [(4, 0), (7, sh), (8, b2n u), (13, 0), (23, b.code), (33, a.code), (43, d.code)])
  | .rdspec h d r => some (quatinWord h 0 0x050 [(7, 0), (13, r.code), (33, 0), (43, d.code)])
  | .wrspec h r a => some (quatinWord h 0 0x051 [(7, 0), (13, r.code), (23, 0), (33, a.code), (43, 0)])
  | .fadd h d a b r z s =>
    some (quatinWord h 0 0x080 [(2, r.code), (3, b2n z), (4, b2n s), (13, 0), (23, b.code), (33, a.code), (43, d.code)])
  | .fsub h d a b r z s =>
    some (quatinWord h 0 0x081 [(2, r.code), (3, b2n z), (4, b2n s), (13, 0), (23, b.code), (33, a.code), (43, d.code)])
  | .fmul h d a b r z s =>
    some (quatinWord h 0 0x082 [(2, r.code), (3, b2n z), (4, b2n s), (13, 0), (23, b.code), (33, a.code), (43, d.code)])
  | .ffma h d a b c r z =>
    some (quatinWord h 0 0x083 [(2, r.code), (3, b2n z), (13, c.code), (23, b.code), (33, a.code), (43, d.code)])
  | .fmin h d a b f z =>
    some (quatinWord h 0 0x084 [(2, 0), (3, b2n z), (4, 0), (6, f.code), (13, 0), (23, b.code), (33, a.code), (43, d.code)])
  | .fmax h d a b f z =>
    some (quatinWord h 0 0x085 [(2, 0), (3, b2n z), (4, 0), (6, f.code), (13, 0), (23, b.code), (33, a.code), (43, d.code)])
  | .fcmp h pd a b f c z =>
    some (quatinWord h 0 0x086 [(2, 0), (3, b2n z), (4, 0), (8, c.code), (11, pd), (12, b2n f), (13, 0), (23, b.code), (33,
      a.code), (43, 0)])
  | .frcp h d a r z => some (quatinWord h 0 0x088 [(2, r.code), (3, b2n z), (23, 0), (33, a.code), (43, d.code)])
  | .frsq h d a z => some (quatinWord h 0 0x089 [(2, 0), (3, b2n z), (23, 0), (33, a.code), (43, d.code)])
  | .fsqrt h d a r z => some (quatinWord h 0 0x08A [(2, r.code), (3, b2n z), (23, 0), (33, a.code), (43, d.code)])
  | .fexp2 h d a z => some (quatinWord h 0 0x08B [(2, 0), (3, b2n z), (23, 0), (33, a.code), (43, d.code)])
  | .flog2 h d a z => some (quatinWord h 0 0x08C [(2, 0), (3, b2n z), (23, 0), (33, a.code), (43, d.code)])
  | .fsin h d a z => some (quatinWord h 0 0x08D [(2, 0), (3, b2n z), (23, 0), (33, a.code), (43, d.code)])
  | .fcos h d a z => some (quatinWord h 0 0x08E [(2, 0), (3, b2n z), (23, 0), (33, a.code), (43, d.code)])
  | .hadd2 h d a b r z s =>
    some (quatinWord h 0 0x090 [(2, r.code), (3, b2n z), (4, b2n s), (13, 0), (23, b.code), (33, a.code), (43, d.code)])
  | .hmul2 h d a b r z s =>
    some (quatinWord h 0 0x091 [(2, r.code), (3, b2n z), (4, b2n s), (13, 0), (23, b.code), (33, a.code), (43, d.code)])
  | .hfma2 h d a b c r z =>
    some (quatinWord h 0 0x092 [(2, r.code), (3, b2n z), (13, c.code), (23, b.code), (33, a.code), (43, d.code)])
  | .dadd h d a b r z => some (quatinWord h 0 0x098 [(2, r.code), (3, b2n z), (13, 0), (23, b.code), (33, a.code), (43, d.code)])
  | .dmul h d a b r z => some (quatinWord h 0 0x099 [(2, r.code), (3, b2n z), (13, 0), (23, b.code), (33, a.code), (43, d.code)])
  | .dfma h d a b c r z =>
    some (quatinWord h 0 0x09A [(2, r.code), (3, b2n z), (13, c.code), (23, b.code), (33, a.code), (43, d.code)])
  | .cvt h d a df sf u r z s =>
    some (quatinWord h 0 0x0A0 [(2, r.code), (3, b2n z), (4, b2n s), (8, sf.code), (12, df.code), (13, b2n u), (23, 0), (33,
      a.code), (43, d.code)])
  | .cvts h d a df sf u z s =>
    some (quatinWord h 0 0x0A1 [(2, 4), (3, b2n z), (4, b2n s), (8, sf.code), (12, df.code), (13, b2n u), (23, 0), (33, a.code),
      (43, d.code)])
  | .pack h d a b m => some (quatinWord h 0 0x0A2 [(4, 0), (6, m.code), (13, 0), (23, b.code), (33, a.code), (43, d.code)])
  | .unpack h d a m => some (quatinWord h 0 0x0A3 [(4, 0), (6, m.code), (23, 0), (33, a.code), (43, d.code)])
  | .retag h d a t => some (quatinWord h 0 0x0A4 [(4, 0), (8, t.code), (23, 0), (33, a.code), (43, d.code)])
  | .scale h d a b m f r z =>
    some (quatinWord h 0 0x0A5 [(2, r.code), (3, b2n z), (4, 0), (6, f.code), (8, m.code), (13, 0), (23, b.code), (33, a.code),
      (43, d.code)])
  | .blkscale h d a t => some (quatinWord h 0 0x0A6 [(4, 0), (6, t.code), (23, 0), (33, a.code), (43, d.code)])
  | .quant h d a b m => some (quatinWord h 0 0x0A7 [(4, 0), (5, b2n m), (13, 0), (23, b.code), (33, a.code), (43, d.code)])
  | .phase h p => some (quatinWord h 0 0x0C0 [(4, 0), (6, p.code), (43, 0)])
  | .rdrack h d => some (quatinWord h 0 0x0C1 [(33, 0), (43, d.code)])
  | .shmap h d a => some (quatinWord h 0 0x0D0 [(23, 0), (33, a.code), (43, d.code)])
  | .syncwInit h a b s off =>
    some (quatinWord h 0 0x0D1 [(4, 0), (12, off.toNat), (13, b2n s), (23, b.code), (33, a.code), (43, 0)])
  | .syncwAdd h a b s off =>
    some (quatinWord h 0 0x0D2 [(4, 0), (12, off.toNat), (13, b2n s), (23, b.code), (33, a.code), (43, 0)])
  | .syncwWait h a b s off =>
    some (quatinWord h 0 0x0D3 [(4, 0), (12, off.toNat), (13, b2n s), (23, b.code), (33, a.code), (43, 0)])
  | .mclaim h d (some n) => some (quatinWord h 0 0x0E0 [(5, 0), (11, n), (12, 0), (13, 1), (33, 0), (43, d.code)])
  | .mclaim h d none => some (quatinWord h 0 0x0E0 [(33, 0), (43, d.code)])
  | .mrel h a => some (quatinWord h 0 0x0E1 [(23, 0), (33, a.code), (43, 0)])
  | .tclaim h d (some n) => some (quatinWord h 0 0x0E2 [(5, 0), (9, n), (12, 0), (13, 1), (33, 0), (43, d.code)])
  | .tclaim h d none => some (quatinWord h 0 0x0E2 [(33, 0), (43, d.code)])
  | .trel h a => some (quatinWord h 0 0x0E3 [(23, 0), (33, a.code), (43, 0)])
  | .mzero h t mask int => some (quatinWord h 0 0x0E4 [(4, 0), (5, b2n int), (9, mask.toNat), (13, t), (43, 0)])
  | .trd h d t a => some (quatinWord h 0 0x0E5 [(9, 0), (13, t), (23, 0), (33, a.code), (43, d.code)])
  | .twr h t a b => some (quatinWord h 0 0x0E6 [(9, 0), (13, t), (23, b.code), (33, a.code), (43, 0)])
  | .mstat h d => some (quatinWord h 0 0x0E7 [(33, 0), (43, d.code)])
  | .resmode h m => some (quatinWord h 0 0x0E8 [(4, 0), (6, m.code), (43, 0)])
  | .probe h d a walk => some (quatinWord h 0 0x0F0 [(4, 0), (5, b2n walk), (23, 0), (33, a.code), (43, d.code)])
  | .raisegen h a => some (quatinWord h 0 0x0F1 [(23, 0), (33, a.code), (43, 0)])
  | .fence h => some (quatinWord h 0 0x100 [(43, 0)])
  | .fenceSys h pd => some (quatinWord h 0 0x101 [(8, 0), (11, pd), (43, 0)])
  | .leave h a => some (quatinWord h 0 0x110 [(23, 0), (33, a.code), (43, 0)])
  | .gsync h a => some (quatinWord h 0 0x111 [(23, 0), (33, a.code), (43, 0)])
  | .pinit h a b => some (quatinWord h 0 0x112 [(13, 0), (23, b.code), (33, a.code), (43, 0)])
  | .pclaim h d a => some (quatinWord h 0 0x113 [(23, 0), (33, a.code), (43, d.code)])
  | .pfill h a b => some (quatinWord h 0 0x114 [(13, 0), (23, b.code), (33, a.code), (43, 0)])
  | .ptake h d a => some (quatinWord h 0 0x115 [(23, 0), (33, a.code), (43, d.code)])
  | .pfree h a b => some (quatinWord h 0 0x116 [(13, 0), (23, b.code), (33, a.code), (43, 0)])
  | .pquery h d a => some (quatinWord h 0 0x117 [(23, 0), (33, a.code), (43, d.code)])
  | .waitc h n c pr => some (quatinWord h 0 0x120 [(1, 0), (4, pr), (6, c.code), (7, 0), (13, n), (43, 0)])
  | .trap h imm => some (quatinWord h 0 0x1F0 [(13, imm.toNat), (43, 0)])
  | .brkpt h => some (quatinWord h 0 0x1F1 [(43, 0)])
  | .eret h nx => some (quatinWord h 0 0x1F2 [(4, 0), (5, b2n nx), (43, 0)])
  | _ => none

/-- Of an FI word (R69). -/
def Instr.fiFields : Instr → Option (List (Nat × Nat))
  | .bra h imm => some (quatinWord h 1 0x001 [(23, imm.toNat), (43, 0)])
  | .call h d imm => some (quatinWord h 1 0x002 [(23, imm.toNat), (33, 0), (43, d.code)])
  | .nap h imm => some (quatinWord h 1 0x003 [(23, imm.toNat), (43, 0)])
  | .movi h d imm => some (quatinWord h 1 0x010 [(23, imm.toNat), (33, 0), (43, d.code)])
  | .movhi h d a imm => some (quatinWord h 1 0x011 [(23, imm.toNat), (33, a.code), (43, d.code)])
  | .iminImm h d a imm => some (quatinWord h 1 0x012 [(23, imm.toNat), (33, a.code), (43, d.code)])
  | .imaxImm h d a imm => some (quatinWord h 1 0x013 [(23, imm.toNat), (33, a.code), (43, d.code)])
  | .iaddImm h d a imm => some (quatinWord h 1 0x020 [(23, imm.toNat), (33, a.code), (43, d.code)])
  | .imulImm h d a imm => some (quatinWord h 1 0x022 [(23, imm.toNat), (33, a.code), (43, d.code)])
  | .andImm h d a imm => some (quatinWord h 1 0x028 [(23, imm.toNat), (33, a.code), (43, d.code)])
  | .orImm h d a imm => some (quatinWord h 1 0x029 [(23, imm.toNat), (33, a.code), (43, d.code)])
  | .xorImm h d a imm => some (quatinWord h 1 0x02A [(23, imm.toNat), (33, a.code), (43, d.code)])
  | .shlImm h d a imm => some (quatinWord h 1 0x030 [(23, imm.toNat), (33, a.code), (43, d.code)])
  | .shrImm h d a imm => some (quatinWord h 1 0x031 [(23, imm.toNat), (33, a.code), (43, d.code)])
  | .sarImm h d a imm => some (quatinWord h 1 0x032 [(23, imm.toNat), (33, a.code), (43, d.code)])
  | .rotlImm h d a imm => some (quatinWord h 1 0x033 [(23, imm.toNat), (33, a.code), (43, d.code)])
  | .bfxImm h d a imm => some (quatinWord h 1 0x034 [(23, imm.toNat), (33, a.code), (43, d.code)])
  | .faddImm h d a imm => some (quatinWord h 1 0x080 [(23, imm.toNat), (33, a.code), (43, d.code)])
  | .fmulImm h d a imm => some (quatinWord h 1 0x082 [(23, imm.toNat), (33, a.code), (43, d.code)])
  | _ => none

/-- Of an FE word (R71). -/
def Instr.feFields : Instr → Option (List (Nat × Nat))
  | .ld h d a hint c w t pr off =>
    some (quatinWord h 3 0x100 [(3, off.toNat), (6, pr), (10, t.code), (11, 0), (14, w.code), (17, c.code), (19, hint.code), (29,
      a.code), (39, d.code), (43, 0)])
  | .st h d a hint c w off =>
    some (quatinWord h 3 0x101 [(10, off.toNat), (11, 0), (14, w.code), (17, c.code), (19, hint.code), (29, a.code), (39,
      d.code), (43, 0)])
  | .ldw h d a hint c w t pr off =>
    some (quatinWord h 3 0x102 [(3, off.toNat), (6, pr), (10, t.code), (11, 0), (14, w.code), (17, c.code), (19, hint.code), (29,
      a.code), (39, d.code), (43, 0)])
  | .pref h a hint lvl off =>
    some (quatinWord h 3 0x103 [(6, off.toNat), (8, 0), (10, lvl.code), (17, 0), (19, hint.code), (29, a.code), (39, 0), (43, 0)])
  | .discard h b a => some (quatinWord h 3 0x104 [(19, 0), (29, a.code), (39, b.code), (43, 0)])
  | .pin h b a pd => some (quatinWord h 3 0x105 [(3, 0), (6, pd), (19, 0), (29, a.code), (39, b.code), (43, 0)])
  | .unpin h b a => some (quatinWord h 3 0x106 [(19, 0), (29, a.code), (39, b.code), (43, 0)])
  | .lds h d a w t off =>
    some (quatinWord h 3 0x108 [(6, off.toNat), (10, t.code), (11, 0), (14, w.code), (19, 0), (29, a.code), (39, d.code), (43,
      0)])
  | .sts h d a w off =>
    some (quatinWord h 3 0x109 [(6, off.toNat), (11, 0), (14, w.code), (19, 0), (29, a.code), (39, d.code), (43, 0)])
  | .ldst h d a t off =>
    some (quatinWord h 3 0x10A [(6, off.toNat), (10, t.code), (11, 0), (14, 3), (19, 0), (29, a.code), (39, d.code), (43, 0)])
  | .give h a b c pd => some (quatinWord h 3 0x10B [(6, 0), (9, pd), (19, c.code), (29, b.code), (39, a.code), (43, 0)])
  | .atom h v a c w ra op u =>
    some (quatinWord h 3 0x110 [(6, 0), (7, b2n u), (10, op.code), (11, b2n ra), (14, w.code), (17, c.code), (19, 0), (29,
      a.code), (39, v.code), (43, 0)])
  | .atomcas h v a n c w =>
    some (quatinWord h 3 0x111 [(0, 0), (10, n.code), (11, 0), (14, w.code), (17, c.code), (19, 0), (29, a.code), (39, v.code),
      (43, 0)])
  | .red h v a c w ra op u =>
    some (quatinWord h 3 0x112 [(6, 0), (7, b2n u), (10, op.code), (11, b2n ra), (14, w.code), (17, c.code), (19, 0), (29,
      a.code), (39, v.code), (43, 0)])
  | .join h d a c r =>
    some (quatinWord h 3 0x113 [(5, 0), (6, b2n r.vector), (7, b2n r.matrix), (8, b2n r.copy), (10, c.code), (19, 0), (29,
      a.code), (39, d.code), (43, 0)])
  | .pagein h a b off => some (quatinWord h 3 0x118 [(19, off.toNat), (29, b.code), (39, a.code), (43, 0)])
  | .cpy h g a sd => some (quatinWord h 3 0x120 [(11, 0), (12, b2n sd), (29, 0), (39, a.code), (43, g)])
  | .cpyg h g a b si sd =>
    some (quatinWord h 3 0x121 [(11, 0), (12, b2n sd), (13, b2n si), (19, 0), (29, b.code), (39, a.code), (43, g)])
  | .cpys h g a b si sd ra ad ty =>
    some (quatinWord h 3 0x122 [(6, 0), (9, ty.code), (10, b2n ad), (11, b2n ra), (12, b2n sd), (13, b2n si), (19, 0), (29,
      b.code), (39, a.code), (43, g)])
  | .coll h g a b op => some (quatinWord h 3 0x123 [(15, 0), (19, op.code), (29, b.code), (39, a.code), (43, g)])
  | .mma h g t ma mb fa fb sp mask pf pen =>
    some (quatinWord h 3 0x130 [(6, 0), (11, pen), (12, b2n pf), (16, mask.toNat), (17, b2n sp), (20, fb.code), (23, fa.code),
      (29, mb), (35, ma), (39, t), (43, g)])
  | .launch h a pd => some (quatinWord h 3 0x140 [(6, 0), (9, pd), (29, 0), (39, a.code), (43, 0)])
  | _ => none

/-- Of an FP word (R72). -/
def Instr.fpFields : Instr → Option (List (Nat × Nat))
  | .pairedWord h x y => some [(28, encHalf y), (57, encHalf x), (60, h.stall), (62, 2), (63, b2n h.last)]
  | _ => none

/-- Of a Creven word (R376). -/
def Instr.crevenFields : Instr → Option (List (Nat × Nat))
  | .add d a b => some (crevenWord 0x01 [(3, 0), (10, 0), (15, b), (20, a), (25, d)])
  | .sub d a b => some (crevenWord 0x01 [(3, 1), (10, 0), (15, b), (20, a), (25, d)])
  | .mul d a b => some (crevenWord 0x01 [(3, 2), (10, 0), (15, b), (20, a), (25, d)])
  | .crevenAnd d a b => some (crevenWord 0x01 [(3, 3), (10, 0), (15, b), (20, a), (25, d)])
  | .crevenOr d a b => some (crevenWord 0x01 [(3, 4), (10, 0), (15, b), (20, a), (25, d)])
  | .crevenXor d a b => some (crevenWord 0x01 [(3, 5), (10, 0), (15, b), (20, a), (25, d)])
  | .crevenShl d a b => some (crevenWord 0x01 [(3, 6), (10, 0), (15, b), (20, a), (25, d)])
  | .crevenShr d a b => some (crevenWord 0x01 [(3, 7), (10, 0), (15, b), (20, a), (25, d)])
  | .crevenSar d a b => some (crevenWord 0x01 [(3, 8), (10, 0), (15, b), (20, a), (25, d)])
  | .slt d a b => some (crevenWord 0x01 [(3, 9), (10, 0), (15, b), (20, a), (25, d)])
  | .sltu d a b => some (crevenWord 0x01 [(3, 10), (10, 0), (15, b), (20, a), (25, d)])
  | .addi d a imm => some (crevenWord 0x02 [(15, imm.toNat), (20, a), (25, d)])
  | .shli d a n => some (crevenWord 0x03 [(5, n), (7, 0), (15, 0), (20, a), (25, d)])
  | .shri d a n => some (crevenWord 0x03 [(5, n), (7, 1), (15, 0), (20, a), (25, d)])
  | .sari d a n => some (crevenWord 0x03 [(5, n), (7, 2), (15, 0), (20, a), (25, d)])
  | .ori d a imm => some (crevenWord 0x04 [(15, imm.toNat), (20, a), (25, d)])
  | .lui d imm => some (crevenWord 0x05 [(15, imm.toNat), (20, 0), (25, d)])
  | .ldg d a w c off => some (crevenWord 0x06 [(11, off.toNat), (13, ldClsCode c), (15, w.code), (20, a), (25, d)])
  | .stg d a w c off => some (crevenWord 0x07 [(11, off.toNat), (13, stClsCode c), (15, w.code), (20, a), (25, d)])
  | .ldl d a w off => some (crevenWord 0x08 [(11, off.toNat), (13, 0), (15, w.code), (20, a), (25, d)])
  | .stl d a w off => some (crevenWord 0x09 [(11, off.toNat), (13, 0), (15, w.code), (20, a), (25, d)])
  | .amo d a b op wide c u =>
    some (crevenWord 0x0A [(2, op.code), (3, b2n wide), (5, amoClsCode c), (6, b2n u), (10, 0), (15, b), (20, a), (25, d)])
  | .swadd a b => some (crevenWord 0x0B [(10, 0), (15, b), (20, a), (25, 0)])
  | .swwait a b => some (crevenWord 0x0C [(10, 0), (15, b), (20, a), (25, 0)])
  | .crevenFenceSys d => some (crevenWord 0x0D [(0, 1), (20, 0), (25, d)])
  | .crevenFence => some (crevenWord 0x0D [(0, 0), (25, 0)])
  | .beq a b off => some (crevenWord 0x0E [(15, off.toNat), (20, b), (25, a)])
  | .bne a b off => some (crevenWord 0x0F [(15, off.toNat), (20, b), (25, a)])
  | .blt a b off => some (crevenWord 0x10 [(15, off.toNat), (20, b), (25, a)])
  | .bge a b off => some (crevenWord 0x11 [(15, off.toNat), (20, b), (25, a)])
  | .jal d off => some (crevenWord 0x12 [(20, off.toNat), (25, d)])
  | .jalr d a => some (crevenWord 0x13 [(15, 0), (20, a), (25, d)])
  | .halt => some (crevenWord 0x14 [(25, 0)])
  | .rds d code => some (crevenWord 0x15 [(7, code.toNat), (20, 0), (25, d)])
  | .wrs a code => some (crevenWord 0x16 [(7, code.toNat), (15, 0), (20, a), (25, 0)])
  | .svr d code => some (crevenWord 0x17 [(11, code.toNat), (20, 0), (25, d)])
  | .svw a code => some (crevenWord 0x18 [(11, code.toNat), (15, 0), (20, a), (25, 0)])
  | .psend d a b c => some (crevenWord 0x19 [(5, 0), (10, c), (15, b), (20, a), (25, d)])
  | .precv d a b => some (crevenWord 0x1A [(10, 0), (15, b), (20, a), (25, d)])
  | .vld d a loft ord ty k off =>
    some (crevenWord 0x20 [(7, off.toNat), (10, k), (13, ty.code), (14, b2n ord), (15, b2n loft), (20, a), (25, d)])
  | .vst d a loft ord ty k off =>
    some (crevenWord 0x21 [(7, off.toNat), (10, k), (13, ty.code), (14, b2n ord), (15, b2n loft), (20, a), (25, d)])
  | .vgath d a b k ty loft => some (crevenWord 0x22 [(3, 0), (4, b2n loft), (7, ty.code), (10, k), (15, b), (20, a), (25, d)])
  | .vscat d a b k ty loft ad =>
    some (crevenWord 0x23 [(1, 0), (2, b2n ad), (3, 0), (4, b2n loft), (7, ty.code), (10, k), (15, b), (20, a), (25, d)])
  | .vadd d a b k ty => some (crevenWord 0x24 [(4, 0), (7, ty.code), (10, k), (15, b), (20, a), (25, d)])
  | .vsub d a b k ty => some (crevenWord 0x24 [(4, 1), (7, ty.code), (10, k), (15, b), (20, a), (25, d)])
  | .vmul d a b k ty => some (crevenWord 0x24 [(4, 2), (7, ty.code), (10, k), (15, b), (20, a), (25, d)])
  | .vmin d a b k ty => some (crevenWord 0x24 [(4, 3), (7, ty.code), (10, k), (15, b), (20, a), (25, d)])
  | .vmax d a b k ty => some (crevenWord 0x24 [(4, 4), (7, ty.code), (10, k), (15, b), (20, a), (25, d)])
  | .vfma d a b k ty => some (crevenWord 0x24 [(4, 5), (7, ty.code), (10, k), (15, b), (20, a), (25, d)])
  | .vand d a b k ty => some (crevenWord 0x24 [(4, 6), (7, ty.code), (10, k), (15, b), (20, a), (25, d)])
  | .vor d a b k ty => some (crevenWord 0x24 [(4, 7), (7, ty.code), (10, k), (15, b), (20, a), (25, d)])
  | .vxor d a b k ty => some (crevenWord 0x24 [(4, 8), (7, ty.code), (10, k), (15, b), (20, a), (25, d)])
  | .vcmp d a b k ty c => some (crevenWord 0x25 [(3, c.code), (4, 0), (7, ty.code), (10, k), (15, b), (20, a), (23, d), (25, 0)])
  | .vcvt d a k dt sty hi =>
    some (crevenWord 0x26 [(4, 0), (7, dt.code), (10, k), (13, sty.code), (14, b2n hi), (15, 0), (20, a), (25, d)])
  | .vsplat d a k ty => some (crevenWord 0x27 [(4, 0), (7, ty.code), (10, k), (15, 0), (20, a), (25, d)])
  | .vextr d a idx ty => some (crevenWord 0x28 [(4, 0), (7, ty.code), (10, 0), (15, idx), (20, a), (25, d)])
  | .kget d a => some (crevenWord 0x29 [(0, 1), (15, 0), (18, a), (20, 0), (25, d)])
  | .kset d a => some (crevenWord 0x29 [(0, 0), (15, 0), (20, a), (23, d), (25, 0)])
  | _ => none

/-- Of a Quatin word. -/
def Instr.quatinFields (i : Instr) : Option (List (Nat × Nat)) := i.f3Fields <|> i.fiFields <|> i.feFields <|> i.fpFields

/-! ### What the decoders read from a field that holds a value -/

theorem fin_of_field {n m : Nat} [NeZero n] (v : Fin n) (h : n ≤ m) : Fin.ofNat n (v.val % m) = v := by
  rw [Nat.mod_eq_of_lt (v.isLt.trans_le h)]
  exact Fin.ofNat_val_eq_self v

theorem bitVec_of_field {n m : Nat} (v : BitVec n) (h : 2 ^ n ≤ m) : BitVec.ofNat n (v.toNat % m) = v := by
  rw [Nat.mod_eq_of_lt (v.isLt.trans_le h), BitVec.ofNat_toNat, BitVec.setWidth_eq]

theorem bit_of_field (b : Bool) : (b2n b % 2 == 1) = b := by cases b <;> rfl

theorem src_of_field (a : Src) : decSrc (a.code % 1024) = .ok a := by rw [Nat.mod_eq_of_lt a.code_lt, decSrc_code]

theorem dst_of_field (d : Dst) : decDst (d.code % 1024) = .ok d := by rw [Nat.mod_eq_of_lt d.code_lt, decDst_code]

theorem code_of_field :
    (∀ e : Elem, decElem (e.code % 4) = .ok e) ∧ (∀ e : ICond, decICond (e.code % 8) = .ok e) ∧
    (∀ e : ICond, decICond (e.code % 16) = .ok e) ∧ (∀ e : FCond, decFCond (e.code % 16) = .ok e) ∧
    (∀ e : Rnd, decRnd (e.code % 8) = .ok e) ∧ (∀ e : Rnd, decRnd (e.code % 4) = .ok e) ∧
    (∀ e : VFmt, decVFmt (e.code % 4) = .ok e) ∧ (∀ e : CFmt, decCFmt (e.code % 16) = .ok e) ∧
    (∀ e : Tag, decTag (e.code % 16) = .ok e) ∧ (∀ e : Width, decWidth (e.code % 8) = .ok e) ∧
    (∀ e : Cls, decCls (e.code % 8) = .ok e) ∧ (∀ e : Hint, decHint (e.code % 4) = .ok e) ∧
    (∀ e : MFmt, decMFmt (e.code % 8) = .ok e) ∧ (∀ e : AtomOp, decAtom (e.code % 8) = .ok e) ∧
    (∀ e : AddTy, decAddTy (e.code % 8) = .ok e) ∧ (∀ e : CollOp, decColl (e.code % 16) = .ok e) ∧
    (∀ e : GrpCls, decGrp (e.code % 4) = .ok e) ∧ (∀ e : EngCls, decEng (e.code % 4) = .ok e) ∧
    (∀ e : SpecReg, decSpec (e.code % 64) = .ok e) ∧ (∀ e : MovW, decMovW (e.code % 4) = .ok e) ∧
    (∀ e : PackMode, decPack (e.code % 4) = .ok e) ∧ (∀ e : UnpackMode, decUnpack (e.code % 4) = .ok e) ∧
    (∀ e : ScaleMode, decScale (e.code % 4) = .ok e) ∧ (∀ e : BlkTarget, decBlk (e.code % 4) = .ok e) ∧
    (∀ e : PhaseSel, decPhase (e.code % 4) = .ok e) ∧ (∀ e : ResMode, decRes (e.code % 4) = .ok e) ∧
    (∀ e : PrefLvl, decLvl (e.code % 4) = .ok e) ∧ (∀ e : VoteMode, decVote (e.code % 4) = e) ∧
    (∀ e : ShflMode, decShfl (e.code % 4) = e) ∧ (∀ e : CTy, decCTy (e.code % 8) = e) ∧
    (∀ e : CWidth, decCWidth (e.code % 4) = e) ∧ (∀ e : AmoOp, decAmoOp (e.code % 8) = e) := by
  and_intros
  all_goals
    intro e
    cases e <;> rfl

theorem ldCls_of_field (c : Cls) (h : c.forLoad = true) : decLdCls (ldClsCode c % 4) = .ok c :=
  match c, h with
  | .rlx, _ | .ord, _ | .acq, _ => rfl

theorem stCls_of_field (c : Cls) (h : c.forStore = true) : decStCls (stClsCode c % 4) = .ok c :=
  match c, h with
  | .rlx, _ | .ord, _ | .rel, _ => rfl

theorem amoCls_of_field (c : Cls) (h : c.forAtomic = true) : decAmoCls (amoClsCode c % 4) = c :=
  match c, h with
  | .rlx, _ | .acq, _ | .rel, _ | .ar, _ => rfl

theorem dec_bind {α β : Type} {v : α} {f : α → Dec β} : (Except.ok v >>= f) = f v := rfl

theorem dec_pure {α : Type} {v : α} : (pure v : Dec α) = .ok v := rfl

theorem unused_nil {x : Nat} : unused x [] = .ok () := rfl

theorem unused_cons {x hi lo : Nat} {l : List (Nat × Nat)} :
    unused x ((hi, lo) :: l) = if fld x hi lo = 0 then unused x l else .error .unusedBits := by
  by_cases h : fld x hi lo = 0
  · rw [if_pos h, unused, unused, List.all_cons, show (fld x (hi, lo).1 (hi, lo).2 == 0) = true from beq_iff_eq.mpr h,
      Bool.true_and]
  · rw [if_neg h, unused, List.all_cons, show (fld x (hi, lo).1 (hi, lo).2 == 0) = false from beq_eq_false_iff_ne.mpr h,
      Bool.false_and]
    rfl

theorem onlyRn_zero : onlyRn 0 = .ok () := rfl

theorem noGranule_eq {x : Nat} : noGranule x = if fld x 43 40 = 0 then .ok () else .error .granule := rfl

/-- An arm of a decoder, once its opcode has picked it, in the shape in which the rules above apply to it. -/
theorem bind_shape {α β : Type} {r : Dec α} {f : α → Dec β} {y : Dec β} (h : (r >>= f) = y) : (r >>= f) = y := h

theorem ite_shape {α : Type} {c : Prop} [Decidable c] {r r' y : Dec α} (h : (if c then r else r') = y) :
    (if c then r else r') = y := h

theorem pure_shape {α : Type} {v : α} {y : Dec α} (h : (pure v : Dec α) = y) : (pure v : Dec α) = y := h

theorem holds_quatin {x space op : Nat} {h : Hdr} {l : List (Nat × Nat)} (hl : fieldsAscend 0 l 44)
    (hx : HoldsFields x 0 (quatinWord h space op l)) :
    HoldsFields x 0 l ∧ fld x 52 44 = op % 512 ∧ fld x 62 61 = space % 4 ∧ decHdr x = h := by
  obtain ⟨hl, hop, hp, hn, hst, hsp, hla, -⟩ := holds_append hl hx
  refine ⟨hl, hop, hsp, ?_⟩
  rw [decHdr, bitAt_eq, bitAt_eq, hp, hn, hst, hla]
  congr
  exacts [bit_of_field _, fin_of_field _ le_rfl, bit_of_field _, fin_of_field _ le_rfl]

theorem holds_half {y op : Nat} {l : List (Nat × Nat)} (hl : fieldsAscend 0 l 22) (hy : HoldsFields y 0 (halfWord op l)) :
    HoldsFields y 0 l ∧ fld y 28 22 = op % 128 := by
  obtain ⟨hl, hop, -⟩ := holds_append hl hy
  exact ⟨hl, hop⟩

theorem holds_creven {x op : Nat} {l : List (Nat × Nat)} (hl : fieldsAscend 0 l 26) (hx : HoldsFields x 0 (crevenWord op l)) :
    HoldsFields x 0 l ∧ fld x 31 26 = op % 64 := by
  obtain ⟨hl, hop, -⟩ := holds_append hl hx
  exact ⟨hl, hop⟩

theorem quatinFields_ascends {i : Instr} {l : List (Nat × Nat)} (h : i.quatinFields = some l) : fieldsAscend 0 l 64 := by
  cases i with
  | mclaim _ _ n | tclaim _ _ n => cases n <;> cases h <;> rfl
  | _ => cases h <;> rfl

theorem crevenFields_ascends {i : Instr} {l : List (Nat × Nat)} (h : i.crevenFields = some l) : fieldsAscend 0 l 32 := by
  cases i with
  | _ => cases h <;> rfl

theorem exists_quatinFields {i : Instr} {h : Hdr} (hh : Machine.hdrOf i = some h) : ∃ l, i.quatinFields = some l := by
  cases i with
  | mclaim _ _ n | tclaim _ _ n => cases n <;> exact ⟨_, rfl⟩
  | _ => cases hh <;> exact ⟨_, rfl⟩

theorem exists_crevenFields {i : Instr} {n : Nat} (hh : Machine.hdrOf i = none) (he : encode i = some n) :
    ∃ l, i.crevenFields = some l := by
  cases i with
  | _ => cases hh <;> cases he <;> exact ⟨_, rfl⟩

/-! ### A word that holds an instruction's fields decodes to it

The opcode picks an arm of the decoder, and in it the rules above turn each field back into its operand. -/

theorem decWord_of_f3Fields {x : Nat} {i : Instr} {l : List (Nat × Nat)} (hl : i.f3Fields = some l) (hx : HoldsFields x 0 l) :
    decWord x = .ok i := by
  cases i with
  | mclaim _ _ n | tclaim _ _ n =>
    cases n with
    | some n =>
      cases hl
      obtain ⟨hf, hop, hsp, hh⟩ := holds_quatin rfl hx
      unfold decWord
      rw [hsp]
      unfold decF3
      rw [hop, hh]
      apply ite_shape
      simp only [HoldsFields, Nat.reduceAdd, Nat.reduceSub, Nat.reducePow, Nat.reduceMod] at hf
      simp (disch := decide) only [f3d, hf, dst_of_field, fin_of_field, dec_bind, dec_pure, bitAt_eq, unused_cons, unused_nil,
        eq_self, BEq.rfl, if_true]
    | none =>
      cases hl
      obtain ⟨hf, hop, hsp, hh⟩ := holds_quatin rfl hx
      unfold decWord
      rw [hsp]
      unfold decF3
      rw [hop, hh]
      apply ite_shape
      simp only [HoldsFields, Nat.reduceAdd, Nat.reduceSub, Nat.reducePow, Nat.reduceMod] at hf
      have h13 : fld x 13 13 ≠ 1 := by
        have h0 := hf.1
        unfold fld at h0 ⊢
        omega
      simp only [f3d, hf, dst_of_field, dec_bind, dec_pure, bitAt_eq_true, h13, unused_cons, unused_nil, eq_self, if_true,
        if_false]
  | _ =>
    cases hl
    all_goals
      obtain ⟨hf, hop, hsp, hh⟩ := holds_quatin rfl hx
      unfold decWord
      rw [hsp]
      unfold decF3
      rw [hop, hh]
      apply bind_shape
      simp only [HoldsFields, Nat.reduceAdd, Nat.reduceSub, Nat.reducePow, Nat.reduceMod] at hf
      simp (disch := decide) only [f3d, f3a, f3b, f3c, hf, dst_of_field, src_of_field, code_of_field, bit_of_field,
        bitVec_of_field, fin_of_field, decPred, dec_bind, dec_pure, bitAt_eq, unused_cons, unused_nil, onlyRn_zero, eq_self,
        if_true]

theorem decWord_of_fiFields {x : Nat} {i : Instr} {l : List (Nat × Nat)} (hl : i.fiFields = some l) (hx : HoldsFields x 0 l) :
    decWord x = .ok i := by
  cases i with
  | _ =>
    cases hl
    all_goals
      obtain ⟨hf, hop, hsp, hh⟩ := holds_quatin rfl hx
      unfold decWord
      rw [hsp]
      unfold decFI
      rw [hop, hh]
      apply bind_shape
      simp only [HoldsFields, Nat.reduceAdd, Nat.reduceSub, Nat.reducePow, Nat.reduceMod] at hf
      simp (disch := decide) only [f3d, f3a, imm24, hf, dst_of_field, src_of_field, bitVec_of_field, dec_bind, dec_pure,
        unused_cons, unused_nil, eq_self, if_true]

theorem decWord_of_feFields {x : Nat} {i : Instr} {l : List (Nat × Nat)} (hl : i.feFields = some l) (hx : HoldsFields x 0 l) :
    decWord x = .ok i := by
  cases i with
  | mma _ g =>
    cases hl
    obtain ⟨hf, hop, hsp, hh⟩ := holds_quatin rfl hx
    unfold decWord
    rw [hsp]
    unfold decFE
    rw [hop, hh]
    apply ite_shape
    simp only [HoldsFields, Nat.reduceAdd, Nat.reduceSub, Nat.reducePow, Nat.reduceMod] at hf
    have hg : g.val % 16 ≤ 2 := (Nat.mod_le _ _).trans (Nat.le_of_lt_succ g.isLt)
    simp (disch := decide) only [hf, hg, code_of_field, bit_of_field, bitVec_of_field, fin_of_field, dec_bind, dec_pure,
      bitAt_eq, unused_cons, unused_nil, eq_self, if_true]
  | _ =>
    cases hl
    all_goals
      obtain ⟨hf, hop, hsp, hh⟩ := holds_quatin rfl hx
      unfold decWord
      rw [hsp]
      unfold decFE
      rw [hop, hh]
      apply bind_shape
      simp only [HoldsFields, Nat.reduceAdd, Nat.reduceSub, Nat.reducePow, Nat.reduceMod] at hf
      simp (disch := decide) only [fe1d, fe1, fe2, fe3, feHint, feCls, feWidth, hf, dst_of_field, src_of_field, code_of_field,
        bit_of_field, bitVec_of_field, fin_of_field, decPred, dec_bind, dec_pure, bitAt_eq, noGranule_eq, unused_cons,
        unused_nil, eq_self, if_true]

theorem half_layout_ascends (k : Half) : fieldsAscend 0 k.layout 29 := by cases k <;> rfl

theorem decHalf_of_layout {y : Nat} {k : Half} (hy : HoldsFields y 0 k.layout) : decHalf y = .ok k := by
  cases k with
  | _ =>
    obtain ⟨hf, hop⟩ := holds_half rfl hy
    unfold decHalf
    rw [hop]
    apply bind_shape
    simp only [HoldsFields, Nat.reduceAdd, Nat.reduceSub, Nat.reducePow, Nat.reduceMod] at hf
    simp (disch := decide) only [hf, code_of_field, bit_of_field, bitVec_of_field, fin_of_field, dec_bind, dec_pure, bitAt_eq,
      unused_cons, unused_nil, eq_self, if_true]

/-- Every half is the half that some number below 2^29 decodes to, and it is its encoding. -/
theorem decHalf_encHalf (k : Half) : encHalf k < 2 ^ 29 ∧ decHalf (encHalf k) = .ok k := by
  have hk := half_layout_ascends k
  have hlt : placeFields 0 k.layout < 2 ^ 29 := (place_lt hk).2
  have hd := decHalf_of_layout (holds_place hk)
  rw [encHalf_of_decHalf hlt hd]
  exact ⟨hlt, hd⟩

theorem decWord_of_fpFields {x : Nat} {i : Instr} {l : List (Nat × Nat)} (hl : i.fpFields = some l) (hx : HoldsFields x 0 l) :
    decWord x = .ok i := by
  cases i with
  | pairedWord h p q =>
    cases hl
    obtain ⟨hq, hp, hst, hsp, hla, -⟩ := hx
    obtain ⟨hpl, hpd⟩ := decHalf_encHalf p
    obtain ⟨hql, hqd⟩ := decHalf_encHalf q
    rw [Nat.mod_eq_of_lt hql] at hq
    rw [Nat.mod_eq_of_lt hpl] at hp
    unfold decWord
    rw [hsp]
    unfold decFP
    apply bind_shape
    rw [hp, hq, hpd, hqd, bitAt_eq, hla, hst]
    simp (disch := decide) only [Nat.reduceAdd, Nat.reduceSub, Nat.reducePow, bit_of_field, fin_of_field, dec_bind, dec_pure]
  | _ => cases hl

theorem decC_of_crevenFields {x : Nat} {i : Instr} {l : List (Nat × Nat)} (hw : i.wf = true) (hl : i.crevenFields = some l)
    (hx : HoldsFields x 0 l) : decC x = .ok i := by
  cases i with
  | ldg d a w c off =>
    cases hl
    obtain ⟨hf, hop⟩ := holds_creven rfl hx
    unfold decC
    rw [hop]
    apply bind_shape
    simp only [HoldsFields, Nat.reduceAdd, Nat.reduceSub, Nat.reducePow] at hf
    simp (disch := decide) only [cd, ca, hf, ldCls_of_field c hw, code_of_field, bitVec_of_field, fin_of_field, dec_bind,
      dec_pure]
  | stg d a w c off =>
    cases hl
    obtain ⟨hf, hop⟩ := holds_creven rfl hx
    unfold decC
    rw [hop]
    apply bind_shape
    simp only [HoldsFields, Nat.reduceAdd, Nat.reduceSub, Nat.reducePow] at hf
    simp (disch := decide) only [cd, ca, hf, stCls_of_field c hw, code_of_field, bitVec_of_field, fin_of_field, dec_bind,
      dec_pure]
  | amo d a b op wide c u =>
    cases hl
    obtain ⟨hf, hop⟩ := holds_creven rfl hx
    unfold decC
    rw [hop]
    apply bind_shape
    simp only [HoldsFields, Nat.reduceAdd, Nat.reduceSub, Nat.reducePow, Nat.reduceMod] at hf
    have hc : c.forAtomic = true := (Bool.and_eq_true_iff.mp hw).1
    simp (disch := decide) only [cd, ca, cb, hf, amoCls_of_field c hc, code_of_field, bit_of_field, fin_of_field, dec_bind,
      dec_pure, bitAt_eq, unused_cons, unused_nil, eq_self, if_true]
  | crevenFence | crevenFenceSys | kset | kget =>
    cases hl
    obtain ⟨hf, hop⟩ := holds_creven rfl hx
    unfold decC
    rw [hop]
    apply ite_shape
    simp only [HoldsFields, Nat.reduceAdd, Nat.reduceSub, Nat.reducePow, Nat.reduceMod] at hf
    simp (disch := decide) only [cd, ca, hf, fin_of_field, dec_bind, dec_pure, bitAt_eq_true, unused_cons, unused_nil, eq_self,
      if_true, Nat.zero_ne_one, if_false]
  | addi | ori | beq | bne | blt | bge | jal | vld | vst =>
    cases hl
    obtain ⟨hf, hop⟩ := holds_creven rfl hx
    unfold decC
    rw [hop]
    apply pure_shape
    simp only [HoldsFields, Nat.reduceAdd, Nat.reduceSub, Nat.reducePow] at hf
    simp (disch := decide) only [cd, ca, ck, hf, code_of_field, bit_of_field, bitVec_of_field, fin_of_field, dec_pure, bitAt_eq]
  | vadd | vsub | vmul | vmin | vmax | vfma | vand | vor | vxor =>
    cases hl
    obtain ⟨hf, hop⟩ := holds_creven rfl hx
    unfold decC
    simp only [HoldsFields, Nat.reduceAdd, Nat.reduceSub, Nat.reducePow, Nat.reduceMod] at hf
    obtain ⟨hfn, hf⟩ := hf
    rw [hop, hfn]
    apply pure_shape
    simp (disch := decide) only [cd, ca, cb, ck, cty, hf, code_of_field, fin_of_field, dec_pure]
  | _ =>
    cases hl
    all_goals
      obtain ⟨hf, hop⟩ := holds_creven rfl hx
      unfold decC
      rw [hop]
      apply bind_shape
      simp only [HoldsFields, Nat.reduceAdd, Nat.reduceSub, Nat.reducePow, Nat.reduceMod] at hf
      simp (disch := decide) only [cd, ca, cb, ck, cty, hf, code_of_field, bit_of_field, bitVec_of_field, fin_of_field, dec_bind,
        dec_pure, bitAt_eq, unused_cons, unused_nil, eq_self, if_true]

theorem decWord_of_quatinFields {x : Nat} {i : Instr} {l : List (Nat × Nat)} (hl : i.quatinFields = some l) (hx : HoldsFields x 0
  l) :
    decWord x = .ok i := by
  simp only [Instr.quatinFields, Option.orElse_eq_some] at hl
  rcases hl with hl | ⟨-, hl | ⟨-, hl | ⟨-, hl⟩⟩⟩
  · exact decWord_of_f3Fields hl hx
  · exact decWord_of_fiFields hl hx
  · exact decWord_of_feFields hl hx
  · exact decWord_of_fpFields hl hx

/-! ### The decoders and the encoder -/

theorem encode_of_decodeQuatin {w : Dword} {i : Instr} (h : decodeQuatin w = .ok i) : i.wf = true ∧ encode i = some w.toNat := by
  obtain ⟨hw, h⟩ := checked_ok.mp ((decodeQuatin_eq w).symm.trans h)
  exact ⟨hw, encode_of_decWord w.isLt h⟩

theorem encode_of_decodeCreven {w : Word} {i : Instr} (h : decodeCreven w = .ok i) : i.wf = true ∧ encode i = some w.toNat := by
  obtain ⟨hw, h⟩ := checked_ok.mp h
  exact ⟨hw, encode_of_decC w.isLt h⟩

theorem decodeQuatin_of_encode {i : Instr} {h : Hdr} {n : Nat} (hw : i.wf = true) (hh : Machine.hdrOf i = some h)
    (he : encode i = some n) : n < 2 ^ 64 ∧ decodeQuatin (BitVec.ofNat 64 n) = .ok i := by
  obtain ⟨l, hl⟩ := exists_quatinFields hh
  have ha := quatinFields_ascends hl
  have hlt : placeFields 0 l < 2 ^ 64 := (place_lt ha).2
  have hd := decWord_of_quatinFields hl (holds_place ha)
  obtain rfl : placeFields 0 l = n := Option.some.inj ((encode_of_decWord hlt hd).symm.trans he)
  refine ⟨hlt, (decodeQuatin_eq _).trans (checked_ok.mpr ⟨hw, ?_⟩)⟩
  rwa [BitVec.toNat_ofNat, Nat.mod_eq_of_lt hlt]

theorem decodeCreven_of_encode {i : Instr} {n : Nat} (hw : i.wf = true) (hh : Machine.hdrOf i = none) (he : encode i = some n) :
    n < 2 ^ 32 ∧ decodeCreven (BitVec.ofNat 32 n) = .ok i := by
  obtain ⟨l, hl⟩ := exists_crevenFields hh he
  have ha := crevenFields_ascends hl
  have hlt : placeFields 0 l < 2 ^ 32 := (place_lt ha).2
  have hd := decC_of_crevenFields hw hl (holds_place ha)
  obtain rfl : placeFields 0 l = n := Option.some.inj ((encode_of_decC hlt hd).symm.trans he)
  refine ⟨hlt, checked_ok.mpr ⟨hw, ?_⟩⟩
  rwa [BitVec.toNat_ofNat, Nat.mod_eq_of_lt hlt]

/-- No two instructions of one instruction set have one word. -/
theorem encode_injective {i j : Instr} {n : Nat} (hi : i.wf = true) (hj : j.wf = true)
    (hs : (Machine.hdrOf i).isSome = (Machine.hdrOf j).isSome) (hin : encode i = some n) (hjn : encode j = some n) : i = j := by
  cases hhi : Machine.hdrOf i with
  | some h =>
    rw [hhi] at hs
    obtain ⟨k, hhj⟩ := Option.isSome_iff_exists.mp hs.symm
    exact Except.ok.inj ((decodeQuatin_of_encode hi hhi hin).2.symm.trans (decodeQuatin_of_encode hj hhj hjn).2)
  | none =>
    rw [hhi] at hs
    have hhj : Machine.hdrOf j = none := Option.isSome_eq_false_iff.mp hs.symm |> Option.isNone_iff_eq_none.mp
    exact Except.ok.inj ((decodeCreven_of_encode hi hhi hin).2.symm.trans (decodeCreven_of_encode hj hhj hjn).2)

end Sys2Proof

open Sys2Proof

/-- Settles O57: a word that decodes is its fields put together, and so the encoding; and some word holds an instruction's fields
  and
decodes to it, which the encoding can then only be. -/
theorem decodeAndEncodeAgree : Obligations.DecodeAndEncodeAgree :=
  ⟨fun _ _ => encode_of_decodeQuatin, fun _ _ => encode_of_decodeCreven, fun _ _ _ => decodeQuatin_of_encode,
    fun _ _ => decodeCreven_of_encode, fun _ _ _ => encode_injective⟩
end

section
/-! Words written out from the spec's encodings (R28, R66 to R72, R376), for O56. -/

open Sys2Proof Sys2Proof.Machine

/-- Settles O56: the decoder, run on each of the words. -/
theorem decodeWords : Obligations.DecodeWords := by
  unfold Obligations.DecodeWords
  decide
end

section
/-! A result that lands (R44), for O21: a result may carry two values for one uniform register, with different lanes, and then the last
of them stands. -/

open Sys2Proof Sys2Proof.Machine

/-- Refutes O21: of two values for w0, which have different lanes, the one of lane 1 is written last and stands; the statement's `find?`
takes the one of lane 0. -/
theorem not_resultsLand : ¬ Obligations.ResultsLand := by
  intro h
  let p : Pend := ⟨0, [.w 0], .ready, [⟨.w 0, 0, ⟨1, .raw⟩⟩, ⟨.w 0, 1, ⟨2, .raw⟩⟩]⟩
  let wp : Warp := { Warp.new loadLaunch 0 0 0 0 with pend := [p] }
  let s : State := State.reset.setCore 0 fun k => { k with ctx := { k.ctx with warps := [(0, wp)] } }
  obtain ⟨t, -, ht, -, -, -, -, -, -, hr⟩ := h s 0 0 wp p rfl rfl rfl (by simp [p])
  have hr := hr (.w 0) 0 (by decide) (by decide) fun k hk => by cases hk
  have he : exec (.variableLatencyWrite 0 0 0) s = .next (s.landPend 0 0 wp.launch 0 p.vals) := rfl
  obtain rfl : s.landPend 0 0 wp.launch 0 p.vals = t := Host.Outcome.next.inj (he.symm.trans ht)
  have hland : (s.landPend 0 0 wp.launch 0 p.vals).reg 0 0 (.w 0) 0 = ⟨2, .raw⟩ := rfl
  exact absurd (hland.symm.trans hr) (by decide)
end

section
/-! Paired words (R53 to R55, R72), for O15: what a half computes in a thread, and what two halves that fault in none put into registers. -/

namespace Sys2Proof.Machine

/-! ### The values of the halves -/

theorem sintOf_toNat (a : Word) : sintOf 32 a.toNat = a.toInt := by
  rw [sintOf, Nat.mod_eq_of_lt a.isLt, BitVec.toInt]
  split <;> rfl

theorem ofNat_wrapInt (k : Int) : BitVec.ofNat 32 (wrapInt 32 k % 2 ^ 32) = BitVec.ofInt 32 k := by
  apply BitVec.eq_of_toNat_eq
  rw [BitVec.toNat_ofNat, Nat.mod_mod, BitVec.toNat_ofInt, wrapInt]
  exact Nat.mod_eq_of_lt (by omega)

/-- An element of 32 bits is its register's signed value (R121). -/
theorem elemOp_i32 (f : Int → Int → Int) (a b : Word) : elemOp .i32 false false f a b = BitVec.ofInt 32 (f a.toInt b.toInt) := by
  rw [← ofNat_wrapInt, ← sintOf_toNat, ← sintOf_toNat]
  simp [elemOp, mapElems, Elem.bits, upFrom, reduceInt, readInt, Nat.mod_eq_of_lt a.isLt, Nat.mod_eq_of_lt b.isLt]

theorem elemOp_add (a b : Word) : elemOp .i32 false false (fun p q => p + q) a b = a + b := by
  rw [elemOp_i32, BitVec.ofInt_add, BitVec.ofInt_toInt, BitVec.ofInt_toInt]

theorem elemOp_sub (a b : Word) : elemOp .i32 false false (fun p q => p - q) a b = a - b := by
  rw [elemOp_i32, Int.sub_eq_add_neg, BitVec.ofInt_add, BitVec.ofInt_neg, BitVec.ofInt_toInt, BitVec.ofInt_toInt, BitVec.sub_eq_add_neg]

theorem elemOp_min (a b : Word) : elemOp .i32 false false (fun p q => if q < p then q else p) a b = if b.slt a then b else a := by
  rw [elemOp_i32, apply_ite (BitVec.ofInt 32), BitVec.ofInt_toInt, BitVec.ofInt_toInt]
  simp only [BitVec.slt, decide_eq_true_eq]

theorem elemOp_max (a b : Word) : elemOp .i32 false false (fun p q => if p < q then q else p) a b = if a.slt b then b else a := by
  rw [elemOp_i32, apply_ite (BitVec.ofInt 32), BitVec.ofInt_toInt, BitVec.ofInt_toInt]
  simp only [BitVec.slt, decide_eq_true_eq]

theorem shift_by_count (a : Word) (n : Fin 32) : shlWord a (BitVec.ofNat 32 n.val) = a <<< n.val ∧
    shrWord a (BitVec.ofNat 32 n.val) = a >>> n.val ∧ sarWord a (BitVec.ofNat 32 n.val) = a.sshiftRight n.val := by
  have hn : (BitVec.ofNat 32 n.val).toNat = n.val := by rw [BitVec.toNat_ofNat]; omega
  have hlt : ¬32 ≤ n.val := by omega
  rw [shlWord, shrWord, sarWord, hn, if_neg hlt, if_neg hlt, Nat.min_eq_left (by omega)]
  exact ⟨rfl, rfl, rfl⟩

/-! ### What a half puts -/

theorem computed_one {x : Iss} {names : List RName} {l : Nat} {srcs : List (Opd × List Tag)} {v e : Word} {t : Tag}
    (h : ∀ p ∈ srcs, p.1.fits p.2) (he : v = e) : computed x names l srcs (fun _ => one32 v t) = LaneRes.of [⟨e, t⟩] :=
  he ▸ computed_good x names l srcs _ h

theorem fits_alone {o : Opd} {ts : List Tag} (ho : o.fits ts) : ∀ p ∈ [(o, ts)], p.1.fits p.2 := List.forall_mem_singleton.mpr ho

theorem fits_both {o q : Opd} {ts us : List Tag} (ho : o.fits ts) (hq : q.fits us) : ∀ p ∈ [(o, ts), (q, us)], p.1.fits p.2 :=
  List.forall_mem_cons.mpr ⟨ho, fits_alone hq⟩

/-- A computing thread that neither faults nor meets POISON has the result of its function. -/
theorem computed_clean {x : Iss} {names : List RName} {l : Nat} {srcs : List (Opd × List Tag)} {f : Unit → List Reg}
    (hf : (computed x names l srcs f).fault = none) (hp : (computed x names l srcs f).pois = false) :
    computed x names l srcs f = LaneRes.clean (f ()) none := by
  cases hc : checkTags srcs with
  | good => simp only [computed, hc]; rfl
  | bad _ => simp [computed, hc, LaneRes.trap] at hf
  | pois => simp [computed, hc, LaneRes.poison] at hp

theorem Half.dst_lt {k : Half} {d : Nat} (h : k.dst = some d) : d < 256 := by
  cases k with
  | nop => cases h
  | _ => cases h; exact Fin.isLt _

/-- The destination of a half. -/
def halfOut (k : Half) : Dst :=
  match k.dst with
  | some d => .v (Fin.ofNat 640 d)
  | none => .discard

/-- How many registers a half writes. -/
def halfOuts (k : Half) : Nat := if k.dst = none then 0 else 1

theorem dstNames_of_dst {k : Half} {d : Nat} (h : k.dst = some d) : dstNames (halfOut k) (halfOuts k) = [.v d] := by
  have hd : d % 640 = d := Nat.mod_eq_of_lt ((Half.dst_lt h).trans (by decide))
  simp [halfOut, halfOuts, h, dstNames, upFrom, Fin.ofNat, hd]

theorem halfNames_eq (k : Half) : halfNames k = dstNames (halfOut k) (halfOuts k) := by
  unfold halfNames
  split
  next d h => rw [dstNames_of_dst h]
  next h => simp only [halfOut, h, dstNames]

theorem halfLane_clean {x : Iss} {k : Half} {l : Nat} (hf : (halfLane x k l).fault = none) (hp : (halfLane x k l).pois = false) :
    (halfLane x k l).regs.length = halfOuts k ∧ halfLane x k l = LaneRes.clean (halfLane x k l).regs none := by
  cases k with
  | nop | mov | movi | retag => exact ⟨rfl, rfl⟩
  | _ =>
    have h := computed_clean hf hp
    exact ⟨congrArg (fun r => r.regs.length) h, h.trans (congrArg (fun r => LaneRes.clean r.regs none) h.symm)⟩

/-- No thread of an issue faults in a half, or meets POISON in it. -/
def HalfSound (x : Iss) (k : Half) : Prop := ∀ l ∈ x.act, (halfLane x k l).fault = none ∧ (halfLane x k l).pois = false

theorem HalfSound.length {x : Iss} {k : Half} (hk : HalfSound x k) : ∀ l ∈ x.act, (halfLane x k l).regs.length = halfOuts k :=
  fun l hl => (halfLane_clean (hk l hl).1 (hk l hl).2).1

/-- What a half puts into the registers of an issue. -/
def halfPuts (x : Iss) (k : Half) (n : RName) (l : Nat) : Option Reg :=
  match n with
  | .v i => if l ∈ x.act ∧ k.dst = some i then (halfLane x k l).regs.head? else none
  | _ => none

theorem puts_half {x : Iss} {k : Half} (hk : HalfSound x k) (n : RName) (l : Nat) :
    x.puts (dstNames (halfOut k) (halfOuts k)) (fun l => (halfLane x k l).regs) (fun _ => none) n l = halfPuts x k n l := by
  cases hd : k.dst with
  | none =>
    have h0 : dstNames (halfOut k) (halfOuts k) = [] := by simp only [halfOut, hd, dstNames]
    rw [h0]
    cases n <;> simp [Iss.puts, halfPuts, hd]
  | some d =>
    rw [dstNames_of_dst hd]
    cases n with
    | v i =>
      by_cases hla : l ∈ x.act
      · have h1 : (halfLane x k l).regs.length = 1 := by rw [hk.length l hla, halfOuts, hd]; rfl
        obtain ⟨r, hr⟩ := List.length_eq_one_iff.mp h1
        by_cases hi : d = i
        · subst hi
          simp [Iss.puts, halfPuts, hd, hla, hr]
        · have hn : (RName.v i == RName.v d) = false := by simpa using Ne.symm hi
          simp [Iss.puts, halfPuts, hd, hla, hr, hi, List.lookup, hn]
      · simp [Iss.puts, halfPuts, hla]
    | w i =>
      cases hm : x.act.head? with
      | none => simp only [Iss.puts, halfPuts, hm, Option.bind_none]
      | some m =>
        cases hv : (halfLane x k m).regs with
        | nil => simp only [Iss.puts, halfPuts, hm, hv, Option.bind_some, List.zip_nil_right, List.lookup]
        | cons r rs =>
          simp only [Iss.puts, halfPuts, hm, hv, Option.bind_some, List.zip_cons_cons, List.zip_nil_left, List.lookup]
          rfl
    | _ => simp [Iss.puts, halfPuts]

/-- What a word of two halves puts into the registers of an issue: the second half's, where both have one destination. -/
def pairPuts (x : Iss) (p q : Half) (n : RName) (l : Nat) : Option Reg :=
  match n with
  | .v i => if l ∈ x.act then
      (if q.dst = some i then (halfLane x q l).regs.head? else if p.dst = some i then (halfLane x p l).regs.head? else none) else none
  | _ => none

/-- The values that a half of an issue writes where it faults in no thread. -/
def halfWrites (x : Iss) (k : Half) : List Wb :=
  writesOf (dstNames (halfOut k) (halfOuts k)) (x.act.map fun l => (l, LaneRes.clean (halfLane x k l).regs none))

theorem commit_half {x : Iss} {k : Half} (hk : HalfSound x k) (s : State) (lat : Lat) :
    s.commit x lat (halfNames k) (x.act.map fun l => (l, halfLane x k l)) = ⟨s.putRegs x lat (halfWrites x k), .go⟩ := by
  have hm : (x.act.map fun l => (l, halfLane x k l)) = x.act.map fun l => (l, LaneRes.clean (halfLane x k l).regs none) :=
    List.map_congr_left fun l hl => by rw [← (halfLane_clean (hk l hl).1 (hk l hl).2).2]
  rw [halfNames_eq, hm]
  refine commit_clean _ _ _ _ _ fun r hr => ?_
  obtain ⟨l, -, rfl⟩ := List.mem_map.mp hr
  exact ⟨rfl, rfl, rfl⟩

/-- The body of a paired word. -/
def pairedBody (p q : Half) (x : Iss) (s : State) : Eff :=
  let rs := x.act.map fun l => (l, halfLane x p l, halfLane x q l)
  let flt (r : Nat × LaneRes × LaneRes) : Option Flt :=
    match r.2.1.fault, r.2.2.fault with
    | some f, _ => some f
    | none, some f => some { f with kind := 1 }
    | none, none => none
  let good := rs.filter fun r => (flt r).isNone
  let e1 := s.commit x (.fixed (halfLat p)) (halfNames p) (good.map fun r => (r.1, r.2.1))
  let e2 := e1.s.commit x (.fixed (halfLat q)) (halfNames q) (good.map fun r => (r.1, r.2.2))
  e2.s.commit x .var [] (rs.filterMap fun r => (flt r).map fun f => (r.1, .trap f))

theorem exec_pairedWord (h : PHdr) (p q : Half) (s : State) :
    exec (.pairedWord h p q) s = issue (.pairedWord h p q) s (pairedBody p q) := rfl

/-- Where no thread faults, the first half's values are put, then the second's. -/
theorem pairedBody_sound {x : Iss} {p q : Half} (hp : HalfSound x p) (hq : HalfSound x q) (s : State) :
    pairedBody p q x s =
      ⟨(s.putRegs x (.fixed (halfLat p)) (halfWrites x p)).putRegs x (.fixed (halfLat q)) (halfWrites x q), .go⟩ := by
  unfold pairedBody
  extract_lets rs flt good e1 e2
  have hflt : ∀ r ∈ rs, flt r = none := by
    intro r hr
    obtain ⟨l, hl, rfl⟩ := List.mem_map.mp hr
    simp only [flt, (hp l hl).1, (hq l hl).1]
  have hgood : good = rs := List.filter_eq_self.mpr fun r hr => by rw [hflt r hr]; rfl
  have hnone : (rs.filterMap fun r => (flt r).map fun f => (r.1, LaneRes.trap f)) = [] :=
    List.filterMap_eq_nil_iff.mpr fun r hr => by rw [hflt r hr]; rfl
  have h1 : e1 = ⟨s.putRegs x (.fixed (halfLat p)) (halfWrites x p), .go⟩ := by
    simp only [e1, hgood, rs, List.map_map]
    exact commit_half hp s _
  have h2 : e2 = ⟨(s.putRegs x (.fixed (halfLat p)) (halfWrites x p)).putRegs x (.fixed (halfLat q)) (halfWrites x q), .go⟩ := by
    simp only [e2, h1, hgood, rs, List.map_map]
    exact commit_half hq _ _
  rw [hnone, h2, commit_clean _ _ _ _ _ (by simp)]
  rfl

theorem halfWrites_fits {x : Iss} {k : Half} (hact : ∀ l ∈ x.act, l < 128) (hk : HalfSound x k) : ∀ v ∈ halfWrites x k, v.Fits :=
  writesOf_fits hact _ _ _ _ hk.length

theorem halfWrites_hold {x : Iss} {k : Half} (hact : ∀ l ∈ x.act, l < 128) (hk : HalfSound x k) (w : Warp) (f : Wb → Nat) {n : RName}
    {l : Nat} (hs : n ≠ .seed) (hl : l < 128) (hn : ∀ k, n = .p k → k < 8) :
    (w.writeAll f (halfWrites x k)).hold n l = (halfPuts x k n l).getD (w.hold n l) := by
  rw [← puts_half hk]
  exact writesOf_puts hact _ _ _ _ hk.length w f n l hs hl hn

/-- The second half's value stands over the first's, which stands over what was there. -/
theorem pairPuts_getD {x : Iss} {p q : Half} (hq : HalfSound x q) (n : RName) (l : Nat) (r : Reg) :
    (pairPuts x p q n l).getD r = (halfPuts x q n l).getD ((halfPuts x p n l).getD r) := by
  cases n with
  | v i =>
    by_cases hl : l ∈ x.act
    · by_cases hd : q.dst = some i
      · have h1 : (halfLane x q l).regs.length = 1 := by rw [hq.length l hl, halfOuts, hd]; rfl
        obtain ⟨r, hr⟩ := List.length_eq_one_iff.mp h1
        simp [pairPuts, halfPuts, hl, hd, hr]
      · simp [pairPuts, halfPuts, hl, hd]
    · simp [pairPuts, halfPuts, hl]
  | _ => rfl

theorem pairedWord_lands {s : State} {h : PHdr} {hd : Hdr} {c w : Nat} {wp : Warp} {pc : Nat} {p q : Half}
    (hI : Issues s (.pairedWord h p q) hd c w wp pc) (hp : HalfSound (Iss.of s c w wp pc hd) p) (hq : HalfSound (Iss.of s c w wp pc hd) q) :
    ∃ t, exec (.pairedWord h p q) s = .next t ∧ Lands s t (Iss.of s c w wp pc hd) (pairPuts (Iss.of s c w wp pc hd) p q) [] := by
  refine ⟨_, (exec_pairedWord h p q s).trans (issue_next hI _), ?_⟩
  have hact : ∀ l ∈ (Iss.of s c w wp pc hd).act, l < 128 := fun l hl => Iss.set_lt (Iss.act_set hl)
  rw [pairedBody_sound hp hq]
  refine lands_of_body hI _ _ _ [] ((OnWarp.setWarp _ _ _ _).trans (OnWarp.setWarp _ _ _ _)) (fun v => ?_) fun v m l hs hl hk => ?_
  · refine ((Warp.writeAll_rest _ _ _ (halfWrites_fits hact hq)).trans (Warp.writeAll_rest v _ _ (halfWrites_fits hact hp))).trans ?_
    simp [Warp.rest]
  · rw [pairPuts_getD hq]
    exact (halfWrites_hold hact hq _ _ hs hl hk).trans (congrArg _ (halfWrites_hold hact hp v _ hs hl hk))

end Sys2Proof.Machine

open Sys2Proof Sys2Proof.Machine

/-- Settles O15: the words' values are written one half's after the other's, both from the registers before the word; and each half is
the computing thread of its equivalent instruction. -/
theorem pairedWords : Obligations.PairedWords := by
  constructor
  · intro s h hd c w wp pc p q hI _ x hok
    exact pairedWord_lands hI (fun l hl => hok l hl p (.inl rfl)) fun l hl => hok l hl q (.inr rfl)
  · intro x l d s k n r ftz t a b gives f32
    obtain ⟨hshl, hshr, hsar⟩ := shift_by_count (x.val b 0 l) n
    refine ⟨rfl, rfl, rfl, rfl, fun hb => ?_, fun ha hb => ?_, fun hb => ?_, fun ha hb => ?_, fun ha hb => ?_⟩
    · exact computed_one (fits_alone hb) rfl
    · have h := fits_both ha hb
      exact ⟨computed_one h (elemOp_add _ _), computed_one h (elemOp_sub _ _), computed_one h (elemOp_min _ _),
        computed_one h (elemOp_max _ _)⟩
    · have h := fits_alone hb.fits
      exact ⟨computed_one h rfl, computed_one h hshl, computed_one h hshr, computed_one h hsar⟩
    · have h := fits_both ha.fits hb.fits
      exact ⟨computed_one h rfl, computed_one h rfl, computed_one h rfl⟩
    · have h := fits_both ha hb
      exact ⟨computed_one h rfl, computed_one h rfl, computed_one h rfl, computed_one h rfl⟩
end

section
/-! A step (R27, R57, R82, R375), for O58: what a fetch reads where the page is plain memory of this package, and what a step then runs. -/

namespace Sys2Proof.Machine

/-! ### Fetching from plain memory -/

/-- Plain memory of this package at an address: a page with no key, its own visibility point at the package or beyond, on a stack that
works; and no dropped byte anywhere. -/
structure PlainCode (s : State) (leaf pa lin : Nat) : Prop where
  near : s.localDev (pteDev leaf) = true
  place : linOf pa = some lin
  key : pteKey leaf = 0
  reach : 2 ≤ pteReach leaf
  alive : (s.stack (homeOf lin)).alive = true
  gaps : s.gaps = []

theorem regionOf_lt_two {pa lin : Nat} (h : linOf pa = some lin) : regionOf pa < 2 := by
  unfold linOf at h
  split at h
  next h0 => omega
  next =>
    split at h
    next h1 => omega
    next => cases h

/-- Without a key and with no dropped byte a home read gives the bytes as they stand, whatever is marked. -/
theorem homeRead_noGaps {s : State} (hg : s.gaps = []) (lin n : Nat) : (s.homeRead lin n 0).1 = (upFrom lin n).map s.byteAt := by
  have hb : memRead s.mem lin n = (upFrom lin n).map s.byteAt := rfl
  have hl : ((upFrom lin n).map s.byteAt).length ≤ (upFrom 0 n).length := by simp only [List.length_map, upFrom_length, le_refl]
  simp only [State.homeRead, eq_self, if_true, hg, inGap, List.any_nil, Bool.false_and, Bool.false_eq_true, if_false, hb]
  split
  · rfl
  · exact List.map_fst_zip hl

theorem codeBytes_plain {s : State} {leaf pa lin : Nat} (h : PlainCode s leaf pa lin) (k : Option Nat) (n : Nat) (sec : Bool) :
    s.codeBytes k leaf pa n sec = some ((upFrom lin n).map s.byteAt, .ok) := by
  have hr : ¬(pteReach leaf ≤ 1 ∧ regionOf pa = 0) := fun hn => absurd h.reach (by omega)
  cases k <;> simp [State.codeBytes, h.place, h.alive, h.key, hr, State.keyRefused, homeRead_noGaps h.gaps]

theorem fetch_plain {s u : State} {v : Via} {asid va leaf pa lin : Nat} {sec : Bool}
    (ht : s.translate v asid va .fetch sec = (u, .ok leaf pa)) (hp : PlainCode u leaf pa lin) (k : Option Nat) (n : Nat) :
    s.fetch v k asid va n sec = (u, .ok (numOf ((upFrom lin n).map u.byteAt), .ok)) := by
  have hr : ¬2 ≤ regionOf pa := by have := regionOf_lt_two hp.place; omega
  simp only [State.fetch, ht, if_neg hr, hp.near, Bool.not_true, Bool.false_eq_true, if_false, codeBytes_plain hp]

theorem toOption_getD_ok {r : Dec Instr} {i d : Instr} (h : r = .ok i) : r.toOption.getD d = i := by rw [h]; rfl

/-! ### The step -/

/-- What a step adds to what its turn answers. -/
def State.closed (s t : State) : State := { t with turn := .idle, ticket := s.ticket + 1 }

theorem closeStep_next {s t : State} (h : t.walkLost = false) : closeStep s (.next t) = .next (s.closed t) := by
  simp only [closeStep, State.unstuck, h, Bool.false_eq_true, if_false, State.closed]

theorem runWord_eq {s u : State} {c w pc leaf pa lin : Nat} {wp : Warp} {i : Instr} (hw : s.warp? c w = some wp)
    (hpc : wp.issuePc = some pc)
    (ht : s.translate (.engine c) (s.asidOf wp) pc .fetch (s.core c).ctx.sec = (u, .ok leaf pa)) (hp : PlainCode u leaf pa lin)
    (hi : decodeQuatin (BitVec.ofNat 64 (numOf ((upFrom lin 8).map u.byteAt))) = .ok i) :
    s.runWord c w = exec i { u with turn := .warp c w } := by
  have hf : s.fetchInstr c wp pc = (u, .ok (i, .ok)) := by
    simp only [State.fetchInstr, fetch_plain ht hp, toOption_getD_ok hi]
  simp only [State.runWord, hw, hpc, hf, State.noteFetch, if_true]

theorem runStack_eq {s u : State} {n leaf pa lin : Nat} {x : Inst} {i : Instr} (hx : (s.score n).run = some x) (hs : x.serve = none)
    (ht : s.translate (.score n) x.asid x.pc .fetch x.sec = (u, .ok leaf pa)) (hp : PlainCode u leaf pa lin)
    (hi : decodeCreven (BitVec.ofNat 32 (numOf ((upFrom lin 4).map u.byteAt))) = .ok i) :
    s.runStack n = exec i { u with turn := .score n } := by
  simp only [State.runStack, hx, hs, fetch_plain ht hp, crevenInstr, toOption_getD_ok hi, if_true]

end Sys2Proof.Machine

open Sys2Proof Sys2Proof.Machine

/-- Settles O58: a step hands its turn to `runWord`, `runStack` or `exec`, and closes what that answers. -/
theorem stepRuns : Obligations.StepRuns := by
  intro s t rest
  refine ⟨fun c w wp pc u leaf pa lin i ha hw hpc ht ⟨near, place, key, reach, alive, gaps⟩ hi he hl => ?_,
    fun n x u leaf pa lin i ha hx hs ht ⟨near, place, key, reach, alive, gaps⟩ hi he hl => ?_, fun i ha he hl => ?_⟩
  · simp only [step, ha]
    rw [runWord_eq (s := { s with agenda := rest }) hw hpc ht ⟨near, place, key, reach, alive, gaps⟩ hi, he]
    exact closeStep_next hl
  · simp only [step, ha]
    rw [runStack_eq (s := { s with agenda := rest }) hx hs ht ⟨near, place, key, reach, alive, gaps⟩ hi, he]
    exact closeStep_next hl
  · simp only [step, ha]
    rw [he]
    exact closeStep_next hl
end

section
/-! What happens to the threads of an issue's warp (R73, R96 to R98, R439, R443), for O16: a change of each thread of a list of lanes,
one after the other, is one change of the warp; taking a fault into a handler without a frame is such a change, and so is a transfer. -/

namespace Sys2Proof.Machine

/-! ### Changes of threads, lane by lane -/

/-- The threads of a warp after each of some lanes has changed. -/
def eachThread (ls : List Nat) (f : Nat → Thread → Thread) (ths : List Thread) : List Thread :=
  ls.foldl (fun ths l => lmod ths l (f l)) ths

theorem lmod_lmod {α : Type} (xs : List α) (i : Nat) (f g : α → α) : lmod (lmod xs i f) i g = lmod xs i (g ∘ f) := by
  induction xs generalizing i with
  | nil => rfl
  | cons x xs ih => cases i <;> simp [lmod, ih]

theorem eachThread_getElem? {ls : List Nat} (hd : ls.Nodup) (f : Nat → Thread → Thread) (ths : List Thread) (j : Nat) :
    (eachThread ls f ths)[j]? = ths[j]?.map fun t => if j ∈ ls then f j t else t := by
  induction ls generalizing ths with
  | nil => simp [eachThread]
  | cons l ls ih =>
    obtain ⟨hl, hd⟩ := List.nodup_cons.mp hd
    rw [show eachThread (l :: ls) f ths = eachThread ls f (lmod ths l (f l)) from rfl, ih hd, lmod_getElem?]
    by_cases h : l = j
    · subst h
      simp [hl, Function.comp_def]
    · simp [h, Ne.symm h]

theorem OnWarp.setThread (s : State) (t : TRef) (f : Thread → Thread) :
    OnWarp s (s.setThread t f) t.core t.warp fun v => { v with threads := lmod v.threads t.lane f } := .setWarp s _ _ _

theorem OnWarp.warp_eq {s t : State} {c w : Nat} {g : Warp → Warp} {wp : Warp} (h : OnWarp s t c w g) (hw : s.warp? c w = some wp) :
    t.warp? c w = some (g wp) := by rw [h.warp, hw]; rfl

theorem OnWarp.setThreads (x : Iss) (f : Nat → Thread → Thread) (ls : List Nat) (s : State) :
    OnWarp s (ls.foldl (fun s l => s.setThread (x.ref l) (f l)) s) x.core x.warp fun v => { v with threads := eachThread ls f v.threads } := by
  induction ls generalizing s with
  | nil => exact .refl s _ _
  | cons l ls ih => exact (OnWarp.setThread s (x.ref l) (f l)).trans (ih _)

/-- Address spaces do not depend on what an issue changes. -/
theorem Elsewhere.asid {s t : State} {c w : Nat} (h : Elsewhere s t c w) : t.asidRec = s.asidRec ∧ t.asidOf = s.asidOf := by
  obtain ⟨hctl, hl, -⟩ := h.control
  exact ⟨by funext a; simp only [State.asidRec, hctl], by funext v; simp only [State.asidOf, State.launch?, hl]⟩

/-! ### Faults that a handler takes (R439) -/

/-- A thread that has entered its handler. -/
def Thread.trapped (entry pc : Nat) (f : Flt) (t : Thread) : Thread :=
  { t with sLevel := true, st := .ready, pc := entry, epc := pc, fault := BitVec.ofNat 64 f.record }

/-- The handler of a warp's address space is there and has no frame area (R438). -/
structure State.Handles (s : State) (wp : Warp) : Prop where
  en : (s.asidRec (s.asidOf wp)).en = true
  noFrame : (s.asidRec (s.asidOf wp)).frame = 0

/-- A thread at U level takes its fault into the handler: the record, then the handler's entry. -/
theorem takeFault_eq {s : State} {t : TRef} {wp : Warp} {th : Thread} (hw : s.warp? t.core t.warp = some wp)
    (hth : wp.threads[t.lane]? = some th) (hu : th.sLevel = false) (hh : s.Handles wp) (pc : Nat) (f : Flt) :
    s.takeFault t pc f = (s.setThread t fun th => { th with epc := pc, fault := BitVec.ofNat 64 f.record, pc := pc }).setThread t
      fun th => { th with sLevel := true, pc := (s.asidRec (s.asidOf wp)).entry, st := .ready } := by
  simp only [State.takeFault, hw, Warp.thread?, hth, hu, hh.en, hh.noFrame, Bool.false_eq_true, if_false, Bool.not_true, if_true]

theorem takeFault_trapped {s : State} {t : TRef} {wp : Warp} {th : Thread} (hw : s.warp? t.core t.warp = some wp)
    (hth : wp.threads[t.lane]? = some th) (hu : th.sLevel = false) (hh : s.Handles wp) (pc : Nat) (f : Flt) :
    OnWarp s (s.takeFault t pc f) t.core t.warp fun v =>
      { v with threads := lmod v.threads t.lane (Thread.trapped (s.asidRec (s.asidOf wp)).entry pc f) } := by
  rw [takeFault_eq hw hth hu hh]
  have h := (OnWarp.setThread s t fun th => { th with epc := pc, fault := BitVec.ofNat 64 f.record, pc := pc }).trans
    (.setThread _ t fun th => { th with sLevel := true, pc := (s.asidRec (s.asidOf wp)).entry, st := .ready })
  simp only [Function.comp_def, lmod_lmod] at h
  exact h

/-- Each thread of a list of lanes takes the fault; `entry` is the entry of the handler. -/
theorem takeFaults_trapped (x : Iss) (f : Flt) (wp : Warp) (entry : Nat) {ls : List Nat} (hd : ls.Nodup) (s : State) (v : Warp)
    (hw : s.warp? x.core x.warp = some v) (hv : v.launch = wp.launch) (he : (s.asidRec (s.asidOf wp)).entry = entry)
    (hu : ∀ l ∈ ls, s.Handles wp ∧ ∃ th, v.threads[l]? = some th ∧ th.sLevel = false) :
    OnWarp s (s.takeFaults x ls f) x.core x.warp fun v => { v with threads := eachThread ls (fun _ => .trapped entry x.pc f) v.threads } := by
  induction ls generalizing s v with
  | nil => exact .refl s _ _
  | cons l ls ih =>
    obtain ⟨hl, hd⟩ := List.nodup_cons.mp hd
    obtain ⟨⟨hen, hfr⟩, th, hth, hs⟩ := hu l List.mem_cons_self
    have ha : s.asidOf v = s.asidOf wp := by simp only [State.asidOf, hv]
    have h1 := takeFault_trapped (t := x.ref l) hw hth hs ⟨ha ▸ hen, ha ▸ hfr⟩ x.pc f
    rw [ha, he] at h1
    obtain ⟨hr, ho⟩ := h1.rest.asid
    refine h1.trans (ih hd _ _ (h1.warp_eq hw) hv (by rw [hr, ho]; exact he) fun k hk => ?_)
    have hne : (x.ref l).lane ≠ k := fun e => hl ((show l = k from e) ▸ hk)
    obtain ⟨-, tk, htk, hsk⟩ := hu k (List.mem_cons_of_mem _ hk)
    exact ⟨⟨by rw [hr, ho]; exact hen, by rw [hr, ho]; exact hfr⟩, tk, by rw [lmod_getElem?, if_neg hne, htk], hsk⟩

theorem toNat_append_sum {m n : Nat} (a : BitVec m) (b : BitVec n) : (a ++ b).toNat = a.toNat * 2 ^ n + b.toNat := by
  rw [BitVec.toNat_append, ← Nat.shiftLeft_add_eq_or_of_lt b.isLt, Nat.shiftLeft_eq]

/-- The record of a fault without a status (R436). -/
theorem record_word {f : Flt} {cls : BitVec 6} {kind : BitVec 2} {info : BitVec 16} (hc : f.cls = cls.toNat) (hk : f.kind = kind.toNat)
    (hs : f.status = 0) (hi : f.info = info.toNat) : BitVec.ofNat 64 f.record = faultWord cls kind 0 info := by
  have h1 := cls.isLt
  have h2 := kind.isLt
  have h3 := info.isLt
  apply BitVec.eq_of_toNat_eq
  simp only [Flt.record, hc, hk, hs, hi, faultWord, toNat_append_sum, BitVec.ofNat_eq_ofNat, BitVec.toNat_ofNat]
  omega

/-! ### The lanes of an issue -/

theorem zip_fst_sublist {α β : Type} (as : List α) (bs : List β) : ((as.zip bs).map Prod.fst).Sublist as := by
  induction as generalizing bs with
  | nil => exact .slnil
  | cons a as ih =>
    cases bs with
    | nil => exact List.nil_sublist _
    | cons b bs => exact (ih bs).cons_cons a

theorem mem_zip_upFrom {α : Type} {a n : Nat} {xs : List α} {p : Nat × α} (h : p ∈ (upFrom a n).zip xs) : xs[p.1 - a]? = some p.2 := by
  obtain ⟨i, hi⟩ := List.mem_iff_getElem?.mp h
  obtain ⟨hk, hx⟩ := List.getElem?_zip_eq_some.mp hi
  have hin : i < n := by
    have := (List.getElem?_eq_some_iff.mp hk).1
    rwa [upFrom_length] at this
  rw [upFrom_getElem? a n i hin, Option.some.injEq] at hk
  rw [← hx, ← hk, Nat.add_sub_cancel_left]

theorem Iss.set_nodup (s : State) (c w : Nat) (wp : Warp) (pc : Nat) (h : Hdr) : (Iss.of s c w wp pc h).set.Nodup :=
  ((upFrom_nodup 0 128).sublist (zip_fst_sublist _ _)).sublist ((List.filter_sublist.trans List.filter_sublist).map _)

theorem Iss.act_nodup (s : State) (c w : Nat) (wp : Warp) (pc : Nat) (h : Hdr) : (Iss.of s c w wp pc h).act.Nodup :=
  (Iss.set_nodup s c w wp pc h).filter _

/-- The lanes of an issue set are lanes of threads. -/
theorem Iss.set_thread {s : State} {c w : Nat} {wp : Warp} {pc : Nat} {h : Hdr} {l : Nat} (hl : l ∈ (Iss.of s c w wp pc h).set) :
    ∃ th, (Iss.of s c w wp pc h).w.threads[l]? = some th := by
  obtain ⟨⟨k, th⟩, hp, rfl⟩ := List.mem_map.mp hl
  exact ⟨th, mem_zip_upFrom (List.mem_of_mem_filter (List.mem_of_mem_filter hp))⟩

/-! ### An issue whose body changes its threads -/

/-- The threads of an issue are changed by its body, each guard-true one by `f`, and registers take what `put` says: the whole issue. -/
theorem moves_of_threads {s : State} {i : Instr} {h : Hdr} {c w : Nat} {wp : Warp} {pc : Nat} (hI : Issues s i h c w wp pc) (e : Eff)
    (k : Warp → Warp) (put : RName → Nat → Option Reg) (f : Nat → Thread → Thread)
    (he : OnWarp (s.opened (Iss.of s c w wp pc h) i) e.s c w
      ((fun v => { v with threads := eachThread (Iss.of s c w wp pc h).act f v.threads }) ∘ k))
    (hk : ∀ v, (k v).rest = v.rest)
    (hp : ∀ v n l, n ≠ .seed → l < 128 → (∀ j, n = .p j → j < 8) → (k v).hold n l = (put n l).getD (v.hold n l)) :
    Moves s (State.ended (Iss.of s c w wp pc h) i h e) (Iss.of s c w wp pc h) put []
      fun l t => if l ∈ (Iss.of s c w wp pc h).act then f l t else t := by
  refine moves_of_body hI e _ put [] _ (eachThread (Iss.of s c w wp pc h).act f) he (fun v => ?_) (fun v n l hs hl hn => ?_)
    fun xs l => eachThread_getElem? (Iss.act_nodup s c w wp pc h) f xs l
  · rw [List.append_nil]
    exact congrArg (fun r : Warp => { r with threads := eachThread (Iss.of s c w wp pc h).act f r.threads }) (hk v)
  · rw [← hp v n l hs hl hn]
    cases n with
    | seed => exact absurd rfl hs
    | _ => rfl

/-- The warp of an issue as its body finds it: its threads have gone on, its level and its address space are what they were. -/
theorem opened_warp {s : State} {i : Instr} {h : Hdr} {c w : Nat} {wp : Warp} {pc : Nat} (hI : Issues s i h c w wp pc) :
    (s.opened (Iss.of s c w wp pc h) i).warp? c w = some ((Iss.of s c w wp pc h).gone (Iss.of s c w wp pc h).w) :=
  (opened_onWarp s (Iss.of s c w wp pc h) i).warp_eq hI.warp

theorem gone_user {s : State} {c w : Nat} {wp : Warp} {pc : Nat} {h : Hdr} {l : Nat} (hl : l ∈ (Iss.of s c w wp pc h).set)
    (hu : (Iss.of s c w wp pc h).sup l = false) :
    ∃ th, ((Iss.of s c w wp pc h).gone (Iss.of s c w wp pc h).w).threads[l]? = some th ∧ th.sLevel = false := by
  obtain ⟨th, hth⟩ := Iss.set_thread hl
  have hg := (Iss.of s c w wp pc h).gone_thread? (Iss.of s c w wp pc h).w l
  simp only [Warp.thread?, if_pos hl, hth, Option.map_some] at hg
  simp only [Iss.sup, Warp.thread?, hth, Option.map_some, Option.getD_some] at hu
  exact ⟨_, hg, hu⟩

/-- An instruction that takes a fault in its guard-true threads, and does nothing else in them. -/
theorem Traps.of_body {i : Instr} {cls : BitVec 6} {info : Iss → Nat → BitVec 16} {bad : Iss → State → Nat → Prop} (f : Flt)
    (body : Iss → State → Eff) (he : ∀ s, exec i s = issue i s body)
    (hb : ∀ (x : Iss) (s u : State), (∀ l ∈ x.act, bad x s l ∧ x.caught s l) →
      ∃ v, OnWarp u v x.core x.warp id ∧ (body x u).s = v.takeFaults x x.act f)
    (hf : ∀ x l, BitVec.ofNat 64 f.record = faultWord cls 0 0 (info x l)) : Traps i cls info bad := by
  intro s h c w wp pc hI x hbad
  obtain ⟨v, hv, hs⟩ := hb x s (s.opened x i) hbad
  refine ⟨_, (he s).trans (issue_next hI body), ?_⟩
  have ho := opened_onWarp s x i
  have hw := hv.warp_eq (opened_warp hI)
  obtain ⟨hr, ha⟩ := (ho.rest.trans hv.rest).asid
  have hmoves := moves_of_threads hI (body x (s.opened x i)) id noReg
    (fun _ => .trapped (s.asidRec (s.asidOf x.w)).entry x.pc f) ?_ (fun _ => rfl) fun _ _ _ _ _ _ => rfl
  · have hth : (fun (l : Nat) (t : Thread) => if l ∈ x.act then x.handled s cls (info x l) t else t) =
        fun l t => if l ∈ x.act then Thread.trapped (s.asidRec (s.asidOf x.w)).entry x.pc f t else t := by
      funext l t
      simp only [Iss.handled, Thread.trapped, hf x l]
    rw [hth]
    exact hmoves
  · rw [hs]
    refine hv.trans (takeFaults_trapped x f x.w _ (Iss.act_nodup s c w wp pc h) v _ hw rfl
      (by rw [hr, ha]) fun l hl => ?_)
    obtain ⟨-, hen, hfr, hu⟩ := hbad l hl
    exact ⟨⟨by rw [hr, ha]; exact hen, by rw [hr, ha]; exact hfr⟩, gone_user (Iss.act_set hl) hu⟩

/-! ### Targets (R30, R96) -/

theorem far_iff (v : Dword) : v.extractLsb' 55 9 = 0 ↔ ¬2 ^ 55 ≤ v.toNat := by
  rw [← BitVec.toNat_inj, BitVec.extractLsb'_toNat, Nat.shiftRight_eq_div_pow]
  simp only [BitVec.ofNat_eq_ofNat, BitVec.toNat_ofNat]
  have := v.isLt
  omega

theorem odd_iff (v : Dword) : v.extractLsb' 0 3 = 0 ↔ v.toNat % 8 = 0 := by
  rw [← BitVec.toNat_inj, BitVec.extractLsb'_toNat, Nat.shiftRight_eq_div_pow]
  simp only [BitVec.ofNat_eq_ofNat, BitVec.toNat_ofNat]
  omega

theorem checkTarget_go {v : Dword} (hf : v.extractLsb' 55 9 = 0) (ho : v.extractLsb' 0 3 = 0) : checkTarget v.toNat = .go v.toNat := by
  rw [checkTarget, if_neg ((far_iff v).mp hf), if_neg (not_not.mpr ((odd_iff v).mp ho))]

theorem checkTarget_far {v : Dword} (hf : v.extractLsb' 55 9 ≠ 0) : checkTarget v.toNat = .fault (.of eInvalid 0) :=
  if_pos (not_not.mp fun h => hf ((far_iff v).mpr h))

theorem checkTarget_odd {v : Dword} (hf : v.extractLsb' 55 9 = 0) (ho : v.extractLsb' 0 3 ≠ 0) :
    checkTarget v.toNat = .fault (.of eAlign 0) := by
  rw [checkTarget, if_neg ((far_iff v).mp hf), if_pos fun h => ho ((odd_iff v).mpr h)]

/-- A target counts words from the transfer's own (R30). -/
theorem relTarget_eq (imm : BitVec 24) (x : Iss) (l : Nat) :
    relTarget imm x l = checkTarget (BitVec.ofNat 64 x.pc + imm.signExtend 64 * 8).toNat := by
  have hw : (BitVec.ofNat 64 x.pc + imm.signExtend 64 * 8 : Dword) = BitVec.ofInt 64 ((x.pc : Int) + 8 * imm.toInt) := by
    rw [BitVec.ofInt_add, BitVec.ofInt_mul, BitVec.ofInt_natCast, BitVec.signExtend, BitVec.mul_comm]
    rfl
  rw [relTarget, wrapInt, hw, BitVec.toNat_ofInt]
  rfl

theorem Iss.pair_eq (x : Iss) (a : Src) (l : Nat) : x.pair a l = (x.val64 a l).toNat := by
  rw [Iss.pair, Iss.val64, toNat_append_sum, Iss.val, Iss.val]
  omega

theorem pairTarget_int {x : Iss} {a : Src} {l : Nat} (h0 : x.int a 0 l) (h1 : x.int a 1 l) :
    pairTarget a x l = checkTarget (x.val64 a l).toNat := by
  rw [pairTarget, checkTags_good _ (by simp only [List.forall_mem_cons]; exact ⟨h0, h1, by simp⟩), Iss.pair_eq]

/-- The field of every register of a source is the source's. -/
theorem Iss.src_field (x : Iss) (a : Src) (k l : Nat) : (x.src a k l).field = a.field := by
  cases a with
  | k c => simp only [Iss.src]; split <;> rfl
  | _ => rfl

/-- A source that is no POISON and no integer fails the check. -/
theorem Iss.plain.not_ok {x : Iss} {a : Src} {k l : Nat} (hp : x.plain a k l) (h : ¬x.int a k l) : (x.src a k l).ok intTags = false := by
  simp only [Iss.int, Opd.fits, not_or, Bool.not_eq_true] at h
  have ht : (x.src a k l).tag ∉ intTags := fun hm => h.2 ⟨hm, hp.resolve_left (by simp [h.1])⟩
  simp [Opd.ok, h.1, ht]

theorem pairTarget_tag {x : Iss} {a : Src} {l : Nat} (p0 : x.plain a 0 l) (p1 : x.plain a 1 l) (h : ¬(x.int a 0 l ∧ x.int a 1 l)) :
    pairTarget a x l = .fault (.of eTag a.field) := by
  have hpois : ([(x.src a 0 l, intTags), (x.src a 1 l, intTags)].any fun p => p.1.pois) = false := by
    simp [p0.fits.ok.2, p1.fits.ok.2]
  have hbad : checkTags [(x.src a 0 l, intTags), (x.src a 1 l, intTags)] = .bad a.field := by
    rw [checkTags, hpois]
    by_cases h0 : x.int a 0 l
    · have hok : (x.src a 0 l).ok intTags = true := h0.ok.1
      simp [hok, p1.not_ok fun h1 => h ⟨h0, h1⟩, x.src_field]
    · simp [p0.not_ok h0, x.src_field]
  rw [pairTarget, hbad]

/-! ### Transfers (R96 to R98) -/

/-- What a lane that transfers puts into the return pair. -/
def linkWb (pc : Nat) (link : Dst) (l : Nat) : List Wb :=
  groupWb (dstNames link 2) l fun i _ => ⟨BitVec.ofNat 32 ((pc + 8) % 2 ^ 64 / 2 ^ (32 * i)), .i32⟩

/-- The return pair (R97). -/
def linkPair (pc : Nat) : List Reg := halves (BitVec.ofNat 64 (pc + 8)) .i32 .i32

theorem linkPair_eq (pc : Nat) : linkPair pc =
    [⟨BitVec.ofNat 32 ((pc + 8) % 2 ^ 64 / 2 ^ (32 * 0)), .i32⟩, ⟨BitVec.ofNat 32 ((pc + 8) % 2 ^ 64 / 2 ^ (32 * 1)), .i32⟩] := by
  have half (k : Nat) : (BitVec.ofNat 64 (pc + 8)).extractLsb' k 32 = BitVec.ofNat 32 ((pc + 8) % 2 ^ 64 / 2 ^ k) :=
    BitVec.eq_of_toNat_eq (by rw [BitVec.extractLsb'_toNat, Nat.shiftRight_eq_div_pow, BitVec.toNat_ofNat, BitVec.toNat_ofNat])
  simp only [linkPair, halves, half]

theorem mem_linkWb (pc : Nat) (link : Dst) (l : Nat) (v : Wb) : v ∈ linkWb pc link l ↔
    (v.name, v.reg) ∈ (dstNames link 2).zip (linkPair pc) ∧ v.lane = (match v.name with | .w _ => 0 | _ => l) := by
  obtain ⟨n, k, r⟩ := v
  rw [linkPair_eq]
  cases link with
  | discard => simp [linkWb, groupWb, dstNames]
  | _ i =>
    simp only [linkWb, groupWb, dstNames, upFrom, List.map_cons, List.map_nil, List.length_cons, List.length_nil, List.zip_cons_cons,
      List.zip_nil_right, List.mem_cons, List.not_mem_nil, or_false, Wb.mk.injEq, Prod.mk.injEq]
    constructor
    · rintro (⟨rfl, rfl, rfl⟩ | ⟨rfl, rfl, rfl⟩) <;> simp
    · rintro ⟨⟨rfl, rfl⟩ | ⟨rfl, rfl⟩, rfl⟩ <;> simp

theorem filterMap_no {α β : Type} (xs : List α) : xs.filterMap (fun _ => (none : Option β)) = [] := by simp

theorem filterMap_yes {α β : Type} (f : α → β) (xs : List α) : xs.filterMap (fun a => some (f a)) = xs.map f :=
  congrFun (List.filterMap_eq_map (f := f)) xs

/-- A transfer in which every guard-true thread goes to its target. -/
theorem transfer_goes {link : Dst} {target : Iss → Nat → Xfer} {x : Iss} {tgt : Nat → Nat} (h : ∀ l ∈ x.act, target x l = .go (tgt l))
    (s : State) : (transfer link target x s).s = x.act.foldl (fun s l => s.setThread (x.ref l) fun t => { t with pc := tgt l })
      (s.putRegs x (.fixed 2) (x.act.flatMap fun l => linkWb x.pc link l)) := by
  have houts : (x.act.map fun l => (l, target x l)) = x.act.map fun l => (l, Xfer.go (tgt l)) :=
    List.map_congr_left fun l hl => by rw [h l hl]
  simp only [transfer, houts, List.filterMap_map, Function.comp_def, filterMap_no, filterMap_yes, List.foldl_map, List.flatMap_map,
    List.foldl_nil, List.isEmpty_nil, if_true, List.length_nil, State.poison]
  rfl

/-- A transfer in which every guard-true thread faults. -/
theorem transfer_traps {link : Dst} {target : Iss → Nat → Xfer} {x : Iss} {f : Flt} (h : ∀ l ∈ x.act, target x l = .fault f)
    (s : State) : (transfer link target x s).s = (s.putRegs x (.fixed 2) []).takeFaults x x.act f := by
  have houts : (x.act.map fun l => (l, target x l)) = x.act.map fun l => (l, Xfer.fault f) :=
    List.map_congr_left fun l hl => by rw [h l hl]
  simp only [transfer, houts, List.filterMap_map, Function.comp_def, filterMap_no, filterMap_yes, List.foldl_map, List.flatMap_nil,
    List.foldl_nil, List.isEmpty_nil, if_true, List.length_nil, State.poison]
  rfl

/-! ### The return pair in registers -/

theorem mem_links {x : Iss} {link : Dst} {v : Wb} : v ∈ (x.act.flatMap fun l => linkWb x.pc link l) ↔
    (v.name, v.reg) ∈ (dstNames link 2).zip (linkPair x.pc) ∧ ∃ k ∈ x.act, v.lane = (match v.name with | .w _ => 0 | _ => k) := by
  simp only [List.mem_flatMap, mem_linkWb]
  exact ⟨fun ⟨k, hk, hz, hl⟩ => ⟨hz, k, hk, hl⟩, fun ⟨hz, k, hk, hl⟩ => ⟨k, hk, hz, hl⟩⟩

theorem links_fit {x : Iss} (hact : ∀ l ∈ x.act, l < 128) {link : Dst} {v : Wb} (hv : v ∈ x.act.flatMap fun l => linkWb x.pc link l) :
    v.Fits := by
  obtain ⟨hz, k, hk, hl⟩ := mem_links.mp hv
  have hk := hact k hk
  obtain ⟨-, -, j, hj⟩ | ⟨-, -, j, hj⟩ := dstNames_cases link 2 v.name (List.of_mem_zip hz).1
  · simp only [hj] at hl
    exact ⟨by simp [hj], by omega, by simp [hj]⟩
  · simp only [hj] at hl
    exact ⟨by simp [hj], by omega, by simp [hj]⟩

/-- Every write of the return pair to a register is what `Iss.puts` says. -/
theorem puts_of_links {x : Iss} {link : Dst} {v : Wb} (hv : v ∈ x.act.flatMap fun l => linkWb x.pc link l) {n : RName} {l : Nat}
    (hh : v.Hits n l) : x.puts (dstNames link 2) (fun _ => linkPair x.pc) (fun _ => none) n l = some v.reg := by
  obtain ⟨hz, k, hk, hl⟩ := mem_links.mp hv
  obtain ⟨rfl, hlane⟩ := hh
  have hlook := lookup_of_mem _ _ _ _ (dstNames_nodup link 2) hz
  obtain ⟨-, -, j, hj⟩ | ⟨-, -, j, hj⟩ := dstNames_cases link 2 v.name (List.of_mem_zip hz).1
  · rw [hj] at hlook
    simp only [hj, reduceCtorEq, exists_false, or_false] at hl hlane
    simp only [hj, Iss.puts, ← hlane, hl, if_pos hk, hlook]
  · rw [hj] at hlook
    cases hx : x.act with
    | nil => simp [hx] at hk
    | cons m ms => simp only [hj, Iss.puts, hx, List.head?_cons, Option.bind_some, hlook]

theorem links_of_puts {x : Iss} {link : Dst} {n : RName} {l : Nat} {r : Reg}
    (h : x.puts (dstNames link 2) (fun _ => linkPair x.pc) (fun _ => none) n l = some r) :
    ∃ v ∈ x.act.flatMap fun l => linkWb x.pc link l, v.Hits n l := by
  cases n with
  | v i =>
    simp only [Iss.puts, Option.ite_none_right_eq_some] at h
    exact ⟨⟨.v i, l, r⟩, mem_links.mpr ⟨lookup_mem _ _ _ h.2, l, h.1, rfl⟩, rfl, .inl rfl⟩
  | w i =>
    simp only [Iss.puts, Option.bind_eq_some_iff] at h
    obtain ⟨m, hm, h⟩ := h
    exact ⟨⟨.w i, 0, r⟩, mem_links.mpr ⟨lookup_mem _ _ _ h, m, List.mem_of_head? hm, rfl⟩, rfl, .inr ⟨i, rfl⟩⟩
  | p i => simp [Iss.puts] at h
  | seed => simp [Iss.puts] at h

/-- Each lane's writes of the return pair agree, so a uniform pair is that of any lane. -/
theorem links_hold {x : Iss} (hact : ∀ l ∈ x.act, l < 128) (link : Dst) (w : Warp) (f : Wb → Nat) (n : RName) (l : Nat) (hs : n ≠ .seed)
    (hl : l < 128) (hn : ∀ k, n = .p k → k < 8) :
    (w.writeAll f (x.act.flatMap fun l => linkWb x.pc link l)).hold n l =
      (x.puts (dstNames link 2) (fun _ => linkPair x.pc) (fun _ => none) n l).getD (w.hold n l) := by
  have hfit := fun v hv => links_fit (link := link) (v := v) hact hv
  cases e : x.puts (dstNames link 2) (fun _ => linkPair x.pc) (fun _ => none) n l with
  | none => exact w.writeAll_hold_ne f _ n l hs hl hn hfit fun v hv hh => by simp [puts_of_links hv hh] at e
  | some r =>
    exact w.writeAll_hold f _ n l r hs hl hn hfit (links_of_puts e) fun v hv hh => by simpa [puts_of_links hv hh] using e

/-! ### The whole issue of a transfer, and of a trap -/

/-- Wherever `i` issues with targets that pass the checks of R96, each guard-true thread goes to its own, and `link` takes the return
pair. -/
def Transfers (i : Instr) (link : Dst) (ok : Iss → Nat → Prop) (target : Iss → Nat → Dword) : Prop :=
  ∀ (s : State) (h : Hdr) (c w : Nat) (wp : Warp) (pc : Nat), Issues s i h c w wp pc →
    let x := Iss.of s c w wp pc h
    (∀ l ∈ x.act, ok x l ∧ (target x l).extractLsb' 55 9 = 0 ∧ (target x l).extractLsb' 0 3 = 0) →
    ∃ t, exec i s = .next t ∧ Moves s t x (x.puts (dstNames link 2) (fun _ => linkPair pc) fun _ => none) []
      fun l t => if l ∈ x.act then { t with pc := (target x l).toNat } else t

theorem Transfers.of_body {i : Instr} {link : Dst} {ok : Iss → Nat → Prop} {target : Iss → Nat → Dword} (out : Iss → Nat → Xfer)
    (he : ∀ s, exec i s = issue i s (transfer link out)) (ho : ∀ x l, ok x l → out x l = checkTarget (target x l).toNat) :
    Transfers i link ok target := by
  intro s h c w wp pc hI x hok
  refine ⟨_, (he s).trans (issue_next hI _), ?_⟩
  have hact : ∀ l ∈ x.act, l < 128 := fun l hl => Iss.set_lt (Iss.act_set hl)
  have hgo : ∀ l ∈ x.act, out x l = .go (target x l).toNat := fun l hl => by
    obtain ⟨hl, hfar, hodd⟩ := hok l hl
    exact (ho x l hl).trans (checkTarget_go hfar hodd)
  refine moves_of_threads hI (transfer link out x (s.opened x i)) _ _ (fun l t => { t with pc := (target x l).toNat }) ?_
    (fun v => v.writeAll_rest (fun v => x.now + 2 + (match v.name with | .w _ => x.w.width / 32 - 1 | _ => 0)) _
      fun v hv => links_fit (link := link) hact hv)
    fun v n l hs hl hn => links_hold hact link v _ n l hs hl hn
  rw [transfer_goes hgo]
  exact (OnWarp.setWarp _ _ _ _).trans (.setThreads x _ x.act _)

theorem Traps.of_transfer {i : Instr} {cls : BitVec 6} {info : BitVec 16} {bad : Iss → State → Nat → Prop} {link : Dst}
    {target : Iss → Nat → Xfer} (f : Flt) (he : ∀ s, exec i s = issue i s (transfer link target))
    (hb : ∀ x s l, bad x s l → target x l = .fault f) (hf : BitVec.ofNat 64 f.record = faultWord cls 0 0 info) :
    Traps i cls (fun _ _ => info) bad :=
  .of_body f _ he (fun _ _ _ h => ⟨_, .setWarp _ _ _ _, transfer_traps (fun l hl => hb _ _ l (h l hl).1) _⟩) fun _ _ => hf

theorem Src.field_lt (a : Src) : a.field < 2 ^ 16 := by
  cases a with
  | v n => exact n.isLt.trans (by decide)
  | w n => have := n.isLt; simp only [Src.field]; omega
  | k c => cases c <;> decide

/-- A trap of every guard-true thread, if there is one (R442). -/
theorem Traps.of_faultAll {i : Instr} {cls : BitVec 6} {info : BitVec 16} {bad : Iss → State → Nat → Prop} (f : Flt)
    (he : ∀ s, exec i s = issue i s fun x s => if x.act.isEmpty then .go s else faultAll f x s)
    (hf : BitVec.ofNat 64 f.record = faultWord cls 0 0 info) : Traps i cls (fun _ _ => info) bad := by
  refine .of_body f _ he (fun x s u _ => ⟨u, .refl u _ _, ?_⟩) fun _ _ => hf
  cases hx : x.act with
  | nil => simp only [List.isEmpty_nil, if_true]; rfl
  | cons l ls => simp only [List.isEmpty_cons, Bool.false_eq_true, if_false, faultAll, hx]

/-- ERET at U level (R443). -/
theorem eret_traps (h : Hdr) (next : Bool) : Traps (.eret h next) 0x02 (fun _ _ => 0) fun _ _ _ => True := by
  refine .of_body (.of ePriv 0) _ (fun _ => rfl) (fun x s u hbad => ⟨u, .refl u _ _, ?_⟩) fun _ _ => record_word rfl rfl rfl rfl
  have hu : ∀ l ∈ x.act, ((x.w.thread? l).map fun t => t.sLevel).getD false = false := fun l hl => (hbad l hl).2.user
  have hs : x.act.filter (fun l => ((x.w.thread? l).map fun t => t.sLevel).getD false) = [] :=
    List.filter_eq_nil_iff.mpr fun l hl => by simp [hu l hl]
  have hn : x.act.filter (fun l => !((x.w.thread? l).map fun t => t.sLevel).getD false) = x.act :=
    List.filter_eq_self.mpr fun l hl => by simp [hu l hl]
  simp only [hs, hn, List.foldl_nil]

end Sys2Proof.Machine

open Sys2Proof Sys2Proof.Machine

/-- Settles O16: a word's body moves the threads of its warp alone, so its issue does too; what each thread of a transfer comes to is
`checkTarget` of its target, or a fault of tag before it. -/
theorem controlTransfer : Obligations.ControlTransfer := by
  refine ⟨fun h d a imm => ?_, fun h d a imm off next => ?_⟩
  · have relative {i : Instr} {link : Dst} (he : ∀ s, exec i s = issue i s (transfer link (relTarget imm))) :=
      Transfers.of_body (ok := fun _ _ => True) _ he fun x l _ => relTarget_eq imm x l
    have through {i : Instr} {link : Dst} (he : ∀ s, exec i s = issue i s (transfer link (pairTarget a))) :=
      Transfers.of_body (ok := fun x l => x.int a 0 l ∧ x.int a 1 l) _ he fun x l h => pairTarget_int h.1 h.2
    exact ⟨relative fun _ => rfl, relative fun _ => rfl, through fun _ => rfl, through fun _ => rfl, through fun _ => rfl⟩
  · have relative {i : Instr} {link : Dst} (he : ∀ s, exec i s = issue i s (transfer link (relTarget off))) :=
      Traps.of_transfer (cls := 0x05) (info := 0) (bad := fun x _ _ => (BitVec.ofNat 64 x.pc + off.signExtend 64 * 8).extractLsb' 55 9 ≠ 0)
        _ he (fun x _ l h => (relTarget_eq off x l).trans (checkTarget_far h)) (record_word rfl rfl rfl rfl)
    refine ⟨.of_faultAll _ (fun _ => rfl) (record_word rfl rfl rfl ?_), .of_faultAll _ (fun _ => rfl) (record_word rfl rfl rfl rfl),
      eret_traps h next, relative fun _ => rfl, relative fun _ => rfl, fun i hi => ?_⟩
    · exact (BitVec.toNat_setWidth_of_le (by decide)).symm
    · obtain ⟨link, he⟩ : ∃ link, ∀ s, exec i s = issue i s (transfer link (pairTarget a)) := by
        simp only [List.mem_cons, List.not_mem_nil, or_false] at hi
        obtain rfl | rfl | rfl := hi <;> exact ⟨_, fun _ => rfl⟩
      exact ⟨.of_transfer _ he (fun x _ l h => (pairTarget_int h.1.1 h.1.2).trans (checkTarget_far h.2)) (record_word rfl rfl rfl rfl),
        .of_transfer _ he (fun x _ l h => (pairTarget_int h.1.1 h.1.2).trans (checkTarget_odd h.2.1 h.2.2)) (record_word rfl rfl rfl rfl),
        .of_transfer _ he (fun x _ l h => pairTarget_tag h.1 h.2.1 h.2.2) (record_word rfl rfl rfl (Nat.mod_eq_of_lt (Src.field_lt a)).symm)⟩
end

section
/-! The issue slots (R84, R88, R183, R186), for O47: which candidate wins a free slot, and the wait of a head that is short of bales. -/

namespace Sys2Proof.Machine

/-! ### Lists and maps -/

theorem lget_of_getElem? {α : Type} {xs : List α} {i : Nat} {x : α} (h : xs[i]? = some x) (d : α) : lget xs i d = x := by simp [lget, h]

theorem State.setCore_congr {s : State} {c : Nat} {f g : Core → Core} (h : f (s.core c) = g (s.core c)) : s.setCore c f = s.setCore c g := by
  rw [State.setCore, State.setCore, lmod_congr fun x hx => ?_]
  rwa [State.core, lget_of_getElem? hx] at h

theorem State.setCore_setCore (s : State) (c : Nat) (f g : Core → Core) : (s.setCore c f).setCore c g = s.setCore c (g ∘ f) := by
  simp only [State.setCore, lmod_lmod]

/-- The keys of a map in canonical form rise. -/
theorem rising_pairwise {α : Type} {m : List (Nat × α)} {lo : Nat} (h : risingFrom lo m = true) :
    m.Pairwise (fun p q => p.1 < q.1) ∧ ∀ p ∈ m, lo ≤ p.1 := by
  induction m generalizing lo with
  | nil => simp
  | cons p m ih =>
    obtain ⟨k, x⟩ := p
    simp only [risingFrom, Bool.and_eq_true, decide_eq_true_eq] at h
    obtain ⟨hp, hm⟩ := ih h.2
    refine ⟨List.pairwise_cons.mpr ⟨fun q hq => hm q hq, hp⟩, fun q hq => ?_⟩
    rcases List.mem_cons.mp hq with rfl | hq
    · exact h.1
    · exact h.1.trans ((Nat.le_succ k).trans (hm q hq))

theorem leastBy_none {α : Type} {key : α → Nat} {xs : List α} (h : leastBy key xs = none) : xs = [] := by
  cases xs with
  | nil => rfl
  | cons a xs =>
    simp only [leastBy] at h
    split at h
    · cases h
    · split at h <;> cases h

theorem leastBy_some {α : Type} {key : α → Nat} {xs : List α} {x : α} (h : leastBy key xs = some x) :
    x ∈ xs ∧ ∀ y ∈ xs, key x ≤ key y := by
  induction xs generalizing x with
  | nil => cases h
  | cons a xs ih =>
    simp only [leastBy] at h
    split at h
    case h_1 hn =>
      cases h
      simp [leastBy_none hn]
    case h_2 b hb =>
      obtain ⟨hmem, hle⟩ := ih hb
      split at h
      case isTrue hlt =>
        cases h
        exact ⟨List.mem_cons_of_mem _ hmem, List.forall_mem_cons.mpr ⟨hlt.le, hle⟩⟩
      case isFalse hlt =>
        cases h
        exact ⟨List.mem_cons_self, List.forall_mem_cons.mpr ⟨le_rfl, fun y hy => (Nat.le_of_not_lt hlt).trans (hle y hy)⟩⟩

/-- An element that comes first among those it is compared with heads a list that rises. -/
theorem head_of_first {α : Type} {l : List (Nat × α)} {p : Nat × α} (hr : l.Pairwise fun a b => a.1 < b.1) (hp : p ∈ l)
    (hle : ∀ r ∈ l, p.1 ≤ r.1) : l.head? = some p := by
  cases l with
  | nil => simp at hp
  | cons a l =>
    rcases List.mem_cons.mp hp with rfl | hp
    · rfl
    · exact absurd ((List.pairwise_cons.mp hr).1 p hp) (Nat.not_lt.mpr (hle a List.mem_cons_self))

/-! ### The winner of a slot (R88) -/

/-- Of the candidates with the earliest ready time, with no YIELD among them, the lowest number wins. -/
theorem winner_first {l : List (Nat × Warp)} {p : Nat × Warp} (hr : l.Pairwise fun a b => a.1 < b.1) (hp : p ∈ l)
    (hmin : ∀ r ∈ l, p.2.readyAt ≤ r.2.readyAt) (htie : ∀ r ∈ l, r.2.readyAt = p.2.readyAt → p.1 ≤ r.1 ∧ r.2.ties = []) :
    winner l = some p := by
  cases hb : leastBy (fun p : Nat × Warp => p.2.readyAt) l with
  | none => simp [leastBy_none hb] at hp
  | some best =>
    obtain ⟨hbest, hle⟩ := leastBy_some hb
    have htime : best.2.readyAt = p.2.readyAt := Nat.le_antisymm (hle p hp) (hmin best hbest)
    have hmem : ∀ r ∈ l.filter (fun q => q.2.readyAt == p.2.readyAt), p.1 ≤ r.1 ∧ r.2.ties = [] := fun r hr => by
      obtain ⟨hrl, hrt⟩ := List.mem_filter.mp hr
      exact htie r hrl (by simpa using hrt)
    have hfind : (l.filter fun q => q.2.readyAt == p.2.readyAt).find? (fun r =>
        !((l.filter fun q => q.2.readyAt == p.2.readyAt).any fun q => r.2.ties.contains q.1)) = some p := by
      have hhead := head_of_first (hr.sublist List.filter_sublist) (List.mem_filter.mpr ⟨hp, by simp⟩) fun r hr => (hmem r hr).1
      obtain ⟨rest, hl⟩ : ∃ rest, l.filter (fun q => q.2.readyAt == p.2.readyAt) = p :: rest := by
        exact List.head?_eq_some_iff.mp hhead
      rw [hl, List.find?_cons_of_pos]
      rw [← hl]
      simp [(hmem p (hl ▸ List.mem_cons_self)).2]
    simp only [winner, hb, htime, hfind]

theorem winner_nil : winner [] = none := rfl

/-- The candidates of a quadrant among which its slot is given: those for which the rack has paid in this cycle, or all (R183). -/
def State.pool (s : State) (c q : Nat) : List (Nat × Warp) :=
  if ((s.candidates c q).filter fun p => (s.core c).grants.any fun g => g.1 == p.1).isEmpty then s.candidates c q
  else (s.candidates c q).filter fun p => (s.core c).grants.any fun g => g.1 == p.1

theorem State.slotWinner_eq (s : State) (c q : Nat) : s.slotWinner c q = winner (s.pool c q) := rfl

theorem State.mem_pool {s : State} {c q : Nat} {r : Nat × Warp} : r ∈ s.pool c q ↔ r ∈ s.candidates c q ∧
    ((∃ g ∈ (s.core c).grants, g.1 = r.1) ∨ ∀ o ∈ s.candidates c q, ∀ g ∈ (s.core c).grants, g.1 ≠ o.1) := by
  rw [State.pool]
  split
  case isTrue he =>
    simp only [List.isEmpty_iff, List.filter_eq_nil_iff, List.any_eq_true, beq_iff_eq, not_exists, not_and] at he
    exact ⟨fun h => ⟨h, .inr he⟩, And.left⟩
  case isFalse he =>
    simp only [List.isEmpty_iff, List.filter_eq_nil_iff, List.any_eq_true, beq_iff_eq, not_forall, not_not] at he
    obtain ⟨o, ho, g, hg, hgo⟩ := he
    simp only [List.mem_filter, List.any_eq_true, beq_iff_eq]
    exact and_congr_right fun _ => ⟨.inl, fun h => h.resolve_right fun hn => hn o ho g hg hgo⟩

theorem State.pool_sublist (s : State) (c q : Nat) : (s.pool c q).Sublist (s.core c).ctx.warps := by
  rw [State.pool]
  split
  · exact List.filter_sublist
  · exact List.filter_sublist.trans List.filter_sublist

/-! ### Heads that are short of bales (R186) -/

/-- No head of the quadrant fails only for want of bales. -/
def State.noneShort (s : State) (c q : Nat) : Prop :=
  ∀ r ∈ (s.core c).ctx.warps, r.1 / 16 = q → s.mayIssue c r.2 = true → ∀ pc i price, s.headOf c r.1 r.2 ≠ .short pc i price

theorem State.noneShort.noteShort {s : State} {c q : Nat} (h : s.noneShort c q) : s.noteShort c q = s := by
  have hnil : s.shortHeads c q = [] := by
    refine List.filterMap_eq_nil_iff.mpr fun r hr => ?_
    split
    · rename_i hc
      cases hh : s.headOf c r.1 r.2 with
      | short pc i price => exact absurd hh (h r hr hc.1 hc.2.1 pc i price)
      | cannot => rfl
      | can price => rfl
    · rfl
  simp only [State.noteShort, hnil, List.foldl_nil]

theorem Core.cancelResv_ctx (k : Core) (p : Payer) (x : Ctx) : Core.cancelResv { k with ctx := x } p = { k.cancelResv p with ctx := x } := by
  simp only [Core.cancelResv]
  split <;> rfl

/-! ### The events -/

/-- What the events of a slot start from: a core that is there, and one of its slots. -/
structure FreeSlot (s : State) (c q : Nat) (sl : Slot) : Prop where
  slot : (s.core c).slots[q]? = some sl
  cur : sl.cur = none
  free : sl.freeAt ≤ s.now c

theorem slotArbitration_busy {s : State} {c q : Nat} {sl : Slot} (hs : (s.core c).slots[q]? = some sl)
    (h : sl.cur ≠ none ∨ s.now c < sl.freeAt) : exec (.slotArbitration c q) s = .next s := by
  change execSlotArbitration c q s = _
  simp only [execSlotArbitration, lget_of_getElem? hs]
  rw [if_pos]
  simpa [Option.isSome_iff_ne_none] using h

theorem FreeSlot.no_winner {s : State} {c q : Nat} {sl : Slot} (h : FreeSlot s c q sl) (hw : (s.noteShort c q).slotWinner c q = none) :
    exec (.slotArbitration c q) s = .next (s.noteShort c q) := by
  change execSlotArbitration c q s = _
  simp only [execSlotArbitration, lget_of_getElem? h.slot, h.cur, Option.isSome_none, Bool.false_or, decide_eq_true_eq,
    if_neg (Nat.not_lt.mpr h.free), hw]

theorem FreeSlot.winner {s : State} {c q : Nat} {sl : Slot} {p : Nat × Warp} (h : FreeSlot s c q sl)
    (hw : (s.noteShort c q).slotWinner c q = some p) : exec (.slotArbitration c q) s =
      .next ((s.noteShort c q).grantSlot c q p.1 (if p.2.esc < 65536 then .word c p.1 else .ev (.escapeIssue c p.1))) := by
  change execSlotArbitration c q s = _
  simp only [execSlotArbitration, lget_of_getElem? h.slot, h.cur, Option.isSome_none, Bool.false_or, decide_eq_true_eq,
    if_neg (Nat.not_lt.mpr h.free), hw]
  split <;> rfl

theorem FreeSlot.stays {s : State} {c q : Nat} {sl : Slot} (h : FreeSlot s c q sl) (hn : s.noneShort c q) (hc : s.candidates c q = []) :
    exec (.slotArbitration c q) s = .next s := by
  have hp : s.pool c q = [] := List.eq_nil_iff_forall_not_mem.mpr fun r hr => by simpa [hc] using (State.mem_pool.mp hr).1
  have hw := h.no_winner (by rw [hn.noteShort, State.slotWinner_eq, hp, winner_nil])
  rwa [hn.noteShort] at hw

/-- A slot given to a warp, as one change of the core (R88). -/
def Core.granting (q w : Nat) (k : Core) : Core :=
  { k with slots := lmod k.slots q fun y => { y with cur := some w },
           ctx := { k.ctx with warps := mmod k.ctx.warps w fun w => { w with run := none } } }

theorem State.grantSlot_eq (s : State) (c q w : Nat) (t : Todo) :
    s.grantSlot c q w t = { (s.setCore c (Core.granting q w)) with agenda := t :: s.agenda } := by
  simp only [State.grantSlot, State.setWarp, State.setCore_setCore]
  rfl

theorem FreeSlot.goes {s : State} {c q : Nat} {sl : Slot} (h : FreeSlot s c q sl) (hn : s.noneShort c q)
    (hr : risingFrom 0 (s.core c).ctx.warps = true) {p : Nat × Warp} (hp : p ∈ s.pool c q)
    (hmin : ∀ r ∈ s.pool c q, p.2.readyAt ≤ r.2.readyAt)
    (htie : ∀ r ∈ s.pool c q, r.2.readyAt = p.2.readyAt → p.1 ≤ r.1 ∧ r.2.ties = []) :
    exec (.slotArbitration c q) s = .next { (s.setCore c (Core.granting q p.1)) with
      agenda := (if p.2.esc < 65536 then .word c p.1 else .ev (.escapeIssue c p.1)) :: s.agenda } := by
  have hw := h.winner (p := p) (by
    rw [hn.noteShort, State.slotWinner_eq, winner_first ((rising_pairwise hr).1.sublist (s.pool_sublist c q)) hp hmin htie])
  rwa [hn.noteShort, State.grantSlot_eq] at hw

/-! ### A head that begins to wait -/

/-- The wait of a warp's head that is short, for another head than it waits for. -/
theorem noteWait_begins {s : State} {c w pc price : Nat} {i : Instr} {wp : Warp} (hw : s.warp? c w = some wp)
    (hb : ∀ b, wp.bwait = some b → (b.pc, b.word, b.price) ≠ (pc, i, price)) (hk : (s.core c).ctx.warps = [(w, wp)]) :
    s.noteWait c w pc i price = s.setCore c fun _ =>
      { (if wp.bwait = none then s.core c else (s.core c).cancelResv (.warp w)) with
        ctx := { (s.core c).ctx with warps := [(w, { wp with bwait := some ⟨s.now c, pc, i, price⟩ })] } } := by
  simp only [State.noteWait, hw, Option.bind_some]
  cases e : wp.bwait with
  | none =>
    refine State.setCore_congr ?_
    simp [hk, mmod, mget?, mset]
  | some b =>
    have hfor : b.isFor pc i price = false := Bool.eq_false_iff.mpr fun ht => hb b e (by simpa [BWait.isFor, and_assoc] using ht)
    simp only [hfor, Bool.false_eq_true, if_false, State.endBWait, State.setWarp, State.setCore_setCore]
    refine State.setCore_congr ?_
    simp [hk, mmod, mget?, mset, Core.cancelResv_ctx]

theorem FreeSlot.waits {s : State} {c q w pc price : Nat} {i : Instr} {wp : Warp} {sl : Slot} (h : FreeSlot s c q sl)
    (hk : (s.core c).ctx.warps = [(w, wp)]) (hq : w / 16 = q) (hm : s.mayIssue c wp = true) (hh : s.headOf c w wp = .short pc i price)
    (hc : (s.noteWait c w pc i price).candidates c q = []) :
    exec (.slotArbitration c q) s = .next (s.noteWait c w pc i price) := by
  have hrun : (s.core c).inRun w = false := by simp [Core.inRun, hq, lget_of_getElem? h.slot, h.cur]
  have hn : s.noteShort c q = s.noteWait c w pc i price := by
    simp only [State.noteShort, State.shortHeads, hk, List.filterMap_cons, List.filterMap_nil, hq, hm, hrun, Bool.not_false, and_self,
      if_true, hh, List.foldl_cons, List.foldl_nil]
  have hp : (s.noteWait c w pc i price).pool c q = [] :=
    List.eq_nil_iff_forall_not_mem.mpr fun r hr => by simpa [hc] using (State.mem_pool.mp hr).1
  rw [h.no_winner (by rw [hn, State.slotWinner_eq, hp, winner_nil]), hn]

/-! ### An escape issue (R84) -/

theorem escapeIssue_next {s : State} {c w : Nat} {wp : Warp} {sl : Slot} (hw : s.warp? c w = some wp) (he : 65536 ≤ wp.esc)
    (hs : (s.core c).slots[w / 16]? = some sl) (hc : sl.cur = some w) :
    exec (.escapeIssue c w) s = .next { s with agenda := .word c w :: s.agenda } := by
  change execEscapeIssue c w s = _
  simp only [execEscapeIssue, hw, lget_of_getElem? hs, hc, ne_eq, not_true_eq_false, or_false, if_neg (Nat.not_lt.mpr he)]

theorem escapeIssue_stays {s : State} {c w : Nat} {wp : Warp} (hw : s.warp? c w = some wp) (he : wp.esc < 65536) :
    exec (.escapeIssue c w) s = .next s := by
  change execEscapeIssue c w s = _
  simp only [execEscapeIssue, hw, he, true_or, if_true]

end Sys2Proof.Machine
end

section
/-! Waits that end and words that are none (R57, R81, R101, R346, R439), for O47. -/

namespace Sys2Proof.Machine

/-! ### A thread becomes READY -/

theorem State.thread?_bind (s : State) (t : TRef) : s.thread? t = (s.warp? t.core t.warp).bind fun w => w.threads[t.lane]? := by
  simp only [State.thread?, State.warp?]
  cases mget? (s.core t.core).ctx.warps t.warp <;> rfl

theorem State.thread?_of_warp {s : State} {t : TRef} {wp : Warp} (hw : s.warp? t.core t.warp = some wp) :
    s.thread? t = wp.threads[t.lane]? := by rw [s.thread?_bind, hw, Option.bind_some]

/-- A warp after a thread of it, `th`, has become READY in cycle `now` (R81, R89). -/
def Warp.woken (w : Warp) (now lane : Nat) (th : Thread) : Warp :=
  { w with threads := lmod w.threads lane fun _ => { th with st := .ready },
           readyAt := if w.threads.any Thread.isReady then w.readyAt else now, ties := if w.threads.any Thread.isReady then w.ties else [] }

/-- The ready time of a warp does not change while another thread of it is READY (R89). -/
theorem Warp.woken_any {w : Warp} {now lane : Nat} {th : Thread} (h : ∃ y ∈ w.threads, y.st = .ready) :
    (w.woken now lane th).readyAt = w.readyAt := by
  obtain ⟨y, hy, hr⟩ := h
  exact if_pos (List.any_eq_true.mpr ⟨y, hy, by simp [Thread.isReady, hr]⟩)

theorem Warp.woken_none {w : Warp} {now lane : Nat} {th : Thread} (h : ∀ y ∈ w.threads, y.st ≠ .ready) :
    (w.woken now lane th).readyAt = now :=
  if_neg fun ha => by
    obtain ⟨y, hy, hr⟩ := List.any_eq_true.mp ha
    exact h y hy (by simpa [Thread.isReady] using hr)

theorem State.setWarp_eq {s : State} {c w : Nat} {wp v : Warp} {f : Warp → Warp} (hw : s.warp? c w = some wp) (hv : f wp = v) :
    s.setWarp c w f = s.setCore c fun k => { k with ctx := { k.ctx with warps := mset k.ctx.warps w v } } := by
  refine State.setCore_congr ?_
  simp only [State.warp?] at hw
  simp only [mmod, hw, hv]

theorem State.wake_eq {s : State} {r : TRef} {wp : Warp} {th : Thread} (hw : s.warp? r.core r.warp = some wp)
    (hth : wp.threads[r.lane]? = some th) (he : th.st ≠ .exited) : s.wake r =
      s.setWarp r.core r.warp fun _ => wp.woken (s.now r.core) r.lane th := by
  have hx : th.isExited = false := by simpa [Thread.isExited] using he
  have hths : lmod wp.threads r.lane (fun th => if th.isExited then th else { th with st := .ready }) =
      lmod wp.threads r.lane fun _ => { th with st := .ready } :=
    lmod_congr fun y hy => by
      obtain rfl : th = y := Option.some.inj (hth.symm.trans hy)
      simp [hx]
  rw [State.setWarp_eq hw rfl, State.wake, State.setWarp_eq hw]
  simp only [hths, Warp.woken]
  split <;> rfl

theorem OnlyCore.setCore (s : State) (c : Nat) (f : Core → Core) : OnlyCore s (s.setCore c f) c :=
  ⟨rfl, rfl, rfl, rfl, fun _ hk => s.core_setCore_ne c _ f hk.symm⟩

/-! ### A nap (R101) -/

theorem napExpiry_waits {s : State} {r : TRef} {th : Thread} {wp : Warp} {e : Nat} (hw : s.warp? r.core r.warp = some wp)
    (hth : wp.threads[r.lane]? = some th) (hst : th.st = .nap e) (he : s.now r.core < e) : exec (.napExpiry r) s = .next s := by
  change execNapExpiry r s = _
  simp only [execNapExpiry, State.thread?_of_warp hw, hth, hst, if_neg (Nat.not_le.mpr he)]

theorem napExpiry_wakes {s : State} {r : TRef} {th : Thread} {wp : Warp} {e : Nat} (hw : s.warp? r.core r.warp = some wp)
    (hth : wp.threads[r.lane]? = some th) (hst : th.st = .nap e) (he : e ≤ s.now r.core) : exec (.napExpiry r) s =
      .next (s.setCore r.core fun k =>
        { k with ctx := { k.ctx with warps := mset k.ctx.warps r.warp (wp.woken (s.now r.core) r.lane th) } }) := by
  change execNapExpiry r s = _
  simp only [execNapExpiry, State.thread?_of_warp hw, hth, hst, if_pos he]
  rw [State.wake_eq hw hth (by simp [hst]), State.setWarp_eq hw rfl]

/-! ### The watchdog (R346) -/

theorem watchdogExpiry_waits {s : State} {r : TRef} {th : Thread} {wp : Warp} (hw : s.warp? r.core r.warp = some wp)
    (hth : wp.threads[r.lane]? = some th)
    (hd : (s.die (r.core / 8)).watchdog = 0 ∨ (s.die (r.core / 8)).ticks ≤ (s.die (r.core / 8)).watchdog + th.waitSince) :
    exec (.watchdogExpiry r) s = .next s := by
  have hdue : s.watchdogDue r th = false := by
    simp only [State.watchdogDue, dieOf, Bool.and_eq_false_iff, bne_eq_false_iff_eq]
    rcases hd with h | h
    · exact .inl (.inl h)
    · exact .inr (decide_eq_false (by omega))
  change execWatchdogExpiry r s = _
  simp only [execWatchdogExpiry, hw, State.thread?_of_warp hw, hth, hdue, Bool.not_false, if_true]

/-- What a thread that waits on a sync word leaves when its wait ends: the access that waits. -/
def State.noAcc (s : State) (id : Nat) : State := { s with accs := s.accs.filter fun b => b.id != id }

theorem watchdogExpiry_sync {s : State} {r : TRef} {th : Thread} {wp : Warp} {id : Nat} (hw : s.warp? r.core r.warp = some wp)
    (hth : wp.threads[r.lane]? = some th) (hst : th.st = .sync id) (h0 : (s.die (r.core / 8)).watchdog ≠ 0)
    (hd : (s.die (r.core / 8)).watchdog + th.waitSince < (s.die (r.core / 8)).ticks) : exec (.watchdogExpiry r) s =
      .next (((s.noAcc id).wake r).takeFault r (th.pc - 8) { Flt.of eWatchdog 0 with kind := 3 }) := by
  have hdue : s.watchdogDue r th = true := by
    simp only [State.watchdogDue, dieOf, hst, TSt.watched, Bool.and_true, Bool.and_eq_true, bne_iff_ne]
    exact ⟨h0, decide_eq_true (by omega)⟩
  change execWatchdogExpiry r s = _
  simp only [execWatchdogExpiry, hw, State.thread?_of_warp hw, hth, hdue, hst, Bool.not_true, Bool.false_eq_true, if_false]
  rfl

/-- A thread whose wait on a sync word the watchdog ends, in a package that has a handler for it. -/
theorem watchdog_traps {s : State} {r : TRef} {th : Thread} {wp : Warp} {id : Nat} (hw : s.warp? r.core r.warp = some wp)
    (hth : wp.threads[r.lane]? = some th) (hst : th.st = .sync id) (hu : th.sLevel = false) (hh : s.Handles wp) (pc : Nat) (f : Flt) :
    let t := ((s.noAcc id).wake r).takeFault r pc f
    t.accs = s.accs.filter (fun b => b.id ≠ id) ∧ (t.mem, t.marks, t.gaps, t.dies, t.stks, t.scores, t.ctl, t.launches) =
      (s.mem, s.marks, s.gaps, s.dies, s.stks, s.scores, s.ctl, s.launches) ∧ (∀ k, k ≠ r.core → t.core k = s.core k) ∧
    t.thread? r = some (.trapped (s.asidRec (s.asidOf wp)).entry pc f th) ∧
    ∀ q : TRef, q.core = r.core → q ≠ r → t.thread? q = s.thread? q := by
  intro t
  have h1 : OnWarp (s.noAcc id) ((s.noAcc id).wake r) r.core r.warp fun _ => wp.woken (s.now r.core) r.lane th := by
    rw [State.wake_eq (s := s.noAcc id) hw hth (by simp [hst])]
    exact .setWarp _ _ _ _
  have hw1 := h1.warp_eq (wp := wp) hw
  have hth1 : (wp.woken (s.now r.core) r.lane th).threads[r.lane]? = some { th with st := .ready } := by
    simp [Warp.woken, lmod_getElem?, hth]
  obtain ⟨hr, ha⟩ := h1.rest.asid
  have hh1 : ((s.noAcc id).wake r).Handles (wp.woken (s.now r.core) r.lane th) := ⟨by rw [hr, ha]; exact hh.en, by rw [hr, ha]; exact hh.noFrame⟩
  have h2 := h1.trans (takeFault_trapped hw1 hth1 hu hh1 pc f)
  have hw2 := h2.warp_eq (wp := wp) hw
  rw [hr, ha] at hw2
  have hdies : t.dies = s.dies := by
    show (((s.noAcc id).wake r).takeFault r pc f).dies = _
    rw [takeFault_eq hw1 hth1 hu hh1]
    rfl
  obtain ⟨hmem, hmarks, hgaps⟩ := h2.rest.memory
  obtain ⟨hstks, -, hscores⟩ := h2.rest.stores
  obtain ⟨hctl, hlaunches, -⟩ := h2.rest.control
  refine ⟨?_, ?_, h2.rest.cores, ?_, fun q hq hne => ?_⟩
  · rw [h2.rest.flight.1]
    exact List.filter_congr fun b _ => by by_cases hb : b.id = id <;> simp [hb]
  · simp only [Prod.mk.injEq]
    exact ⟨hmem, hmarks, hgaps, hdies, hstks, hscores, hctl, hlaunches⟩
  · rw [State.thread?_of_warp hw2]
    simp only [Function.comp_apply, lmod_getElem?, if_true, hth1, Option.map_some]
    rfl
  · obtain ⟨c, w, l⟩ := q
    obtain rfl : c = r.core := hq
    by_cases hqw : w = r.warp
    · subst hqw
      have hl : r.lane ≠ l := fun e => hne (by rw [← e])
      rw [State.thread?_of_warp (t := ⟨r.core, r.warp, l⟩) hw2, State.thread?_of_warp (t := ⟨r.core, r.warp, l⟩) hw]
      simp only [Function.comp_apply, Warp.woken, lmod_getElem?, if_neg hl]
    · rw [State.thread?_bind, State.thread?_bind, h2.rest.warps r.core w fun e => hqw (Prod.mk.inj e).2]
      rfl

/-! ### A word that is none (R57) -/

/-- An issue whose warp changes as a warp of it may: the frame that `Moves` names, from the warp as it stands at the end. -/
theorem moves_of_onWarp {s t : State} {c w : Nat} {wp : Warp} {pc : Nat} {h : Hdr} (hw : s.warp? c w = some wp) {a wp' : Warp}
    (ht : OnWarp s t c w fun _ => wp') (hn : Warp.Near a wp') {ths : List Thread} {th : Nat → Thread → Thread}
    (ha : a = { (Iss.of s c w wp pc h).gone (Iss.of s c w wp pc h).w with threads := ths })
    (hth : ∀ l, ths[l]? = (((Iss.of s c w wp pc h).gone (Iss.of s c w wp pc h).w).thread? l).map (th l)) :
    Moves s t (Iss.of s c w wp pc h) noReg [] th := by
  have hgo := WarpGoesOn.of_rest (x := Iss.of s c w wp pc h) (a := a) (ths := ths) (by rw [ha]; rfl) hn hth
  have hwt := ht.warp_eq hw
  refine ⟨fun n l hs _ _ => ?_, ⟨wp', hwt, hgo.1, ?_⟩, ht.rest⟩
  · show t.reg c w n l = s.reg c w n l
    rw [State.reg_eq hwt, State.reg_eq hw, hn.hold, ha]
    cases n with
    | seed => exact absurd rfl hs
    | _ => rfl
  · rw [hgo.2, ha, List.append_nil]
    rfl

theorem reservedEncoding_traps {s : State} {word : Dword} {c w : Nat} {wp : Warp} {pc : Nat} (ht : s.turn = .warp c w)
    (hw : s.warp? c w = some wp) (hpc : wp.issuePc = some pc) (h : Hdr)
    (hc : ∀ l ∈ (Iss.of s c w wp pc h).set, (Iss.of s c w wp pc h).caught s l) : ∃ t, exec (.reservedEncoding word) s = .next t ∧
      Moves s t (Iss.of s c w wp pc h) noReg [] fun l th =>
        if l ∈ (Iss.of s c w wp pc h).set then (Iss.of s c w wp pc h).handled s 0x01 0 th else th := by
  set x := Iss.of s c w wp pc h with hx
  have he : exec (.reservedEncoding word) s = .next ((((s.setWarp c w fun _ => x.w).advance { x with act := [] }).takeFaults
      { x with act := [] } x.set (.of eIllegal 0)).finish { x with act := [] } (wordHdr word) .trap) := by
    change execReservedEncoding word s = _
    simp only [execReservedEncoding, ht, hw, hpc]
    rfl
  refine ⟨_, he, ?_⟩
  have h1 : OnWarp s ((s.setWarp c w fun _ => x.w).advance { x with act := [] }) c w (x.gone ∘ fun _ => x.w) :=
    (OnWarp.setWarp s c w fun _ => x.w).trans (.setWarp _ _ _ _)
  obtain ⟨hr, ha⟩ := h1.rest.asid
  have hset : x.set.Nodup := Iss.set_nodup s c w wp pc h
  have h2 := h1.trans (takeFaults_trapped { x with act := [] } (.of eIllegal 0) x.w (s.asidRec (s.asidOf x.w)).entry hset _ _
    (h1.warp_eq hw) rfl (by rw [hr, ha]) fun l hl => by
      obtain ⟨hen, hfr, hu⟩ := hc l hl
      exact ⟨⟨by rw [hr, ha]; exact hen, by rw [hr, ha]; exact hfr⟩, gone_user hl hu⟩)
  obtain ⟨wp', hn, h3⟩ := finish_onWarp _ { x with act := [] } (wordHdr word) .trap _ (h2.warp_eq hw)
  refine moves_of_onWarp hw (h2.trans h3) hn rfl fun l => ?_
  rw [eachThread_getElem? hset]
  refine congrArg (Option.map · _) (funext fun t => ?_)
  simp only [Iss.handled, Thread.trapped, record_word (f := .of eIllegal 0) (cls := 0x01) (kind := 0) (info := 0) rfl rfl rfl rfl]

/-! ### The end of an instance of a stack core (R374) -/

/-- A stack core whose running instance is there is one of the package's. -/
theorem State.score_lt {s : State} {n : Nat} {x : Inst} (h : (s.score n).run = some x) : n < s.scores.length := by
  by_contra hn
  simp [State.score, lget, hn, SCore.reset] at h

/-- The end of a halted instance changes its own stack core, which runs nothing once nothing of it is under way. -/
theorem reapScore_eq (s : State) {n : Nat} {x : Inst} (hr : (s.score n).run = some x) (hx : x.halting = true) :
    ∃ f : SCore → SCore, s.reapScore n = s.setScore n f ∧
      (∀ y, (f (s.score n)).run = some y → y = x) ∧ (s.scoreQuiet n = true → (f (s.score n)).run = none) := by
  simp only [State.reapScore, hr, hx, Bool.true_and]
  split
  case isTrue hq => exact ⟨_, rfl, fun _ hy => by simp [SCore.cancelResv, SCore.freeSlots] at hy, fun _ => rfl⟩
  case isFalse hq => exact ⟨id, by rw [State.setScore, lmod_id], fun y hy => (Option.some.inj (hr.symm.trans hy)).symm, fun h => absurd h hq⟩

theorem State.score_modInst {s : State} {n : Nat} {x : Inst} (hr : (s.score n).run = some x) (f : Inst → Inst) :
    (s.modInst n f).score n = { s.score n with run := some (f x) } := by
  rw [State.modInst, State.score_setScore s n n _ (State.score_lt hr), if_pos rfl, hr]
  rfl

/-- A launch that ends of a fault at U level, and goes on at S level (R374). -/
theorem endLaunch_unless (s : State) (sl : Bool) (l cls : Nat) :
    ∃ ls ag, (if sl then s else s.endLaunch l .fault cls) = { s with launches := ls, agenda := ag } ∧
      ∀ i, ({ s with launches := ls, agenda := ag } : State).ends i =
        if sl = false ∧ i = l then (s.ends i).map fun e => some (e.getD (.fault, cls)) else s.ends i := by
  cases sl with
  | true => exact ⟨s.launches, s.agenda, rfl, fun i => rfl⟩
  | false =>
    obtain ⟨ls, ag, he⟩ := s.endLaunch_eq l .fault cls
    exact ⟨ls, ag, he, fun i => by rw [← he, State.ends_endLaunch]; simp⟩

/-- A fault of an instance, in every part of the package. -/
theorem stackFault_ends {s : State} {n : Nat} {x : Inst} (hr : (s.score n).run = some x) (cls : Nat) :
    let t := s.stackFault n x cls
    (t.mem, t.marks, t.gaps, t.dies, t.cores, t.stks, t.rows, t.accs, t.colls) =
      (s.mem, s.marks, s.gaps, s.dies, s.cores, s.stks, s.rows, s.accs, s.colls) ∧
    t.ctl = (s.event 2 cls x.part 3 n (s.stack (n / 4)).ticks x.pc x.idx).ctl ∧ (∀ k, k ≠ n → t.score k = s.score k) ∧
    (∀ y, (t.score n).run = some y → y = { x with halting := true }) ∧
    ((s.score n).psends = [] → (∀ a ∈ s.accs, a.who ≠ .score n) → (t.score n).run = none) ∧
    ∀ i, t.ends i = if x.sLevel = false ∧ i = x.launch then (s.ends i).map fun e => some (e.getD (.fault, cls)) else s.ends i := by
  intro t
  let u := s.event 2 cls x.part 3 n (s.stack (n / 4)).ticks x.pc x.idx
  have hv := State.score_modInst (s := u) hr fun i => { i with halting := true }
  have hn := State.score_lt hr
  obtain ⟨ls, ag, hw, hends⟩ := endLaunch_unless (u.modInst n fun i => { i with halting := true }) x.sLevel x.launch cls
  set w : State := { u.modInst n (fun i => { i with halting := true }) with launches := ls, agenda := ag } with hwd
  have hws : w.score n = { s.score n with run := some { x with halting := true } } := hv
  obtain ⟨f, ht, hrun, hquiet⟩ := reapScore_eq w (n := n) (x := { x with halting := true }) (by rw [hws]) rfl
  have ht : t = w.setScore n f := by
    rw [← ht, ← hw]
    rfl
  have htn : t.score n = f (w.score n) := by
    rw [ht, State.score_setScore w n n f (by simpa [hwd, State.modInst, State.setScore] using (show n < u.scores.length from hn)),
      if_pos rfl]
  rw [ht]
  refine ⟨rfl, rfl, fun k hk => ?_, ?_, fun hp ha => ?_, hends⟩
  · exact (lget_lmod_ne _ _ _ _ _ hk.symm).trans (lget_lmod_ne _ _ _ _ _ hk.symm)
  · rw [← ht, htn]
    exact hrun
  · rw [← ht, htn]
    refine hquiet ?_
    have hacc : w.accs = s.accs := rfl
    simp only [State.scoreQuiet, hws, hp, hacc, List.isEmpty_nil, Bool.true_and, Bool.not_eq_true', List.any_eq_false]
    exact fun a h => by simp [ha a h]

theorem reservedEncoding_ends (word : Dword) : SEnds (.reservedEncoding word) 0x01 fun _ _ _ => True := by
  intro s n x hI _
  have he : exec (.reservedEncoding word) s = .next (s.stackFault n x eIllegal) := by
    change execReservedEncoding word s = _
    simp only [execReservedEncoding, hI.turn, hI.run, hI.goes, Bool.false_eq_true, if_false]
  obtain ⟨hsame, hctl, hothers, hrun, hquiet, hends⟩ := stackFault_ends hI.run eIllegal
  refine ⟨_, he, hsame, hctl, hothers, fun y hy => ?_, hquiet, fun l hl => ?_⟩
  · rw [hrun y hy]
  · have h := hends x.launch
    simp only [State.ends, hl, and_true] at h
    refine h.trans ?_
    cases hx : x.sLevel <;> cases hle : l.ended <;> simp [eIllegal, hle]

end Sys2Proof.Machine
end

section
/-! Warps that retire and held cores that are admitted (R99, R190, R220, R230, R368), for O47. -/

namespace Sys2Proof.Machine

/-! ### Slots that are released (R220, R230) -/

theorem mget?_map {α β : Type} (m : List (Nat × α)) (f : Nat × α → β) (i : Nat) :
    mget? (m.map fun p => (p.1, f p)) i = (mget? m i).map fun x => f (i, x) := by
  induction m with
  | nil => rfl
  | cons p m ih =>
    simp only [List.map_cons, mget?]
    split
    · subst_vars; rfl
    · exact ih

/-- Settling frees slots that are RELEASING, and changes nothing else of a view's slots. -/
theorem Ctx.settle_slots (x : Ctx) {l : Nat} {v : View} (hv : mget? x.views l = some v) :
    ∃ v', mget? x.settle.views l = some v' ∧ v'.slots.length = v.slots.length ∧
      ∀ (n : Nat) (m m' : MSlot), v.slots[n]? = some m → v'.slots[n]? = some m' →
        m' = m ∨ (∃ u, m.st = .releasing u) ∧ m' = { m with st := .free } := by
  simp only [Ctx.settle, mget?_map, hv, Option.map_some]
  refine ⟨_, rfl, by simp, fun n m m' hm hm' => ?_⟩
  simp only [List.getElem?_map, Option.map_eq_some_iff] at hm'
  obtain ⟨q, hq, rfl⟩ := hm'
  obtain ⟨-, hq⟩ := List.getElem?_zip_eq_some.mp hq
  obtain rfl : m = q.2 := Option.some.inj (hm.symm.trans hq)
  split
  case h_1 u hu =>
    split
    · exact .inl rfl
    · exact .inr ⟨⟨u, hu⟩, rfl⟩
  case h_2 => exact .inl rfl

/-- A slot that a warp holds begins its release. -/
def MSlot.release (w upto : Nat) (m : MSlot) : MSlot := if m.st == .claimed w then { m with st := .releasing upto } else m

/-- The context of a core that a warp has left: its place is free, and its slots begin their release. -/
def Ctx.left (x : Ctx) (w launch upto : Nat) : Ctx :=
  Ctx.settle { x with views := mmod x.views launch fun v => { v with slots := v.slots.map (MSlot.release w upto) }, warps := mdel x.warps w }

theorem Ctx.left_slots (x : Ctx) (w upto : Nat) {l : Nat} {v : View} (hv : mget? x.views l = some v) :
    ∃ v', mget? (x.left w l upto).views l = some v' ∧ v'.slots.length = v.slots.length ∧
      ∀ (n : Nat) (m m' : MSlot), v.slots[n]? = some m → v'.slots[n]? = some m' →
        (m'.bytes, m'.side, m'.marks) = (m.bytes, m.side, m.marks) ∧ (m.st = .claimed w → m'.st = .free ∨ m'.st = .releasing upto) ∧
        ∀ u, m.st = .claimed u → u ≠ w → m'.st = m.st := by
  obtain ⟨v', hv', hlen, hslots⟩ := Ctx.settle_slots { x with
    views := mmod x.views l fun v => { v with slots := v.slots.map (MSlot.release w upto) }, warps := mdel x.warps w }
    (l := l) (v := { v with slots := v.slots.map (MSlot.release w upto) }) (by simp [hv])
  refine ⟨v', hv', by simpa using hlen, fun n m m' hm hm' => ?_⟩
  have h := hslots n (m.release w upto) m' (by simp [hm]) hm'
  by_cases hc : m.st = .claimed w
  · have hr : m.release w upto = { m with st := .releasing upto } := by simp [MSlot.release, hc]
    rw [hr] at h
    obtain rfl | ⟨-, rfl⟩ := h
    · exact ⟨rfl, fun _ => .inr rfl, fun u hu hne => absurd (HoldSt.claimed.inj (hu.symm.trans hc)) hne⟩
    · exact ⟨rfl, fun _ => .inl rfl, fun u hu hne => absurd (HoldSt.claimed.inj (hu.symm.trans hc)) hne⟩
  · have hr : m.release w upto = m := by simp [MSlot.release, hc]
    rw [hr] at h
    obtain rfl | ⟨⟨u, hu⟩, rfl⟩ := h
    · exact ⟨rfl, fun h => absurd h hc, fun _ _ _ => rfl⟩
    · exact ⟨rfl, fun h => absurd h hc, fun k hk => by rw [hu] at hk; cases hk⟩

/-! ### A warp goes (R99) -/

/-- A core that a warp has left, as one change. -/
def Core.vacated (w launch upto : Nat) (k : Core) : Core :=
  Core.cancelResv { k with
    slots := lmod k.slots (w / 16) fun sl => { sl with cur := if sl.cur = some w then none else sl.cur },
    ctx := k.ctx.left w launch upto } (.warp w)

theorem State.dropWarp_eq (s : State) (c w : Nat) (wp : Warp) : ∃ f : Core → Core,
    s.dropWarp c w wp = (s.orphan c w wp.launch).fresh.setCore c f ∧ ∀ k, (f k).ctx = k.ctx.left w wp.launch s.nextId := by
  have he : s.dropWarp c w wp = ((s.orphan c w wp.launch).fresh.setCore c (Core.vacated w wp.launch s.nextId)).applyRegulator c := by
    rw [State.dropWarp]
    refine congrArg (State.applyRegulator · c) ?_
    show (((s.orphan c w wp.launch).fresh.setCore c _).setCore c _).setCore c _ = _
    rw [State.setCore_setCore, State.setCore_setCore]
    rfl
  rw [he, State.applyRegulator_eq, State.setCore_setCore]
  refine ⟨_, rfl, fun k => ?_⟩
  exact ((Core.regulated_same ..).2.1).trans ((Core.cancelResv_account (.warp w)).warps _)

/-- What a warp that retires leaves as it was, and its place. -/
theorem dropWarp_leaves {s : State} {c w : Nat} {wp : Warp} (hc : c < s.cores.length) :
    let t := s.dropWarp c w wp
    t.warp? c w = none ∧ (∀ v, v ≠ w → t.warp? c v = s.warp? c v) ∧ (∀ j, j ≠ c → t.core j = s.core j) ∧
      (t.mem, t.marks, t.gaps, t.dies, t.stks, t.rows, t.scores, t.colls, t.turn) =
        (s.mem, s.marks, s.gaps, s.dies, s.stks, s.rows, s.scores, s.colls, s.turn) ∧
      t.accs.map Acc.id = s.accs.map Acc.id ∧ t.launches = s.launches ∧
      (t.core c).ctx = (s.core c).ctx.left w wp.launch s.nextId := by
  intro t
  obtain ⟨f, ht, hf⟩ := s.dropWarp_eq c w wp
  have ht : t = (s.orphan c w wp.launch).fresh.setCore c f := ht
  have hctx : (t.core c).ctx = (s.core c).ctx.left w wp.launch s.nextId := by
    rw [ht, State.core_setCore (s.orphan c w wp.launch).fresh c c f hc, if_pos rfl, hf]
    rfl
  have hwarps (v : Nat) : t.warp? c v = mget? (mdel (s.core c).ctx.warps w) v := by
    rw [State.warp?, hctx]
    rfl
  refine ⟨?_, fun v hv => ?_, fun j hj => ?_, by rw [ht]; rfl, ?_, by rw [ht]; rfl, hctx⟩
  · rw [hwarps, mget?_mdel, if_pos rfl]
  · rw [hwarps, mget?_mdel, if_neg hv.symm, State.warp?]
  · rw [ht, State.core_setCore_ne _ c j f hj.symm]
    rfl
  · rw [ht]
    show (s.accs.map _).map Acc.id = _
    rw [List.map_map]
    refine List.map_congr_left fun a _ => ?_
    simp only [Function.comp_apply]
    split
    · split <;> rfl
    · rfl

/-! ### The launch of a warp that retires (R368) -/

theorem launch?_endLaunch {s : State} {i : Nat} {l : Launch} (hl : s.launch? i = some l) (st : LStat) (n : Nat) :
    (s.endLaunch i st n).launch? i = some { l with ended := if l.ended = none then some (st, n) else l.ended } := by
  by_cases he : l.ended = none
  · rw [State.endLaunch_live hl he, if_pos he]
    simp only [State.launch?] at hl
    simp [State.launch?, State.post, State.setLaunch, hl]
  · rw [State.endLaunch_over (fun x hx => by rwa [Option.some.inj (hx.symm.trans hl)]), hl, if_neg he]

theorem launch?_tryEnd {s : State} {i : Nat} {l : Launch} (hl : s.launch? i = some l) : (s.tryEnd i).launch? i =
    some { l with ended := if l.ended = none ∧ l.grid ≤ l.admitted ∧ l.live = 0 then some (if l.poisoned then .poisoned else .ok, 0)
      else l.ended } := by
  simp only [State.tryEnd, hl]
  by_cases h : l.ended = none ∧ l.grid ≤ l.admitted ∧ l.live = 0
  · obtain ⟨he, hg, hz⟩ := h
    simp only [he, hg, hz, Option.isNone_none, decide_true, beq_self_eq_true, Bool.and_self, if_true, launch?_endLaunch hl, and_self]
  · have hb : (l.ended.isNone && decide (l.grid ≤ l.admitted) && l.live == 0) = false := by
      simpa [and_assoc, Option.isNone_iff_eq_none] using h
    simp only [hb, Bool.false_eq_true, if_false, hl, if_neg h]

theorem State.tryEnd_eq (s : State) (i : Nat) : ∃ ls ag, s.tryEnd i = { s with launches := ls, agenda := ag } := by
  simp only [State.tryEnd]
  split
  · exact ⟨_, _, rfl⟩
  · split
    exacts [s.endLaunch_eq _ _ _, ⟨_, _, rfl⟩]

/-- What becomes of a launch whose warp retires with the deferred faults `ds`: the oldest of them ends it, or it may be over. -/
def State.endRetired (s : State) (i : Nat) (ds : List Deferred) : State :=
  match leastBy (fun d : Deferred => d.cmd) ds with
  | some d => s.endLaunch i .fault d.code
  | none => s.tryEnd i

theorem State.endRetired_eq (s : State) (i : Nat) (f : Launch → Launch) (ds : List Deferred) :
    ∃ ls ag, (s.setLaunch i f).endRetired i ds = { s with launches := ls, agenda := ag } := by
  rw [State.endRetired]
  split
  exacts [(s.setLaunch i f).endLaunch_eq _ _ _, (s.setLaunch i f).tryEnd_eq _]

theorem launch?_endRetired {s : State} {i : Nat} {l : Launch} (hl : s.launch? i = some l) (ds : List Deferred) :
    ∃ e, (s.endRetired i ds).launch? i = some { l with ended := e } ∧
      (∀ d, d ∈ ds → (∀ e ∈ ds, e = d ∨ d.cmd < e.cmd) → l.ended = none → e = some (.fault, d.code)) ∧
      (ds = [] → e = if l.ended = none ∧ l.grid ≤ l.admitted ∧ l.live = 0 then some (if l.poisoned then .poisoned else .ok, 0)
        else l.ended) := by
  rw [State.endRetired]
  cases hd : leastBy (fun d : Deferred => d.cmd) ds with
  | none =>
    obtain rfl := leastBy_none hd
    exact ⟨_, launch?_tryEnd hl, by simp, fun _ => rfl⟩
  | some d0 =>
    obtain ⟨hmem, hle⟩ := leastBy_some hd
    refine ⟨_, launch?_endLaunch hl _ _, fun d hd hlt he => ?_, fun h => by simp [h] at hmem⟩
    obtain rfl := (hlt d0 hmem).resolve_right (Nat.not_lt.mpr (hle d hd))
    exact if_pos he

theorem launch?_lessLive {s : State} {i : Nat} {l : Launch} (hl : s.launch? i = some l) :
    (s.setLaunch i fun l => { l with live := l.live - 1 }).launch? i = some { l with live := l.live - 1 } := by
  simp only [State.launch?] at hl
  simp [State.launch?, State.setLaunch, hl]

/-! ### WARP_RETIRE (R99) -/

/-- The work of a warp is over: its threads have exited, and no command, store or GIVE of its own is left. -/
def State.workOver (s : State) (c w : Nat) (wp : Warp) : Prop :=
  (∀ th ∈ wp.threads, th.st = .exited) ∧ wp.copyOut = [] ∧ wp.matOut = [] ∧ wp.collOut = [] ∧ wp.sq = [] ∧
    ∀ g ∈ (s.die (c / 8)).gives, ¬(g.core = c ∧ g.warp = w ∧ g.launch = wp.launch)

theorem State.retirable_iff (s : State) (c w : Nat) (wp : Warp) : s.retirable c w wp = true ↔ s.workOver c w wp := by
  simp [State.retirable, State.workOver, Thread.isExited, dieOf, and_assoc]

theorem warpRetire_stays {s : State} {c w : Nat} {wp : Warp} (hw : s.warp? c w = some wp) (h : ¬s.workOver c w wp) :
    exec (.warpRetire c w) s = .next s := by
  have hr : s.retirable c w wp = false := Bool.eq_false_iff.mpr fun hr => h ((s.retirable_iff c w wp).mp hr)
  change execWarpRetire c w s = _
  simp only [execWarpRetire, hw, hr, Bool.not_false, if_true]

theorem warpRetire_goes {s : State} {c w : Nat} {wp : Warp} (hw : s.warp? c w = some wp) (h : s.workOver c w wp) :
    exec (.warpRetire c w) s = .next (((s.dropWarp c w wp).setLaunch wp.launch fun l => { l with live := l.live - 1 }).endRetired
      wp.launch wp.deferred) := by
  have hr : s.retirable c w wp = true := (s.retirable_iff c w wp).mpr h
  change execWarpRetire c w s = _
  simp only [execWarpRetire, hw, hr, Bool.not_true, Bool.false_eq_true, if_false]
  rfl

/-! ### MASS_RELEASE_ADMIT (R190) -/

/-- How far a core of a die stands behind NEXTCORE in the rotation. -/
def Ring.far (r : Ring) (i : Nat) : Nat := (i + 8 - r.nextCore % 8) % 8

theorem massRelease_stays {s : State} {k : Nat} (h : (s.die k).ring.admitted = some s.clock ∨
    ((s.die k).ring.step ≠ 0 ∧ (s.die k).ring.limit ≤ (s.die k).ring.spent) ∨ ∀ i < 8, i ∉ (s.die k).ring.heldCores) :
    exec (.massReleaseAdmit k) s = .next s := by
  change execMassReleaseAdmit k s = _
  simp only [execMassReleaseAdmit]
  split
  · rfl
  · have hnone : ((upFrom 0 8).map fun j => ((s.die k).ring.nextCore + j) % 8).find? (fun c => (s.die k).ring.heldCores.contains c) = none := by
      rename_i hn
      obtain ⟨ha, hl⟩ := not_or.mp hn
      have hheld := (h.resolve_left ha).resolve_left hl
      refine List.find?_eq_none.mpr fun i hi => ?_
      obtain ⟨j, -, rfl⟩ := List.mem_map.mp hi
      simpa using hheld _ (Nat.mod_lt _ (by decide))
    rw [hnone]

/-- The first held core of the rotation. -/
theorem find_held {r : Ring} {c : Nat} (hc : c < 8) (hheld : c ∈ r.heldCores) (hfirst : ∀ i ∈ r.heldCores, i < 8 → r.far c ≤ r.far i) :
    ((upFrom 0 8).map fun j => (r.nextCore + j) % 8).find? (fun c => r.heldCores.contains c) = some c := by
  have hlt : r.far c < 8 := Nat.mod_lt _ (by decide)
  have hget (j : Nat) (hj : j < 8) : ((upFrom 0 8).map fun j => (r.nextCore + j) % 8)[j]? = some ((r.nextCore + j) % 8) := by
    rw [List.getElem?_map, upFrom_getElem? 0 8 j hj, Nat.zero_add, Option.map_some]
  refine List.find?_eq_some_iff_getElem.mpr ⟨by simpa using hheld, r.far c, by simpa using hlt, ?_, fun j hj => ?_⟩
  · refine (List.getElem_eq_iff _).mpr ((hget _ hlt).trans (congrArg some ?_))
    simp only [Ring.far]
    omega
  · have hj8 : j < 8 := hj.trans hlt
    rw [(List.getElem_eq_iff _).mpr (hget j hj8)]
    have hfar : r.far ((r.nextCore + j) % 8) = j := by
      simp only [Ring.far]
      omega
    have hn : (r.nextCore + j) % 8 ∉ r.heldCores := fun hm => by
      have := hfirst _ hm (Nat.mod_lt _ (by decide))
      omega
    simpa using hn

/-- The core that the die admits: its released warps are ready in this cycle. -/
theorem massRelease_admits {s : State} {k c : Nat} (ha : (s.die k).ring.admitted ≠ some s.clock)
    (hl : (s.die k).ring.step = 0 ∨ (s.die k).ring.spent < (s.die k).ring.limit) (hc : c < 8) (hheld : c ∈ (s.die k).ring.heldCores)
    (hfirst : ∀ i ∈ (s.die k).ring.heldCores, i < 8 → (s.die k).ring.far c ≤ (s.die k).ring.far i) : exec (.massReleaseAdmit k) s =
      .next ((s.setCore (8 * k + c) fun x => { x with ctx := { x.ctx with warps := x.ctx.warps.map fun w =>
          (w.1, if w.2.held then { w.2 with held := false, readyAt := s.now (8 * k + c) } else w.2) } }).setDie k fun d =>
        { d with ring := { d.ring with heldCores := d.ring.heldCores.filter (fun i => i ≠ c), nextCore := (c + 1) % 8,
                                       admitted := some s.clock } }) := by
  have hn : ¬((s.die k).ring.admitted = some s.clock ∨ ((s.die k).ring.step ≠ 0 ∧ (s.die k).ring.limit ≤ (s.die k).ring.spent)) := by
    rintro (h | ⟨h0, h⟩)
    · exact ha h
    · exact hl.elim h0 (Nat.not_lt.mpr h)
  have hout (l : List Nat) : markOut l c = l.filter fun i => i ≠ c := List.filter_congr fun i _ => by by_cases hi : i = c <;> simp [hi]
  change execMassReleaseAdmit k s = _
  simp only [execMassReleaseAdmit, if_neg hn, find_held hc hheld hfirst, hout]
  rfl

end Sys2Proof.Machine

open Sys2Proof Sys2Proof.Machine

/-- Settles O47, event by event: the winner of a slot is the head of the pool it is chosen from, and its grant one change of the core; a
wait that ends makes one thread READY; a watchdog's fault and a word that is none reach the handler as one change of a warp, or end an
instance; a warp that retires is one change of its core and one of its launch; of the held cores the first from NEXTCORE is found. -/
theorem issueEvents : Obligations.IssueEvents := by
  refine ⟨fun s c q p sl => ?_, ⟨fun s c w wp hw => ?_, fun s r th wp e hw hth hst => ?_, fun s r th wp id hw hth hst hu hc h8 => ?_,
    fun s word c w wp pc ht hw hpc => ?_, reservedEncoding_ends⟩, fun s c w wp l hw hl hc => ?_, fun s k c => ?_⟩
  · intro k cs none_short pool e hc hs
    refine ⟨fun h => slotArbitration_busy hs h, fun hcur hfree hn hcs => FreeSlot.stays ⟨hs, hcur, hfree⟩ hn hcs,
      fun hcur hfree hn hr hp hmin htie => ?_, ?_⟩
    · exact FreeSlot.goes ⟨hs, hcur, hfree⟩ hn hr (State.mem_pool.mpr hp) (fun r hr => hmin r (State.mem_pool.mp hr))
        fun r hr => htie r (State.mem_pool.mp hr)
    · intro hcur hfree w pc i price hk hq hm hh k0 u hb hu
      have hw : s.warp? c w = some p.2 := by simp [State.warp?, show (s.core c).ctx.warps = _ from hk, mget?]
      have hu' : s.noteWait c w pc i price = u := noteWait_begins hw hb hk
      rw [← hu'] at hu ⊢
      exact FreeSlot.waits ⟨hs, hcur, hfree⟩ hk hq hm hh hu
  · exact ⟨fun he sl hs hcur => escapeIssue_next hw he hs hcur, escapeIssue_stays hw⟩
  · exact ⟨napExpiry_waits hw hth hst, fun he => ⟨_, _, napExpiry_wakes hw hth hst he, .setCore _ _ _,
      by rw [s.core_setCore r.core r.core _ (State.warp?_core_lt hw), if_pos rfl], rfl, Warp.woken_any, Warp.woken_none⟩⟩
  · intro d a
    refine ⟨watchdogExpiry_waits hw hth, fun h0 hd hen hfr => ⟨_, watchdogExpiry_sync hw hth hst h0 hd, ?_⟩⟩
    have h := watchdog_traps hw hth hst hu ⟨hen, hfr⟩ (th.pc - 8) { Flt.of eWatchdog 0 with kind := 3 }
    rwa [Thread.trapped, record_word (cls := 0x0C) (kind := 3) (info := 0) rfl rfl rfl rfl] at h
  · exact reservedEncoding_traps ht hw hpc _
  · intro k over'
    refine ⟨warpRetire_stays hw, fun h => ?_⟩
    obtain ⟨hgone, hwarps, hcores, hsame, haccs, hlaunches, hctx⟩ := dropWarp_leaves (s := s) (w := w) (wp := wp) hc
    obtain ⟨e, hl', hfault, hlast⟩ := launch?_endRetired (launch?_lessLive (s := s.dropWarp c w wp) ((congrArg (mget? · _) hlaunches).trans hl))
      wp.deferred
    obtain ⟨ls, ag, he⟩ := State.endRetired_eq (s.dropWarp c w wp) wp.launch (fun l => { l with live := l.live - 1 }) wp.deferred
    refine ⟨_, _, (warpRetire_goes hw h).trans (congrArg _ he), hgone, hwarps, hcores, hsame, haccs, he ▸ hl', rfl, hfault, fun hd => ?_,
      fun v hv => ?_⟩
    · rw [hlast hd]
      simp only [Nat.sub_eq_zero_iff_le]
    · change ∃ v', mget? ((s.dropWarp c w wp).core c).ctx.views wp.launch = some v' ∧ _
      rw [hctx]
      exact Ctx.left_slots _ w s.nextId hv
  · intro r far
    exact ⟨fun h => massRelease_stays (.inl h), fun h0 hl => massRelease_stays (.inr (.inl ⟨h0, hl⟩)),
      fun h => massRelease_stays (.inr (.inr h)), massRelease_admits⟩
end

section
/-! Integer arithmetic of the vector instructions (R112, R121, R122, R131), for O1 and O2: an element, or a 64-bit value, is what exact
integers come to in that many bits. -/

namespace Sys2Proof.Machine

/-! ### Numbers of some bits -/

theorem sintOf_eq (n x : Nat) : sintOf n x = (BitVec.ofNat n x).toInt := by
  simp only [sintOf, BitVec.toInt, BitVec.toNat_ofNat, Nat.cast_pow, Nat.cast_ofNat]

theorem readInt_eq (u : Bool) (n x : Nat) :
    readInt u n x = if u then ((BitVec.ofNat n x).toNat : Int) else (BitVec.ofNat n x).toInt := by
  rw [readInt, sintOf_eq, BitVec.toNat_ofNat]

theorem wrapInt_eq (n : Nat) (k : Int) : wrapInt n k = (BitVec.ofInt n k).toNat := by
  rw [wrapInt, BitVec.toNat_ofInt, Nat.cast_pow, Nat.cast_ofNat]

theorem ofNat_wrapInt_same (n : Nat) (k : Int) : BitVec.ofNat n (wrapInt n k) = BitVec.ofInt n k := by
  rw [wrapInt_eq, BitVec.ofNat_toNat, BitVec.setWidth_eq]

theorem clampInt_eq {lo hi : Int} (h : lo ≤ hi) (k : Int) : clampInt lo hi k = max lo (min hi k) := by
  unfold clampInt
  split
  · omega
  · split <;> omega

/-- The reduction of an exact result is the statement's `narrowed` (R121). -/
theorem reduceInt_eq (u sat : Bool) (n : Nat) (k : Int) : reduceInt u sat n k = (narrowed u sat n k).toNat := by
  have h1 : (0 : Int) ≤ 2 ^ n - 1 := by have := Int.pow_pos (n := 2) (m := n) (by decide); omega
  have h2 : -(2 : Int) ^ (n - 1) ≤ 2 ^ (n - 1) - 1 := by have := Int.pow_pos (n := 2) (m := n - 1) (by decide); omega
  cases sat <;> cases u <;> simp only [reduceInt, narrowed, wrapInt_eq, clampInt_eq h1, clampInt_eq h2, if_true, Bool.false_eq_true, if_false]

theorem elemInt_eq (u : Bool) (n k : Nat) (v : Word) : elemInt u n k v = readInt u n (v.toNat / 2 ^ (n * k) % 2 ^ n) := by
  have hm : BitVec.ofNat n (v.toNat / 2 ^ (n * k) % 2 ^ n) = v.extractLsb' (n * k) n :=
    BitVec.eq_of_toNat_eq (by rw [BitVec.toNat_ofNat, Nat.mod_mod, BitVec.extractLsb'_toNat, Nat.shiftRight_eq_div_pow])
  rw [readInt_eq, hm, elemInt]

/-! ### A number made of digits -/

/-- Digits of `n` bits, each at its place, sum up to the number that has them. -/
theorem sum_digits (n : Nat) (d : Nat → Nat) (lo m : Nat) :
    ((upFrom lo m).map fun i => d i * 2 ^ (n * i)).sum = 2 ^ (n * lo) * Nat.ofDigits (2 ^ n) ((upFrom lo m).map d) := by
  induction m generalizing lo with
  | zero => rfl
  | succ m ih =>
    simp only [upFrom, List.map_cons, List.sum_cons, Nat.ofDigits_cons, ih]
    ring

theorem sum_digits_lt {n : Nat} {d : Nat → Nat} (hn : 0 < n) (hd : ∀ i, d i < 2 ^ n) (m : Nat) :
    ((upFrom 0 m).map fun i => d i * 2 ^ (n * i)).sum < 2 ^ (n * m) := by
  have h := Nat.ofDigits_lt_base_pow_length (b := 2 ^ n) (l := (upFrom 0 m).map d) (Nat.one_lt_two_pow hn.ne') (by simp [hd])
  rw [sum_digits, Nat.mul_zero, Nat.pow_zero, Nat.one_mul, Nat.pow_mul]
  simpa only [List.length_map, upFrom_length] using h

theorem sum_digits_digit {n : Nat} {d : Nat → Nat} (hd : ∀ i, d i < 2 ^ n) {m k : Nat} (hk : k < m) :
    ((upFrom 0 m).map fun i => d i * 2 ^ (n * i)).sum / 2 ^ (n * k) % 2 ^ n = d k := by
  have hdrop : ((upFrom 0 m).map d).drop k = d k :: ((upFrom 0 m).map d).drop (k + 1) := by
    simp [upFrom_eq, List.drop_eq_getElem_cons, hk]
  rw [sum_digits, Nat.mul_zero, Nat.pow_zero, Nat.one_mul, Nat.pow_mul,
    Nat.ofDigits_div_pow_eq_ofDigits_drop k (Nat.two_pow_pos n) _ (by simp [hd]), hdrop, Nat.ofDigits_cons, Nat.add_mul_mod_self_left,
    Nat.mod_eq_of_lt (hd k)]

/-! ### Element modes (R112, R121) -/

theorem Elem.bits_pos (e : Sys2Proof.Elem) : 0 < Elem.bits e := by cases e <;> decide

/-- Each element of a result is the reduction of the operation's exact value on the elements of the sources. -/
theorem elemOp_extract (e : Sys2Proof.Elem) (u sat : Bool) (f : Int → Int → Int) (a b : Word) {k : Nat}
    (hk : Elem.bits e * (k + 1) ≤ 32) : (elemOp e u sat f a b).extractLsb' (Elem.bits e * k) (Elem.bits e) =
      narrowed u sat (Elem.bits e) (f (elemInt u (Elem.bits e) k a) (elemInt u (Elem.bits e) k b)) := by
  set n := Elem.bits e with hn
  let d (i : Nat) : Nat := reduceInt u sat n
    (f (readInt u n (a.toNat / 2 ^ (n * i) % 2 ^ n)) (readInt u n (b.toNat / 2 ^ (n * i) % 2 ^ n))) % 2 ^ n
  have hd (i : Nat) : d i < 2 ^ n := Nat.mod_lt _ (Nat.two_pow_pos n)
  have hkm : k < 32 / n := (Nat.le_div_iff_mul_le (Elem.bits_pos e)).mpr (by rwa [Nat.mul_comm])
  have hlt := (sum_digits_lt (Elem.bits_pos e) hd (32 / n)).trans_le (Nat.pow_le_pow_right (by decide) (Nat.mul_div_le 32 n))
  have he : elemOp e u sat f a b = BitVec.ofNat 32 ((upFrom 0 (32 / n)).map fun i => d i * 2 ^ (n * i)).sum := rfl
  apply BitVec.eq_of_toNat_eq
  rw [he, BitVec.extractLsb'_toNat, BitVec.toNat_ofNat, Nat.mod_eq_of_lt hlt, Nat.shiftRight_eq_div_pow, sum_digits_digit hd hkm,
    elemInt_eq, elemInt_eq, ← reduceInt_eq]
  exact Nat.mod_eq_of_lt (by rw [reduceInt_eq]; exact BitVec.isLt _)

theorem elementwise_elemOp (e : Sys2Proof.Elem) (u sat : Bool) (f : Int → Int → Int) (a b : Word) :
    elementwise e u sat f a b [⟨elemOp e u sat f a b, Elem.tag e⟩] := ⟨_, rfl, fun _ hk => elemOp_extract e u sat f a b hk⟩

/-- The least and the greatest of two, as the model chooses them. -/
theorem pick_min : (fun p q : Int => if q < p then q else p) = min := by funext p q; rw [min_comm, min_def_lt]
theorem pick_max : (fun p q : Int => if p < q then q else p) = max := by funext p q; rw [max_def_lt]

/-! ### 64-bit values (R122, R131) -/

theorem pair64_eq (v : Nat) : pair64 v = halves (BitVec.ofNat 64 v) .i32 .i32 := by
  have low : (BitVec.ofNat 64 v).extractLsb' 0 32 = BitVec.ofNat 32 v := BitVec.eq_of_toNat_eq (by
    rw [BitVec.extractLsb'_toNat, BitVec.toNat_ofNat, BitVec.toNat_ofNat, Nat.shiftRight_zero]
    omega)
  have high : (BitVec.ofNat 64 v).extractLsb' 32 32 = BitVec.ofNat 32 (v / 2 ^ 32) := BitVec.eq_of_toNat_eq (by
    rw [BitVec.extractLsb'_toNat, BitVec.toNat_ofNat, BitVec.toNat_ofNat, Nat.shiftRight_eq_div_pow]
    omega)
  rw [pair64, halves, low, high]

theorem widened_eq (u : Bool) (v : Word) : widened u v = BitVec.ofInt 64 (readInt u 32 v.toNat) := by
  rw [readInt_eq, BitVec.ofNat_toNat, BitVec.setWidth_eq]
  cases u with
  | true => rw [widened, if_pos rfl, if_pos rfl, BitVec.ofInt_natCast, BitVec.ofNat_toNat]
  | false => rfl

theorem mulHigh_eq (u : Bool) (p q : Word) : mulHigh u p q = (widened u p * widened u q).extractLsb' 32 32 := by
  rw [mulHigh, widened_eq, widened_eq, ← BitVec.ofInt_mul, wrapInt_eq, BitVec.extractLsb', Nat.shiftRight_eq_div_pow]

theorem ofInt_pair (x : Iss) (a : Src) (l : Nat) : BitVec.ofInt 64 (x.pair a l : Int) = x.val64 a l := by
  rw [BitVec.ofInt_natCast, x.pair_eq, BitVec.ofNat_toNat, BitVec.setWidth_eq]

/-- A 64-bit result that wraps. -/
theorem pair64_wrapInt (k : Int) : pair64 (wrapInt 64 k) = halves (BitVec.ofInt 64 k) .i32 .i32 := by
  rw [pair64_eq, ofNat_wrapInt_same]

theorem readInt_pair (u : Bool) (x : Iss) (a : Src) (l : Nat) :
    readInt u 64 (x.pair a l) = if u then ((x.val64 a l).toNat : Int) else (x.val64 a l).toInt := by
  rw [readInt_eq, x.pair_eq, BitVec.ofNat_toNat, BitVec.setWidth_eq]

theorem ofInt_mul_two_pow (k : Int) (n : Nat) : BitVec.ofInt 64 (k * 2 ^ n) = BitVec.ofInt 64 k <<< n := by
  have h : BitVec.ofInt 64 (2 ^ n) = BitVec.twoPow 64 n := BitVec.eq_of_toNat_eq (by
    rw [BitVec.toNat_twoPow, show (2 : Int) ^ n = ((2 ^ n : Nat) : Int) by norm_num, BitVec.ofInt_natCast, BitVec.toNat_ofNat])
  rw [BitVec.ofInt_mul, h, BitVec.shiftLeft_eq_mul_twoPow]

/-! ### Whole instructions -/

/-- The result of two sources is a function of their values. -/
theorem Computes.of_two {i : Instr} {d : Dst} {a b : Src} (lat : Nat) {tags : List Tag} {tag : Tag} {f : Word → Word → Word}
    (g : Word → Word → Word) (he : ∀ s, exec i s = issue i s (Machine.op2 lat d tags tag (rd1 a) (rd1 b) f)) (h : ∀ p q, f p q = g p q) :
    Computes i d 1 (fun x l => x.holds a 0 l tags ∧ x.holds b 0 l tags) fun x l rs => rs = [⟨g (x.val a 0 l) (x.val b 0 l), tag⟩] :=
  .op2 lat tags tag _ _ f he (fun _ _ hok => hok) fun _ _ _ => congrArg (fun v => [(⟨v, tag⟩ : Reg)]) (h _ _)

/-- So is that of a source and an immediate, which satisfies every check. -/
theorem Computes.of_imm {i : Instr} {d : Dst} {a : Src} (lat : Nat) {tags : List Tag} {tag : Tag} (k : Word) {f : Word → Word → Word}
    (g : Word → Word) (he : ∀ s, exec i s = issue i s (Machine.op2 lat d tags tag (rd1 a) (fun _ _ => immOpd k) f)) (h : ∀ p, f p k = g p) :
    Computes i d 1 (fun x l => x.holds a 0 l tags) fun x l rs => rs = [⟨g (x.val a 0 l), tag⟩] :=
  .op2 lat tags tag _ _ f he (fun _ _ hok => ⟨hok, .inl rfl⟩) fun _ _ _ => congrArg (fun v => [(⟨v, tag⟩ : Reg)]) (h _)

/-- An instruction of two sources in an element mode (R121). -/
theorem Computes.of_elements {i : Instr} {d : Dst} {a b : Src} {e : Sys2Proof.Elem} {u sat : Bool} {f : Int → Int → Int}
    (g : Int → Int → Int) (he : ∀ s, exec i s = issue i s (elemArith d (rd1 a) (rd1 b) e u sat f)) (h : f = g) :
    Computes i d 1 (fun x l => x.holds a 0 l (Elem.tags e) ∧ x.holds b 0 l (Elem.tags e))
      fun x l => elementwise e u sat g (x.val a 0 l) (x.val b 0 l) :=
  .op2 2 _ _ _ _ _ he (fun _ _ hok => hok) fun _ _ _ => h ▸ elementwise_elemOp e u sat f _ _

/-- And of one. -/
theorem Computes.of_element {i : Instr} {d : Dst} {a : Src} {e : Sys2Proof.Elem} {f : Int → Int → Int} (g : Int → Int → Int)
    (he : ∀ s, exec i s = issue i s (Machine.op1 2 d (Elem.tags e) (Elem.tag e) (rd1 a) fun v => elemOp e false false f v 0)) (h : f = g) :
    Computes i d 1 (fun x l => x.holds a 0 l (Elem.tags e)) fun x l => elementwise e false false g (x.val a 0 l) 0 :=
  .op1 2 _ _ _ _ he (fun _ _ hok => hok) fun _ _ _ => h ▸ elementwise_elemOp e false false f _ _

end Sys2Proof.Machine

open Sys2Proof Sys2Proof.Machine

/-- Settles O1: an element of a result is a digit of the number that the model sums up, and that digit is the reduction of the exact
value. -/
theorem integerElements : Obligations.IntegerElements := by
  intro h d a b e u sat imm
  refine ⟨.of_elements _ (fun _ => rfl) rfl, .of_elements _ (fun _ => rfl) rfl, .of_elements _ (fun _ => rfl) pick_min,
    .of_elements _ (fun _ => rfl) pick_max, .of_element _ (fun _ => rfl) ?_, .of_element _ (fun _ => rfl) rfl,
    .of_imm 2 _ (fun p => p + imm.signExtend 32) (fun _ => rfl) fun p => elemOp_add p _,
    .of_imm 2 _ (fun p => BitVec.ofInt 32 (min p.toInt imm.toInt)) (fun _ => rfl) fun p => ?_,
    .of_imm 2 _ (fun p => BitVec.ofInt 32 (max p.toInt imm.toInt)) (fun _ => rfl) fun p => ?_⟩
  · funext p _
    exact (Int.abs_eq_natAbs p).symm
  · rw [pick_min, elemOp_i32, BitVec.toInt_signExtend_of_le (by decide)]
  · rw [pick_max, elemOp_i32, BitVec.toInt_signExtend_of_le (by decide)]

/-- Settles O2: products and sums are taken of exact integers, and 64 bits of them are those of the 64-bit operations. -/
theorem productsAndAddresses : Obligations.ProductsAndAddresses := by
  intro h d a b c u sat sh imm
  refine ⟨.of_two 4 (fun p q => p * q) (fun _ => rfl) fun _ _ => rfl, .of_imm 4 _ (fun p => p * imm.signExtend 32) (fun _ => rfl) fun _ => rfl,
    .of_two 4 (fun p q => (widened u p * widened u q).extractLsb' 32 32) (fun _ => rfl) (mulHigh_eq u),
    .of_perLane 4 _ (fun _ => rfl) fun x l ⟨ha, hb, hc⟩ => ⟨_, rfl, rfl, computed_good x _ l _ _ ?_⟩,
    .of_perLane 4 _ (fun _ => rfl) fun x l ⟨ha, hb, hc0, hc1⟩ => ⟨_, rfl, ?_, computed_good x _ l _ _ ?_⟩,
    .of_perLane 3 _ (fun _ => rfl) fun x l ⟨ha0, ha1, hb0, hb1⟩ => ⟨_, rfl, ?_, computed_good x _ l _ _ ?_⟩,
    .of_perLane 2 _ (fun _ => rfl) fun x l ⟨ha0, ha1, hb⟩ => ⟨_, rfl, ?_, computed_good x _ l _ _ ?_⟩⟩
  · simpa only [List.forall_mem_cons] using ⟨ha, hb, hc, by simp⟩
  · rw [pair64_wrapInt, BitVec.ofInt_add, BitVec.ofInt_mul, ← widened_eq, ← widened_eq, ofInt_pair]
    rfl
  · simpa only [List.forall_mem_cons] using ⟨ha, hb, hc0, hc1, by simp⟩
  · rw [pair64_eq, reduceInt_eq, BitVec.ofNat_toNat, BitVec.setWidth_eq, readInt_pair, readInt_pair]
    cases u <;> rfl
  · simpa only [List.forall_mem_cons] using ⟨ha0, ha1, hb0, hb1, by simp⟩
  · rw [pair64_wrapInt, BitVec.ofInt_add, ofInt_pair, ofInt_mul_two_pow, ← widened_eq]
    rfl
  · simpa only [List.forall_mem_cons] using ⟨ha0, ha1, hb, by simp⟩
end

section
/-! Bits (R123, R124), for O3 and O4: what each bit of a shift, of a bit field and of a reversal is, and what the counts count. -/

namespace Sys2Proof.Machine

/-! ### Numbers by their bits -/

theorem bitAt_testBit (x i : Nat) : bitAt x i = x.testBit i := by
  rw [bitAt, Nat.testBit_eq_decide_div_mod_eq]
  rfl

theorem fld_extractLsb' {w : Nat} (v : BitVec w) {hi lo n : Nat} (h : hi + 1 - lo = n) : fld v.toNat hi lo = (v.extractLsb' lo n).toNat := by
  rw [fld, h, BitVec.extractLsb'_toNat, Nat.shiftRight_eq_div_pow]

/-- Bits summed up, each at its place, are the bits of a number. -/
theorem sum_bits_testBit (b : Nat → Bool) {m k : Nat} (hk : k < m) :
    ((upFrom 0 m).map fun i => if b i then 2 ^ i else 0).sum.testBit k = b k := by
  have hd (i : Nat) : (b i).toNat < 2 ^ 1 := Bool.toNat_lt (b i)
  have hs : ((upFrom 0 m).map fun i => if b i then 2 ^ i else 0) = (upFrom 0 m).map fun i => (b i).toNat * 2 ^ (1 * i) :=
    List.map_congr_left fun i _ => by cases b i <;> simp
  have h := sum_digits_digit hd hk
  rw [Nat.one_mul, Nat.pow_one] at h
  rw [hs, Nat.testBit_eq_decide_div_mod_eq, h]
  cases b k <;> rfl

/-- A register whose bits are listed. -/
theorem ofNat_sum_bits (b : Nat → Bool) {i : Nat} (hi : i < 32) :
    (BitVec.ofNat 32 ((upFrom 0 32).map fun i => if b i then 2 ^ i else 0).sum).getLsbD i = b i := by
  rw [BitVec.getLsbD_ofNat, decide_eq_true hi, Bool.true_and, sum_bits_testBit b hi]

/-! ### Shifts (R123) -/

theorem shlWord_eq (p q : Word) : shlWord p q = p <<< q.toNat := by
  unfold shlWord
  split
  next h => exact (BitVec.shiftLeft_eq_zero h).symm
  next => rfl

theorem shrWord_eq (p q : Word) : shrWord p q = p >>> q.toNat := by
  unfold shrWord
  split
  next h => exact (BitVec.ushiftRight_eq_zero h).symm
  next => rfl

theorem sarWord_eq (p q : Word) : sarWord p q = p.sshiftRight q.toNat := by
  rw [sarWord]
  refine BitVec.eq_of_getLsbD_eq fun i hi => ?_
  rw [BitVec.getLsbD_sshiftRight, BitVec.getLsbD_sshiftRight]
  by_cases h : q.toNat ≤ 32
  · rw [Nat.min_eq_left h]
  · rw [Nat.min_eq_right (by omega), if_neg (by omega), if_neg (by omega)]

/-! ### Bit fields (R124) -/

section
variable (a b c : Word)

/-- The position and the length of a bit field. -/
theorem field_place : fld b.toNat 5 0 = (b.extractLsb' 0 6).toNat ∧ fld b.toNat 13 8 = (b.extractLsb' 8 6).toNat :=
  ⟨fld_extractLsb' b rfl, fld_extractLsb' b rfl⟩

theorem field_bit (p n i : Nat) : (a.toNat / 2 ^ p % 2 ^ n).testBit i = (decide (i < n) && a.getLsbD (p + i)) := by
  rw [Nat.testBit_mod_two_pow, Nat.testBit_div_two_pow, Nat.add_comm]
  rfl

theorem bfxWord_unsigned_bit {i : Nat} (hi : i < 32) : (bfxWord false a b).getLsbD i =
    if i < min (b.extractLsb' 8 6).toNat 32 then a.getLsbD ((b.extractLsb' 0 6).toNat + i) else false := by
  obtain ⟨hp, hn⟩ := field_place b
  simp only [bfxWord, hp, hn, Bool.false_eq_true, if_false]
  generalize (b.extractLsb' 0 6).toNat = p, min (b.extractLsb' 8 6).toNat 32 = n
  by_cases h : n = 0
  · simp [h]
  · rw [if_neg h, BitVec.getLsbD_ofNat, field_bit, decide_eq_true hi, Bool.true_and]
    by_cases hn : i < n <;> simp [hn]

theorem bfxWord_signed_bit {i : Nat} (hi : i < 32) : (bfxWord true a b).getLsbD i =
    if i < min (b.extractLsb' 8 6).toNat 32 then a.getLsbD ((b.extractLsb' 0 6).toNat + i)
    else decide ((b.extractLsb' 8 6).toNat ≠ 0) && a.getLsbD ((b.extractLsb' 0 6).toNat + min (b.extractLsb' 8 6).toNat 32 - 1) := by
  obtain ⟨hp, hn⟩ := field_place b
  simp only [bfxWord, hp, hn, if_true]
  generalize (b.extractLsb' 0 6).toNat = p, (b.extractLsb' 8 6).toNat = m
  by_cases h : min m 32 = 0
  · have hm : m = 0 := by omega
    simp [hm]
  · have hm : m ≠ 0 := by omega
    rw [if_neg h, sintOf_eq, ofNat_wrapInt_same, ← BitVec.signExtend, BitVec.getLsbD_signExtend, decide_eq_true hi, Bool.true_and,
      BitVec.msb_eq_getLsbD_last]
    simp only [BitVec.getLsbD_ofNat, field_bit]
    split
    next hlt => simp [hlt]
    next => simp [hm, show min m 32 - 1 < min m 32 by omega, show p + (min m 32 - 1) = p + min m 32 - 1 by omega]

theorem bfiWord_bit {i : Nat} (hi : i < 32) : (bfiWord a b c).getLsbD i =
    if (b.extractLsb' 0 6).toNat ≤ i ∧ i < (b.extractLsb' 0 6).toNat + min (b.extractLsb' 8 6).toNat 32
    then a.getLsbD (i - (b.extractLsb' 0 6).toNat) else c.getLsbD i := by
  obtain ⟨hp, hn⟩ := field_place b
  simp only [bfiWord, hp, hn, bitAt_testBit]
  generalize (b.extractLsb' 0 6).toNat = p, min (b.extractLsb' 8 6).toNat 32 = n
  have hmask (j : Nat) : ((2 ^ n - 1) * 2 ^ p).testBit j = decide (p ≤ j ∧ j < p + n) := by
    rw [Nat.testBit_mul_two_pow, Nat.testBit_two_pow_sub_one, ← Bool.decide_and]
    exact decide_eq_decide.mpr (by omega)
  have hbits : (fun j => if ((2 ^ n - 1) * 2 ^ p).testBit j = true then (if a.toNat.testBit (j - p) = true then 2 ^ j else 0)
      else if c.toNat.testBit j = true then 2 ^ j else 0) =
      fun j => if (if p ≤ j ∧ j < p + n then a.getLsbD (j - p) else c.getLsbD j) = true then 2 ^ j else 0 := by
    funext j
    simp only [hmask, decide_eq_true_eq]
    split <;> rfl
  rw [hbits, ofNat_sum_bits _ hi]

end

/-! ### Counts and reversal (R123) -/

theorem popCount_eq (a : Word) : popCount a = BitVec.ofNat 32 ((List.range 32).countP fun i => a.getLsbD i) := by
  have h : upFrom 0 32 = List.range 32 := rfl
  simp only [popCount, bitAt_testBit, h, List.countP_eq_length_filter]
  rfl

theorem bitReverse_eq (a : Word) : bitReverse a = a.reverse := by
  have hrev : (upFrom 0 32).reverse = (upFrom 0 32).map (31 - ·) := rfl
  have hbits : (upFrom 0 32).map ((fun i => if a.toNat.testBit i then 2 ^ (31 - i) else 0) ∘ (31 - ·)) =
      (upFrom 0 32).map fun i => if a.getMsbD i then 2 ^ i else 0 := List.map_congr_left fun i hi => by
    have hlt : i < 32 := by have := upFrom_ge _ _ _ hi; omega
    simp only [Function.comp_apply, BitVec.getMsbD, hlt, decide_true, Bool.true_and, show 31 - (31 - i) = i by omega]
    rfl
  simp only [bitReverse, bitAt_testBit]
  rw [← List.sum_reverse, ← List.map_reverse, hrev, List.map_map, hbits]
  exact BitVec.eq_of_getLsbD_eq fun i hi => by rw [ofNat_sum_bits _ hi, BitVec.getLsbD_reverse]

theorem leadZeros_counts (a : Word) : ∃ n, n ≤ 32 ∧ leadZeros a = BitVec.ofNat 32 n ∧ (∀ i < n, a.getMsbD i = false) ∧
    (n < 32 → a.getMsbD n = true) := by
  refine ⟨_, ?_, rfl, ?_⟩
  · split <;> omega
  by_cases h : a = 0
  · simp [h]
  · have ha : a.toNat ≠ 0 := fun e => h (BitVec.eq_of_toNat_eq e)
    have hlog : a.toNat.log2 < 32 := (Nat.log2_lt ha).mpr a.isLt
    rw [if_neg h]
    refine ⟨fun i hi => ?_, fun _ => ?_⟩
    · rw [BitVec.getMsbD, BitVec.getLsbD, Nat.testBit_lt_two_pow ((Nat.log2_lt ha).mp (by omega)), Bool.and_false]
    · rw [BitVec.getMsbD, BitVec.getLsbD, decide_eq_true (by omega), Bool.true_and, show 32 - 1 - (31 - a.toNat.log2) = a.toNat.log2 by omega,
        Nat.testBit_log2 ha]

/-! ### Whole instructions -/

/-- A bitwise instruction of two sources (R112, R123): any tag but POISON is accepted, and the result is RAW. -/
theorem Computes.of_bitwise {i : Instr} {d : Dst} {a b : Src} {f : Word → Word → Word} {res : Word → Word → List Reg → Prop}
    (he : ∀ s, exec i s = issue i s (bitwise d (rd1 a) (rd1 b) f)) (h : ∀ p q, res p q [⟨f p q, .raw⟩]) :
    Computes i d 1 (fun x l => x.plain a 0 l ∧ x.plain b 0 l) fun x l => res (x.val a 0 l) (x.val b 0 l) :=
  .op2 2 anyTag .raw _ _ f he (fun _ _ hok => ⟨hok.1.fits, hok.2.fits⟩) fun _ _ _ => h _ _

/-- And of a source and an immediate. -/
theorem Computes.of_bitwise_imm {i : Instr} {d : Dst} {a : Src} {k : Word} {f : Word → Word → Word} {res : Word → Word → List Reg → Prop}
    (he : ∀ s, exec i s = issue i s (bitwise d (rd1 a) (fun _ _ => immOpd k) f)) (h : ∀ p q, res p q [⟨f p q, .raw⟩]) :
    Computes i d 1 (fun x l => x.plain a 0 l) fun x l => res (x.val a 0 l) k :=
  .op2 2 anyTag .raw _ _ f he (fun _ _ hok => ⟨hok.fits, .inl rfl⟩) fun _ _ _ => h _ _

/-- And of one source. -/
theorem Computes.of_bits {i : Instr} {d : Dst} {a : Src} {tag : Tag} {f : Word → Word} {res : Word → List Reg → Prop}
    (he : ∀ s, exec i s = issue i s (Machine.op1 2 d anyTag tag (rd1 a) f)) (h : ∀ p, res p [⟨f p, tag⟩]) :
    Computes i d 1 (fun x l => x.plain a 0 l) fun x l => res (x.val a 0 l) :=
  .op1 2 anyTag tag _ f he (fun _ _ hok => hok.fits) fun _ _ _ => h _

theorem raw_congr {v e : Word} {t : Tag} (h : v = e) : [(⟨v, t⟩ : Reg)] = [⟨e, t⟩] := by rw [h]

end Sys2Proof.Machine

open Sys2Proof Sys2Proof.Machine

/-- Settles O3: the model's shifts cut their counts where more would change nothing. -/
theorem bitwiseAndShifts : Obligations.BitwiseAndShifts := by
  intro h d a b imm two one
  have two_eq {i : Instr} {f g : Word → Word → Word} (he : ∀ s, exec i s = issue i s (bitwise d (rd1 a) (rd1 b) f))
      (hfg : ∀ p q, f p q = g p q) : two i g := .of_bitwise (res := fun p q rs => rs = [⟨g p q, .raw⟩]) he fun p q => raw_congr (hfg p q)
  have one_eq {i : Instr} {f g : Word → Word → Word} (he : ∀ s, exec i s = issue i s (bitwise d (rd1 a) (fun _ _ => immZ imm) f))
      (hfg : ∀ p q, f p q = g p q) : one i g := .of_bitwise_imm (res := fun p q rs => rs = [⟨g p q, .raw⟩]) he fun p q => raw_congr (hfg p q)
  have exact2 {i : Instr} {f : Word → Word → Word} (he : ∀ s, exec i s = issue i s (bitwise d (rd1 a) (rd1 b) f)) : two i f :=
    two_eq he fun _ _ => rfl
  have exact1 {i : Instr} {f : Word → Word → Word} (he : ∀ s, exec i s = issue i s (bitwise d (rd1 a) (fun _ _ => immZ imm) f)) : one i f :=
    one_eq he fun _ _ => rfl
  exact ⟨exact2 fun _ => rfl, exact1 fun _ => rfl, exact2 fun _ => rfl, exact1 fun _ => rfl, exact2 fun _ => rfl, exact1 fun _ => rfl,
    two_eq (f := fun p q => p &&& ~~~q) (fun _ => rfl) fun _ _ => rfl, .of_bits (res := fun p rs => rs = [⟨~~~p, .raw⟩]) (fun _ => rfl) fun _ => rfl,
    two_eq (fun _ => rfl) shlWord_eq, one_eq (fun _ => rfl) shlWord_eq, two_eq (fun _ => rfl) shrWord_eq, one_eq (fun _ => rfl) shrWord_eq,
    two_eq (fun _ => rfl) sarWord_eq, one_eq (fun _ => rfl) sarWord_eq, two_eq (f := rotlWord) (fun _ => rfl) fun _ _ => rfl,
    one_eq (f := rotlWord) (fun _ => rfl) fun _ _ => rfl⟩

/-- Settles O4, bit by bit: a field that is cut out is a number's bits from a place on, one that is put in goes in under a mask, and a
sum of bits has the bits it is made of. -/
theorem bitFieldsAndCounts : Obligations.BitFieldsAndCounts := by
  intro h d a b c signed imm extract
  have hx (signed : Bool) (p q : Word) : extract signed p q [⟨bfxWord signed p q, .raw⟩] := ⟨_, rfl, fun i hi => by
    cases signed with
    | true => exact bfxWord_signed_bit p q hi
    | false => exact bfxWord_unsigned_bit p q hi⟩
  refine ⟨.of_bitwise (fun _ => rfl) (hx signed), .of_bitwise_imm (fun _ => rfl) (hx false),
    .of_perLane 2 _ (fun _ => rfl) fun x l ⟨ha, hb, hc⟩ => ⟨_, rfl, ⟨_, rfl, fun i hi => bfiWord_bit _ _ _ hi⟩, computed_good x _ l _ _ ?_⟩,
    .of_bits (res := fun p rs => rs = [⟨BitVec.ofNat 32 ((List.range 32).countP fun i => p.getLsbD i), .i32⟩]) (fun _ => rfl)
      fun p => raw_congr (popCount_eq p),
    .of_bits (res := fun p rs => ∃ n, n ≤ 32 ∧ rs = [⟨BitVec.ofNat 32 n, .i32⟩] ∧ (∀ i < n, p.getMsbD i = false) ∧
      (n < 32 → p.getMsbD n = true)) (fun _ => rfl) fun p => ?_,
    .of_bits (res := fun p rs => rs = [⟨p.reverse, .raw⟩]) (fun _ => rfl) fun p => raw_congr (bitReverse_eq p)⟩
  · simpa only [List.forall_mem_cons] using ⟨ha.fits, hb.fits, hc.fits, by simp⟩
  · obtain ⟨n, hn, hv, hzero, hone⟩ := leadZeros_counts p
    exact ⟨n, hn, raw_congr hv, hzero, hone⟩
end

section
/-! Movement, compares, predicates and votes (R125 to R130), for O5 and O6. -/

namespace Sys2Proof.Machine

/-! ### Copies (R125, R127, R129, R130) -/

/-- A register of a source with its tag, as a copy takes it. -/
def Iss.reg (x : Iss) (a : Src) (k l : Nat) : Reg := ⟨x.val a k l, (x.src a k l).tag⟩

theorem copyRegs_length (x : Iss) (a : Src) (n l : Nat) : (copyRegs x a n l).length = n := by rw [copyRegs, List.length_map, upFrom_length]

theorem copyRegs_getElem? (x : Iss) (a : Src) {n k : Nat} (l : Nat) (h : k < n) : (copyRegs x a n l)[k]? = some (x.reg a k l) := by
  rw [copyRegs, List.getElem?_map, upFrom_getElem? 0 n k h, Nat.zero_add]
  rfl

theorem copyRegs_one (x : Iss) (a : Src) (l : Nat) : copyRegs x a 1 l = [x.reg a 0 l] := rfl

/-- The lane that SHFL reads (R129). -/
theorem shflLane_eq (w seg : Nat) (m : ShflMode) (l n : Nat) : shflLane w seg m l n =
    let sz := if seg = 0 then w else min w (2 ^ seg)
    let sb := l / sz * sz
    match m with
    | .idx => sb + n % sz
    | .up => if n ≤ l - sb then l - n else l
    | .down => if l + n < sb + sz then l + n else l
    | .xor => sb + ((l - sb) ^^^ (n % sz)) := by
  cases m <;> simp only [shflLane, Nat.div_mul_self_eq_mod_sub_self]

/-- The upper bits of an integer by MOVHI (R125). -/
theorem movhi_eq (imm : BitVec 24) (v : Word) : (imm.zeroExtend 32 <<< 8) ||| (v &&& 0xFF) = imm ++ v.extractLsb' 0 8 := by
  have hlow : v.toNat &&& 255 = v.toNat % 2 ^ 8 := Nat.and_two_pow_sub_one_eq_mod v.toNat 8
  have himm := imm.isLt
  apply BitVec.eq_of_toNat_eq
  rw [toNat_append_sum, BitVec.extractLsb'_toNat, BitVec.toNat_or, BitVec.toNat_shiftLeft, BitVec.toNat_setWidth, BitVec.toNat_and,
    show (0xFF : Word).toNat = 255 from rfl, hlow, Nat.mod_eq_of_lt (b := 2 ^ 32) (himm.trans (by decide)), Nat.shiftLeft_eq,
    Nat.mod_eq_of_lt (b := 2 ^ 32) (by omega), ← Nat.shiftLeft_eq, ← Nat.shiftLeft_add_eq_or_of_lt (Nat.mod_lt _ (by decide))]
  rfl

/-! ### Compares (R119, R126) -/

theorem icond_holds (c : Sys2Proof.ICond) (u : Bool) (m n : Word) : ICond.holds c (readInt u 32 m.toNat) (readInt u 32 n.toNat) =
    match c with
    | .eq => m == n
    | .ne => m != n
    | .lt => if u then m.ult n else m.slt n
    | .le => if u then m.ule n else m.sle n
    | .gt => if u then n.ult m else n.slt m
    | .ge => if u then n.ule m else n.sle m := by
  have hu (k : Word) : readInt u 32 k.toNat = if u then (k.toNat : Int) else k.toInt := by
    rw [readInt_eq, BitVec.ofNat_toNat, BitVec.setWidth_eq]
  rw [hu, hu]
  cases u <;> cases c <;>
    simp [ICond.holds, BitVec.ult, BitVec.ule, BitVec.slt, BitVec.sle, BitVec.toInt_inj, BitVec.toNat_inj, Bool.beq_eq_decide_eq, bne]

/-! ### Votes (R128) -/

/-- Bodies that agree on an issue, in the state in which it starts them, give the same answer. -/
theorem issue_congr {s : State} {i : Instr} {h : Hdr} {c w : Nat} {wp : Warp} {pc : Nat} (hI : Issues s i h c w wp pc)
    {f g : Iss → State → Eff}
    (hfg : f (Iss.of s c w wp pc h) (s.opened (Iss.of s c w wp pc h) i) = g (Iss.of s c w wp pc h) (s.opened (Iss.of s c w wp pc h) i)) :
    issue i s f = issue i s g := by
  rw [issue_next hI, issue_next hI, hfg]

/-- How many registers a vote writes. -/
def voteLength (width : Nat) (m : VoteMode) : Nat := if m = .ballot then width / 32 else 1

theorem voteRegs_length (x : Iss) (p : Pred) (m : VoteMode) : (voteRegs x p m).length = voteLength x.w.width m := by
  cases m <;> simp [voteRegs, voteLength, one32, upFrom_length]

/-- The body of a vote. -/
def voteBody (d : Dst) (p : Pred) (m : VoteMode) (x : Iss) : State → Eff :=
  perLane (.fixed 3) (dstNames d (voteLength x.w.width m)) (fun x _ => .of (voteRegs x p m)) x

theorem exec_vote (h : Hdr) (d : Dst) (p : Pred) (m : VoteMode) (s : State) :
    exec (.vote h d p m) s = issue (.vote h d p m) s (voteBody d p m) := rfl

theorem voteRegs_tag (x : Iss) (p : Pred) (m : VoteMode) : ∀ r ∈ voteRegs x p m, r.tag = .i32 := by
  cases m <;> simp [voteRegs, one32]

/-- A vote lands the same registers in each guard-true thread. -/
theorem vote_lands {s : State} {h hd : Hdr} {d : Dst} {p : Pred} {m : VoteMode} {c w : Nat} {wp : Warp} {pc : Nat}
    (hI : Issues s (.vote h d p m) hd c w wp pc) : ∃ t, exec (.vote h d p m) s = .next t ∧ Lands s t (Iss.of s c w wp pc hd)
      ((Iss.of s c w wp pc hd).puts (dstNames d (voteLength wp.width m)) (fun _ => voteRegs (Iss.of s c w wp pc hd) p m) fun _ => none)
      [] := by
  rw [exec_vote, issue_congr hI (f := voteBody d p m)
    (g := perLane (.fixed 3) (dstNames d (voteLength wp.width m)) fun x _ => .of (voteRegs x p m)) rfl]
  exact perLane_lands hI 3 d _ _ _ _ (fun _ _ => rfl) fun _ _ => voteRegs_length _ p m

theorem voteRegs_ballot {x : Iss} {p : Pred} {k i : Nat} {v : Reg} (hi : i < 32) (hv : (voteRegs x p .ballot)[k]? = some v) :
    v.val.getLsbD i = (decide (32 * k + i ∈ x.act) && x.pred p (32 * k + i)) := by
  simp only [voteRegs, List.getElem?_map, Option.map_eq_some_iff] at hv
  obtain ⟨j, hj, rfl⟩ := hv
  have hk : k < x.w.width / 32 := by
    have := (List.getElem?_eq_some_iff.mp hj).1
    rwa [upFrom_length] at this
  obtain rfl : k = j := by rw [upFrom_getElem? 0 _ k hk, Nat.zero_add] at hj; exact Option.some.inj hj
  exact (ofNat_sum_bits (fun i => x.act.contains (32 * k + i) && x.pred p (32 * k + i)) hi).trans
    (by rw [List.contains_eq_mem])

theorem voteRegs_bit {b : Bool} {q : Prop} [Decidable q] (h : b = true ↔ q) :
    (one32 (if b then 1 else 0) .i32).map Reg.val = [if q then 1 else 0] := by
  simp only [one32, List.map_cons, List.map_nil, h]

theorem all_same_iff (xs : List Nat) (f : Nat → Bool) :
    (xs.all f || xs.all fun l => !f l) = true ↔ ∀ l ∈ xs, ∀ k ∈ xs, f l = f k := by
  simp only [Bool.or_eq_true, List.all_eq_true, Bool.not_eq_true']
  constructor
  · rintro (h | h) l hl k hk <;> rw [h l hl, h k hk]
  · intro h
    cases xs with
    | nil => simp
    | cons a xs =>
      cases e : f a
      · exact .inr fun l hl => (h l hl a List.mem_cons_self).trans e
      · exact .inl fun l hl => (h l hl a List.mem_cons_self).trans e

end Sys2Proof.Machine

open Sys2Proof Sys2Proof.Machine

/-- Settles O5: each word lands its lanes' registers, copied whole, tag and all, from its own lane or from the one that R129 gives. -/
theorem movement : Obligations.Movement := by
  intro h d a b p neg w imm seg m reg
  refine ⟨.of_perLane 2 _ (fun _ => rfl) fun x l _ => ⟨_, copyRegs_length x a _ l, fun k hk => copyRegs_getElem? x a l hk, rfl⟩,
    .of_perLane 2 _ (fun _ => rfl) fun x l _ => ⟨_, copyRegs_length x _ 1 l, ?_, rfl⟩,
    .of_perLane 2 _ (fun _ => rfl) fun x l _ => ⟨_, rfl, rfl, rfl⟩,
    .op1 2 intTags .i32 _ _ (fun _ => rfl) (fun x l h => h) fun x l _ => raw_congr (movhi_eq imm _),
    .of_perLane 4 _ (fun _ => rfl) fun x l _ => ⟨_, rfl, rfl, rfl⟩,
    .of_perLane 6 _ (fun _ => rfl) fun x l _ => ⟨_, rfl, ?_, rfl⟩⟩
  · rw [copyRegs_one]
    cases x.pred p l <;> cases neg <;> rfl
  · rw [copyRegs_one, shflLane_eq]
    rfl

/-- Settles O6: each word decides its predicate lane by lane; a vote is one value for the whole issue, so every lane gives the same
registers and the ballot's bits are those of the guard-true lanes. -/
theorem predicatesAndVotes : Obligations.PredicatesAndVotes := by
  refine ⟨fun h pd p q a b u c => ⟨?_, .of_perLane 2 _ (fun _ => rfl) fun _ _ _ => rfl, .of_perLane 2 _ (fun _ => rfl) fun _ _ _ => rfl,
    .of_perLane 2 _ (fun _ => rfl) fun _ _ _ => rfl, .of_perLane 2 _ (fun _ => rfl) fun _ _ _ => rfl⟩, fun h d p m s c w wp pc hI => ?_⟩
  · refine .of_perLane 2 _ (fun _ => rfl) fun x l ⟨ha, hb⟩ => ?_
    exact (compared_good pd _ _ (fits_both ha hb)).trans (congrArg (LaneRes.flag pd) (icond_holds c u _ _))
  · intro x
    obtain ⟨t, ht, hL⟩ := vote_lands hI
    refine ⟨t, voteRegs x p m, ht, hL, voteRegs_length x p m, voteRegs_tag x p m, ?_⟩
    cases m with
    | ballot => exact fun k i v hi hv => voteRegs_ballot hi hv
    | any => exact voteRegs_bit (by simp)
    | all => exact voteRegs_bit (by simp)
    | eq => exact voteRegs_bit (all_same_iff _ _)
end

section
/-! POISON and tags in the threads of one issue (R113, R148, R437), for O17: the threads of an instruction that computes thread by thread
each have their own result, a fault in some and POISON in others; and the events are counted at the core. -/

namespace Sys2Proof.Machine

/-! ### The count of poison events (R453) -/

theorem State.warp?_poison (s : State) (c n k v : Nat) : (s.poison c n).warp? k v = s.warp? k v := by
  unfold State.poison
  split
  · rfl
  · exact s.warp?_setCore c k v fun _ => rfl

theorem State.asid_poison (s : State) (c n : Nat) : (s.poison c n).asidRec = s.asidRec ∧ (s.poison c n).asidOf = s.asidOf := by
  unfold State.poison
  split <;> exact ⟨rfl, rfl⟩

/-- A core that has counted some poison events. -/
def Core.counted (n : Nat) (k : Core) : Core := { k with poisonCnt := k.poisonCnt + BitVec.ofNat 32 n }

/-- What an issue leaves as it was does not depend on a count before it. -/
theorem Elsewhere.poison {s t : State} {c w : Nat} (h : Elsewhere s t c w) (n : Nat) (hc : c < s.cores.length ↔ c < t.cores.length) :
    Elsewhere (s.poison c n) (t.poison c n) c w := by
  by_cases hn : n = 0
  · simpa only [State.poison, hn, if_true] using h
  · have hp (u : State) : u.poison c n = u.setCore c (Core.counted n) := if_neg hn
    rw [hp, hp]
    refine ⟨h.memory, h.stores, h.control, h.flight, h.clocks, h.walks, h.die, fun k => ?_, fun k hk => ?_, fun k v hk => ?_⟩
    · rw [State.core_setCore_eq, State.core_setCore_eq]
      by_cases hkc : c = k
      · subst hkc
        simp only [true_and, hc]
        split
        · exact congrArg (Core.counted n) (h.core c)
        · exact h.core c
      · simp only [hkc, false_and, if_false, h.core k]
    · rw [State.core_setCore_ne _ _ _ _ hk.symm, State.core_setCore_ne _ _ _ _ hk.symm, h.cores k hk]
    · rw [State.warp?_setCore _ _ _ _ fun x => (rfl : (Core.counted n x).ctx = x.ctx),
        State.warp?_setCore _ _ _ _ fun x => (rfl : (Core.counted n x).ctx = x.ctx), h.warps k v hk]

theorem OnWarp.poison {s t : State} {c w : Nat} {g : Warp → Warp} {wp : Warp} (h : OnWarp s t c w g) (hw : s.warp? c w = some wp) (n : Nat) :
    OnWarp (s.poison c n) (t.poison c n) c w g :=
  ⟨by rw [State.warp?_poison, State.warp?_poison, h.warp],
    h.rest.poison n (iff_of_true (State.warp?_core_lt hw) (State.warp?_core_lt (h.warp_eq hw)))⟩

/-! ### Faults thread by thread (R437) -/

/-- A thread that takes a fault into its handler, if there is one to take. -/
def Thread.faulted (entry pc : Nat) (f : Option Flt) (t : Thread) : Thread := f.elim t fun f => t.trapped entry pc f

/-- The lanes of a list take their faults, in order. -/
def State.takeEach (s : State) (x : Iss) (flt : Nat → Option Flt) (ls : List Nat) : State :=
  ls.foldl (fun s l => (flt l).elim s fun f => s.takeFault (x.ref l) x.pc f) s

theorem takeEach_faulted (x : Iss) (flt : Nat → Option Flt) (wp : Warp) (entry : Nat) {ls : List Nat} (hd : ls.Nodup) (s : State) (v : Warp)
    (hw : s.warp? x.core x.warp = some v) (hv : v.launch = wp.launch) (he : (s.asidRec (s.asidOf wp)).entry = entry)
    (hu : ∀ l ∈ ls, flt l ≠ none → s.Handles wp ∧ ∃ th, v.threads[l]? = some th ∧ th.sLevel = false) :
    OnWarp s (s.takeEach x flt ls) x.core x.warp
      fun v => { v with threads := eachThread ls (fun l => Thread.faulted entry x.pc (flt l)) v.threads } := by
  induction ls generalizing s v with
  | nil => exact .refl s _ _
  | cons l ls ih =>
    obtain ⟨hl, hd⟩ := List.nodup_cons.mp hd
    have h1 : OnWarp s ((flt l).elim s fun f => s.takeFault (x.ref l) x.pc f) x.core x.warp
        fun v => { v with threads := lmod v.threads l (Thread.faulted entry x.pc (flt l)) } := by
      cases hf : flt l with
      | none =>
        have hid : (fun v : Warp => { v with threads := lmod v.threads l id }) = id := by simp only [lmod_id]; rfl
        exact hid ▸ .refl s x.core x.warp
      | some f =>
        exact takeFaults_trapped x f wp entry (List.nodup_singleton l) s v hw hv he fun k hk => by
          obtain rfl := List.mem_singleton.mp hk
          exact hu k List.mem_cons_self (by simp [hf])
    obtain ⟨hr, ho⟩ := h1.rest.asid
    refine h1.trans (ih hd _ _ (h1.warp_eq hw) hv (by rw [hr, ho]; exact he) fun k hk hf => ?_)
    have hne : l ≠ k := fun e => hl (e ▸ hk)
    obtain ⟨⟨hen, hfr⟩, tk, htk, hsk⟩ := hu k (List.mem_cons_of_mem _ hk) hf
    exact ⟨⟨by rw [hr, ho]; exact hen, by rw [hr, ho]; exact hfr⟩, tk, by rw [lmod_getElem?, if_neg hne, htk], hsk⟩

/-- The results of threads commit: values, then the count, then the faults. -/
theorem commit_each (s : State) (x : Iss) (lat : Lat) (names : List RName) (f : Nat → LaneRes) (ls : List Nat) :
    (s.commit x lat names (ls.map fun l => (l, f l))).s =
      ((s.putRegs x lat (writesOf names (ls.map fun l => (l, f l)))).poison x.core
        (ls.filter fun l => (f l).fault.isNone && (f l).pois).length).takeEach x (fun l => (f l).fault) ls := by
  have hstep : (fun (s : State) l => match (f l).fault with
      | some g => s.takeFault (x.ref l) x.pc g
      | none => s) = fun s l => ((f l).fault).elim s fun g => s.takeFault (x.ref l) x.pc g := by
    funext s l
    cases (f l).fault <;> rfl
  simp only [State.commit, List.foldl_map, List.filter_map, List.length_map, State.takeEach, Function.comp_def]
  exact congrArg (fun g => ls.foldl g _) hstep

/-- What is written comes from the threads without a fault. -/
theorem writesOf_sound (names : List RName) (rs : List (Nat × LaneRes)) :
    writesOf names rs = writesOf names (rs.filter fun r => r.2.fault.isNone) := by
  have hok : rs.filter (fun r => r.2.fault.isNone && !r.2.regs.isEmpty) =
      (rs.filter fun r => r.2.fault.isNone).filter fun r => r.2.fault.isNone && !r.2.regs.isEmpty := by
    rw [List.filter_filter]
    exact List.filter_congr fun r _ => by cases r.2.fault.isNone <;> simp
  simp only [writesOf, ← hok, List.filter_filter, Bool.and_self]

/-- A thread's result without its poison event. -/
def LaneRes.uncounted (r : LaneRes) : LaneRes := { r with pois := false }

/-- What is written does not depend on what is counted. -/
theorem writesOf_uncounted (names : List RName) (rs : List (Nat × LaneRes)) :
    writesOf names (rs.map fun r => (r.1, r.2.uncounted)) = writesOf names rs := by
  simp only [writesOf, List.filter_map, Function.comp_def, List.flatMap_map, LaneRes.uncounted, ← List.map_take, ← apply_ite (List.map _)]

/-- So it is what the same results put without their events. -/
theorem writesOf_each (names : List RName) (f : Nat → LaneRes) (val : Nat → List Reg) (pr : Nat → Option (Pred × Bool)) (ls : List Nat)
    (hf : ∀ l ∈ ls, (f l).fault = none → f l = { LaneRes.clean (val l) (pr l) with pois := (f l).pois }) :
    writesOf names (ls.map fun l => (l, f l)) =
      writesOf names ((ls.filter fun l => (f l).fault.isNone).map fun l => (l, LaneRes.clean (val l) (pr l))) := by
  have hclean : (ls.filter fun l => (f l).fault.isNone).map (fun l => (l, (f l).uncounted)) =
      (ls.filter fun l => (f l).fault.isNone).map fun l => (l, LaneRes.clean (val l) (pr l)) := List.map_congr_left fun l hl => by
    obtain ⟨hl, hn⟩ := List.mem_filter.mp hl
    rw [hf l hl (Option.isNone_iff_eq_none.mp hn)]
    rfl
  rw [writesOf_sound, List.filter_map, ← writesOf_uncounted, List.map_map, ← hclean]
  rfl

/-! ### A whole issue -/

theorem Warp.threads_of_rest {a b : Warp} (h : a.rest = b.rest) : a.threads = b.threads :=
  calc a.threads = a.rest.threads := rfl
    _ = b.threads := by rw [h]; rfl

/-- From the end of the body of an issue `y` to its end, for a body that from `u` changes the warp by `g`: what `Moves` names, for the
issue with its warp as `v0`. -/
theorem moves_of_ended {u : State} {y : Iss} {v v0 : Warp} {i : Instr} {h : Hdr} {e : Eff} {g : Warp → Warp}
    {put : RName → Nat → Option Reg} {th : Nat → Thread → Thread} {ths : List Thread} (hv : u.warp? y.core y.warp = some v)
    (he : OnWarp u e.s y.core y.warp g) (hg : (g v).rest = { (Iss.gone { y with w := v0 } v0).rest with threads := ths })
    (hth : ∀ l, ths[l]? = ((Iss.gone { y with w := v0 } v0).thread? l).map (th l))
    (hput : ∀ n l, n ≠ .seed → l < 128 → (∀ k, n = .p k → k < 8) → (g v).hold n l = (put n l).getD (v.hold n l)) :
    Moves u (State.ended y i h e) { y with w := v0 } put [] th := by
  obtain ⟨wp', hn, hend⟩ := ended_onWarp y i h e (g v) (he.warp_eq hv)
  have ht := he.trans hend
  have hwt : (State.ended y i h e).warp? y.core y.warp = some wp' := ht.warp_eq hv
  have hpend : (g v).pend = v0.pend :=
    calc (g v).pend = (g v).rest.pend := rfl
      _ = v0.pend := by rw [hg]; rfl
  obtain ⟨hgo, hp⟩ := WarpGoesOn.of_rest (x := { y with w := v0 }) (a := g v) (wp' := wp') (th := th) (ths := ths)
    (by rw [hg, hpend]; rfl) hn hth
  refine ⟨fun n l hs hl hk => ?_, ⟨wp', hwt, hgo, by rw [hp, hpend, List.append_nil]⟩, ht.rest⟩
  show (State.ended y i h e).reg y.core y.warp n l = (put n l).getD (u.reg y.core y.warp n l)
  rw [State.reg_eq hwt, State.reg_eq hv, hn.hold, hput n l hs hl hk]

/-- The issue with the lanes alone in which a result has no fault. -/
def Iss.sound (x : Iss) (f : Iss → Nat → LaneRes) : Iss := { x with act := x.act.filter fun l => (f x l).fault.isNone }

/-- How many threads without a fault meet POISON. -/
def Iss.poisons (x : Iss) (f : Iss → Nat → LaneRes) : Nat := ((x.sound f).act.filter fun l => (f x l).pois).length

/-- The values that the threads without a fault write. -/
def Iss.writes (x : Iss) (f : Iss → Nat → LaneRes) (d : Dst) (n : Nat) (val : Nat → List Reg) (pr : Nat → Option (Pred × Bool)) : List Wb :=
  writesOf (dstNames d n) ((x.sound f).act.map fun l => (l, LaneRes.clean (val l) (pr l)))

/-- The warp of an issue after the results of its threads: `entry` is that of its handler. -/
def Iss.committed (x : Iss) (f : Iss → Nat → LaneRes) (ready : Wb → Nat) (vals : List Wb) (entry : Nat) (v : Warp) : Warp :=
  { v.writeAll ready vals with threads := eachThread x.act (fun l => .faulted entry x.pc (f x l).fault) (v.writeAll ready vals).threads }

/-- What `f` gives in each guard-true thread that does not fault: registers for a destination, and a predicate. -/
def Iss.gives (x : Iss) (f : Iss → Nat → LaneRes) (n : Nat) (val : Nat → List Reg) (pr : Nat → Option (Pred × Bool)) : Prop :=
  ∀ l ∈ x.act, (f x l).fault = none → (val l).length = n ∧ f x l = { LaneRes.clean (val l) (pr l) with pois := (f x l).pois }

/-- The body of an instruction that computes thread by thread, after the count of its poison events. -/
theorem perLane_onWarp {x : Iss} {u : State} {v : Warp} {f : Iss → Nat → LaneRes} {n : Nat} {val : Nat → List Reg}
    {pr : Nat → Option (Pred × Bool)} (lat : Nat) (d : Dst) (entry : Nat) (hw : u.warp? x.core x.warp = some v) (hnd : x.act.Nodup)
    (hf : x.gives f n val pr) (hfit : ∀ w ∈ x.writes f d n val pr, w.Fits) (he : (u.asidRec (u.asidOf v)).entry = entry)
    (hu : ∀ l ∈ x.act, (f x l).fault ≠ none → u.Handles v ∧ ∃ th, v.threads[l]? = some th ∧ th.sLevel = false) :
    ∃ ready, OnWarp (u.poison x.core (x.poisons f)) (perLane (.fixed lat) (dstNames d n) f x u).s x.core x.warp
      (x.committed f ready (x.writes f d n val pr) entry) := by
  have hbody : (perLane (.fixed lat) (dstNames d n) f x u).s =
      ((u.putRegs x (.fixed lat) (x.writes f d n val pr)).poison x.core (x.poisons f)).takeEach x (fun l => (f x l).fault) x.act := by
    rw [perLane, commit_each, writesOf_each _ _ val pr _ fun l hl hn => (hf l hl hn).2, Iss.poisons, Iss.sound, List.filter_filter]
    simp only [Bool.and_comm]
    rfl
  refine ⟨fun v => x.now + lat + (match v.name with | .w _ => x.w.width / 32 - 1 | _ => 0), ?_⟩
  have hwrite := (OnWarp.setWarp u x.core x.warp fun v => v.writeAll
    (fun v => x.now + lat + (match v.name with | .w _ => x.w.width / 32 - 1 | _ => 0)) (x.writes f d n val pr)).poison hw (x.poisons f)
  have hrest := v.writeAll_rest (fun v => x.now + lat + (match v.name with | .w _ => x.w.width / 32 - 1 | _ => 0)) _ hfit
  have hlaunch := congrArg (fun w : Warp => w.launch) hrest
  obtain ⟨hr, ha⟩ := hwrite.rest.asid
  obtain ⟨hr0, ha0⟩ := u.asid_poison x.core (x.poisons f)
  have hasid := hr.trans hr0
  have hof := ha.trans ha0
  rw [hbody]
  refine hwrite.trans (takeEach_faulted x _ v entry hnd _ _ (hwrite.warp_eq ((u.warp?_poison _ _ _ _).trans hw)) hlaunch
    (by rw [hasid, hof]; exact he) fun l hl hne => ?_)
  obtain ⟨⟨hen, hfr⟩, th, hth, hsl⟩ := hu l hl hne
  exact ⟨⟨by rw [hasid, hof]; exact hen, by rw [hasid, hof]; exact hfr⟩, th, by rw [Warp.threads_of_rest hrest]; exact hth, hsl⟩

/-- An instruction that computes in each thread, with fixed latency: the threads without a fault land their registers, their poison events
are counted, and the others enter their handlers. -/
theorem perLane_moves {s : State} {i : Instr} {h : Hdr} {c w : Nat} {wp : Warp} {pc : Nat} (hI : Issues s i h c w wp pc)
    (lat : Nat) (d : Dst) (n : Nat) (f : Iss → Nat → LaneRes) (val : Nat → List Reg) (pr : Nat → Option (Pred × Bool))
    (hf : (Iss.of s c w wp pc h).gives f n val pr)
    (hc : ∀ l ∈ (Iss.of s c w wp pc h).act, (f (Iss.of s c w wp pc h) l).fault ≠ none → (Iss.of s c w wp pc h).caught s l) :
    ∃ t, issue i s (perLane (.fixed lat) (dstNames d n) f) = .next t ∧
      Moves (s.poison c ((Iss.of s c w wp pc h).poisons f)) t (Iss.of s c w wp pc h)
        (((Iss.of s c w wp pc h).sound f).puts (dstNames d n) val pr) []
        fun l t => if l ∈ (Iss.of s c w wp pc h).act then
          t.faulted (s.asidRec (s.asidOf (Iss.of s c w wp pc h).w)).entry pc (f (Iss.of s c w wp pc h) l).fault else t := by
  refine ⟨_, issue_next hI _, ?_⟩
  have ho := opened_onWarp s (Iss.of s c w wp pc h) i
  have hw := opened_warp hI
  have hnd := Iss.act_nodup s c w wp pc h
  have huser (l : Nat) (hl : l ∈ (Iss.of s c w wp pc h).act) := gone_user (Iss.act_set hl)
  have hact : ∀ l ∈ ((Iss.of s c w wp pc h).sound f).act, l < 128 := fun l hl => Iss.set_lt (Iss.act_set (List.mem_of_mem_filter hl))
  set x := Iss.of s c w wp pc h
  have hlen : ∀ l ∈ (x.sound f).act, (val l).length = n := fun l hl =>
    (hf l (List.mem_of_mem_filter hl) (by simpa using (List.mem_filter.mp hl).2)).1
  have hfit : ∀ v ∈ x.writes f d n val pr, v.Fits := writesOf_fits hact d n val pr hlen
  obtain ⟨hr, ha⟩ := ho.rest.asid
  have hasid : (s.opened x i).asidRec ((s.opened x i).asidOf (x.gone x.w)) = s.asidRec (s.asidOf x.w) := by rw [hr, ha]; rfl
  obtain ⟨ready, hb⟩ := perLane_onWarp lat d (s.asidRec (s.asidOf x.w)).entry hw hnd hf hfit (by rw [hasid]) fun l hl hne => by
    obtain ⟨hen, hfr, hu⟩ := hc l hl hne
    exact ⟨⟨by rw [hasid]; exact hen, by rw [hasid]; exact hfr⟩, huser l hl hu⟩
  have hrest := (x.gone x.w).writeAll_rest ready _ hfit
  let each := eachThread x.act fun l => .faulted (s.asidRec (s.asidOf x.w)).entry x.pc (f x l).fault
  refine moves_of_ended (y := x) (v0 := x.w) (ths := each (x.gone x.w).threads) ((s.warp?_poison c _ c w).trans hI.warp)
    ((ho.poison hI.warp _).trans hb) ?_ (fun l => eachThread_getElem? hnd _ _ l) fun n l hs hl hn => ?_
  · rw [← hrest, ← Warp.threads_of_rest hrest]
    rfl
  · have hh := writesOf_puts hact d _ val pr hlen (x.gone x.w) ready n l hs hl hn
    cases n with
    | seed => exact absurd rfl hs
    | _ => exact hh

/-! ### Where no thread faults -/

/-- Threads without a fault land their registers, and their poison events are counted. -/
theorem perLane_counts {s : State} {i : Instr} {h : Hdr} {c w : Nat} {wp : Warp} {pc : Nat} (hI : Issues s i h c w wp pc)
    (lat : Nat) (d : Dst) (n : Nat) (f : Iss → Nat → LaneRes) (val : Nat → List Reg) (pr : Option (Pred × Bool))
    (hf : ∀ l ∈ (Iss.of s c w wp pc h).act, (val l).length = n ∧ f (Iss.of s c w wp pc h) l = ⟨val l, pr.toList, true, none, none⟩) :
    ∃ t, issue i s (perLane (.fixed lat) (dstNames d n) f) = .next t ∧
      Lands (s.poison c (Iss.of s c w wp pc h).act.length) t (Iss.of s c w wp pc h)
        ((Iss.of s c w wp pc h).puts (dstNames d n) val fun _ => pr) [] := by
  set x := Iss.of s c w wp pc h
  have hnone : ∀ l ∈ x.act, (f x l).fault = none := fun l hl => by rw [(hf l hl).2]
  have hsound : x.sound f = x := by
    have : x.act.filter (fun l => (f x l).fault.isNone) = x.act := List.filter_eq_self.mpr fun l hl => by rw [hnone l hl]; rfl
    rw [Iss.sound, this]
  have hcount : x.poisons f = x.act.length := by
    rw [Iss.poisons, hsound, List.filter_eq_self.mpr fun l hl => by rw [(hf l hl).2]]
  obtain ⟨t, ht, hm⟩ := perLane_moves hI lat d n f val (fun _ => pr)
    (fun l hl _ => ⟨(hf l hl).1, by rw [(hf l hl).2]; rfl⟩) fun l hl hne => absurd (hnone l hl) hne
  rw [hsound, hcount] at hm
  refine ⟨t, ht, ?_⟩
  have hid : (fun (l : Nat) (t : Thread) => if l ∈ x.act then
      t.faulted (s.asidRec (s.asidOf x.w)).entry pc (f x l).fault else t) = fun _ t => t := by
    funext l t
    split
    next hl => rw [hnone l hl]; rfl
    next => rfl
  rw [hid] at hm
  exact hm

/-- A source among these is a register tagged POISON. -/
def Iss.meets (x : Iss) (os : List (Src × Nat)) (l : Nat) : Prop :=
  ∃ o ∈ os, (x.src o.1 o.2 l).konst = false ∧ (x.src o.1 o.2 l).tag = .poison

theorem Iss.meets.pois {x : Iss} {os : List (Src × Nat)} {l : Nat} (h : x.meets os l) {ops : List Opd}
    (hs : ∀ o ∈ os, x.src o.1 o.2 l ∈ ops) : ops.any Opd.pois = true := by
  obtain ⟨o, ho, hk, ht⟩ := h
  exact List.any_eq_true.mpr ⟨_, hs o ho, by simp [Opd.pois, hk, ht]⟩

theorem checkTags_pois {x : Iss} {os : List (Src × Nat)} {l : Nat} {srcs : List (Opd × List Tag)} (h : x.meets os l)
    (hs : ∀ o ∈ os, x.src o.1 o.2 l ∈ srcs.map Prod.fst) : checkTags srcs = .pois := by
  have hp := h.pois hs
  rw [List.any_map] at hp
  exact if_pos hp

theorem computed_pois {x : Iss} {os : List (Src × Nat)} {l : Nat} {names : List RName} {srcs : List (Opd × List Tag)} {f : Unit → List Reg}
    (h : x.meets os l) (hs : ∀ o ∈ os, x.src o.1 o.2 l ∈ srcs.map Prod.fst) :
    computed x names l srcs f = LaneRes.poison x.ticket names l := by
  rw [computed, checkTags_pois h hs]

theorem compared_pois {x : Iss} {os : List (Src × Nat)} {l : Nat} {pd : Pred} {srcs : List (Opd × List Tag)} {f : Unit → Bool}
    (h : x.meets os l) (hs : ∀ o ∈ os, x.src o.1 o.2 l ∈ srcs.map Prod.fst) :
    compared pd srcs f = ⟨[], [(pd, false)], true, none, none⟩ := by
  rw [compared, checkTags_pois h hs]
  rfl

theorem poisRegs_tag {ticket : Nat} {names : List RName} {l : Nat} : ∀ q ∈ poisRegs ticket names l, q.tag = .poison := by
  simp [poisRegs]

/-- Where every guard-true thread of `i` meets POISON in a source, `i` writes POISON to its `n` destination registers (R113). -/
def Spreads (i : Instr) (d : Dst) (n : Nat) (os : List (Src × Nat)) : Prop :=
  ∀ (s : State) (h : Hdr) (c w : Nat) (wp : Warp) (pc : Nat), Issues s i h c w wp pc →
    (∀ l ∈ (Iss.of s c w wp pc h).act, (Iss.of s c w wp pc h).meets os l) →
    ∃ t val, exec i s = .next t ∧ (∀ l ∈ (Iss.of s c w wp pc h).act, (val l).length = n ∧ ∀ q ∈ val l, q.tag = Tag.poison) ∧
      Lands (s.poison c (Iss.of s c w wp pc h).act.length) t (Iss.of s c w wp pc h)
        ((Iss.of s c w wp pc h).puts (dstNames d n) val fun _ => none) []

theorem dstNames_length {d : Dst} (hd : d ≠ .discard) (n : Nat) : (dstNames d n).length = n := by
  cases d with
  | discard => exact absurd rfl hd
  | _ => rw [dstNames, List.length_map, upFrom_length]

theorem Spreads.of_perLane {i : Instr} {d : Dst} {n : Nat} {os : List (Src × Nat)} (lat : Nat) (f : Iss → Nat → LaneRes)
    (he : ∀ s, exec i s = issue i s (perLane (.fixed lat) (dstNames d n) f))
    (hf : ∀ x l, x.meets os l → f x l = LaneRes.poison x.ticket (dstNames d n) l) : Spreads i d n os := by
  intro s h c w wp pc hI hbad
  set x := Iss.of s c w wp pc h
  rcases eq_or_ne d .discard with rfl | hd
  · obtain ⟨t, ht, hL⟩ := perLane_counts hI lat .discard 0 f (fun _ => []) none fun l hl => ⟨rfl, hf x l (hbad l hl)⟩
    refine ⟨t, fun _ => List.replicate n ⟨0, .poison⟩, (he s).trans ht, fun l _ => ⟨List.length_replicate, fun q hq => ?_⟩, ?_⟩
    · rw [List.eq_of_mem_replicate hq]
    · have hput : (x.puts (dstNames .discard n) (fun _ => List.replicate n ⟨0, .poison⟩) fun _ => none) =
          x.puts (dstNames .discard 0) (fun _ => []) fun _ => none := by
        funext m l
        cases m <;> rfl
      exact hput ▸ hL
  · have hlen (l : Nat) : (poisRegs x.ticket (dstNames d n) l).length = n := by simp [poisRegs, dstNames_length hd]
    obtain ⟨t, ht, hL⟩ := perLane_counts hI lat d n f (fun l => poisRegs x.ticket (dstNames d n) l) none fun l hl =>
      ⟨hlen l, hf x l (hbad l hl)⟩
    exact ⟨t, _, (he s).trans ht, fun l _ => ⟨hlen l, poisRegs_tag⟩, hL⟩

theorem Spreads.of_computed {i : Instr} {d : Dst} {n lat : Nat} {os : List (Src × Nat)} {srcs : Iss → Nat → List (Opd × List Tag)}
    {g : Iss → Nat → List Reg} (he : ∀ s, exec i s = issue i s (perLane (.fixed lat) (dstNames d n) fun x l =>
      computed x (dstNames d n) l (srcs x l) fun _ => g x l))
    (hs : ∀ x l, ∀ o ∈ os, x.src o.1 o.2 l ∈ (srcs x l).map Prod.fst) : Spreads i d n os :=
  .of_perLane lat _ he fun x l hm => computed_pois hm (hs x l)

theorem exec_fmax_narrow {f : VFmt} (hf : f ≠ .f64) (h : Hdr) (d : Dst) (a b : Src) (ftz : Bool) (s : State) :
    exec (.fmax h d a b f ftz) s =
      issue (.fmax h d a b f ftz) s (op2 4 d [vfmtTag f] (vfmtTag f) (rd1 a) (rd1 b) (mapFp (vfmt f) (minMaxCode (vfmt f) true ftz))) :=
  congrArg (issue (.fmax h d a b f ftz) s) (if_neg hf)

/-- Where every guard-true thread of the compare `i` meets POISON in a source, its predicate is false (R113). -/
def Denies (i : Instr) (pd : Pred) (os : List (Src × Nat)) : Prop :=
  ∀ (s : State) (h : Hdr) (c w : Nat) (wp : Warp) (pc : Nat), Issues s i h c w wp pc →
    (∀ l ∈ (Iss.of s c w wp pc h).act, (Iss.of s c w wp pc h).meets os l) →
    ∃ t, exec i s = .next t ∧ Lands (s.poison c (Iss.of s c w wp pc h).act.length) t (Iss.of s c w wp pc h)
      ((Iss.of s c w wp pc h).puts [] (fun _ => []) fun _ => some (pd, false)) []

theorem Denies.of_perLane {i : Instr} {pd : Pred} {os : List (Src × Nat)} (lat : Nat) (f : Iss → Nat → LaneRes)
    (he : ∀ s, exec i s = issue i s (perLane (.fixed lat) [] f))
    (hf : ∀ x l, x.meets os l → f x l = ⟨[], [(pd, false)], true, none, none⟩) : Denies i pd os := by
  intro s h c w wp pc hI hbad
  obtain ⟨t, ht, hL⟩ := perLane_counts hI lat .discard 0 f (fun _ => []) (some (pd, false)) fun l hl => ⟨rfl, hf _ l (hbad l hl)⟩
  exact ⟨t, (he s).trans ht, hL⟩

/-! ### IMAD in threads that differ (R113, R437) -/

section
variable (a b e : Src) (x : Iss) (l : Nat)

/-- No source of IMAD is POISON; every one is an integer. -/
abbrev Iss.plain3 : Prop := x.plain a 0 l ∧ x.plain b 0 l ∧ x.plain e 0 l
abbrev Iss.int3 : Prop := x.int a 0 l ∧ x.int b 0 l ∧ x.int e 0 l

/-- The result of IMAD in a thread. -/
def imadLane (names : List RName) : LaneRes :=
  computed x names l [(x.src a 0 l, intTags), (x.src b 0 l, intTags), (x.src e 0 l, intTags)]
    fun _ => one32 (x.val a 0 l * x.val b 0 l + x.val e 0 l) .i32

/-- The field of its first source that is no integer. -/
def badField : Nat := if ¬x.int a 0 l then a.field else if ¬x.int b 0 l then b.field else e.field

theorem exec_imad (h : Hdr) (d : Dst) (s : State) :
    exec (.imad h d a b e) s = issue (.imad h d a b e) s (perLane (.fixed 4) (dstNames d 1) fun x l => imadLane a b e x l (dstNames d 1)) := rfl

variable {a b e x l}

theorem Iss.int.plain (h : x.int a 0 l) : x.plain a 0 l := h.imp id And.right

theorem Iss.int3.plain3 (h : x.int3 a b e l) : x.plain3 a b e l := by
  obtain ⟨ha, hb, he⟩ := h
  exact ⟨Iss.int.plain ha, Iss.int.plain hb, Iss.int.plain he⟩

theorem imadLane_int {names : List RName} (h : x.int3 a b e l) :
    imadLane a b e x l names = LaneRes.clean [⟨x.val a 0 l * x.val b 0 l + x.val e 0 l, .i32⟩] none := by
  obtain ⟨ha, hb, he⟩ := h
  exact computed_good x names l _ _ (by simpa only [List.forall_mem_cons] using ⟨ha, hb, he, by simp⟩)

theorem imadLane_pois {names : List RName} (h : ¬x.plain3 a b e l) : imadLane a b e x l names = LaneRes.poison x.ticket names l := by
  refine computed_pois (os := [(a, 0), (b, 0), (e, 0)]) ?_ (by simp)
  simp only [Iss.plain3, not_and_or, not_or, not_not, Bool.not_eq_true] at h
  simpa [Iss.meets] using h

theorem imadLane_bad {names : List RName} (hp : x.plain3 a b e l) (h : ¬x.int3 a b e l) :
    imadLane a b e x l names = LaneRes.trap (.of eTag (badField a b e x l)) := by
  obtain ⟨pa, pb, pe⟩ := hp
  have hnone : ([(x.src a 0 l, intTags), (x.src b 0 l, intTags), (x.src e 0 l, intTags)].any fun p => p.1.pois) = false := by
    simp [pa.fits.ok.2, pb.fits.ok.2, pe.fits.ok.2]
  have hbad : checkTags [(x.src a 0 l, intTags), (x.src b 0 l, intTags), (x.src e 0 l, intTags)] = .bad (badField a b e x l) := by
    rw [checkTags, hnone, badField]
    by_cases ha : x.int a 0 l
    · have hoka : (x.src a 0 l).ok intTags = true := ha.ok.1
      by_cases hb : x.int b 0 l
      · have hokb : (x.src b 0 l).ok intTags = true := hb.ok.1
        simp [hoka, hokb, pe.not_ok fun he => h ⟨ha, hb, he⟩, ha, hb, x.src_field]
      · simp [hoka, pb.not_ok hb, ha, hb, x.src_field]
    · simp [pa.not_ok ha, ha, x.src_field]
  rw [imadLane, computed, hbad]

theorem badField_lt : badField a b e x l < 2 ^ 16 := by
  unfold badField
  split
  · exact Src.field_lt a
  · split
    · exact Src.field_lt b
    · exact Src.field_lt e

end

theorem lookup_one (a n : RName) (vs : List Reg) : ([a].zip vs).lookup n = if n = a then vs.head? else none := by
  cases vs with
  | nil => simp
  | cons q qs =>
    by_cases h : n = a
    · simp [h]
    · simp [List.lookup_cons, beq_eq_false_iff_ne.mpr h, h]

/-- What an issue puts into one vector register. -/
theorem puts_vreg (x : Iss) (r : Fin 640) (val : Nat → List Reg) (n : RName) (l : Nat) :
    x.puts (dstNames (.v r) 1) val (fun _ => none) n l = if n = .v r.val ∧ l ∈ x.act then (val l).head? else none := by
  have hn : dstNames (.v r) 1 = [.v r.val] := rfl
  rw [hn]
  cases n with
  | v i =>
    simp only [Iss.puts, lookup_one]
    by_cases hl : l ∈ x.act <;> simp [hl]
  | w i => cases hm : x.act.head? <;> simp [Iss.puts, hm, lookup_one]
  | _ => simp [Iss.puts]

/-- What IMAD puts into its register in a lane of an issue. -/
def imadPut (x : Iss) (r : Fin 640) (a b e : Src) (n : RName) (l : Nat) : Option Reg :=
  if n = .v r.val ∧ l ∈ x.act ∧ (imadLane a b e x l (dstNames (.v r) 1)).fault = none then
    (imadLane a b e x l (dstNames (.v r) 1)).regs.head? else none

theorem imadPut_says (x : Iss) (r : Fin 640) (a b e : Src) (n : RName) (l : Nat) :
    (∃ q, imadPut x r a b e n l = some q ∧ n = .v r.val ∧ l ∈ x.act ∧
      (x.plain3 a b e l → x.int3 a b e l ∧ q = ⟨x.val a 0 l * x.val b 0 l + x.val e 0 l, .i32⟩) ∧
      (¬x.plain3 a b e l → q.tag = .poison)) ∨
    (imadPut x r a b e n l = none ∧ (n ≠ .v r.val ∨ l ∉ x.act ∨ (x.plain3 a b e l ∧ ¬x.int3 a b e l))) := by
  by_cases hn : n = .v r.val ∧ l ∈ x.act
  · obtain ⟨hn, hl⟩ := hn
    by_cases hp : x.plain3 a b e l
    · by_cases hi : x.int3 a b e l
      · exact .inl ⟨_, by rw [imadPut, imadLane_int hi, if_pos ⟨hn, hl, rfl⟩]; rfl, hn, hl, fun _ => ⟨hi, rfl⟩, fun h => absurd hp h⟩
      · exact .inr ⟨by rw [imadPut, imadLane_bad hp hi]; exact if_neg fun h => by simp [LaneRes.trap] at h, .inr (.inr ⟨hp, hi⟩)⟩
    · exact .inl ⟨_, by rw [imadPut, imadLane_pois hp, if_pos ⟨hn, hl, rfl⟩]; rfl, hn, hl, fun h => absurd h hp, fun _ => rfl⟩
  · exact .inr ⟨if_neg fun h => hn ⟨h.1, h.2.1⟩, (not_and_or.mp hn).imp id .inl⟩

/-- The threads of IMAD that do not fault, those that meet POISON, and those that fault. -/
theorem imadLane_fault {x : Iss} {a b e : Src} {l : Nat} {names : List RName} :
    ((imadLane a b e x l names).fault ≠ none ↔ x.plain3 a b e l ∧ ¬x.int3 a b e l) ∧
    ((imadLane a b e x l names).pois = true ↔ ¬x.plain3 a b e l) := by
  by_cases hp : x.plain3 a b e l
  · by_cases hi : x.int3 a b e l
    · simp [imadLane_int hi, LaneRes.clean, hp, hi]
    · rw [imadLane_bad hp hi]
      exact ⟨iff_of_true (by simp [LaneRes.trap]) ⟨hp, hi⟩, iff_of_false (by simp [LaneRes.trap]) (not_not.mpr hp)⟩
  · simp [imadLane_pois hp, LaneRes.poison, hp]

/-- The issue of an IMAD whose threads differ. -/
theorem imad_moves {s : State} {h h' : Hdr} {c w : Nat} {wp : Warp} {pc : Nat} {r : Fin 640} {a b e : Src}
    (hI : Issues s (.imad h' (.v r) a b e) h c w wp pc)
    (hc : ∀ l ∈ (Iss.of s c w wp pc h).act, (Iss.of s c w wp pc h).plain3 a b e l → ¬(Iss.of s c w wp pc h).int3 a b e l →
      (Iss.of s c w wp pc h).caught s l) :
    ∃ t n, exec (.imad h' (.v r) a b e) s = .next t ∧
      (∃ ls : List Nat, ls.length = n ∧ ls.Nodup ∧
        ∀ l, l ∈ ls ↔ l ∈ (Iss.of s c w wp pc h).act ∧ ¬(Iss.of s c w wp pc h).plain3 a b e l) ∧
      Moves (s.poison c n) t (Iss.of s c w wp pc h) (imadPut (Iss.of s c w wp pc h) r a b e) []
        fun l t => if l ∈ (Iss.of s c w wp pc h).act ∧ (Iss.of s c w wp pc h).plain3 a b e l ∧ ¬(Iss.of s c w wp pc h).int3 a b e l then
          (Iss.of s c w wp pc h).handled s 0x03 (BitVec.ofNat 16 (badField a b e (Iss.of s c w wp pc h) l)) t else t := by
  let f (x : Iss) (l : Nat) : LaneRes := imadLane a b e x l (dstNames (.v r) 1)
  have hnd := Iss.act_nodup s c w wp pc h
  obtain ⟨t, ht, hm⟩ := perLane_moves hI 4 (.v r) 1 f (fun l => (f (Iss.of s c w wp pc h) l).regs) (fun _ => none)
    (fun l hl hn => by
      by_cases hp : (Iss.of s c w wp pc h).plain3 a b e l
      · have hi : (Iss.of s c w wp pc h).int3 a b e l := by_contra fun hi => imadLane_fault.1.mpr ⟨hp, hi⟩ hn
        simp only [f, imadLane_int hi]
        exact ⟨rfl, rfl⟩
      · simp only [f, imadLane_pois hp]
        exact ⟨rfl, rfl⟩)
    fun l hl hne => by
      obtain ⟨hp, hi⟩ := imadLane_fault.1.mp hne
      exact hc l hl hp hi
  set x := Iss.of s c w wp pc h
  refine ⟨t, x.poisons f, (exec_imad a b e h' (.v r) s).trans ht, ⟨_, rfl, (hnd.filter _).filter _, fun l => ?_⟩, ?_⟩
  · simp only [Iss.sound, List.mem_filter, Option.isNone_iff_eq_none, f, imadLane_fault.2]
    refine ⟨fun h => ⟨h.1.1, h.2⟩, fun h => ⟨⟨h.1, ?_⟩, h.2⟩⟩
    exact by_contra fun hn => h.2 (imadLane_fault.1.mp hn).1
  · have hput : (x.sound f).puts (dstNames (.v r) 1) (fun l => (f x l).regs) (fun _ => none) = imadPut x r a b e := by
      funext n l
      rw [puts_vreg, imadPut]
      simp only [Iss.sound, List.mem_filter, Option.isNone_iff_eq_none, f]
    have hth : (fun (l : Nat) (t : Thread) => if l ∈ x.act then
        t.faulted (s.asidRec (s.asidOf x.w)).entry pc (f x l).fault else t) = fun l t =>
        if l ∈ x.act ∧ x.plain3 a b e l ∧ ¬x.int3 a b e l then x.handled s 0x03 (BitVec.ofNat 16 (badField a b e x l)) t else t := by
      funext l t
      by_cases hl : l ∈ x.act
      · by_cases hb : x.plain3 a b e l ∧ ¬x.int3 a b e l
        · have hrec := record_word (f := .of eTag (badField a b e x l)) (cls := 0x03) (kind := 0)
            (info := BitVec.ofNat 16 (badField a b e x l)) rfl rfl rfl (Nat.mod_eq_of_lt badField_lt).symm
          rw [if_pos hl, if_pos ⟨hl, hb⟩]
          simp only [f, imadLane_bad hb.1 hb.2, LaneRes.trap, Thread.faulted, Option.elim, Thread.trapped, Iss.handled, hrec]
          rfl
        · have hn : (f x l).fault = none := by_contra fun hn => hb (imadLane_fault.1.mp hn)
          rw [if_pos hl, if_neg fun h => hb h.2, hn]
          rfl
      · rw [if_neg hl, if_neg fun h => hl h.1]
    rw [hput, hth] at hm
    exact hm

end Sys2Proof.Machine

open Sys2Proof Sys2Proof.Machine

/-- Settles O17: a word's threads commit together: what those without a fault write, then the count of POISON, then each fault as one
change of its thread; and a POISON source decides the check of tags before any other. -/
theorem poisonAndTagFaults : Obligations.PoisonAndTagFaults := by
  constructor
  · intro s h c w wp pc r a b e hI x ok good hc
    obtain ⟨t, n, ht, hcount, hm⟩ := imad_moves hI hc
    refine ⟨t, _, ht, ⟨n, rfl, hcount⟩, _, hm, fun m l => ?_⟩
    obtain ⟨q, hq, hsome⟩ | ⟨hq, hnone⟩ := imadPut_says x r a b e m l
    · rw [hq]
      exact hsome
    · rw [hq]
      exact hnone
  · intro h d pd a b e el r u sat ftz imm f fc ic bad spreads denies
    refine ⟨Spreads.of_computed (fun _ => rfl) (by simp [rd1]), Spreads.of_computed (fun _ => rfl) (by simp),
      Spreads.of_computed (fun _ => rfl) (by simp [rd1]), Spreads.of_computed (fun _ => rfl) (by simp [rd1]),
      Spreads.of_computed (fun _ => rfl) (by simp [rd1]), Spreads.of_computed (fun _ => rfl) (by simp [rd1]),
      Spreads.of_computed (fun _ => rfl) (by simp), Spreads.of_computed (fun _ => rfl) (by simp [src64]),
      Spreads.of_perLane 4 _ (fun _ => rfl) fun x l hm => if_pos (hm.pois (by simp)), Spreads.of_computed (fun _ => rfl) (by simp [rd1]),
      fun hf => Spreads.of_computed (exec_fmax_narrow hf h d a b ftz) (by simp [rd1]),
      Denies.of_perLane 2 _ (fun _ => rfl) fun x l hm => compared_pois hm (by simp),
      Denies.of_perLane 4 _ (fun _ => rfl) fun x l hm => (if_neg Bool.false_ne_true).trans (compared_pois hm (by simp))⟩
end

section
/-! Special registers (R114 to R117, R194, R196, R263), for O20: what a read leaves pending, what RDRACK gathers, and what WRSPEC and PHASE
change in the warp. -/

namespace Sys2Proof.Machine

/-! ### An issue without a price (R185) -/

/-- A core but for its context is the same. -/
def Core.outside (k : Core) : Core := { k with ctx := Ctx.empty }

theorem State.outside_setWarp (s : State) (c w k : Nat) (f : Warp → Warp) : ((s.setWarp c w f).core k).outside = (s.core k).outside := by
  simp only [State.setWarp, State.core_setCore_eq]
  split <;> rfl

/-- The state in which a word that costs nothing starts its body: its warp alone has changed. -/
theorem opened_free {s : State} {x : Iss} {i : Instr} (hp : s.price x i = 0) :
    s.opened x i = (s.setWarp x.core x.warp fun _ => x.w).advance x := by
  simp only [State.opened, State.price_setWarp, hp, if_true]

theorem opened_outside {s : State} {x : Iss} {i : Instr} (hp : s.price x i = 0) (k : Nat) :
    ((s.opened x i).core k).outside = (s.core k).outside := by
  rw [opened_free hp]
  exact (State.outside_setWarp _ _ _ _ _).trans (State.outside_setWarp s _ _ _ _)

theorem price_rdspec (s : State) (x : Iss) (h : Hdr) (d : Dst) (r : SpecReg) : s.price x (.rdspec h d r) = 0 := by
  simp only [State.price, priceOf, ite_self]

theorem price_rdrack (s : State) (x : Iss) (h : Hdr) (d : Dst) : s.price x (.rdrack h d) = 0 := by
  simp only [State.price, priceOf, ite_self]

/-- A special register reads at the body of a free word as before it. -/
theorem special_opened {s : State} {x : Iss} {i : Instr} (hp : s.price x i = 0) (r : SpecReg) (l : Nat) :
    (s.opened x i).special x r l = s.special x r l := by
  have hrack : ((s.opened x i).core x.core).outside.rack = (s.core x.core).outside.rack := by rw [opened_outside hp]
  have hrest : (s.opened x i).launches = s.launches ∧ (s.opened x i).ctl = s.ctl ∧ (s.opened x i).clock = s.clock ∧
      (s.opened x i).dies = s.dies := by rw [opened_free hp]; exact ⟨rfl, rfl, rfl, rfl⟩
  obtain ⟨hla, hctl, hclock, hdies⟩ := hrest
  cases r with
  | rack => exact hrack
  | _ => simp only [State.special, State.launch?, State.die, State.asidRec, hla, hctl, hclock, hdies]

/-! ### Results with variable latency (R44) -/

theorem eraseDups_nodup {α : Type} [BEq α] [LawfulBEq α] {xs : List α} (h : xs.Nodup) : xs.eraseDups = xs := by
  induction xs with
  | nil => rfl
  | cons x xs ih =>
    obtain ⟨hx, h⟩ := List.nodup_cons.mp h
    have hne : ∀ y ∈ xs, (!y == x) = true := fun y hy => by simpa using fun e : y = x => hx (e ▸ hy)
    rw [List.eraseDups_cons, List.filter_eq_self.mpr hne, ih h]

/-- Lanes that name the same registers name them once. -/
theorem eraseDups_flatMap {names : List RName} (h : names.Nodup) {ls : List Nat} (hl : ls ≠ []) :
    (ls.flatMap fun _ => names).eraseDups = names := by
  cases ls with
  | nil => exact absurd rfl hl
  | cons l ls =>
    have hin : (ls.flatMap fun _ => names).removeAll names = [] := by simp [List.removeAll]
    rw [List.flatMap_cons, List.eraseDups_append, hin, eraseDups_nodup h]
    simp

/-- The values that lanes write name the registers of the destination, lane after lane; those of a uniform one once (R111). -/
theorem writesOf_names {d : Dst} (hd : d ≠ .discard) {n : Nat} (hn : n ≠ 0) {val : Nat → List Reg} {ls : List Nat} (hl : ls ≠ [])
    (hlen : ∀ l ∈ ls, (val l).length = n) :
    ((writesOf (dstNames d n) (ls.map fun l => (l, LaneRes.clean (val l) none))).map fun v => v.name).eraseDups = dstNames d n := by
  have hnone {α : Type} (g : Nat × LaneRes → List α) (hg : ∀ l, g (l, LaneRes.clean (val l) none) = []) :
      (((ls.map fun l => (l, LaneRes.clean (val l) none)).filter fun r => r.2.fault.isNone).flatMap g) = [] :=
    List.flatMap_eq_nil_iff.mpr fun r hr => by
      obtain ⟨l, -, rfl⟩ := List.mem_map.mp (List.mem_of_mem_filter hr)
      exact hg l
  unfold writesOf
  extract_lets ok isW regs preds seeds
  have hok : ok = ls.map fun l => (l, LaneRes.clean (val l) none) := List.filter_eq_self.mpr fun r hr => by
    obtain ⟨l, hl, rfl⟩ := List.mem_map.mp hr
    have := hlen l hl
    cases hv : val l with
    | nil => exact absurd (by rw [← this, hv]; rfl) hn
    | cons => rfl
  obtain ⟨ks, hks, hk, hsub⟩ : ∃ ks, (if isW then ok.take 1 else ok) = ks.map (fun l => (l, LaneRes.clean (val l) none)) ∧ ks ≠ [] ∧
      ∀ l ∈ ks, l ∈ ls := by
    rw [hok]
    split
    · exact ⟨ls.take 1, (List.map_take ..).symm, by simpa using hl, fun l h => List.mem_of_mem_take h⟩
    · exact ⟨ls, rfl, hl, fun _ h => h⟩
  have hregs : regs.map (fun v => v.name) = ks.flatMap fun _ => dstNames d n := by
    simp only [regs, hks, List.flatMap_map, List.map_flatMap, List.map_map]
    exact List.flatMap_congr fun l h => List.map_fst_zip (by rw [dstNames_length hd]; exact (hlen l (hsub l h)).ge)
  rw [show preds = [] from hnone _ fun _ => rfl, show seeds = [] from hnone _ fun _ => rfl, List.append_nil, List.append_nil, hregs]
  exact eraseDups_flatMap (dstNames_nodup d n) hk

/-- The values of lanes, as `Iss.sends` says them. -/
theorem mem_writesOf_sends (d : Dst) {n : Nat} {val : Nat → List Reg} {ls : List Nat} (hlen : ∀ l ∈ ls, (val l).length = n) (v : Wb) :
    v ∈ writesOf (dstNames d n) (ls.map fun l => (l, LaneRes.clean (val l) none)) ↔
      ∃ l ∈ ls, ∃ r, (v.name, r) ∈ (dstNames d n).zip (val l) ∧ v.reg = r ∧
        match v.name with
        | .w _ => v.lane = 0 ∧ ls.head? = some l
        | _ => v.lane = l := by
  rw [mem_writesOf d n ls val (fun _ => none) v hlen]
  constructor
  · rintro (⟨i, rfl, hl, hz⟩ | ⟨i, m, rfl, h0, hm, hz⟩ | ⟨q, b, hq, -⟩)
    · obtain ⟨j, -, hj⟩ := List.mem_map.mp (List.of_mem_zip hz).1
      exact ⟨v.lane, hl, _, hz, rfl, by rw [← hj]⟩
    · obtain ⟨j, -, hj⟩ := List.mem_map.mp (List.of_mem_zip hz).1
      exact ⟨m, List.mem_of_head? hm, _, hz, rfl, by rw [← hj]; exact ⟨h0, hm⟩⟩
    · cases hq
  · rintro ⟨l, hl, r, hz, rfl, hv⟩
    obtain ⟨i, rfl, j, hj⟩ | ⟨i, rfl, j, hj⟩ := dstNames_cases d n v.name (List.of_mem_zip hz).1
    · rw [hj] at hv
      obtain rfl : v.lane = l := hv
      exact .inl ⟨i, rfl, hl, hz⟩
    · rw [hj] at hv
      obtain ⟨h0, hm⟩ : v.lane = 0 ∧ ls.head? = some l := hv
      exact .inr (.inl ⟨i, l, rfl, h0, hm, hz⟩)

/-- An instruction of variable latency: the registers of its threads wait for their landing (R44). -/
theorem perLane_sends {s : State} {i : Instr} {h : Hdr} {c w : Nat} {wp : Warp} {pc : Nat} (hI : Issues s i h c w wp pc)
    (d : Dst) {n : Nat} (hn : n ≠ 0) (f : Iss → Nat → LaneRes) (val : Nat → List Reg)
    (hf : ∀ l ∈ (Iss.of s c w wp pc h).act, (val l).length = n ∧ f (Iss.of s c w wp pc h) l = LaneRes.of (val l)) :
    ∃ t more, issue i s (perLane .var (dstNames d n) f) = .next t ∧ Lands s t (Iss.of s c w wp pc h) noReg more ∧
      if (Iss.of s c w wp pc h).act = [] ∨ d = .discard then more = []
      else ∃ p, more = [p] ∧ p.id = s.nextId ∧ (Iss.of s c w wp pc h).sends p (dstNames d n) val := by
  obtain ⟨t, ht, hL⟩ := perLane_awaits hI (dstNames d n) f fun l hl => by rw [(hf l hl).2]; exact ⟨rfl, rfl, rfl⟩
  set x := Iss.of s c w wp pc h
  have hmap : (x.act.map fun l => (l, f x l)) = x.act.map fun l => (l, LaneRes.clean (val l) none) :=
    List.map_congr_left fun l hl => by rw [(hf l hl).2]; rfl
  have hlen : ∀ l ∈ x.act, (val l).length = n := fun l hl => (hf l hl).1
  have hmem := mem_writesOf_sends d hlen
  rw [hmap] at hL
  refine ⟨t, _, ht, hL, ?_⟩
  by_cases hnone : x.act = [] ∨ d = .discard
  · have hempty : writesOf (dstNames d n) (x.act.map fun l => (l, LaneRes.clean (val l) none)) = [] :=
      List.eq_nil_iff_forall_not_mem.mpr fun v hv => by
        obtain ⟨l, hl, r, hz, -⟩ := (hmem v).mp hv
        rcases hnone with h | rfl
        · simp [h] at hl
        · simp [dstNames] at hz
    rw [if_pos hnone, hempty]
  · obtain ⟨hact, hd⟩ := not_or.mp hnone
    have hnames := writesOf_names hd hn hact hlen
    rw [if_neg hnone]
    cases hw : writesOf (dstNames d n) (x.act.map fun l => (l, LaneRes.clean (val l) none)) with
    | nil =>
      rw [hw] at hnames
      exact absurd (by rw [← dstNames_length hd n, ← hnames]; rfl) hn
    | cons v vs =>
      rw [hw] at hnames hmem
      exact ⟨_, rfl, rfl, hnames, rfl, hmem⟩

/-! ### RDSPEC (R114 to R116, R263) -/

/-- RDSPEC in a thread, but for $gen. -/
def rdspecLane (u : State) (r : SpecReg) (x : Iss) (l : Nat) : LaneRes :=
  if r = .fault && !x.sup l then .trap (.of ePriv 0) else .of (specRegs r (u.special x r l))

/-- The registers that RDSPEC names. -/
def specLength (r : SpecReg) : Nat := if r.wide then 2 else 1

/-- The body of an RDSPEC of another register than $gen. -/
def rdspecBody (d : Dst) (r : SpecReg) (x : Iss) (u : State) : Eff := perLane .var (dstNames d (specLength r)) (rdspecLane u r) x u

theorem exec_rdspec {r : SpecReg} (hr : r ≠ .gen) (h : Hdr) (d : Dst) (s : State) :
    exec (.rdspec h d r) s = issue (.rdspec h d r) s (rdspecBody d r) :=
  congrArg (issue (.rdspec h d r) s) (funext fun _ => funext fun _ => if_neg hr)

theorem specRegs_eq (r : SpecReg) (v : Nat) :
    specRegs r v = if r.wide then halves (BitVec.ofNat 64 v) .i32 .i32 else [⟨BitVec.ofNat 32 v, .i32⟩] := by
  rw [specRegs, pair64_eq]
  rfl

theorem specRegs_length (r : SpecReg) (v : Nat) : (specRegs r v).length = specLength r := by
  rw [specRegs_eq, specLength]
  split <;> rfl

theorem rdspec_reads {r : SpecReg} (hr : r ≠ .gen) (h : Hdr) (d : Dst) : Reads (.rdspec h d r) d (specLength r)
    (fun x _ l => r = .fault → x.sup l = true) fun x s l => specRegs r (s.special x r l) := by
  intro s hd c w wp pc hI hok
  set x := Iss.of s c w wp pc hd
  rw [exec_rdspec hr, issue_congr hI (f := rdspecBody d r) (g := perLane .var (dstNames d (specLength r)) (rdspecLane (s.opened x _) r)) rfl]
  refine perLane_sends hI d (by unfold specLength; split <;> decide) _ _ fun l hl => ⟨specRegs_length _ _, ?_⟩
  have hgo : (decide (r = .fault) && !x.sup l) = false := by
    by_cases hf : r = .fault
    · simp [hok l hl hf]
    · simp [hf]
  exact (if_neg (by rw [hgo]; decide)).trans (congrArg (fun v => LaneRes.of (specRegs r v)) (special_opened (price_rdspec s x h d r) r l))

theorem takeEach_all {flt : Nat → Option Flt} {f : Flt} {ls : List Nat} (h : ∀ l ∈ ls, flt l = some f) (s : State) (x : Iss) :
    s.takeEach x flt ls = s.takeFaults x ls f :=
  List.foldl_ext _ _ _ fun s l hl => by rw [h l hl]; rfl

/-- Where every thread faults alike, nothing is written and nothing counted. -/
theorem perLane_takeFaults {x : Iss} {g : Iss → Nat → LaneRes} {f : Flt} (names : List RName) (u : State)
    (h : ∀ l ∈ x.act, g x l = .trap f) : (perLane .var names g x u).s = u.takeFaults x x.act f := by
  have hfault : ∀ l ∈ x.act, (g x l).fault = some f := fun l hl => by rw [h l hl]; rfl
  have hnil : x.act.filter (fun l => (g x l).fault.isNone) = [] := List.filter_eq_nil_iff.mpr fun l hl => by simp [hfault l hl]
  have hcount : x.act.filter (fun l => (g x l).fault.isNone && (g x l).pois) = [] :=
    List.filter_eq_nil_iff.mpr fun l hl => by simp [hfault l hl]
  have hwrite : writesOf names (x.act.map fun l => (l, g x l)) = [] := by
    rw [writesOf_each names (g x) (fun _ => []) (fun _ => none) _ fun l hl hn => by simp [hfault l hl] at hn, hnil]
    simp [writesOf]
  rw [perLane, commit_each, hwrite, hcount]
  exact takeEach_all hfault u x

/-- $fault is not for U level (R115). -/
theorem rdspec_fault_traps (h : Hdr) (d : Dst) : Traps (.rdspec h d .fault) 0x02 (fun _ _ => 0) fun _ _ _ => True := by
  refine .of_body (.of ePriv 0) _ (exec_rdspec (by decide) h d) (fun x s u hbad => ⟨u, .refl u _ _, ?_⟩) fun _ _ => record_word rfl rfl rfl rfl
  exact perLane_takeFaults _ u fun l hl => by simp only [rdspecLane, (hbad l hl).2.user]; rfl

/-- A result that an issue leaves pending, and nothing else. -/
theorem lands_pending {s : State} {i : Instr} {h : Hdr} {c w : Nat} {wp : Warp} {pc : Nat} (hI : Issues s i h c w wp pc) (p : Pend) :
    Lands s (State.ended (Iss.of s c w wp pc h) i h
      (.go ((s.opened (Iss.of s c w wp pc h) i).setWarp c w fun v => { v with pend := v.pend ++ [p] }).fresh)) (Iss.of s c w wp pc h) noReg [p] := by
  have hput := OnWarp.setWarp (s.opened (Iss.of s c w wp pc h) i) c w fun v => { v with pend := v.pend ++ [p] }
  refine lands_of_body hI _ _ noReg [p] ⟨hput.warp, hput.rest.trans (.fresh _ c w)⟩ (fun _ => rfl) fun v n l hs _ _ => ?_
  cases n with
  | seed => exact absurd rfl hs
  | _ => rfl

theorem lands_nothing {s : State} {i : Instr} {h : Hdr} {c w : Nat} {wp : Warp} {pc : Nat} (hI : Issues s i h c w wp pc) :
    Lands s (State.ended (Iss.of s c w wp pc h) i h (.go (s.opened (Iss.of s c w wp pc h) i))) (Iss.of s c w wp pc h) noReg [] :=
  lands_of_body hI _ id noReg [] (.refl _ _ _) (fun v => by simp [Warp.rest]) fun _ _ _ _ _ _ => rfl

/-- What pends for a read of $gen into register `n` (R263). -/
def genPend (id : Nat) (lanes : List Nat) (n : RName) : Pend :=
  ⟨id, [n], .gen (match n with | .w _ => true | _ => false) (match n with | .v i => i | .w i => i | .p i => i | .seed => 0) lanes, []⟩

/-- The body of an RDSPEC of $gen. -/
def genBody (d : Dst) (x : Iss) (u : State) : Eff :=
  match dstNames d 1 with
  | [] => .go u
  | n :: _ => if x.act.isEmpty then .go u
    else .go (u.setWarp x.core x.warp fun w => { w with pend := w.pend ++ [genPend u.nextId x.act n] }).fresh

theorem exec_rdspec_gen (h : Hdr) (d : Dst) (s : State) : exec (.rdspec h d .gen) s = issue (.rdspec h d .gen) s (genBody d) := rfl

theorem genBody_idle {d : Dst} {x : Iss} (h : x.act = [] ∨ d = .discard) (u : State) : genBody d x u = .go u := by
  rcases h with h | rfl
  · unfold genBody
    rw [h]
    split <;> rfl
  · rfl

theorem dstNames_one {d : Dst} (hd : d ≠ .discard) : ∃ (uni : Bool) (n : Nat), dstNames d 1 = [if uni then .w n else .v n] := by
  cases d with
  | v i => exact ⟨false, i.val, rfl⟩
  | w i => exact ⟨true, i.val, rfl⟩
  | discard => exact absurd rfl hd

theorem rdspec_gen_pends {s : State} {h hd : Hdr} {d : Dst} {c w : Nat} {wp : Warp} {pc : Nat}
    (hI : Issues s (.rdspec h d .gen) hd c w wp pc) :
    ∃ t more, exec (.rdspec h d .gen) s = .next t ∧ Lands s t (Iss.of s c w wp pc hd) noReg more ∧
      if (Iss.of s c w wp pc hd).act = [] ∨ d = .discard then more = []
      else ∃ p, more = [p] ∧ p.id = s.nextId ∧ p.names = dstNames d 1 ∧ ∃ u n, p.src = .gen u n (Iss.of s c w wp pc hd).act ∧
        dstNames d 1 = [if u then .w n else .v n] := by
  set x := Iss.of s c w wp pc hd
  by_cases hidle : x.act = [] ∨ d = .discard
  · refine ⟨_, [], (exec_rdspec_gen h d s).trans (issue_next hI _), ?_, by rw [if_pos hidle]⟩
    rw [genBody_idle hidle]
    exact lands_nothing hI
  · obtain ⟨hact, hd⟩ := not_or.mp hidle
    obtain ⟨uni, n, hn⟩ := dstNames_one hd
    have hbody : genBody d x (s.opened x (.rdspec h d .gen)) = .go ((s.opened x (.rdspec h d .gen)).setWarp c w
        fun v => { v with pend := v.pend ++ [genPend s.nextId x.act (if uni then .w n else .v n)] }).fresh := by
      unfold genBody
      rw [hn, State.opened_nextId]
      exact if_neg (by simpa using hact)
    refine ⟨_, [_], (exec_rdspec_gen h d s).trans (issue_next hI _), by rw [hbody]; exact lands_pending hI _, ?_⟩
    rw [if_neg hidle]
    exact ⟨_, rfl, rfl, hn.symm, uni, n, by cases uni <;> rfl, hn⟩

/-! ### RDRACK (R196) -/

/-- The word of RDRACK, field by field. -/
def rackFields (phase : Nat) (half sat held : Bool) (waits rack : Nat) : Word :=
  (0 : BitVec 8) ++ BitVec.ofNat 2 phase ++ BitVec.ofBool half ++ BitVec.ofBool sat ++ BitVec.ofBool held ++ BitVec.ofNat 3 waits ++
    (0 : BitVec 1) ++ BitVec.ofNat 15 rack

theorem rackFields_eq {phase waits rack : Nat} (half sat held : Bool) (hp : phase < 4) (hw : waits < 8) (hr : rack < 2 ^ 15) :
    rackFields phase half sat held waits rack =
      BitVec.ofNat 32 (phase * 2 ^ 22 + b2n half * 2 ^ 21 + b2n sat * 2 ^ 20 + b2n held * 2 ^ 19 + waits * 2 ^ 16 + rack) := by
  have hb (b : Bool) : (BitVec.ofBool b).toNat = b2n b := by cases b <;> rfl
  have hlt (b : Bool) : b2n b < 2 := by cases b <;> decide
  have h1 := hlt half
  have h2 := hlt sat
  have h3 := hlt held
  apply BitVec.eq_of_toNat_eq
  simp only [rackFields, toNat_append_sum, hb, BitVec.toNat_ofNat, BitVec.ofNat_eq_ofNat]
  omega

/-- The word that RDRACK reads on a core by a warp. -/
def Core.rackWord (k : Core) (w phase : Nat) : Word :=
  rackFields phase k.half (k.satisfied.any fun r => r.who == .warp w)
    ((k.satisfied.any fun r => r.who == .warp w) || k.resv.any fun r => r.who == .warp w) (min 4 k.resv.length) k.rack

theorem rackWord_opened {s : State} {h hd : Hdr} {d : Dst} {c w : Nat} {wp : Warp} {pc : Nat} (hI : Issues s (.rdrack h d) hd c w wp pc)
    (hr : (s.core c).rack < 2 ^ 15) (hp : wp.phase < 4) :
    BitVec.ofNat 32 ((s.opened (Iss.of s c w wp pc hd) (.rdrack h d)).rackWord c w) = (s.core c).rackWord w wp.phase := by
  have hout := opened_outside (price_rdrack s (Iss.of s c w wp pc hd) h d) c
  have hphase : ((Iss.of s c w wp pc hd).gone (Iss.of s c w wp pc hd).w).phase = wp.phase := rfl
  rw [Core.rackWord, rackFields_eq _ _ _ hp (by omega) hr, State.rackWord, opened_warp hI]
  simp only [Option.map_some, Option.getD_some, hphase]
  have hk : ∀ {α : Type} (g : Core → α), (∀ k, g k.outside = g k) →
      g ((s.opened (Iss.of s c w wp pc hd) (.rdrack h d)).core c) = g (s.core c) := fun g hg => by rw [← hg, hout, hg]
  rw [hk (fun k => k.half) fun _ => rfl, hk (fun k => k.satisfied) fun _ => rfl, hk (fun k => k.resv) fun _ => rfl,
    hk (fun k => k.rack) fun _ => rfl]

/-- The body of RDRACK. -/
def rdrackBody (d : Dst) (x : Iss) (u : State) : Eff :=
  perLane (.fixed 3) (dstNames d 1) (fun x _ => .of [⟨BitVec.ofNat 32 (u.rackWord x.core x.warp), .i32⟩]) x u

theorem exec_rdrack (h : Hdr) (d : Dst) (s : State) : exec (.rdrack h d) s = issue (.rdrack h d) s (rdrackBody d) := rfl

theorem rdrack_lands {s : State} {h hd : Hdr} {d : Dst} {c w : Nat} {wp : Warp} {pc : Nat} (hI : Issues s (.rdrack h d) hd c w wp pc)
    (hr : (s.core c).rack < 2 ^ 15) (hp : wp.phase < 4) :
    ∃ t, exec (.rdrack h d) s = .next t ∧ Lands s t (Iss.of s c w wp pc hd) ((Iss.of s c w wp pc hd).puts (dstNames d 1)
      (fun _ => [⟨(s.core c).rackWord w wp.phase, .i32⟩]) fun _ => none) [] := by
  rw [exec_rdrack, issue_congr hI (f := rdrackBody d) (g := perLane (.fixed 3) (dstNames d 1) fun x _ =>
    .of [⟨BitVec.ofNat 32 ((s.opened (Iss.of s c w wp pc hd) (.rdrack h d)).rackWord x.core x.warp), .i32⟩]) rfl]
  exact perLane_lands hI 3 d 1 _ _ _ (fun l _ => congrArg (fun v => LaneRes.clean [⟨v, .i32⟩] none) (rackWord_opened hI hr hp)) fun _ _ => rfl

/-! ### WRSPEC and PHASE (R117, R194) -/

/-- What WRSPEC writes for the threads `ls` with an integer source: their fields, and $sbcheck from the lowest. -/
def State.wrspec (u : State) (x : Iss) (r : SpecReg) (a : Src) (ls : List Nat) : State :=
  let u0 := if r = .seed then
    u.setWarp x.core x.warp fun w => { w with fresh := w.fresh.filter fun f => !(ls.any fun l => f.covers .seed l) } else u
  let u1 := ls.foldl (fun s l => s.setThread (x.ref l) fun t => t.wrspec r (x.val a 0 l)) u0
  match r, ls with
  | .sbcheck, l :: _ => u1.setWarp x.core x.warp fun w => { w with sbcheck := bitAt (x.val a 0 l).toNat 0 }
  | _, _ => u1

/-- The check of WRSPEC's source. -/
def Iss.wrspecChk (x : Iss) (a : Src) (l : Nat) : Chk := checkTags [(x.src a 0 l, intTags)]

/-- The result of a thread that a check lets through or not, but for what it writes. -/
def Chk.result (c : Chk) : LaneRes :=
  match c with
  | .good => .nothing
  | .pois => { LaneRes.nothing with pois := true }
  | .bad f => .trap (.of eTag f)

/-- The body of WRSPEC. -/
def wrspecBody (r : SpecReg) (a : Src) (x : Iss) (u : State) : Eff :=
  (u.wrspec x r a (x.act.filter fun l => x.wrspecChk a l == .good)).commit x .var [] (x.act.map fun l => (l, (x.wrspecChk a l).result))

theorem exec_wrspec (h : Hdr) (r : SpecReg) (a : Src) (s : State) :
    exec (.wrspec h r a) s = issue (.wrspec h r a) s (wrspecBody r a) := rfl

theorem commit_nothing (u : State) (x : Iss) (ls : List Nat) : u.commit x .var [] (ls.map fun l => (l, .nothing)) = .go u := by
  rw [commit_clean _ _ _ _ _ fun r hr => by obtain ⟨l, -, rfl⟩ := List.mem_map.mp hr; exact ⟨rfl, rfl, rfl⟩]
  have hnone : writesOf [] (ls.map fun l => (l, LaneRes.nothing)) = [] := by
    simp [writesOf, LaneRes.nothing, List.flatMap_eq_nil_iff]
  rw [hnone]
  rfl

/-- Where every source is an integer, every thread writes and none is counted or faults. -/
theorem wrspecBody_int {x : Iss} {a : Src} (hok : ∀ l ∈ x.act, x.int a 0 l) (r : SpecReg) (u : State) :
    wrspecBody r a x u = .go (u.wrspec x r a x.act) := by
  have hgood : ∀ l ∈ x.act, x.wrspecChk a l = .good := fun l hl => checkTags_good _ (List.forall_mem_singleton.mpr (hok l hl))
  have hall : (x.act.filter fun l => x.wrspecChk a l == .good) = x.act := List.filter_eq_self.mpr fun l hl => by rw [hgood l hl]; rfl
  have hres : (x.act.map fun l => (l, (x.wrspecChk a l).result)) = x.act.map fun l => (l, .nothing) :=
    List.map_congr_left fun l hl => by rw [hgood l hl]; rfl
  rw [wrspecBody, hall, hres, commit_nothing]

theorem State.wrspec_onWarp (u : State) (x : Iss) (r : SpecReg) (a : Src) (hr : r = .seed ∨ r = .rerr) (ls : List Nat) :
    ∃ k : Warp → Warp, (∀ v, (k v).rest = v.rest ∧ ∀ n l, (k v).hold n l = v.hold n l) ∧ OnWarp u (u.wrspec x r a ls) x.core x.warp
      ((fun v => { v with threads := eachThread ls (fun l t => t.wrspec r (x.val a 0 l)) v.threads }) ∘ k) := by
  rcases hr with rfl | rfl
  · refine ⟨_, fun v => ⟨?_, ?_⟩, (OnWarp.setWarp u x.core x.warp _).trans (.setThreads x (fun l t => t.wrspec .seed (x.val a 0 l)) ls _)⟩
    · rfl
    · intro n l; cases n <;> rfl
  · exact ⟨id, fun v => ⟨rfl, fun _ _ => rfl⟩, .setThreads x (fun l t => t.wrspec .rerr (x.val a 0 l)) ls u⟩

theorem wrspec_acts (h : Hdr) {r : SpecReg} (hr : r = .seed ∨ r = .rerr) (a : Src) :
    Acts (.wrspec h r a) (fun x _ l => x.int a 0 l) fun x _ l t => t.wrspec r (x.val a 0 l) := by
  intro s hd c w wp pc hI x hok
  obtain ⟨k, hk, hon⟩ := (s.opened x (.wrspec h r a)).wrspec_onWarp x r a hr x.act
  refine ⟨_, (exec_wrspec h r a s).trans (issue_next hI _), ?_⟩
  rw [wrspecBody_int hok]
  exact moves_of_threads hI _ k noReg _ hon (fun v => (hk v).1) fun v n l _ _ _ => (hk v).2 n l

theorem Thread.wrspec_rerr (t : Thread) (v : Word) :
    t.wrspec .rerr v = { t with rerrCount := (v.extractLsb' 8 8).toNat, rerrStat := (v.extractLsb' 0 4).toNat } := by
  rw [Thread.wrspec, fld_extractLsb' v (n := 8) rfl, fld_extractLsb' v (n := 4) rfl]

/-! ### Fields of the warp -/

theorem Elsewhere.symm {s t : State} {c w : Nat} (h : Elsewhere s t c w) : Elsewhere t s c w where
  memory := by simp [h.memory]
  stores := by simp [h.stores]
  control := by simp [h.control]
  flight := by simp [h.flight]
  clocks := by simp [h.clocks]
  walks := by simp [h.walks]
  die k := (h.die k).symm
  core k := (h.core k).symm
  cores k hk := (h.cores k hk).symm
  warps k v hk := (h.warps k v hk).symm

/-- The body of an issue sets a field of its warp that is no register and that going on does not touch. -/
theorem lands_setWarp {s : State} {i : Instr} {h : Hdr} {c w : Nat} {wp : Warp} {pc : Nat} (hI : Issues s i h c w wp pc) {e : Eff}
    {f : Warp → Warp} (he : OnWarp (s.opened (Iss.of s c w wp pc h) i) e.s c w f)
    (hgone : ∀ (x : Iss) v, f (x.gone v) = x.gone (f v)) (hhold : ∀ v n l, (f v).hold n l = v.hold n l) :
    Lands (s.setWarp c w f) (State.ended (Iss.of s c w wp pc h) i h e)
      { Iss.of s c w wp pc h with w := f (Iss.of s c w wp pc h).w } noReg [] := by
  set x := Iss.of s c w wp pc h
  have hset : OnWarp s (s.setWarp c w f) c w f := .setWarp s c w f
  have hend : OnWarp (s.setWarp c w f) e.s c w fun _ => f (x.gone x.w) :=
    ⟨by rw [he.warp_eq (opened_warp hI), hset.warp_eq hI.warp]; rfl,
      hset.rest.symm.trans ((opened_onWarp s x i).rest.trans he.rest)⟩
  refine moves_of_ended (y := x) (v0 := f x.w) (ths := (x.gone (f x.w)).threads) (hset.warp_eq hI.warp) hend
    (by rw [hgone]; rfl) (fun l => by simp [Warp.thread?, Iss.gone]) fun n l hs _ _ => ?_
  rw [hhold, hhold]
  cases n with
  | seed => exact absurd rfl hs
  | _ => rfl

theorem eachThread_same (ls : List Nat) (ths : List Thread) : eachThread ls (fun _ t => t) ths = ths :=
  foldl_same _ _ _ fun ths l _ => lmod_id ths l

/-- $sbcheck is of the warp: no thread changes. -/
theorem State.wrspec_sbcheck (u : State) (x : Iss) (a : Src) (l : Nat) (ls : List Nat) :
    OnWarp u (u.wrspec x .sbcheck a (l :: ls)) x.core x.warp fun v => { v with sbcheck := (x.val a 0 l).getLsbD 0 } := by
  have hon := (OnWarp.setThreads x (fun _ t => t) (l :: ls) u).trans
    (.setWarp _ _ _ fun v => { v with sbcheck := bitAt (x.val a 0 l).toNat 0 })
  have hbit : bitAt (x.val a 0 l).toNat 0 = (x.val a 0 l).getLsbD 0 := bitAt_testBit _ _
  simp only [Function.comp_def, eachThread_same] at hon
  rw [← hbit]
  exact hon

theorem wrspec_sbcheck_lands {s : State} {h hd : Hdr} {a : Src} {c w : Nat} {wp : Warp} {pc : Nat}
    (hI : Issues s (.wrspec h .sbcheck a) hd c w wp pc) (hok : ∀ l ∈ (Iss.of s c w wp pc hd).act, (Iss.of s c w wp pc hd).int a 0 l) :
    ∃ t, exec (.wrspec h .sbcheck a) s = .next t ∧
      if (Iss.of s c w wp pc hd).act = [] then Lands s t (Iss.of s c w wp pc hd) noReg []
      else Lands (s.setWarp c w fun v => { v with sbcheck :=
          ((Iss.of s c w wp pc hd).val a 0 ((Iss.of s c w wp pc hd).act.headD 0)).getLsbD 0 }) t
        { Iss.of s c w wp pc hd with w := { (Iss.of s c w wp pc hd).w with sbcheck :=
          ((Iss.of s c w wp pc hd).val a 0 ((Iss.of s c w wp pc hd).act.headD 0)).getLsbD 0 } } noReg [] := by
  refine ⟨_, (exec_wrspec h .sbcheck a s).trans (issue_next hI _), ?_⟩
  rw [wrspecBody_int hok]
  cases hact : (Iss.of s c w wp pc hd).act with
  | nil => exact lands_nothing hI
  | cons l ls => exact lands_setWarp hI (State.wrspec_sbcheck _ _ a l ls) (fun _ _ => rfl) fun _ n _ => by cases n <;> rfl

/-- The body of PHASE. -/
def phaseBody (p : PhaseSel) (x : Iss) (u : State) : Eff :=
  if x.act.isEmpty then .go u else .go (u.setWarp x.core x.warp fun w => { w with phase := phaseCode p })

theorem exec_phase (h : Hdr) (p : PhaseSel) (s : State) : exec (.phase h p) s = issue (.phase h p) s (phaseBody p) := rfl

theorem phase_lands {s : State} {h hd : Hdr} {p : PhaseSel} {c w : Nat} {wp : Warp} {pc : Nat} (hI : Issues s (.phase h p) hd c w wp pc) :
    ∃ t, exec (.phase h p) s = .next t ∧
      if (Iss.of s c w wp pc hd).act = [] then Lands s t (Iss.of s c w wp pc hd) noReg []
      else Lands (s.setWarp c w fun v => { v with phase := phaseCode p }) t
        { Iss.of s c w wp pc hd with w := { (Iss.of s c w wp pc hd).w with phase := phaseCode p } } noReg [] := by
  refine ⟨_, (exec_phase h p s).trans (issue_next hI _), ?_⟩
  unfold phaseBody
  cases hact : (Iss.of s c w wp pc hd).act with
  | nil => exact lands_nothing hI
  | cons l ls => exact lands_setWarp hI (.setWarp _ c w _) (fun _ _ => rfl) fun _ n _ => by cases n <;> rfl

end Sys2Proof.Machine

open Sys2Proof Sys2Proof.Machine

/-- Settles O20: the reads of each special register by the lanes of a word without a price, $gen by what it leaves pending; WRSPEC and
PHASE by what their bodies change in the warp, which the end of the issue leaves. -/
theorem specialRegisters : Obligations.SpecialRegisters := by
  unfold Obligations.SpecialRegisters
  refine ⟨fun h d r => ⟨fun hr => ?_, rdspec_fault_traps h d, fun s c w wp pc hI => rdspec_gen_pends hI,
    fun s c w wp pc hI hrack hphase => rdrack_lands hI hrack hphase⟩, fun h a => ⟨wrspec_acts h (.inl rfl) a, ?_,
    fun s c w wp pc hI hok => wrspec_sbcheck_lands hI hok, fun p s c w wp pc hI _ => ?_⟩⟩
  · have hreads := rdspec_reads hr h d
    simp only [specRegs_eq] at hreads
    cases r with
    | gen => exact absurd rfl hr
    | _ => exact hreads
  · have hacts := wrspec_acts h (r := .rerr) (.inr rfl) a
    simp only [Thread.wrspec_rerr] at hacts
    exact hacts
  · obtain ⟨t, ht, hL⟩ := phase_lands hI
    refine ⟨t, ht, ?_⟩
    cases p <;> exact hL
end

section
/-! The codes of the floating-point formats (R135 to R143) and binary64 results in registers, for O7: what is rounded to a format is one of
its codes. -/

namespace Sys2Proof.Machine

/-! ### Codes -/

theorem FFmt.bits_pos (f : FFmt) : 0 < f.bits := by rw [FFmt.bits]; omega

theorem FFmt.nan_lt (f : FFmt) : f.nan < 2 ^ f.bits := by cases f <;> decide

theorem FFmt.two_pow_bits (f : FFmt) : 2 ^ f.bits = 2 * 2 ^ (f.bits - 1) := (mul_pow_sub_one f.bits_pos.ne' 2).symm

/-- The largest finite value has no sign bit, and one more code fits where the format has infinities. -/
theorem FFmt.maxCode_lt (f : FFmt) : f.maxCode < 2 ^ (f.bits - 1) ∧ (f.hasInf = true → f.maxCode + 1 < 2 ^ (f.bits - 1)) := by
  cases f <;> decide

theorem FFmt.signBit_add_lt (f : FFmt) (neg : Bool) {c : Nat} (hc : c < 2 ^ (f.bits - 1)) : f.signBit neg + c < 2 ^ f.bits := by
  rw [f.two_pow_bits, FFmt.signBit]
  split <;> omega

theorem FFmt.signBit_lt (f : FFmt) (neg : Bool) : f.signBit neg < 2 ^ f.bits := f.signBit_add_lt neg (Nat.two_pow_pos _)

theorem FFmt.zeroCode_lt (f : FFmt) (neg : Bool) : f.zeroCode neg < 2 ^ f.bits := by
  rw [FFmt.zeroCode]
  split
  · exact Nat.two_pow_pos _
  · exact f.signBit_lt neg

theorem FFmt.overflow_lt (f : FFmt) (r : Rnd) (neg : Bool) : f.overflow r neg < 2 ^ f.bits := by
  cases f <;> cases r <;> cases neg <;> decide

/-- A magnitude's code with its sign, where it is finite and no zero. -/
def FFmt.signed (f : FFmt) (r : Rnd) (neg : Bool) (code : Nat) : Nat :=
  if f.maxCode < code then f.overflow r neg else if code = 0 then f.zeroCode neg else f.signBit neg + code

/-- The code of the rounded magnitude of m × 2^e, m > 0. -/
def FFmt.roundMag (f : FFmt) (r : Rnd) (neg : Bool) (m : Nat) (e : Int) : Nat :=
  let u := f.unitOf m e
  let n := roundTo r neg m e u
  if n = 2 ^ (f.mb + 1) then f.magCode (2 ^ f.mb) (u + 1) else f.magCode n u

theorem FFmt.round_fin (f : FFmt) (r : Rnd) (ftz neg : Bool) (m : Nat) (e : Int) : f.round r ftz (.fin neg m e) =
    if m = 0 then f.zeroCode neg else if ftz && f.tiny r neg m e then f.zeroCode neg else f.signed r neg (f.roundMag r neg m e) := rfl

theorem FFmt.signed_of_finite {f : FFmt} {r : Rnd} {neg : Bool} {code : Nat} (hc : code ≤ f.maxCode) (h0 : code ≠ 0) :
    f.signed r neg code = f.signBit neg + code := by rw [FFmt.signed, if_neg (by omega), if_neg h0]

/-- What is rounded to a format is one of its codes. -/
theorem FFmt.round_lt (f : FFmt) (r : Rnd) (ftz : Bool) (v : FVal) : f.round r ftz v < 2 ^ f.bits := by
  obtain ⟨hmax, hinf⟩ := f.maxCode_lt
  cases v with
  | nan => exact f.nan_lt
  | inf neg =>
    simp only [FFmt.round]
    split
    next h => exact f.signBit_add_lt neg (hinf h)
    next =>
      split
      next h => subst h; decide
      next => exact f.signBit_add_lt neg hmax
  | fin neg m e =>
    rw [f.round_fin, FFmt.signed]
    split
    · exact f.zeroCode_lt neg
    split
    · exact f.zeroCode_lt neg
    split
    · exact f.overflow_lt r neg
    next hle =>
      split
      · exact f.zeroCode_lt neg
      · exact f.signBit_add_lt neg (by omega)

/-! ### Results in registers -/

theorem regs64_eq (v : Nat) : regs64 v = halves (BitVec.ofNat 64 v) .fp64l .fp64h := by
  have h := pair64_eq v
  simp only [pair64, halves, List.cons.injEq, Reg.mk.injEq] at h
  obtain ⟨⟨hlo, -⟩, ⟨hhi, -⟩, -⟩ := h
  rw [regs64, halves, hlo, hhi]

/-- The immediate of FADD and FMUL (R69). -/
theorem immF_val (imm : BitVec 24) : (immF imm).val = imm ++ (0 : BitVec 8) := by
  have himm := imm.isLt
  apply BitVec.eq_of_toNat_eq
  rw [toNat_append_sum, immF, immOpd, BitVec.toNat_shiftLeft, BitVec.toNat_setWidth,
    Nat.mod_eq_of_lt (b := 2 ^ 32) (himm.trans (by decide)), Nat.shiftLeft_eq, Nat.mod_eq_of_lt (by omega),
    show (0 : BitVec 8).toNat = 0 from rfl, Nat.add_zero]

/-! ### Whole instructions -/

theorem src64_fits {x : Iss} {a : Src} {l : Nat} (h : x.dbl a l) : ∀ p ∈ src64 x a l, p.1.fits p.2 := fits_both h.1 h.2

theorem Iss.f64_pair (x : Iss) (a : Src) (ftz : Bool) (l : Nat) : FFmt.decodeZ .f64 ftz (x.pair a l) = x.f64 a ftz l := by
  rw [x.pair_eq]; rfl

/-- A binary64 instruction (R161): `f` of its sources' values, rounded once. -/
theorem Computes.of_f64op {i : Instr} {d : Dst} (srcs : List Src) {r : Rnd} {ftz : Bool} (f : List FVal → FVal)
    {ok : Iss → Nat → Prop} (he : ∀ s, exec i s = issue i s (f64op d srcs r ftz f)) (hok : ∀ x l, ok x l → ∀ a ∈ srcs, x.dbl a l) :
    Computes i d 2 ok fun x l rs =>
      rs = halves (BitVec.ofNat 64 (FFmt.round .f64 r ftz (f (srcs.map fun a => x.f64 a ftz l)))) .fp64l .fp64h := by
  refine .of_perLane 8 _ he fun x l h => ⟨_, rfl, ?_, computed_good x _ l _ _ fun p hp => ?_⟩
  · simp only [regs64_eq, Iss.f64_pair]
  · obtain ⟨a, ha, hp⟩ := List.mem_flatMap.mp hp
    exact src64_fits (hok x l h a ha) p hp

end Sys2Proof.Machine

open Sys2Proof Sys2Proof.Machine

/-- Settles O7: the model's functions of the sources' values are the statement's; what is written out is the immediate and the two halves
of a binary64 result. -/
theorem floatArithmetic : Obligations.FloatArithmetic := by
  intro h d a b c r ftz sat imm to32 near to64 f k
  refine ⟨.op2 4 _ _ _ _ _ (fun _ => rfl) (fun _ _ hok => hok) fun _ _ _ => rfl,
    .op2 4 _ _ _ _ _ (fun _ => rfl) (fun _ _ hok => hok) fun _ _ _ => rfl,
    .op2 4 _ _ _ _ _ (fun _ => rfl) (fun _ _ hok => hok) fun _ _ _ => rfl,
    .of_perLane 4 _ (fun _ => rfl) fun x l ⟨ha, hb, hc⟩ =>
      ⟨_, rfl, rfl, computed_good x _ l _ _ (List.forall_mem_cons.mpr ⟨ha, fits_both hb hc⟩)⟩,
    .op2 4 _ _ _ _ _ (fun _ => rfl) (fun _ _ hok => ⟨hok, .inl rfl⟩) fun x l _ => ?_,
    .op2 4 _ _ _ _ _ (fun _ => rfl) (fun _ _ hok => ⟨hok, .inl rfl⟩) fun x l _ => ?_,
    .of_f64op [a, b] (fsum (isRd r)) (fun _ => rfl) fun _ _ ⟨ha, hb⟩ => by simpa using ⟨ha, hb⟩,
    .of_f64op [a, b] fprod (fun _ => rfl) fun _ _ ⟨ha, hb⟩ => by simpa using ⟨ha, hb⟩,
    .of_f64op [a, b, c] (fmadd (isRd r)) (fun _ => rfl) fun _ _ ⟨ha, hb, hc⟩ => by simpa using ⟨ha, hb, hc⟩⟩
  · rw [immF_val]; rfl
  · rw [immF_val]; rfl
end

section
/-! Elements of a register, and packed halves (R154, R160), for O8: each element of a result is a digit of the number that the model sums
up, and the sources fix the format. -/

namespace Sys2Proof.Machine

/-! ### Elements of a register -/

/-- Digits of `n` bits, summed up in a register, are its elements. -/
theorem ofNat_digits_extract {n m k : Nat} {d : Nat → Nat} (hn : 0 < n) (hd : ∀ i, d i < 2 ^ n) (hm : n * m ≤ 32) (hk : k < m) :
    ((BitVec.ofNat 32 ((upFrom 0 m).map fun i => d i * 2 ^ (n * i)).sum).extractLsb' (n * k) n).toNat = d k := by
  have hlt := (sum_digits_lt hn hd m).trans_le (Nat.pow_le_pow_right (by decide) hm)
  rw [BitVec.extractLsb'_toNat, BitVec.toNat_ofNat, Nat.mod_eq_of_lt hlt, Nat.shiftRight_eq_div_pow, sum_digits_digit hd hk]

/-- Each element of an element-wise result is the function of the sources' elements. -/
theorem mapFp_extract {f : FFmt} {g : Nat → Nat → Nat} (hg : ∀ p q, p < 2 ^ f.bits → q < 2 ^ f.bits → g p q < 2 ^ f.bits)
    (a b : Word) {i : Nat} (hi : i < 32 / f.bits) : ((mapFp f g a b).extractLsb' (f.bits * i) f.bits).toNat =
      g (a.extractLsb' (f.bits * i) f.bits).toNat (b.extractLsb' (f.bits * i) f.bits).toNat := by
  have hel (v : Word) : v.toNat / 2 ^ (f.bits * i) % 2 ^ f.bits = (v.extractLsb' (f.bits * i) f.bits).toNat := by
    rw [BitVec.extractLsb'_toNat, Nat.shiftRight_eq_div_pow]
  refine (ofNat_digits_extract f.bits_pos (fun _ => Nat.mod_lt _ (Nat.two_pow_pos _)) (Nat.mul_div_le 32 f.bits) hi).trans ?_
  simp only [hel]
  exact Nat.mod_eq_of_lt (hg _ _ (BitVec.isLt _) (BitVec.isLt _))

/-! ### Packed halves (R154, R160) -/

/-- The sources fix the packed format with tag `t`: every register source carries it, or, with constants alone, the first packed one
does; FP16 if there is none (R154). -/
def HalvesFixed (t : Tag) (os : List Opd) : Prop :=
  ((∃ o ∈ os, o.konst = false) ∧ ∀ o ∈ os, o.konst = false → o.tag = t) ∨
  ((∀ o ∈ os, o.konst = true) ∧ ((os.map fun o => o.tag).filter fun g => g == .fp16x2 || g == .bf16x2).head?.getD .fp16x2 = t)

/-- A packed format and its tag. -/
def IsHalf (f : FFmt) (t : Tag) : Prop := (f = .f16 ∧ t = .fp16x2) ∨ (f = .bf16 ∧ t = .bf16x2)

theorem IsHalf.facts {f : FFmt} {t : Tag} (h : IsHalf f t) :
    halfTag f = t ∧ f.bits = 16 ∧ (t == .fp16x2 || t == .bf16x2) = true ∧ (if t = .bf16x2 then FFmt.bf16 else .f16) = f := by
  rcases h with ⟨rfl, rfl⟩ | ⟨rfl, rfl⟩ <;> decide

/-- The packed format that the model takes. -/
theorem halfFmt_fixed {f : FFmt} {t : Tag} (h : IsHalf f t) {os : List Opd} (hf : HalvesFixed t os) : halfFmt os = .ok f := by
  obtain ⟨-, -, hhalf, hfmt⟩ := h.facts
  rcases hf with ⟨⟨o, ho, hk⟩, hall⟩ | ⟨hall, hhead⟩
  · obtain ⟨p, hp⟩ : ∃ p, os.find? (fun o => !o.konst) = some p :=
      Option.isSome_iff_exists.mp (List.find?_isSome.mpr ⟨o, ho, by simp [hk]⟩)
    have hpt : p.tag = t := hall p (List.mem_of_find?_eq_some hp) (by simpa using List.find?_some hp)
    have hsame : os.find? (fun q => !q.konst && q.tag != t) = none := List.find?_eq_none.mpr fun q hq => by
      cases hqk : q.konst
      · simp [hall q hq hqk]
      · simp
    simp only [halfFmt, hp, hpt, hhalf, hsame, hfmt, Bool.not_true, Bool.false_eq_true, if_false]
  · have hnone : os.find? (fun o => !o.konst) = none := List.find?_eq_none.mpr fun o ho => by simp [hall o ho]
    rw [List.head?_filter, List.find?_map, Function.comp_def] at hhead
    simp only [halfFmt, hnone]
    cases hfind : os.find? fun o => o.tag == .fp16x2 || o.tag == .bf16x2 with
    | none =>
      rw [hfind] at hhead
      obtain rfl : Tag.fp16x2 = t := hhead
      exact congrArg _ hfmt
    | some o =>
      rw [hfind] at hhead
      obtain rfl : o.tag = t := hhead
      exact congrArg _ hfmt

theorem HalvesFixed.no_poison {f : FFmt} {t : Tag} (h : IsHalf f t) {os : List Opd} (hf : HalvesFixed t os) : os.any Opd.pois = false := by
  refine List.any_eq_false.mpr fun o ho => ?_
  cases hk : o.konst
  · rcases hf with ⟨-, hall⟩ | ⟨hall, -⟩
    · rcases h with ⟨-, rfl⟩ | ⟨-, rfl⟩ <;> simp [Opd.pois, hall o ho hk]
    · simp [hall o ho] at hk
  · simp [Opd.pois, hk]

/-- Element `i` of the result of a packed instruction in format `f`. -/
def packedElem (f : FFmt) (r : Rnd) (ftz sat : Bool) (g : List FVal → FVal) (os : List Opd) (i : Nat) : Nat :=
  f.round r ftz (satIf sat (g (os.map fun o => f.decodeZ ftz (o.val.toNat / 2 ^ (16 * i) % 2 ^ 16))))

theorem packedElem_extract {f : FFmt} (hf : f.bits = 16) (r : Rnd) (ftz sat : Bool) (g : List FVal → FVal) (os : List Opd)
    {i : Nat} (hi : i < 2) :
    ((BitVec.ofNat 32 (packedElem f r ftz sat g os 0 + 2 ^ 16 * packedElem f r ftz sat g os 1)).extractLsb' (16 * i) 16).toNat =
      packedElem f r ftz sat g os i := by
  have hlt (i : Nat) : packedElem f r ftz sat g os i < 2 ^ 16 := (f.round_lt r ftz _).trans_eq (by rw [hf])
  have h := ofNat_digits_extract (by decide) hlt (by decide) hi
  simpa [upFrom, mul_comm] using h

/-- A packed instruction: both elements in the format that its sources fix. -/
theorem Computes.of_packed {i : Instr} {d : Dst} (srcs : List Src) {r : Rnd} {ftz sat : Bool} (g : List FVal → FVal) {f : FFmt} {t : Tag}
    (hft : IsHalf f t) (he : ∀ s, exec i s = issue i s (packed d srcs r ftz sat g)) :
    Computes i d 1 (fun x l => HalvesFixed t (srcs.map fun a => x.src a 0 l)) fun x l rs => ∃ w, rs = [⟨w, t⟩] ∧
      ∀ i < 2, (w.extractLsb' (16 * i) 16).toNat = f.round r ftz (satIf sat (g (srcs.map fun a => x.f16 a f ftz i l))) := by
  obtain ⟨htag, hbits, -, -⟩ := hft.facts
  refine .of_perLane 4 _ he fun x l h => ⟨_, rfl, ⟨_, rfl, fun i hi =>
    (packedElem_extract hbits r ftz sat g (srcs.map fun a => x.src a 0 l) hi).trans ?_⟩, ?_⟩
  · simp only [packedElem, List.map_map, Iss.f16, Iss.val, BitVec.extractLsb'_toNat, Nat.shiftRight_eq_div_pow]
    rfl
  · simp only [h.no_poison hft, halfFmt_fixed hft h, htag, Bool.false_eq_true, if_false]
    rfl

end Sys2Proof.Machine

open Sys2Proof Sys2Proof.Machine

/-- Settles O8: the model takes the format that the sources fix, and both its elements are codes of that format. -/
theorem packedHalves : Obligations.PackedHalves := by
  intro h d a b c r ftz sat f t hft both fixes
  exact ⟨.of_packed [a, b] (fsum (isRd r)) hft fun _ => rfl, .of_packed [a, b] fprod hft fun _ => rfl,
    .of_packed (sat := false) [a, b, c] (fmadd (isRd r)) hft fun _ => rfl⟩
end

section
/-! Order, functions of special sources, packing and scaling of floating-point elements (R158, R159, R163, R168 to R171), for O10, O11 and
O13. -/

namespace Sys2Proof.Machine

/-! ### Minimum, maximum, compare (R144, R158, R159) -/

theorem FFmt.flush_lt {f : FFmt} {c : Nat} (ftz : Bool) (hc : c < 2 ^ f.bits) : f.flush ftz c < 2 ^ f.bits := by
  rw [FFmt.flush]
  split
  · exact f.signBit_lt _
  · exact hc

theorem minMaxCode_lt {f : FFmt} (mx ftz : Bool) {p q : Nat} (hp : p < 2 ^ f.bits) (hq : q < 2 ^ f.bits) :
    minMaxCode f mx ftz p q < 2 ^ f.bits := by
  simp only [minMaxCode]
  split
  · exact f.nan_lt
  split
  · exact FFmt.flush_lt ftz hp
  · exact FFmt.flush_lt ftz hq

/-- A source of a format of R155. -/
def Iss.fpOk (x : Iss) (f : VFmt) (a : Src) (l : Nat) : Prop := if f = .f64 then x.dbl a l else x.holds a 0 l [vfmtTag f]

/-- The result of FMIN or FMAX. -/
def MinMaxResult (f : VFmt) (mx ftz : Bool) (a b : Src) (x : Iss) (l : Nat) (rs : List Reg) : Prop :=
  if f = .f64 then rs = halves (BitVec.ofNat 64 (minMaxCode .f64 mx ftz (x.val64 a l).toNat (x.val64 b l).toNat)) .fp64l .fp64h
  else ∃ w, rs = [⟨w, vfmtTag f⟩] ∧ ∀ i < 32 / (vfmt f).bits, (w.extractLsb' ((vfmt f).bits * i) (vfmt f).bits).toNat =
    minMaxCode (vfmt f) mx ftz ((x.val a 0 l).extractLsb' ((vfmt f).bits * i) (vfmt f).bits).toNat
      ((x.val b 0 l).extractLsb' ((vfmt f).bits * i) (vfmt f).bits).toNat

theorem Computes.of_minMax {i : Instr} {d : Dst} {a b : Src} {f : VFmt} {mx ftz : Bool}
    (he : ∀ s, exec i s = issue i s (minMax d a b f mx ftz)) :
    Computes i d (if f = .f64 then 2 else 1) (fun x l => x.fpOk f a l ∧ x.fpOk f b l) (MinMaxResult f mx ftz a b) := by
  by_cases hf : f = .f64
  · subst hf
    refine .of_perLane 4 _ he fun x l ⟨ha, hb⟩ => ⟨_, rfl, ?_, computed_good x _ l _ _ ?_⟩
    · rw [MinMaxResult, if_pos rfl, ← x.pair_eq, ← x.pair_eq]
      exact regs64_eq _
    · exact List.forall_mem_append.mpr ⟨src64_fits ha, src64_fits hb⟩
  · simp only [minMax, if_neg hf] at he
    simp only [Iss.fpOk, if_neg hf]
    refine .op2 4 _ _ _ _ _ he (fun _ _ hok => hok) fun x l _ => ?_
    rw [MinMaxResult, if_neg hf]
    exact ⟨_, rfl, fun i hi => mapFp_extract (fun _ _ => minMaxCode_lt mx ftz) _ _ hi⟩

/-- FCMP's conditions: with a NaN two alone hold (R159). -/
theorem fcondHolds_eq (c : FCond) (v w : FVal) : fcondHolds c v w =
    if v.isNan || w.isNan then (c == .ne || c == .nan)
    else match c with
      | .eq => v.cmp w == 0
      | .ne => v.cmp w != 0
      | .lt => decide (v.cmp w < 0)
      | .le => decide (v.cmp w ≤ 0)
      | .gt => decide (0 < v.cmp w)
      | .ge => decide (0 ≤ v.cmp w)
      | .num => true
      | .nan => false := by
  unfold fcondHolds
  generalize (v.isNan || w.isNan) = nan
  cases nan <;> cases c <;> rfl

/-! ### Functions of special sources (R163) -/

/-- A row of R163: the results for +0, −0, +∞, −∞, NaN, and for a negative value where the table fixes it. -/
def FnRow (row : Nat × Nat × Nat × Nat × Nat × Option Nat) (v : FVal) (code : Nat) : Prop :=
  match v with
  | .nan => code = row.2.2.2.2.1
  | .inf s => code = if s then row.2.2.2.1 else row.2.2.1
  | .fin s m _ => if m = 0 then code = (if s then row.2.1 else row.1) else s = true → ∀ k, row.2.2.2.2.2 = some k → code = k

theorem Computes.of_f32un {i : Instr} {d : Dst} {a : Src} {lat : Nat} {ftz : Bool} {row : Nat × Nat × Nat × Nat × Nat × Option Nat}
    {f : Nat → Nat} (he : ∀ s, exec i s = issue i s (f32un lat d a f)) (h : ∀ src, FnRow row (FFmt.decodeZ .f32 ftz src) (f src)) :
    Computes i d 1 (fun x l => x.holds a 0 l [.fp32])
      fun x l rs => ∃ v, rs = [⟨BitVec.ofNat 32 v, .fp32⟩] ∧ FnRow row (x.f32 a ftz l) v :=
  .op1 lat _ _ _ _ he (fun _ _ hok => hok) fun _ _ _ => ⟨_, rfl, h _⟩

/-- A function of a value meets a row when it gives the row's results for NaN, the infinities, the zeros and the negative values. -/
theorem fnRow_intro {row : Nat × Nat × Nat × Nat × Nat × Option Nat} {f : FVal → Nat} (hnan : f .nan = row.2.2.2.2.1)
    (hpos : f (.inf false) = row.2.2.1) (hneg : f (.inf true) = row.2.2.2.1)
    (hzero : ∀ s e, f (.fin s 0 e) = if s then row.2.1 else row.1)
    (hfix : ∀ m e k, m ≠ 0 → row.2.2.2.2.2 = some k → f (.fin true m e) = k) (v : FVal) : FnRow row v (f v) := by
  cases v with
  | nan => exact hnan
  | inf s =>
    cases s with
    | true => exact hneg
    | false => exact hpos
  | fin s m e =>
    rw [FnRow]
    split
    next hm => exact hm ▸ hzero s e
    next hm =>
      rintro rfl k hk
      exact hfix m e k hm hk

theorem frcp_row (r : Rnd) (ftz : Bool) : ∀ v, FnRow (0x7F800000, 0x80000000 + 0x7F800000, 0, 0x80000000, 0x7FC00000, none) v
    (FFmt.round .f32 r ftz v.recip) :=
  fnRow_intro rfl rfl rfl (fun s _ => by cases s <;> rfl) fun _ _ _ _ h => nomatch h

theorem fsqrt_row (r : Rnd) (ftz : Bool) : ∀ v, FnRow (0, 0x80000000, 0x7F800000, 0x7FC00000, 0x7FC00000, some 0x7FC00000) v
    (FFmt.round .f32 r ftz v.sqrt) :=
  fnRow_intro rfl rfl rfl (fun s _ => by cases s <;> rfl) fun m e k hm hk => by
    rw [FVal.sqrt, if_neg hm]
    exact Option.some.inj hk

theorem frsq_row (ftz : Bool) (src : Nat) : FnRow (0x7F800000, 0x80000000 + 0x7F800000, 0, 0x7FC00000, 0x7FC00000, some 0x7FC00000)
    (FFmt.decodeZ .f32 ftz src) (frsqCode src ftz) := by
  unfold frsqCode
  generalize FFmt.decodeZ .f32 ftz src = v
  revert v
  exact fnRow_intro rfl rfl rfl (fun s _ => by cases s <;> rfl) fun _ _ _ hm hk => (if_neg hm).trans (Option.some.inj hk)

theorem fexp2_row (ftz : Bool) (src : Nat) : FnRow (0x3F800000, 0x3F800000, 0x7F800000, 0, 0x7FC00000, none)
    (FFmt.decodeZ .f32 ftz src) (fexp2Code src ftz) := by
  unfold fexp2Code
  generalize FFmt.decodeZ .f32 ftz src = v
  revert v
  exact fnRow_intro rfl rfl rfl (fun s _ => by cases s <;> rfl) fun _ _ _ _ h => nomatch h

theorem flog2_row (ftz : Bool) (src : Nat) :
    FnRow (0x80000000 + 0x7F800000, 0x80000000 + 0x7F800000, 0x7F800000, 0x7FC00000, 0x7FC00000, some 0x7FC00000)
      (FFmt.decodeZ .f32 ftz src) (flog2Code src ftz) := by
  unfold flog2Code
  generalize FFmt.decodeZ .f32 ftz src = v
  revert v
  exact fnRow_intro rfl rfl rfl (fun s _ => by cases s <;> rfl) fun _ _ _ hm hk => (if_neg hm).trans (Option.some.inj hk)

/-- Sine and cosine differ at the zeros alone. -/
theorem ftrig_row (cos ftz : Bool) (src : Nat) :
    FnRow (if cos then 0x3F800000 else 0, if cos then 0x3F800000 else 0x80000000, 0x7FC00000, 0x7FC00000, 0x7FC00000, none)
      (FFmt.decodeZ .f32 ftz src) (ftrigCode cos src ftz) := by
  unfold ftrigCode
  generalize FFmt.decodeZ .f32 ftz src = v
  revert v
  exact fnRow_intro rfl rfl rfl (fun s _ => by cases s <;> rfl) fun _ _ _ _ h => nomatch h

/-! ### Halves of a register (R168, R169) -/

theorem low_half (p : Word) : p &&& 0xFFFF = (0 : BitVec 16) ++ p.extractLsb' 0 16 := by
  refine BitVec.eq_of_getLsbD_eq fun i hi => ?_
  have hm : (0xFFFF : Word).getLsbD i = decide (i < 16) := by interval_cases i <;> rfl
  rw [BitVec.getLsbD_and, hm, BitVec.getLsbD_append, BitVec.getLsbD_extractLsb', Nat.zero_add]
  by_cases h : i < 16 <;> simp [h]

theorem high_half (p : Word) : p &&& 0xFFFF0000 = p.extractLsb' 16 16 ++ (0 : BitVec 16) := by
  refine BitVec.eq_of_getLsbD_eq fun i hi => ?_
  have hm : (0xFFFF0000 : Word).getLsbD i = decide (16 ≤ i) := by interval_cases i <;> rfl
  rw [BitVec.getLsbD_and, hm, BitVec.getLsbD_append, BitVec.getLsbD_extractLsb']
  by_cases h : i < 16
  · simp [h]
  · simp [h, show i - 16 < 16 by omega, show 16 + (i - 16) = i by omega, show 16 ≤ i by omega]

theorem high_half_down (p : Word) : p >>> 16 = (0 : BitVec 16) ++ p.extractLsb' 16 16 := by
  refine BitVec.eq_of_getLsbD_eq fun i hi => ?_
  rw [BitVec.getLsbD_ushiftRight, BitVec.getLsbD_append, BitVec.getLsbD_extractLsb']
  by_cases h : i < 16
  · simp [h]
  · simp [h, BitVec.getLsbD_of_ge p (16 + i) (by omega)]

theorem low_half_up (p : Word) : p <<< 16 = p.extractLsb' 0 16 ++ (0 : BitVec 16) := by
  refine BitVec.eq_of_getLsbD_eq fun i hi => ?_
  rw [BitVec.getLsbD_shiftLeft, BitVec.getLsbD_append, BitVec.getLsbD_extractLsb', Nat.zero_add]
  by_cases h : i < 16
  · simp [h]
  · simp [h, hi, show i - 16 < 16 by omega]

theorem halves_join (p q : BitVec 16) : (p ++ (0 : BitVec 16)) ||| ((0 : BitVec 16) ++ q) = p ++ q :=
  BitVec.or_append.trans (congrArg₂ _ BitVec.or_zero BitVec.zero_or)

/-- The register of PACK (R168). -/
def packWord (m : PackMode) (p q : Word) : Word :=
  match m with
  | .lo => q.extractLsb' 0 16 ++ p.extractLsb' 0 16
  | .hi => q.extractLsb' 16 16 ++ p.extractLsb' 16 16
  | .lohi => q.extractLsb' 16 16 ++ p.extractLsb' 0 16

theorem packWord_lo (p q : Word) : (q <<< 16) ||| (p &&& 0xFFFF) = packWord .lo p q := by rw [low_half_up, low_half, halves_join, packWord]
theorem packWord_hi (p q : Word) : (q &&& (0xFFFF0000 : Word)) ||| (p >>> 16) = packWord .hi p q := by
  rw [high_half, high_half_down, halves_join, packWord]
theorem packWord_lohi (p q : Word) : (q &&& 0xFFFF0000) ||| (p &&& 0xFFFF) = packWord .lohi p q := by
  rw [high_half, low_half, halves_join, packWord]

/-- The swap of UNPACK (R169). -/
theorem halves_swap (p : Word) : (p <<< 16) ||| (p >>> 16) = p.extractLsb' 0 16 ++ p.extractLsb' 16 16 := by
  rw [low_half_up, high_half_down, halves_join]

/-! ### Scaling (R171) -/

theorem scaleCode_lt (f : FFmt) (r : Rnd) (ftz : Bool) (k : Option Int) (c : Nat) : scaleCode f r ftz k c < 2 ^ f.bits := by
  unfold scaleCode
  split
  · exact f.nan_lt
  · split <;> exact f.round_lt ..

/-- The result of SCALE. -/
def ScaleResult (f : VFmt) (r : Rnd) (ftz : Bool) (m : ScaleMode) (a b : Src) (x : Iss) (l : Nat) (rs : List Reg) : Prop :=
  if f = .f64 then rs = halves (BitVec.ofNat 64 (scaleCode .f64 r ftz (scaleExp m (x.val b 0 l)) (x.val64 a l).toNat)) .fp64l .fp64h
  else ∃ w, rs = [⟨w, vfmtTag f⟩] ∧ ∀ i < 32 / (vfmt f).bits, (w.extractLsb' ((vfmt f).bits * i) (vfmt f).bits).toNat =
    scaleCode (vfmt f) r ftz (scaleExp m (x.val b 0 l)) ((x.val a 0 l).extractLsb' ((vfmt f).bits * i) (vfmt f).bits).toNat

/-- The tags that SCALE accepts in its second source. -/
def scaleTags (m : ScaleMode) : List Tag := if m = .i then intTags else [.e8m0x4]

/-- SCALE in one thread. -/
def scaleLane (d : Dst) (a b : Src) (m : ScaleMode) (f : VFmt) (r : Rnd) (ftz : Bool) (x : Iss) (l : Nat) : LaneRes :=
  if f = .f64 then
    computed x (dstNames d 2) l (src64 x a l ++ [(x.src b 0 l, scaleTags m)]) fun _ =>
      regs64 (scaleCode .f64 r ftz (scaleExp m (x.val b 0 l)) (x.pair a l))
  else
    computed x (dstNames d 1) l [(x.src a 0 l, [vfmtTag f]), (x.src b 0 l, scaleTags m)] fun _ =>
      one32 (mapFp (vfmt f) (fun c _ => scaleCode (vfmt f) r ftz (scaleExp m (x.val b 0 l)) c) (x.val a 0 l) 0) (vfmtTag f)

theorem exec_scale (h : Hdr) (d : Dst) (a b : Src) (m : ScaleMode) (f : VFmt) (r : Rnd) (ftz : Bool) (s : State) :
    exec (.scale h d a b m f r ftz) s =
      issue (.scale h d a b m f r ftz) s (perLane (.fixed 4) (dstNames d (vfmtRegs f)) (scaleLane d a b m f r ftz)) :=
  rfl

theorem scale_computes (h : Hdr) (d : Dst) (a b : Src) (m : ScaleMode) (f : VFmt) (r : Rnd) (ftz : Bool) :
    Computes (.scale h d a b m f r ftz) d (if f = .f64 then 2 else 1) (fun x l => x.fpOk f a l ∧ x.holds b 0 l (scaleTags m))
      (ScaleResult f r ftz m a b) := by
  by_cases hf : f = .f64
  · subst hf
    refine .of_perLane 4 _ (exec_scale h d a b m _ r ftz) fun x l ⟨ha, hb⟩ =>
      ⟨_, ?_, ?_, (if_pos rfl).trans (computed_good x _ l _ _ ?_)⟩
    · rfl
    · rw [ScaleResult, if_pos rfl, ← x.pair_eq]
      exact regs64_eq _
    · exact List.forall_mem_append.mpr ⟨src64_fits ha, fits_alone hb⟩
  · have hn : vfmtRegs f = 1 := by
      cases f with
      | f64 => exact absurd rfl hf
      | _ => rfl
    have he := exec_scale h d a b m f r ftz
    simp only [hn] at he
    simp only [if_neg hf]
    refine .of_perLane 4 _ he fun x l ⟨ha, hb⟩ => ⟨_, rfl, ?_, (if_neg hf).trans (computed_good x _ l _ _ ?_)⟩
    · rw [ScaleResult, if_neg hf]
      exact ⟨_, rfl, fun i hi => mapFp_extract (fun _ _ _ _ => scaleCode_lt ..) _ _ hi⟩
    · rw [Iss.fpOk, if_neg hf] at ha
      exact fits_both ha hb

end Sys2Proof.Machine

open Sys2Proof Sys2Proof.Machine

/-- Settles O10: the elements of a minimum or a maximum are codes of their format, so each stands in its place; and a compare's condition
holds by the order of the values, or by the NaN. -/
theorem floatOrder : Obligations.FloatOrder := by
  refine ⟨fun h d a b f ftz => ⟨.of_minMax fun _ => rfl, .of_minMax fun _ => rfl⟩,
    fun h pd a b f64 c ftz => .of_perLane 4 _ (fun _ => rfl) ?_⟩
  cases f64 with
  | true =>
    intro x l ⟨ha, hb⟩
    refine (if_pos rfl).trans ((compared_good pd _ _ (List.forall_mem_append.mpr ⟨src64_fits ha, src64_fits hb⟩)).trans ?_)
    rw [x.f64_pair, x.f64_pair]
    exact congrArg (LaneRes.flag pd) (fcondHolds_eq c _ _)
  | false =>
    intro x l ⟨ha, hb⟩
    exact (if_neg Bool.false_ne_true).trans
      ((compared_good pd _ _ (fits_both ha hb)).trans (congrArg (LaneRes.flag pd) (fcondHolds_eq c (x.f32 a ftz l) (x.f32 b ftz l))))

/-- Settles O11: each function meets its row of the table, special source by special source. -/
theorem functionsOfSpecialSources : Obligations.FunctionsOfSpecialSources := by
  intro h d a r ftz inf nan one neg table ok
  exact ⟨.of_f32un (fun _ => rfl) fun _ => frcp_row r ftz _, .of_f32un (fun _ => rfl) (frsq_row ftz),
    .of_f32un (fun _ => rfl) fun _ => fsqrt_row r ftz _, .of_f32un (fun _ => rfl) (fexp2_row ftz), .of_f32un (fun _ => rfl) (flog2_row ftz),
    .of_f32un (fun _ => rfl) (ftrig_row false ftz), .of_f32un (fun _ => rfl) (ftrig_row true ftz)⟩

/-- Settles O13: masks and shifts of a register are its halves, joined with zeros; and a scaled element is a code of its format. -/
theorem packingAndScaling : Obligations.PackingAndScaling := by
  intro h d a b m n t k f r ftz lo hi
  refine ⟨.of_perLane 3 _ (fun _ => rfl) fun x l ⟨ha, hb⟩ => ⟨_, rfl, rfl, ?_⟩,
    .of_perLane 3 _ (fun _ => rfl) fun x l _ => ⟨_, rfl, rfl, ?_⟩,
    .of_perLane 2 _ (fun _ => rfl) fun x l _ => ⟨_, rfl, rfl, rfl⟩, ?_⟩
  · have ht {p : Prop} [Decidable p] : (if p then (x.src a 0 l).tag else .raw) ≠ .poison := by
      split
      · exact ha
      · decide
    simp only [ha, hb, or_self, if_false, List.contains_iff_mem, if_neg ht]
    cases m with
    | lo => exact congrArg (fun v => LaneRes.clean [⟨v, _⟩] none) (packWord_lo _ _)
    | hi => exact congrArg (fun v => LaneRes.clean [⟨v, _⟩] none) (packWord_hi _ _)
    | lohi => exact congrArg (fun v => LaneRes.clean [⟨v, _⟩] none) (packWord_lohi _ _)
  · cases n with
    | lo => exact congrArg (fun v => LaneRes.clean [⟨v, _⟩] none) (low_half _)
    | hi => exact congrArg (fun v => LaneRes.clean [⟨v, _⟩] none) (high_half_down _)
    | swap => exact congrArg (fun v => LaneRes.clean [⟨v, _⟩] none) (halves_swap _)
  · cases k <;> exact scale_computes h d a b _ f r ftz
end

section
/-! Exactness (R141, R156, R159), for O9: sums, products and compares are those of the rational numbers, and a rounded value is a neighbour
of the exact one in units of its place. -/

namespace Sys2Proof.Machine

/-! ### Finite values as rational numbers -/

/-- A sign as a factor. -/
def signQ (s : Bool) : ℚ := if s then -1 else 1

theorem signQ_not (s : Bool) : signQ (!s) = -signQ s := by cases s <;> simp [signQ]

theorem signQ_bne (s t : Bool) : signQ (s != t) = signQ s * signQ t := by cases s <;> cases t <;> simp [signQ]

theorem abs_signQ_mul (s : Bool) (x : ℚ) : |signQ s * x| = |x| := by cases s <;> simp [signQ]

theorem signQ_mul_le {s : Bool} {x y : ℚ} (h : if s then y ≤ x else x ≤ y) : signQ s * x ≤ signQ s * y := by
  cases s with
  | true => simpa [signQ] using h
  | false => simpa [signQ] using h

theorem FVal.toRat_fin (s : Bool) (m : Nat) (e : Int) : (FVal.fin s m e).toRat = some (signQ s * m * (2 : ℚ) ^ e) := rfl

theorem FVal.toRat_zero (s : Bool) : (FVal.zero s).toRat = some 0 := by simp [FVal.zero, FVal.toRat]

theorem FVal.of_toRat {v : FVal} {p : ℚ} (h : v.toRat = some p) : ∃ s m e, v = .fin s m e ∧ p = signQ s * m * (2 : ℚ) ^ e := by
  cases v with
  | nan => cases h
  | inf s => cases h
  | fin s m e => exact ⟨s, m, e, rfl, (Option.some.inj h).symm⟩

theorem two_zpow_pos (u : Int) : (0 : ℚ) < 2 ^ u := zpow_pos (by norm_num) u

theorem two_zpow_add (u v : Int) : (2 : ℚ) ^ (u + v) = 2 ^ u * 2 ^ v := zpow_add₀ (by norm_num) u v

/-- A magnitude in smaller units. -/
theorem in_units {u e : Int} (h : u ≤ e) (m : Nat) : ((m * 2 ^ (e - u).toNat : Nat) : ℚ) * 2 ^ u = m * 2 ^ e := by
  obtain ⟨k, rfl⟩ := Int.le.dest h
  rw [show (u + k - u).toNat = k by omega, two_zpow_add]
  push_cast
  rw [zpow_natCast]
  ring

/-- A finite value in units of 2^u. -/
def signedAt (s : Bool) (m : Nat) (e u : Int) : Int :=
  if s then -((m * 2 ^ (e - u).toNat : Nat) : Int) else ((m * 2 ^ (e - u).toNat : Nat) : Int)

theorem signedAt_rat {u e : Int} (h : u ≤ e) (s : Bool) (m : Nat) : (signedAt s m e u : ℚ) * 2 ^ u = signQ s * m * 2 ^ e := by
  cases s
  · rw [signedAt, if_neg Bool.false_ne_true, Int.cast_natCast, in_units h, signQ, if_neg Bool.false_ne_true, one_mul]
  · rw [signedAt, if_pos rfl, Int.cast_neg, Int.cast_natCast, neg_mul, in_units h, signQ, if_pos rfl, neg_one_mul, neg_mul]

theorem FVal.add_fin (rd s t : Bool) (m n : Nat) (e d : Int) : (FVal.fin s m e).add rd (.fin t n d) =
    if signedAt s m e (min e d) + signedAt t n d (min e d) = 0 then (if m = 0 ∧ n = 0 ∧ s = t then .zero s else .zero rd)
    else .fin (decide (signedAt s m e (min e d) + signedAt t n d (min e d) < 0))
      (signedAt s m e (min e d) + signedAt t n d (min e d)).natAbs (min e d) := rfl

theorem FVal.cmp_fin (s t : Bool) (m n : Nat) (e d : Int) :
    (FVal.fin s m e).cmp (.fin t n d) = (signedAt s m e (min e d) - signedAt t n d (min e d)).sign := rfl

/-- An integer by its sign and its magnitude. -/
theorem signQ_natAbs (x : Int) : signQ (decide (x < 0)) * (x.natAbs : ℚ) = x := by
  rw [Nat.cast_natAbs, Int.cast_abs]
  by_cases h : x < 0
  · rw [decide_eq_true h, signQ, if_pos rfl, abs_of_neg (Int.cast_lt_zero.mpr h), neg_one_mul, neg_neg]
  · rw [decide_eq_false h, signQ, if_neg Bool.false_ne_true, abs_of_nonneg (Int.cast_nonneg (not_lt.mp h)), one_mul]

section
variable {v w : FVal} {p q : ℚ}

/-- A sum is exact (R156). -/
theorem FVal.toRat_add (rd : Bool) (hv : v.toRat = some p) (hw : w.toRat = some q) : (v.add rd w).toRat = some (p + q) := by
  obtain ⟨s, m, e, rfl, rfl⟩ := FVal.of_toRat hv
  obtain ⟨t, n, d, rfl, rfl⟩ := FVal.of_toRat hw
  rw [FVal.add_fin, ← signedAt_rat (min_le_left e d) s m, ← signedAt_rat (min_le_right e d) t n, ← add_mul, ← Int.cast_add]
  generalize signedAt s m e (min e d) + signedAt t n d (min e d) = x
  by_cases hx : x = 0
  · subst hx
    rw [if_pos rfl, Int.cast_zero, zero_mul]
    split <;> exact FVal.toRat_zero _
  · rw [if_neg hx, FVal.toRat_fin, signQ_natAbs]

/-- So is a product. -/
theorem FVal.toRat_mul (hv : v.toRat = some p) (hw : w.toRat = some q) : (v.mul w).toRat = some (p * q) := by
  obtain ⟨s, m, e, rfl, rfl⟩ := FVal.of_toRat hv
  obtain ⟨t, n, d, rfl, rfl⟩ := FVal.of_toRat hw
  rw [FVal.mul, FVal.toRat_fin, signQ_bne, two_zpow_add]
  push_cast
  congr 1
  ring

theorem FVal.toRat_neg (hv : v.toRat = some p) : v.neg.toRat = some (-p) := by
  obtain ⟨s, m, e, rfl, rfl⟩ := FVal.of_toRat hv
  rw [FVal.neg, FVal.toRat_fin, signQ_not, neg_mul, neg_mul]

/-- A compare of finite values is that of the numbers (R159). -/
theorem FVal.cmp_toRat (hv : v.toRat = some p) (hw : w.toRat = some q) : v.cmp w = if p < q then -1 else if p = q then 0 else 1 := by
  obtain ⟨s, m, e, rfl, rfl⟩ := FVal.of_toRat hv
  obtain ⟨t, n, d, rfl, rfl⟩ := FVal.of_toRat hw
  have hpos := two_zpow_pos (min e d)
  rw [FVal.cmp_fin, ← signedAt_rat (min_le_left e d) s m, ← signedAt_rat (min_le_right e d) t n]
  generalize signedAt s m e (min e d) = x
  generalize signedAt t n d (min e d) = y
  simp only [mul_lt_mul_iff_left₀ hpos, mul_left_inj' hpos.ne', Int.cast_lt, Int.cast_inj]
  rcases lt_trichotomy x y with h | rfl | h
  · rw [if_pos h, Int.sign_eq_neg_one_of_neg (by omega)]
  · rw [if_neg (lt_irrefl x), if_pos rfl, Int.sub_self, Int.sign_zero]
  · rw [if_neg h.not_gt, if_neg h.ne', Int.sign_eq_one_of_pos (by omega)]

end

/-! ### The parts of a code (R135) -/

theorem FFmt.eb_pos (f : FFmt) : 0 < f.eb := by cases f <;> decide

theorem FFmt.bits_eq (f : FFmt) : f.bits - 1 = f.eb + f.mb ∧ f.bits - 2 + 1 - f.mb = f.eb := by
  have := f.eb_pos
  rw [FFmt.bits]
  omega

theorem FFmt.signBit_eq (f : FFmt) (neg : Bool) : f.signBit neg = b2n neg * 2 ^ f.eb * 2 ^ f.mb := by
  rw [FFmt.signBit, f.bits_eq.1, pow_add]
  cases neg
  · simp [b2n]
  · simp [b2n]

section
variable (f : FFmt) (neg : Bool) {x y : Nat}

/-- The sign, the exponent and the mantissa of a code that is put together. -/
theorem FFmt.code_parts (hx : x < 2 ^ f.eb) (hy : y < 2 ^ f.mb) :
    bitAt (f.signBit neg + (x * 2 ^ f.mb + y)) (f.bits - 1) = neg ∧ fld (f.signBit neg + (x * 2 ^ f.mb + y)) (f.bits - 2) f.mb = x ∧
      (f.signBit neg + (x * 2 ^ f.mb + y)) % 2 ^ f.mb = y := by
  have hc : f.signBit neg + (x * 2 ^ f.mb + y) = y + 2 ^ f.mb * (x + 2 ^ f.eb * b2n neg) := by rw [f.signBit_eq]; ring
  have hdiv : (f.signBit neg + (x * 2 ^ f.mb + y)) / 2 ^ f.mb = x + 2 ^ f.eb * b2n neg := by
    rw [hc, Nat.add_mul_div_left _ _ (Nat.two_pow_pos _), Nat.div_eq_of_lt hy, Nat.zero_add]
  refine ⟨?_, ?_, by rw [hc, Nat.add_mul_mod_self_left, Nat.mod_eq_of_lt hy]⟩
  · rw [bitAt, f.bits_eq.1, Nat.add_comm f.eb, pow_add, ← Nat.div_div_eq_div_mul, hdiv, Nat.add_mul_div_left _ _ (Nat.two_pow_pos _),
      Nat.div_eq_of_lt hx, Nat.zero_add]
    cases neg <;> rfl
  · rw [fld, f.bits_eq.2, hdiv, Nat.add_mul_mod_self_left, Nat.mod_eq_of_lt hx]

/-- The codes past the largest finite one are those of the infinities and NaNs. -/
theorem FFmt.maxCode_lt_iff (hx : x < 2 ^ f.eb) (hy : y < 2 ^ f.mb) : f.maxCode < x * 2 ^ f.mb + y ↔
    (f.hasInf = true ∧ x = 2 ^ f.eb - 1) ∨ (f = .e4m3 ∧ x = 2 ^ f.eb - 1 ∧ y = 7) := by
  cases f <;> simp only [FFmt.mb, FFmt.eb, FFmt.maxCode, FFmt.hasInf, reduceCtorEq, Bool.false_eq_true, true_and, false_and, or_false,
      false_or, iff_false] at * <;>
    omega

theorem FFmt.decode_finite (hx : x < 2 ^ f.eb) (hy : y < 2 ^ f.mb) (hc : x * 2 ^ f.mb + y ≤ f.maxCode) :
    f.decode (f.signBit neg + (x * 2 ^ f.mb + y)) =
      if x = 0 then .fin neg y f.qmin else .fin neg (2 ^ f.mb + y) (f.qmin + (x : Int) - 1) := by
  obtain ⟨hneg, hexp, hman⟩ := f.code_parts neg hx hy
  obtain ⟨hinf, hnan⟩ := not_or.mp (mt (f.maxCode_lt_iff hx hy).mpr hc.not_gt)
  have h1 : (f.hasInf && x == 2 ^ f.eb - 1) = false := by simpa using hinf
  have h2 : (f == .e4m3 && x == 2 ^ f.eb - 1 && y == 7) = false := by simpa [and_assoc] using hnan
  simp only [FFmt.decode, hneg, hexp, hman, h1, h2, Bool.false_eq_true, if_false]

theorem FFmt.decode_special (hx : x < 2 ^ f.eb) (hy : y < 2 ^ f.mb) (hc : f.maxCode < x * 2 ^ f.mb + y) :
    (f.decode (f.signBit neg + (x * 2 ^ f.mb + y))).toRat = none := by
  obtain ⟨hneg, hexp, hman⟩ := f.code_parts neg hx hy
  simp only [FFmt.decode, hneg, hexp, hman]
  rcases (f.maxCode_lt_iff hx hy).mp hc with ⟨hi, rfl⟩ | ⟨rfl, rfl, rfl⟩
  · simp only [hi, beq_self_eq_true, Bool.and_self, if_true]
    split <;> rfl
  · rfl

end

/-! ### Values of a format -/

/-- n × 2^u as a format counts it: in the units of its binade, or of the subnormals. -/
structure FFmt.Canon (f : FFmt) (n : Nat) (u : Int) : Prop where
  lt : n < 2 ^ (f.mb + 1)
  unit : f.qmin ≤ u
  low : n < 2 ^ f.mb → u = f.qmin

section
variable {f : FFmt} {n k : Nat} {u v : Int}

theorem FFmt.Canon.magCode (h : f.Canon n u) : f.magCode n u = (u - f.qmin).toNat * 2 ^ f.mb + n := by
  rw [FFmt.magCode]
  split
  next hn => simp [h.low hn]
  next hn => rw [Nat.add_mul]; omega

theorem FFmt.Canon.zero (f : FFmt) : f.Canon 0 f.qmin ∧ f.magCode 0 f.qmin = 0 :=
  ⟨⟨Nat.two_pow_pos _, le_refl _, fun _ => rfl⟩, if_pos (Nat.two_pow_pos _)⟩

/-- The code of a value of a format decodes to it. -/
theorem FFmt.Canon.decode (h : f.Canon n u) (hc : f.magCode n u ≤ f.maxCode) (neg : Bool) :
    f.decode (f.signBit neg + f.magCode n u) = .fin neg n u := by
  by_cases hn : n < 2 ^ f.mb
  · obtain rfl := h.low hn
    have he : f.magCode n f.qmin = 0 * 2 ^ f.mb + n := by rw [FFmt.magCode, if_pos hn, Nat.zero_mul, Nat.zero_add]
    rw [he, f.decode_finite neg (Nat.two_pow_pos _) hn (he ▸ hc), if_pos rfl]
  · have he : f.magCode n u = ((u - f.qmin).toNat + 1) * 2 ^ f.mb + (n - 2 ^ f.mb) := by rw [FFmt.magCode, if_neg hn]
    have hlt := h.lt
    have hunit := h.unit
    have hx : (u - f.qmin).toNat + 1 < 2 ^ f.eb := by
      have hmax := f.maxCode_lt.1
      rw [f.bits_eq.1, pow_add] at hmax
      exact lt_of_mul_lt_mul_right (a := 2 ^ f.mb) (by omega) (Nat.zero_le _)
    rw [he, f.decode_finite neg hx (by rw [pow_succ] at hlt; omega) (he ▸ hc), if_neg (Nat.succ_ne_zero _)]
    congr 1 <;> omega

/-- Every code is put together of a sign, an exponent and a mantissa. -/
theorem FFmt.exists_parts {c : Nat} (hc : c < 2 ^ f.bits) :
    ∃ neg x y, x < 2 ^ f.eb ∧ y < 2 ^ f.mb ∧ c = f.signBit neg + (x * 2 ^ f.mb + y) := by
  rw [f.two_pow_bits] at hc
  obtain ⟨neg, m, hm, rfl⟩ : ∃ neg m, m < 2 ^ (f.bits - 1) ∧ c = f.signBit neg + m := by
    by_cases h : c < 2 ^ (f.bits - 1)
    · exact ⟨false, c, h, (Nat.zero_add c).symm⟩
    · refine ⟨true, c - 2 ^ (f.bits - 1), by omega, ?_⟩
      rw [FFmt.signBit, if_pos rfl]
      omega
  rw [f.bits_eq.1, pow_add, Nat.mul_comm] at hm
  exact ⟨neg, m / 2 ^ f.mb, m % 2 ^ f.mb, Nat.div_lt_of_lt_mul hm, Nat.mod_lt _ (Nat.two_pow_pos _), by rw [Nat.div_add_mod']⟩

/-- A code of a finite value is that value's. -/
theorem FFmt.decode_inv {c : Nat} {q : ℚ} (hc : c < 2 ^ f.bits) (hq : (f.decode c).toRat = some q) :
    ∃ neg n u, f.Canon n u ∧ f.magCode n u ≤ f.maxCode ∧ c = f.signBit neg + f.magCode n u ∧ f.decode c = .fin neg n u := by
  obtain ⟨neg, x, y, hx, hy, rfl⟩ := FFmt.exists_parts hc
  have hfin : x * 2 ^ f.mb + y ≤ f.maxCode := by
    by_contra hn
    rw [f.decode_special neg hx hy (not_le.mp hn)] at hq
    cases hq
  obtain ⟨n, u, hcan, hmag⟩ : ∃ n u, f.Canon n u ∧ f.magCode n u = x * 2 ^ f.mb + y := by
    by_cases h0 : x = 0
    · exact ⟨y, f.qmin, ⟨hy.trans (Nat.pow_lt_pow_succ (by decide)), le_refl _, fun _ => rfl⟩, by
        rw [FFmt.magCode, if_pos hy, h0]; omega⟩
    · have hcan : f.Canon (2 ^ f.mb + y) (f.qmin + (x : Int) - 1) := ⟨by rw [pow_succ]; omega, by omega, fun h => absurd h (by omega)⟩
      refine ⟨_, _, hcan, ?_⟩
      rw [FFmt.magCode, if_neg (by omega), show (f.qmin + (x : Int) - 1 - f.qmin).toNat + 1 = x by omega, Nat.add_sub_cancel_left]
  rw [← hmag] at hfin ⊢
  exact ⟨neg, n, u, hcan, hfin, rfl, hcan.decode hfin neg⟩

theorem FFmt.Canon.unitOf (h : f.Canon n u) (h0 : n ≠ 0) : f.unitOf n u = u := by
  have hunit := h.unit
  by_cases hn : n < 2 ^ f.mb
  · have hlog := (Nat.log2_lt h0).mpr hn
    rw [FFmt.unitOf, h.low hn]
    omega
  · have hlog : Nat.log2 n = f.mb := (Nat.log2_eq_iff h0).mpr ⟨not_lt.mp hn, h.lt⟩
    rw [FFmt.unitOf, hlog]
    omega

theorem roundTo_same (r : Rnd) (neg : Bool) (n : Nat) (u : Int) : roundTo r neg n u u = n := by
  simp [roundTo]

/-- Rounding leaves a value of the format (R141). -/
theorem FFmt.Canon.round (h : f.Canon n u) (hc : f.magCode n u ≤ f.maxCode) (h0 : n ≠ 0) (r : Rnd) (neg : Bool) :
    f.round r false (.fin neg n u) = f.signBit neg + f.magCode n u := by
  have hmag : f.roundMag r neg n u = f.magCode n u := by
    simp only [FFmt.roundMag, h.unitOf h0, roundTo_same, if_neg h.lt.ne]
  rw [f.round_fin, if_neg h0, Bool.false_and, if_neg Bool.false_ne_true, hmag, FFmt.signed_of_finite hc]
  rw [h.magCode]
  omega

theorem FFmt.round_decode {c : Nat} {q : ℚ} (hc : c < 2 ^ f.bits) (hq : (f.decode c).toRat = some q) (h0 : f = .e2m1 → q ≠ 0)
    (r : Rnd) : f.round r false (f.decode c) = c := by
  obtain ⟨neg, n, u, hcan, hfin, hcode, hdec⟩ := FFmt.decode_inv hc hq
  rw [hdec, hcode]
  by_cases hn : n = 0
  · subst hn
    obtain rfl := hcan.low (Nat.two_pow_pos _)
    have hf : f ≠ .e2m1 := fun hf => h0 hf <| by
      rw [hdec, FVal.toRat_fin] at hq
      simpa using (Option.some.inj hq).symm
    rw [f.round_fin, if_pos rfl, FFmt.zeroCode, if_neg hf, (FFmt.Canon.zero f).2, Nat.add_zero]
  · exact hcan.round hfin hn r neg


/-! ### Rounding to a neighbour (R141) -/

/-- `n` is the rounding of a magnitude `x` to an integer; `neg` is the sign of the value. -/
structure RoundsTo (r : Rnd) (neg : Bool) (n : Nat) (x : ℚ) : Prop where
  near : |(n : ℚ) - x| < 1
  side : match r with
    | .rn => 2 * |(n : ℚ) - x| ≤ 1
    | .rz => (n : ℚ) ≤ x
    | .ru => if neg then (n : ℚ) ≤ x else x ≤ n
    | .rd => if neg then x ≤ n else (n : ℚ) ≤ x

theorem RoundsTo.exact (r : Rnd) (neg : Bool) (n : Nat) : RoundsTo r neg n n := by
  refine ⟨by simp, ?_⟩
  cases r <;> cases neg <;> simp

/-- Down, by less than one unit: what a mode asks. -/
theorem RoundsTo.down {r : Rnd} {neg : Bool} {n : Nat} {y : ℚ} (h0 : 0 ≤ y) (h1 : y < 1)
    (hr : match r with
      | .rn => 2 * y ≤ 1
      | .rz => True
      | .ru => neg = false → y = 0
      | .rd => neg = true → y = 0) : RoundsTo r neg n (n + y) := by
  have hd : |(n : ℚ) - (n + y)| = y := by rw [sub_add_cancel_left, abs_neg, abs_of_nonneg h0]
  have hle : (n : ℚ) ≤ n + y := le_add_of_nonneg_right h0
  refine ⟨by rwa [hd], ?_⟩
  cases r with
  | rn => simpa only [hd] using hr
  | rz => exact hle
  | ru =>
    cases neg with
    | true => exact hle
    | false => simp [hr rfl]
  | rd =>
    cases neg with
    | true => simp [hr rfl]
    | false => exact hle

theorem RoundsTo.up {r : Rnd} {neg : Bool} {n : Nat} {y : ℚ} (h0 : 0 < y) (h1 : y < 1)
    (hr : match r with
      | .rn => 1 ≤ 2 * y
      | .rz => False
      | .ru => neg = false
      | .rd => neg = true) : RoundsTo r neg (n + 1) (n + y) := by
  have hd : |((n + 1 : Nat) : ℚ) - (n + y)| = 1 - y := by
    push_cast
    rw [add_sub_add_left_eq_sub, abs_of_pos (sub_pos.mpr h1)]
  have hle : (n : ℚ) + y ≤ ((n + 1 : Nat) : ℚ) := by push_cast; linarith
  refine ⟨by rw [hd]; linarith, ?_⟩
  cases r with
  | rn => rw [hd]; simp only at hr; linarith
  | rz => exact hr.elim
  | ru => subst hr; exact hle
  | rd => subst hr; exact hle

/-- A magnitude that is not a whole number of units, by its quotient and its remainder. -/
theorem div_two_pow (m s : Nat) : (m : ℚ) / 2 ^ s = (m / 2 ^ s : Nat) + ((m % 2 ^ s : Nat) : ℚ) / 2 ^ s := by
  have h : (m : ℚ) = ((m / 2 ^ s : Nat) : ℚ) * 2 ^ s + ((m % 2 ^ s : Nat) : ℚ) := by exact_mod_cast (Nat.div_add_mod' m (2 ^ s)).symm
  rw [h]
  field_simp

/-- Whether a quotient of a division by an even number goes up, by its remainder against the half. -/
def roundsUp (r : Rnd) (neg : Bool) (q rem half : Nat) : Bool :=
  match r with
  | .rn => decide (half < rem) || (rem == half && q % 2 == 1)
  | .rz => false
  | .ru => !neg && rem != 0
  | .rd => neg && rem != 0

theorem roundTo_coarse (r : Rnd) (neg : Bool) (m : Nat) {e u : Int} (h : ¬u ≤ e) : roundTo r neg m e u =
    if roundsUp r neg (m / 2 ^ (u - e).toNat) (m % 2 ^ (u - e).toNat) (2 ^ (u - e).toNat / 2) then m / 2 ^ (u - e).toNat + 1
    else m / 2 ^ (u - e).toNat := by
  rw [roundTo, if_neg h]
  rfl

theorem RoundsTo.quotient (r : Rnd) (neg : Bool) (q : Nat) {rem half : Nat} (hhalf : 0 < half) (hrem : rem < 2 * half) :
    RoundsTo r neg (if roundsUp r neg q rem half then q + 1 else q) (q + (rem : ℚ) / (2 * half : Nat)) := by
  have hpos : (0 : ℚ) < (2 * half : Nat) := by exact_mod_cast (by omega : 0 < 2 * half)
  have h0 : 0 ≤ (rem : ℚ) / (2 * half : Nat) := by positivity
  have h1 : (rem : ℚ) / (2 * half : Nat) < 1 := (div_lt_one hpos).mpr (by exact_mod_cast hrem)
  have hzero : rem = 0 → (rem : ℚ) / (2 * half : Nat) = 0 := fun h => by rw [h, Nat.cast_zero, zero_div]
  have hle : rem ≤ half → 2 * ((rem : ℚ) / (2 * half : Nat)) ≤ 1 := fun h => by
    rw [← mul_div_assoc, div_le_one hpos]
    exact_mod_cast (by omega : 2 * rem ≤ 2 * half)
  have hge : half ≤ rem → 1 ≤ 2 * ((rem : ℚ) / (2 * half : Nat)) := fun h => by
    rw [← mul_div_assoc, one_le_div hpos]
    exact_mod_cast (by omega : 2 * half ≤ 2 * rem)
  cases hup : roundsUp r neg q rem half with
  | true =>
    have hr0 : rem ≠ 0 := by
      rintro rfl
      cases r with
      | rn => simp [roundsUp, hhalf.ne] at hup
      | _ => simp [roundsUp] at hup
    refine .up (h0.lt_of_ne' (div_ne_zero (by exact_mod_cast hr0) hpos.ne')) h1 ?_
    cases r with
    | rn => exact hge (by simp only [roundsUp, Bool.or_eq_true, Bool.and_eq_true, decide_eq_true_eq, beq_iff_eq] at hup; omega)
    | rz => cases hup
    | ru => simpa [roundsUp, hr0] using hup
    | rd => simpa [roundsUp, hr0] using hup
  | false =>
    refine .down h0 h1 ?_
    cases r with
    | rn => exact hle (not_lt.mp (of_decide_eq_false (Bool.or_eq_false_iff.mp hup).1))
    | rz => trivial
    | ru => exact fun hn => hzero (by simpa [roundsUp, hn] using hup)
    | rd => exact fun hn => hzero (by simpa [roundsUp, hn] using hup)

/-- What the model rounds m × 2^e to, in units of 2^u. -/
theorem roundTo_rounds (r : Rnd) (neg : Bool) (m : Nat) (e u : Int) : RoundsTo r neg (roundTo r neg m e u) (m * 2 ^ (e - u)) := by
  by_cases h : u ≤ e
  · have hx : (m : ℚ) * 2 ^ (e - u) = (m * 2 ^ (e - u).toNat : Nat) := by
      rw [show e - u = ((e - u).toNat : Int) by omega]
      rw [zpow_natCast, Int.toNat_natCast]
      push_cast
      rfl
    rw [roundTo, if_pos h, hx]
    exact .exact r neg _
  · obtain ⟨s, hs⟩ : ∃ s : Nat, (u - e).toNat = s + 1 := ⟨(u - e).toNat - 1, by omega⟩
    have hpow : 2 ^ (s + 1) = 2 * 2 ^ s := pow_succ' 2 s
    have hx : (m : ℚ) * 2 ^ (e - u) = (m / 2 ^ (s + 1) : Nat) + ((m % 2 ^ (s + 1) : Nat) : ℚ) / (2 * 2 ^ s : Nat) := by
      rw [show e - u = -((s + 1 : Nat) : Int) by omega, zpow_neg, zpow_natCast, ← div_eq_mul_inv, div_two_pow, ← hpow,
        Nat.cast_pow, Nat.cast_ofNat]
    rw [roundTo_coarse r neg m h, hs, hx, show 2 ^ (s + 1) / 2 = 2 ^ s by omega]
    exact .quotient r neg _ (Nat.two_pow_pos s) (hpow ▸ Nat.mod_lt _ (Nat.two_pow_pos _))

/-- What bounds a magnitude in whole units bounds its rounding. -/
theorem RoundsTo.le_of_le {r : Rnd} {neg : Bool} {x : ℚ} (h : RoundsTo r neg n x) (hx : x ≤ k) : n ≤ k := by
  have hlt : (n : ℚ) < k + 1 := by linarith [(abs_lt.mp h.near).2]
  exact Nat.lt_succ_iff.mp (by exact_mod_cast hlt)

theorem RoundsTo.ge_of_ge {r : Rnd} {neg : Bool} {x : ℚ} (h : RoundsTo r neg n x) (hx : k ≤ x) : k ≤ n := by
  have hlt : (k : ℚ) < n + 1 := by linarith [(abs_lt.mp h.near).1]
  exact Nat.lt_succ_iff.mp (by exact_mod_cast hlt)

/-! ### Rounding to a format (R141) -/

theorem two_zpow_le {u v : Int} (h : u ≤ v) : (2 : ℚ) ^ u ≤ 2 ^ v := zpow_le_zpow_right₀ (by norm_num) h

theorem natCast_two_pow (k : Nat) : ((2 ^ k : Nat) : ℚ) = 2 ^ (k : Int) := by rw [zpow_natCast, Nat.cast_pow, Nat.cast_ofNat]

theorem FFmt.qmin_le_unitOf (f : FFmt) (m : Nat) (e : Int) : f.qmin ≤ f.unitOf m e := le_max_right _ _

/-- A magnitude in the units in which it is rounded: less than twice the mantissa's range, and no less than it above the subnormals. -/
theorem FFmt.unitOf_bounds (f : FFmt) {m : Nat} (hm : 0 < m) (e : Int) :
    (m : ℚ) * 2 ^ (e - f.unitOf m e) ≤ (2 ^ (f.mb + 1) : Nat) ∧
      (f.unitOf m e ≠ f.qmin → ((2 ^ f.mb : Nat) : ℚ) ≤ m * 2 ^ (e - f.unitOf m e)) := by
  have hhi : (m : ℚ) ≤ 2 ^ ((m.log2 + 1 : Nat) : Int) := by
    rw [← natCast_two_pow]
    exact_mod_cast Nat.lt_log2_self.le
  have hlo : (2 : ℚ) ^ (m.log2 : Int) ≤ m := by
    rw [← natCast_two_pow]
    exact_mod_cast Nat.log2_self_le hm.ne'
  have hpos := two_zpow_pos (e - f.unitOf m e)
  rw [natCast_two_pow, natCast_two_pow]
  refine ⟨?_, fun hu => ?_⟩
  · calc (m : ℚ) * 2 ^ (e - f.unitOf m e) ≤ 2 ^ ((m.log2 + 1 : Nat) : Int) * 2 ^ (e - f.unitOf m e) :=
          mul_le_mul_of_nonneg_right hhi hpos.le
      _ = 2 ^ (((m.log2 + 1 : Nat) : Int) + (e - f.unitOf m e)) := (two_zpow_add _ _).symm
      _ ≤ 2 ^ ((f.mb + 1 : Nat) : Int) := two_zpow_le (by unfold FFmt.unitOf; omega)
  · calc (2 : ℚ) ^ (f.mb : Int) = 2 ^ ((m.log2 : Int) + (e - f.unitOf m e)) := by
          congr 1
          unfold FFmt.unitOf at hu ⊢
          omega
      _ = 2 ^ (m.log2 : Int) * 2 ^ (e - f.unitOf m e) := two_zpow_add _ _
      _ ≤ m * 2 ^ (e - f.unitOf m e) := mul_le_mul_of_nonneg_right hlo hpos.le

/-- A carry out of the mantissa is counted in the next unit. -/
theorem FFmt.Canon.of_carry (hn : n ≤ 2 ^ (f.mb + 1)) (hu : f.qmin ≤ u) (hlow : u ≠ f.qmin → 2 ^ f.mb ≤ n) :
    ∃ k v, f.Canon k v ∧ (k : ℚ) * 2 ^ v = n * 2 ^ u ∧
      (if n = 2 ^ (f.mb + 1) then f.magCode (2 ^ f.mb) (u + 1) else f.magCode n u) = f.magCode k v := by
  by_cases h : n = 2 ^ (f.mb + 1)
  · refine ⟨2 ^ f.mb, u + 1, ⟨Nat.pow_lt_pow_succ (by decide), by omega, fun h => absurd h (lt_irrefl _)⟩, ?_, if_pos h⟩
    rw [h, natCast_two_pow, natCast_two_pow, ← two_zpow_add, ← two_zpow_add]
    congr 1
    push_cast
    ring
  · exact ⟨n, u, ⟨lt_of_le_of_ne hn h, hu, fun hl => not_not.mp fun hne => absurd (hlow hne) (not_le.mpr hl)⟩, rfl, if_neg h⟩

/-- A value of the format is less than any with a whole mantissa in a greater unit. -/
theorem FFmt.Canon.lt_of_unit_lt (h : f.Canon k v) (huv : v < u) {x : ℚ} (hx : ((2 ^ f.mb : Nat) : ℚ) ≤ x) :
    (k : ℚ) * 2 ^ v < x * 2 ^ u := by
  have hk : (k : ℚ) < (2 ^ (f.mb + 1) : Nat) := by exact_mod_cast h.lt
  calc (k : ℚ) * 2 ^ v < (2 ^ (f.mb + 1) : Nat) * 2 ^ v := mul_lt_mul_of_pos_right hk (two_zpow_pos v)
    _ = 2 ^ ((f.mb + 1 : Nat) + v : Int) := by rw [natCast_two_pow, two_zpow_add]
    _ ≤ 2 ^ ((f.mb : Int) + u) := two_zpow_le (by push_cast; omega)
    _ = (2 ^ f.mb : Nat) * 2 ^ u := by rw [natCast_two_pow, two_zpow_add]
    _ ≤ x * 2 ^ u := mul_le_mul_of_nonneg_right hx (two_zpow_pos u).le

/-- Values of a format stand in the order of their codes. -/
theorem FFmt.Canon.magCode_le (h : f.Canon n u) (g : f.Canon k v) (hle : (n : ℚ) * 2 ^ u ≤ k * 2 ^ v) :
    f.magCode n u ≤ f.magCode k v := by
  have hn := h.unit
  have hk := g.unit
  have hnlt := h.lt
  rw [pow_succ] at hnlt
  rw [h.magCode, g.magCode]
  rcases lt_trichotomy u v with huv | rfl | huv
  · have hkge : 2 ^ f.mb ≤ k := not_lt.mp fun hl => absurd (g.low hl) (by omega)
    have hstep : ((u - f.qmin).toNat + 1) * 2 ^ f.mb ≤ (v - f.qmin).toNat * 2 ^ f.mb := Nat.mul_le_mul_right _ (by omega)
    rw [Nat.add_mul] at hstep
    omega
  · have := le_of_mul_le_mul_right hle (two_zpow_pos u)
    have : n ≤ k := by exact_mod_cast this
    omega
  · have hnge : ((2 ^ f.mb : Nat) : ℚ) ≤ n := by exact_mod_cast not_lt.mp fun hl => absurd (h.low hl) (by omega)
    exact absurd hle (not_le.mpr (g.lt_of_unit_lt huv hnge))

/-- A magnitude no larger than a value of the format rounds to no larger a one. -/
theorem FFmt.rounds_le {r : Rnd} {neg : Bool} {m : Nat} {e : Int} (hm : 0 < m) (g : f.Canon k v) (hle : (m : ℚ) * 2 ^ e ≤ k * 2 ^ v) :
    (roundTo r neg m e (f.unitOf m e) : ℚ) * 2 ^ f.unitOf m e ≤ k * 2 ^ v := by
  obtain ⟨-, hlow⟩ := f.unitOf_bounds hm e
  have hr := roundTo_rounds r neg m e (f.unitOf m e)
  have hunit := f.qmin_le_unitOf m e
  have hgunit := g.unit
  have hme : (m : ℚ) * 2 ^ (e - f.unitOf m e) * 2 ^ f.unitOf m e = m * 2 ^ e := by rw [mul_assoc, ← two_zpow_add, sub_add_cancel]
  set u := f.unitOf m e
  by_cases huv : u ≤ v
  · rw [← in_units huv]
    rw [← in_units huv, ← hme] at hle
    exact mul_le_mul_of_nonneg_right (by exact_mod_cast hr.le_of_le (le_of_mul_le_mul_right hle (two_zpow_pos u))) (two_zpow_pos u).le
  · exact absurd hle (not_le.mpr (hme ▸ g.lt_of_unit_lt (not_le.mp huv) (hlow (by omega))))

/-- The code of a value of a format, with its sign, has that value: a zero of E2M1 has none, and counts as one. -/
theorem FFmt.Canon.toRat_signed (h : f.Canon n u) (hc : f.magCode n u ≤ f.maxCode) (r : Rnd) (neg : Bool) :
    (f.decode (f.signed r neg (f.magCode n u))).toRat = some (signQ neg * n * 2 ^ u) := by
  obtain ⟨hz, hz0⟩ := FFmt.Canon.zero f
  by_cases h0 : f.magCode n u = 0
  · have hn : n = 0 := by rw [h.magCode] at h0; omega
    obtain ⟨s, hs⟩ : ∃ s, f.decode (f.zeroCode neg) = .fin s 0 f.qmin := by
      have hd := hz.decode (by omega)
      rw [hz0] at hd
      rw [FFmt.zeroCode]
      split
      · exact ⟨false, hd false⟩
      · exact ⟨neg, hd neg⟩
    rw [FFmt.signed, if_neg (by omega), if_pos h0, hs, hn]
    simp [FVal.toRat_fin]
  · rw [FFmt.signed_of_finite hc h0, h.decode hc, FVal.toRat_fin]

/-- The largest finite value. -/
theorem FFmt.maxCode_canon {b : ℚ} (hb : (f.decode f.maxCode).toRat = some b) :
    ∃ k v, f.Canon k v ∧ f.magCode k v = f.maxCode ∧ b = k * 2 ^ v := by
  have hmax := f.maxCode_lt.1
  obtain ⟨neg, k, v, hcan, -, hcode, hdec⟩ := FFmt.decode_inv (hmax.trans_le (by rw [f.two_pow_bits]; omega)) hb
  cases neg with
  | true =>
    rw [FFmt.signBit, if_pos rfl] at hcode
    omega
  | false =>
    rw [hdec, FVal.toRat_fin, signQ, if_neg Bool.false_ne_true, one_mul] at hb
    exact ⟨k, v, hcan, by rw [hcode, FFmt.signBit, if_neg Bool.false_ne_true, Nat.zero_add], (Option.some.inj hb).symm⟩

/-- A finite value no larger than the largest rounds to its neighbour in the units of its place. -/
theorem FFmt.toRat_round {r : Rnd} {s : Bool} {m : Nat} {e : Int} {b : ℚ} (hm : 0 < m) (hb : (f.decode f.maxCode).toRat = some b)
    (hle : (m : ℚ) * 2 ^ e ≤ b) : ∃ n, RoundsTo r s n (m * 2 ^ (e - f.unitOf m e)) ∧
      (f.decode (f.round r false (.fin s m e))).toRat = some (signQ s * n * 2 ^ f.unitOf m e) := by
  obtain ⟨K, V, hK, hKmax, rfl⟩ := FFmt.maxCode_canon hb
  obtain ⟨hhi, hlow⟩ := f.unitOf_bounds hm e
  have hr := roundTo_rounds r s m e (f.unitOf m e)
  obtain ⟨k, v, hk, hval, hmag⟩ := FFmt.Canon.of_carry (hr.le_of_le hhi) (f.qmin_le_unitOf m e) fun hu => hr.ge_of_ge (hlow hu)
  have hfin : f.magCode k v ≤ f.maxCode := (hk.magCode_le hK (hval ▸ FFmt.rounds_le hm hK hle)).trans_eq hKmax
  refine ⟨_, hr, ?_⟩
  rw [f.round_fin, if_neg hm.ne', Bool.false_and, if_neg Bool.false_ne_true, FFmt.roundMag, hmag,
    hk.toRat_signed hfin, mul_assoc, hval, ← mul_assoc]

end

/-- The distance and the side of a rounding, for the value with its sign and its unit. -/
theorem RoundsTo.signed {r : Rnd} {s : Bool} {n : Nat} {x y : ℚ} (h : RoundsTo r s n x) (hx : 0 ≤ x) (hy : 0 < y) :
    |signQ s * n * y - signQ s * x * y| < y ∧ match (generalizing := false) r with
      | .rn => 2 * |signQ s * n * y - signQ s * x * y| ≤ y
      | .rz => |signQ s * n * y| ≤ |signQ s * x * y|
      | .ru => signQ s * x * y ≤ signQ s * n * y
      | .rd => signQ s * n * y ≤ signQ s * x * y := by
  have hd : |signQ s * n * y - signQ s * x * y| = |(n : ℚ) - x| * y := by
    rw [← sub_mul, ← mul_sub, abs_mul, abs_signQ_mul, abs_of_pos hy]
  rw [hd]
  refine ⟨mul_lt_of_lt_one_left hy h.near, ?_⟩
  have hside := h.side
  cases r with
  | rn => exact (mul_assoc ..).symm.trans_le (mul_le_of_le_one_left hy.le hside)
  | rz =>
    simp only [mul_assoc, abs_signQ_mul]
    rw [abs_of_nonneg (mul_nonneg (Nat.cast_nonneg n) hy.le), abs_of_nonneg (mul_nonneg hx hy.le)]
    exact mul_le_mul_of_nonneg_right hside hy.le
  | ru => exact mul_le_mul_of_nonneg_right (signQ_mul_le hside) hy.le
  | rd => exact mul_le_mul_of_nonneg_right (signQ_mul_le hside) hy.le

end Sys2Proof.Machine

open Sys2Proof Sys2Proof.Machine

/-- Settles O9: a finite value is an integer in units of any smaller power of two, so the arithmetic is that of integers; and a value in the
format's own units has the code that it is read from, to which rounding, which finds a neighbour in those units, takes it. -/
theorem roundedArithmeticIsExact : Obligations.RoundedArithmeticIsExact := by
  refine ⟨fun v w p q rd hv hw => ⟨FVal.toRat_add rd hv hw, FVal.toRat_mul hv hw, FVal.toRat_neg hv, FVal.cmp_toRat hv hw⟩,
    fun f r code q hc hq h0 => FFmt.round_decode hc hq h0 r, fun f r s m e p b hm hp hb hle => ?_⟩
  obtain rfl : signQ s * m * 2 ^ e = p := Option.some.inj hp
  have hpos := two_zpow_pos e
  rw [mul_assoc, abs_signQ_mul, abs_of_nonneg (by positivity)] at hle
  obtain ⟨n, hr, hq⟩ := FFmt.toRat_round (r := r) (s := s) hm hb hle
  refine ⟨_, hq, ?_⟩
  have hsplit : signQ s * m * (2 : ℚ) ^ e = signQ s * (m * 2 ^ (e - f.unitOf m e)) * 2 ^ f.unitOf m e := by
    rw [← mul_assoc, mul_assoc _ ((2 : ℚ) ^ _), ← two_zpow_add, sub_add_cancel]
  rw [hsplit]
  exact hr.signed (by positivity) (two_zpow_pos _)
end

section
/-! Conversions (R145, R164 to R167), for O12: the elements of a group of registers, and what a word that draws on $seed moves. -/

namespace Sys2Proof.Machine

/-! ### The registers of a conversion (R164, R165) -/

section
variable (df sf : CFmt)

theorem cfmtBits_pos : 0 < cfmtBits df := by cases df <;> decide

/-- A unit's elements fill its registers. -/
theorem cfmtBits_mul : cfmtBits df * df.n = 32 * df.regs := by cases df <;> decide

/-- A unit has one register, or the two of binary64. -/
theorem cfmtRegs_cases : df.regs = 1 ∨ df.regs = 2 := by cases df <;> decide

/-- A conversion is of whole units. -/
theorem cvtUnits_mul : cvtUnits df sf df * df.n = cvtCount df sf := by cases df <;> cases sf <;> decide

/-- The elements of unit `k`, as one number. -/
def unitWord (els : List Nat) (k : Nat) : Nat := ((upFrom 0 df.n).map fun j => lget els (k * df.n + j) 0 * 2 ^ (cfmtBits df * j)).sum

/-- The registers of unit `k`. -/
def unitRegs (els : List Nat) (k : Nat) : List Reg :=
  (upFrom 0 df.regs).map fun i => ⟨BitVec.ofNat 32 (unitWord df els k / 2 ^ (32 * i)), lget (cfmtTags df) i .raw⟩

theorem cvtPack_eq (els : List Nat) : cvtPack df sf els = (upFrom 0 (cvtUnits df sf df)).flatMap (unitRegs df els) := rfl

theorem unitRegs_length (els : List Nat) (k : Nat) : (unitRegs df els k).length = df.regs := by
  rw [unitRegs, List.length_map, upFrom_length]

theorem cvtPack_length (els : List Nat) : (cvtPack df sf els).length = cvtUnits df sf df * df.regs := by
  simp [cvtPack_eq, List.length_flatMap, unitRegs_length, upFrom_length]

end

/-- What bounds the members of a list bounds what a look-up gives. -/
theorem lget_lt {xs : List Nat} {b : Nat} (hb : 0 < b) (h : ∀ x ∈ xs, x < b) (i : Nat) : lget xs i 0 < b := by
  rw [lget]
  cases hx : xs[i]? with
  | none => exact hb
  | some x => exact h x (List.mem_of_getElem? hx)

/-- Lists of one length, one after the other. -/
theorem flatMap_getElem? {α β : Type} {f : α → List β} {n : Nat} (hf : ∀ a, (f a).length = n) (xs : List α) {k i : Nat}
    (hi : i < n) : (xs.flatMap f)[k * n + i]? = xs[k]?.bind fun a => (f a)[i]? := by
  induction xs generalizing k with
  | nil => rfl
  | cons x xs ih =>
    rw [List.flatMap_cons]
    cases k with
    | zero => rw [Nat.zero_mul, Nat.zero_add, List.getElem?_append_left (by rw [hf]; exact hi)]; rfl
    | succ k =>
      rw [List.getElem?_append_right (by rw [hf, Nat.add_mul]; omega), hf,
        show (k + 1) * n + i - n = k * n + i by rw [Nat.add_mul]; omega, ih]
      rfl

section
variable {df sf : CFmt} {els : List Nat}

/-- Register `i` of unit `k`. -/
theorem cvtPack_getElem? {k i : Nat} (hk : k < cvtUnits df sf df) (hi : i < df.regs) : (cvtPack df sf els)[k * df.regs + i]? =
    some ⟨BitVec.ofNat 32 (unitWord df els k / 2 ^ (32 * i)), (cfmtTags df).getD i .raw⟩ := by
  rw [cvtPack_eq, flatMap_getElem? (unitRegs_length df els) _ hi, upFrom_getElem? 0 _ k hk, Option.bind_some, Nat.zero_add, unitRegs,
    List.getElem?_map, upFrom_getElem? 0 _ i hi, Option.map_some, Nat.zero_add]
  rfl

theorem cvtPack_tag {i : Nat} (hi : i < (cvtPack df sf els).length) :
    (cvtPack df sf els)[i].tag = (cfmtTags df).getD (i % df.regs) .raw := by
  have hpos : 0 < df.regs := by rcases cfmtRegs_cases df with h | h <;> omega
  have hk : i / df.regs < cvtUnits df sf df := Nat.div_lt_of_lt_mul (by rwa [cvtPack_length, Nat.mul_comm] at hi)
  have h := cvtPack_getElem? (els := els) hk (Nat.mod_lt i hpos)
  rw [Nat.div_add_mod', List.getElem?_eq_getElem hi] at h
  rw [Option.some.inj h]

/-- The number that a unit of a format holds in a group of registers. -/
def unitNumber (f : CFmt) (g : Nat → Word) (k : Nat) : Nat :=
  if f.regs = 2 then (g (2 * k)).toNat + 2 ^ 32 * (g (2 * k + 1)).toNat else (g k).toNat

theorem unitWord_lt (hels : ∀ j, lget els j 0 < 2 ^ cfmtBits df) (k : Nat) : unitWord df els k < 2 ^ (32 * df.regs) := by
  rw [← cfmtBits_mul df]
  exact sum_digits_lt (cfmtBits_pos df) (fun _ => hels _) df.n

theorem unitNumber_cvtPack (hels : ∀ j, lget els j 0 < 2 ^ cfmtBits df) {k : Nat} (hk : k < cvtUnits df sf df) :
    unitNumber df (fun i => ((cvtPack df sf els).getD i .zero).val) k = unitWord df els k := by
  have hlt := unitWord_lt hels k
  have hreg {i : Nat} (hi : i < df.regs) : ((cvtPack df sf els).getD (k * df.regs + i) .zero).val.toNat =
      unitWord df els k / 2 ^ (32 * i) % 2 ^ 32 := by
    rw [List.getD_eq_getElem?_getD, cvtPack_getElem? hk hi]
    exact BitVec.toNat_ofNat ..
  rcases cfmtRegs_cases df with h | h
  · have h0 := hreg (i := 0) (by omega)
    rw [h] at h0 hlt
    simp only [Nat.mul_one, Nat.add_zero, Nat.mul_zero, Nat.pow_zero, Nat.div_one] at h0 hlt
    rw [unitNumber, if_neg (by omega), h0, Nat.mod_eq_of_lt hlt]
  · have h0 := hreg (i := 0) (by omega)
    have h1 := hreg (i := 1) (by omega)
    rw [h, Nat.mul_comm k] at h0 h1
    rw [h] at hlt
    simp only [Nat.mul_one, Nat.add_zero, Nat.mul_zero, Nat.pow_zero, Nat.div_one] at h0 h1
    rw [unitNumber, if_pos h, h0, h1]
    omega

/-- Element `j` of a conversion stands at its place in its unit. -/
theorem cvtPack_element (hels : ∀ j, lget els j 0 < 2 ^ cfmtBits df) {j : Nat} (hj : j < cvtCount df sf) :
    unitNumber df (fun i => ((cvtPack df sf els).getD i .zero).val) (j / df.n) / 2 ^ (cfmtBits df * (j % df.n)) % 2 ^ cfmtBits df =
      lget els j 0 := by
  have hn : 0 < df.n := by cases df <;> decide
  have hk : j / df.n < cvtUnits df sf df := Nat.div_lt_of_lt_mul (by rwa [Nat.mul_comm, cvtUnits_mul])
  rw [unitNumber_cvtPack hels hk, unitWord, sum_digits_digit (d := fun i => lget els (j / df.n * df.n + i) 0) (fun _ => hels _)
    (Nat.mod_lt j hn), Nat.div_add_mod']

end

/-! ### The elements of a conversion (R166) -/

theorem toIntFmt_lt (n : Nat) (u : Bool) (r : Rnd) (v : FVal) : toIntFmt n u r v < 2 ^ n := by
  cases v with
  | nan => exact Nat.two_pow_pos n
  | _ => simp only [toIntFmt, wrapInt_eq]; exact BitVec.isLt _

theorem cfmtF_bits {df : CFmt} {g : FFmt} (h : cfmtF df = some g) : g.bits = cfmtBits df := by
  cases df <;> cases h <;> rfl

theorem cvtElem_lt (df : CFmt) (u : Bool) (r : Rnd) (ftz sat : Bool) (v : FVal) : cvtElem df u r ftz sat none v < 2 ^ cfmtBits df := by
  rw [cvtElem]
  cases h : cfmtF df with
  | none => exact toIntFmt_lt ..
  | some g => rw [← cfmtF_bits h]; exact g.round_lt ..

/-- The code of element `j` of a conversion's source group. -/
def Iss.cvtCode (x : Iss) (a : Src) (sf : CFmt) (l j : Nat) : Nat :=
  unitNumber sf (fun i => x.val a i l) (j / sf.n) / 2 ^ (cfmtBits sf * (j % sf.n)) % 2 ^ cfmtBits sf

theorem cvtSource_eq (x : Iss) (a : Src) (df sf : CFmt) (u ftz : Bool) (l : Nat) :
    cvtSource x a df sf u ftz l = (upFrom 0 (cvtCount df sf)).map fun j => cfmtRead sf u ftz (x.cvtCode a sf l j) := rfl

theorem cvtChecks_fit {x : Iss} {a : Src} {df sf : CFmt} {l : Nat} (h : ∀ i < cvtUnits df sf sf * sf.regs,
    x.holds a i l ((cfmtTags sf).getD (i % sf.regs) .raw :: (if cfmtInt sf then [.raw] else []))) :
    ∀ p ∈ cvtChecks x a df sf l, p.1.fits p.2 := by
  intro p hp
  obtain ⟨i, hi, rfl⟩ := List.mem_map.mp hp
  have := upFrom_ge _ _ _ hi
  exact h i (by omega)

theorem cvt_computes (h : Hdr) (d : Dst) (a : Src) (df sf : CFmt) (u : Bool) (r : Rnd) (ftz sat : Bool) :
    Computes (.cvt h d a df sf u r ftz sat) d (cvtUnits df sf df * df.regs)
      (fun x l => ∀ i < cvtUnits df sf sf * sf.regs,
        x.holds a i l ((cfmtTags sf).getD (i % sf.regs) .raw :: (if cfmtInt sf then [.raw] else [])))
      fun x l rs => (∀ i (hi : i < rs.length), rs[i].tag = (cfmtTags df).getD (i % df.regs) .raw) ∧ ∀ j < cvtCount df sf,
        unitNumber df (fun i => (rs.getD i .zero).val) (j / df.n) / 2 ^ (cfmtBits df * (j % df.n)) % 2 ^ cfmtBits df =
          cvtElem df u r ftz sat none (cfmtRead sf u ftz (x.cvtCode a sf l j)) := by
  refine .of_perLane 4 _ (fun _ => rfl) fun x l hok =>
    ⟨_, cvtPack_length df sf _, ⟨fun i hi => cvtPack_tag hi, fun j hj => ?_⟩, computed_good x _ l _ _ (cvtChecks_fit hok)⟩
  rw [cvtSource_eq, List.map_map, cvtPack_element (lget_lt (Nat.two_pow_pos _) fun c hc => ?_) hj]
  · rw [lget, List.getElem?_map, upFrom_getElem? 0 _ j hj, Nat.zero_add]
    rfl
  · obtain ⟨k, -, rfl⟩ := List.mem_map.mp hc
    exact cvtElem_lt ..

/-! ### Words that draw on $seed (R66, R145, R167) -/

/-- The value of $seed that a word writes. -/
def seedWb (sd : Nat → Word) (l : Nat) : Wb := ⟨.seed, l, ⟨sd l, .raw⟩⟩

/-- A thread's result with its new seed. -/
def LaneRes.seeded (val : List Reg) (sd : Word) : LaneRes := { LaneRes.clean val none with seed := some sd }

theorem writesOf_seeded (names : List RName) (val : Nat → List Reg) (sd : Nat → Word) (ls : List Nat) :
    writesOf names (ls.map fun l => (l, LaneRes.seeded (val l) (sd l))) =
      writesOf names (ls.map fun l => (l, LaneRes.clean (val l) none)) ++ ls.map (seedWb sd) := by
  have hall : ls.filter (fun _ => (none : Option Flt).isNone) = ls := List.filter_eq_self.mpr fun _ _ => rfl
  have hseed : (ls.flatMap fun l => (some (sd l)).toList.map fun v => (⟨.seed, l, ⟨v, .raw⟩⟩ : Wb)) = ls.map (seedWb sd) :=
    List.map_eq_flatMap.symm
  have hnone : (ls.flatMap fun l => (none : Option Word).toList.map fun v => (⟨.seed, l, ⟨v, .raw⟩⟩ : Wb)) = [] :=
    List.flatMap_eq_nil_iff.mpr fun _ _ => rfl
  simp only [writesOf, List.filter_map, Function.comp_def, List.flatMap_map, LaneRes.seeded, LaneRes.clean, ← List.map_take,
    ← apply_ite (List.map _), hall, hseed, hnone, List.append_nil]

theorem Warp.writeAll_seeds (f : Wb → Nat) (sd : Nat → Word) (ls : List Nat) (w : Warp) :
    (w.writeAll f (ls.map (seedWb sd))).rest = { w.rest with threads := eachThread ls (fun l t => { t with seed := sd l }) w.threads } ∧
      ∀ n l, n ≠ .seed → (w.writeAll f (ls.map (seedWb sd))).hold n l = w.hold n l := by
  induction ls generalizing w with
  | nil => exact ⟨rfl, fun _ _ _ => rfl⟩
  | cons l ls ih =>
    obtain ⟨hrest, hhold⟩ := ih (w.writeFixed .seed l ⟨sd l, .raw⟩ (f (seedWb sd l)))
    refine ⟨hrest, fun n k hn => (hhold n k hn).trans ?_⟩
    cases n with
    | seed => exact absurd rfl hn
    | _ => rfl

theorem commit_sound (s : State) (x : Iss) (lat : Lat) (names : List RName) {f : Nat → LaneRes} {ls : List Nat}
    (h : ∀ l ∈ ls, (f l).fault = none ∧ (f l).pois = false) :
    (s.commit x lat names (ls.map fun l => (l, f l))).s = s.putRegs x lat (writesOf names (ls.map fun l => (l, f l))) := by
  have hcount : ls.filter (fun l => (f l).fault.isNone && (f l).pois) = [] := List.filter_eq_nil_iff.mpr fun l hl => by simp [(h l hl).2]
  rw [commit_each, hcount]
  exact foldl_same _ _ _ fun s l hl => congrArg (fun o => Option.elim o s fun g => s.takeFault (x.ref l) x.pc g) (h l hl).1

/-- An instruction whose threads compute and draw on their seeds lands the registers and moves the seeds. -/
theorem perLane_seeds {s : State} {i : Instr} {h : Hdr} {c w : Nat} {wp : Warp} {pc : Nat} (hI : Issues s i h c w wp pc)
    (lat : Nat) (d : Dst) (n : Nat) (f : Iss → Nat → LaneRes) (val : Nat → List Reg) (sd : Nat → Word)
    (hf : ∀ l ∈ (Iss.of s c w wp pc h).act, f (Iss.of s c w wp pc h) l = LaneRes.seeded (val l) (sd l))
    (hlen : ∀ l ∈ (Iss.of s c w wp pc h).act, (val l).length = n) :
    ∃ t, issue i s (perLane (.fixed lat) (dstNames d n) f) = .next t ∧
      Moves s t (Iss.of s c w wp pc h) ((Iss.of s c w wp pc h).puts (dstNames d n) val fun _ => none) []
        fun l t => if l ∈ (Iss.of s c w wp pc h).act then { t with seed := sd l } else t := by
  refine ⟨_, issue_next hI _, ?_⟩
  have hnd := Iss.act_nodup s c w wp pc h
  set x := Iss.of s c w wp pc h with hx
  have hact : ∀ l ∈ x.act, l < 128 := fun l hl => Iss.set_lt (Iss.act_set hl)
  let ready (v : Wb) : Nat := x.now + lat + (match v.name with | .w _ => x.w.width / 32 - 1 | _ => 0)
  let vals := writesOf (dstNames d n) (x.act.map fun l => (l, LaneRes.clean (val l) none))
  have hbody : (perLane (.fixed lat) (dstNames d n) f x (s.opened x i)).s = (s.opened x i).setWarp x.core x.warp
      fun v => (v.writeAll ready vals).writeAll ready (x.act.map (seedWb sd)) := by
    have hmap : (x.act.map fun l => (l, f x l)) = x.act.map fun l => (l, LaneRes.seeded (val l) (sd l)) :=
      List.map_congr_left fun l hl => by rw [hf l hl]
    rw [perLane, commit_sound _ _ _ _ fun l hl => by rw [hf l hl]; exact ⟨rfl, rfl⟩, hmap, writesOf_seeded]
    simp only [State.putRegs, List.foldl_append]
    rfl
  have hseeds (v : Warp) := (v.writeAll ready vals).writeAll_seeds ready sd x.act
  have hrest (v : Warp) := v.writeAll_rest ready vals (writesOf_fits hact d n val _ hlen)
  refine moves_of_body hI _ _ _ [] _ (eachThread x.act fun l t => { t with seed := sd l }) (hbody ▸ OnWarp.setWarp _ _ _ _) (fun v => ?_)
    (fun v m l hs hl hk => ?_) (eachThread_getElem? hnd _)
  · rw [(hseeds v).1, hrest v, Warp.threads_of_rest (hrest v)]
    simp [Warp.rest]
  · exact ((hseeds v).2 m l hs).trans (writesOf_puts hact d n val _ hlen v ready m l hs hl hk)

/-- The last of the generator's states is its step, so many times. -/
theorem seedRun_last (n x : Nat) : (seedRun n x).getLast?.getD x = seedStep^[n] x := by
  induction n generalizing x with
  | zero => rfl
  | succ n ih => rw [seedRun, List.getLast?_cons, Option.getD_some, ih, Function.iterate_succ_apply]

/-- What a thread of CVTS reads as $seed. -/
def Iss.seedOf (x : Iss) (l : Nat) : Nat := (x.w.read x.ticket x.now .seed l).val.toNat

/-- What a thread of CVTS puts into its destination. -/
def cvtsRegs (x : Iss) (a : Src) (df sf : CFmt) (u ftz sat : Bool) (l : Nat) : List Reg :=
  cvtPack df sf (((cvtSource x a df sf u ftz l).zip (seedRun (cvtCount df sf) (x.seedOf l))).map fun p =>
    cvtElem df u .rn ftz sat (some (p.2 / 2 ^ 16)) p.1)

/-- CVTS in one thread. -/
def cvtsLane (d : Dst) (a : Src) (df sf : CFmt) (u ftz sat : Bool) (x : Iss) (l : Nat) : LaneRes :=
  let res := computed x (cvtNames d df sf) l (cvtChecks x a df sf l) fun _ => cvtsRegs x a df sf u ftz sat l
  if res.fault.isSome then res
  else { res with seed := some (BitVec.ofNat 32 ((seedRun (cvtCount df sf) (x.seedOf l)).getLast?.getD (x.seedOf l))) }

theorem exec_cvts (h : Hdr) (d : Dst) (a : Src) (df sf : CFmt) (u ftz sat : Bool) (s : State) : exec (.cvts h d a df sf u ftz sat) s =
    issue (.cvts h d a df sf u ftz sat) s (perLane (.fixed 4) (cvtNames d df sf) (cvtsLane d a df sf u ftz sat)) := rfl

theorem cvtsLane_good (d : Dst) {a : Src} {df sf : CFmt} (u ftz sat : Bool) {x : Iss} {l : Nat}
    (h : ∀ p ∈ cvtChecks x a df sf l, p.1.fits p.2) : cvtsLane d a df sf u ftz sat x l =
      .seeded (cvtsRegs x a df sf u ftz sat l) (BitVec.ofNat 32 (seedStep^[cvtCount df sf] (x.seedOf l))) := by
  rw [cvtsLane, computed_good x _ l _ _ h, seedRun_last]
  rfl

/-- Only the program counter and the count of issues of a thread have gone on. -/
theorem Iss.after_seed (x : Iss) (l : Nat) : (x.after l).map (fun t => t.seed) = (x.w.thread? l).map fun t => t.seed := by
  rw [Iss.after]
  split
  · rw [Option.map_map]
    rfl
  · rfl

end Sys2Proof.Machine

open Sys2Proof Sys2Proof.Machine

/-- Settles O12: the elements of a group of registers are the digits of its units; and the thread of CVTS that converts also has its seed,
which lands after its registers. -/
theorem conversions : Obligations.Conversions := by
  refine ⟨fun h d a df sf u r ftz sat _ => cvt_computes h d a df sf u r ftz sat, ?_⟩
  intro s h c w wp pc d a df sf u ftz sat hI x hok seed val
  obtain ⟨t, ht, hregs, ⟨wp', hw, hgo, -⟩, hrest⟩ := perLane_seeds hI 4 d _ _ _ _
    (fun l hl => cvtsLane_good d u ftz sat (cvtChecks_fit (hok l hl))) fun l _ => cvtPack_length df sf _
  refine ⟨t, wp', (exec_cvts h d a df sf u ftz sat s).trans ht, hw, hrest, hregs, fun l => ?_⟩
  have hseed := congrArg (Option.map fun v => if l ∈ x.act then BitVec.ofNat 32 (seedStep^[cvtCount df sf] (seed l)) else v)
    (x.after_seed l)
  rw [Option.map_map, Option.map_map] at hseed
  rw [hgo.threads l, Option.map_map]
  refine Eq.trans (congrArg (Option.map · _) (funext fun t => ?_)) hseed
  exact apply_ite Thread.seed ..
end

section
/-! Blocks of 32 (R172 to R175), for O14: every guard-true lane takes what its block decides, and the scale bounds the block. -/

namespace Sys2Proof.Machine

/-! ### Words whose lanes share a block (R172) -/

/-- From the results of the threads to `Computes`, where a thread's result depends on the sources of the others. -/
theorem Computes.of_lanes {i : Instr} {d : Dst} {n : Nat} {ok : Iss → Nat → Prop} {res : Iss → Nat → List Reg → Prop} (lat : Nat)
    (f : Iss → Nat → LaneRes) (he : ∀ s, exec i s = issue i s (perLane (.fixed lat) (dstNames d n) f))
    (hf : ∀ x, (∀ l ∈ x.act, l < 128) → (∀ l ∈ x.act, ok x l) →
      ∀ l ∈ x.act, ∃ v, v.length = n ∧ res x l v ∧ f x l = LaneRes.clean v none) :
    Computes i d n ok res := by
  intro s h c w wp pc hI hok
  choose! val hval using hf _ (fun l hl => Iss.set_lt (Iss.act_set hl)) hok
  obtain ⟨t, ht, hL⟩ := perLane_lands hI lat d n f val (fun _ => none) (fun l hl => (hval l hl).2.2) fun l hl => (hval l hl).1
  exact ⟨t, val, (he s).trans ht, fun l hl => ⟨(hval l hl).1, (hval l hl).2.1⟩, hL⟩

/-- Where every lane's source is an FP32 value, a lane's block is that of the statement. -/
theorem blockOfPass_eq {x : Iss} {a : Src} {ok : Nat → Bool} (hok : ∀ l ∈ x.act, ok l = true)
    (hf : ∀ l ∈ x.act, x.holds a 0 l [.fp32]) (l : Nat) : blockOfPass x a ok (l / 32) = ⟨false, x.block a l⟩ := by
  have hmem (m : Nat) : m ∈ x.act.filter (fun m => m / 32 == l / 32 && ok m) ↔ m ∈ x.act ∧ m / 32 = l / 32 := by
    rw [List.mem_filter]
    exact and_congr_right fun hm => by simp [hok m hm]
  have hpois : ((x.act.filter fun m => m / 32 == l / 32 && ok m).any fun m => (x.src a 0 m).pois) = false :=
    List.any_eq_false.mpr fun m hm => by simp [(hf m ((hmem m).mp hm).1).ok.2]
  have hcodes : ((upFrom 0 32).map fun i => if (x.act.filter fun m => m / 32 == l / 32 && ok m).contains (32 * (l / 32) + i) then
      (x.src a 0 (32 * (l / 32) + i)).val.toNat else 0) = x.block a l := by
    refine List.map_congr_left fun i hi => ?_
    have hi := upFrom_ge _ _ _ hi
    have hdiv : (32 * (l / 32) + i) / 32 = l / 32 := by omega
    simp only [List.contains_iff_mem, hmem, hdiv, and_true]
    rfl
  rw [blockOfPass, hpois, hcodes]

theorem lget_passes {α : Type} (f : Nat → α) (d : α) {l : Nat} (hl : l < 128) : lget ((upFrom 0 4).map f) (l / 32) d = f (l / 32) := by
  rw [lget, List.getElem?_map, upFrom_getElem? 0 4 _ (by omega), Nat.zero_add]
  rfl

theorem fromBlock_good {x : Iss} {d : Dst} {l : Nat} {codes : List Nat} {srcs : List (Opd × List Tag)} {f : Unit → Reg}
    (h : ∀ p ∈ srcs, p.1.fits p.2) : fromBlock x d l ⟨false, codes⟩ srcs f = LaneRes.clean [f ()] none := by
  rw [fromBlock, checkTags_good srcs h]
  rfl

/-! ### BLKSCALE (R173) -/

/-- The place of the largest binade of a target. -/
def blkTop (t : BlkTarget) : Int := match t with | .e4m3 => 8 | .e5m2 => 15 | .e2m1 => 2

section
variable {t : BlkTarget} {codes : List Nat}

theorem blkScale_nan (h : (codes.map (FFmt.decode .f32)).all isFin = false) : blkScale t codes = 0xFF := by
  simp [blkScale, h]

theorem blkScale_none (h : (codes.map (FFmt.decode .f32)).all isFin = true) (hm : maxExp (codes.map (FFmt.decode .f32)) = none) :
    blkScale t codes = 0x7F := by
  simp only [blkScale, h, hm, Bool.not_true, Bool.false_eq_true, if_false]

theorem blkScale_some {k : Int} (h : (codes.map (FFmt.decode .f32)).all isFin = true)
    (hm : maxExp (codes.map (FFmt.decode .f32)) = some k) : blkScale t codes = (clampInt 0 254 (k - blkTop t + 127)).toNat := by
  simp only [blkScale, h, hm, Bool.not_true, Bool.false_eq_true, if_false]
  rfl

theorem clampInt_bounds {lo hi : Int} (h : lo ≤ hi) (x : Int) :
    lo ≤ clampInt lo hi x ∧ clampInt lo hi x ≤ hi ∧ (clampInt lo hi x < hi → x ≤ clampInt lo hi x) := by
  rw [clampInt_eq h]
  omega

theorem blkScale_lt (t : BlkTarget) (codes : List Nat) : blkScale t codes < 256 := by
  cases h : (codes.map (FFmt.decode .f32)).all isFin with
  | false => rw [blkScale_nan h]; decide
  | true =>
    cases hm : maxExp (codes.map (FFmt.decode .f32)) with
    | none => rw [blkScale_none h hm]; decide
    | some k =>
      obtain ⟨-, hhi, -⟩ := clampInt_bounds (lo := 0) (hi := 254) (by decide) (k - blkTop t + 127)
      rw [blkScale_some h hm]
      omega

end

/-- One byte in each of the four places of a register. -/
theorem four_bytes {c : Nat} (hc : c < 256) :
    BitVec.ofNat 32 (c * 0x01010101) = BitVec.ofNat 8 c ++ BitVec.ofNat 8 c ++ BitVec.ofNat 8 c ++ BitVec.ofNat 8 c := by
  apply BitVec.eq_of_toNat_eq
  simp only [toNat_append_sum, BitVec.toNat_ofNat, Nat.mod_eq_of_lt (b := 2 ^ 8) hc]
  rw [Nat.mod_eq_of_lt (by omega)]
  omega

/-- BLKSCALE in one thread. -/
def blkscaleLane (d : Dst) (a : Src) (t : BlkTarget) (x : Iss) (l : Nat) : LaneRes :=
  let b := lget ((upFrom 0 4).map fun k => blockOfPass x a (fun l => (x.src a 0 l).ok (.poison :: tagF32)) k) (l / 32) ⟨false, []⟩
  fromBlock x d l b [(x.src a 0 l, tagF32)] fun _ => ⟨BitVec.ofNat 32 (blkScale t b.codes * 0x01010101), .e8m0x4⟩

theorem exec_blkscale (h : Hdr) (d : Dst) (a : Src) (t : BlkTarget) (s : State) :
    exec (.blkscale h d a t) s = issue (.blkscale h d a t) s (perLane (.fixed 6) (dstNames d 1) (blkscaleLane d a t)) := rfl

theorem blkscale_computes (h : Hdr) (d : Dst) (a : Src) (t : BlkTarget) : Computes (.blkscale h d a t) d 1
    (fun x l => x.holds a 0 l [.fp32]) fun x l rs => ∃ c : BitVec 8, rs = [⟨c ++ c ++ c ++ c, .e8m0x4⟩] ∧
      c.toNat = blkScale t (x.block a l) := by
  refine .of_lanes 6 _ (exec_blkscale h d a t) fun x hlt hok l hl => ?_
  have hlane : ∀ l ∈ x.act, (x.src a 0 l).ok (.poison :: tagF32) = true := fun l hl => by
    rcases hok l hl with hk | ⟨ht, -⟩
    · simp [Opd.ok, hk]
    · simp [Opd.ok, tagF32, List.mem_singleton.mp ht]
  have hb := blkScale_lt t (x.block a l)
  refine ⟨_, rfl, ⟨BitVec.ofNat 8 (blkScale t (x.block a l)), rfl, by rw [BitVec.toNat_ofNat, Nat.mod_eq_of_lt hb]⟩, ?_⟩
  simp only [blkscaleLane, lget_passes _ _ (hlt l hl), blockOfPass_eq hlane hok, four_bytes hb]
  exact fromBlock_good (fits_alone (hok l hl))

/-! ### What the scale bounds (R173) -/

theorem isFin_iff (v : FVal) : isFin v = true ↔ v.toRat ≠ none := by
  cases v <;> simp [isFin, FVal.toRat]

theorem all_isFin (codes : List Nat) :
    (codes.map (FFmt.decode .f32)).all isFin = true ↔ ∀ c ∈ codes, (FFmt.decode .f32 c).toRat ≠ none := by
  simp [isFin_iff]

/-- One element more. -/
def expStep (acc : Option Int) (v : FVal) : Option Int :=
  match v with
  | .fin _ m e => if m = 0 then acc else match acc with
      | none => some (e + (Nat.log2 m : Int))
      | some k => some (max k (e + (Nat.log2 m : Int)))
  | _ => acc

section
variable {m : Nat}

theorem expStep_same (hm : m = 0) (acc : Option Int) (s : Bool) (e : Int) : expStep acc (.fin s m e) = acc := if_pos hm

theorem expStep_none (hm : m ≠ 0) (s : Bool) (e : Int) : expStep none (.fin s m e) = some (e + (Nat.log2 m : Int)) := if_neg hm

theorem expStep_some (hm : m ≠ 0) (k : Int) (s : Bool) (e : Int) :
    expStep (some k) (.fin s m e) = some (max k (e + (Nat.log2 m : Int))) := if_neg hm

end

/-- An exponent bounds a value: a value without one is zero. -/
def Bounds (acc : Option Int) (q : ℚ) : Prop := q = 0 ∨ ∃ k, acc = some k ∧ |q| < 2 ^ (k + 1)

theorem abs_lt_binade {s : Bool} {m : Nat} (hm : m ≠ 0) (e : Int) : |signQ s * m * (2 : ℚ) ^ e| < 2 ^ (e + (m.log2 : Int) + 1) := by
  have hhi : (m : ℚ) < 2 ^ ((m.log2 : Int) + 1) := by
    rw [show (m.log2 : Int) + 1 = ((m.log2 + 1 : Nat) : Int) by push_cast; rfl, ← natCast_two_pow]
    exact_mod_cast Nat.lt_log2_self
  rw [mul_assoc, abs_signQ_mul, abs_of_nonneg (by positivity), add_assoc, add_comm, two_zpow_add]
  exact mul_lt_mul_of_pos_right hhi (two_zpow_pos e)

theorem expStep_zero {v : FVal} (hv : v.toRat = some 0) (acc : Option Int) : expStep acc v = acc := by
  obtain ⟨s, m, e, rfl, h0⟩ := FVal.of_toRat hv
  have hm : m = 0 := by
    have hs : signQ s ≠ 0 := by cases s <;> simp [signQ]
    simpa [hs, (two_zpow_pos e).ne'] using h0.symm
  exact expStep_same hm acc s e

theorem Bounds.step {acc : Option Int} {q : ℚ} (h : Bounds acc q) (v : FVal) : Bounds (expStep acc v) q := by
  rcases h with h | ⟨k, rfl, hk⟩
  · exact .inl h
  · cases v with
    | fin s m e =>
      by_cases hm : m = 0
      · exact .inr ⟨k, expStep_same hm _ s e, hk⟩
      · exact .inr ⟨_, expStep_some hm k s e, hk.trans_le (two_zpow_le (by have := le_max_left k (e + (m.log2 : Int)); omega))⟩
    | _ => exact .inr ⟨k, rfl, hk⟩

theorem Bounds.of_step (acc : Option Int) {v : FVal} {q : ℚ} (hv : v.toRat = some q) : Bounds (expStep acc v) q := by
  obtain ⟨s, m, e, rfl, rfl⟩ := FVal.of_toRat hv
  by_cases hm : m = 0
  · exact .inl (by simp [hm])
  · have hlt := abs_lt_binade (s := s) hm e
    cases acc with
    | none => exact .inr ⟨_, expStep_none hm s e, hlt⟩
    | some k => exact .inr ⟨_, expStep_some hm k s e,
        hlt.trans_le (two_zpow_le (by have := le_max_right k (e + (m.log2 : Int)); omega))⟩

theorem Bounds.foldl {acc : Option Int} {q : ℚ} (h : Bounds acc q) (vs : List FVal) : Bounds (vs.foldl expStep acc) q := by
  induction vs generalizing acc with
  | nil => exact h
  | cons v vs ih => exact ih (h.step v)

theorem foldl_expStep_bounds {vs : List FVal} {v : FVal} (hm : v ∈ vs) {q : ℚ} (hv : v.toRat = some q) (acc : Option Int) :
    Bounds (vs.foldl expStep acc) q := by
  induction vs generalizing acc with
  | nil => cases hm
  | cons w vs ih =>
    rcases List.mem_cons.mp hm with rfl | hm
    · exact (Bounds.of_step acc hv).foldl vs
    · exact ih hm _

theorem maxExp_bounds {vs : List FVal} {v : FVal} (hm : v ∈ vs) {q : ℚ} (hv : v.toRat = some q) : Bounds (maxExp vs) q :=
  foldl_expStep_bounds hm hv none

theorem maxExp_zeros {vs : List FVal} (h : ∀ v ∈ vs, v.toRat = some 0) : maxExp vs = none :=
  foldl_same _ _ _ fun acc v hv => expStep_zero (h v hv) acc

/-- The scale puts every element below 2^(t + 1), as far as its range allows. -/
theorem blkScale_bounds {t : BlkTarget} {codes : List Nat} (hfin : ∀ c ∈ codes, (FFmt.decode .f32 c).toRat ≠ none)
    (hlt : blkScale t codes < 254) {c : Nat} (hc : c ∈ codes) {q : ℚ} (hq : (FFmt.decode .f32 c).toRat = some q) :
    |q| < (2 : ℚ) ^ ((blkScale t codes : Int) - 127 + blkTop t + 1) := by
  rcases maxExp_bounds (List.mem_map_of_mem hc) hq with rfl | ⟨k, hk, hb⟩
  · rw [abs_zero]
    exact two_zpow_pos _
  · have hs := blkScale_some (t := t) ((all_isFin codes).mpr hfin) hk
    obtain ⟨hlo, -, hle⟩ := clampInt_bounds (lo := 0) (hi := 254) (by decide) (k - blkTop t + 127)
    exact hb.trans_le (two_zpow_le (by omega))

/-! ### QUANT (R174, R175) -/

theorem quantValues_code {sc q : Nat} {p : Nat × Int} (h : p ∈ quantValues sc q) : p.1 < 16 := by
  obtain ⟨c, hc, hp⟩ := List.mem_filterMap.mp h
  have hc := upFrom_ge _ _ _ hc
  split at hp
  · split at hp
    · cases hp
    · obtain rfl := Option.some.inj hp
      exact (by decide : 8 < 16)
  · obtain rfl := Option.some.inj hp
    exact hc.2

theorem nearestCode_lt (sc q : Nat) (x : Int) : (nearestCode (quantValues sc q) x).1 < 16 := by
  unfold nearestCode
  split
  next p hp => exact quantValues_code (leastBy_some hp).1
  next => decide

theorem quantBlock_codes_lt (spare : Bool) (codes : List Nat) : ∀ c ∈ (quantBlock spare codes).2.2, c < 16 := by
  have hzero : ∀ c ∈ List.replicate 32 0, c < 16 := fun c hc => by rw [List.eq_of_mem_replicate hc]; decide
  unfold quantBlock
  extract_lets vs
  split
  · exact hzero
  split
  · exact hzero
  dsimp only
  split
  next p _ =>
    intro c hc
    obtain ⟨y, -, rfl⟩ := List.mem_map.mp hc
    exact nearestCode_lt ..
  next => exact fun c hc => absurd hc List.not_mem_nil

/-- A lane contributes to its block unless it faults. -/
def quantOk (x : Iss) (a b : Src) (l : Nat) : Bool :=
  match checkTags [(x.src a 0 l, tagF32), (x.src b 0 l, intTags)] with
  | .bad _ => false
  | _ => true

/-- The register that QUANT writes, from the choice of the block of lane `l`. -/
def quantReg (isMeta : Bool) (l : Nat) (c : Nat × Nat × List Nat) : Reg :=
  if isMeta then ⟨BitVec.ofNat 32 (c.1 + 256 * c.2.1), .raw⟩
  else ⟨BitVec.ofNat 32 (((upFrom 0 8).map fun j => lget c.2.2 (8 * (l % 4) + j) 0 * 2 ^ (4 * j)).sum), .e2m1x8⟩

theorem quantBlock_choice (v : Word) (codes : List Nat) :
    (if bitAt v.toNat 0 then quantBlock true codes else quantBlock false codes) = quantBlock (v.getLsbD 0) codes := by
  rw [bitAt_testBit, BitVec.testBit_toNat]
  cases v.getLsbD 0 <;> rfl

/-- QUANT in one thread. -/
def quantLane (d : Dst) (a b : Src) (isMeta : Bool) (x : Iss) (l : Nat) : LaneRes :=
  let ok := quantOk x a b
  let b3 := lget ((upFrom 0 4).map fun k => (blockOfPass x a ok k, quantBlock false (blockOfPass x a ok k).codes,
    quantBlock true (blockOfPass x a ok k).codes)) (l / 32) (⟨false, []⟩, (0, 0, []), (0, 0, []))
  let c := if bitAt (x.val b 0 l).toNat 0 then b3.2.2 else b3.2.1
  fromBlock x d l b3.1 [(x.src a 0 l, tagF32), (x.src b 0 l, intTags)] fun _ => quantReg isMeta l c

theorem exec_quant (h : Hdr) (d : Dst) (a b : Src) (isMeta : Bool) (s : State) :
    exec (.quant h d a b isMeta) s = issue (.quant h d a b isMeta) s (perLane (.fixed 8) (dstNames d 1) (quantLane d a b isMeta)) := rfl

/-- The result of QUANT, from the choice of its block. -/
def QuantResult (isMeta : Bool) (l : Nat) (c : Nat × Nat × List Nat) (rs : List Reg) : Prop :=
  if isMeta then rs = [⟨BitVec.ofNat 32 (c.1 + 2 ^ 8 * c.2.1), .raw⟩]
  else ∃ w, rs = [⟨w, .e2m1x8⟩] ∧ ∀ j < 8, (w.extractLsb' (4 * j) 4).toNat = c.2.2.getD (8 * (l % 4) + j) 0

theorem quantResult_reg {c : Nat × Nat × List Nat} (hc : ∀ v ∈ c.2.2, v < 16) (isMeta : Bool) (l : Nat) :
    QuantResult isMeta l c [quantReg isMeta l c] := by
  cases isMeta with
  | true => exact rfl
  | false => exact ⟨_, rfl, fun j hj => ofNat_digits_extract (d := fun j => lget c.2.2 (8 * (l % 4) + j) 0) (by decide)
      (fun _ => lget_lt (by decide) hc _) (by decide) hj⟩

theorem quant_computes (h : Hdr) (d : Dst) (a b : Src) (isMeta : Bool) : Computes (.quant h d a b isMeta) d 1
    (fun x l => x.holds a 0 l [.fp32] ∧ x.int b 0 l)
    fun x l => QuantResult isMeta l (quantBlock ((x.val b 0 l).getLsbD 0) (x.block a l)) := by
  refine .of_lanes 8 _ (exec_quant h d a b isMeta) fun x hlt hok l hl =>
    ⟨_, rfl, quantResult_reg (quantBlock_codes_lt ((x.val b 0 l).getLsbD 0) (x.block a l)) isMeta l, ?_⟩
  have hlane : ∀ l ∈ x.act, quantOk x a b l = true := fun l hl => by
    have hchk : checkTags [(x.src a 0 l, tagF32), (x.src b 0 l, intTags)] = .good := checkTags_good _ (fits_both (hok l hl).1 (hok l hl).2)
    rw [quantOk, hchk]
  simp only [quantLane, lget_passes _ _ (hlt l hl), blockOfPass_eq hlane fun l hl => (hok l hl).1, quantBlock_choice]
  exact fromBlock_good (fits_both (hok l hl).1 (hok l hl).2)

end Sys2Proof.Machine

open Sys2Proof Sys2Proof.Machine

/-- Settles O14: with FP32 sources in every guard-true lane the model's blocks are those of the statement, and the largest exponent of a
block bounds all its elements. -/
theorem blockFormats : Obligations.BlockFormats := by
  refine ⟨fun h d a b t isMeta => ⟨blkscale_computes h d a t, quant_computes h d a b isMeta⟩,
    fun t codes => ⟨?_, fun h0 => ?_, fun hfin hlt c hc q hq => ?_⟩⟩
  · rintro ⟨c, hc, hq⟩
    exact blkScale_nan (Bool.eq_false_iff.mpr fun h => (all_isFin codes).mp h c hc hq)
  · refine blkScale_none ((all_isFin codes).mpr fun c hc => by rw [h0 c hc]; exact Option.some_ne_none _) (maxExp_zeros fun v hv => ?_)
    obtain ⟨c, hc, rfl⟩ := List.mem_map.mp hv
    exact h0 c hc
  · exact blkScale_bounds hfin hlt hc hq
end

section
/-! The package after reset (R178, R181, R200, R283, R319), for O59: each of its parts has that part's own reset value. -/

namespace Sys2Proof.Machine

theorem lget_replicate {α : Type} (n i : Nat) (x : α) : lget (List.replicate n x) i x = x := by
  simp only [lget, List.getElem?_replicate]; split <;> rfl

theorem State.reset_die (k : Nat) : State.reset.die k = .reset := lget_replicate 8 k _

theorem State.reset_stack (k : Nat) : State.reset.stack k = .reset := lget_replicate 16 k _

theorem State.reset_core (c : Nat) : State.reset.core c = .reset c := by
  simp only [State.core, State.reset, lget, upFrom_eq, List.getElem?_map]
  by_cases h : c < 64 <;> simp [h]

end Sys2Proof.Machine

open Sys2Proof Sys2Proof.Machine

/-- Settles O59: each register is read from a part that has its reset value. -/
theorem resetValues : Obligations.ResetValues := by
  refine ⟨fun k _ => ?_, fun k _ => ?_, fun c _ => ?_, rfl, rfl, rfl, rfl⟩
  · simp only [State.regValue, State.dieReg, State.reset_die, State.reset_core]
    exact ⟨rfl, rfl, rfl, rfl, rfl, rfl, rfl, rfl⟩
  · simp only [State.regValue, State.baseReg, State.reset_stack]
    exact ⟨rfl, rfl, rfl⟩
  · rw [State.reset_core]
    exact ⟨rfl, rfl, rfl⟩
end

section
/-! Bale rings and reservations (R178 to R187, R195, R197), for O50: what a deposit does with a share, and the order in which the waits
of a core receive reservations. -/

namespace Sys2Proof.Machine

/-! ### Deposits (R179, R187) -/

theorem ceilDiv_le (a : Nat) {b : Nat} (hb : 0 < b) : ceilDiv a b ≤ a := by
  rw [ceilDiv, Nat.div_le_iff_le_mul_add_pred hb, Nat.add_sub_assoc hb]
  exact Nat.add_le_add_right (Nat.le_mul_of_pos_left a hb) _

/-- Reservations that all lack bales receive nothing of an empty share. -/
theorem fillResv_zero {l : List Resv} (h : ∀ q ∈ l, q.held < q.amount) : fillResv l 0 = (l, [], 0) := by
  induction l with
  | nil => rfl
  | cons r l ih =>
    obtain ⟨hr, hl⟩ := List.forall_mem_cons.mp h
    simp [fillResv, ih hl, Nat.not_le.mpr hr]

/-- A share that the oldest reservation takes whole. -/
theorem fillResv_first {v : Resv} {l : List Resv} {share : Nat} (hl : ∀ q ∈ l, q.held < q.amount) (hs : share ≤ v.amount - v.held) :
    fillResv (v :: l) share = if v.amount ≤ v.held + share then (l, [{ v with held := v.held + share }], 0)
      else ({ v with held := v.held + share } :: l, [], 0) := by
  simp [fillResv, Nat.min_eq_left hs, fillResv_zero hl]

/-- The only reservation is satisfied by a share that holds what it lacks. -/
theorem fillResv_full {v : Resv} {share : Nat} (hv : v.held ≤ v.amount) (hs : v.amount - v.held ≤ share) :
    fillResv [v] share = ([], [{ v with held := v.amount }], share - (v.amount - v.held)) := by
  simp [fillResv, Nat.min_eq_right hs, Nat.add_sub_cancel' hv]

/-- What is in a share goes to reservations, or is left. -/
theorem fillResv_sum (l : List Resv) (share : Nat) :
    (((fillResv l share).1 ++ (fillResv l share).2.1).map Resv.held).sum + (fillResv l share).2.2 = (l.map Resv.held).sum + share := by
  induction l generalizing share with
  | nil => simp [fillResv]
  | cons r l ih =>
    have h := ih (share - min share (r.amount - r.held))
    simp only [List.map_append, List.sum_append] at h
    simp only [fillResv]
    split <;> simp only [List.map_append, List.map_cons, List.sum_append, List.sum_cons] <;> omega

/-- A core on the ring receives its share, and a disabled one does not (R179). -/
def Core.visited (k : Core) (share : Nat) : Core × Nat := if k.enabled then k.deposit share else (k, share)

/-- The bales of a core: in its rack, and held by its reservations. -/
def Core.bales (k : Core) : Nat := k.rack + ((k.resv ++ k.satisfied).map Resv.held).sum

theorem Core.visited_frame (k : Core) (share : Nat) : (k.visited share).1 =
    { k with rack := (k.visited share).1.rack, resv := (k.visited share).1.resv, satisfied := (k.visited share).1.satisfied } := by
  rw [Core.visited]; split <;> rfl

theorem Core.visited_disabled {k : Core} (h : k.enabled = false) (share : Nat) : k.visited share = (k, share) :=
  if_neg (Bool.eq_false_iff.mp h)

theorem Core.visited_free {k : Core} (he : k.enabled = true) (hr : k.resv = []) (share : Nat) :
    k.visited share = ({ k with rack := k.rack + roomFor k.rack share }, share - roomFor k.rack share) := by
  simp only [Core.visited, if_pos he, Core.deposit, hr, fillResv, List.append_nil, roomFor, rackCap]

theorem Core.visited_short {k : Core} {v : Resv} {l : List Resv} {share : Nat} (he : k.enabled = true) (hk : k.resv = v :: l)
    (hl : ∀ q ∈ l, q.held < q.amount) (hs : share ≤ v.amount - v.held) (hlt : v.held + share < v.amount) :
    k.visited share = ({ k with resv := { v with held := v.held + share } :: l }, 0) := by
  rw [Core.visited, if_pos he, Core.deposit, hk, fillResv_first hl hs, if_neg (Nat.not_le.mpr hlt)]
  simp

theorem Core.visited_satisfied {k : Core} {v : Resv} {l : List Resv} {share : Nat} (he : k.enabled = true) (hk : k.resv = v :: l)
    (hl : ∀ q ∈ l, q.held < q.amount) (hs : share ≤ v.amount - v.held) (hge : v.amount ≤ v.held + share) :
    k.visited share = ({ k with resv := l, satisfied := k.satisfied ++ [{ v with held := v.held + share }] }, 0) := by
  rw [Core.visited, if_pos he, Core.deposit, hk, fillResv_first hl hs, if_pos hge]
  simp

theorem Core.visited_bales (k : Core) (share : Nat) : (k.visited share).1.bales + (k.visited share).2 = k.bales + share := by
  rw [Core.visited]
  split
  · have h := fillResv_sum k.resv share
    simp only [List.map_append, List.sum_append] at h
    simp only [Core.bales, Core.deposit, List.map_append, List.sum_append]
    omega
  · rfl

/-! ### The rings (R178, R179, R195) -/

theorem State.adviceOf_eq (s : State) (k : Nat) : s.adviceOf k = [1, 2, 3].map fun a =>
    ((List.range 8).map fun c => ((s.core (8 * k + c)).ctx.warps.countP fun w => w.2.phase == a)).sum := by
  simp only [State.adviceOf, upFrom_eq, List.map_map, List.countP_eq_length_filter]
  rfl

/-- A die hands bales to its row. -/
def State.toRow (s : State) (k n : Nat) : State := { s with rows := lmod s.rows (k % 4) fun r => { r with bank := r.bank + n } }

theorem baleTurn_up {s : State} {k : Nat} (h : (s.die k).st = .up) : exec (.baleTurn k) s =
    .next (((s.toRow k (min (s.die k).ring.nextRowpart (s.die k).ring.nextAllow)).setDie k fun d => { d with ring := d.ring.newTurn }).setCtl
      fun c => { c with advice := mset c.advice k (s.adviceOf k) }) :=
  congrArg Host.Outcome.next (if_pos h)

theorem baleTurn_down {s : State} {k : Nat} (h : (s.die k).st ≠ .up) : exec (.baleTurn k) s =
    .next (s.toRow k (min (s.die k).ring.nextRowpart (s.die k).ring.nextAllow)) :=
  congrArg Host.Outcome.next (if_neg h)

/-- RING_VISIT of a running die: the core of its place takes of its share what it can, and the rest goes back to the pool. -/
theorem ringVisit_visits {s : State} {k j : Nat} (hk : k < s.dies.length) (hj : j < 8) (hup : (s.die k).st = .up) :
    let r := (s.die k).ring
    let c := 8 * k + (r.turn + j) % 8
    let share := ceilDiv r.pool (8 - j)
    c < s.cores.length → ∃ t, exec (.ringVisit k j) s = .next t ∧ (∀ i, i ≠ c → t.core i = s.core i) ∧ (∀ i, i ≠ k → t.die i = s.die i) ∧
      t.core c = ((s.core c).visited share).1 ∧
      t.die k = { s.die k with ring := { r with pool := r.pool - share + ((s.core c).visited share).2, visit := j + 1 } } := by
  intro r c share hc
  have hcond : ¬((s.die k).st ≠ .up ∨ 8 ≤ j) := by simp [hup, hj]
  refine ⟨_, if_neg hcond, fun i hi => State.core_setCore_ne s _ _ _ hi.symm, fun i hi => lget_lmod_ne _ _ _ _ _ hi.symm, ?_, ?_⟩
  · rw [State.core_setDie, State.core_setCore _ _ _ _ hc, if_pos rfl]; rfl
  · exact (State.die_setDie (s.setCore _ _) k k _ hk).trans (if_pos rfl)

/-! ### The row rings (R180, R197) -/

/-- A stack core on the row ring receives its share; one that is disabled, or whose base die is lost, does not. -/
def SCore.visited (k : SCore) (on : Bool) (share : Nat) : SCore × Nat := if on then k.deposit share else (k, share)

theorem SCore.visited_free {k : SCore} (hr : k.resv = none) (share : Nat) :
    k.visited true share = ({ k with rack := k.rack + roomFor k.rack share }, share - roomFor k.rack share) := by
  simp [SCore.visited, SCore.deposit, hr, fillResv, roomFor, rackCap]

theorem SCore.visited_short {k : SCore} {v : Resv} {share : Nat} (hr : k.resv = some v) (hs : share < v.amount - v.held) :
    k.visited true share = ({ k with resv := some { v with held := v.held + share } }, 0) := by
  have h : fillResv k.resv.toList share = ([{ v with held := v.held + share }], [], 0) := by
    rw [hr, Option.toList_some, fillResv_first (by simp) hs.le, if_neg (by omega)]
  simp [SCore.visited, SCore.deposit, h]

theorem SCore.visited_full {k : SCore} {v : Resv} {share : Nat} (hr : k.resv = some v) (hv : v.held ≤ v.amount)
    (hs : v.amount - v.held ≤ share) :
    let rest := share - (v.amount - v.held)
    k.visited true share = ({ k with resv := none, satisfied := some { v with held := v.amount }, rack := k.rack + roomFor k.rack rest },
      rest - roomFor k.rack rest) := by
  have h : fillResv k.resv.toList share = ([], [{ v with held := v.amount }], share - (v.amount - v.held)) := by
    rw [hr, Option.toList_some, fillResv_full hv hs]
  simp [SCore.visited, SCore.deposit, h, roomFor, rackCap]

/-- ROW_RING_VISIT: what the stack core does not give back of its share leaves the pool. -/
theorem rowRingVisit_takes {s : State} {row j : Nat} (hj : j < 16) {k' : SCore} {given back : Nat} :
    let r := lget s.rows row ⟨0, 0, 0, 0⟩
    let n := 16 * row + (r.turn + j) % 16
    let share := ceilDiv r.pool (16 - j)
    (s.score n).visited ((s.score n).enabled && (s.stack (n / 4)).alive) share = (k', back) → given + back = share →
    exec (.rowRingVisit row j) s = .next
      { s.setScore n (fun _ => k') with rows := lmod s.rows row fun q => { q with pool := q.pool - given, visit := j + 1 } } := by
  intro r n share hk hg
  have hle : share ≤ r.pool := ceilDiv_le r.pool (Nat.sub_pos_of_lt hj)
  refine (if_neg (Nat.not_le.mpr hj)).trans ?_
  rw [SCore.visited] at hk
  simp only [n, r, share] at hk
  simp only [hk]
  refine congrArg (fun l => Host.Outcome.next { s.setScore _ (fun _ => k') with rows := l }) (lmod_congr fun q hq => ?_)
  have hq' : r = q := lget_of_getElem? hq _
  congr 1
  rw [← hq']
  change r.pool - share + back = r.pool - given
  omega

/-! ### Reservations (R184, R186, R197) -/

theorem insertBy_perm {α : Type} (key : α → Nat) (x : α) (ys : List α) : (insertBy key x ys).Perm (x :: ys) := by
  induction ys with
  | nil => exact .refl _
  | cons y ys ih =>
    rw [insertBy]
    split
    · exact .refl _
    · exact (ih.cons y).trans (.swap x y ys)

theorem insertBy_rises {α : Type} {key : α → Nat} (x : α) {ys : List α} (h : ys.Pairwise fun a b => key a ≤ key b) :
    (insertBy key x ys).Pairwise fun a b => key a ≤ key b := by
  induction ys with
  | nil => exact List.pairwise_singleton _ x
  | cons y ys ih =>
    obtain ⟨hy, hys⟩ := List.pairwise_cons.mp h
    rw [insertBy]
    split
    case isTrue hlt => exact List.pairwise_cons.mpr ⟨List.forall_mem_cons.mpr ⟨hlt.le, fun b hb => hlt.le.trans (hy b hb)⟩, h⟩
    case isFalse hlt =>
      refine List.pairwise_cons.mpr ⟨fun b hb => ?_, ih hys⟩
      rcases List.mem_cons.mp ((insertBy_perm key x ys).mem_iff.mp hb) with rfl | hb
      · exact Nat.le_of_not_lt hlt
      · exact hy b hb

theorem sortBy_sorts {α : Type} (key : α → Nat) (xs : List α) :
    (sortBy key xs).Perm xs ∧ (sortBy key xs).Pairwise fun a b => key a ≤ key b := by
  suffices h : ∀ acc : List α, acc.Pairwise (fun a b => key a ≤ key b) →
      (xs.foldl (fun acc x => insertBy key x acc) acc).Perm (acc ++ xs) ∧
      (xs.foldl (fun acc x => insertBy key x acc) acc).Pairwise fun a b => key a ≤ key b from h [] .nil
  induction xs with
  | nil => exact fun acc h => ⟨by simp, h⟩
  | cons x xs ih =>
    intro acc h
    obtain ⟨hp, hr⟩ := ih _ (insertBy_rises x h)
    exact ⟨hp.trans (((insertBy_perm key x acc).append_right xs).trans List.perm_middle.symm), hr⟩

/-- The element with the least key heads the sorted list. -/
theorem sortBy_head {α : Type} {key : α → Nat} {xs : List α} {x : α} (hx : x ∈ xs) (hmin : ∀ y ∈ xs, y = x ∨ key x < key y) :
    ∃ l, sortBy key xs = x :: l := by
  obtain ⟨hp, hr⟩ := sortBy_sorts key xs
  match h : sortBy key xs with
  | [] => simp [h] at hp; simp [hp] at hx
  | a :: l =>
    rw [h] at hp hr
    rcases hmin a (hp.mem_iff.mp List.mem_cons_self) with rfl | hlt
    · exact ⟨l, rfl⟩
    · rcases List.mem_cons.mp (hp.mem_iff.mpr hx) with rfl | hl
      · exact ⟨l, rfl⟩
      · exact absurd ((List.pairwise_cons.mp hr).1 x hl) (Nat.not_le.mpr hlt)

/-- A payer of a core holds a reservation. -/
def Core.reserves (k : Core) (p : Payer) : Prop := (∃ r ∈ k.resv, r.who = p) ∨ ∃ r ∈ k.satisfied, r.who = p

/-- The wait of a warp of a core, that began at `st` for `price`, is due for a reservation. -/
def Core.warpDue (k : Core) (w st price : Nat) : Prop :=
  ∃ wp b, (w, wp) ∈ k.ctx.warps ∧ wp.bwait = some b ∧ b.start = st ∧ b.price = price ∧ st + 2048 ≤ k.cycles ∧ ¬k.reserves (.warp w)

/-- The same of its copy engine. -/
def State.copyDue (s : State) (c st price : Nat) : Prop :=
  ∃ q, s.copyHead c = some q ∧ q.wait = some (st, price) ∧ st + 2048 ≤ (s.core c).cycles ∧ ¬(s.core c).reserves .copy

/-- The due waits of a core before they are sorted, each with its place in the order. -/
def State.waits (s : State) (c : Nat) : List (Nat × Payer × Nat) :=
  let k := s.core c
  let due (st : Nat) (p : Payer) : Bool :=
    st + 2048 ≤ k.cycles ∧ !(k.resv.any (fun r => r.who == p) || k.satisfied.any fun r => r.who == p)
  (k.ctx.warps.filterMap fun w => w.2.bwait.bind fun b =>
    if due b.start (.warp w.1) then some (b.start * 128 + w.1, Payer.warp w.1, b.price) else none) ++
  ((s.copyHead c).bind fun q => q.wait.bind fun b => if due b.1 .copy then some (b.1 * 128 + 64, Payer.copy, b.2) else none).toList

theorem State.dueWaits_eq (s : State) (c : Nat) : s.dueWaits c = (sortBy (fun x => x.1) (s.waits c)).map fun x => x.2 := by
  simp only [State.dueWaits, State.waits]
  congr 3
  · refine List.filterMap_congr fun w _ => ?_
    cases hb : w.2.bwait with
    | none => rfl
    | some b => simp
  · cases s.copyHead c with
    | none => rfl
    | some q =>
      cases hb : q.wait with
      | none => simp [hb]
      | some b => simp [hb]; split <;> rfl

theorem State.mem_waits {s : State} {c : Nat} {e : Nat × Payer × Nat} : e ∈ s.waits c ↔
    (∃ w st price, (s.core c).warpDue w st price ∧ e = (st * 128 + w, .warp w, price)) ∨
    ∃ st price, s.copyDue c st price ∧ e = (st * 128 + 64, .copy, price) := by
  have due (st : Nat) (p : Payer) : decide (st + 2048 ≤ (s.core c).cycles ∧
      (!((s.core c).resv.any (fun r => r.who == p) || (s.core c).satisfied.any fun r => r.who == p)) = true) = true ↔
      st + 2048 ≤ (s.core c).cycles ∧ ¬(s.core c).reserves p := by
    simp [Core.reserves]
  simp only [State.waits, List.mem_append, List.mem_filterMap, Option.mem_toList, Option.bind_eq_some_iff,
    Option.ite_none_right_eq_some, due, Option.some.injEq]
  refine or_congr ⟨?_, ?_⟩ ⟨?_, ?_⟩
  · rintro ⟨⟨w, wp⟩, hw, b, hb, ⟨hs, hr⟩, rfl⟩
    exact ⟨w, b.start, b.price, ⟨wp, b, hw, hb, rfl, rfl, hs, hr⟩, rfl⟩
  · rintro ⟨w, st, price, ⟨wp, b, hw, hb, rfl, rfl, hs, hr⟩, rfl⟩
    exact ⟨(w, wp), hw, b, hb, ⟨hs, hr⟩, rfl⟩
  · rintro ⟨q, hq, b, hb, ⟨hs, hr⟩, rfl⟩
    exact ⟨b.1, b.2, ⟨q, hq, hb, hs, hr⟩, rfl⟩
  · rintro ⟨st, price, ⟨q, hq, hb, hs, hr⟩, rfl⟩
    exact ⟨q, hq, (st, price), hb, ⟨hs, hr⟩, rfl⟩

/-- RESERVATION_GRANT: the wait that comes first among those that are due receives a reservation, if a place is free. -/
theorem reservationGrant_first {s : State} {c n price : Nat} {p : Payer} (hc : c < 64) (hw : (n, p, price) ∈ s.waits c)
    (hmin : ∀ e ∈ s.waits c, e = (n, p, price) ∨ n < e.1) :
    ((s.core c).resv.length < 4 →
      exec (.reservationGrant c) s = .next (s.setCore c fun k => { k with resv := k.resv ++ [⟨p, price, 0⟩] })) ∧
    (4 ≤ (s.core c).resv.length → exec (.reservationGrant c) s = .next s) := by
  obtain ⟨l, hl⟩ := sortBy_head (key := fun e : Nat × Payer × Nat => e.1) hw hmin
  have hd : s.dueWaits c = (p, price) :: l.map fun x => x.2 := by rw [State.dueWaits_eq, hl]; rfl
  have he : exec (.reservationGrant c) s = if 4 ≤ (s.core c).resv.length then .next s
      else .next (s.setCore c fun k => { k with resv := k.resv ++ [⟨p, price, 0⟩] }) := by
    change execReservationGrant c s = _
    simp only [execReservationGrant, if_neg (Nat.not_le.mpr hc), hd]
  exact ⟨fun h => he.trans (if_neg (Nat.not_le.mpr h)), fun h => he.trans (if_pos h)⟩

theorem reservationGrant_none {s : State} {c : Nat} (hc : c < 64) (hw : s.waits c = []) : exec (.reservationGrant c) s = .next s := by
  have hd : s.dueWaits c = [] := by rw [State.dueWaits_eq, hw]; rfl
  change execReservationGrant c s = _
  simp only [execReservationGrant, if_neg (Nat.not_le.mpr hc), hd]

/-- Keys of a map in canonical form name one value each. -/
theorem rising_unique {α : Type} {m : List (Nat × α)} {lo : Nat} (h : risingFrom lo m = true) {i : Nat} {x y : α} (hx : (i, x) ∈ m)
    (hy : (i, y) ∈ m) : x = y := by
  induction m generalizing lo with
  | nil => cases hx
  | cons p m ih =>
    obtain ⟨hp, -⟩ := rising_pairwise h
    have hlt := (List.pairwise_cons.mp hp).1
    simp only [risingFrom, Bool.and_eq_true] at h
    rcases List.mem_cons.mp hx with rfl | hx' <;> rcases List.mem_cons.mp hy with hy' | hy'
    · exact (Prod.mk.inj hy').2.symm
    · exact absurd (hlt _ hy') (lt_irrefl _)
    · exact absurd (hlt _ hx') (hy' ▸ lt_irrefl _)
    · exact ih h.2 hx' hy'

/-- R184, R186: the earliest due wait, of equal starts that of the lowest warp, is served first. -/
theorem reservationGrant_warp {s : State} {c : Nat} (hc : c < 64) (hr : risingFrom 0 (s.core c).ctx.warps = true)
    (hn : ∀ w ∈ (s.core c).ctx.warps, w.1 < 64) {w st price : Nat} (hw : (s.core c).warpDue w st price)
    (hmin : ∀ v st' p, (s.core c).warpDue v st' p → v = w ∨ st < st' ∨ (st = st' ∧ w < v)) (hcopy : ∀ st' p, s.copyDue c st' p → st ≤ st') :
    ((s.core c).resv.length < 4 →
      exec (.reservationGrant c) s = .next (s.setCore c fun k => { k with resv := k.resv ++ [⟨.warp w, price, 0⟩] })) ∧
    (4 ≤ (s.core c).resv.length → exec (.reservationGrant c) s = .next s) := by
  refine reservationGrant_first hc (State.mem_waits.mpr (.inl ⟨w, st, price, hw, rfl⟩)) fun e he => ?_
  obtain ⟨wp, b, hwp, hb, hst, hpr, -⟩ := hw
  have hw64 := hn _ hwp
  obtain ⟨v, st', p, hv, rfl⟩ | ⟨st', p, hq, rfl⟩ := State.mem_waits.mp he
  · rcases hmin v st' p hv with rfl | h
    · obtain ⟨wp', b', hwp', hb', hst', hpr', -⟩ := hv
      obtain rfl := rising_unique hr hwp hwp'
      obtain rfl := Option.some.inj (hb.symm.trans hb')
      exact .inl (by rw [← hst, ← hst', ← hpr, ← hpr'])
    · exact .inr (by rcases h with h | h <;> (simp only; omega))
  · have := hcopy st' p hq
    exact .inr (by simp only; omega)

/-- R184: the copy engine's wait comes behind those of warps that began with it. -/
theorem reservationGrant_copy {s : State} {c : Nat} (hc : c < 64) {st price : Nat} (hq : s.copyDue c st price)
    (hmin : ∀ v st' p, (s.core c).warpDue v st' p → st < st') :
    ((s.core c).resv.length < 4 →
      exec (.reservationGrant c) s = .next (s.setCore c fun k => { k with resv := k.resv ++ [⟨.copy, price, 0⟩] })) ∧
    (4 ≤ (s.core c).resv.length → exec (.reservationGrant c) s = .next s) := by
  refine reservationGrant_first hc (State.mem_waits.mpr (.inr ⟨st, price, hq, rfl⟩)) fun e he => ?_
  obtain ⟨v, st', p, hv, rfl⟩ | ⟨st', p, hq', rfl⟩ := State.mem_waits.mp he
  · have := hmin v st' p hv
    exact .inr (by simp only; omega)
  · obtain ⟨q, hh, hw, -⟩ := hq
    obtain ⟨q', hh', hw', -⟩ := hq'
    obtain rfl := Option.some.inj (hh.symm.trans hh')
    obtain ⟨rfl, rfl⟩ := Prod.mk.inj (Option.some.inj (hw.symm.trans hw'))
    exact .inl rfl

theorem reservationGrant_score {s : State} {n price : Nat} (h : s.scoreDue n = some price) :
    exec (.reservationGrant (64 + n)) s = .next (s.setScore n fun q => { q with resv := some ⟨.warp 0, price, 0⟩ }) := by
  change execReservationGrant (64 + n) s = _
  simp only [execReservationGrant, if_pos (Nat.le_add_right 64 n), Nat.add_sub_cancel_left, h]

theorem reservationGrant_score_none {s : State} {n : Nat} (h : s.scoreDue n = none) : exec (.reservationGrant (64 + n)) s = .next s := by
  change execReservationGrant (64 + n) s = _
  simp only [execReservationGrant, if_pos (Nat.le_add_right 64 n), Nat.add_sub_cancel_left, h]

/-- Whether a stack core's wait is due for a reservation. -/
theorem State.scoreDue_iff {s : State} {n price : Nat} : s.scoreDue n = some price ↔ ∃ b, (s.score n).bwait = some b ∧
    b.start + 2048 ≤ (s.stack (n / 4)).scCycles ∧ (s.score n).resv = none ∧ (s.score n).satisfied = none ∧ b.price = price := by
  simp only [State.scoreDue]
  cases (s.score n).bwait <;> simp [and_assoc]

/-! ### Half-column mode (R192) -/

theorem MEngine.midTile_iff (m : MEngine) : m.midTile = true ↔ ∃ x, m.cur = some x ∧ m.midTile = true := by
  rw [MEngine.midTile]
  cases m.cur <;> simp

theorem State.halfDone_iff (s : State) (c : Nat) : s.halfDone c = true ↔
    (s.core c).half = true ∧ (s.core c).regulator ∉ s.ctl.alarmOn ∧
      mget s.ctl.alarmClear (s.core c).regulator 0 + 4096 ≤ s.clock ∧ ¬(s.core c).ctx.mat.midTile = true ∧
      ∀ x, (s.core c).twin = .parked x → ¬x.mat.midTile = true := by
  simp only [State.halfDone]
  cases (s.core c).twin <;> simp [and_assoc]

theorem regulatorAlarm_on {s : State} {reg : Nat} (h : reg ∈ s.ctl.alarmOn) : exec (.regulatorAlarm reg) s = .next s :=
  if_pos (List.contains_iff_mem.mpr h)

theorem regulatorAlarmClear_off {s : State} {reg : Nat} (h : reg ∉ s.ctl.alarmOn) : exec (.regulatorAlarmClear reg) s = .next s :=
  if_pos (by simpa using h)

/-- The cores of a regulator in half-column mode. -/
def State.halved (s : State) (reg : Nat) : State :=
  { s with cores := s.cores.map fun (k : Core) => if k.regulator = reg then { k with half := true } else k }

theorem State.halved_core (s : State) (reg c : Nat) (hc : c < s.cores.length) :
    (s.halved reg).core c = if (s.core c).regulator = reg then { s.core c with half := true } else s.core c := by
  simp [State.core, State.halved, lget, hc]

theorem State.halved_frame (s : State) (reg c : Nat) :
    (s.halved reg).core c = { s.core c with half := ((s.halved reg).core c).half } := by
  by_cases hc : c < s.cores.length
  · rw [s.halved_core reg c hc]; split <;> rfl
  · simp [State.core, State.halved, lget, hc]

/-- The package when the alarm of a regulator has begun, but for its record. -/
def State.alarmed (s : State) (reg : Nat) : State :=
  (s.setCtl fun k => { k with alarmOn := markIn k.alarmOn reg, alarms := mset k.alarms reg (mget k.alarms reg 0 + 1) }).halved reg

/-- R192: an alarm that begins puts the regulator's cores into half-column mode, is counted and is reported. -/
theorem regulatorAlarm_begins {s : State} {reg : Nat} (h : reg ∉ s.ctl.alarmOn) (hr : reg < 2048) :
    ∃ t, exec (.regulatorAlarm reg) s = .next t ∧ (∀ i, i ∈ t.ctl.alarmOn ↔ i = reg ∨ i ∈ s.ctl.alarmOn) ∧
      mget t.ctl.alarms reg 0 = mget s.ctl.alarms reg 0 + 1 ∧ t.core = (s.halved reg).core ∧ s.tells t 8 0 0 7 reg := by
  obtain ⟨e, d, p, m, o, he⟩ := (s.alarmed reg).event_ctl 8 0 0 7 reg (s.alarmed reg).ctl.ticks 0 reg
  refine ⟨_, if_neg (by simpa using h), ?_, ?_, rfl,
    State.tells_of_events (State.event_tells_unit (s.alarmed reg) (s.alarmed reg).ctl.ticks 0 reg (by decide) (by decide) (by decide)
      (by decide) hr) rfl rfl rfl⟩
  · exact fun i => (congrArg (i ∈ ·.alarmOn) he).to_iff.trans (mem_markIn _ _ _)
  · exact (congrArg (mget ·.alarms reg 0) he).trans ((mget_mset ..).trans (if_pos rfl))

/-- The package when the alarm of a regulator has ended, but for its record. -/
def State.unalarmed (s : State) (reg : Nat) : State :=
  s.setCtl fun k => { k with alarmOn := markOut k.alarmOn reg, alarmClear := mset k.alarmClear reg s.clock }

theorem regulatorAlarmClear_ends {s : State} {reg : Nat} (h : reg ∈ s.ctl.alarmOn) (hr : reg < 2048) :
    ∃ t, exec (.regulatorAlarmClear reg) s = .next t ∧ (∀ i, i ∈ t.ctl.alarmOn ↔ i ≠ reg ∧ i ∈ s.ctl.alarmOn) ∧
      mget t.ctl.alarmClear reg 0 = s.clock ∧ t.cores = s.cores ∧ s.tells t 8 1 0 7 reg := by
  obtain ⟨e, d, p, m, o, he⟩ := (s.unalarmed reg).event_ctl 8 1 0 7 reg (s.unalarmed reg).ctl.ticks 0 reg
  refine ⟨_, if_neg (by simpa using h), fun i => ?_, ?_, rfl,
    State.tells_of_events (State.event_tells_unit (s.unalarmed reg) (s.unalarmed reg).ctl.ticks 0 reg (by decide) (by decide) (by decide)
      (by decide) hr) rfl rfl rfl⟩
  · exact (congrArg (i ∈ ·.alarmOn) he).to_iff.trans ((mem_markOut _ _ _).trans and_comm)
  · exact (congrArg (mget ·.alarmClear reg 0) he).trans ((mget_mset ..).trans (if_pos rfl))

end Sys2Proof.Machine

open Sys2Proof Sys2Proof.Machine

/-- Settles O50: a share is divided as `Core.visited` and `SCore.visited` say, and the due waits are served in the order of `State.waits`. -/
theorem baleEvents : Obligations.BaleEvents := by
  refine ⟨fun s k hk hd hc hr => ⟨?_, fun j hj hup => ?_⟩, fun s row hrow hr hn => ⟨rfl, fun j hj => ?_⟩,
    fun s c hc hcs hss => ⟨?_, ?_, ?_, ?_, rfl, rfl⟩⟩
  · by_cases h : (s.die k).st = .up
    · refine ⟨_, baleTurn_up h, rfl, fun j hj => lget_lmod_ne _ _ _ _ _ hj.symm, rfl, fun hn => absurd h hn, fun _ => ⟨?_, ?_⟩⟩
      · rw [State.die_setCtl, State.die_setDie _ _ _ _ (hd ▸ hk), if_pos rfl]; rfl
      · rw [← State.adviceOf_eq]
        simp [State.setCtl]
    · exact ⟨_, baleTurn_down h, rfl, fun _ _ => rfl, rfl, fun _ => ⟨rfl, rfl⟩, fun hu => absurd hu h⟩
  · intro c core share total
    have hle : share ≤ (s.die k).ring.pool := ceilDiv_le _ (Nat.sub_pos_of_lt hj)
    obtain ⟨t, ht, hcores, hdies, hcore, hdie⟩ := ringVisit_visits (hd ▸ hk) hj hup (by rw [hc]; omega)
    change t.core c = (core.visited share).1 at hcore
    change t.die k = { s.die k with ring := { (s.die k).ring with
      pool := (s.die k).ring.pool - share + (core.visited share).2, visit := j + 1 } } at hdie
    have hpool : (t.die k).ring.pool = (s.die k).ring.pool - share + (core.visited share).2 := by rw [hdie]
    have hfr := core.visited_frame share
    have hbales := core.visited_bales share
    refine ⟨t, ht, hcores, hdies, by rw [hpool, hdie], by rw [hcore]; exact hfr, fun he => ?_, fun he hr => ?_,
      fun he v l hv hl hs => ?_, ?_⟩
    · rw [hcore, hpool, Core.visited_disabled he]
      exact ⟨rfl, Nat.sub_add_cancel hle⟩
    · rw [hcore, hpool, Core.visited_free he hr]
      refine ⟨rfl, ?_⟩
      simp only [roomFor]
      omega
    · rcases Nat.lt_or_ge (v.held + share) v.amount with hlt | hge
      · rw [hcore, hpool, Core.visited_short he hv hl hs hlt]
        exact ⟨rfl, rfl, fun _ => ⟨rfl, rfl⟩, fun heq => absurd heq hlt.ne⟩
      · rw [hcore, hpool, Core.visited_satisfied he hv hl hs hge]
        exact ⟨rfl, rfl, fun hlt => absurd hge (Nat.not_le.mpr hlt), fun heq hnil => ⟨hnil, by rw [heq]⟩⟩
    · change (t.core c).bales + (t.die k).ring.pool = core.bales + (s.die k).ring.pool
      rw [hcore, hpool]
      omega
  · intro n k share on took
    have took' {k' : SCore} {given back : Nat} (hon : (k.enabled && (s.stack (n / 4)).alive) = true)
        (hv : k.visited true share = (k', back)) (hg : given + back = share) : took k' given :=
      rowRingVisit_takes hj (by rw [← hon] at hv; exact hv) hg
    have hroom (m : Nat) : roomFor k.rack m ≤ m := Nat.min_le_left _ _
    refine ⟨fun hoff => ?_, fun ⟨he, ha⟩ hr => ?_, fun ⟨he, ha⟩ v hr hs => ?_, fun ⟨he, ha⟩ v hr hv hs => ?_⟩
    · have hoff' : (k.enabled && (s.stack (n / 4)).alive) = false := by simpa [on] using hoff
      exact rowRingVisit_takes hj (if_neg (Bool.eq_false_iff.mp hoff')) (Nat.zero_add _)
    · exact took' (by simp [he, ha]) (SCore.visited_free hr share) (Nat.add_sub_cancel' (hroom _))
    · exact took' (by simp [he, ha]) (SCore.visited_short hr hs) rfl
    · refine took' (by simp [he, ha]) (SCore.visited_full hr hv hs) ?_
      have := hroom (share - (v.amount - v.held))
      omega
  · intro hr hn
    refine ⟨fun w st price hw hmin hcopy => reservationGrant_warp hc hr hn hw hmin hcopy,
      fun st price hq hmin => reservationGrant_copy hc hq hmin, fun hw hq => reservationGrant_none hc ?_⟩
    refine List.eq_nil_iff_forall_not_mem.mpr fun e he => ?_
    obtain ⟨w, st, price, h, -⟩ | ⟨st, price, h, -⟩ := State.mem_waits.mp he
    · exact hw w st price h
    · exact hq st price h
  · refine ⟨fun b hb => ?_, fun hb => ?_⟩
    · obtain ⟨hw, hs, hr, hsat⟩ := hb
      exact reservationGrant_score (State.scoreDue_iff.mpr ⟨b, hw, hs, hr, hsat, rfl⟩)
    · refine reservationGrant_score_none (Option.eq_none_iff_forall_ne_some.mpr fun p hp => ?_)
      obtain ⟨b, hw, hs, hr, hsat, -⟩ := State.scoreDue_iff.mp hp
      exact hb b ⟨hw, hs, hr, hsat⟩
  · intro reg hreg
    refine ⟨regulatorAlarm_on, regulatorAlarmClear_off, fun h => ?_, fun h => regulatorAlarmClear_ends h (by omega)⟩
    obtain ⟨t, ht, hon, hcount, hcores, htell⟩ := regulatorAlarm_begins h (by omega)
    refine ⟨t, ht, hon, hcount, fun i => ?_, fun i hi => ?_, htell⟩
    · rw [hcores]; exact s.halved_frame reg i
    · rw [hcores, s.halved_core reg i (hcs ▸ hi)]; split <;> rfl
  · intro tile ended
    have hended : s.halfDone c = true ↔ ended :=
      (s.halfDone_iff c).trans (by simp only [ended, tile, ← MEngine.midTile_iff])
    exact ⟨fun h => congrArg Host.Outcome.next (if_pos (hended.mpr h)), fun h => congrArg Host.Outcome.next (if_neg (mt hended.mp h))⟩
end

section
/-! A copy that fails while a thread waits for it (R298, R289, R440), for O46. -/

namespace Sys2Proof.Machine

/-- A copy command that has ended with an E_REMOTE fault. -/
def failedCopy : CopyCmd :=
  { id := 0, warp := 0, launch := loadLaunch.id, lanes := [0], pc := 0, form := 0, gran := 0, desc := [], idxAddr := 0, idxShed := false,
    add := none, ra := false, sheds := [], slots := [], pos := 0, marked := false, nonRes := false, penBox := none, filled := false,
    acqDie := 0, acqPkg := 0, asid := 0, sec := false, sLevel := false, sync := .none, bytes := 0, stopped := false, waitPen := false,
    wait := none, drawn := 0, cover := [], fault := some (0x0D, .timeout, 0) }

/-- The warp that issued it: thread 0 waits by WAITC until no copy is outstanding. -/
def waitingWarp : Warp :=
  { Warp.new loadLaunch 0 0 0 0 with
    threads := [{ Thread.new loadLaunch 0 0 0 with st := .engine .copy 0 7 }], copyOut := [⟨0, false, false⟩] }

/-- The package with that warp on core 0, whose launch runs and has no handler. -/
def waitingCopy : State :=
  { State.reset with launches := [(loadLaunch.id, loadLaunch)] }.setCore 0 fun k =>
    { k with ctx := { k.ctx with warps := [(0, waitingWarp)], copyQ := [failedCopy] } }

/-- The fault of the copy ends the launch. -/
theorem copyComplete_endsLaunch : ∃ t, exec (.copyComplete 0 0) waitingCopy = .next t ∧
    t.launches = [(loadLaunch.id, { loadLaunch with ended := some (.fault, 0x0D) })] := ⟨_, rfl, rfl⟩

end Sys2Proof.Machine

open Sys2Proof Sys2Proof.Machine

/-- Refutes O46: the thread that waits takes the fault of the failed copy (R289), and without a handler that ends its launch, which is
not part of the core; the statement says that nothing but the core changes. -/
theorem not_engineEvents : ¬ Obligations.EngineEvents := by
  rintro ⟨hcopy, -⟩
  obtain ⟨-, hcomplete⟩ := hcopy waitingCopy 0 failedCopy [] (by decide) rfl rfl rfl (by decide) rfl (by decide)
  obtain ⟨-, hends, -⟩ := hcomplete waitingWarp [] (fun y hy => by cases hy) rfl rfl rfl fun o ho => by cases ho
  obtain ⟨t, ht, honly, -⟩ := hends (.inl (by decide)) (.inr (.inl (by decide))) (.inl rfl)
  obtain ⟨u, hu, hlaunch⟩ := copyComplete_endsLaunch
  obtain rfl : u = t := Host.Outcome.next.inj (hu.symm.trans ht)
  have hsame : u.launches = [(loadLaunch.id, loadLaunch)] := congrArg Prod.fst honly.work
  exact absurd (hlaunch.symm.trans hsame) (by decide)
end
